-- ==== Sys2Proof/Word.lean ====
section
/-! DEFINITION. The word types of the DX3 (spec 00/R3): byte, half, word and doubleword. -/

namespace Sys2Proof

/-- A byte (8 bits). -/
abbrev Byte := BitVec 8
/-- A half (16 bits). -/
abbrev Half := BitVec 16
/-- A word (32 bits). -/
abbrev W32 := BitVec 32
/-- A doubleword (64 bits): the width of the control thread's registers (08/R181). -/
abbrev Word := BitVec 64

end Sys2Proof
end

