-- ==== Sys2Proof/Config.lean ====
section
/-! DEFINITION. What the part's maker fixes and the manual does not print, and the free values: constants without a
body, so that nothing can be proved of their values. -/

namespace Sys2Proof

/-- The SM3 digest of a byte string (18/R427-R429; the algorithm is not in the manual: DESIGN CHOICE, log 10). -/
opaque Config.sm3 : List Byte → BitVec 256

/-- Whether an image's SM2 signature verifies under the fused key digest (18/R427, DESIGN CHOICE, log 10). -/
opaque Config.sm2Verify : List Byte → Bool

/-- The SM2 signature (r, s) of a byte string under the fused private key (18/R429, DESIGN CHOICE, log 10). -/
opaque Config.sm2Sign : List Byte → BitVec 512

/-- The fused SM2 public key (18/R428, DESIGN CHOICE, log 10). -/
opaque Config.publicKey : BitVec 512

/-- The boot image in the module's flash (19/R433, R437, DESIGN CHOICE, log 10). -/
opaque Config.bootImage : List Byte

/-- The fixed hash of a set word and a tag that picks a combine's port (18/R423; not in the manual: DESIGN CHOICE, log 10). -/
opaque Config.combinePort : Word → Half → Nat

/-- The fixed hash of a member and bits 47:8 of a local address that picks a request's port (18/R413; not in the manual: DESIGN
CHOICE, log 10). -/
opaque Config.requestPort : Nat → Nat → Nat

/-- The number that stands for a kind of event record (18/R411; not in the manual: DESIGN CHOICE, log 30). -/
opaque Config.eventCode : Nat → Word

/-- FREE VALUES, drawn by the counter `State.free`: `EADDR` of a fault for which 17 Table 17.2 names no address, and
the three words of an event record whose contents 18/R411 does not give (DESIGN CHOICE, log 20). -/
opaque Config.freeWord : Nat → Word

end Sys2Proof
end

