-- ==== Sys2Proof/Syntax.lean ====
section
/-! DEFINITION. The steps of the part: one constructor of `Instr` for every row of spec/opcode_table.json.
Control-thread words (02 Tables 2.11-2.14), fabric instructions (02 Table 2.19) and the device's and the
outside's events (95_what_each_step_holds.md). Operands are the encoding's fields; an event's arguments name
the unit that acts and what the outside supplies. -/

namespace Sys2Proof

/-- A 6-bit register field (02 Table 2.1): 0-15 name `g0`-`g15`, 16-47 name `w0`-`w31`, 48-63 are reserved. -/
abbrev Reg := BitVec 6

/-- A source field with its wait bit (02/R21): `wait` set stalls on an empty register, clear traps. -/
structure Src where
  reg  : Reg
  wait : Bool
  deriving DecidableEq, Repr

/-- The fields of a fabric instruction below its OPC (02 Table 2.15). -/
structure FWord where
  pm  : BitVec 3
  pk  : BitVec 2
  fa  : BitVec 3
  fb  : BitVec 3
  fd  : BitVec 3
  sh  : BitVec 3
  t0  : BitVec 9
  t1  : BitVec 9
  imm : BitVec 21
  deriving DecidableEq, Repr

/-- A fabric instruction's place: the casting (256 × cluster + index), its block and its slot (09/R213). -/
structure NodeRef where
  cast : Nat
  blk  : Nat
  slot : Nat
  deriving DecidableEq, Repr

/-- A launch: its queue and its slot counter (16/R378). -/
structure LaunchRef where
  q : Nat
  n : Nat
  deriving DecidableEq, Repr

/-- The units whose corrected errors are counted (17 Table 17.5). -/
inductive UnitRef where
  | hbmRow (stack bank row : Nat)
  | l2Way (slice set way : Nat)
  | scratchFrame (cluster frame : Nat)
  | lane (port lane : Nat)
  | seamLane (lane : Nat)
  | windowFile (key : Nat)
  | contextStore (key : Nat)
  deriving DecidableEq, Repr

/-- Who issued a request to the host window (18/R410): a thread's producer, a held access of a memory node,
or the head entry of a streamer queue. -/
inductive Requester where
  | producer (key idx : Nat)
  | node (n : NodeRef) (idx : Nat)
  | queue (cl isl q : Nat)
  deriving DecidableEq, Repr

/-- The AtomicOp requests of the host (18 Table 18.1). -/
inductive HostAtomic where
  | fetchAdd (v : Word)
  | swap (v : Word)
  | cas (cmp v : Word)
  deriving DecidableEq, Repr

/-- One member's part of a combine, as it reaches the combine (18/R423): its number among that member's combines with the
set word, its operator and TAG, and its LEN bytes as words. -/
structure Contrib where
  nth   : Nat
  op    : BitVec 3
  tag   : BitVec 16
  words : List (BitVec 32)
  deriving DecidableEq, Repr

/-- Requests of another pod member that reach this one (18/R413, R418, R424, R425). -/
inductive PodReq where
  | read (pa n : Nat)
  | write (pa : Nat) (bytes : List Byte)
  | atomic (op : BitVec 4) (pa : Nat) (v cmp : Word)
  | multicast (asid : BitVec 14) (dst flag : Word) (bytes : List Byte)
  | barrier (idx : BitVec 8) (asid : BitVec 14) (count : BitVec 16)
  | treeValue (set : Word) (level : Nat) (part : Contrib) (fl : BitVec 6)
  | result (set : Word) (nth : Nat) (words : List (BitVec 32)) (fl : BitVec 6)
  deriving DecidableEq, Repr

/-- The two moments of a module reset (19 Table 19.3): its start, and the end of bring-up. -/
inductive ResetPhase where
  | start
  | finish
  deriving DecidableEq, Repr

/-- One step of the part. Each constructor's comment is the opcode table's own summary and rule. -/
inductive Instr where
  /-- Integer add of two registers. (R195) -/
  | add (d : Reg) (a : Src) (b : Src)
  /-- Integer subtract of two registers. (R195) -/
  | sub (d : Reg) (a : Src) (b : Src)
  /-- Low 64 bits of the signed product. (R195) -/
  | mul (d : Reg) (a : Src) (b : Src)
  /-- High 64 bits of the signed 128-bit product. (R195) -/
  | mulh (d : Reg) (a : Src) (b : Src)
  /-- High 64 bits of the unsigned 128-bit product. (R195) -/
  | mulhu (d : Reg) (a : Src) (b : Src)
  /-- Signed division truncating toward zero, never trapping. (R196) -/
  | div (d : Reg) (a : Src) (b : Src)
  /-- Unsigned division, never trapping. (R196) -/
  | divu (d : Reg) (a : Src) (b : Src)
  /-- Signed remainder with the sign of the dividend. (R196) -/
  | rem (d : Reg) (a : Src) (b : Src)
  /-- Unsigned remainder. (R196) -/
  | remu (d : Reg) (a : Src) (b : Src)
  /-- Bitwise and of two registers. (R195) -/
  | and (d : Reg) (a : Src) (b : Src)
  /-- Bitwise or of two registers. (R195) -/
  | or (d : Reg) (a : Src) (b : Src)
  /-- Bitwise exclusive or of two registers. (R195) -/
  | xor (d : Reg) (a : Src) (b : Src)
  /-- a and not b. (R195) -/
  | andn (d : Reg) (a : Src) (b : Src)
  /-- Logical shift left by b mod 64. (R195) -/
  | shl (d : Reg) (a : Src) (b : Src)
  /-- Logical shift right by b mod 64. (R195) -/
  | shr (d : Reg) (a : Src) (b : Src)
  /-- Arithmetic shift right by b mod 64. (R195) -/
  | sra (d : Reg) (a : Src) (b : Src)
  /-- Rotate left by b mod 64. (R195) -/
  | rot (d : Reg) (a : Src) (b : Src)
  /-- Signed minimum. (R195) -/
  | min (d : Reg) (a : Src) (b : Src)
  /-- Unsigned minimum. (R195) -/
  | minu (d : Reg) (a : Src) (b : Src)
  /-- Signed maximum. (R195) -/
  | max (d : Reg) (a : Src) (b : Src)
  /-- Unsigned maximum. (R195) -/
  | maxu (d : Reg) (a : Src) (b : Src)
  /-- Register copy. (R195) -/
  | mov (d : Reg) (a : Src)
  /-- Count of leading zero bits. (R195) -/
  | clz (d : Reg) (a : Src)
  /-- Count of one bits. (R195) -/
  | popc (d : Reg) (a : Src)
  /-- Add a sign-extended 12-bit immediate. (R197) -/
  | addi (d : Reg) (a : Src) (i : BitVec 12)
  /-- And with a sign-extended immediate. (R197) -/
  | andi (d : Reg) (a : Src) (i : BitVec 12)
  /-- Or with a sign-extended immediate. (R197) -/
  | ori (d : Reg) (a : Src) (i : BitVec 12)
  /-- Exclusive or with a sign-extended immediate. (R197) -/
  | xori (d : Reg) (a : Src) (i : BitVec 12)
  /-- Shift left by an immediate count. (R197) -/
  | shli (d : Reg) (a : Src) (n : BitVec 6)
  /-- Logical shift right by an immediate count. (R197) -/
  | shri (d : Reg) (a : Src) (n : BitVec 6)
  /-- Arithmetic shift right by an immediate count. (R197) -/
  | srai (d : Reg) (a : Src) (n : BitVec 6)
  /-- Sign-extended bit-field extract. (R198) -/
  | bfx (d : Reg) (a : Src) (p : BitVec 6) (l : BitVec 6)
  /-- Zero-extended bit-field extract. (R198) -/
  | bfxu (d : Reg) (a : Src) (p : BitVec 6) (l : BitVec 6)
  /-- Bit-field insert into d. (R198) -/
  | bfi (d : Reg) (a : Src) (p : BitVec 6) (l : BitVec 6)
  /-- Sign-extend from 8, 16 or 32 bits. (R198) -/
  | sext (d : Reg) (a : Src) (i : BitVec 12)
  /-- Load a sign-extended 12-bit immediate. (R197) -/
  | movi (d : Reg) (i : BitVec 12)
  /-- Load a zero-extended 32-bit immediate (two words). (R197) -/
  | movl (d : Reg) (imm : BitVec 32)
  /-- Set the upper 32 bits from a 32-bit immediate (two words). (R197) -/
  | movhi (d : Reg) (a : Src) (imm : BitVec 32)
  /-- Predicate := a = b. (R199) -/
  | cmpEq (d : BitVec 3) (a : Src) (b : Src)
  /-- Predicate := a ≠ b. (R199) -/
  | cmpNe (d : BitVec 3) (a : Src) (b : Src)
  /-- Predicate := signed a < b. (R199) -/
  | cmpLt (d : BitVec 3) (a : Src) (b : Src)
  /-- Predicate := unsigned a < b. (R199) -/
  | cmpLtu (d : BitVec 3) (a : Src) (b : Src)
  /-- Predicate := signed a ≤ b. (R199) -/
  | cmpLe (d : BitVec 3) (a : Src) (b : Src)
  /-- Predicate := unsigned a ≤ b. (R199) -/
  | cmpLeu (d : BitVec 3) (a : Src) (b : Src)
  /-- Predicate and. (R199) -/
  | pand (d : BitVec 3) (a : BitVec 3) (b : BitVec 3)
  /-- Predicate or. (R199) -/
  | por (d : BitVec 3) (a : BitVec 3) (b : BitVec 3)
  /-- Predicate exclusive or. (R199) -/
  | pxor (d : BitVec 3) (a : BitVec 3) (b : BitVec 3)
  /-- Predicate not. (R199) -/
  | pnot (d : BitVec 3) (a : BitVec 3)
  /-- Select a or b by a predicate. (R199) -/
  | psel (d : Reg) (a : Src) (b : Src) (k : BitVec 3)
  /-- Load a sign-extended byte. (R201) -/
  | ldB (d : Reg) (a : Src) (h : BitVec 4) (o : BitVec 8)
  /-- Load a zero-extended byte. (R201) -/
  | ldBu (d : Reg) (a : Src) (h : BitVec 4) (o : BitVec 8)
  /-- Load a sign-extended half. (R201) -/
  | ldH (d : Reg) (a : Src) (h : BitVec 4) (o : BitVec 8)
  /-- Load a zero-extended half. (R201) -/
  | ldHu (d : Reg) (a : Src) (h : BitVec 4) (o : BitVec 8)
  /-- Load a sign-extended word. (R201) -/
  | ldW (d : Reg) (a : Src) (h : BitVec 4) (o : BitVec 8)
  /-- Load a zero-extended word. (R201) -/
  | ldWu (d : Reg) (a : Src) (h : BitVec 4) (o : BitVec 8)
  /-- Load a doubleword. (R201) -/
  | ldD (d : Reg) (a : Src) (h : BitVec 4) (o : BitVec 8)
  /-- Store a byte. (R202) -/
  | stB (s : Reg) (a : Src) (h : BitVec 4) (o : BitVec 8)
  /-- Store a half. (R202) -/
  | stH (s : Reg) (a : Src) (h : BitVec 4) (o : BitVec 8)
  /-- Store a word. (R202) -/
  | stW (s : Reg) (a : Src) (h : BitVec 4) (o : BitVec 8)
  /-- Store a doubleword. (R202) -/
  | stD (s : Reg) (a : Src) (h : BitVec 4) (o : BitVec 8)
  /-- Hint to bring a line into its home L2 slice. (R203) -/
  | pfetch (a : Src) (h : BitVec 4) (o : BitVec 8)
  /-- Atomic add at the target. (R205) -/
  | amoAdd (d : Reg) (a : Src) (h : BitVec 4) (p : BitVec 3)
  /-- Atomic and. (R205) -/
  | amoAnd (d : Reg) (a : Src) (h : BitVec 4) (p : BitVec 3)
  /-- Atomic or. (R205) -/
  | amoOr (d : Reg) (a : Src) (h : BitVec 4) (p : BitVec 3)
  /-- Atomic exclusive or. (R205) -/
  | amoXor (d : Reg) (a : Src) (h : BitVec 4) (p : BitVec 3)
  /-- Atomic signed minimum. (R205) -/
  | amoMin (d : Reg) (a : Src) (h : BitVec 4) (p : BitVec 3)
  /-- Atomic unsigned minimum. (R205) -/
  | amoMinu (d : Reg) (a : Src) (h : BitVec 4) (p : BitVec 3)
  /-- Atomic signed maximum. (R205) -/
  | amoMax (d : Reg) (a : Src) (h : BitVec 4) (p : BitVec 3)
  /-- Atomic unsigned maximum. (R205) -/
  | amoMaxu (d : Reg) (a : Src) (h : BitVec 4) (p : BitVec 3)
  /-- Atomic swap. (R205) -/
  | amoSwap (d : Reg) (a : Src) (h : BitVec 4) (p : BitVec 3)
  /-- Atomic compare and swap. (R205) -/
  | amoCas (d : Reg) (a : Src) (h : BitVec 4) (p : BitVec 3)
  /-- Release then acquire at the named scopes. (R207) -/
  | fence (s : BitVec 3) (g : BitVec 4)
  /-- Derive a shrunken sub-region handle. (R95) -/
  | hsub (d : BitVec 4) (a : Src) (b : Src) (s : BitVec 4)
  /-- Derive a handle with fewer rights. (R95) -/
  | hrights (d : BitVec 4) (s : BitVec 4) (m : BitVec 5)
  /-- Read a handle's base. (R95) -/
  | hbase (d : Reg) (s : BitVec 4)
  /-- Read a handle's length. (R95) -/
  | hlen (d : Reg) (s : BitVec 4)
  /-- Copy a handle register. (R95) -/
  | hmov (d : BitVec 4) (s : BitVec 4)
  /-- Test a handle without faulting. (R95) -/
  | hcheck (d : Reg) (a : Src) (h : BitVec 4) (p : BitVec 3) (m : BitVec 5)
  /-- Load a format window descriptor (privileged). (R87) -/
  | fmtWin (s : Reg) (a : Src) (h : BitVec 4) (o : BitVec 8)
  /-- Branch on a predicate or its inverse. (R344) -/
  | br (p : BitVec 3) (n : Bool) (o : BitVec 21)
  /-- Unconditional relative jump. (R344) -/
  | jmp (o : BitVec 21)
  /-- Call with a new overlapping frame. (R345) -/
  | call (o : BitVec 21)
  /-- Jump to a register target. (R344) -/
  | jr (a : Src)
  /-- Call to a register target. (R345) -/
  | callr (a : Src)
  /-- Return to the caller's frame, or yield from the outermost frame. (R347) -/
  | ret
  /-- Size the frame, spilling as needed. (R346) -/
  | enter (n : BitVec 12)
  /-- Hardware loop with immediate count (two words). (R348) -/
  | loop (count : BitVec 24) (e : BitVec 8)
  /-- Hardware loop with register count. (R348) -/
  | loopr (a : Src) (e : BitVec 8)
  /-- Queue a tensor copy and reserve a ring slot. (R128) -/
  | cpIssue (d : Reg) (a : Src) (h : BitVec 4) (p : BitVec 3) (s : BitVec 2) (q : BitVec 3)
  /-- Load a static copy schedule into a queue. (R129) -/
  | cpSched (a : Src) (h : BitVec 4) (p : BitVec 3) (s : BitVec 2) (q : BitVec 3)
  /-- Resume a halted queue and advance its stage counter. (R130) -/
  | cpAdv (d : Reg) (a : Src) (p : BitVec 3) (s : BitVec 2) (q : BitVec 3)
  /-- Read a queue's status. (R131) -/
  | cpStatus (d : Reg) (p : BitVec 3) (s : BitVec 2) (q : BitVec 3)
  /-- Initialise a ring object. (R132) -/
  | ringInit (d : Reg) (a : Src) (h : BitVec 4) (p : BitVec 3)
  /-- Claim the next completed ring slot with acquire. (R133) -/
  | ringWait (d : Reg) (a : Src) (h : BitVec 4) (p : BitVec 3)
  /-- Release the oldest claimed ring slot. (R133) -/
  | ringRel (a : Src) (h : BitVec 4) (p : BitVec 3)
  /-- Read the write pointer and progress with acquire. (R133) -/
  | ringWptr (d : Reg) (a : Src) (h : BitVec 4) (p : BitVec 3)
  /-- Join queues of one streamer island. (R134) -/
  | qfence (s : BitVec 2) (m : BitVec 8)
  /-- Map scratch pages. (R151) -/
  | smap (d : Reg) (a : Src) (p : BitVec 3)
  /-- Unmap a scratch page. (R151) -/
  | sunmap (d : Reg) (p : BitVec 3)
  /-- Set a scratch page's protection. (R151) -/
  | sprot (d : Reg) (p : BitVec 3) (m : BitVec 2)
  /-- Start a page-out of a scratch page. (R151) -/
  | sevict (d : Reg) (p : BitVec 3)
  /-- Relocate a scratch page to a core. (R151) -/
  | smig (d : Reg) (a : Src) (p : BitVec 3)
  /-- Read a scratch translation entry. (R152) -/
  | squery (d : Reg) (a : Src)
  /-- Release nodes and queues waiting on a scratch page. (R153) -/
  | sfix (a : Src)
  /-- Allocate a curd. (R174) -/
  | calloc (d : Reg) (a : Src) (p : BitVec 3) (t : BitVec 4)
  /-- Seal a curd with a release. (R175) -/
  | cseal (a : Src) (s : BitVec 3) (g : BitVec 4)
  /-- Consuming read of a sealed curd. (R176) -/
  | cldR (d : Reg) (a : Src) (b : Src) (z : BitVec 2)
  /-- Make the thread's curd shares final. (R177) -/
  | cfin
  /-- Drop shares of a curd. (R178) -/
  | cdrop (a : Src) (n : BitVec 12)
  /-- Read a curd's state and counts. (R180) -/
  | cinfo (d : Reg) (a : Src)
  /-- Configure a curd partition (privileged). (R179) -/
  | cpart (a : Src) (t : BitVec 4)
  /-- Accept a tile bind item and send its pin request. (R302) -/
  | mxBind (a : Src) (h : BitVec 4) (p : BitVec 3) (i : BitVec 3)
  /-- Accept a column-scale item. (R303) -/
  | mxScale (a : Src) (h : BitVec 4) (p : BitVec 3) (i : BitVec 3)
  /-- Claim an island or accept a mode or release item. (R304) -/
  | mxMode (a : Src) (p : BitVec 3) (i : BitVec 3)
  /-- Accept an item firing rows from scratch. (R305) -/
  | mxFire (d : Reg) (a : Src) (p : BitVec 3) (i : BitVec 3)
  /-- Accept an accumulator-row operation item. (R306) -/
  | mxAcc (d : Reg) (a : Src) (p : BitVec 3) (i : BitVec 3)
  /-- Set an island's restart label and thread. (R307) -/
  | mxRlbl (i : BitVec 3) (o : BitVec 21)
  /-- Clear an island halt and test for drained. (R308) -/
  | mxDrain (p : BitVec 3) (i : BitVec 3)
  /-- Accept an item releasing the current tile. (R309) -/
  | mxUnpin (p : BitVec 3) (i : BitVec 3)
  /-- Check and place a casting image. (R224) -/
  | castLoad (d : Reg) (a : Src) (h : BitVec 4) (p : BitVec 3)
  /-- Bind a handle to a casting's binding slot. (R225) -/
  | castBind (d : Reg) (h : BitVec 4) (p : BitVec 3) (n : BitVec 5)
  /-- Kill a casting at once. (R230) -/
  | castKill (d : Reg) (p : BitVec 3)
  /-- Close a casting and read its flags once retired. (R229) -/
  | castEnd (d : Reg) (p : BitVec 3)
  /-- Push a billet into a casting input port. (R226) -/
  | bpush (d : Reg) (a : Src) (port : BitVec 6) (p : BitVec 3)
  /-- Pull a billet from a casting output port. (R228) -/
  | bpull (d : Reg) (a : Src) (port : BitVec 6) (p : BitVec 3)
  /-- Push an end-of-invocation marker. (R227) -/
  | bmark (d : Reg) (port : BitVec 6) (p : BitVec 3)
  /-- Look up a prefix tag in the prefix table. (R317) -/
  | kvFind (d : Reg) (a : Src) (h : BitVec 4) (p : BitVec 3)
  /-- Initialise a key-value pool. (R318) -/
  | kvAddPool (d : Reg) (a : Src) (h : BitVec 4) (p : BitVec 3)
  /-- Open a sequence on a pool. (R318) -/
  | kvAddOpen (d : Reg) (a : Src) (h : BitVec 4) (p : BitVec 3)
  /-- Reserve the next token row of a sequence. (R318) -/
  | kvAddAppend (d : Reg) (a : Src) (h : BitVec 4) (p : BitVec 3)
  /-- Attach a published page to a sequence. (R318) -/
  | kvAddAttach (d : Reg) (a : Src) (h : BitVec 4) (p : BitVec 3)
  /-- Publish an own page under a tag. (R318) -/
  | kvAddPublish (d : Reg) (a : Src) (h : BitVec 4) (p : BitVec 3)
  /-- Close a sequence and drop its page references. (R318) -/
  | kvAddClose (d : Reg) (a : Src) (h : BitVec 4) (p : BitVec 3)
  /-- Copy an own page to the slow tier. (R318) -/
  | kvAddDemote (d : Reg) (a : Src) (h : BitVec 4) (p : BitVec 3)
  /-- Start bringing a slow entry back into the pool. (R319) -/
  | kvPromote (d : Reg) (a : Src) (p : BitVec 3)
  /-- Cancel a pending promotion not yet begun. (R319) -/
  | kvPromoteCancel (d : Reg) (a : Src) (p : BitVec 3)
  /-- Open a draft window on a sequence. (R326) -/
  | dwOpen (d : Reg) (a : Src) (p : BitVec 3) (n : BitVec 4)
  /-- Take a state-region snapshot of a window. (R326) -/
  | dwSnap (d : Reg) (a : Src) (p : BitVec 3)
  /-- Close a window keeping n positions. (R326) -/
  | dwCommit (d : Reg) (a : Src) (s : BitVec 3) (g : BitVec 4)
  /-- Close a window keeping nothing. (R326) -/
  | dwAbort (a : Src) (s : BitVec 3) (g : BitVec 4)
  /-- Read a window's state, freeing a retired index. (R327) -/
  | dwStat (d : Reg) (a : Src)
  /-- Multicast bytes to a set of pod members. (R418) -/
  | xmcast (d : Reg) (a : Src) (h : BitVec 4) (p : BitVec 3)
  /-- Start a pod all-reduce. (R420) -/
  | xcomb (d : Reg) (a : Src) (h : BitVec 4) (p : BitVec 3) (o : BitVec 3)
  /-- Arrive at or probe a pod barrier. (R425) -/
  | xbar (d : Reg) (a : Src) (s : BitVec 3) (g : BitVec 4)
  /-- Read the pod identity. (R426) -/
  | xid (d : Reg)
  /-- Bind a message channel to a handler. (R353) -/
  | chanBind (d : Reg) (a : Src) (p : BitVec 3)
  /-- End the running handler and choose the next channel. (R354) -/
  | chanYield
  /-- Append a message to a channel mailbox. (R353) -/
  | chanRaise (d : Reg) (a : Src) (p : BitVec 3)
  /-- Put a message into a hardware queue. (R360) -/
  | qput (d : Reg) (a : Src) (h : BitVec 4) (p : BitVec 3)
  /-- Take a message from a hardware queue. (R360) -/
  | qget (d : Reg) (a : Src) (h : BitVec 4) (p : BitVec 3)
  /-- Arrive at a cluster barrier. (R362) -/
  | barArrive (d : Reg) (a : Src) (p : BitVec 3)
  /-- Test full-phase completion of a barrier. (R362) -/
  | barWait (d : Reg) (a : Src) (p : BitVec 3)
  /-- Test a barrier's phase bit. (R362) -/
  | barTest (d : Reg) (a : Src) (p : BitVec 3)
  /-- Raise a software trap. (R364) -/
  | trap (c : BitVec 8)
  /-- Return from the fault handler. (R393) -/
  | eret
  /-- Read a special register. (R366) -/
  | srd (d : Reg) (r : BitVec 8)
  /-- Write a special register. (R366) -/
  | swr (a : Src) (r : BitVec 8)
  /-- Raise a breakpoint. (R364) -/
  | brk (c : BitVec 8)
  /-- No operation. (R366) -/
  | nop
  /-- Fabric integer add per lane. (R239) -/
  | iAdd (f : FWord)
  /-- Fabric integer subtract per lane. (R239) -/
  | iSub (f : FWord)
  /-- Fabric integer multiply per lane. (R239) -/
  | iMul (f : FWord)
  /-- Fabric integer multiply-add per lane. (R239) -/
  | iMad (f : FWord)
  /-- Fabric integer minimum per lane. (R239) -/
  | iMin (f : FWord)
  /-- Fabric integer maximum per lane. (R239) -/
  | iMax (f : FWord)
  /-- Fabric integer absolute value per lane. (R239) -/
  | iAbs (f : FWord)
  /-- Fabric integer clamp per lane. (R239) -/
  | iClamp (f : FWord)
  /-- Fabric bitwise and per lane. (R239) -/
  | iAnd (f : FWord)
  /-- Fabric bitwise or per lane. (R239) -/
  | iOr (f : FWord)
  /-- Fabric bitwise exclusive or per lane. (R239) -/
  | iXor (f : FWord)
  /-- Fabric shift left per lane. (R239) -/
  | iShl (f : FWord)
  /-- Fabric logical shift right per lane. (R239) -/
  | iShr (f : FWord)
  /-- Fabric arithmetic shift right per lane. (R239) -/
  | iSra (f : FWord)
  /-- Fabric integer compare into lane masks and a predicate. (R240) -/
  | iCmp (f : FWord)
  /-- Fabric per-lane select. (R242) -/
  | sel (f : FWord)
  /-- Fabric lane move. (R243) -/
  | fabricMov (f : FWord)
  /-- Fabric immediate constant into lanes. (R243) -/
  | const (f : FWord)
  /-- Take enabled lanes of a second billet. (R243) -/
  | mix (f : FWord)
  /-- Fabric float add per lane. (R244) -/
  | fAdd (f : FWord)
  /-- Fabric float subtract per lane. (R244) -/
  | fSub (f : FWord)
  /-- Fabric float multiply per lane. (R244) -/
  | fMul (f : FWord)
  /-- Fabric fused multiply-add per lane. (R244) -/
  | fFma (f : FWord)
  /-- Fabric float minimum per lane. (R245) -/
  | fMin (f : FWord)
  /-- Fabric float maximum per lane. (R245) -/
  | fMax (f : FWord)
  /-- Fabric float absolute value. (R245) -/
  | fAbs (f : FWord)
  /-- Fabric float negate. (R245) -/
  | fNeg (f : FWord)
  /-- Fabric float compare. (R241) -/
  | fCmp (f : FWord)
  /-- Correctly rounded reciprocal. (R246) -/
  | fRcp (f : FWord)
  /-- Correctly rounded reciprocal square root. (R246) -/
  | fRsq (f : FWord)
  /-- Correctly rounded 2^x. (R246) -/
  | fExp2 (f : FWord)
  /-- Correctly rounded log2. (R246) -/
  | fLog2 (f : FWord)
  /-- Correctly rounded sigmoid. (R246) -/
  | fSig (f : FWord)
  /-- Correctly rounded tanh. (R246) -/
  | fTanh (f : FWord)
  /-- Convert lanes between element formats. (R247) -/
  | cvt (f : FWord)
  /-- Encode 32 lanes into an MXFP4 block. (R248) -/
  | pack (f : FWord)
  /-- Decode part of an MXFP4 block into lanes. (R249) -/
  | unpack (f : FWord)
  /-- Encode lanes into RNS24. (R250) -/
  | rEnc (f : FWord)
  /-- Decode RNS24 lanes to INT32. (R250) -/
  | rDec (f : FWord)
  /-- Residue multiply-accumulate. (R250) -/
  | rMac (f : FWord)
  /-- Cross-lane move by pattern. (R251) -/
  | xl (f : FWord)
  /-- Pairwise-tree reduction across lanes. (R253) -/
  | red (f : FWord)
  /-- Place a billet on both targets. (R263) -/
  | fork (f : FWord)
  /-- Route a billet to one target by a condition. (R264) -/
  | steer (f : FWord)
  /-- Ordered merge restoring sequence order. (R266) -/
  | merge (f : FWord)
  /-- Unordered alternating merge. (R267) -/
  | mergeU (f : FWord)
  /-- Drop or hole-mark billets failing a condition. (R265) -/
  | filter (f : FWord)
  /-- Loop entry taking back-arc billets first. (R268) -/
  | recirc (f : FWord)
  /-- Credit-controlled pass of data billets. (R269) -/
  | gate (f : FWord)
  /-- Restamp sequence tags. (R270) -/
  | seq (f : FWord)
  /-- Edit predicate bits and kind of a tag. (R271) -/
  | mark (f : FWord)
  /-- Take a billet and issue a scratch load. (R273) -/
  | ldS (f : FWord)
  /-- Take a billet and issue a scratch store. (R273) -/
  | stS (f : FWord)
  /-- Take a billet and issue a scratch atomic. (R277) -/
  | amoS (f : FWord)
  /-- Take a billet and issue a memory load through a binding. (R273) -/
  | ldG (f : FWord)
  /-- Take a billet and issue a memory store through a binding. (R273) -/
  | stG (f : FWord)
  /-- Expand a request into address billets from a nest descriptor. (R279) -/
  | ag (f : FWord)
  /-- Consuming curd load. (R273) -/
  | ldC (f : FWord)
  /-- Store into an open curd. (R273) -/
  | stC (f : FWord)
  /-- Request a curd for a billet's invocation. (R280) -/
  | cAlloc (f : FWord)
  /-- Record curds and seal them at marker retirement. (R281) -/
  | cSeal (f : FWord)
  /-- Place an accumulator readout request and emit the snapshot. (R284) -/
  | accRd (f : FWord)
  /-- Send an A row to an island order. (R283) -/
  | aRow (f : FWord)
  /-- Turn a data billet into a configuration token. (R285) -/
  | cfgTok (f : FWord)
  /-- A fetched word with a reserved MAJ, MIN, extension or sub-op (including 0x7F) raises a precise illegal-instruction trap.
  (R31) -/
  | illegalInstruction (w : BitVec 32)
  /-- A long-latency producer completes and writes its destination full. (R189) -/
  | longLatencyProducerComplete (key : Nat) (idx : Nat)
  /-- A waiting late or asynchronous fault is delivered at an instruction boundary. (R391) -/
  | faultDelivery
  /-- An idle thread enters a channel when a message arrives. (R355) -/
  | channelEntry
  /-- A streamer island moves one beat for a queue head entry. (R110) -/
  | streamerBeat (cl : Nat) (isl : Nat) (q : Nat)
  /-- A copy completes and advances its ring. (R124) -/
  | copyCompletion (cl : Nat) (isl : Nat) (q : Nat)
  /-- A schedule entry begins once its stage and ring slot allow. (R126) -/
  | scheduleEntryBegin (cl : Nat) (isl : Nat) (q : Nat)
  /-- The page engine brings a paged scratch page into a frame. (R146) -/
  | pageIn (cl : Nat) (page : Nat)
  /-- The page engine writes a resident page to its backing slot. (R146) -/
  | pageOut (cl : Nat) (page : Nat)
  /-- The page engine moves a resident page to another core. (R146) -/
  | relocation (cl : Nat) (page : Nat) (core : Nat)
  /-- A waiting curd request is granted after page-outs. (R163) -/
  | curdGrant (n : NodeRef)
  /-- A memory node's access is performed and its billet emitted. (R272) -/
  | nodeAccessPerformed (n : NodeRef) (idx : Nat)
  /-- The allocator moves a casting at a boundary point. (R380) -/
  | castingMove (cid : Nat) (pages : List Nat)
  /-- A casting is parked at a boundary point for a standing demand. (R380) -/
  | castingSlice (cid : Nat)
  /-- A parked casting is placed again when pages free. (R380) -/
  | castingReturn (cid : Nat)
  /-- A casting demand lapses after 100 µs without cast.load. (R380) -/
  | demandExpiry (key : Nat)
  /-- A casting reaching no boundary point within 6 µs is forced. (R398) -/
  | forcedPreemption (cid : Nat)
  /-- An island fires an A row into an accumulator row. (R295) -/
  | rowFire (cl : Nat) (i : Nat)
  /-- A readout request copies a row into a downstream-link slot. (R297) -/
  | readoutPerform (cl : Nat) (i : Nat)
  /-- A bind item makes its loaded tile current. (R293) -/
  | bindPerform (cl : Nat) (i : Nat)
  /-- A tile fetch unit finishes loading pinned tile lines. (R293) -/
  | tileLoadComplete (cl : Nat) (i : Nat)
  /-- A mode item sets or releases the island mode. (R304) -/
  | modeItemPerform (cl : Nat) (i : Nat)
  /-- A scale item sets the column scales. (R303) -/
  | scaleItemPerform (cl : Nat) (i : Nat)
  /-- An accumulator operation item rewrites rows. (R306) -/
  | accItemPerform (cl : Nat) (i : Nat)
  /-- An unpin item releases the current tile. (R309) -/
  | unpinItemPerform (cl : Nat) (i : Nat)
  /-- A configuration token sets scales or mode. (R298) -/
  | configTokenPerform (cl : Nat) (i : Nat)
  /-- The copy of a partly shared page completes. (R318) -/
  | appendPageCopyComplete (id : Nat)
  /-- A demotion copy completes and the page is freed. (R318) -/
  | demoteComplete (id : Nat)
  /-- A promotion copy completes and posts its ring slot. (R319) -/
  | promotionComplete (id : Nat)
  /-- A closing window commits once earlier windows retire. (R325) -/
  | commitPoint (win : Nat)
  /-- Periodic re-read of TAIL, VALID and dependence words. (R372) -/
  | dispatcherPoll (q : Nat)
  /-- The dispatcher checks a ready slot's record. (R373) -/
  | recordCheck (q : Nat)
  /-- All threads of an admitted launch start together. (R378) -/
  | launchStart (q : Nat)
  /-- A held launch is placed on another home after STEALT cycles. (R379) -/
  | steal (q : Nat)
  /-- A launch passing its watchdog limit is killed. (R402) -/
  | watchdogExpiry (l : LaunchRef)
  /-- A corrected error event on a unit. (R404) -/
  | correctedError (u : UnitRef)
  /-- A flit failing CRC is resent from the retry buffer. (R403) -/
  | linkCrcRetry
  /-- Host write to a BAR 0 tail register. (R409) -/
  | hostTailWrite (q : Nat) (size : Nat) (v : BitVec 64)
  /-- Host write to device memory through BAR 2. (R409) -/
  | hostMemoryWrite (x : Nat) (bytes : List (BitVec 8))
  /-- Host read of device memory through BAR 2. (R409) -/
  | hostMemoryRead (x : Nat) (n : Nat)
  /-- A PCI Express completion for a host-window request. (R410) -/
  | hostWindowCompletion (who : Requester)
  /-- A host-window request times out as an uncorrectable error. (R410) -/
  | hostCompletionTimeout (who : Requester)
  /-- Write to a device register with no behaviour of its own. (R100) -/
  | registerWrite (off : Nat) (size : Nat) (v : BitVec 64)
  /-- Start a translation invalidation. (R92) -/
  | tinvWrite (v : BitVec 64)
  /-- An invalidation ends and GO returns to 0. (R92) -/
  | tinvComplete
  /-- Enable or disable a launch queue. (R370) -/
  | lqctlWrite (q : Nat) (v : BitVec 64)
  /-- A privileged write clears an error counter. (R405) -/
  | errorCounterWrite (off : Nat)
  /-- Write-once setting of the member identity. (R423) -/
  | podidWrite (v : BitVec 64)
  /-- Management changes a pod window entry's state. (R414) -/
  | podwinWrite (m : Nat) (v : BitVec 64)
  /-- Mailbox command that kills a launch. (R411) -/
  | killLaunch (req : List (BitVec 64))
  /-- Mailbox command halting a casting. (R401) -/
  | haltCasting (req : List (BitVec 64))
  /-- Mailbox command releasing a halted casting. (R401) -/
  | releaseCasting (req : List (BitVec 64))
  /-- Mailbox command halting a thread. (R401) -/
  | haltThread (req : List (BitVec 64))
  /-- Mailbox command releasing a halted thread. (R401) -/
  | releaseThread (req : List (BitVec 64))
  /-- Mailbox command setting a launch's watchdog limit. (R402) -/
  | watchdogLimit (req : List (BitVec 64))
  /-- Mailbox command reading 256 bytes of a context store. (R396) -/
  | readContextStore (req : List (BitVec 64))
  /-- Mailbox command returning the identity public key. (R428) -/
  | identityPublicKey (req : List (BitVec 64))
  /-- Mailbox command returning a signed report. (R429) -/
  | attestationReport (req : List (BitVec 64))
  /-- Mailbox command verifying and staging a firmware image. (R437) -/
  | loadFirmware (req : List (BitVec 64))
  /-- A mailbox command ends and fires MSI-X vector 0. (R411) -/
  | mailboxCommandEnd
  /-- Power-on or fundamental reset runs bring-up. (R433) -/
  | moduleReset (ph : ResetPhase)
  /-- A sensor reaches 95 °C and sets WARN. (R432) -/
  | thermalWarning (t : BitVec 8)
  /-- A sensor reaches the trip and power is removed. (R432) -/
  | thermalTrip
  /-- A request from another member is performed at this member. (R413) -/
  | podRequest (m : Nat) (r : PodReq)
  /-- Every port reports a member down and it is fenced. (R414) -/
  | linkDown (m : Nat)
  /-- A request unanswered for 1.5 ms fences the member. (R414) -/
  | responseTimeout (m : Nat)
  /-- A received fence notice fences the member. (R414) -/
  | fenceNotice (m : Nat)
  /-- A multicast operation's ring slot completes. (R417) -/
  | podOpComplete (id : Nat)
  /-- A combine result arrives and is written to DST. (R423) -/
  | combineResult (id : Nat) (parts : List Contrib)
  /-- A combine failure notice completes the slot with ERR. (R424) -/
  | combineFailureNotice (id : Nat)
  /-- One scale-up port goes down, and the request hash is recomputed among the remaining up ports once its outstanding
  requests end; a switch combine carried on it fails. (R413) -/
  | portGoesDown (p : Nat)
  /-- The device begins the copy of a pending promotion, in an order it chooses, after which a cancel no longer succeeds.
  (R319) -/
  | promotionCopyBegin (id : Nat)
  /-- A placed casting's configuration finishes loading and the casting begins work on billets already pushed. (R224) -/
  | castingConfigurationLoaded (cid : Nat)
  /-- A host PCI Express AtomicOp request (FetchAdd, Swap or CAS) to device memory is performed by the device as completer.
  (R407) -/
  | hostAtomicopRequest (op : HostAtomic) (x : Nat)
  /-- A DOORBELL write with a command code not in Table 18.4, or not accepted in the recovery state, ends with RSTAT 1. (R411) -/
  | unknownMailboxCommand (code : BitVec 64) (req : List (BitVec 64))
  deriving DecidableEq, Repr

end Sys2Proof
end

