-- ==== Sys2Proof/Machine/State.lean ====
section
/-! DEFINITION. The state of the part: plain data, holding every piece of state the spec names. Tables are lists of
(key, value) pairs in rising order of key; an absent key reads as the default the accessor names. Each field's
comment gives the rule that names it and its value at reset. -/

namespace Sys2Proof.Machine

/-- A table: (key, value) pairs in strictly rising order of key. -/
abbrev Tab (α : Type) := List (Nat × α)

/-- Memory bytes by address: strictly rising addresses, no entry equal to zero, which is what an unlisted
address reads as (19/R433: bring-up clears device memory and SRAM). -/
abbrev Memory := List Host.Cell

/-! ## Region handles (04/R93) -/

/-- A region handle (04 Table 4.8). -/
structure Handle where
  /-- V, valid; reset 0. -/
  v      : Bool := false
  /-- ASID; reset 0. -/
  asid   : BitVec 14 := 0
  /-- RIGHTS: bit 0 R, 1 W, 2 A, 3 X, 4 D; reset 0. -/
  rights : BitVec 5 := 0
  /-- LEN in bytes; reset 0. -/
  len    : BitVec 48 := 0
  /-- BASE, virtual; reset 0. -/
  base   : BitVec 56 := 0
  deriving DecidableEq, Repr

/-! ## Control threads (08, 15, 17) -/

/-- Full/empty state of a register (08/R189, R190, R193): full, empty with a producer outstanding, or left empty
by a late fault with no producer outstanding. -/
inductive Fill where
  | full | empty | dead
  deriving DecidableEq, Repr

/-- A register with its full/empty bit (08 Table 8.1). -/
structure Cell where
  val  : Word := 0
  fill : Fill := .full
  deriving DecidableEq, Repr

/-- A register's home: a global register or a position of the window file (08/R181, R182). -/
inductive RegLoc where
  | g (i : Nat)
  | file (j : Nat)
  deriving DecidableEq, Repr

/-- A control thread, wherever it is: its launch and its rank (16/R376). -/
structure ThreadRef where
  l    : LaunchRef
  rank : Nat
  deriving DecidableEq, Repr

/-- What an outstanding access still waits for: the completion of a host-window request (18/R410), the response of
another member to a request made in a given cycle over a given port (18/R413-R415; 24 for no port), a key-value copy
(13/R318), or its own request, which a release before it, or a port that drains, still holds back (14/R341, 18/R413). -/
inductive Await where
  | host
  | peer (m since port : Nat)
  | copy
  | release
  deriving DecidableEq, Repr

/-- An arrival at a pod barrier, or a probe (18/R425): its home, its index, its count (0 for a probe), and the ASID. -/
structure Arrival where
  home  : Nat
  idx   : Nat
  count : Nat
  asid  : BitVec 14
  deriving DecidableEq, Repr

/-- An outstanding access whose result is still to be delivered (08/R189, R192, R193). The value was bound when the
access was performed (DESIGN CHOICE, log 1). -/
structure Producer where
  /-- Destinations, marked empty at issue. -/
  dests   : List RegLoc
  /-- Values for them, in order. -/
  vals    : List Word
  /-- What it waits for; none once its results are ready. -/
  wait    : Option Await
  /-- A late error: its cause code (08/R193), or none. -/
  err     : Option (BitVec 8)
  /-- Target address, for `EADDR`. -/
  addr    : Word
  /-- Destination's register field, for `EWHO`. -/
  field   : BitVec 6
  /-- Address of the instruction (08/R193: the record names the producer's address). -/
  pc      : Word
  /-- Issued in fault mode (17/R394). -/
  inFault : Bool
  /-- Counts in `OUTST` (08/R192); a store's late report does not. -/
  counted : Bool
  /-- The curd it reads under a share (07/R176), and the number of `cfin`s that the thread had issued (07/R177). -/
  under   : Option (Nat × Nat) := none
  /-- The bytes that a store or atomic to another member replaced: should that member be lost, the write holds a place
  there or none (14/R340). -/
  undo    : List Host.Cell := []
  /-- It writes memory, so that a release waits for it (14/R341). -/
  writes  : Bool := false
  /-- The result that it delivers, with no fault, should the member that it asked be lost (18 Table 18.5: `xbar`). -/
  onLoss  : Option Word := none
  /-- The arrival or probe that its home has still to answer (18/R425: `xbar`). -/
  arrive  : Option Arrival := none
  /-- Its number among what its thread has issued (14/R341). -/
  num     : Nat := 0
  deriving DecidableEq, Repr

/-- Its results are ready. -/
def Producer.ready (p : Producer) : Bool := p.wait.isNone

/-- The release write of a synchronising operation whose release waits (14/R332, R341): the seal of a curd, by index and
generation (07/R169); the new RP of the ring at a physical address (05/R133); a closing window's commit point, by index and
generation (13/R325); or the request of an `xbar` (18/R425). -/
inductive RelOp where
  | seal (idx gen : Nat)
  | ring (pa : Nat)
  | window (i gen : Nat)
  | arrive (x : Arrival)
  deriving DecidableEq, Repr

/-- A release write that is still to be performed, and its number among what its thread has issued: under `host` it waits for the
thread's writes to the host window of lower numbers (14/R341). -/
structure Pending where
  num  : Nat
  host : Bool
  op   : RelOp
  deriving DecidableEq, Repr

/-- What the accesses after a `fence` wait for (08/R207, 14/R341): a queue of the thread's cluster (8 × island + queue) until
its DONECNT reaches a value, the items of a matrix island that the thread placed, a pod operation, a key-value copy, the
thread's writes to the host window below a number, and its pending release write of a number (14/R336). -/
inductive FenceWait where
  | queue (q : Nat) (upTo : W32)
  | island (i : Nat)
  | pod (id : Nat)
  | copy (id : Nat)
  | host (below : Nat)
  | release (num : Nat)
  deriving DecidableEq, Repr

/-- A wait that a `fence` has left behind, and the storage kinds of the accesses that it holds back (14/R330), as bits of SS
(02 Table 2.7). -/
structure Barred where
  on : FenceWait
  ss : BitVec 4
  deriving DecidableEq, Repr

/-- A frame below the current one (08/R183): base, size, its own return address, and whether it was entered. -/
structure FrameRec where
  base    : Nat
  size    : Nat
  ret     : Word
  entered : Bool
  deriving DecidableEq, Repr

/-- A loop-stack entry (15/R348): START, END, E, REM, and the frame (by its depth and base) it belongs to. -/
structure LoopEntry where
  start : Word
  stop  : Word
  e     : BitVec 8
  rem   : BitVec 24
  frame : Nat
  fbase : Nat
  deriving DecidableEq, Repr

/-- A channel (15/R352): binding bits PRI, EN, PRIV, the entry offset and the mailbox, oldest first. -/
structure Channel where
  pri   : BitVec 3 := 0
  en    : Bool := false
  priv  : Bool := false
  entry : Word := 0
  box   : List Word := []
  deriving DecidableEq, Repr

/-- The interrupted state that fault delivery saves (17/R391 step 1). -/
structure SavedCtx where
  pc      : Word
  base    : Nat
  fsize   : Nat
  entered : Bool
  depth   : Nat
  loops   : List LoopEntry
  priv    : Bool
  ret     : Word
  /-- Length of the caller list at delivery, so that `eret` finds the interrupted frame. -/
  ncall   : Nat
  deriving DecidableEq, Repr

/-- A fabric instruction of a casting: the casting's index across the part, the block and the slot. The casting is of a given
generation. -/
structure StreamRef where
  node : NodeRef
  gen  : Nat
  deriving DecidableEq, Repr

/-- A fault that waits to be delivered (17/R392): `ECAUSE`, `EADDR`, `EWHO`; for a late fault the address of its
producer (08/R193), which no register of 17 Table 17.2 shows (DEDUCED, log 65); and for a node's fault the stream that raised
it, which the handler's `eret` tries again (04/R97). -/
structure FaultRec where
  cause : Word
  addr  : Word
  who   : Word
  from' : Word := 0
  of'   : Option StreamRef := none
  deriving DecidableEq, Repr

/-- An asynchronous fault that found its target's queue full and waits at its source (17/R392); `cast` is the casting
it comes from, with which it ends. -/
structure WaitFault where
  target : ThreadRef
  fault  : FaultRec
  cast   : Option Nat
  deriving DecidableEq, Repr

/-- A demand that a thread's refused `cast.load` left standing (16/R380): the thread and the core it ran on, the pages and
class asked for, whether the casting is one that drains (17/R398), the cycle of the thread's latest `cast.load`, and the cycle
since which the demand has stood. -/
structure Demand where
  owner : ThreadRef
  key   : Nat
  pages : Nat
  cls   : BitVec 2
  drain : Bool
  last  : Nat
  since : Nat
  deriving DecidableEq, Repr

/-- One control thread (08/R181, 15/R343-R356, 17/R389-R396). Its values at start are those of 16/R378; a window
file register that no rule sets starts at 0 and full (DESIGN CHOICE, log 5). (DEDUCED, log 6.) -/
structure Thread where
  /-- Launch and rank (16/R378). -/
  ref     : ThreadRef
  /-- `ASIDR`, 14 bits (08 Table 8.4); reset 0, set at launch. -/
  asid    : BitVec 14
  /-- `CLASS`, 2 bits (08 Table 8.4); reset 0, set at launch. -/
  cls     : BitVec 2
  /-- Curd partition of the launch, 4 bits (16 Table 16.1). -/
  part    : BitVec 4
  /-- Carve-out pages of the launch (16 Table 16.1 CARVE); `CSLEN` = 2,048 × this (08 Table 8.4). -/
  carve   : Nat
  /-- `g1`-`g15`, 64 bits and a full/empty bit each (08 Table 8.1); start values 16/R378. -/
  g       : Tab Cell := []
  /-- Window file, 512 × 64 bits and full/empty bits (08 Table 8.1, 01 Table 1.1); DESIGN CHOICE 0, full (DESIGN CHOICE, log
  5). -/
  win     : Tab Cell := []
  /-- `p0`-`p7`; bit 0 is not read (08 Table 8.1); 0 at start (16/R378). -/
  p       : BitVec 8 := 0
  /-- `h0`-`h15`, 128 bits each (08 Table 8.1, 04/R93); roots at start. -/
  h       : Tab Handle := []
  /-- The code handle (15/R343). -/
  code    : Handle := {}
  /-- PC, a byte offset within the code handle (15/R343). -/
  pc      : Word := 0
  /-- B, file position of `w0` (08/R182); reset 0. -/
  base    : Nat := 0
  /-- FSIZE, 0 or 8-32 (08/R182); reset 0. -/
  fsize   : Nat := 0
  /-- The current frame has been entered (15/R346). -/
  entered : Bool := false
  /-- Return address of the current frame's link (08/R183). -/
  ret     : Word := 0
  /-- DEPTH (08 Table 8.6); reset 0. -/
  depth   : Nat := 0
  /-- Frames below the current one, innermost first (08/R183). -/
  callers : List FrameRec := []
  /-- Frames held in the file, the current one included (08/R184). -/
  nres    : Nat := 0
  /-- `CSP` (08 Table 8.4); reset 0. -/
  csp     : Word := 0
  /-- `OSP` (08 Table 8.4); reset 0. -/
  osp     : Word := 0
  /-- `OVBASE` (08 Table 8.4); reset 0, set at launch. -/
  ovbase  : Word := 0
  /-- `OVLEN` (08 Table 8.4); reset 0, set at launch. -/
  ovlen   : Word := 0
  /-- `FLAGS`, 6 bits (03 Table 3.7); reset 0. -/
  flags   : BitVec 6 := 0
  /-- Loop stack, innermost first, at most 4 (15/R348, Table 15.9); reset empty. -/
  loops   : List LoopEntry := []
  /-- Channels 0-15 (15/R352); reset unbound and empty. -/
  chans   : Tab Channel := []
  /-- Channel last entered, `CHRUN` bits 3:0 (15 Table 15.9); reset 0. -/
  chrun   : Nat := 0
  /-- The running handler is privileged, `CHRUN` bit 4 (15 Table 15.9, 17/R395); reset 0. -/
  priv    : Bool := false
  /-- Channel last entered at each priority (15/R355). -/
  lastPri : Tab Nat := []
  /-- A handler runs; otherwise the thread is at a channel choice (15/R355). -/
  running : Bool := false
  /-- A restart label that an idle thread takes at its next instruction boundary, the start of its next handler
  (12/R299). -/
  relabel : Option Word := none
  /-- Outstanding producers (08/R192, `OUTST`), oldest first; reset empty. -/
  prods   : List Producer := []
  /-- Release writes that wait for the thread's writes to the host window, oldest first (14/R341); reset empty. -/
  rels    : List Pending := []
  /-- MODEL: producers and release writes numbered so far; reset 0. -/
  nprod   : Nat := 0
  /-- `ECAUSE` (17 Table 17.2); reset 0. -/
  ecause  : Word := 0
  /-- `EPC` (17 Table 17.2); reset 0. -/
  epc     : Word := 0
  /-- `EADDR` (17 Table 17.2); reset 0. -/
  eaddr   : Word := 0
  /-- `EWHO` (17 Table 17.2); reset 0. -/
  ewho    : Word := 0
  /-- Address of the producer that the fault record names (08/R193); reset 0. -/
  efrom   : Word := 0
  /-- `ESAVE` (17 Table 17.2); reset 0. -/
  esave   : Word := 0
  /-- The stream whose fault the handler runs for (04/R97); reset none. -/
  estream : Option StreamRef := none
  /-- `FVEC` (17 Table 17.2); reset 0. -/
  fvec    : Word := 0
  /-- The interrupted state; present exactly in fault mode, `FMODE` (17/R391); reset none. -/
  saved   : Option SavedCtx := none
  /-- Late faults that await their boundary (08/R193). -/
  late    : List FaultRec := []
  /-- Waiting asynchronous faults, `FQCNT`, at most 16 (17/R392); reset empty. -/
  fq      : List FaultRec := []
  /-- Indices of the curds of which the thread holds a share since its last `cfin` (07/R167, R176). -/
  shares  : List Nat := []
  /-- `cfin`s issued, and the shares that one has made final while reads under them are outstanding, by curd and number
  (07/R177). -/
  nfin    : Nat := 0
  finals  : List (Nat × Nat) := []
  /-- Window file registers that hold an uncorrectable error (17/R403). -/
  bad     : List RegLoc := []
  /-- What its accesses after a `fence` still wait for (08/R207). -/
  barred  : List Barred := []
  /-- The member that the instruction at its PC has asked without a response, and since which cycle (18/R414). -/
  asks    : Option (Nat × Nat) := none
  /-- Halted by the debugger (17/R401). -/
  halted  : Bool := false
  deriving DecidableEq, Repr

/-! ## Scratch (06) and curds (07) -/

/-- What a scratch frame holds (06/R137): a resident page (2,048 × space + page), a page of a saved thread's
carve-out (17/R396), a curd's data, or nothing ever again (17 Table 17.5). -/
inductive FrameUse where
  | page (k : Nat)
  | saved (k : Nat)
  | curd (idx : Nat)
  | retired
  deriving DecidableEq, Repr

/-- A page move in progress (06/R145, R146): the frame entered or left. -/
inductive PageMove where
  | pageIn (frame : Nat)
  | pageOut (frame : Nat)
  | reloc (src dst : Nat)
  deriving DecidableEq, Repr

/-- A casting: its index across the part and its generation (09/R222). -/
structure CastRef where
  cid : Nat
  gen : Nat
  deriving DecidableEq, Repr

/-- A live curd (07/R155-R170). -/
structure CurdLive where
  /-- Partition. -/
  part     : Nat
  /-- Frames, in byte order (07/R158). -/
  frames   : List Nat
  /-- Strict mode (07/R170). -/
  strict   : Bool
  /-- Sealed; otherwise open (07/R166). -/
  isSealed : Bool
  /-- Declared count N (07/R165). -/
  count    : Nat
  /-- Final count F (07/R165). -/
  fin      : Nat
  /-- Pending count Pd (07/R165). -/
  pend     : Nat
  /-- Owning launch (07/R170). -/
  launch   : LaunchRef
  /-- Thread that allocated it or loaded the allocating casting (07/R170). -/
  owner    : ThreadRef
  /-- Allocating casting and its invocation, for `c.alloc` (11/R280). -/
  cast     : Option (CastRef × Nat)
  /-- Granted against a reservation (07/R163). -/
  reserved : Bool
  /-- *underread* has been raised (07/R170: at most once). -/
  raised   : Bool
  /-- Returned, its frames held until the copies in progress that read it under their shares have made their reads
  (07/R165). -/
  leaving  : Bool := false
  deriving DecidableEq, Repr

/-- A curd index: its generation (07/R156, 11 bits; reset 1), the curd it holds and, by launch and place in the casting, the
fabric instructions of which a share of it has become final; and those of the curds that have returned because their final count
reached 0, by generation (07/R165, 21/R441). -/
structure CurdSlot where
  gen     : Nat := 1
  live    : Option CurdLive := none
  readers : List (LaunchRef × Nat) := []
  past    : Tab (List (LaunchRef × Nat)) := []
  deriving DecidableEq, Repr

/-- A curd partition: its descriptor (07 Table 7.2, 64 bits; reset 0). -/
structure Partition where
  desc : Word := 0
  deriving DecidableEq, Repr

/-- A barrier (15/R361, 18/R425): PHASE, ARR, NB, ASID; all 0 at reset. -/
structure Barrier where
  phase : W32 := 0
  arr   : Nat := 0
  nb    : Nat := 0
  asid  : BitVec 14 := 0
  deriving DecidableEq, Repr

/-! ## Streamer islands (05) -/

/-- An endpoint kind of a copy (05 Table 5.1 SKIND, DKIND). -/
inductive EndKind where
  | mem | scratch | curd
  deriving DecidableEq, Repr

/-- A tensor shape record, read and checked (05 Table 5.1). Strides and extents run from dimension 0 to NDIM. -/
structure Shape where
  esz    : Nat
  skind  : EndKind
  dkind  : EndKind
  sh     : Nat
  dh     : Nat
  soff   : Int
  doff   : Int
  scurd  : W32
  dcurd  : W32
  sspace : Nat
  dspace : Nat
  ext    : List Nat
  sstr   : List Int
  dstr   : List Int
  deriving DecidableEq, Repr

/-- Why a streamer queue is halted (05 Table 5.6 HCAUSE 1-7). -/
inductive HaltCause where
  | translation | scratch | descriptor | format | curd | handle | ring
  deriving DecidableEq, Repr

/-- A copy entry of a streamer queue (05/R128, R109). -/
structure CopyEntry where
  shape  : Shape
  /-- Source and destination handles as captured. -/
  hs     : Handle
  hd     : Handle
  /-- Ring object: handle and offset, and the slot counter reserved. -/
  hr     : Handle
  roff   : Word
  slot   : W32
  asid   : BitVec 14
  cls    : BitVec 2
  /-- Issuing thread, and the core it ran on (06/R147). -/
  owner  : ThreadRef
  core   : Nat
  /-- The copy has begun (05/R111), and the elements delivered (05/R118). -/
  begun  : Bool
  done   : Nat
  /-- Ended in error (05/R120). -/
  err    : Bool
  /-- Holds a pending share of its source curd (07/R167). -/
  share  : Bool
  /-- Acceptance number within its island, and the numbers it must wait for (05/R134). -/
  num    : Nat
  after  : List Nat
  /-- Cycle of its latest progress (18/R414). -/
  since  : Nat := 0
  /-- What its elements wait for: the `fence`s that its thread had issued before it (08/R207). -/
  barred : List Barred := []
  deriving DecidableEq, Repr

/-- The entry at the head of a schedule, read and checked, while it waits for a slot of its ring (05/R126): its shape, its ring's
offset, and whether it holds a pending share of its source curd. -/
structure SchedHead where
  shape : Shape
  roff  : Word
  share : Bool
  deriving DecidableEq, Repr

/-- A loaded static copy schedule (05/R125, R126, R129). -/
structure Sched where
  ne     : Nat
  rep    : Nat
  sdelta : Int
  ddelta : Int
  /-- Captured handles `h0`-`h15`, the schedule's own handle and its offset. -/
  hs     : Tab Handle
  hk     : Handle
  off    : Word
  /-- Stage counter SC (32 bits), entries completed, T = NE × REP. -/
  sc     : Nat
  comp   : Nat
  total  : Nat
  asid   : BitVec 14
  cls    : BitVec 2
  owner  : ThreadRef
  core   : Nat
  /-- What the stages from a number on wait for: the `fence`s issued before they were let begin (08/R207), latest first. -/
  gates  : List (Nat × List Barred) := []
  /-- The member that the reading of its next entry has asked without a response, and since which cycle (18/R414). -/
  asks   : Option (Nat × Nat) := none
  /-- The entry at its head, once read and checked (05/R126). -/
  head   : Option SchedHead := none
  deriving DecidableEq, Repr

/-- A streamer queue (05/R109, Table 5.6); reset empty. -/
structure SQueue where
  entries : List CopyEntry := []
  sched   : Option Sched := none
  halt    : Option HaltCause := none
  /-- Scratch page named by a *scratch* halt (06/R153). -/
  haltPage : Option Nat := none
  /-- DONECNT, modulo 2^32. -/
  donecnt : W32 := 0
  /-- Entry numbers that entries accepted after a `qfence` wait for (05/R134). -/
  fence   : List Nat := []
  /-- The head entry holds an uncorrectable error (17/R403). -/
  bad     : Bool := false
  deriving DecidableEq, Repr

/-- A streamer island: its next acceptance number, and the queue it chose last (05/R110), 8 for a page copy (13/R318). -/
structure Streamer where
  next   : Nat := 0
  lastq  : Nat := 8
  deriving DecidableEq, Repr

/-! ## Castings (09, 11) -/

/-- A billet: the 256-bit record and the tag word (09/R208). -/
structure Billet where
  data : BitVec 256
  tag : W32
  deriving DecidableEq, Repr

/-- A block of a casting: its header (02 Table 2.17) and its instruction doublewords. -/
structure Block where
  imode  : Nat
  rlbl   : Nat
  pinit  : BitVec 4
  cdepth : Nat
  mdepth : Nat
  ctx    : Nat
  nin    : Nat
  nout   : Nat
  entry  : Word
  code   : List Word
  deriving DecidableEq, Repr

/-- An inter-block arc (02 Table 2.21) with its queue (09/R215). -/
structure Arc where
  fblk  : Nat
  fout  : Nat
  tblk  : Nat
  tin   : Nat
  depth : Nat
  q     : List Billet := []
  deriving DecidableEq, Repr

/-- A translation held by a cache or a stream (04/R92, R96): ASID, the virtual page and its size in bits, and the
leaf's member, physical page, MT, R and W. -/
structure TlbEntry where
  asid   : BitVec 14
  vbase  : Nat
  bits   : Nat
  member : Nat
  pbase  : Nat
  mt     : Nat
  r      : Bool
  w      : Bool
  deriving DecidableEq, Repr

/-- How a memory node's held access stands (11/R272, R286): still to be performed, issued to the host window or to another
member (since a cycle; `sent` when the request reached it) and not completed, performed, faulted and waiting for `sfix` on a
page, waiting for a window to retire (13/R328), diverted to the spill queue, or stopped for good. -/
inductive HeldState where
  | waiting
  | atHost
  | atPeer (m since port : Nat) (sent : Bool)
  | performed
  | pageFault (page : Nat)
  | shadow
  | spilled
  | stopped
  deriving DecidableEq, Repr

/-- A billet that a memory node has taken and not yet emitted (11/R272). `out` is the record to emit. -/
structure Held where
  src  : Billet
  out  : Billet
  st   : HeldState
  /-- Number in the order taken, the cycle in which it was taken (11/R276), and the cycle in which its access was performed
  (11/R272). -/
  taken : Nat
  since : Nat
  perf  : Nat
  /-- Invocation that took it. -/
  inv  : Nat
  /-- The bytes that its store to another member replaced (14/R340). -/
  undo : List Host.Cell := []
  deriving DecidableEq, Repr

/-- A request that an `ag` node expands (11/R279): the request billet, the base, bound and step of each dimension used,
the kind and space of its addresses, the address billets emitted so far, and their number. -/
structure Nest where
  src   : Billet
  base  : Int
  dims  : List (Nat × Int)
  tkind : Nat
  space : Nat
  done  : Nat
  total : Nat
  deriving DecidableEq, Repr

/-- The state of one fabric instruction (09/R213-R216, 11). -/
structure NodeSt where
  /-- Input queues a, b, c (09 Table 9.4). -/
  qa     : List Billet := []
  qb     : List Billet := []
  qc     : List Billet := []
  /-- Rounding generator (03/R61), and its value at the start of each unretired invocation it has begun (R62). -/
  gen    : W32 := 1
  genAt  : Tab W32 := []
  /-- Markers forwarded, that is the invocation it works on (09/R219). -/
  inv    : Nat := 0
  /-- `merge`: expected tag E and reorder buffer (11/R266). -/
  e      : BitVec 16 := 0
  buf    : List Billet := []
  /-- `merge.u`: input taken when both were last ready, b = true (11/R267). -/
  lastB  : Option Bool := none
  /-- `lastB` as each unretired invocation began (17/R399). -/
  lastAt : Tab (Option Bool) := []
  /-- `gate`: credit count C (11/R269). -/
  credit : Nat := 0
  /-- `seq`: the counter (11/R270). -/
  seq    : BitVec 16 := 0
  /-- `recirc`: its marker is out (11/R268). -/
  out    : Bool := false
  /-- Memory nodes: billets held, and the number of takes (11/R272). -/
  held   : List Held := []
  ntake  : Nat := 0
  /-- `c.seal`: handles recorded for the invocation (11/R281). -/
  seals  : List W32 := []
  /-- `ag`: the request being expanded (11/R279). -/
  nest   : Option Nest := none
  /-- `acc.rd`: the request placed in the island order, the number of requests placed, and the billets still to be
  emitted from its snapshot, one per stepped cycle (11/R284). -/
  req    : Option Billet := none
  nreq   : Nat := 0
  emit   : List Billet := []
  /-- Shares pending at this node: invocation and curd index (07 Table 7.4). -/
  shares : List (Nat × Nat) := []
  /-- Translation entry of the node's stream (04/R96), and as each invocation it has begun started (17/R399). -/
  stream : Option TlbEntry := none
  streamAt : Tab (Option TlbEntry) := []
  /-- Waiting on a page after a scratch page fault (06/R149). -/
  page   : Option Nat := none
  /-- Stopped for good (11/R286). -/
  stop   : Bool := false
  /-- Stopped so that only killing the casting ends it: *overread* (07 Table 7.5). -/
  doomed : Bool := false
  /-- The head of an input queue holds an uncorrectable error (17/R403). -/
  bad    : Bool := false
  deriving DecidableEq, Repr

/-- A casting input port (09/R210): queue of 16, sequence counter, invocation counter. -/
structure PortIn where
  q   : List Billet := []
  seq : BitVec 16 := 0
  inv : Nat := 0
  deriving DecidableEq, Repr

/-- A casting output port: queue of 16 and the markers taken by `bpull` (09/R220). -/
structure PortOut where
  q      : List Billet := []
  pulled : Nat := 0
  deriving DecidableEq, Repr

/-- Where a casting stands: on fabric pages (4 × core + page), or parked since a cycle (16/R380, 17/R397). -/
inductive Place where
  | placed (pages : List Nat)
  | parked (since : Nat)
  deriving DecidableEq, Repr

/-- A live casting (09/R222-R230). -/
structure CastLive where
  asid    : BitVec 14
  cls     : BitVec 2
  launch  : LaunchRef
  /-- Loading thread, and its core (16/R380). -/
  loader  : ThreadRef
  core    : Nat
  part    : Nat
  blocks  : List Block
  arcs    : List Arc
  ns      : Nat
  /-- Bindings now, and as each unretired invocation began (09/R225). -/
  binds   : Tab Handle := []
  bindAt  : Tab (Tab Handle) := []
  ins     : Tab PortIn := []
  outs    : Tab PortOut := []
  /-- Instruction state, by 128 × block + slot. -/
  nodes   : Tab NodeSt := []
  /-- Flag word (03/R68): flags of retired invocations, and those raised for each unretired one (03/R70). -/
  flags   : BitVec 6 := 0
  flagsAt : Tab (BitVec 6) := []
  /-- Curd depth of the reservation, and reserved frames held (07/R161, R163). -/
  depth   : Nat
  resHeld : Nat := 0
  place   : Place
  /-- The configuration has loaded (09/R224). -/
  loaded  : Bool := false
  /-- `cast.end` has been issued (09/R229), and the casting has retired. -/
  ending  : Bool := false
  retired : Bool := false
  /-- Halted by the debugger (17/R401). -/
  halted  : Bool := false
  /-- The casting does no further work: a *marker* fault (09/R219). -/
  dead    : Bool := false
  /-- Cycle of placement, resumption or last slice, and of the last move (16/R380). -/
  since   : Nat := 0
  moved   : Option Nat := none
  /-- A restart token is owed to each block with an RLBL when the casting is placed again (17/R400). -/
  token   : Option Nat := none
  /-- Billets at the tail of each queue, by its number, that cannot be taken yet (09/R214, R217); reset none. -/
  fresh   : Tab Nat := []
  /-- MODEL: queues from which a take is still to come in the present cycle, so that an add finds the slot that it frees, and
  those from which one has been made (09/R217; log 12). -/
  owed    : List Nat := []
  taken   : List Nat := []
  deriving DecidableEq, Repr

/-- A casting index of a cluster: generation (09 Table 9.6, 19 bits; first issued 1) and the live casting. -/
structure CastSlot where
  gen  : Nat := 1
  live : Option CastLive := none
  deriving DecidableEq, Repr

/-- An element of a cluster's spill queue (04/R97): the node, the number of the held access, its virtual address, and
whether it stores. -/
structure SpillElem where
  node  : NodeRef
  taken : Nat
  va    : Nat
  store : Bool
  deriving DecidableEq, Repr

/-! ## Matrix islands (12) -/

/-- Who placed an item in an island's order (12/R295, R300): a thread, or a node of a casting, with the casting's
generation, its loading thread and the invocation. -/
inductive ItemSrc where
  | thread (t : ThreadRef) (core : Nat)
  | node (n : NodeRef) (gen : Nat) (loader : ThreadRef) (inv : Nat)
  deriving DecidableEq, Repr

/-- A tile descriptor, read and checked (12 Table 12.5), with the handle it lies in. -/
structure TileDesc where
  hk   : Handle
  voff : Nat
  moff : Nat
  kstr : Nat
  mstr : Nat
  bfmt : BitVec 4
  sp   : BitVec 3
  deriving DecidableEq, Repr

/-- One loaded column: value bytes, group masks, E8M0 side-band scales (12/R292). -/
structure TileCol where
  vals   : List Byte
  masks  : List Half
  scales : List Byte
  deriving DecidableEq, Repr

/-- A tile bound to an island (12/R293): its lines so far translated, by virtual line number, and whether all of them are (a
bind that a translation fault halts goes on from the faulting line, 12 Table 12.7); its pin request's state (`refused` is the
pin fault of 05/R104); its columns once loaded. -/
structure Tile where
  desc    : TileDesc
  vmap    : Tab Nat := []
  mapped  : Bool := false
  granted : Bool := false
  refused : Bool := false
  loaded  : Bool := false
  cols    : List TileCol := []
  deriving DecidableEq, Repr

/-- The items of the island order (11/R282, 12). -/
inductive Item where
  | row (bytes : List Byte) (sel : BitVec 9)
  | fire (scratch : W32) (sel : BitVec 9) (count done : Nat)
  | mode (w : Word)
  | scale (bytes : List Byte)
  | acc (op : Nat) (sel : BitVec 9) (count : Nat) (fill : W32)
  | bind (d : TileDesc)
  | unpin
  | token (csel : BitVec 11) (b : Billet)
  | readout (sel : BitVec 9) (num : Nat)
  | marker
  deriving DecidableEq, Repr

/-- An item with its source, the cycle in which it entered and its place in the entry order of that cycle (11/R282). -/
structure ItemIn where
  src  : ItemSrc
  it   : Item
  at'  : Nat := 0
  rank : Nat := 0
  deriving DecidableEq, Repr

/-- A readout snapshot in the downstream link (12/R297): the node it is for and the 128 words of the row. -/
structure Snapshot where
  node  : NodeRef
  words : List W32
  deriving DecidableEq, Repr

/-- Who holds an island (12/R287, R304). -/
inductive Hold where
  | free
  | forClass0 (taker : Option LaunchRef)
  | held (l : LaunchRef) (by' : ThreadRef)
  deriving DecidableEq, Repr

/-- A matrix island (12 Table 12.1 and R287-R300). -/
structure Island where
  hold    : Hold := .free
  /-- Mode word in force, none while unset; reset unset. -/
  mode    : Option Word := none
  /-- The accepted mode of the latest mode item (12/R290). -/
  accepted : Option Word := none
  /-- Column scales σ0-σ127; reset `0x7F` each (absent reads `0x7F`). -/
  sigma   : Tab Byte := []
  /-- Current and pending tile; reset none. -/
  cur     : Option Tile := none
  pending : Option Tile := none
  /-- Accumulators: word 128 × (256 × bank + row) + column; reset 0 (absent reads 0). -/
  acc     : Tab W32 := []
  /-- Restart label and restart thread; reset none. -/
  rlbl    : Option (Word × ThreadRef) := none
  /-- Halt; reset clear. -/
  halt    : Bool := false
  /-- The head item faulted in a way that discards it when the halt clears (12 Table 12.7). -/
  discard : Bool := false
  /-- The island order: channel of at most 8 items, oldest first (11/R282). -/
  order   : List ItemIn := []
  /-- Downstream link: at most 8 snapshots (12/R294). -/
  link    : List Snapshot := []
  /-- Accumulator rows, 256 × bank + row, that hold an uncorrectable error (17/R403). -/
  badRows : List Nat := []
  /-- The half-cycle from which the next row may fire (01/R17, 12/R294). -/
  slot    : Nat := 0
  deriving DecidableEq, Repr

/-! ## Clusters and dies -/

/-- One cluster. -/
structure Cluster where
  /-- What each frame holds (06/R137); absent is free; reset all free. -/
  frames   : Tab FrameUse := []
  /-- Resident pages, least recently used first (06/R147). -/
  lru      : List Nat := []
  /-- Backing slots in use (06/R140); reset none. -/
  slots    : List Nat := []
  /-- Pinned pages (06/R151); reset none. -/
  pinned   : List Nat := []
  /-- Page moves in progress (06/R145), by 2,048 × space + page. -/
  moves    : Tab PageMove := []
  /-- Page-ins asked for, with the core that asked (06/R147). -/
  wants    : Tab Nat := []
  /-- Curd indices (07/R156). -/
  curds    : Tab CurdSlot := []
  /-- Curd partitions 0-15 (07/R159); reset disabled. -/
  parts    : Tab Partition := []
  /-- Barriers 0-255 (15/R361). -/
  bars     : Tab Barrier := []
  /-- Streamer islands 0-3 and queues, by 8 × island + queue (05/R109). -/
  streamers : Tab Streamer := []
  queues   : Tab SQueue := []
  /-- Casting indices 0-191 (09/R222). -/
  casts    : Tab CastSlot := []
  /-- Demands that stand (16/R380); reset none. -/
  demands  : List Demand := []
  /-- Spill queue, oldest first, at most 256 (04/R97). -/
  spill    : List SpillElem := []
  /-- Edge TLB, newest first, at most 4,096 (04/R96). -/
  edge     : List TlbEntry := []
  /-- Matrix islands 0-7 (12/R287). -/
  islands  : Tab Island := []
  deriving DecidableEq, Repr

/-- A pin request (05/R104): the island's cluster and number, and its lines. -/
structure PinReq where
  cl    : Nat
  isl   : Nat
  lines : List Nat
  deriving DecidableEq, Repr

/-- One die: format windows (04/R80), the L2 (05/R101-R103), pins (05/R104, R105), and decoded lines kept while
pinned (04/R85). (DEDUCED, log 18.) -/
structure Die where
  /-- Descriptors of windows 0-63, 256 bits; reset 0, disabled (19/R436). -/
  windows : Tab (BitVec 256) := []
  /-- Pin count by physical line. -/
  pins    : Tab Nat := []
  /-- Waiting pin requests in order of arrival. -/
  waiting : List PinReq := []
  /-- Decoded contents of pinned lines: the 64 bytes of the view, and for a scaled view the 4 scales after them. -/
  decoded : Tab (List Byte) := []
  /-- Those of them that were decoded from an auxiliary line that held an uncorrectable error (17/R403). -/
  badDec  : List Nat := []
  /-- L2 (05/R101, R103): by 4,096 × slice + set, the lines that the set holds, least recently used first; reset empty. -/
  l2      : Tab (List Nat) := []
  deriving DecidableEq, Repr

/-! ## Launches (16) -/

/-- A launch record, read (16 Table 16.1). -/
structure Record where
  nlev   : Nat
  cls    : BitVec 2
  asid   : BitVec 14
  part   : Nat
  carve  : Nat
  codeh  : Nat
  sen    : Bool
  sis    : Nat
  sq     : Nat
  schh   : Nat
  den    : Bool
  doneh  : Nat
  depen  : Bool
  deph   : Nat
  entry  : Word
  task   : BitVec 56
  msg    : Word
  ovbase : Word
  ovlen  : Word
  schoff : Word
  seed   : W32
  levels : List W32
  doneoff : Word
  depoff : Word
  roots  : List Handle
  /-- The schedule header that the check read, when SEN is set. -/
  shdr   : Nat
  deriving DecidableEq, Repr

/-- The dispatcher's side of a launch queue (16/R370-R374). -/
structure LQueue where
  /-- HEAD and TAIL as the dispatcher holds them; `opened` once it has read them from the header (16/R370). -/
  opened : Bool := false
  head   : Word := 0
  tail   : Word := 0
  /-- The slot at HEAD has been found ready, and its record admitted (held until it starts). -/
  ready  : Bool := false
  record : Option Record := none
  /-- Home cluster, found when the record is admitted (16/R375). -/
  home   : Nat := 0
  /-- Cycle at which the record was admitted (16/R381, R382). -/
  admitted : Nat := 0
  /-- Cycle since which it has been held only for want of placement (16/R379). -/
  heldAt : Option Nat := none
  /-- A *queue* record has been posted for a failing read (16/R372). -/
  posted : Bool := false
  /-- Watchdog limit of the admitted record's launch (17/R402). -/
  limit  : Nat := 0
  deriving DecidableEq, Repr

/-- A started launch (16/R378, R386, R387). -/
structure Launch where
  ref     : LaunchRef
  record  : Record
  /-- Ranks that have not finished. -/
  live    : List Nat
  /-- Clusters on which it started a thread, and the cycle of its start (16/R380, R381). -/
  clusters : List Nat
  started : Nat
  /-- Watchdog limit in µs, 0 disabled, and cycles counted (17/R402). -/
  limit   : Nat := 0
  counted : Nat := 0
  /-- Pending curd shares of its threads that have finished, by cluster and index (07 Table 7.4). -/
  shares  : List (Nat × Nat) := []
  deriving DecidableEq, Repr

/-! ## Key-value blocks and draft windows (13) -/

/-- An open sequence (13/R314): captured handle, owner ASID, offsets of its pool block and record, and the state
the device keeps (NTOK, NPGE, LCAP, state regions). -/
structure Seq where
  asid  : BitVec 14
  hk    : Handle
  pool  : Word
  recOff : Word
  ntok  : Nat
  npge  : Nat
  lcap  : Nat
  sreg  : List (Nat × Nat)
  /-- Windows opened so far (13/R321). -/
  nwin  : Nat
  deriving DecidableEq, Repr

/-- A sequence entry: generation (18 bits, first 1) and the open sequence. -/
structure SeqSlot where
  gen  : Nat := 1
  live : Option Seq := none
  deriving DecidableEq, Repr

/-- A piece of 256 covered bytes (13/R323), as the physical runs (first address, length) that it is made of, in order: a row
or a state region need not lie on a physical granule of its own. -/
abbrev Piece := List (Nat × Nat)

/-- A shadow granule of a window (13/R323): the covered bytes it stands for, the physical address of the granule of the
shadow area that holds them, which of its bytes have been written (13/R322), and for a snapshot its number (0 for a
live shadow). -/
structure Granule where
  pc    : Piece
  slot  : Nat
  snap  : Nat
  wr    : BitVec 256
  deriving DecidableEq, Repr

/-- State of a draft window (13/R321, Table 13.8). -/
inductive WinState where
  | opened | closing | committed | aborted
  deriving DecidableEq, Repr

/-- A draft page of a window (13/R318): its page, its list entry, and whether it copies a partly shared page. -/
structure DraftPage where
  page  : Nat
  entry : Nat
  copy  : Option Nat
  deriving DecidableEq, Repr

/-- A draft window (13/R321-R327). -/
structure Window where
  seq    : Nat
  launch : LaunchRef
  /-- ORD, NMAX, NAPP, first position, KEEP, snapshots taken (bit p - 1). -/
  ord    : Nat
  nmax   : Nat
  napp   : Nat
  first  : Nat
  keep   : Nat
  snaps  : BitVec 16
  st     : WinState
  /-- Commit scopes (13/R325). -/
  as     : BitVec 3
  ss     : BitVec 4
  /-- Closing, its release waits for its thread's writes to the host window (13/R325, 14/R341). -/
  waits  : Bool := false
  /-- The 256-byte pieces of the appended rows, position by position (13/R322). -/
  rows   : List (List Piece)
  /-- The 256-byte pieces of each state region. -/
  regions : List (List Piece)
  /-- Granules held. -/
  grans  : List Granule
  pages  : List DraftPage
  deriving DecidableEq, Repr

/-- A window index: generation (20 bits, first 1) and the window it holds. -/
structure WinSlot where
  gen  : Nat := 1
  live : Option Window := none
  deriving DecidableEq, Repr

/-- The sequence that a key-value copy serves: its index, its generation and its state at issue. -/
structure SeqRef where
  idx : Nat
  gen : Nat
  q   : Seq
  deriving DecidableEq, Repr

/-- The streamer island that makes a page copy (13/R318): its cluster and number, the class of its beats (05/R110), and the bytes
copied so far. -/
structure PageBeats where
  cl   : Nat
  isl  : Nat
  cls  : BitVec 2
  done : Nat
  deriving DecidableEq, Repr

/-- A key-value copy in progress (13/R318, R319): an APPEND's page copy, a DEMOTE, or a promotion. The thread and
register named are those of the long result. -/
inductive KvCopy where
  | append (r : SeqRef) (src dst rows : Nat) (by' : PageBeats) (thread : ThreadRef) (reg : RegLoc)
  | demote (r : SeqRef) (entry page slot : Nat) (thread : ThreadRef) (reg : RegLoc)
  | promote (r : SeqRef) (entry page slot : Nat) (ring : W32) (begun : Bool) (thread : ThreadRef)
  deriving DecidableEq, Repr

/-! ## Pod (18) -/

/-- An outstanding pod operation (18/R417): its thread, ring slot, descriptor and source. -/
structure PodOp where
  id     : Nat
  owner  : ThreadRef
  /-- The core it was issued on (06/R139), and the number of a combine among those with its set word (18/R423). -/
  key    : Nat
  nth    : Nat
  asid   : BitVec 14
  hr     : Handle
  roff   : Word
  slot   : W32
  /-- `xcomb` operator, or none for `xmcast`. -/
  op     : Option (BitVec 3)
  set    : Word
  dst    : Word
  flag   : Word
  tag    : Half
  /-- Source bytes, read at issue (DESIGN CHOICE, log 1); none where the source met an error (18/R419). -/
  data   : List Byte
  /-- Some part has failed. -/
  err    : Bool
  /-- The port that carries a combine's contribution (18/R423). -/
  port   : Nat
  /-- Cycle of issue (18/R415). -/
  since  : Nat
  /-- In the tree that the members run themselves (18/R424): the levels done, the value of this participant's position and the
  flags raised in it so far, whether the value has been sent on; and the result once it is known, with its flags. -/
  level  : Nat := 0
  val    : List W32 := []
  fl     : BitVec 6 := 0
  out    : Bool := false
  res    : Option (List W32 × BitVec 6) := none
  deriving DecidableEq, Repr

/-- A tree value or a result that came before this participant had issued its combine (18/R424). -/
structure EarlyPart where
  set   : Word
  nth   : Nat
  level : Nat
  words : List W32
  fl    : BitVec 6
  op    : BitVec 3
  tag   : Half
  deriving DecidableEq, Repr

/-- What this member sends to another, or to the combining switch: a multicast's part (18/R418), its contribution to a
switch's combine (R423), its value at a level of the tree, the result, a failure notice (R424), a fence notice (R414). -/
inductive PodBody where
  | multicast (asid : BitVec 14) (dst flag : Word) (data : List Byte)
  | contribution (set : Word) (part : Contrib)
  | treeValue (set : Word) (level : Nat) (part : Contrib) (fl : BitVec 6)
  | result (set : Word) (nth : Nat) (words : List W32) (fl : BitVec 6)
  | failure (set : Word) (nth : Nat)
  | fence (m : Nat)
  deriving DecidableEq, Repr

/-- A message sent: its member (none for the switch, and for a notice that goes out on a port) and the port that it leaves
through (18/R413, R423). -/
structure PodMsg where
  dest : Option Nat
  port : Option Nat
  body : PodBody
  deriving DecidableEq, Repr

/-- A value or a result of the tree that has been sent and not answered (18/R424): to whom, in which cycle, through which port. -/
structure TreeSend where
  dest  : Nat
  since : Nat
  port  : Option Nat
  deriving DecidableEq, Repr

/-- A message that waits, for the port that the hash picks for its member and its address is down and still drains (18/R413). -/
structure HeldMsg where
  dest : Nat
  addr : Nat
  body : PodBody
  deriving DecidableEq, Repr

/-! ## Device registers, mailbox, reliability (04, 16, 17, 18, 19) -/

/-- Device registers (04 Table 4.10, 16 Table 16.3, 17 Table 17.6, 18 Table 18.3, 19 Table 19.2). -/
structure DevRegs where
  /-- `ASIDT` (04/R91); reset 0. -/
  asidt   : Word := 0
  /-- `TINV` (04/R92); reset 0. -/
  tinv    : Word := 0
  /-- `DWSHAD` (13/R323); reset 0. -/
  dwshad  : Word := 0
  /-- `LQCTL[q]` (16/R370); reset 0. -/
  lqctl   : Tab Word := []
  /-- `LQBASE[q]` (16/R370); reset 0. -/
  lqbase  : Tab Word := []
  /-- `SCHWT` (16/R384); reset W3 1, W2 2, W1 4. -/
  schwt   : Word := 0x010204
  /-- `Q0RES` (16/R381); reset 0. -/
  q0res   : Word := 0
  /-- `STEALT` (16/R379); reset 8,000. -/
  stealt  : Word := 8000
  /-- `INVCODE[d]` (17/R405); reset 0. -/
  invcode : Tab W32 := []
  /-- `UNDERRD[c][p]`, by 16c + p (17/R405); reset 0. -/
  underrd : Tab W32 := []
  /-- `RETIRED` (17/R405); reset 0. -/
  retired : Word := 0
  /-- `PODWIN[m]` (18/R414); reset 0, absent. -/
  podwin  : Tab Word := []
  /-- `HOSTOFF` (18/R410); reset 0. -/
  hostoff : Word := 0
  /-- `PODID` (18/R423), and whether its one write has taken effect; reset 0, unwritten. -/
  podid   : Word := 0
  podidSet : Bool := false
  /-- `THERM` (19/R432); reset 0. -/
  therm   : Word := 0
  deriving DecidableEq, Repr

/-- The kinds of event-ring records (18/R411): a launch kill (and, posted in the same way, a fault whose thread has
finished), a retirement, a member state change, a launch queue held. (DESIGN CHOICE, log 30.) -/
inductive EventKind where
  | kill | retirement | member | queueHeld
  deriving DecidableEq, Repr

/-- An event-ring record (18/R411): kind, `ECAUSE`, `EADDR`, `EWHO`. -/
structure EventRec where
  kind  : EventKind
  cause : Word
  addr  : Word
  who   : Word
  deriving DecidableEq, Repr

/-- The management mailbox and MSI-X (18/R411, R412, R429, R437). -/
structure Mailbox where
  /-- `DOORBELL` bit 63: a command runs (or bring-up, 19/R435). -/
  busy    : Bool := false
  /-- Command code last accepted. -/
  code    : Word := 0
  /-- `REQ` doublewords. -/
  req     : List Word := []
  /-- `RSTAT` and `RESP` as the running command will leave them. -/
  next    : Word × List Byte := (0, [])
  /-- `RSTAT` and `RESP` as read. -/
  rstat   : Word := 0
  resp    : List Byte := []
  /-- Records ever posted (doubleword at `0x010`), and the event ring by e mod 96. -/
  posted  : Word := 0
  ring    : Tab EventRec := []
  /-- Times MSI-X vectors 0 and 1 have fired. -/
  msix0   : Nat := 0
  msix1   : Nat := 0
  /-- Firmware loads since reset, images in load order, and the staged image. -/
  fwLoads : Nat := 1
  fwLog   : List Byte := []
  staged  : Option (List Byte) := none
  /-- The image that the running bring-up booted, none for the flash's own (19/R437). -/
  boot    : Option (List Byte) := none
  /-- Staging buffer of the recovery state (19/R434). -/
  buffer  : Memory := []
  deriving DecidableEq, Repr

/-- Reliability state (17/R403, R404). -/
structure Reliab where
  /-- Times (cycles) of the last corrected events of each unit, newest first, at most 4. -/
  events  : List (UnitRef × List Nat) := []
  /-- Units retired. -/
  retired : List UnitRef := []
  /-- Physical device-memory lines that hold an uncorrectable error (17/R403). -/
  badLines : List Nat := []
  /-- The same in the scratch banks, by 64 bytes of `sram` (17/R403). -/
  badSram  : List Nat := []
  deriving DecidableEq, Repr

/-- The PCI Express function's own settings (18 Table 18.1): log2 of BAR 2's size, which Resizable BAR sets from 30 to 40, and
whether it stands in D3hot. Reset 40 and D0 (DESIGN CHOICE, log 69). -/
structure Pci where
  bar2  : Nat := 40
  d3hot : Bool := false
  deriving DecidableEq, Repr

/-- What phase the module is in (19/R433-R435, R432). -/
inductive Phase where
  | bringUp | up | recovery | off
  deriving DecidableEq, Repr

/-- Where an uncorrectable error arises (17/R403): a line of device memory, 64 bytes of a scratch bank, a window file
register, a streamer queue's head entry, an input queue of a fabric instruction, an accumulator row of an island. -/
inductive EccPlace where
  | line (l : Nat)
  | sram (l : Nat)
  | register (key : Nat) (l : RegLoc)
  | entry (cl q : Nat)
  | node (n : NodeRef)
  | accRow (cl isl row : Nat)
  deriving DecidableEq, Repr

/-- An agent whose access waits for sub-banks (11/R276): a thread's core, a fabric instruction, a streamer queue's head, a
matrix island's row fire. -/
inductive Waiter where
  | thread (key : Nat)
  | node (n : NodeRef)
  | queue (cl isl q : Nat)
  | island (cl isl : Nat)
  deriving DecidableEq, Repr

/-- An access that waits for its sub-banks (11/R276), and the cycle of its arrival. -/
structure BankWait where
  who   : Waiter
  since : Nat
  banks : List Nat
  deriving DecidableEq, Repr

/-- Which agent moves (DESIGN CHOICE, log 2): a control thread's core; a fabric instruction of a context that its compute unit
steps (09/R214: no agenda names these); an event; a change of the outside's own memory or barriers; an uncorrectable error
(17/R403); a host read of BAR 0 or BAR 4 (18/R408), or the host's write of mailbox bytes or of the staging buffer (18/R411,
19/R434); a setting of the PCI Express function (18 Table 18.1); a host request of a thread's next issue that times out
(18/R410); another member's answer to the values and results of the tree that it has been sent (18/R414, R424); the hottest
sensor's reading (19 Table 19.2); or a translation cache taking or dropping an entry (DESIGN CHOICE, log 4). -/
inductive Move where
  | thread (key : Nat)
  | node (n : NodeRef)
  | event (i : Instr)
  | outside (cells : List Host.Cell)
  | outBar (k : Nat) (b : Barrier)
  | eccError (p : EccPlace)
  | hostRead (bar off n : Nat)
  | mailboxWrite (off : Nat) (bytes : List Byte)
  | pciSize (n : Nat)
  | pciPower (d3hot : Bool)
  | issueTimeout (key : Nat)
  | treeAnswer (m : Nat)
  | sensor (t : BitVec 8)
  | cacheFill (asid : BitVec 14) (va : Nat)
  | cacheDrop (asid : BitVec 14) (va : Nat)
  deriving DecidableEq, Repr

/-- The state of the part. -/
structure State where
  /-- Phase of the module (19/R433). -/
  phase   : Phase := .up
  /-- `CYCLE`: cycles since module reset (08 Table 8.4); reset 0. -/
  cycle   : Nat := 0
  /-- MODEL: the moves to come, each with the cycles that pass before it (DESIGN CHOICE, log 2, log 3). -/
  agenda  : List (Nat × Move) := []
  /-- MODEL: the moves of the present cycle that have still to act, in their order (log 2). -/
  turns   : List Move := []
  /-- The context that the compute units of each placed block stepped last, by 8 × casting id + block (09/R214); reset 0. -/
  ctxs    : Tab Nat := []
  /-- Fabric instructions that have fired in the present cycle, of those that an event too may fire (09/R214): `c.alloc`, and
  memory nodes that have emitted. -/
  fired   : List NodeRef := []
  /-- Streamer islands that have moved a beat in the present cycle (05/R110), 4 × cluster + island. -/
  beats   : List Nat := []
  /-- Sub-banks of scratch memory at which an access has been performed in the present cycle (11/R276): 16 × (512 × cluster +
  memory unit) + sub-bank. -/
  busy    : List Nat := []
  /-- Accesses that wait for sub-banks (11/R276), but for those that memory nodes hold as the cycle begins; reset none. -/
  banked  : List BankWait := []
  /-- MODEL: the core whose thread issues (64 × cluster + core), and the fabric instruction that fires (DESIGN CHOICE, log 2). -/
  core    : Nat := 0
  node    : NodeRef := ⟨0, 0, 0⟩
  /-- Device memory by physical address (04/R77); reset zero (19/R433). -/
  mem     : Memory := []
  /-- Scratch frames: byte 2^24 × cluster + 2,048 × frame + offset (06/R137); reset zero (19/R433). -/
  sram    : Memory := []
  /-- The outside's memory as this device's requests find it: pod address of a member (member × 2^48 + address), or
  2^60 + bus address of the host (DESIGN CHOICE, log 7). -/
  outside : Memory := []
  /-- Barriers of other members as this device's requests find them: 256 × member + index (DESIGN CHOICE, log 7). -/
  outBars : Tab Barrier := []
  regs    : DevRegs := {}
  /-- Running threads by core (64 × cluster + core); reset none. -/
  threads : Tab Thread := []
  /-- Context stores by core (17/R396); reset empty. -/
  saved   : Tab Thread := []
  /-- Scratch translation entries held in each context store (17 Table 17.3). -/
  savedTab : Tab (List Word) := []
  clusters : Tab Cluster := []
  dies    : Tab Die := []
  /-- Asynchronous faults that wait at their sources, in order of arrival (17/R392); reset none. -/
  waiting : List WaitFault := []
  /-- Translation cache entries (04/R92); reset none. -/
  tlb     : List TlbEntry := []
  /-- Launch queues (16/R370) and started launches. -/
  lqs     : Tab LQueue := []
  launches : List Launch := []
  /-- Launches that have ended but for copies of theirs that had begun, and whose completion counters wait for those (16/R387). -/
  closing : List Launch := []
  /-- The control thread that finished last on each core, as it finished (00/R10); reset none. -/
  left    : Tab Thread := []
  /-- Weighted round robin credits of classes 1-3, reset their weights of `SCHWT`; and the queue served last in each class
  (16/R384). -/
  credits : Tab Nat := [(1, 4), (2, 2), (3, 1)]
  lastQ   : Tab Nat := []
  /-- Sequences (13/R314), windows (13/R321), copies in progress. -/
  seqs    : Tab SeqSlot := []
  wins    : Tab WinSlot := []
  kvCopies : Tab KvCopy := []
  kvNext  : Nat := 0
  /-- Pod barriers of this member (18/R425), pod operations, ports down (18/R413). -/
  podBars : Tab Barrier := []
  podOps  : List PodOp := []
  podNext : Nat := 0
  ports   : List Nat := []
  /-- Tree values and results that came before their combine was issued here (18/R424); reset none. -/
  early   : List EarlyPart := []
  /-- Combines issued so far, by set word (18/R423); reset none. -/
  combs   : Tab Nat := []
  /-- MODEL: what this member has sent to others (18/R413-R424), oldest first; reset none. -/
  sent    : List PodMsg := []
  /-- Values and results of the tree that have been sent and not answered (18/R414, R424); reset none. -/
  treeOut : List TreeSend := []
  /-- Messages that wait for a port to drain (18/R413), oldest first; reset none. -/
  unsent  : List HeldMsg := []
  pci     : Pci := {}
  /-- Cores whose next issue finds that its host-window read has timed out (18/R410, 08/R453). -/
  timedOut : List Nat := []
  mbox    : Mailbox := {}
  rel     : Reliab := {}
  /-- MODEL: the member that an access made at issue has asked in vain, for the agent whose turn it is (18/R414); reset none. -/
  asked   : Option Nat := none
  /-- MODEL: free values drawn so far (DESIGN CHOICE, log 20). -/
  free    : Nat := 0
  /-- MODEL: what the last host read, host atomic or other member's request was answered (DESIGN CHOICE, log 7). -/
  answer  : List Byte := []
  deriving DecidableEq, Repr

/-- The machine right after reset: bring-up has ended with its boot image verified (19/R433, R436), every register
at its Reset value, memory clear, no thread, nothing placed. (DESIGN CHOICE, log 9.) -/
def State.reset : State := {}

/-- Why a step stops. -/
inductive Fault where
  /-- Raised by `exec` alone: a control-thread instruction given to a core that runs no thread. `step` never does so
  (an idle core stutters), and the spec gives such an instruction no effect. Safe. -/
  | noThread
  /-- Raised by `exec` alone: a fabric instruction given to a place that holds no live casting. `step` never does so.
  Safe. -/
  | noNode
  deriving DecidableEq, Repr

/-- Why an instruction has no meaning. -/
inductive Refusal where
  /-- Raised by an arm of `exec` whose instruction has no meaning yet; none is left so. Safe. -/
  | notModelled (mnemonic : String)
  deriving DecidableEq, Repr

end Sys2Proof.Machine
end

