-- ==== Sys2Proof/Machine/Tab.lean ====
section
/-! DEFINITION. Tables and memory as plain lists: reading, writing, the canonical form, and little-endian values
(00/R3). -/

namespace Sys2Proof.Machine

/-! ## Tables -/

/-- The value at a key, if the table lists it. -/
def tabFind {α : Type} : Tab α → Nat → Option α
  | [], _ => none
  | (j, v) :: r, k => if j = k then some v else if k < j then none else tabFind r k

/-- The value at a key, or a default. -/
def tabGet {α : Type} (t : Tab α) (k : Nat) (d : α) : α := (tabFind t k).getD d

/-- Set the value at a key, keeping the keys rising. -/
def tabPut {α : Type} : Tab α → Nat → α → Tab α
  | [], k, v => [(k, v)]
  | (j, w) :: r, k, v =>
    if j = k then (k, v) :: r else if k < j then (k, v) :: (j, w) :: r else (j, w) :: tabPut r k v

/-- Remove a key. -/
def tabDel {α : Type} : Tab α → Nat → Tab α
  | [], _ => []
  | (j, w) :: r, k => if j = k then r else if k < j then (j, w) :: r else (j, w) :: tabDel r k

/-- Change the value at a key; an absent key starts from the default. -/
def tabUpd {α : Type} (t : Tab α) (k : Nat) (d : α) (f : α → α) : Tab α := tabPut t k (f (tabGet t k d))

/-- Replace every value. -/
def tabMap {α : Type} (f : α → α) (t : Tab α) : Tab α := t.map fun e => (e.1, f e.2)

/-! ## Memory -/

/-- The canonical form from an address on: strictly rising addresses, no zero byte listed. -/
def Memory.wfFrom (lo : Nat) : Memory → Bool
  | [] => true
  | (a, b) :: r => decide (lo ≤ a) && !(b == 0) && Memory.wfFrom (a + 1) r

/-- The canonical form of a memory. -/
def Memory.wf (m : Memory) : Bool := Memory.wfFrom 0 m

/-- What an unlisted address reads as: zero, the contents bring-up leaves (19/R433, DEDUCED, log 16). -/
def memDefault : Byte := 0

/-- Read one byte. -/
def memGet : Memory → Nat → Byte
  | [], _ => memDefault
  | (j, v) :: r, a => if j = a then v else if a < j then memDefault else memGet r a

/-- Write one byte; writing what an unlisted address reads as removes the entry. -/
def memPut : Memory → Nat → Byte → Memory
  | [], a, v => if v = memDefault then [] else [(a, v)]
  | (j, w) :: r, a, v =>
    if j = a then (if v = memDefault then r else (a, v) :: r)
    else if a < j then (if v = memDefault then (j, w) :: r else (a, v) :: (j, w) :: r)
    else (j, w) :: memPut r a v

/-- Read n consecutive bytes. -/
def memBytes (m : Memory) (a : Nat) : Nat → List Byte
  | 0 => []
  | n + 1 => memGet m a :: memBytes m (a + 1) n

/-- Write consecutive bytes. -/
def memWrite (m : Memory) (a : Nat) : List Byte → Memory
  | [] => m
  | b :: r => memWrite (memPut m a b) (a + 1) r

/-- Write the bytes whose mask is set. -/
def memWriteMask (m : Memory) (a : Nat) : List (Byte × Bool) → Memory
  | [] => m
  | (b, w) :: r => memWriteMask (if w then memPut m a b else m) (a + 1) r

/-- Remove every entry of n consecutive addresses, which then read zero. -/
def memClear (m : Memory) (a n : Nat) : Memory := m.filter fun c => c.1 < a || a + n ≤ c.1

/-- The value of little-endian bytes (00/R3). -/
def leNat : List Byte → Nat
  | [] => 0
  | b :: r => b.toNat + 256 * leNat r

/-- The n little-endian bytes of a value modulo 256^n. -/
def natLe : Nat → Nat → List Byte
  | 0, _ => []
  | n + 1, v => BitVec.ofNat 8 v :: natLe n (v / 256)

/-- The little-endian value of n bytes of memory. -/
def memLe (m : Memory) (a n : Nat) : Nat := leNat (memBytes m a n)

/-- The little-endian doubleword of memory. -/
def memWord (m : Memory) (a : Nat) : Word := BitVec.ofNat 64 (memLe m a 8)

/-! ## Bit fields -/

/-- Bits high:low of a value, both ends included (00/R3). -/
def bits (v : Nat) (hi lo : Nat) : Nat := (v / 2 ^ lo) % 2 ^ (hi + 1 - lo)

/-- One bit of a value. -/
def bit (v i : Nat) : Bool := (v / 2 ^ i) % 2 = 1

/-- A Bool as a bit. -/
def b2n (b : Bool) : Nat := if b then 1 else 0

/-- The signed value of a pattern of n bits. -/
def sOf (n v : Nat) : Int := if v < 2 ^ (n - 1) then (v : Int) else (v : Int) - (2 : Int) ^ n

/-- Wrap an exact value to n bits (00 Table 0.1), as a number. -/
def wrapN (n : Nat) (x : Int) : Nat := (x % (2 : Int) ^ n).toNat

/-- Split a list into pieces of n elements; `fuel` bounds the number of pieces. -/
def chunks {α : Type} (n : Nat) : Nat → List α → List (List α)
  | 0, _ => []
  | fuel + 1, l => if l.isEmpty then [] else l.take n :: chunks n fuel (l.drop n)

/-- Replace element i of a list. -/
def listPut {α : Type} (l : List α) (i : Nat) (v : α) : List α := l.set i v

/-- The first index from `lo` on, below `lo + n`, that a test accepts. -/
def firstFrom (p : Nat → Bool) (lo : Nat) : Nat → Option Nat
  | 0 => none
  | n + 1 => if p lo then some lo else firstFrom p (lo + 1) n

/-- Fold over a list with an early error. -/
def foldE {ε α β : Type} (f : β → α → Except ε β) (b : β) : List α → Except ε β
  | [] => .ok b
  | x :: r => (f b x).bind fun c => foldE f c r

/-- Map over a list with an early error. -/
def mapE {ε α β : Type} (f : α → Except ε β) : List α → Except ε (List β)
  | [] => .ok []
  | x :: r => (f x).bind fun y => (mapE f r).map (y :: ·)

end Sys2Proof.Machine
end

