-- ==== Sys2Proof/Machine/Fault.lean ====
section
/-! DEFINITION. Causes and sub-causes (17 Table 17.1), the fault record (17 Table 17.2), and how a meaning ends early. -/

namespace Sys2Proof.Machine

/-- A fault as a rule raises it: cause and sub-cause (17 Table 17.1), the address for `EADDR` where 17 Table 17.2 names
one, and the code of `trap` and `brk`. -/
structure Exn where
  cause : Nat
  sub   : Nat
  addr  : Option Word := none
  code  : BitVec 8 := 0
  deriving DecidableEq, Repr

/-- How a meaning ends without completing: a precise trap, with the partial effects its rule keeps (08/R188), or a
wait, with what the wait itself changes (06/R144: a page asked for). -/
inductive Exc where
  | trap (e : Exn) (keep : Option State)
  | stall (keep : Option State)
  deriving DecidableEq, Repr

/-- Lift a fault to a precise trap that leaves everything as it was (00/R6). -/
def liftE {α : Type} : Except Exn α → Except Exc α
  | .ok a => .ok a
  | .error e => .error (.trap e none)

/-- Raise a fault (17 Table 17.1). -/
def exn {α : Type} (cause sub : Nat) (addr : Option Word := none) : Except Exn α := .error ⟨cause, sub, addr, 0⟩

/-- Trap precisely. -/
def trapWith {α : Type} (cause sub : Nat) (addr : Option Word := none) : Except Exc α :=
  .error (.trap ⟨cause, sub, addr, 0⟩ none)

/-- Wait, changing nothing. -/
def stallNow {α : Type} : Except Exc α := .error (.stall none)

/-! Causes of 17 Table 17.1. -/

/-- Illegal instruction: 0 *encoding*, 1 *frame*, 2 *loop count*, 3 *loop end*, 4 *loop depth*. -/
def cIllegal : Nat := 0x01
/-- Privilege. -/
def cPriv : Nat := 0x02
/-- Empty register. -/
def cEmpty : Nat := 0x03
/-- Alignment. -/
def cAlign : Nat := 0x04
/-- Handle: 0 *invalid*, 1 *space*, 2 *rights*, 3 *bounds*. -/
def cHandle : Nat := 0x05
/-- Translation: 0 *not present*, 1 *malformed*, 2 *protection*, 3 *no space*, 4 *hole*. -/
def cTrans : Nat := 0x06
/-- Scratch page: 0 *unmapped*, 1 *space*, 2 *protection*, 3 *operand*. -/
def cScratch : Nat := 0x07
/-- Curd: 0 *stale*, 1 *cluster*, 2 *space*, 3 *overread*, 4 *unsealed*, 5 *sealed*, 6 *bounds*, 7 *request*,
8 *partition*, 9 *underread*. -/
def cCurd : Nat := 0x08
/-- Casting-load: 0 *align*, 1 *image*, 2 *admission*. -/
def cLoad : Nat := 0x09
/-- Casting: 0 *id*, 1 *cluster*, 2 *space*, 3 *port*, 4 *tag*, 5 *binding*, 6 *marker*, 7 *sequence*, 8 *nest*,
9 *seal*, 10 *forced*. -/
def cCast : Nat := 0x0A
/-- Format window. -/
def cFormat : Nat := 0x0B
/-- Descriptor. -/
def cDesc : Nat := 0x0C
/-- Ring. -/
def cRing : Nat := 0x0D
/-- Island: 0 *owner*, 1 *mode*, 2 *format*, 3 *notile*, 4 *pin*, 5 *lost*, 6 *operand*. -/
def cIsland : Nat := 0x0E
/-- Key-value: 0 *pool*, 1 *sequence*, 2 *space*, 3 *record*, 4 *order*, 5 *operand*. -/
def cKv : Nat := 0x0F
/-- Draft: 0 *window*, 1 *order*, 2 *count*, 3 *nosnap*, 4 *closed*, 5 *shadow*. -/
def cDraft : Nat := 0x10
/-- Window overflow. -/
def cOverflow : Nat := 0x11
/-- Window. -/
def cWindow : Nat := 0x12
/-- Channel: 0 *operand*. -/
def cChannel : Nat := 0x13
/-- Queue: 0 *object*. -/
def cQueue : Nat := 0x14
/-- Barrier: 0 *operand*, 1 *count*, 2 *space*. -/
def cBarrier : Nat := 0x15
/-- Peer lost. -/
def cPeer : Nat := 0x16
/-- Uncorrectable data error. -/
def cData : Nat := 0x17
/-- Software trap. -/
def cTrap : Nat := 0x18
/-- Breakpoint. -/
def cBreak : Nat := 0x19
/-- Restart. -/
def cRestart : Nat := 0x1A

/-! Sources, `ECAUSE` bits 23:21. -/

/-- Instruction. -/
def srcInstr : Nat := 0
/-- Late. -/
def srcLate : Nat := 1
/-- Node. -/
def srcNode : Nat := 2
/-- Streamer queue. -/
def srcQueue : Nat := 3
/-- Island. -/
def srcIsland : Nat := 4
/-- Spill queue. -/
def srcSpill : Nat := 5
/-- Curd pool. -/
def srcPool : Nat := 6

/-- `ECAUSE` bit 20: what faulted goes on after `eret`, by the Resumes column of 17 Table 17.1 (DEDUCED, log 21). -/
def resumes (src cause sub : Nat) : Bool :=
  if src = srcInstr then cause ≠ cIllegal ∧ cause ≠ cPriv ∧ cause ≠ cWindow
  else if src = srcNode then
    cause = cTrans ∨ (cause = cScratch ∧ sub ≠ 3) ∨ (cause = cDraft ∧ sub = 5) ∨ cause = cRestart
  else if src = srcIsland then cause = cTrans ∨ cause = cScratch
  else true

/-- The `ECAUSE` word (17 Table 17.2). -/
def ecauseOf (src : Nat) (e : Exn) : Word :=
  BitVec.ofNat 64 (e.cause + 2 ^ 8 * e.sub + 2 ^ 20 * b2n (resumes src e.cause e.sub) + 2 ^ 21 * src
    + 2 ^ 24 * e.code.toNat)

end Sys2Proof.Machine
end

