-- ==== Sys2Proof/Machine/Phys.lean ====
section
/-! DEFINITION. Physical memory: the map (04/R77-R79), format windows (04/R80-R86), draft-window shadows (13/R322,
R323), and scratch frames (06/R136-R143). -/

namespace Sys2Proof.Machine

/-- Whoever makes an access: its ASID and cluster, the core that counts as asking (06/R147), the launch whose draft
windows it sees (13/R322), and its privilege (17/R395). -/
structure Agent where
  asid   : BitVec 14
  cl     : Nat
  core   : Nat
  launch : Option LaunchRef
  priv   : Bool
  deriving DecidableEq, Repr

/-! ## The physical map -/

/-- A region of 04 Table 4.1; `backing` is the gigabyte that only page engines and walkers reach (06/R140, R141). -/
inductive Region where
  | dev | backing | host | regs | hole
  deriving DecidableEq, Repr

/-- First byte of the gigabyte of 06/R140. -/
def backingBase : Nat := 0x8FC0000000
/-- End of device memory (04 Table 4.1). -/
def devEnd : Nat := 0x9000000000
/-- First byte of the host window. -/
def hostBase : Nat := 0x800000000000
/-- First byte of the device registers. -/
def regBase : Nat := 0xF00000000000

/-- The region of a local physical address (04 Table 4.1). -/
def regionOf (pa : Nat) : Region :=
  if pa < backingBase then .dev
  else if pa < devEnd then .backing
  else if hostBase ≤ pa ∧ pa < 0xC00000000000 then .host
  else if regBase ≤ pa ∧ pa < 0xF00100000000 then .regs
  else .hole

/-- The cluster whose channels hold a device-memory address (04/R78). -/
def clusterOf (pa : Nat) : Nat := (pa / 65536) % 32

/-- The die that holds a device-memory address (04/R78). -/
def dieOf (pa : Nat) : Nat := clusterOf pa / 16

/-- The granule of an address (04/R78). -/
def granuleOf (pa : Nat) : Nat := pa / 65536
/-- `row` of 04/R78. -/
def rowOfGranule (pa : Nat) : Nat := granuleOf pa / 32
/-- `j` of 04/R78: the 256-byte burst within the granule. -/
def burstOf (pa : Nat) : Nat := pa / 256 % 256
/-- `k` of 04/R78: the channel within the cluster's group. -/
def channelInGroup (pa : Nat) : Nat := (burstOf pa + 4 * (rowOfGranule pa % 3)) % 12
/-- The HBM4 stack that holds an address (04/R78). -/
def stackOf (pa : Nat) : Nat := 6 * dieOf pa + channelInGroup pa / 2
/-- The channel within its stack (04/R78). -/
def channelOf (pa : Nat) : Nat := 2 * (clusterOf pa % 16) + channelInGroup pa % 2

/-- `AFFMAP[n]` (04/R79). -/
def affmap (n : Nat) : Nat := 16 * (n / 32 / 6) + (n % 32) / 2

/-- A cluster's state. -/
def State.cluster (s : State) (c : Nat) : Cluster := tabGet s.clusters c {}

/-- Change a cluster's state. -/
def State.updCluster (s : State) (c : Nat) (f : Cluster → Cluster) : State :=
  { s with clusters := tabUpd s.clusters c {} f }

/-- A die's state. -/
def State.die (s : State) (d : Nat) : Die := tabGet s.dies d {}

/-- Change a die's state. -/
def State.updDie (s : State) (d : Nat) (f : Die → Die) : State := { s with dies := tabUpd s.dies d {} f }

/-! ## Format windows -/

/-- EN of a descriptor (04 Table 4.3). -/
def winEn (d : BitVec 256) : Bool := bit d.toNat 0
/-- First byte of the view. -/
def winBase (d : BitVec 256) : Nat := bits d.toNat 47 16 * 65536
/-- Bytes of the view. -/
def winLen (d : BitVec 256) : Nat := bits d.toNat 95 64 * 65536
/-- First byte of the auxiliary region. -/
def winAux (d : BitVec 256) : Nat := bits d.toNat 175 128
/-- Element format code. -/
def winFmt (d : BitVec 256) : Nat := bits d.toNat 7 4
/-- PACK code. -/
def winPack (d : BitVec 256) : Nat := bits d.toNat 3 1

/-- The kept values N of a packing code (12/R289, 04 Table 4.3). -/
def packN : Nat → Nat
  | 1 => 3
  | 2 => 4
  | 3 => 6
  | 4 => 8
  | _ => 0

/-- Bits b of one stored mask code (04/R83). -/
def packB : Nat → Nat
  | 1 => 8
  | 2 => 9
  | 3 => 10
  | 4 => 9
  | _ => 0

/-- Bytes of the auxiliary region (04/R82). -/
def winAuxLen (d : BitVec 256) : Nat :=
  let granules := bits d.toNat 95 64
  if winPack d = 0 then (if winFmt d = 13 then granules * 4096 else 0) else granules * 4096 * packB (winPack d)

/-- The enabled window whose view holds a device-memory address (04/R80). -/
def windowAt (s : State) (pa : Nat) : Option (BitVec 256) :=
  (s.die (dieOf pa)).windows.findSome? fun e =>
    if winEn e.2 ∧ winBase e.2 ≤ pa ∧ pa < winBase e.2 + winLen e.2 then some e.2 else none

/-- The address lies in the view of a packed window. -/
def inPacked (s : State) (pa : Nat) : Bool :=
  match windowAt s pa with
  | some d => winPack d ≠ 0
  | none => false

/-- The binomial coefficient C(n, i). -/
def binom : Nat → Nat → Nat
  | _, 0 => 1
  | 0, _ + 1 => 0
  | n + 1, k + 1 => binom n k + binom n (k + 1)

/-- The largest c below the bound with C(c, i) ≤ v (04/R83). -/
def largestPos (i v : Nat) : Nat → Nat
  | 0 => 0
  | c + 1 => if binom c i ≤ v then c else largestPos i v c

/-- The loop of 04/R83 that peels a code into positions, i from N down to 1. -/
def peelCode : Nat → Nat → Nat
  | 0, _ => 0
  | i + 1, v =>
    let c := largestPos (i + 1) v 12
    2 ^ c ||| peelCode i (v - binom c (i + 1))

/-- The mask of a code, 0 for an invalid one (04/R83). -/
def decodeMask (n v : Nat) : Nat := if binom 12 n ≤ v then 0 else peelCode n v

/-- The stored code of group g of a packed window (04/R82, R83). -/
def groupCode (s : State) (d : BitVec 256) (g : Nat) : Nat :=
  let b := packB (winPack d)
  (memLe s.mem (winAux d + g * b / 8) 3 / 2 ^ (g * b % 8)) % 2 ^ b

/-- One byte decoded afresh: a packed view's masks, or stored bytes (04/R82). -/
def freshByte (s : State) (pa : Nat) : Byte :=
  match windowAt s pa with
  | some d =>
    if winPack d = 0 then memGet s.mem pa
    else
      let y := pa - winBase d
      BitVec.ofNat 8 (decodeMask (packN (winPack d)) (groupCode s d (y / 2)) / 2 ^ (8 * (y % 2)))
  | none => memGet s.mem pa

/-- One byte as a reader outside every draft window sees it: a pinned decoded line keeps its contents (04/R85). -/
def viewByte (s : State) (pa : Nat) : Byte :=
  match tabFind (s.die (dieOf pa)).decoded (pa / 64) with
  | some l => l.getD (pa % 64) 0
  | none => freshByte s pa

/-- n bytes as such a reader sees them. -/
def viewBytes (s : State) (pa n : Nat) : List Byte := (List.range n).map fun i => viewByte s (pa + i)

/-! ## Errors in lines (17/R403) -/

/-- The lines of n bytes. -/
def linesAt (pa n : Nat) : List Nat :=
  if n = 0 then [] else (List.range ((pa + n - 1) / 64 + 1 - pa / 64)).map (pa / 64 + ·)

/-- The lines of a window's auxiliary region that hold the codes, or the scales, of a line of its view (04/R82, R83). -/
def auxLines (d : BitVec 256) (line : Nat) : List Nat :=
  let y := 64 * line - winBase d
  if winPack d = 0 then (if winFmt d = 13 then linesAt (winAux d + y / 16) 4 else [])
  else linesAt (winAux d + y / 64 * (4 * packB (winPack d))) (4 * packB (winPack d))

/-- A line of a view takes its codes or scales from a line that holds an uncorrectable error: from memory now, or, where it is
kept decoded, as it was decoded (17/R403, 04/R85). -/
def auxBad (s : State) (d : BitVec 256) (line : Nat) : Bool :=
  let k := s.die (dieOf (64 * line))
  if (tabFind k.decoded line).isSome then k.badDec.contains line
  else (auxLines d line).any fun l => s.rel.badLines.contains l

/-- A line holds an uncorrectable error for whoever reads its bytes: its own, or, in a packed view, one of a line that its codes
come from (17/R403). -/
def lineBad (s : State) (line : Nat) : Bool :=
  s.rel.badLines.contains line ||
  match windowAt s (64 * line) with
  | some d => winPack d ≠ 0 && auxBad s d line
  | none => false

/-! ## The L2 (05/R101-R103) -/

/-- The L2 set of a line, by slice and set (05/R101). -/
def setOfLine (line : Nat) : Nat :=
  let x := 64 * line
  (2 * clusterOf x + bits x 6 6) * 4096 + bits x 23 21 * 512 + bits x 15 7

/-- Ways of a set: 16, less those retired (05/R101, 17 Table 17.5). -/
def waysOf (s : State) (set : Nat) : Nat :=
  16 - (s.rel.retired.filter fun u => match u with
    | .l2Way slice n _ => slice * 4096 + n = set
    | _ => false).length

/-- A line is pinned (05/R104). -/
def isPinned (d : Die) (line : Nat) : Bool := tabGet d.pins line 0 ≠ 0

/-- Invalid codes met when a port decodes one 64-byte line (04/R83). -/
def invalidInLine (s : State) (line : Nat) : Nat :=
  match windowAt s (64 * line) with
  | some d =>
    if winPack d = 0 then 0
    else
      let g0 := (64 * line - winBase d) / 2
      ((List.range 32).filter fun i => binom 12 (packN (winPack d)) ≤ groupCode s d (g0 + i)).length
  | none => 0

/-- Add to a counter that stops at 2^32 - 1 (17/R405). -/
def satCount (c : W32) (n : Nat) : W32 := BitVec.ofNat 32 (Nat.min (c.toNat + n) 0xFFFFFFFF)

/-- Count invalid codes on a die (04/R83, 17/R405). -/
def countInvalid (s : State) (die n : Nat) : State :=
  if n = 0 then s else { s with regs := { s.regs with invcode := tabUpd s.regs.invcode die 0 (satCount · n) } }

/-- Room for one more line in a full set: the least recently used line that is not pinned leaves (05/R103). -/
def makeRoom (d : Die) (ways : Nat) (ls : List Nat) : List Nat :=
  if ls.length < ways then ls
  else
    match ls.find? fun l => !isPinned d l with
    | some v => ls.erase v
    | none => ls

/-- An access to a line at its home slice (05/R102, R103): a hit makes it most recently used; a miss allocates it, and
its port decodes it, counting the invalid codes it meets (04/R83, DEDUCED, log 22). -/
def touchLine (s : State) (line : Nat) : State :=
  let die := dieOf (64 * line)
  let set := setOfLine line
  let ls := tabGet (s.die die).l2 set []
  if ls.contains line then s.updDie die fun d => { d with l2 := tabPut d.l2 set (ls.erase line ++ [line]) }
  else
    let ways := waysOf s set
    (countInvalid s die (invalidInLine s line)).updDie die fun d =>
      { d with l2 := tabPut d.l2 set (makeRoom d ways ls ++ [line]) }

/-- An access to n bytes of device memory. -/
def touch (s : State) (pa n : Nat) : State := (linesAt pa n).foldl touchLine s

/-- Lines leave the L2, but for those that are pinned (04/R85, R87). -/
def invalidate (s : State) (ls : List Nat) : State :=
  ls.foldl (fun s l => s.updDie (dieOf (64 * l)) fun d =>
    if isPinned d l then d else { d with l2 := tabUpd d.l2 (setOfLine l) [] (·.erase l) }) s

/-- The lines of a window's view whose decode covers n bytes at pa of its auxiliary region (04/R82, R85). -/
def linesDecodedFrom (d : BitVec 256) (pa n : Nat) : List Nat :=
  let aux := winAux d
  let lo := Nat.max pa aux
  let hi := Nat.min (pa + n) (aux + winAuxLen d)
  if hi ≤ lo then []
  else
    let per := if winPack d = 0 then 32 else 32 * packB (winPack d)
    let first := 8 * (lo - aux) / per
    let last := (8 * (hi - aux) - 1) / per
    (List.range (last + 1 - first)).map fun i => winBase d / 64 + first + i

/-- A store to n bytes invalidates every decoded line that they cover (04/R85). -/
def invalidateFor (s : State) (pa n : Nat) : State :=
  let wins := (s.dies.map fun e => e.2.windows.filterMap fun w => if winEn w.2 then some w.2 else none).flatten
  invalidate s (wins.map fun d => linesDecodedFrom d pa n).flatten

/-- What a store leaves of the 64 bytes that a pinned line keeps (05/R107: it is performed in the line). -/
def patchLine (line pa : Nat) (data : List (Byte × Bool)) (l : List Byte) : List Byte :=
  l.zipIdx.map fun x =>
    if x.2 < 64 ∧ pa ≤ 64 * line + x.2 then
      match data[64 * line + x.2 - pa]? with
      | some (b, true) => b
      | _ => x.1
    else x.1

/-- A store reaches the pinned lines of its die that keep contents. -/
def patchKept (s : State) (pa : Nat) (data : List (Byte × Bool)) : State :=
  if (s.die (dieOf pa)).decoded.isEmpty then s
  else s.updDie (dieOf pa) fun d => { d with decoded := d.decoded.map fun e => (e.1, patchLine e.1 pa data e.2) }

/-- Write masked bytes of device memory at their home slices. -/
def putMasked (s : State) (pa : Nat) (data : List (Byte × Bool)) : State :=
  touch (invalidateFor (patchKept { s with mem := memWriteMask s.mem pa data } pa data) pa data.length) pa data.length

/-- Write bytes of device memory at their home slices. -/
def putBytes (s : State) (pa : Nat) (b : List Byte) : State :=
  touch (invalidateFor (patchKept { s with mem := memWrite s.mem pa b } pa (b.map fun x => (x, true))) pa b.length)
    pa b.length

/-! ## Draft-window shadows -/

/-- A window of the launch that has not retired, with its index. -/
def liveWindows (s : State) (l : LaunchRef) : List (Nat × Window) :=
  s.wins.filterMap fun e =>
    match e.2.live with
    | some w => if w.launch = l ∧ (w.st = .opened ∨ w.st = .closing) then some (e.1, w) else none
    | none => none

/-- A piece holds a byte. -/
def pieceHas (p : Piece) (pa : Nat) : Bool := p.any fun r => decide (r.1 ≤ pa) && decide (pa < r.1 + r.2)

/-- The piece of a list that holds a byte. -/
def pieceWith (l : List (List Piece)) (pa : Nat) : Option Piece := l.flatten.find? fun p => pieceHas p pa

/-- Where a byte lies within a piece that holds it. -/
def pieceOff : Piece → Nat → Nat
  | [], _ => 0
  | (a, n) :: r, pa => if a ≤ pa ∧ pa < a + n then pa - a else n + pieceOff r pa

/-- The live shadow granule that a window holds for a piece. -/
def Window.shadow (w : Window) (p : Piece) : Option Granule := w.grans.find? fun x => x.pc = p ∧ x.snap = 0

/-- The window of greatest number in a list. -/
def newestOf : List (Nat × Window) → Option (Nat × Window)
  | [] => none
  | x :: r =>
    match newestOf r with
    | none => some x
    | some y => if y.2.ord < x.2.ord then some x else some y

/-- The windows of a sequence that have not retired, whichever launch opened them. -/
def windowsOf (s : State) (seq : Nat) : List (Nat × Window) :=
  s.wins.filterMap fun e =>
    match e.2.live with
    | some w => if w.seq = seq ∧ (w.st = .opened ∨ w.st = .closing) then some (e.1, w) else none
    | none => none

/-- What covers a byte for a launch (13/R322): the piece, and the windows whose shadows may hold it: the row's owner, or for
a state region every window of the sequence. -/
def coverOf (s : State) (l : LaunchRef) (pa : Nat) : Option (Piece × List (Nat × Window)) :=
  let own := (liveWindows s l).findSome? fun e => (pieceWith e.2.rows pa).map fun p => (p, [e])
  own.or ((liveWindows s l).findSome? fun e => (pieceWith e.2.regions pa).map fun p => (p, windowsOf s e.2.seq))

/-- Where a byte stands for a launch in a shadow: in the newest one in which it has been written (13/R322). -/
def shadowAt (s : State) (l : LaunchRef) (pa : Nat) : Option Nat :=
  match coverOf s l pa with
  | none => none
  | some (p, ws) =>
    let o := pieceOff p pa
    let holds := ws.filter fun e => (e.2.shadow p).any fun x => x.wr.getLsbD o
    ((newestOf holds).bind fun e => e.2.shadow p).map fun x => x.slot + o

/-- One byte as a window's agent sees it: the newest shadow in which it has been written, else memory (13/R322). -/
def draftByte (s : State) (l : LaunchRef) (pa : Nat) : Byte :=
  match shadowAt s l pa with
  | some a => memGet s.mem a
  | none => viewByte s pa

/-- n bytes of device memory as an agent reads them. -/
def agentBytes (s : State) (ag : Agent) (pa n : Nat) : List Byte :=
  match ag.launch with
  | none => viewBytes s pa n
  | some l => if (liveWindows s l).isEmpty then viewBytes s pa n else (List.range n).map fun i => draftByte s l (pa + i)

/-- The lines that n bytes, as an agent reads them, come from: memory's, or those of the shadows in which they have been written
(05/R101-R103, 13/R322). -/
def agentLines (s : State) (ag : Agent) (pa n : Nat) : List Nat :=
  match ag.launch with
  | none => linesAt pa n
  | some l =>
    if (liveWindows s l).isEmpty then linesAt pa n
    else ((List.range n).map fun i => (shadowAt s l (pa + i)).getD (pa + i) / 64).eraseDups

/-- An agent's read of n bytes of device memory reaches the lines that they come from. -/
def touchAgent (s : State) (ag : Agent) (pa n : Nat) : State := (agentLines s ag pa n).foldl touchLine s

/-- A byte as a window's agent sees it comes from a line that holds an uncorrectable error: the shadow's, or memory's
(17/R403). -/
def draftBad (s : State) (l : LaunchRef) (pa : Nat) : Bool :=
  match shadowAt s l pa with
  | some a => s.rel.badLines.contains (a / 64)
  | none => lineBad s (pa / 64)

/-- One of n bytes within a line, as an agent reads them, comes from a line that holds an uncorrectable error (17/R403). -/
def agentBad (s : State) (ag : Agent) (pa n : Nat) : Bool :=
  match ag.launch with
  | none => lineBad s (pa / 64)
  | some l =>
    if (liveWindows s l).isEmpty then lineBad s (pa / 64)
    else (List.range n).any fun i => draftBad s l (pa + i)

/-- Physical addresses of every shadow granule in use. -/
def usedGranules (s : State) : List Nat :=
  (s.wins.filterMap fun e => e.2.live.map fun w => w.grans.map (·.slot)).foldr (· ++ ·) []

/-- First byte of the shadow area (13 Table 13.7). -/
def shadowBase (s : State) : Nat := bits s.regs.dwshad.toNat 47 16 * 65536

/-- Granules of the shadow area. -/
def shadowCount (s : State) : Nat := bits s.regs.dwshad.toNat 15 0 * 256

/-- The n free granules of the shadow area (13/R323) that a write or a snapshot takes: those of lowest address, for the rule does
not say which (DESIGN CHOICE, log 82). The area is device memory that can be reached (06/R141); the list is shorter when too few
are free. -/
def freeGranules (s : State) (n : Nat) : List Nat :=
  let used := usedGranules s
  let all := (List.range (Nat.min (shadowCount s) (used.length + n))).map fun i => shadowBase s + 256 * i
  (all.filter fun a => !used.contains a && regionOf a = .dev).take n

/-- Change a window. -/
def State.updWindow (s : State) (i : Nat) (f : Window → Window) : State :=
  { s with wins := tabUpd s.wins i {} fun x => { x with live := x.live.map f } }

/-- The bit mask of the bytes that a masked write at byte i0 changes. -/
def writeBits (i0 : Nat) : List (Byte × Bool) → Nat
  | [] => 0
  | (_, w) :: r => (if w then 2 ^ i0 else 0) + writeBits (i0 + 1) r

/-- Write into a window's shadow of a piece, from byte o of it on, taking a granule at the first write (13/R323); `ea` is
the virtual address. -/
def shadowWrite (s : State) (i : Nat) (w : Window) (p : Piece) (o : Nat) (data : List (Byte × Bool)) (ea : Word) :
    Except Exn State :=
  let m := BitVec.ofNat 256 (writeBits o data)
  match w.shadow p with
  | some x =>
    .ok ((putMasked s (x.slot + o) data).updWindow i fun w => { w with grans := w.grans.map fun y =>
      if y.pc = p ∧ y.snap = 0 then { y with wr := y.wr ||| m } else y })
  | none =>
    match freeGranules s 1 with
    | slot :: _ =>
      .ok ((putMasked s (slot + o) data).updWindow i fun w => { w with grans := w.grans ++ [⟨p, slot, 0, m⟩] })
    | [] => exn cDraft 5 (some ea)

/-! ## Scratch frames -/

/-- The physical address of byte j of a cluster's scratch area (06/R140). -/
def areaAddr (c j : Nat) : Nat := ((9420800 + 32 * (j / 65536) + c) * 65536) + j % 65536

/-- The scratch translation entry of a page, 2,048 × space + page (06/R140, R142). -/
def sttEntry (s : State) (c k : Nat) : Nat := memLe s.mem (areaAddr c (8 * k)) 8

/-- Write a scratch translation entry. -/
def setEntry (s : State) (c k v : Nat) : State := putBytes s (areaAddr c (8 * k)) (natLe 8 v)

/-- ST of an entry (06 Table 6.1). -/
def eSt (e : Nat) : Nat := bits e 31 30
/-- PROT of an entry. -/
def eProt (e : Nat) : Nat := bits e 29 28
/-- FRAME of an entry. -/
def eFrame (e : Nat) : Nat := bits e 25 13
/-- SLOT of an entry. -/
def eSlot (e : Nat) : Nat := bits e 47 35
/-- ASID of an entry. -/
def eAsid (e : Nat) : Nat := bits e 63 50

/-- Build an entry (06 Table 6.1). -/
def mkEntry (asid slot st prot frame : Nat) : Nat :=
  asid * 2 ^ 50 + slot * 2 ^ 35 + st * 2 ^ 30 + prot * 2 ^ 28 + frame * 2 ^ 13

/-- Where a byte of a frame is held in `sram`. -/
def frameAddr (c f o : Nat) : Nat := 2 ^ 24 * c + 2048 * f + o

/-- The physical address of a backing slot (06/R140). -/
def slotAddr (c n : Nat) : Nat := areaAddr c (2 ^ 24 + 2048 * n)

/-- Bytes of a frame. -/
def frameBytes (s : State) (c f o n : Nat) : List Byte := memBytes s.sram (frameAddr c f o) n

/-- The sub-banks that an access to n bytes at an address of `sram` needs (11/R276): bits 5:2 of each byte's place in the bank
of its memory unit, 16 frames (06/R137). -/
def banksOf (a n : Nat) : List Nat :=
  let bank := 512 * (a / 2 ^ 24) + a % 2 ^ 24 / 2048 / 16
  ((List.range (Nat.min 16 ((a % 4 + n + 3) / 4))).map fun i => 16 * bank + (a / 4 + i) % 16).eraseDups

/-- An access is performed at its sub-banks. -/
def useBanks (s : State) (a n : Nat) : State := { s with busy := s.busy ++ banksOf a n }

/-- The reading of a page's translation entry is an access to the entry's line (06/R142, 05/R102; DEDUCED, log 18). -/
def touchEntry (s : State) (c k : Nat) : State := touch s (areaAddr c (8 * k)) 8

/-- Mark a page most recently used (06/R147), its entry read. A page that is mapped, and a carve-out page as its launch starts,
count as used then, and a relocation leaves a page's place, which the rule does not say (DESIGN CHOICE, log 79). -/
def touchPage (s : State) (c k : Nat) : State :=
  (touchEntry s c k).updCluster c fun x => { x with lru := x.lru.filter (· ≠ k) ++ [k] }

/-- Ask the page engine for a page on behalf of a core (06/R144, R147), its entry read. Where several cores ask for one page, the
first stays the core that asked (DESIGN CHOICE, log 79). -/
def wantPage (s : State) (c k core : Nat) : State :=
  (touchEntry s c k).updCluster c fun x => { x with wants := if (tabFind x.wants k).isSome then x.wants else tabPut x.wants k core }

/-- How a scratch access to a page resolves (06/R144): the frame, a stall (asking for a paged page), or the fault,
whose `EADDR` the caller gives. -/
inductive Resolved where
  | frame (f : Nat)
  | paged
  | moving
  | fault (sub : Nat)
  deriving DecidableEq, Repr

/-- Resolve a page for an ASID (06/R144). -/
def resolvePage (s : State) (c k : Nat) (asid : BitVec 14) (write : Bool) : Resolved :=
  let e := sttEntry s c k
  if eSt e = 0 then .fault 0
  else if eAsid e ≠ asid.toNat then .fault 1
  else if write ∧ eProt e = 1 then .fault 2
  else if eSt e = 1 then .frame (eFrame e)
  else if eSt e = 2 then .paged
  else .moving

end Sys2Proof.Machine
end

