-- ==== Sys2Proof/Machine/Translate.lean ====
section
/-! DEFINITION. Region handles' check (04/R94), the page-table walk (04/R88-R91), translation caches (04/R92, R96) and
the scratch aperture (06/R139). -/

namespace Sys2Proof.Machine

/-! Rights masks (04/R93). -/

/-- R. -/
def rR : BitVec 5 := 1
/-- W. -/
def rW : BitVec 5 := 2
/-- R and W. -/
def rRW : BitVec 5 := 3
/-- R, W and A. -/
def rRWA : BitVec 5 := 7
/-- X. -/
def rX : BitVec 5 := 8
/-- R and X. -/
def rRX : BitVec 5 := 9
/-- W and X. -/
def rWX : BitVec 5 := 10

/-- The virtual address that an offset within a handle names, for `EADDR` (DEDUCED, log 23). -/
def vaOf (h : Handle) (off : Int) : Word := BitVec.ofInt 64 ((h.base.toNat : Int) + off)

/-- The check of every use of a handle (04/R94): the first failing test decides. -/
def checkHandle (h : Handle) (off : Int) (size : Nat) (need : BitVec 5) (asid : BitVec 14) : Except Exn Nat :=
  if h.v = false then exn cHandle 0 (some (vaOf h off))
  else if h.asid ≠ asid then exn cHandle 1 (some (vaOf h off))
  else if h.rights &&& need ≠ need then exn cHandle 2 (some (vaOf h off))
  else if off < 0 ∨ (h.len.toNat : Int) < off + size then exn cHandle 3 (some (vaOf h off))
  else .ok (h.base.toNat + off.toNat)

/-- What an access does, for the leaf's R and W bits (04/R90). -/
inductive Need where
  | load | store | atomic
  deriving DecidableEq, Repr

/-- Where a virtual address leads: local device memory, the host window (offset), the device registers (offset),
another member, or a scratch page and offset (04/R77, R98, 06/R139). -/
inductive Target where
  | dev (pa : Nat)
  | host (x : Nat)
  | regs (off : Nat)
  | peer (m pa : Nat)
  | scratch (k off : Nat)
  deriving DecidableEq, Repr

/-- This member's number, `PODID`.MEMBER (18 Table 18.3). -/
def State.member (s : State) : Nat := bits s.regs.podid.toNat 9 0

/-- A level of the table: its index bits, and log2 of the alignment of the table below it (04 Table 4.4). -/
def tableLevels : List (Nat × Nat × Nat) := [(55, 35, 8), (34, 30, 12), (29, 21, 8), (20, 16, 16)]

/-- Read a doubleword of a translation structure; one outside device memory lies in a hole (04/R77).
(DESIGN CHOICE, log 37.) -/
def readEntry (s : State) (pa : Nat) (va : Word) : Except Exn Nat :=
  if devEnd ≤ pa then exn cTrans 4 (some va)
  else if lineBad s (pa / 64) then exn cData 0 (some va)
  else .ok (leNat (viewBytes s pa 8))

/-- A table entry that breaks 04/R90's *malformed* tests, apart from a leaf's MT: a leaf in a hole is a hole whatever its
MT, so its region is looked at first. (DEDUCED, log 38.) -/
def malformedEntry (own lo align : Nat) (e : Nat) : Bool :=
  bits e 63 58 ≠ 0 || bits e 5 4 ≠ 0 || (bits e 7 6 = 3 && !bit e 1) || (lo = 16 && !bit e 1) ||
  (if bit e 1 then bits e 47 8 * 256 % 2 ^ lo ≠ 0
   else bits e 47 8 * 256 % 2 ^ align ≠ 0 || bits e 57 48 ≠ own)

/-- Walk the table from a level on (04/R88-R90), answering the leaf. (DESIGN CHOICE, log 37.) (DEDUCED, log 38.) -/
def walkFrom (s : State) (asid : BitVec 14) (va : Nat) : List (Nat × Nat × Nat) → Nat → Except Exn TlbEntry
  | [], _ => exn cTrans 1 (some (BitVec.ofNat 64 va))
  | (hi, lo, align) :: rest, table =>
    match readEntry s (table + 8 * bits va hi lo) (BitVec.ofNat 64 va) with
    | .error e => .error e
    | .ok e =>
      if !bit e 0 then exn cTrans 0 (some (BitVec.ofNat 64 va))
      else if malformedEntry s.member lo align e then exn cTrans 1 (some (BitVec.ofNat 64 va))
      else if bit e 1 then
        .ok ⟨asid, va / 2 ^ lo * 2 ^ lo, lo, bits e 57 48, bits e 47 8 * 256, bits e 7 6, bit e 2, bit e 3⟩
      else walkFrom s asid va rest (bits e 47 8 * 256)

/-- Walk for an ASID (04/R91). -/
def walk (s : State) (asid : BitVec 14) (va : Nat) : Except Exn TlbEntry :=
  match readEntry s (bits s.regs.asidt.toNat 47 17 * 2 ^ 17 + 8 * asid.toNat) (BitVec.ofNat 64 va) with
  | .error e => .error e
  | .ok t =>
    if !bit t 0 then exn cTrans 3 (some (BitVec.ofNat 64 va))
    else if bits t 23 1 ≠ 0 ∨ bits t 63 48 ≠ 0 then exn cTrans 1 (some (BitVec.ofNat 64 va))
    else walkFrom s asid va tableLevels (bits t 47 24 * 2 ^ 24)

/-- A cached entry maps the address (04/R92). -/
def TlbEntry.hits (e : TlbEntry) (asid : BitVec 14) (va : Nat) : Bool :=
  e.asid = asid && e.vbase = va / 2 ^ e.bits * 2 ^ e.bits

/-- The leaf in force for an address: one of given entries (of a stream, or an edge TLB) or a cached entry, else a walk (04/R91,
R92, R96, DESIGN CHOICE, log 4). -/
def leafFor (s : State) (extra : List TlbEntry) (asid : BitVec 14) (va : Nat) : Except Exn TlbEntry :=
  if !bit s.regs.asidt.toNat 0 then exn cTrans 3 (some (BitVec.ofNat 64 va))
  else
    match (extra ++ s.tlb).find? fun e => e.hits asid va with
    | some e => .ok e
    | none => walk s asid va

/-- A virtual address of the scratch aperture (06/R139). -/
def isScratch (va : Nat) : Bool := bits va 55 32 = 0xFFFFFF

/-- The entries that a walk reads from a level on (04/R88-R90). -/
def walkEntries (s : State) (va : Nat) : List (Nat × Nat × Nat) → Nat → List Nat
  | [], _ => []
  | (hi, lo, align) :: rest, table =>
    let pa := table + 8 * bits va hi lo
    match readEntry s pa 0 with
    | .error _ => []
    | .ok e =>
      if !bit e 0 || malformedEntry s.member lo align e || bit e 1 then [pa]
      else pa :: walkEntries s va rest (bits e 47 8 * 256)

/-- What a walk itself does to the L2 (05/R102, R103): each entry that it reads is an access to that entry's line. An
address that a cache maps needs no walk (04/R92, R96). -/
def noteWalk (s : State) (extra : List TlbEntry) (asid : BitVec 14) (va : Nat) : State :=
  if isScratch va ∨ (extra ++ s.tlb).any (fun e => e.hits asid va) then s
  else
    let first := bits s.regs.asidt.toNat 47 17 * 2 ^ 17 + 8 * asid.toNat
    match readEntry s first 0 with
    | .error _ => s
    | .ok t => (first :: walkEntries s va tableLevels (bits t 47 24 * 2 ^ 24)).foldl (fun s pa => touch s pa 8) s

/-- The target of an address under a leaf, with the tests of 04/R90: the region, the MT, then R and W. -/
def targetOf (s : State) (l : TlbEntry) (va : Nat) (need : Need) : Except Exn Target :=
  let pa := l.pbase + va % 2 ^ l.bits
  let e : Option Word := some (BitVec.ofNat 64 va)
  let permitted := match need with
    | .load => l.r
    | .store => l.w
    | .atomic => l.r && l.w
  match regionOf pa with
  | .hole => exn cTrans 4 e
  | .backing => exn cTrans 4 e
  | .dev =>
    if l.mt ≠ 0 then exn cTrans 1 e
    else if !permitted then exn cTrans 2 e
    else if l.member ≠ s.member then .ok (.peer l.member pa) else .ok (.dev pa)
  | .host =>
    if l.mt ≠ 1 then exn cTrans 1 e
    else if !permitted then exn cTrans 2 e
    else if l.member ≠ s.member then .ok (.peer l.member pa) else .ok (.host (pa - hostBase))
  | .regs =>
    if l.mt ≠ 2 then exn cTrans 1 e
    else if !permitted then exn cTrans 2 e
    else if l.member ≠ s.member then .ok (.peer l.member pa) else .ok (.regs (pa - regBase))

/-- Translate through the tables only (04/R88-R91). -/
def translateTable (s : State) (extra : List TlbEntry) (asid : BitVec 14) (va : Nat) (need : Need) :
    Except Exn Target :=
  match leafFor s extra asid va with
  | .error e => .error e
  | .ok l => targetOf s l va need

/-- Resolve a virtual address: the scratch aperture, or the tables (06/R139, 04/R88-R91). -/
def translate (s : State) (asid : BitVec 14) (va : Nat) (need : Need) : Except Exn Target :=
  if isScratch va then .ok (.scratch (bits va 31 11) (bits va 10 0)) else translateTable s [] asid va need

/-- The physical address in local device memory of a queue's TAIL, whether or not the queue is enabled (16/R370, R371). -/
def tailAddr (s : State) (q : Nat) : Option Nat :=
  match translate s (BitVec.ofNat 14 (bits (tabGet s.regs.lqctl q 0).toNat 62 49))
      (bits (tabGet s.regs.lqbase q 0).toNat 55 8 * 256) .load with
  | .ok (.dev pa) => some pa
  | _ => none

/-- The queues that have been placed: enabled, or with a base that has been written. (DEDUCED, log 62.) -/
def placedQueues (s : State) : List Nat :=
  (s.regs.lqctl.filter fun e => bit e.2.toNat 63).map (·.1) ++ s.regs.lqbase.map (·.1)

/-- Their TAIL doublewords. -/
def tailAddrs (s : State) : List Nat := (placedQueues s).filterMap (tailAddr s)

end Sys2Proof.Machine
end

