-- ==== Sys2Proof/Machine/Regs.lean ====
section
/-! DEFINITION. The event ring (18/R411), reading virtual memory piece by piece, and the device registers
(04 Table 4.10, 16 Table 16.3, 17 Table 17.6, 18 Table 18.3, 19 Table 19.2). -/

namespace Sys2Proof.Machine

/-- Post a record to the event ring, firing MSI-X vector 1 (18/R411, R412). (DESIGN CHOICE, log 30.) -/
def postEvent (s : State) (kind : EventKind) (cause addr who : Word) : State :=
  { s with mbox := { s.mbox with
      ring := tabPut s.mbox.ring (s.mbox.posted.toNat % 96) ⟨kind, cause, addr, who⟩
      posted := s.mbox.posted + 1
      msix1 := s.mbox.msix1 + 1 } }

/-- Post a record whose three words 18/R411 does not give: they are free values (DESIGN CHOICE, log 20). -/
def postFree (s : State) (kind : EventKind) : State :=
  { postEvent s kind (Config.freeWord s.free) (Config.freeWord (s.free + 1)) (Config.freeWord (s.free + 2)) with
    free := s.free + 3 }

/-- Cut n bytes from an address on into pieces that stay within 64-byte lines; `fuel` bounds their number. -/
def lines (va n : Nat) : Nat → List (Nat × Nat)
  | 0 => []
  | fuel + 1 =>
    if n = 0 then []
    else
      let k := Nat.min (64 - va % 64) n
      (va, k) :: lines (va + k) (n - k) fuel

/-- The pieces of n bytes. -/
def linesOf (va n : Nat) : List (Nat × Nat) := lines va n (n / 64 + 2)

/-- Read one piece of local device memory under an ASID, as a unit outside every draft window sees it; a target that is no
local device memory faults (16/R372, DEDUCED, log 24). -/
def readPiece (s : State) (asid : BitVec 14) (va n : Nat) : Except Exn (List Byte × State) :=
  match translate s asid va .load with
  | .error e => .error e
  | .ok (.dev pa) =>
    if lineBad s (pa / 64) then exn cData 0 (some (BitVec.ofNat 64 va))
    else .ok (viewBytes s pa n, touch (noteWalk s [] asid va) pa n)
  | .ok _ => exn cTrans 1 (some (BitVec.ofNat 64 va))

/-- Read local device memory under an ASID, piece by piece. -/
def readLocal (s : State) (asid : BitVec 14) (va n : Nat) : Except Exn (List Byte × State) :=
  foldE (fun r p => (readPiece r.2 asid p.1 p.2).map fun x => (r.1 ++ x.1, x.2)) ([], s) (linesOf va n)

/-- ASID of a launch queue (16 Table 16.3). (DEDUCED, log 62.) -/
def lqAsid (s : State) (q : Nat) : BitVec 14 := BitVec.ofNat 14 (bits (tabGet s.regs.lqctl q 0).toNat 62 49)
/-- Slots N of a launch queue. -/
def lqSlots (s : State) (q : Nat) : Nat := 2 ^ bits (tabGet s.regs.lqctl q 0).toNat 48 45
/-- The queue is enabled. -/
def lqEn (s : State) (q : Nat) : Bool := bit (tabGet s.regs.lqctl q 0).toNat 63
/-- Virtual address of a queue object. -/
def lqBase (s : State) (q : Nat) : Nat := bits (tabGet s.regs.lqbase q 0).toNat 55 8 * 256
/-- The dispatcher's side of a queue. -/
def State.lq (s : State) (q : Nat) : LQueue := tabGet s.lqs q {}
/-- Change it. -/
def State.updLq (s : State) (q : Nat) (f : LQueue → LQueue) : State := { s with lqs := tabUpd s.lqs q {} f }

/-- A failing read of a queue holds it and posts one *queue* record (16/R372). -/
def queueFault (s : State) (q : Nat) (e : Exn) : State :=
  if (s.lq q).posted then s
  else
    (postEvent s .queueHeld (BitVec.ofNat 64 (e.cause + 256 * e.sub)) (e.addr.getD 0) (BitVec.ofNat 64 q)).updLq q fun l =>
      { l with posted := true }

/-- Read a queue's header (16/R370). One whose reserved bytes 16-255 are not all 0 is rejected (00/R8): the read fails, and holds
the queue. Chapter 16 names no fault of a header: the record posted shows cause `0x14`, *object*, and the header's address (DESIGN
CHOICE, log 24). -/
def readHeader (s : State) (q : Nat) : Except Exn (List Byte × State) :=
  (readLocal s (lqAsid s q) (lqBase s q) 256).bind fun r =>
    if (r.1.drop 16).any (· ≠ 0) then exn cQueue 0 (some (BitVec.ofNat 64 (lqBase s q))) else .ok r

/-- The dispatcher takes HEAD and TAIL from the header of a queue that has been enabled (16/R370). -/
def openQueue (s : State) (q : Nat) : State :=
  match readHeader s q with
  | .error e => queueFault s q e
  | .ok (b, s) =>
    s.updLq q fun l => { l with
      opened := true, posted := false
      tail := BitVec.ofNat 64 (leNat (b.take 8)), head := BitVec.ofNat 64 (leNat ((b.drop 8).take 8)) }

/-- Write `TINV` (04/R92): a write with GO = 1 starts an invalidation; while GO reads 1 writes are discarded. -/
def writeTinv (s : State) (v : Word) : State :=
  if bit s.regs.tinv.toNat 63 then s
  else { s with regs := { s.regs with tinv := v &&& 0xFFFF01FFFFFFFFFF } }

/-- Write `LQCTL[q]` (16/R370). -/
def writeLqctl (s : State) (q : Nat) (v : Word) : State :=
  let was := lqEn s q
  let set := bit v.toNat 63
  if was ∧ set then s
  else
    let s := { s with regs := { s.regs with lqctl := tabPut s.regs.lqctl q (v &&& 0xFFFFF80000000000) } }
    if !was ∧ set then openQueue (s.updLq q fun _ => {}) q else s

/-- Write `LQBASE[q]` (16/R370). -/
def writeLqbase (s : State) (q : Nat) (v : Word) : State :=
  if lqEn s q then s
  else { s with regs := { s.regs with lqbase := tabPut s.regs.lqbase q (v &&& 0x00FFFFFFFFFFFF00) } }

/-- A weight of `SCHWT`: a written 0 reads back 1 (16 Table 16.3). -/
def fixWeight (w : Nat) : Nat := if w = 0 then 1 else w

/-- Write `SCHWT`. -/
def writeSchwt (s : State) (v : Word) : State :=
  let f := fun hi lo => fixWeight (bits v.toNat hi lo) * 2 ^ lo
  { s with regs := { s.regs with schwt := BitVec.ofNat 64 (f 23 16 + f 15 8 + f 7 0) } }

/-- STATE of a pod window entry (18 Table 18.3): 0 absent, 1 up, 2 fenced. -/
def podState (s : State) (m : Nat) : Nat := bits (tabGet s.regs.podwin m 0).toNat 1 0

/-- A member is up (04/R99). -/
def memberUp (s : State) (m : Nat) : Bool := podState s m = 1

/-- Set STATE of an entry, advancing EPOCH and posting a record (18/R414). -/
def setPodState (s : State) (m st : Nat) : State :=
  let e := tabGet s.regs.podwin m 0
  let v := BitVec.ofNat 64 ((bits e.toNat 63 32 + 1) % 2 ^ 32 * 2 ^ 32 + st)
  postFree { s with regs := { s.regs with podwin := tabPut s.regs.podwin m v } } .member

/-- A management write of `PODWIN[m]`: absent to up, and fenced to absent; every other is discarded (18/R414). -/
def writePodwin (s : State) (m : Nat) (v : Word) : State :=
  let st := bits v.toNat 1 0
  if podState s m = 0 ∧ st = 1 then setPodState s m 1
  else if podState s m = 2 ∧ st = 0 then setPodState s m 0
  else s

/-- Write `PODID`: the first write after module reset takes effect (18/R423). -/
def writePodid (s : State) (v : Word) : State :=
  if s.regs.podidSet then s
  else { s with regs := { s.regs with podid := v &&& 0x103FF, podidSet := true } }

/-- Clear an error counter (17/R405). -/
def clearCounter (s : State) (off : Nat) : State :=
  if 0x20000 ≤ off ∧ off < 0x20010 ∧ off % 8 = 0 then
    { s with regs := { s.regs with invcode := tabPut s.regs.invcode ((off - 0x20000) / 8) 0 } }
  else if 0x20100 ≤ off ∧ off < 0x21100 ∧ off % 8 = 0 then
    { s with regs := { s.regs with underrd := tabPut s.regs.underrd ((off - 0x20100) / 8) 0 } }
  else if off = 0x21100 then { s with regs := { s.regs with retired := 0 } }
  else s

/-- Write `THERM`: a 1 clears WARN (19 Table 19.2). -/
def writeTherm (s : State) (v : Word) : State :=
  if bit v.toNat 16 then { s with regs := { s.regs with therm := s.regs.therm &&& 0xFFFFFFFFFFFEFFFF } } else s

/-- Read a device register; any size or alignment but the register's own reads all ones (04/R100). -/
def readReg (s : State) (off size : Nat) : Nat :=
  let ones := 2 ^ (8 * size) - 1
  if 0x1000 ≤ off ∧ off < 0x1180 then (if size = 1 then affmap (off - 0x1000) else ones)
  else if size ≠ 8 ∨ off % 8 ≠ 0 then ones
  else if off = 0x0 then s.regs.asidt.toNat
  else if off = 0x8 then s.regs.tinv.toNat
  else if off = 0x10 then s.regs.dwshad.toNat
  else if 0x10000 ≤ off ∧ off < 0x10400 then
    let q := (off - 0x10000) / 16
    if off % 16 = 0 then (tabGet s.regs.lqctl q 0).toNat else (tabGet s.regs.lqbase q 0).toNat
  else if off = 0x10400 then s.regs.schwt.toNat
  else if off = 0x10408 then s.regs.q0res.toNat
  else if off = 0x10410 then s.regs.stealt.toNat
  else if 0x20000 ≤ off ∧ off < 0x20010 then (tabGet s.regs.invcode ((off - 0x20000) / 8) 0).toNat
  else if 0x20100 ≤ off ∧ off < 0x21100 then (tabGet s.regs.underrd ((off - 0x20100) / 8) 0).toNat
  else if off = 0x21100 then s.regs.retired.toNat
  else if 0x30000 ≤ off ∧ off < 0x32000 then (tabGet s.regs.podwin ((off - 0x30000) / 8) 0).toNat
  else if off = 0x32000 then s.regs.hostoff.toNat
  else if off = 0x32008 then s.regs.podid.toNat
  else if off = 0x40000 then s.regs.therm.toNat
  else ones

/-- Write a device register; any size or alignment but 8 bytes writes nothing, and reserved bits are discarded
(04/R100, 00/R8). -/
def writeReg (s : State) (off size : Nat) (v : Word) : State :=
  if size ≠ 8 ∨ off % 8 ≠ 0 then s
  else if off = 0x0 then { s with regs := { s.regs with asidt := v &&& 0x0000FFFFFFFE0001 } }
  else if off = 0x8 then writeTinv s v
  else if off = 0x10 then { s with regs := { s.regs with dwshad := v &&& 0x0000FFFFFFFFFFFF } }
  else if 0x10000 ≤ off ∧ off < 0x10400 then
    let q := (off - 0x10000) / 16
    if off % 16 = 0 then writeLqctl s q v else writeLqbase s q v
  else if off = 0x10400 then writeSchwt s v
  else if off = 0x10408 then { s with regs := { s.regs with q0res := v &&& 0xFFFFFF00 } }
  else if off = 0x10410 then { s with regs := { s.regs with stealt := v &&& 0xFFFF } }
  else if 0x20000 ≤ off ∧ off ≤ 0x21100 then clearCounter s off
  else if 0x30000 ≤ off ∧ off < 0x32000 then writePodwin s ((off - 0x30000) / 8) v
  else if off = 0x32000 then { s with regs := { s.regs with hostoff := v } }
  else if off = 0x32008 then writePodid s v
  else if off = 0x40000 then writeTherm s v
  else s

/-- Fields of `Q0RES` (16 Table 16.3), each at most its range. -/
def resIslands (s : State) : Nat := Nat.min 8 (bits s.regs.q0res.toNat 31 24)
/-- Cores reserved per cluster. -/
def resCores (s : State) : Nat := Nat.min 48 (bits s.regs.q0res.toNat 23 16)
/-- Fabric pages reserved per cluster. -/
def resPages (s : State) : Nat := Nat.min 192 (bits s.regs.q0res.toNat 15 8)

end Sys2Proof.Machine
end

