-- ==== Sys2Proof/Machine/Access.lean ====
section
/-! DEFINITION. One access at the place its address leads to: loads, stores and atomics on device memory, scratch, the
host window, other members and device registers (04/R77-R100, 06/R144, 13/R322, 16/R371, 18/R410-R415). Each is
performed whole, at once (DESIGN CHOICE, log 1); one to the host or to another member then waits for its completion. -/

namespace Sys2Proof.Machine

/-- What a read or an atomic yields: the bytes, an error found after issue (08/R193), what its completion waits for
(18/R410, R415), the bytes that an atomic at another member replaced (14/R340), and whether they came from a frame of the
asking core (08/R189). -/
structure Got where
  bytes  : List Byte
  err    : Option Nat
  wait   : Option Await
  undo   : List Host.Cell
  atCore : Bool
  st     : State
  deriving DecidableEq, Repr

/-- Bytes read at once. -/
def gotNow (b : List Byte) (s : State) : Got := ⟨b, none, none, [], false, s⟩

/-- A read that fails, its error found after issue. -/
def gotErr (c : Nat) (s : State) : Got := ⟨[], some c, none, [], false, s⟩

/-- What a write yields: an error found after issue, what its completion waits for, and the bytes replaced. -/
structure Done where
  err   : Option Nat
  wait  : Option Await
  undo  : List Host.Cell
  st    : State
  deriving DecidableEq, Repr

/-- A write performed at once. -/
def doneNow (s : State) : Done := ⟨none, none, [], s⟩

/-- Where the host's memory is held in `outside` (18/R410, DESIGN CHOICE, log 7). -/
def hostAddr (s : State) (x : Nat) : Nat := 2 ^ 60 + (s.regs.hostoff.toNat + x) % 2 ^ 64

/-- Where another member's memory is held in `outside` (04/R98, DESIGN CHOICE, log 7). -/
def peerAddr (m pa : Nat) : Nat := m * 2 ^ 48 + pa

/-- The line of a device-memory address holds an uncorrectable error for a unit outside every draft window (17/R403). (DESIGN
CHOICE, log 19.) -/
def badLine (s : State) (pa : Nat) : Bool := lineBad s (pa / 64)

/-- n bytes of a scratch bank touch 64 bytes that hold an uncorrectable error (17/R403). -/
def badBank (s : State) (a n : Nat) : Bool := (linesAt a n).any fun l => s.rel.badSram.contains l

/-- Ports that are up (18/R413). -/
def upPorts (s : State) : List Nat := (List.range 24).filter fun p => !s.ports.contains p

/-- The port on which a wait's request is outstanding. -/
def waitPort : Option Await → Option Nat
  | some (.peer _ _ p) => some p
  | _ => none

/-- The port on which a held access's request is outstanding. -/
def heldPort (h : Held) : Option Nat :=
  match h.st with
  | .atPeer _ _ p _ => some p
  | _ => none

/-- Every producer of every thread. -/
def allProducers (s : State) : List Producer := ((s.threads ++ s.saved).map fun e => e.2.prods).flatten

/-- Every held access of every memory node. -/
def allHeld (s : State) : List Held :=
  (s.clusters.map fun c => (c.2.casts.map fun e =>
    match e.2.live with
    | some k => (k.nodes.map fun x => x.2.held).flatten
    | none => []).flatten).flatten

/-- A port that has gone down still has requests outstanding: the hash counts it until they have ended (18/R413). -/
def draining (s : State) (p : Nat) : Bool :=
  s.ports.contains p && ((allProducers s).any (fun x => waitPort x.wait = some p) ||
    (allHeld s).any (fun h => heldPort h = some p) || s.treeOut.any fun x => x.port = some p)

/-- The ports that the hash picks from. -/
def hashPorts (s : State) : List Nat := (List.range 24).filter fun p => !s.ports.contains p || draining s p

/-- The port that a hash picks. -/
def portBy (s : State) (hash : Nat) : Option Nat := (hashPorts s)[hash % (hashPorts s).length]?

/-- The port through which requests to a member's local address leave (18/R413). -/
def portFor (s : State) (m y : Nat) : Option Nat := portBy s (Config.requestPort m (bits y 47 8))

/-- A request to a member must wait: the port that it would leave by is down, and requests are outstanding there (18/R413; DESIGN
CHOICE, log 60). -/
def portWaits (s : State) (m pa : Nat) : Bool := (portFor s m pa).any fun p => s.ports.contains p

/-- A request to a member reaches it: some port is up. One that does not gets no response (18/R414). -/
def sends (s : State) (m pa : Nat) : Bool := (portFor s m pa).isSome

/-- What a request to a member made now waits for. -/
def peerWait (s : State) (m pa : Nat) : Await := .peer m s.cycle ((portFor s m pa).getD 24)

/-- Registers of another member need privilege as this member's do, and without it the fault is that of 08/R200 step 4, which
17/R395 refers to, and not cause 0x02 (DEDUCED, log 73). -/
def peerGuard (ag : Agent) (pa : Nat) : Bool := !ag.priv && regionOf pa = .regs

/-- The cells that n bytes of `outside` hold. -/
def cellsAt (m : Memory) (a n : Nat) : List Host.Cell := (List.range n).map fun i => (a + i, memGet m (a + i))

/-- Scratch resolution for an access: the frame, a wait, or the fault. -/
def resolveFor (s : State) (ag : Agent) (k : Nat) (write : Bool) (ea : Word) : Except Exc Nat :=
  match resolvePage s ag.cl k ag.asid write with
  | .frame f => .ok f
  | .paged => .error (.stall (some (wantPage s ag.cl k ag.core)))
  | .moving => .error (.stall none)
  | .fault sub => trapWith cScratch sub (some ea)

/-- Read n bytes, within one line, page or register. Also a load from a page resident at the issuing core ends as a late
producer, its register left empty, when it meets an uncorrectable error, though 08/R201 lets such a load complete before the
next instruction (DESIGN CHOICE, log 19). -/
def accRead (s : State) (ag : Agent) (t : Target) (n : Nat) (ea : Word) : Except Exc Got :=
  match t with
  | .dev pa =>
    if agentBad s ag pa n then .ok (gotErr cData s) else .ok (gotNow (agentBytes s ag pa n) (touchAgent s ag pa n))
  | .host x => .ok ⟨memBytes s.outside (hostAddr s x) n, none, some .host, [], false, s⟩
  | .peer m pa =>
    if peerGuard ag pa then trapWith cTrans 2 (some ea)
    else if !memberUp s m then .ok (gotErr cPeer s)
    else if portWaits s m pa then stallNow
    else if !sends s m pa then .ok ⟨[], some cPeer, some (peerWait s m pa), [], false, s⟩
    else .ok ⟨memBytes s.outside (peerAddr m pa) n, none, some (peerWait s m pa), [], false, s⟩
  | .regs off => if ag.priv then .ok (gotNow (natLe n (readReg s off n)) s) else trapWith cTrans 2 (some ea)
  | .scratch k o =>
    match resolveFor s ag k false ea with
    | .error e => .error e
    | .ok f =>
      let s' := useBanks (touchPage s ag.cl k) (frameAddr ag.cl f o) n
      if badBank s (frameAddr ag.cl f o) n then .ok (gotErr cData s')
      else .ok { gotNow (frameBytes s ag.cl f o n) s' with atCore := f / 128 = ag.core }

/-- Mask out the bytes that lie in a TAIL doubleword (16/R371). -/
def maskTails (tails : List Nat) (pa : Nat) : List (Byte × Bool) → List (Byte × Bool)
  | [] => []
  | (b, w) :: r => (b, w && !tails.any (fun t => t ≤ pa && pa < t + 8)) :: maskTails tails (pa + 1) r

/-- Write bytes of device memory by no `st.d` and no `amo.maxu`: what would change a TAIL is discarded (16/R371). -/
def putPlain (s : State) (pa : Nat) (b : List Byte) : State :=
  putMasked s pa (maskTails (tailAddrs s) pa (b.map fun x => (x, true)))

/-- A TAIL takes an unsigned maximum (16/R371). -/
def raiseTail (s : State) (pa v : Nat) : State := putBytes s pa (natLe 8 (Nat.max v (memLe s.mem pa 8)))

/-- Store one byte, if it is to be written, where a launch's windows cover some of a store's bytes (13/R322): into the shadow of
the row's own window, for a state region of the newest window of its sequence; an uncovered byte goes to memory. -/
def coveredByte (s : State) (l : LaunchRef) (pa : Nat) (x : Byte × Bool) (ea : Word) : Except Exn State :=
  if !x.2 then .ok s
  else
    match coverOf s l pa with
    | none => .ok (putMasked s pa (maskTails (tailAddrs s) pa [x]))
    | some (p, ws) =>
      match newestOf ws with
      | none => .ok s
      | some (i, w) =>
        if w.st = .closing then exn cDraft 4 (some ea) else shadowWrite s i w p (pieceOff p pa) [x] ea

/-- Some byte of n is covered for a launch. -/
def covers (s : State) (l : Option LaunchRef) (pa n : Nat) : Option LaunchRef :=
  l.filter fun l => (List.range n).any fun i => (coverOf s l (pa + i)).isSome

/-- Store masked bytes, within one line, to device memory. `std` marks a store that a TAIL takes as an unsigned
maximum (16/R371). -/
def devWrite (s : State) (ag : Agent) (pa : Nat) (data : List (Byte × Bool)) (std : Bool) (ea : Word) :
    Except Exn State :=
  if inPacked s pa then exn cFormat 0 (some ea)
  else
    match covers s ag.launch pa data.length with
    | some l => foldE (fun s x => coveredByte s l (pa + x.2) x.1 ea) s data.zipIdx
    | none =>
      if std ∧ (tailAddrs s).contains pa then .ok (raiseTail s pa (leNat (data.map (·.1))))
      else .ok (putMasked s pa (maskTails (tailAddrs s) pa data))

/-- Store masked bytes, within one line, page or register. -/
def accWrite (s : State) (ag : Agent) (t : Target) (data : List (Byte × Bool)) (std : Bool) (ea : Word) :
    Except Exc Done :=
  match t with
  | .dev pa =>
    match devWrite s ag pa data std ea with
    | .error e => .error (.trap e none)
    | .ok s => .ok (doneNow s)
  | .host x => .ok ⟨none, some .host, [], { s with outside := memWriteMask s.outside (hostAddr s x) data }⟩
  | .peer m pa =>
    if peerGuard ag pa then trapWith cTrans 2 (some ea)
    else if !memberUp s m then .ok ⟨some cPeer, none, [], s⟩
    else if portWaits s m pa then stallNow
    else if !sends s m pa then .ok ⟨some cPeer, some (peerWait s m pa), [], s⟩
    else .ok ⟨none, some (peerWait s m pa), cellsAt s.outside (peerAddr m pa) data.length,
      { s with outside := memWriteMask s.outside (peerAddr m pa) data }⟩
  | .regs off =>
    if ag.priv then .ok (doneNow (writeReg s off data.length (BitVec.ofNat 64 (leNat (data.map (·.1))))))
    else trapWith cTrans 2 (some ea)
  | .scratch k o =>
    match resolveFor s ag k true ea with
    | .error e => .error e
    | .ok f =>
      .ok (doneNow (useBanks (touchPage { s with sram := memWriteMask s.sram (frameAddr ag.cl f o) data } ag.cl k)
        (frameAddr ag.cl f o) data.length))

/-- Every byte written. -/
def allBytes (l : List Byte) : List (Byte × Bool) := l.map fun b => (b, true)

/-- New(old, v) on w-bit values (08 Table 8.8, 11/R277): 0 add, 1-3 and or xor, 4-7 min minu max maxu, 8 swap,
9 compare and swap with n. -/
def amoNew (op w old v n : Nat) : Nat :=
  match op with
  | 0 => (old + v) % 2 ^ w
  | 1 => old &&& v
  | 2 => old ||| v
  | 3 => old ^^^ v
  | 4 => if sOf w v < sOf w old then v else old
  | 5 => Nat.min old v
  | 6 => if sOf w old < sOf w v then v else old
  | 7 => Nat.max old v
  | 8 => v
  | _ => if old = v then n else old

/-- An atomic of `size` bytes whose new value is `f old`; `op` is its number in 08 Table 8.8. On a device register, of
which 04/R100 names loads and stores only, it is a read and a write (DESIGN CHOICE, log 70). -/
def accAtomic (s : State) (ag : Agent) (t : Target) (size op : Nat) (f : Nat → Nat) (ea : Word) : Except Exc Got :=
  match t with
  | .dev pa =>
    if inPacked s pa then trapWith cFormat 0 (some ea)
    else if agentBad s ag pa size then .ok (gotErr cData s)
    else
      let old := agentBytes s ag pa size
      let s := touchAgent s ag pa size
      if (tailAddrs s).contains pa ∧ op ≠ 7 then .ok (gotNow old s)
      else
        match devWrite s ag pa (allBytes (natLe size (f (leNat old)))) true ea with
        | .error e => .error (.trap e none)
        | .ok s => .ok (gotNow old s)
  | .host x =>
    if op = 0 ∨ op = 8 ∨ op = 9 then
      let old := memBytes s.outside (hostAddr s x) size
      .ok ⟨old, none, some .host, [],
        false, { s with outside := memWrite s.outside (hostAddr s x) (natLe size (f (leNat old))) }⟩
    else trapWith cTrans 2 (some ea)
  | .peer m pa =>
    if peerGuard ag pa then trapWith cTrans 2 (some ea)
    else if !memberUp s m then .ok (gotErr cPeer s)
    else if portWaits s m pa then stallNow
    else if !sends s m pa then .ok ⟨[], some cPeer, some (peerWait s m pa), [], false, s⟩
    else
      let old := memBytes s.outside (peerAddr m pa) size
      .ok ⟨old, none, some (peerWait s m pa), cellsAt s.outside (peerAddr m pa) size,
        false, { s with outside := memWrite s.outside (peerAddr m pa) (natLe size (f (leNat old))) }⟩
  | .regs off =>
    if ag.priv then
      let old := readReg s off size
      .ok (gotNow (natLe size old) (writeReg s off size (BitVec.ofNat 64 (f old))))
    else trapWith cTrans 2 (some ea)
  | .scratch k o =>
    match resolveFor s ag k true ea with
    | .error e => .error e
    | .ok fr =>
      let a := frameAddr ag.cl fr o
      if badBank s a size then .ok (gotErr cData (useBanks (touchPage s ag.cl k) a size))
      else
        let old := frameBytes s ag.cl fr o size
        let s := touchPage { s with sram := memWrite s.sram a (natLe size (f (leNat old))) } ag.cl k
        .ok { gotNow old (useBanks s a size) with atCore := fr / 128 = ag.core }

/-! ## At a virtual address -/

/-- Where an access at a virtual address is performed, its walk made (04/R88-R91, 06/R139). -/
def place (s : State) (ag : Agent) (va : Nat) (need : Need) : Except Exc (Target × State) :=
  match translate s ag.asid va need with
  | .error e => .error (.trap e none)
  | .ok t => .ok (t, noteWalk s [] ag.asid va)

/-- Read at a virtual address, within one line, page or register. -/
def readAt (s : State) (ag : Agent) (va n : Nat) : Except Exc Got :=
  match place s ag va .load with
  | .error e => .error e
  | .ok (t, s) => accRead s ag t n (BitVec.ofNat 64 va)

/-- Store masked bytes at a virtual address, within one line, page or register. -/
def writeAt (s : State) (ag : Agent) (va : Nat) (data : List (Byte × Bool)) (std : Bool) : Except Exc Done :=
  match place s ag va .store with
  | .error e => .error e
  | .ok (t, s) => accWrite s ag t data std (BitVec.ofNat 64 va)

/-- An atomic at a virtual address. -/
def atomicAt (s : State) (ag : Agent) (va size op : Nat) (f : Nat → Nat) : Except Exc Got :=
  match place s ag va .atomic with
  | .error e => .error e
  | .ok (t, s) => accAtomic s ag t size op f (BitVec.ofNat 64 va)

/-- The member that a wait names. -/
def waitMember : Option Await → Option Nat
  | some (.peer m _ _) => some m
  | _ => none

/-- The host answers a request that the thread of a core makes at issue, unless `timedOut` names the core: then the request times
out, a precise data error (18/R410, 08/R453). -/
def hostAnswers (s : State) (key va : Nat) : Except Exc Unit :=
  if s.timedOut.contains key then
    .error (.trap ⟨cData, 0, some (BitVec.ofNat 64 va), 0⟩ (some { s with timedOut := s.timedOut.filter (· ≠ key) }))
  else .ok ()

/-- An error of an access made at issue is precise (08/R453): at once, or, where the request gets no response, once its
member is lost; until then the member is noted as asked (18/R414). -/
def issueErr (s : State) (ag : Agent) (err : Option Nat) (wait : Option Await) (va : Nat) : Except Exc Unit :=
  match err with
  | some c =>
    if wait.isSome then .error (.stall (some { s with asked := waitMember wait })) else trapWith c 0 (some (BitVec.ofNat 64 va))
  | none => if wait = some .host then hostAnswers s (64 * ag.cl + ag.core) va else .ok ()

/-- Read pieces at issue, threading what reading itself changes (recency, decode counts). -/
def readPieces (s : State) (ag : Agent) : List (Nat × Nat) → Except Exc (List Byte × State)
  | [] => .ok ([], s)
  | (va, k) :: r =>
    match readAt s ag va k with
    | .error e => .error e
    | .ok g =>
      match issueErr s ag g.err g.wait va with
      | .error e => .error e
      | .ok _ =>
        match readPieces g.st ag r with
        | .error e => .error e
        | .ok (l, s) => .ok (g.bytes ++ l, s)

/-- Read n bytes at a virtual address at issue, with every error precise (08/R453). -/
def readIssue (s : State) (ag : Agent) (va n : Nat) : Except Exc (List Byte × State) := readPieces s ag (linesOf va n)

/-- Write bytes at a virtual address, piece by piece, with every error precise. -/
def writeIssue (s : State) (ag : Agent) (va : Nat) (data : List Byte) : Except Exc State :=
  foldE (fun st p =>
    match writeAt st ag p.1 (allBytes ((data.drop (p.1 - va)).take p.2)) false with
    | .error e => .error e
    | .ok d =>
      match issueErr st ag d.err d.wait p.1 with
      | .error e => .error e
      | .ok _ => .ok d.st) s (linesOf va data.length)

end Sys2Proof.Machine
end

