-- ==== Sys2Proof/Machine/Operands.lean ====
section
/-! DEFINITION. A control thread's registers: naming (02/R20, 08/R182), reading and waiting (08/R190), writing
(08/R191), producers (08/R189, R192), predicates, handles, and special registers' packed views (08 Table 8.6, 15 Table
15.9). -/

namespace Sys2Proof.Machine

/-- The thread on a core, by 64 × cluster + core. -/
def State.threadAt (s : State) (key : Nat) : Option Thread := tabFind s.threads key

/-- Put a thread on a core. -/
def State.setThread (s : State) (key : Nat) (t : Thread) : State := { s with threads := tabPut s.threads key t }

/-- Change the thread on a core, if there is one. -/
def State.updThread (s : State) (key : Nat) (f : Thread → Thread) : State :=
  match s.threadAt key with
  | some t => s.setThread key (f t)
  | none => s

/-- Cluster of a thread key. (DESIGN CHOICE, log 66.) -/
def keyCluster (key : Nat) : Nat := key / 64
/-- Core of a thread key within its cluster. (DESIGN CHOICE, log 66.) -/
def keyCore (key : Nat) : Nat := key % 64

/-- The agent that a thread is. -/
def threadAgent (key : Nat) (t : Thread) : Agent :=
  ⟨t.asid, keyCluster key, keyCore key, some t.ref.l, t.priv⟩

/-! ## Naming and reading -/

/-- Where a register field leads: `g0` nowhere, a global register, or a position of the window file (02/R20,
08/R182). -/
def regLoc (t : Thread) (r : Reg) : Except Exn (Option RegLoc) :=
  let n := r.toNat
  if n < 16 then .ok (if n = 0 then none else some (.g n))
  else if n < 48 then
    if n - 16 < t.fsize then .ok (some (.file ((t.base + (n - 16)) % 512))) else exn cIllegal 1
  else exn cIllegal 0

/-- The cell at a location. -/
def cellAt (t : Thread) : RegLoc → Cell
  | .g i => tabGet t.g i {}
  | .file j => tabGet t.win j {}

/-- Set the cell at a location; new contents carry no error (17/R403). -/
def setCell (t : Thread) : RegLoc → Cell → Thread
  | .g i, c => { t with g := tabPut t.g i c }
  | .file j, c => { t with win := tabPut t.win j c, bad := t.bad.filter (· ≠ .file j) }

/-- Read a register, waiting or trapping by its state (08/R190); contents that hold an uncorrectable error are delivered
nowhere (17/R403, DEDUCED, log 19). -/
def readReg64 (t : Thread) (r : Reg) (wait : Bool) : Except Exc Word :=
  match regLoc t r with
  | .error e => .error (.trap e none)
  | .ok none => .ok 0
  | .ok (some l) =>
    let c := cellAt t l
    match c.fill with
    | .full => if t.bad.contains l then trapWith cData 0 else .ok c.val
    | .empty => if wait then stallNow else trapWith cEmpty 0
    | .dead => trapWith cEmpty 0

/-- Read a source with its wait bit (02/R21). -/
def readSrc (t : Thread) (a : Src) : Except Exc Word := readReg64 t a.reg a.wait

/-- Read a field that has no wait bit: stall mode (02/R21). -/
def readField (t : Thread) (r : Reg) : Except Exc Word := readReg64 t r true

/-- Register r + k of a group (02/R22). -/
def regAdd (r : Reg) (k : Nat) : Reg := r + BitVec.ofNat 6 k

/-- Read a group of n registers: the first in the given mode, the others in stall mode (02/R21, R22). -/
def readGroup (t : Thread) (r : Reg) (wait : Bool) (n : Nat) : Except Exc (List Word) :=
  mapE (fun k => readReg64 t (regAdd r k) (wait || k ≠ 0)) (List.range n)

/-- A destination that is empty waits at issue until it is full (08/R191). -/
def destReady (t : Thread) (r : Reg) : Except Exc Unit :=
  match regLoc t r with
  | .error e => .error (.trap e none)
  | .ok none => .ok ()
  | .ok (some l) => if (cellAt t l).fill = .empty then stallNow else .ok ()

/-- Every register field named is inside the frame and not reserved (02/R20, 08/R182; tested before any read, DEDUCED, log 25). -/
def namesOk (t : Thread) : List Reg → Except Exc Unit
  | [] => .ok ()
  | r :: rest =>
    match regLoc t r with
    | .error e => .error (.trap e none)
    | .ok _ => namesOk t rest

/-! ## Writing -/

/-- Write a register full; `g0` discards (08 Table 8.1, R189). -/
def writeR (t : Thread) (r : Reg) (v : Word) : Thread :=
  match regLoc t r with
  | .ok (some l) => setCell t l ⟨v, .full⟩
  | _ => t

/-- Predicate k: `p0` reads true (08 Table 8.1). -/
def readP (t : Thread) (k : BitVec 3) : Bool := k = 0 || t.p.getLsbD k.toNat

/-- Set predicate k; `p0` discards. -/
def writeP (t : Thread) (k : BitVec 3) (v : Bool) : Thread :=
  if k = 0 then t
  else
    let m : BitVec 8 := 1#8 <<< k.toNat
    { t with p := if v then t.p ||| m else t.p &&& ~~~m }

/-- Handle register k (08 Table 8.1). -/
def readH (t : Thread) (k : BitVec 4) : Handle := tabGet t.h k.toNat {}

/-- Write handle register k. -/
def writeH (t : Thread) (k : BitVec 4) (h : Handle) : Thread := { t with h := tabPut t.h k.toNat h }

/-! ## Producers -/

/-- Mark a location empty. -/
def markEmpty (t : Thread) (l : RegLoc) : Thread := setCell t l { cellAt t l with fill := .empty }

/-- The producers that count in `OUTST` (08/R192); a `bpull` counts once (DEDUCED, log 26). -/
def outst (t : Thread) : Nat := (t.prods.filter (·.counted)).length

/-- A producer that would be the 65th waits at issue (08/R192). -/
def producerSlot (t : Thread) : Except Exc Unit := if 64 ≤ outst t then stallNow else .ok ()

/-- Locations of destination registers, `g0` left out. -/
def destLocs (t : Thread) (rs : List Reg) : List RegLoc :=
  rs.filterMap fun r =>
    match regLoc t r with
    | .ok l => l
    | .error _ => none

/-- Locations and values of the destinations that keep one. -/
def destPairs (t : Thread) (rs : List Reg) (vals : List Word) : List (RegLoc × Word) :=
  (rs.zip vals).filterMap fun p =>
    match regLoc t p.1 with
    | .ok (some l) => some (l, p.2)
    | _ => none

/-- Issue a producer: its destinations go empty, and its values wait (08/R189). A destination `g0` is in no list: its value is
dropped. `under` names the curd that it reads under a share (07/R176), `undo` what it replaced (14/R340), `writes` that it
writes memory, `onLoss` what it delivers should its member be lost (18 Table 18.5), `arrive` the arrival that its home has
still to answer (18/R425). -/
def produce (t : Thread) (rs : List Reg) (vals : List Word) (wait : Option Await) (err : Option Nat) (addr : Word)
    (field : Reg) (under : Option (Nat × Nat) := none) (undo : List Host.Cell := []) (writes : Bool := false)
    (onLoss : Option Word := none) (arrive : Option Arrival := none) : Thread :=
  let pairs := destPairs t rs vals
  let t' := pairs.foldl (fun t p => markEmpty t p.1) t
  { t' with
    nprod := t'.nprod + 1
    prods := t'.prods ++ [{
      dests := pairs.map (·.1), vals := pairs.map (·.2), wait := wait, err := err.map (BitVec.ofNat 8),
      addr := addr, field := field, pc := t.pc, inFault := t.saved.isSome, counted := true, under := under,
      undo := undo, writes := writes, onLoss := onLoss, arrive := arrive, num := t'.nprod }] }

/-- A store that the host or another member has still to complete, or whose error is found after issue, reports late, with
no destination (08/R193, 14/R340). -/
def lateStore (t : Thread) (wait : Option Await) (err : Option Nat) (undo : List Host.Cell) (addr : Word) : Thread :=
  if wait = none ∧ err = none then t
  else
    { t with
      nprod := t.nprod + 1
      prods := t.prods ++ [{
        dests := [], vals := [], wait := wait, err := err.map (BitVec.ofNat 8), addr := addr, field := 0, pc := t.pc,
        inFault := t.saved.isSome, counted := false, undo := undo, writes := true, num := t.nprod }] }

/-- The thread's writes to the host window that are outstanding, which a release at `system` scope over X waits for (14/R341). -/
def hostWrites (t : Thread) : Bool := t.prods.any fun p => p.writes && p.wait = some .host

/-- One of them has a number below n. -/
def hostBelow (t : Thread) (n : Nat) : Bool := t.prods.any fun p => p.writes && p.wait = some .host && decide (p.num < n)

/-- Release(as, ss) of an instruction has something to wait for (14/R341): at `system` scope over X, the thread's writes to
the host window; every other write of the thread has been performed at its own issue (DESIGN CHOICE, log 1). -/
def releaseWaits (t : Thread) (as : BitVec 3) (ss : BitVec 4) : Bool := decide (as = 6) && ss.getLsbD 3 && hostWrites t

/-- A release that waits holds back its release write alone (14/R332, R336): the instruction has been issued, and the thread goes
on (DESIGN CHOICE, log 75). -/
def defer (t : Thread) (op : RelOp) : Thread :=
  { t with rels := t.rels ++ [⟨t.nprod, true, op⟩], nprod := t.nprod + 1 }

/-- A producer is outstanding into one of these file positions. -/
def prodInto (t : Thread) (js : List Nat) : Bool :=
  t.prods.any fun p => p.dests.any fun l =>
    match l with
    | .g _ => false
    | .file j => js.contains j

/-! ## Packed views -/

/-- Frames held in the file below the current one. -/
def residentCallers (t : Thread) : List FrameRec := t.callers.take (t.nres - 1)

/-- Bases from the current frame down the resident callers. -/
def chainLen (cur : Nat) : List FrameRec → Nat
  | [] => 0
  | f :: r => (cur + 512 - f.base) % 512 + chainLen f.base r

/-- Eight registers of an interrupted frame that a fault handler's calls have spilled stay in the file (DEDUCED, log 14). -/
def keptEight (t : Thread) : Nat :=
  match t.saved with
  | none => 0
  | some c => if t.callers.length - (t.nres - 1) = c.ncall + 1 then 8 else 0

/-- RESID with a current frame of n registers (08/R184). -/
def residWith (t : Thread) (n : Nat) : Nat := n + chainLen t.base (residentCallers t) + keptEight t

/-- RESID (08 Table 8.6), at most what its nine bits hold (DEDUCED, log 14). -/
def resid (t : Thread) : Nat := if t.depth = 0 then 0 else Nat.min 511 (residWith t t.fsize)

/-- `WSTAT` (08 Table 8.6). -/
def wstat (t : Thread) : Word :=
  BitVec.ofNat 64 (resid t * 2 ^ 41 + t.base * 2 ^ 32 + t.depth % 65536 * 2 ^ 16 + t.fsize)

/-- A loop entry belongs to the current frame (15/R348). -/
def loopActive (t : Thread) (e : LoopEntry) : Bool := e.frame = t.depth && e.fbase = t.base

/-- `LSTAT` (15 Table 15.9). -/
def lstat (t : Thread) : Word :=
  let act := (List.range 4).foldl (fun n k =>
    match t.loops[k]? with
    | some e => if loopActive t e then n + 2 ^ k else n
    | none => n) 0
  BitVec.ofNat 64 (t.loops.length + 8 * act)

/-- `LREMk` (15 Table 15.9). -/
def lrem (t : Thread) (k : Nat) : Word :=
  match t.loops[k]? with
  | some e => (e.rem.zeroExtend 64) ||| (e.e.zeroExtend 64) <<< 24
  | none => 0

/-- `LSTARTk` (15 Table 15.9). -/
def lstart (t : Thread) (k : Nat) : Word :=
  match t.loops[k]? with
  | some e => e.start
  | none => 0

/-- Channel c of a thread (15/R352). -/
def channel (t : Thread) (c : Nat) : Channel := tabGet t.chans c {}

/-- `CHPEND` (15 Table 15.9). -/
def chpend (t : Thread) : Word :=
  BitVec.ofNat 64 ((List.range 16).foldl (fun n c => if (channel t c).box.isEmpty then n else n + 2 ^ c) 0)

/-- The binding word of a channel (15 Table 15.5). -/
def bindWord (c : Nat) (ch : Channel) : Nat := b2n ch.priv * 2 ^ 8 + b2n ch.en * 2 ^ 7 + ch.pri.toNat * 2 ^ 4 + c

end Sys2Proof.Machine
end

