-- ==== Sys2Proof/Machine/Frames.lean ====
section
/-! DEFINITION. The window file: spilling and filling frames (08/R184-R188), transfers and loops (15/R345-R350). -/

namespace Sys2Proof.Machine

/-- The carve-out's space of a core (06/R154). -/
def carveSpace (key : Nat) : Nat := 960 + keyCore key

/-- Where a carve-out byte lies in `sram`: its page is always resident (06/R154). -/
def carveAddr (s : State) (key off : Nat) : Nat :=
  frameAddr (keyCluster key) (eFrame (sttEntry s (keyCluster key) (2048 * carveSpace key + off / 2048))) (off % 2048)

/-- The device-memory address of an overflow doubleword (08/R186, R188): it needs both leaf rights R and W, for a write as for a
read, and must lie in this member's device memory; an address in the scratch aperture or at or above 2^56 gives the
window-overflow fault (the rights and that fault are a DESIGN CHOICE, log 13). -/
def overflowAddr (s : State) (t : Thread) (off : Nat) : Except Exn Nat :=
  let va := t.ovbase.toNat + off
  if 2 ^ 56 ≤ va ∨ isScratch va then exn cOverflow 0 (some (BitVec.ofNat 64 va))
  else
    match translateTable s [] t.asid va .atomic with
    | .error e => .error e
    | .ok (.dev pa) => .ok pa
    | .ok _ => exn cOverflow 0 (some (BitVec.ofNat 64 va))

/-- Write a spill record's doublewords to the overflow area (08/R186, R188). -/
def writeOverflow (s : State) (key : Nat) (t : Thread) : Nat → List Word → Except Exn State
  | _, [] => .ok s
  | off, w :: r =>
    match overflowAddr s t off with
    | .error e => .error e
    | .ok pa =>
      match devWrite (noteWalk s [] t.asid (t.ovbase.toNat + off)) (threadAgent key t) pa
          (allBytes (natLe 8 w.toNat)) false (BitVec.ofNat 64 (t.ovbase.toNat + off)) with
      | .error e => .error e
      | .ok s => writeOverflow s key t (off + 8) r

/-- Write a spill record's doublewords to the carve-out. -/
def writeCarve (s : State) (key : Nat) : Nat → List Word → State
  | _, [] => s
  | off, w :: r =>
    writeCarve { s with sram := memWrite s.sram (carveAddr s key off) (natLe 8 w.toNat) } key (off + 8) r

/-- Size of a frame for spilling: one that has not been entered holds eight registers (17/R391). -/
def heldSize (f : FrameRec) : Nat := Nat.max f.size 8

/-- A spill record of a frame (08 Tables 8.2, 8.3). (DEDUCED, log 13.) -/
def spillRecord (t : Thread) (f : FrameRec) : List Word :=
  let n := heldSize f
  let cells := (List.range (n - 8)).map fun i => cellAt t (.file ((f.base + i) % 512))
  let vals := cells.map fun c => if c.fill = .full then c.val else 0
  let empty := (List.range (n - 8)).foldl (fun m i =>
    if (cells.getD i {}).fill = .full then m else m + 2 ^ (32 + i)) 0
  vals ++ [f.ret, BitVec.ofNat 64 (empty + n)]

/-- The positions in a record of the frame's registers that hold an uncorrectable error (17/R403). -/
def badSaved (t : Thread) (f : FrameRec) : List Nat :=
  (List.range (heldSize f - 8)).filter fun i => t.bad.contains (.file ((f.base + i) % 512))

/-- A register that holds an uncorrectable error is written with its bad check bits, so that a later read of its doubleword
faults again (17/R403). -/
def spillBad (s : State) (key : Nat) (t : Thread) (f : FrameRec) (ovf : Bool) (off : Nat) : State :=
  (badSaved t f).foldl (fun s i =>
    if ovf then
      match overflowAddr s t (off + 8 * i) with
      | .ok pa => { s with rel := { s.rel with badLines := pa / 64 :: s.rel.badLines } }
      | .error _ => s
    else { s with rel := { s.rel with badSram := carveAddr s key (off + 8 * i) / 64 :: s.rel.badSram } }) s

/-- Spill the oldest frame held (08/R184-R186). The thread answered has one frame fewer in the file. -/
def spillOldest (s : State) (key : Nat) (t : Thread) : Except Exc (State × Thread) :=
  match (residentCallers t).getLast? with
  | none => .ok (s, t)
  | some f =>
    let n := heldSize f
    if (List.range (n - 8)).any fun i => (cellAt t (.file ((f.base + i) % 512))).fill = .empty then
      .error (.stall (some (s.setThread key t)))
    else
      let record := spillRecord t f
      let size := 8 * record.length
      if t.osp = 0 ∧ t.csp.toNat + size ≤ t.carve * 2048 then
        .ok (spillBad (writeCarve s key t.csp.toNat record) key t f false t.csp.toNat,
          { t with csp := t.csp + BitVec.ofNat 64 size, nres := t.nres - 1 })
      else if t.osp.toNat + size ≤ t.ovlen.toNat then
        match writeOverflow s key t t.osp.toNat record with
        | .error e => .error (.trap e (some (s.setThread key t)))
        | .ok s => .ok (spillBad s key t f true t.osp.toNat, { t with osp := t.osp + BitVec.ofNat 64 size, nres := t.nres - 1 })
      else .error (.trap ⟨cOverflow, 0, none, 0⟩ (some (s.setThread key t)))

/-- Spill until a current frame of n registers fits in 480 (08/R184). -/
def spillFor (key n : Nat) : Nat → State × Thread → Except Exc (State × Thread)
  | 0, x => .ok x
  | fuel + 1, (s, t) =>
    if residWith t n ≤ 480 then .ok (s, t)
    else
      match spillOldest s key t with
      | .error e => .error e
      | .ok x => spillFor key n fuel x

/-- A doubleword of the newest record's area (08/R187). -/
def recordWord (s : State) (key : Nat) (t : Thread) (ovf : Bool) (off : Nat) : Except Exn (Word × State) :=
  if ovf then
    match overflowAddr s t off with
    | .error e => .error e
    | .ok pa =>
      if badLine s pa then exn cData 0 (some (BitVec.ofNat 64 (t.ovbase.toNat + off)))
      else
        .ok (BitVec.ofNat 64 (leNat (agentBytes s (threadAgent key t) pa 8)),
          touch (noteWalk s [] t.asid (t.ovbase.toNat + off)) pa 8)
  else if badBank s (carveAddr s key off) 8 then exn cData 0 none
  else .ok (memWord s.sram (carveAddr s key off), s)

/-- n doublewords of a record. -/
def recordWords (s : State) (key : Nat) (t : Thread) (ovf : Bool) (off n : Nat) : Except Exn (List Word × State) :=
  foldE (fun r i => (recordWord r.2 key t ovf (off + 8 * i)).map fun x => (r.1 ++ [x.1], x.2)) ([], s) (List.range n)

/-- A frame link's return address: an offset whose low two bits are 0, as every PC's are (15/R343, DEDUCED, log 13). -/
def linkOf (w : Word) : Word := w &&& 0xFFFFFFFFFFFFFFFC

/-- Fill a frame from the newest record (08/R187): its registers, their full/empty bits and its return address. A CSP beyond the
carve-out, or a record larger than the pointer's value, gives the window fault, as both pointers 0 do (DESIGN CHOICE, log 13). -/
def fillFrame (s : State) (key : Nat) (t : Thread) (f : FrameRec) : Except Exn (State × Thread × FrameRec) :=
  let ovf := t.osp ≠ 0
  let top := if ovf then t.osp.toNat else t.csp.toNat
  if top < 8 ∨ (!ovf ∧ t.carve * 2048 < top) then exn cWindow 0
  else
    match recordWord s key t ovf (top - 8) with
    | .error e => .error e
    | .ok (w, s) =>
      let n := bits w.toNat 5 0
      let size := 8 * (n - 6)
      if bits w.toNat 63 56 ≠ 0 ∨ bits w.toNat 31 6 ≠ 0 ∨ n < 8 ∨ 32 < n ∨ n ≠ heldSize f ∨ top < size then exn cWindow 0
      else
        match recordWords s key t ovf (top - size) (n - 7) with
        | .error e => .error e
        | .ok (ws, s) =>
          let t := (List.range (n - 8)).foldl (fun t i =>
            setCell t (.file ((f.base + i) % 512)) ⟨ws.getD i 0, if bit w.toNat (32 + i) then .dead else .full⟩) t
          let p := BitVec.ofNat 64 (top - size)
          .ok (s, if ovf then { t with osp := p } else { t with csp := p }, { f with ret := linkOf (ws.getD (n - 8) 0) })

/-! ## Loops and transfers -/

/-- The end test's loop (15/R349): the PC and the stack that an instruction ending at x leaves. -/
def endLoop (t : Thread) (x : Word) : List LoopEntry → Word × List LoopEntry
  | [] => (x + 4, [])
  | e :: r =>
    if loopActive t e ∧ e.stop = x then
      if 1 < e.rem.toNat then (e.start, { e with rem := e.rem - 1 } :: r) else endLoop t x r
    else (x + 4, e :: r)

/-- EndTest(x) (15/R349). -/
def endTest (t : Thread) (x : Word) : Thread :=
  let y := endLoop t x t.loops
  { t with pc := y.1, loops := y.2 }

/-- The entries that a transfer to a target leaves (15/R350). -/
def popLoops (t : Thread) (target : Word) : List LoopEntry → List LoopEntry
  | [] => []
  | e :: r =>
    if loopActive t e ∧ ¬ (e.start.toNat ≤ target.toNat ∧ target.toNat ≤ e.stop.toNat) then popLoops t target r
    else e :: r

/-- A transfer (15/R344, R350). -/
def transfer (t : Thread) (target : Word) : Thread := { t with pc := target, loops := popLoops t target t.loops }

/-- The target of a B-form field (02/R24): the instruction's address plus 4 × OFF21, sign-extended. -/
def branchTarget (pc : Word) (off : BitVec 21) : Word := pc + (off.signExtend 64) <<< 2

/-- Make the callee's frame (15/R345). (DEDUCED, log 13.) -/
def pushFrame (t : Thread) (link target : Word) : Thread :=
  { t with
    callers := ⟨t.base, t.fsize, t.ret, t.entered⟩ :: t.callers
    base := (t.base + t.fsize + 504) % 512
    fsize := 8
    entered := false
    ret := link
    depth := t.depth + 1
    nres := t.nres + 1
    pc := target }

/-- File positions of `wi` for i from lo up to hi - 1 of the current frame. -/
def framePositions (t : Thread) (lo hi : Nat) : List Nat :=
  (List.range (hi - lo)).map fun i => (t.base + lo + i) % 512

/-- Set file registers to zero and full. -/
def zeroFile (t : Thread) (js : List Nat) : Thread :=
  js.foldl (fun t j => setCell t (.file j) ⟨0, .full⟩) t

end Sys2Proof.Machine
end

