-- ==== Sys2Proof/Machine/Pool.lean ====
section
/-! DEFINITION. A cluster's frames, page moves (06/R145-R148), and the curd pool: partitions, grants, shares, seals and
returns (07/R155-R171). -/

namespace Sys2Proof.Machine

/-! ## Frames -/

/-- Frames of a cluster (06/R137). -/
def frameCount : Nat := 6144

/-- The lowest-numbered free frame of a core. -/
def freeOfCore (x : Cluster) (core : Nat) : Option Nat :=
  firstFrom (fun f => (tabFind x.frames f).isNone) (128 * core) 128

/-- The frame that 06/R147 steps 1 and 2 choose. -/
def chooseFrame (x : Cluster) (core : Nat) : Option Nat :=
  match freeOfCore x core with
  | some f => some f
  | none => firstFrom (fun f => (tabFind x.frames f).isNone) 0 frameCount

/-- Free frames of a cluster. -/
def freeCount (x : Cluster) : Nat := frameCount - x.frames.length

/-- Marks of uncorrectable errors after 2,048 bytes have been copied from line a to line b: they go with the bytes
(17/R403). -/
def moveMarks (src : List Nat) (a : Nat) (dst : List Nat) (b : Nat) : List Nat :=
  (dst.filter fun l => l < b ∨ b + 32 ≤ l) ++ (src.filter fun l => a ≤ l ∧ l < a + 32).map fun l => l - a + b

/-- Give a frame a use, its bytes reading zero. -/
def takeFrame (s : State) (c f : Nat) (u : FrameUse) : State :=
  { s with
    sram := memClear s.sram (frameAddr c f 0) 2048
    rel := { s.rel with badSram := moveMarks [] 0 s.rel.badSram (frameAddr c f 0 / 64) } }.updCluster c fun x =>
    { x with frames := tabPut x.frames f u }

/-- Count a retirement in a 16-bit field of `RETIRED` (17/R405: each stops at its largest value, DEDUCED, log 32) and post it
(17/R404). -/
def countRetired (s : State) (lo : Nat) : State :=
  let r := s.regs.retired.toNat
  let n := Nat.min (bits r (lo + 15) lo + 1) 65535
  postFree { s with regs := { s.regs with
    retired := BitVec.ofNat 64 (r - bits r (lo + 15) lo * 2 ^ lo + n * 2 ^ lo) } } .retirement

/-- Free a frame; one of a unit marked for retirement is never allocated again (17 Table 17.5). -/
def freeFrame (s : State) (c f : Nat) : State :=
  if s.rel.retired.contains (.scratchFrame c f) then
    countRetired (s.updCluster c fun x => { x with frames := tabPut x.frames f .retired }) 16
  else s.updCluster c fun x => { x with frames := tabDel x.frames f }

/-- Take n frames for a core by 06/R147 steps 1 and 2. -/
def takeFrames (s : State) (c core : Nat) (u : FrameUse) : Nat → State × List Nat
  | 0 => (s, [])
  | n + 1 =>
    match chooseFrame (s.cluster c) core with
    | none => (s, [])
    | some f =>
      let r := takeFrames (takeFrame s c f u) c core u n
      (r.1, f :: r.2)

/-- The lowest free backing slot (06/R151). -/
def freeSlot (x : Cluster) : Option Nat := firstFrom (fun n => !x.slots.contains n) 0 8192

/-- Forget a page's standing in the cluster: its recency, wish and pin. -/
def forgetPage (s : State) (c k : Nat) : State :=
  s.updCluster c fun x => { x with
    lru := x.lru.filter (· ≠ k), wants := tabDel x.wants k, pinned := x.pinned.filter (· ≠ k) }

/-- Begin a page-out: the entry goes to ST 11 at the frame being left (06/R145, R146). -/
def beginPageOut (s : State) (c k : Nat) : State :=
  let e := sttEntry s c k
  (setEntry s c k (mkEntry (eAsid e) (eSlot e) 3 (eProt e) (eFrame e))).updCluster c fun x =>
    { x with moves := tabPut x.moves k (.pageOut (eFrame e)) }

/-- A resident page that is not pinned, on a frame to be retired, is paged out (17 Table 17.5). -/
def retirePage (s : State) (c k : Nat) : State :=
  let e := sttEntry s c k
  if eSt e = 1 ∧ eProt e ≠ 2 ∧ s.rel.retired.contains (.scratchFrame c (eFrame e)) then beginPageOut s c k else s

/-- End a page-out: the slot holds the frame's bytes, the frame is free (06/R146). -/
def endPageOut (s : State) (c k f : Nat) : State :=
  let e := sttEntry s c k
  let a := slotAddr c (eSlot e)
  let s := putBytes s a (frameBytes s c f 0 2048)
  let s := { s with rel := { s.rel with
    badLines := moveMarks s.rel.badSram (frameAddr c f 0 / 64) s.rel.badLines (a / 64) } }
  let s := freeFrame (setEntry s c k (mkEntry (eAsid e) (eSlot e) 2 (eProt e) 0)) c f
  s.updCluster c fun x => { x with moves := tabDel x.moves k, lru := x.lru.filter (· ≠ k) }

/-- Begin a page-in into a frame. -/
def beginPageIn (s : State) (c k f : Nat) : State :=
  let e := sttEntry s c k
  let s := takeFrame s c f (.page k)
  (setEntry s c k (mkEntry (eAsid e) (eSlot e) 3 (eProt e) f)).updCluster c fun x =>
    { x with moves := tabPut x.moves k (.pageIn f), wants := tabDel x.wants k }

/-- End a page-in: the frame holds the slot's bytes. -/
def endPageIn (s : State) (c k f : Nat) : State :=
  let e := sttEntry s c k
  let a := slotAddr c (eSlot e)
  let s := { s with
    sram := memWrite s.sram (frameAddr c f 0) (memBytes s.mem a 2048)
    rel := { s.rel with badSram := moveMarks s.rel.badLines (a / 64) s.rel.badSram (frameAddr c f 0 / 64) } }
  let s := setEntry (touch s a 2048) c k (mkEntry (eAsid e) (eSlot e) 1 (eProt e) f)
  retirePage (touchPage (s.updCluster c fun x => { x with moves := tabDel x.moves k }) c k) c k

/-- Begin a relocation into another frame. -/
def beginReloc (s : State) (c k f : Nat) : State :=
  let e := sttEntry s c k
  let s := takeFrame s c f (.page k)
  (setEntry s c k (mkEntry (eAsid e) (eSlot e) 3 (eProt e) (eFrame e))).updCluster c fun x =>
    { x with moves := tabPut x.moves k (.reloc (eFrame e) f) }

/-- End a relocation. -/
def endReloc (s : State) (c k src dst : Nat) : State :=
  let e := sttEntry s c k
  let s := { s with
    sram := memWrite s.sram (frameAddr c dst 0) (frameBytes s c src 0 2048)
    rel := { s.rel with
      badSram := moveMarks s.rel.badSram (frameAddr c src 0 / 64) s.rel.badSram (frameAddr c dst 0 / 64) } }
  let s := freeFrame (setEntry s c k (mkEntry (eAsid e) (eSlot e) 1 (eProt e) dst)) c src
  retirePage (s.updCluster c fun x => { x with moves := tabDel x.moves k }) c k

/-- The page engine's victim: the least recently used unpinned resident page (06/R147 step 3). -/
def victim (s : State) (c : Nat) : Option Nat :=
  (s.cluster c).lru.find? fun k => eSt (sttEntry s c k) = 1 && eProt (sttEntry s c k) ≠ 2

/-- Begin page-outs of up to n victims (06/R148). -/
def beginPageOuts (s : State) (c : Nat) : Nat → State
  | 0 => s
  | n + 1 =>
    match victim s c with
    | none => s
    | some k => beginPageOuts (beginPageOut s c k) c n

/-- Page-outs in progress. -/
def outMoves (x : Cluster) : Nat :=
  (x.moves.filter fun e => match e.2 with
    | .pageOut _ => true
    | _ => false).length

/-- Start the page-outs that a request short of n frames asks for, those in progress counted (06/R148). -/
def startPageOuts (s : State) (c n : Nat) : State := beginPageOuts s c (n - outMoves (s.cluster c))

/-- Take a page out whole, for a start that needs its frame (06/R154). -/
def pageOutWhole (s : State) (c k : Nat) : State :=
  let f := eFrame (sttEntry s c k)
  endPageOut (beginPageOut s c k) c k f

/-- A frame by 06/R147 steps 1 to 3, paging a victim out when none is free. -/
def frameOrEvict (s : State) (c core : Nat) : Option (State × Nat) :=
  match chooseFrame (s.cluster c) core with
  | some f => some (s, f)
  | none =>
    match victim s c with
    | none => none
    | some k =>
      let f := eFrame (sttEntry s c k)
      some (pageOutWhole s c k, f)

/-! ## Curds -/

/-- Fields of a curd handle (07 Table 7.1). -/
def chCluster (h : Nat) : Nat := bits h 31 27
/-- PART. -/
def chPart (h : Nat) : Nat := bits h 26 23
/-- INDEX. -/
def chIndex (h : Nat) : Nat := bits h 22 11
/-- GEN. -/
def chGen (h : Nat) : Nat := bits h 10 0

/-- A curd handle. -/
def mkCurd (c part idx gen : Nat) : Nat := c * 2 ^ 27 + part * 2 ^ 23 + idx * 2 ^ 11 + gen

/-- Descriptor of a partition (07 Table 7.2). -/
def partDesc (s : State) (c p : Nat) : Nat := (tabGet (s.cluster c).parts p {}).desc.toNat
/-- EN. -/
def ptEn (d : Nat) : Bool := bit d 63
/-- ASID. -/
def ptAsid (d : Nat) : Nat := bits d 45 32
/-- MAX. -/
def ptMax (d : Nat) : Nat := bits d 28 16
/-- MIN. -/
def ptMin (d : Nat) : Nat := bits d 12 0

/-- The partition is enabled for an ASID (07/R159, R160). -/
def partFor (s : State) (c p : Nat) (asid : BitVec 14) : Bool :=
  ptEn (partDesc s c p) && ptAsid (partDesc s c p) = asid.toNat

/-- A curd index. -/
def curdSlot (s : State) (c i : Nat) : CurdSlot := tabGet (s.cluster c).curds i {}

/-- Change a curd index. -/
def updCurdSlot (s : State) (c i : Nat) (f : CurdSlot → CurdSlot) : State :=
  s.updCluster c fun x => { x with curds := tabUpd x.curds i {} f }

/-- Change a live curd. -/
def updCurd (s : State) (c i : Nat) (f : CurdLive → CurdLive) : State :=
  updCurdSlot s c i fun x => { x with live := x.live.map f }

/-- The curd that a handle names while it holds frames, one that is leaving included (07/R155, R165). -/
def namedCurd (s : State) (h : Nat) : Option CurdLive :=
  let x := curdSlot s (chCluster h) (chIndex h)
  match x.live with
  | some k => if k.part = chPart h ∧ x.gen = chGen h then some k else none
  | none => none

/-- The curd of a current handle (07/R155). -/
def currentCurd (s : State) (h : Nat) : Option CurdLive := (namedCurd s h).filter fun k => !k.leaving

/-- `CurdAt` (07/R173): 07/R157, then 07/R160, then *stale*. -/
def curdAt (s : State) (cl : Nat) (asid : BitVec 14) (h : Nat) : Except Exn CurdLive :=
  if chCluster h ≠ cl then exn cCurd 1 (some (BitVec.ofNat 64 h))
  else if !partFor s cl (chPart h) asid then exn cCurd 2 (some (BitVec.ofNat 64 h))
  else
    match currentCurd s h with
    | some k => .ok k
    | none => exn cCurd 0 (some (BitVec.ofNat 64 h))

/-- Live curds of a cluster, with their indices. -/
def liveCurds (x : Cluster) : List (Nat × CurdLive) := x.curds.filterMap fun e => e.2.live.map fun k => (e.1, k)

/-- Live castings of a cluster that have not retired, with their indices. -/
def liveCasts (x : Cluster) : List (Nat × CastLive) :=
  x.casts.filterMap fun e =>
    match e.2.live with
    | some k => if k.retired then none else some (e.1, k)
    | none => none

/-- Sum of a list. -/
def sumNat (l : List Nat) : Nat := l.foldl (· + ·) 0

/-- The held-back count (07/R162). -/
def heldBack (x : Cluster) : Nat :=
  x.pinned.length + sumNat ((liveCurds x).map fun e => e.2.frames.length) +
    sumNat ((liveCasts x).map fun e => e.2.depth - e.2.resHeld)

/-- Frames that a partition's live curds hold. -/
def partFrames (x : Cluster) (p : Nat) : Nat :=
  sumNat (((liveCurds x).filter fun e => e.2.part = p).map fun e => e.2.frames.length)

/-- Curd depths admitted to a partition (07/R161). -/
def partDepth (x : Cluster) (p : Nat) : Nat :=
  sumNat (((liveCasts x).filter fun e => e.2.part = p).map fun e => e.2.depth)

/-- The lowest free curd index (07/R156). -/
def freeCurd (x : Cluster) : Option Nat :=
  firstFrom (fun i => (tabGet x.curds i {}).live.isNone) 0 4096

/-- How a request stands (07/R163): granted, refused, or short of frames alone. -/
inductive Grant where
  | granted (idx : Nat)
  | short (n : Nat)
  | refused
  deriving DecidableEq, Repr

/-- Test a request of n pages in a partition (07/R163). -/
def testGrant (s : State) (c p n : Nat) (reserved : Bool) : Grant :=
  let x := s.cluster c
  match freeCurd x with
  | none => .refused
  | some i =>
    if ptMax (partDesc s c p) < partFrames x p + n then .refused
    else if !reserved ∧ 4096 < heldBack x + n then .refused
    else if freeCount x < n then .short (n - freeCount x)
    else .granted i

/-- Allocate a curd on a free index (07/R158, R165, R166): open, F = N, Pd = 0, all bytes zero. -/
def allocCurd (s : State) (c core i p n count : Nat) (strict : Bool) (l : LaunchRef) (owner : ThreadRef)
    (cast : Option (CastRef × Nat)) (reserved : Bool) : State × Nat :=
  let r := takeFrames s c core (.curd i) n
  let s := updCurdSlot r.1 c i fun x => { x with live := some {
    part := p, frames := r.2, strict := strict, isSealed := false, count := count, fin := count, pend := 0, launch := l,
    owner := owner, cast := cast, reserved := reserved, raised := false } }
  (s, mkCurd c p i (curdSlot s c i).gen)

/-- A casting index of a cluster. -/
def castSlot (s : State) (cid : Nat) : CastSlot := tabGet (s.cluster (cid / 256)).casts (cid % 256) {}

/-- Change a casting index. -/
def updCastSlot (s : State) (cid : Nat) (f : CastSlot → CastSlot) : State :=
  s.updCluster (cid / 256) fun x => { x with casts := tabUpd x.casts (cid % 256) {} f }

/-- Change a live casting. -/
def updCast (s : State) (cid : Nat) (f : CastLive → CastLive) : State :=
  updCastSlot s cid fun x => { x with live := x.live.map f }

/-- A casting as it now stands at its index. -/
def castRef (s : State) (cid : Nat) : CastRef := ⟨cid, (castSlot s cid).gen⟩

/-- A reserved grant gives its frames back to the reservation of the casting that made it, while that casting lives
(07/R163). -/
def giveBack (s : State) (k : CurdLive) : State :=
  match k.cast with
  | some (r, _) =>
    if k.reserved ∧ castRef s r.cid = r then updCast s r.cid fun y => { y with resHeld := y.resHeld - k.frames.length }
    else s
  | none => s

/-- The generation after one of 11 bits, which skips 0 (07/R156). -/
def nextGen (g : Nat) : Nat := if g = 2047 then 1 else g + 1

/-- A curd's storage returns (07/R165, R156): its frames are free, its generation advances, a reserved grant gives its
frames back to the reservation. -/
def returnCurd (s : State) (c i : Nat) : State :=
  match (curdSlot s c i).live with
  | none => s
  | some k =>
    let s := k.frames.foldl (fun s f => freeFrame s c f) s
    giveBack (updCurdSlot s c i fun x => {
      gen := nextGen x.gen, live := none, readers := []
      past := if k.fin = 0 then tabPut x.past x.gen x.readers else tabDel x.past x.gen }) k

/-- Return a curd whose final count has reached 0; one that is leaving stays until its pending shares have gone. -/
def settleCurd (s : State) (c i : Nat) : State :=
  match (curdSlot s c i).live with
  | some k => if k.fin = 0 ∨ (k.leaving ∧ k.pend = 0) then returnCurd s c i else s
  | none => s

/-- Take a share (07/R167): Pd rises. The caller has tested F - Pd ≥ 1. -/
def takeShare (s : State) (c i : Nat) : State := updCurd s c i fun k => { k with pend := k.pend + 1 }

/-- A share becomes final (07/R168). -/
def finalShare (s : State) (c i : Nat) : State :=
  settleCurd (updCurd s c i fun k => { k with pend := k.pend - 1, fin := k.fin - 1 }) c i

/-- A share is rolled back (07/R168). -/
def rollShare (s : State) (c i : Nat) : State :=
  settleCurd (updCurd s c i fun k => { k with pend := k.pend - 1 }) c i

/-- Seal a curd (07/R169). -/
def sealCurd (s : State) (c i : Nat) : State := updCurd s c i fun k => { k with isSealed := true }

/-- Where byte o of a curd is held (07/R158). -/
def curdAddr (c : Nat) (k : CurdLive) (o : Nat) : Nat := frameAddr c (k.frames.getD (o / 2048) 0) (o % 2048)

/-- Bytes of a curd. -/
def curdBytes (s : State) (c : Nat) (k : CurdLive) (o n : Nat) : List Byte :=
  (List.range n).map fun i => memGet s.sram (curdAddr c k (o + i))

/-- Write masked bytes of a curd. -/
def curdWrite (s : State) (c : Nat) (k : CurdLive) (o : Nat) : List (Byte × Bool) → State
  | [] => s
  | (b, w) :: r => curdWrite (if w then { s with sram := memPut s.sram (curdAddr c k o) b } else s) c k (o + 1) r

/-- Bytes of a curd's range. -/
def curdSize (k : CurdLive) : Nat := 2048 * k.frames.length

end Sys2Proof.Machine
end

