-- ==== Sys2Proof/Machine/Rings.lean ====
section
/-! DEFINITION. Asynchronous faults (17/R390, R392, R394) and ring objects (05/R122-R124). -/

namespace Sys2Proof.Machine

/-! ## Asynchronous faults -/

/-- The core on which a control thread runs. -/
def runningKey (s : State) (r : ThreadRef) : Option Nat :=
  s.threads.findSome? fun e => if e.2.ref = r then some e.1 else none

/-- The core whose context store holds a control thread (17/R396). -/
def savedKey (s : State) (r : ThreadRef) : Option Nat :=
  s.saved.findSome? fun e => if e.2.ref = r then some e.1 else none

/-- Change a control thread, running or saved. -/
def updByRef (s : State) (r : ThreadRef) (f : Thread → Thread) : State :=
  match runningKey s r with
  | some k => s.updThread k f
  | none =>
    match savedKey s r with
    | some k =>
      match tabFind s.saved k with
      | some t => { s with saved := tabPut s.saved k (f t) }
      | none => s
    | none => s

/-- A control thread, running or saved. -/
def threadByRef (s : State) (r : ThreadRef) : Option Thread :=
  match runningKey s r with
  | some k => s.threadAt k
  | none => (savedKey s r).bind fun k => tabFind s.saved k

/-- The fault record of a fault (17 Table 17.2), and the state with any free value it draws (DESIGN CHOICE, log 20). -/
def recordOf (s : State) (src : Nat) (e : Exn) (who : Word) (of' : Option StreamRef := none) : FaultRec × State :=
  match e.addr with
  | some a => (⟨ecauseOf src e, a, who, 0, of'⟩, s)
  | none => (⟨ecauseOf src e, Config.freeWord s.free, who, 0, of'⟩, { s with free := s.free + 1 })

/-- Send an asynchronous fault to a thread: into its queue of 16, or to wait at its source while that is full; the
fault of a finished thread is posted to the management mailbox (17/R392, R394). (DEDUCED, log 39.) -/
def sendFault (s : State) (r : ThreadRef) (src : Nat) (e : Exn) (who : Word) (cast : Option Nat)
    (of' : Option StreamRef := none) : State :=
  let x := recordOf s src e who of'
  match threadByRef x.2 r with
  | some t =>
    if t.fq.length < 16 then updByRef x.2 r fun t => { t with fq := t.fq ++ [x.1] }
    else { x.2 with waiting := x.2.waiting ++ [⟨r, x.1, cast⟩] }
  | none => postEvent x.2 .kill x.1.cause x.1.addr x.1.who

/-- A slot of a thread's queue has freed: the first fault that waits for it enters (17/R392). (DEDUCED, log 39.) -/
def admitWaiting (s : State) (r : ThreadRef) : State :=
  match s.waiting.find? fun w => w.target = r with
  | none => s
  | some w =>
    updByRef { s with waiting := s.waiting.erase w } r fun t => { t with fq := t.fq ++ [w.fault] }

/-! ## Ring objects -/

/-- PROG (05 Table 5.2). -/
def rgProg (r : Nat) : Nat := bits r 31 0
/-- WP. -/
def rgWp (r : Nat) : Nat := bits r 63 32
/-- IP. -/
def rgIp (r : Nat) : Nat := bits r 95 64
/-- CP. -/
def rgCp (r : Nat) : Nat := bits r 127 96
/-- RP. -/
def rgRp (r : Nat) : Nat := bits r 159 128
/-- N, the slot count. -/
def rgN (r : Nat) : Nat := 2 ^ bits r 162 160
/-- DONE. -/
def rgDone (r : Nat) : Nat := bits r 255 192
/-- ERR. -/
def rgErr (r : Nat) : Nat := bits r 319 256

/-- Replace bits high:low of a value. -/
def setBits (v hi lo x : Nat) : Nat := v - bits v hi lo * 2 ^ lo + x % 2 ^ (hi + 1 - lo) * 2 ^ lo

/-- x - y modulo 2^32. -/
def sub32 (x y : Nat) : Nat := (x + 2 ^ 32 - y) % 2 ^ 32

/-- The ring object is well formed (05/R123). -/
def ringWf (r : Nat) : Bool :=
  bit r 170 && bits r 191 171 = 0 && bits r 511 320 = 0 && bits r 162 160 ≤ 6 && bits r 165 163 ≠ 7 &&
  bits r 169 166 ≠ 0 && sub32 (rgCp r) (rgRp r) ≤ sub32 (rgWp r) (rgRp r) &&
  sub32 (rgWp r) (rgRp r) ≤ sub32 (rgIp r) (rgRp r) && sub32 (rgIp r) (rgRp r) ≤ rgN r

/-- `RingAt` (05/R127): the physical address of the object. -/
def ringAt (s : State) (asid : BitVec 14) (h : Handle) (off : Int) : Except Exn Nat :=
  let e : Option Word := some (BitVec.ofInt 64 off)
  match checkHandle h off 64 rRWA asid with
  | .error e => .error e
  | .ok va =>
    match translate s asid va .atomic with
    | .error e => .error e
    | .ok (.dev pa) =>
      if pa % 64 ≠ 0 then exn cRing 0 e
      else if inPacked s pa then exn cFormat 0 e
      else if badLine s pa then exn cData 0 e
      else .ok pa
    | .ok _ => exn cRing 0 e

/-- The ring object at a physical address. (DEDUCED, log 47.) -/
def ringGet (s : State) (pa : Nat) : Nat := memLe s.mem pa 64

/-- The reading of a ring object is an access to its line (05/R102, R103), its walk made. -/
def touchRing (s : State) (asid : BitVec 14) (h : Handle) (off : Int) (pa : Nat) : State :=
  touch (noteWalk s [] asid (h.base.toNat + off.toNat)) pa 64

/-- Write a ring object. (DEDUCED, log 47.) -/
def ringSet (s : State) (pa r : Nat) : State := putPlain s pa (natLe 64 r)

/-- Reserve the next slot (05/R128): the slot counter and the object. -/
def ringReserve (r : Nat) : Nat × Nat := (rgIp r, setBits r 95 64 ((rgIp r + 1) % 2 ^ 32))

/-- Advance WP past completed slots, clearing their DONE bits; `fuel` bounds the slots (05/R124). -/
def ringAdvance : Nat → Nat → Nat
  | 0, r => r
  | fuel + 1, r =>
    let i := rgWp r % rgN r
    if bit (rgDone r) i then
      ringAdvance fuel (setBits (setBits r 63 32 ((rgWp r + 1) % 2 ^ 32)) 255 192 (rgDone r - 2 ^ i))
    else r

/-- Complete slot counter s of a ring (05/R124), before PROG is set. -/
def ringDone (r slot : Nat) (err : Bool) : Nat :=
  let i := slot % rgN r
  let r := if err then setBits r 319 256 (rgErr r ||| 2 ^ i) else r
  if slot ≠ rgWp r then setBits r 255 192 (rgDone r ||| 2 ^ i)
  else ringAdvance 64 (setBits r 63 32 ((rgWp r + 1) % 2 ^ 32))

/-- The delivered prefix of the copy that holds a slot of a ring: the head entry that has begun on it (05/R124). -/
def deliveredOn (s : State) (pa slot : Nat) : Nat :=
  let heads := s.clusters.filterMap fun c =>
    c.2.queues.findSome? fun q =>
      match q.2.entries with
      | e :: _ =>
        if e.begun ∧ e.slot.toNat = slot then
          match ringAt s e.asid e.hr e.roff.toInt with
          | .ok p => if p = pa then some e.done else none
          | .error _ => none
        else none
      | [] => none
  heads.headD 0

/-- Complete a slot and set PROG (05/R124). -/
def ringComplete (s : State) (pa slot : Nat) (err : Bool) : State :=
  let r := ringGet s pa
  let r' := ringDone r slot err
  let r' := if rgWp r' = rgWp r then r' else setBits r' 31 0 (deliveredOn s pa (rgWp r'))
  ringSet s pa r'

/-- A completion that has no queue to halt: on a ring that is not well formed it completes nothing, and its issuer gets a ring
fault (05/R123); so it does where the ring's address no longer checks or translates, or lies in a packed view or in a line
that holds an uncorrectable error, which the rule does not name (DESIGN CHOICE, log 78). `who` is the `EWHO` of that fault:
the island and queue of a discarded entry; for a pod operation or a promotion, which have neither, 0 (DESIGN CHOICE, log 71).
-/
def looseComplete (s : State) (asid : BitVec 14) (h : Handle) (off : Word) (slot : Nat) (err : Bool)
    (owner : ThreadRef) (who : Word) : State :=
  match ringAt s asid h off.toInt with
  | .ok pa =>
    if ringWf (ringGet s pa) then ringComplete (touchRing s asid h off.toInt pa) pa slot err
    else sendFault s owner srcQueue ⟨cRing, 0, some off, 0⟩ who none
  | .error _ => sendFault s owner srcQueue ⟨cRing, 0, some off, 0⟩ who none

/-- `EWHO` of a streamer queue (17 Table 17.2). -/
def queueWho (isl q : Nat) : Word := BitVec.ofNat 64 (isl + 4 * q)

end Sys2Proof.Machine
end

