-- ==== Sys2Proof/Machine/Pins.lean ====
section
/-! DEFINITION. Pins of L2 lines (05/R101, R104-R106) and freeing an island (12/R287, R288). -/

namespace Sys2Proof.Machine

/-- Pins on a line. -/
def pinCount (d : Die) (line : Nat) : Nat := tabGet d.pins line 0

/-- A request can be granted: no line above 255 pins, no set above 12 pinned lines (05/R104). -/
def canPin (d : Die) (ls : List Nat) : Bool :=
  let after := ls.foldl (fun p l => tabUpd p l 0 (· + 1)) d.pins
  let sets := after.foldl (fun t e => tabUpd t (setOfLine e.1) 0 (· + 1)) ([] : Tab Nat)
  after.all (fun e => e.2 ≤ 255) && sets.all fun e => e.2 ≤ 12

/-- The four scales of a line of a scaled view (04/R82): those kept while it is pinned (04/R85), else those in memory. -/
def sideScales (s : State) (line : Nat) : Option (List Byte) :=
  match tabFind (s.die (dieOf (64 * line))).decoded line with
  | some l => if l.length = 68 then some (l.drop 64) else none
  | none =>
    match windowAt s (64 * line) with
    | some d =>
      if winPack d = 0 ∧ winFmt d = 13 then
        some (memBytes s.mem (winAux d + (64 * line - winBase d) / 16) 4)
      else none
    | none => none

/-- A line of a scaled view takes its scales from a line that holds an uncorrectable error (17/R403). -/
def scalesBad (s : State) (line : Nat) : Bool :=
  match windowAt s (64 * line) with
  | some d => winPack d = 0 && auxBad s d line
  | none => false

/-- A line of a packed or scaled view is decoded from an auxiliary line that holds an uncorrectable error. -/
def decodeBad (s : State) (line : Nat) : Bool :=
  match windowAt s (64 * line) with
  | some d => auxBad s d line
  | none => false

/-- What a line in the view of a packed or scaled window keeps decoded while it is pinned (04/R85); a line of no such view
keeps nothing. (DEDUCED, log 18.) -/
def decodedOf (s : State) (line : Nat) : Option (List Byte) :=
  match windowAt s (64 * line) with
  | some d =>
    if winPack d ≠ 0 then some (viewBytes s (64 * line) 64)
    else if winFmt d = 13 then (sideScales s line).map fun x => viewBytes s (64 * line) 64 ++ x
    else none
  | none => none

/-- Pin a line of a die: it is brought into the L2 (05/R103), and the first pin keeps its decoded contents, with the error of an
auxiliary line that they were decoded from (17/R403). -/
def pinLine (die : Nat) (s : State) (l : Nat) : State :=
  let s := touchLine s l
  let keep := if isPinned (s.die die) l then none else decodedOf s l
  let bad := keep.isSome && decodeBad s l
  s.updDie die fun d => { d with
    pins := tabUpd d.pins l 0 (· + 1)
    decoded := match keep with
      | some x => tabPut d.decoded l x
      | none => d.decoded
    badDec := if bad then l :: d.badDec else d.badDec }

/-- Pin lines of a die. -/
def pinLines (s : State) (die : Nat) (ls : List Nat) : State := ls.foldl (pinLine die) s

/-- Change an island. -/
def State.updIsland (s : State) (c i : Nat) (f : Island → Island) : State :=
  s.updCluster c fun x => { x with islands := tabUpd x.islands i {} f }

/-- An island. -/
def State.island (s : State) (c i : Nat) : Island := tabGet (s.cluster c).islands i {}

/-- Mark a request's tile granted: the pending tile of its island. -/
def grantTile (s : State) (q : PinReq) : State :=
  s.updIsland q.cl q.isl fun x => { x with pending := x.pending.map fun t => { t with granted := true } }

/-- Grant waiting requests from the head of a die's queue until one cannot be granted (05/R105). A request whose own lines
alone put more than 12 in one set waits at the head for good: 05/R104 grants no such request, and 05/R108 does not say
what becomes of it (DESIGN CHOICE, log 18). -/
def grantWaiting (die : Nat) : Nat → State → State
  | 0, s => s
  | fuel + 1, s =>
    match (s.die die).waiting with
    | [] => s
    | q :: r =>
      if canPin (s.die die) q.lines then
        let s := pinLines s die q.lines
        grantWaiting die fuel (grantTile (s.updDie die fun d => { d with waiting := r }) q)
      else s

/-- Release one pin on a line: a line whose count reaches zero is an ordinary line, and a decoded one is invalidated
(05/R106, 04/R85). -/
def unpinLine (die : Nat) (s : State) (l : Nat) : State :=
  let n := pinCount (s.die die) l
  if 1 < n then s.updDie die fun d => { d with pins := tabPut d.pins l (n - 1) }
  else
    let was := (tabFind (s.die die).decoded l).isSome
    let s := s.updDie die fun d => { d with pins := tabDel d.pins l, decoded := tabDel d.decoded l, badDec := d.badDec.filter (· ≠ l) }
    if was then invalidate s [l] else s

/-- Release pins on lines of a die; then waiting requests are tested (05/R105, R106). -/
def unpinLines (s : State) (die : Nat) (ls : List Nat) : State :=
  let s := ls.foldl (unpinLine die) s
  grantWaiting die ((s.die die).waiting.length) s

/-- The physical lines of a tile. -/
def Tile.lines (t : Tile) : List Nat := (t.vmap.map (·.2)).eraseDups

/-- Release a tile's pins. -/
def unpinTile (s : State) (t : Tile) : State :=
  match t.lines with
  | [] => s
  | l :: _ => if t.granted then unpinLines s (dieOf (64 * l)) t.lines else s

/-- Withdraw an island's waiting pin request. -/
def withdrawPin (s : State) (c i : Nat) : State :=
  { s with dies := tabMap (fun d => { d with waiting := d.waiting.filter fun q => ¬ (q.cl = c ∧ q.isl = i) }) s.dies }

/-- An island is claimed, becomes free, or is held for class 0: its pins are released and its state returns to Reset
(12/R288, R299). The downstream link is no part of that state: its snapshots stay (12/R297), and so does the cycle that a row of
BF16 still takes (01/R17). -/
def resetIsland (s : State) (c i : Nat) (h : Hold) : State :=
  let x := s.island c i
  let s := s.updIsland c i fun y => { hold := h, link := y.link, slot := y.slot }
  let s := withdrawPin s c i
  let s := match x.cur with
    | some t => unpinTile s t
    | none => s
  match x.pending with
  | some t => unpinTile s t
  | none => s

end Sys2Proof.Machine
end

