-- ==== Sys2Proof/Machine/Sends.lean ====
section
/-! DEFINITION. Member sets, what this member sends to others (18/R413-R424), and the end of a pod operation (18/R417, R422). -/

namespace Sys2Proof.Machine

/-! ## Member sets -/

/-- The members of a set word, in set order; none for a word that breaks 18/R416. -/
def podSet (w : Nat) : Option (List Nat) :=
  let first := bits w 9 0
  let count := bits w 19 10 + 1
  let stride := bits w 29 20
  if bits w 63 30 ≠ 0 ∨ (stride = 0 ∧ 1 < count) ∨ 1023 < first + (count - 1) * stride then none
  else some ((List.range count).map fun i => first + i * stride)

/-- Members of a set word that is well formed. -/
def podMembers (w : Word) : List Nat := (podSet w.toNat).getD []

/-- SWITCH of `PODID` (18/R423). -/
def podSwitch (s : State) : Bool := bit s.regs.podid.toNat 16

/-! ## Sending -/

/-- A value or a result of the tree, which goes by ordinary writes that its member answers (18/R424). -/
def PodBody.isWrite : PodBody → Bool
  | .treeValue _ _ _ _ => true
  | .result _ _ _ _ => true
  | _ => false

/-- Send a message to a member for an address: by the port that the hash picks, and, while that one is down and still drains, not
yet (18/R413). -/
def sendTo (s : State) (x : HeldMsg) : State :=
  if portWaits s x.dest x.addr then { s with unsent := s.unsent ++ [x] }
  else
    let p := portFor s x.dest x.addr
    { s with
      sent := s.sent ++ [⟨some x.dest, p, x.body⟩]
      treeOut := if x.body.isWrite then s.treeOut ++ [⟨x.dest, s.cycle, p⟩] else s.treeOut }

/-- Send the same body to each other member of a list that is up, for address y. -/
def sendEach (s : State) (ms : List Nat) (y : Nat) (b : PodBody) : State :=
  (ms.filter fun m => m ≠ s.member && memberUp s m).foldl (fun s m => sendTo s ⟨m, y, b⟩) s

/-- Messages whose port has drained are sent. -/
def sendHeld (s : State) : State := s.unsent.foldl sendTo { s with unsent := [] }

/-! ## The end of a pod operation -/

/-- A pod operation's ring slot completes (05/R124). -/
def podFinish (s : State) (x : PodOp) (err : Bool) : State :=
  looseComplete { s with
    podOps := s.podOps.filter fun y => y.id ≠ x.id
    early := s.early.filter fun e => x.op.isNone || e.set ≠ x.set || e.nth ≠ x.nth } x.asid x.hr x.roff x.slot.toNat err
    x.owner 0

/-- A combine fails at this participant (18/R422, R424): its slot completes with ERR, and every other participant is sent a
notice, or the combining switch is, which returns failure to them (R423; that it is told so, DESIGN CHOICE, log 60). -/
def podFail (s : State) (x : PodOp) : State :=
  podFinish (if podSwitch s then { s with sent := s.sent ++ [⟨none, some x.port, .failure x.set x.nth⟩] }
    else sendEach s (podMembers x.set) 0 (.failure x.set x.nth)) x true

end Sys2Proof.Machine
end

