-- ==== Sys2Proof/Machine/Draft.lean ====
section
/-! DEFINITION. Key-value pools in memory (13/R310-R313), sequence records (13/R314, R315) and the retirement of draft
windows (13/R325). -/

namespace Sys2Proof.Machine

/-! ## Memory behind a captured handle -/

/-- Where an offset behind a handle leads, with leaf rights R and W. -/
def kvPlace (s : State) (asid : BitVec 14) (h : Handle) (off : Nat) : Option Target :=
  match translate s asid (h.base.toNat + off) .atomic with
  | .ok t => some t
  | .error _ => none

/-- The physical address of an offset behind a handle, where it lies in local device memory (13/R311, R314). -/
def kvPa (s : State) (asid : BitVec 14) (h : Handle) (off : Nat) : Option Nat :=
  match kvPlace s asid h off with
  | some (.dev pa) => some pa
  | _ => none

/-- One byte behind a handle: of device memory, of the host or of another member; 0 where it cannot be reached (DESIGN
CHOICE, log 27). -/
def kvByte (s : State) (asid : BitVec 14) (h : Handle) (off : Nat) : Byte :=
  match kvPlace s asid h off with
  | some (.dev pa) => memGet s.mem pa
  | some (.host x) => memGet s.outside (hostAddr s x)
  | some (.peer m pa) => if memberUp s m then memGet s.outside (peerAddr m pa) else 0
  | _ => 0

/-- Read a value of n bytes behind a handle. -/
def kvRead (s : State) (asid : BitVec 14) (h : Handle) (off n : Nat) : Nat :=
  leNat ((List.range n).map fun i => kvByte s asid h (off + i))

/-- Write one byte behind a handle; one that cannot be reached is dropped (DESIGN CHOICE, log 27). -/
def kvPut (s : State) (asid : BitVec 14) (h : Handle) (off : Nat) (b : Byte) : State :=
  match kvPlace s asid h off with
  | some (.dev pa) => putPlain s pa [b]
  | some (.host x) => { s with outside := memPut s.outside (hostAddr s x) b }
  | some (.peer m pa) => if memberUp s m then { s with outside := memPut s.outside (peerAddr m pa) b } else s
  | _ => s

/-- Write a value of n bytes behind a handle. -/
def kvWrite (s : State) (asid : BitVec 14) (h : Handle) (off n v : Nat) : State :=
  (natLe n v).zipIdx.foldl (fun s x => kvPut s asid h (off + x.2) x.1) s

/-- n bytes behind a handle can be read and written: what fails is a precise fault (13/R316, 08/R453): of translation, of a
lost member, of a packed view, of data, a host-window request that times out among them (18/R410), or *record* where the bytes
are of scratch or of a register. A member that does not answer, or whose requests must wait for a port, is waited for, as in
`issueErr`. (DEDUCED, log 27.) -/
def kvReach (s : State) (asid : BitVec 14) (h : Handle) (off n : Nat) : Except Exc Unit :=
  foldE (fun _ p =>
    let e : Option Word := some (BitVec.ofNat 64 p.1)
    match translate s asid p.1 .atomic with
    | .error x => .error (.trap x none)
    | .ok (.dev pa) =>
      if inPacked s pa then trapWith cFormat 0 e else if badLine s pa then trapWith cData 0 e else .ok ()
    | .ok (.host _) => hostAnswers s s.core p.1
    | .ok (.peer m pa) =>
      if regionOf pa = .regs then trapWith cKv 3
      else if !memberUp s m then trapWith cPeer 0 e
      else if portWaits s m pa then stallNow
      else if !sends s m pa then .error (.stall (some { s with asked := some m }))
      else .ok ()
    | .ok _ => trapWith cKv 3) () (linesOf (h.base.toNat + off) n)

/-- Where a pool lives: the ASID and handle by which it is reached, and its block's offset (13/R310). -/
structure PoolRef where
  asid : BitVec 14
  h    : Handle
  off  : Nat
  deriving DecidableEq, Repr

/-- A field of the pool block (13 Table 13.1): its bits high:low. -/
def poolField (s : State) (p : PoolRef) (hi lo : Nat) : Nat :=
  bits (kvRead s p.asid p.h (p.off + lo / 64 * 8) 8) (hi - lo / 64 * 64) (lo % 64)

/-- Set a field of the pool block that lies in one doubleword. -/
def setPoolField (s : State) (p : PoolRef) (hi lo v : Nat) : State :=
  let o := p.off + lo / 64 * 8
  kvWrite s p.asid p.h o 8 (setBits (kvRead s p.asid p.h o 8) (hi - lo / 64 * 64) (lo % 64) v)

/-- PGOFF. -/
def plPg (s : State) (p : PoolRef) : Nat := poolField s p 63 0
/-- PDOFF. -/
def plPd (s : State) (p : PoolRef) : Nat := poolField s p 127 64
/-- HTOFF. -/
def plHt (s : State) (p : PoolRef) : Nat := poolField s p 191 128
/-- SLOFF. -/
def plSl (s : State) (p : PoolRef) : Nat := poolField s p 255 192
/-- NPG. -/
def plNpg (s : State) (p : PoolRef) : Nat := poolField s p 279 256
/-- ROWB. -/
def plRowb (s : State) (p : PoolRef) : Nat := poolField s p 287 280
/-- HLOG. -/
def plHlog (s : State) (p : PoolRef) : Nat := poolField s p 292 288
/-- FHEAD. -/
def plFhead (s : State) (p : PoolRef) : Nat := poolField s p 343 320
/-- FCNT. -/
def plFcnt (s : State) (p : PoolRef) : Nat := poolField s p 375 352
/-- RGOFF. -/
def plRg (s : State) (p : PoolRef) : Nat := poolField s p 447 384
/-- NSL. -/
def plNsl (s : State) (p : PoolRef) : Nat := poolField s p 471 448

/-- Bytes of a page. -/
def pageLen (s : State) (p : PoolRef) : Nat := 4096 * plRowb s p
/-- Offset of a page. -/
def pageOff (s : State) (p : PoolRef) (g : Nat) : Nat := plPg s p + g * pageLen s p
/-- Offset of row r of a page (13/R310). -/
def rowOff (s : State) (p : PoolRef) (g r : Nat) : Nat := pageOff s p g + 256 * plRowb s p * r

/-- A page descriptor (13 Table 13.2). -/
def pageDesc (s : State) (p : PoolRef) (g : Nat) : Nat := kvRead s p.asid p.h (plPd s p + 8 * g) 8
/-- Write a page descriptor. -/
def setDesc (s : State) (p : PoolRef) (g v : Nat) : State := kvWrite s p.asid p.h (plPd s p + 8 * g) 8 v

/-- ST of a descriptor. -/
def pdSt (d : Nat) : Nat := bits d 41 40
/-- REF. -/
def pdRef (d : Nat) : Nat := bits d 39 24
/-- LINK. -/
def pdLink (d : Nat) : Nat := bits d 23 0
/-- PUB. -/
def pdPub (d : Nat) : Bool := bit d 42
/-- HE. -/
def pdHe (d : Nat) : Nat := bits d 44 43

/-- Build a descriptor. -/
def mkDesc (win he pub st ref link : Nat) : Nat :=
  win * 2 ^ 45 + he * 2 ^ 43 + pub * 2 ^ 42 + st * 2 ^ 40 + ref % 65536 * 2 ^ 24 + link

/-- Offset of entry e of a bucket of the prefix table (13/R313). -/
def prefixOff (s : State) (p : PoolRef) (b e : Nat) : Nat := plHt s p + 128 * b + 32 * e

/-- The second half of a prefix entry, which holds PAGE, ROWS and V (13 Table 13.3). -/
def prefixHi (s : State) (p : PoolRef) (b e : Nat) : Nat := kvRead s p.asid p.h (prefixOff s p b e + 16) 8

/-- Unpublish a page (13/R312): its prefix entry is no longer valid. -/
def unpublish (s : State) (p : PoolRef) (g : Nat) : State :=
  let d := pageDesc s p g
  if pdPub d then
    let o := prefixOff s p (pdLink d) (pdHe d) + 16
    let s := kvWrite s p.asid p.h o 8 (setBits (kvRead s p.asid p.h o 8) 29 29 0)
    setDesc s p g (mkDesc (bits d 56 45) 0 0 (pdSt d) (pdRef d) 0)
  else s

/-- A descriptor's reserved bits are 0 (13 Table 13.2). -/
def descOk (s : State) (p : PoolRef) (g : Nat) : Bool := bits (pageDesc s p g) 63 57 = 0

/-- Free a page (13/R312): unpublished, pushed at the head of the free list. A descriptor with a nonzero reserved bit is rejected
(00/R8), and nothing of it performed: the page stays as it is (DESIGN CHOICE, log 74). -/
def freePage (s : State) (p : PoolRef) (g : Nat) : State :=
  if !descOk s p g then s
  else
    let s := unpublish s p g
    let s := setDesc s p g (mkDesc 0 0 0 0 0 (plFhead s p))
    setPoolField (setPoolField s p 343 320 g) p 375 352 (plFcnt s p + 1)

/-- Allocate the head page with a descriptor (13/R312). -/
def allocPage (s : State) (p : PoolRef) (desc : Nat) : State × Nat :=
  let g := plFhead s p
  let s := setPoolField s p 343 320 (pdLink (pageDesc s p g))
  let s := setPoolField s p 375 352 (plFcnt s p - 1)
  (setDesc s p g desc, g)

/-- Lower a page's REF, freeing it at 0 (13/R312), but for a descriptor that is rejected (DESIGN CHOICE, log 74). -/
def dropPage (s : State) (p : PoolRef) (g : Nat) : State :=
  let d := pageDesc s p g
  if !descOk s p g then s
  else if pdRef d ≤ 1 then freePage s p g
  else setDesc s p g (setBits d 39 24 (pdRef d - 1))

/-! ## Sequences -/

/-- The pool of a sequence, by its captured handle. -/
def Seq.poolRef (q : Seq) : PoolRef := ⟨q.asid, q.hk, q.pool.toNat⟩

/-- The record's header, list entry i and what precedes it in the entry's line can be reached (13/R315, 08/R453). -/
def recordReach (s : State) (q : Seq) (i : Nat) : Except Exc Unit :=
  (kvReach s q.asid q.hk q.recOff.toNat 128).bind fun _ => kvReach s q.asid q.hk (q.recOff.toNat + 128 + 4 * i) 4

/-- A list entry (13 Table 13.4). -/
def listEntry (s : State) (q : Seq) (i : Nat) : Nat := kvRead s q.asid q.hk (q.recOff.toNat + 128 + 4 * i) 4
/-- Write a list entry. -/
def setEntry4 (s : State) (q : Seq) (i v : Nat) : State := kvWrite s q.asid q.hk (q.recOff.toNat + 128 + 4 * i) 4 v
/-- PAGE of an entry. -/
def lePage (e : Nat) : Nat := bits e 23 0
/-- ST of an entry: 0 own, 1 shared, 2 slow, 3 draft. -/
def leSt (e : Nat) : Nat := bits e 30 29
/-- M of an entry. -/
def leM (e : Nat) : Nat := bits e 28 24
/-- Build an entry. -/
def mkList (page m st : Nat) : Nat := page + m * 2 ^ 24 + st * 2 ^ 29

/-- An open sequence by its index. -/
def seqAt (s : State) (i : Nat) : Option Seq := (tabGet s.seqs i {}).live

/-- Change an open sequence. -/
def updSeq (s : State) (i : Nat) (f : Seq → Seq) : State :=
  { s with seqs := tabUpd s.seqs i {} fun x => { x with live := x.live.map f } }

/-- Set NTOK and NPGE of a sequence, in the device's state and in its record (13/R315). -/
def setCounts (s : State) (i ntok npge : Nat) : State :=
  match seqAt s i with
  | none => s
  | some q =>
    let s := kvWrite s q.asid q.hk q.recOff.toNat 8 ntok
    let s := kvWrite s q.asid q.hk (q.recOff.toNat + 8) 3 npge
    updSeq s i fun q => { q with ntok := ntok, npge := npge }

/-! ## Windows -/

/-- A window index holds a window that has not retired. -/
def Window.unretired (w : Window) : Bool := w.st = .opened || w.st = .closing

/-- The windows of a sequence that have not retired, with their indices, in window-number order. -/
def seqWindows (s : State) (q : Nat) : List (Nat × Window) :=
  let l := s.wins.filterMap fun e =>
    match e.2.live with
    | some w => if w.seq = q ∧ w.unretired then some (e.1, w) else none
    | none => none
  l.foldl (fun acc x =>
    (acc.filter fun y => y.2.ord < x.2.ord) ++ [x] ++ acc.filter fun y => x.2.ord < y.2.ord) []

/-- Write masked bytes of a piece to memory, run by run; what would change a TAIL is discarded (16/R371). -/
def pieceWrite (s : State) : Piece → List (Byte × Bool) → State
  | [], _ => s
  | (a, n) :: r, data => pieceWrite (putMasked s a (maskTails (tailAddrs s) a (data.take n))) r (data.drop n)

/-- The addresses of a piece's bytes, in order. -/
def pieceAddrs (p : Piece) : List Nat := (p.map fun r => (List.range r.2).map (r.1 + ·)).flatten

/-- The lines of memory that take a written byte of a granule from a line that holds an uncorrectable error. -/
def granuleBad (s : State) (g : Granule) : List Nat :=
  ((pieceAddrs g.pc).zipIdx.filterMap fun x =>
    if g.wr.getLsbD x.2 && s.rel.badLines.contains ((g.slot + x.2) / 64) then some (x.1 / 64) else none).eraseDups

/-- The lines of a granule that hold a written byte. -/
def granuleLines (g : Granule) : List Nat :=
  (linesAt g.slot 256).filter fun l =>
    (List.range 256).any fun i => g.wr.getLsbD i && (g.slot + i) / 64 == l

/-- Write the bytes that a granule holds as written, its lines read (05/R102); an uncorrectable error goes with them (17/R403,
DESIGN CHOICE, log 19). -/
def flushGranule (s : State) (g : Granule) : State :=
  let bad := granuleBad s g
  let s := (granuleLines g).foldl touchLine s
  let s := pieceWrite s g.pc ((List.range 256).map fun i => (memGet s.mem (g.slot + i), g.wr.getLsbD i))
  if bad.isEmpty then s else { s with rel := { s.rel with badLines := bad ++ s.rel.badLines } }

/-- Step 2 of 13/R325: the kept rows, and the state regions of snapshot n. -/
def flushWindow (s : State) (w : Window) (n : Nat) : State :=
  let pieces := (w.rows.take n).flatten
  let s := (w.grans.filter fun g => g.snap = 0 ∧ pieces.contains g.pc).foldl flushGranule s
  if n = 0 then s else (w.grans.filter fun g => g.snap = n).foldl flushGranule s

/-- A draft page holds a row of positions 0 to n - 1 of the window. -/
def keepsPage (w : Window) (n : Nat) (d : DraftPage) : Bool :=
  (List.range n).any fun i => (w.first + i) / 16 = d.entry

/-- Step 3 of 13/R325 for one draft page; a descriptor that is rejected stays as it is (DESIGN CHOICE, log 74). -/
def settlePage (s : State) (q : Seq) (w : Window) (n : Nat) (d : DraftPage) : State :=
  let p := q.poolRef
  if keepsPage w n d then
    let s := if descOk s p d.page then setDesc s p d.page (mkDesc 0 0 0 1 (pdRef (pageDesc s p d.page)) 0) else s
    let s := setEntry4 s q d.entry (mkList d.page 0 0)
    match d.copy with
    | some old => dropPage s p old
    | none => s
  else freePage s p d.page

/-- Nodes that wait for a free granule try again (13/R328). -/
def wakeShadow (s : State) : State :=
  let fixHeld := fun (h : Held) => if h.st = .shadow then { h with st := .waiting } else h
  let fixNode := fun (n : NodeSt) => { n with held := n.held.map fixHeld }
  { s with clusters := tabMap (fun c => { c with casts := tabMap (fun (x : CastSlot) =>
      { x with live := x.live.map fun k => { k with nodes := tabMap fixNode k.nodes } }) c.casts }) s.clusters }

/-- A window retires, keeping n positions, without regard to later windows (13/R325 steps 2 to 5). -/
def retireOne (s : State) (i n : Nat) : State :=
  match (tabGet s.wins i {}).live with
  | none => s
  | some w =>
    let s := flushWindow s w n
    let s := match seqAt s w.seq with
      | none => s
      | some q =>
        let s := w.pages.foldl (fun s d => settlePage s q w n d) s
        let ntok := q.ntok + n
        setCounts s w.seq ntok (Nat.max q.npge ((ntok + 15) / 16))
    wakeShadow (s.updWindow i fun w => { w with
      st := if n = 0 then .aborted else .committed, keep := n, grans := [], pages := [], rows := [], regions := [] })

/-- The commit point of a window (13/R325): it retires keeping n positions; when it keeps fewer than it appended, every
later window of its sequence is aborted in the same step. -/
def retireWindow (s : State) (i n : Nat) : State :=
  match (tabGet s.wins i {}).live with
  | none => s
  | some w =>
    let s' := retireOne s i n
    if n < w.napp then
      ((seqWindows s w.seq).filter fun x => w.ord < x.2.ord).foldl (fun s x => retireOne s x.1 0) s'
    else s'

/-- Free a window index (13 Table 13.8). -/
def freeWindow (s : State) (i : Nat) : State :=
  { s with wins := tabUpd s.wins i {} fun x =>
      { gen := if x.gen = 2 ^ 20 - 1 then 1 else x.gen + 1, live := none } }

/-- Every window of a completed launch is aborted, in window-number order, and its index freed (13/R325). -/
def abortWindows (s : State) (l : LaunchRef) : State :=
  let mine := s.wins.filterMap fun e =>
    match e.2.live with
    | some w => if w.launch = l then some (e.1, w) else none
    | none => none
  let ordered := mine.foldl (fun acc x =>
    (acc.filter fun y => y.2.ord ≤ x.2.ord) ++ [x] ++ acc.filter fun y => x.2.ord < y.2.ord) []
  let s := ordered.foldl (fun s x =>
    match (tabGet s.wins x.1 {}).live with
    | some w => if w.unretired then retireWindow s x.1 0 else s
    | none => s) s
  mine.foldl (fun s x => freeWindow s x.1) s

end Sys2Proof.Machine
end

