-- ==== Sys2Proof/Machine/Life.lean ====
section
/-! DEFINITION. The ends of things: castings killed (09/R230), threads finished and restored (16/R386, 17/R396),
launches completed and killed (16/R387, 17/R394), curds abandoned (07/R170), and choosing a channel (15/R355). -/

namespace Sys2Proof.Machine

/-! ## Castings -/

/-- The state of a fabric instruction, by 128 × block + slot. -/
def nodeOf (k : CastLive) (key : Nat) : NodeSt := tabGet k.nodes key {}

/-- Keys of every instruction of a casting. -/
def nodeKeys (k : CastLive) : List Nat :=
  let rec go : Nat → List Block → List Nat
    | _, [] => []
    | b, x :: r => (List.range x.code.length).map (128 * b + ·) ++ go (b + 1) r
  go 0 k.blocks

/-- Least of a list, or a default when it is empty. -/
def minNat (d : Nat) : List Nat → Nat
  | [] => d
  | x :: r => r.foldl Nat.min x

/-- Invocations that have retired: every instruction has passed the marker on and every output port's marker has been
pulled (09/R220). The oldest unretired invocation has this number. -/
def retiredCount (k : CastLive) : Nat :=
  minNat 0 ((nodeKeys k).map (fun n => (nodeOf k n).inv) ++ k.outs.map fun o => o.2.pulled)

/-- Curds of a cluster that the casting now at an index allocated in invocation `from'` or later and that are still open. -/
def openCurdsOf (s : State) (cid from' : Nat) : List Nat :=
  (liveCurds (s.cluster (cid / 256))).filterMap fun e =>
    match e.2.cast with
    | some (r, v) => if r = castRef s cid ∧ from' ≤ v ∧ !e.2.isSealed then some e.1 else none
    | none => none

/-- Free the downstream-link slots that hold snapshots of a casting's nodes (12/R297). -/
def dropSnapshots (s : State) (cid : Nat) : State :=
  s.updCluster (cid / 256) fun x => { x with
    islands := tabMap (fun i => { i with link := i.link.filter fun q => q.node.cast ≠ cid }) x.islands }

/-- Castings of a launch whose id is live, as cluster and index (07/R170, 16/R387). -/
def castsOf (s : State) (l : LaunchRef) : List Nat :=
  (s.clusters.map fun c => c.2.casts.filterMap fun e =>
    match e.2.live with
    | some k => if k.launch = l then some (256 * c.1 + e.1) else none
    | none => none).flatten

/-- Threads of a launch that remain on a core or in a context store, by rank. -/
def ranksOf (s : State) (l : LaunchRef) : List Nat :=
  (s.threads.filterMap fun e => if e.2.ref.l = l then some e.2.ref.rank else none) ++
  s.saved.filterMap fun e => if e.2.ref.l = l then some e.2.ref.rank else none

/-- The thread a fault goes to: a given one while it remains, else the launch's thread of lowest rank (07/R170, 12/R299). -/
def orLowest (s : State) (r : ThreadRef) : ThreadRef :=
  let ranks := ranksOf s r.l
  if ranks.contains r.rank then r else ⟨r.l, minNat r.rank ranks⟩

/-- The *underread* faults of a launch whose live castings have fallen to zero (07/R170). -/
def underread (s : State) (l : LaunchRef) : State :=
  if !(castsOf s l).isEmpty ∨ (ranksOf s l).isEmpty then s
  else
    s.clusters.foldl (fun s c =>
      (liveCurds c.2).foldl (fun s e =>
        if e.2.launch = l ∧ e.2.strict ∧ !e.2.raised ∧ !e.2.leaving ∧ 0 < e.2.fin then
          let h := mkCurd c.1 e.2.part e.1 (curdSlot s c.1 e.1).gen
          let s := updCurd s c.1 e.1 fun k => { k with raised := true }
          sendFault s (orLowest s e.2.owner) srcPool ⟨cCurd, 9, some (BitVec.ofNat 64 h), 0⟩ 0 none
        else s) s) s

/-- Kill a casting (09/R230). -/
def killCasting (s : State) (cid : Nat) : State :=
  match (castSlot s cid).live with
  | none => s
  | some k =>
    let c := cid / 256
    let s := (k.nodes.map fun n => n.2.shares).flatten.foldl (fun s x => rollShare s c x.2) s
    let s := (openCurdsOf s cid (retiredCount k)).foldl (fun s i => returnCurd s c i) s
    let s := dropSnapshots s cid
    let s := s.updCluster c fun x => { x with spill := x.spill.filter fun e => e.node.cast ≠ cid }
    let s := { s with waiting := s.waiting.filter fun w => w.cast ≠ some cid }
    let s := updCastSlot s cid fun x => { gen := if x.gen = 2 ^ 19 - 1 then 1 else x.gen + 1, live := none }
    underread s k.launch

/-! ## Carve-outs -/

/-- Unmap the carve-out of a core's thread (06/R154). -/
def unmapCarve (s : State) (key pages : Nat) : State :=
  let c := keyCluster key
  (List.range pages).foldl (fun s p =>
    let k := 2048 * carveSpace key + p
    let e := sttEntry s c k
    let s := freeFrame (setEntry s c k 0) c (eFrame e)
    forgetPage (s.updCluster c fun x => { x with slots := x.slots.erase (eSlot e) }) c k) s

/-- Pinned pages of a saved thread stand apart from those of the core's present thread (17/R396). -/
def savedPin (k : Nat) : Nat := k + 2 ^ 21

/-- Free the carve-out of a saved thread, from the entries in its context store. -/
def unmapSaved (s : State) (key : Nat) : State :=
  let c := keyCluster key
  let es := (tabGet s.savedTab key []).zipIdx
  es.foldl (fun s x =>
    let e := x.1.toNat
    let s := freeFrame s c (eFrame e)
    let s := s.updCluster c fun y => { y with slots := y.slots.erase (eSlot e) }
    forgetPage s c (savedPin (2048 * carveSpace key + x.2))) { s with savedTab := tabDel s.savedTab key }

/-- Move a running thread into its core's context store (17/R396). -/
def saveThread (s : State) (key : Nat) : State :=
  match s.threadAt key with
  | none => s
  | some t =>
    let c := keyCluster key
    let ks := (List.range t.carve).map (2048 * carveSpace key + ·)
    let es := ks.map fun k => BitVec.ofNat 64 (sttEntry s c k)
    let s := ks.foldl (fun s k =>
      let f := eFrame (sttEntry s c k)
      (setEntry s c k 0).updCluster c fun x => { x with
        frames := tabPut x.frames f (.saved k)
        lru := x.lru.filter (· ≠ k)
        pinned := (x.pinned.filter (· ≠ k)) ++ [savedPin k] }) s
    { s with threads := tabDel s.threads key, saved := tabPut s.saved key t, savedTab := tabPut s.savedTab key es }

/-- Restore the saved thread of a core exactly (17/R396). -/
def restoreThread (s : State) (key : Nat) : State :=
  match tabFind s.saved key with
  | none => s
  | some t =>
    let c := keyCluster key
    let es := (tabGet s.savedTab key []).zipIdx
    let s := es.foldl (fun s x =>
      let k := 2048 * carveSpace key + x.2
      (setEntry s c k x.1.toNat).updCluster c fun y => { y with
        frames := tabPut y.frames (eFrame x.1.toNat) (.page k)
        pinned := (y.pinned.filter (· ≠ savedPin k)) ++ [k] }) s
    { s with saved := tabDel s.saved key, savedTab := tabDel s.savedTab key, threads := tabPut s.threads key t }

/-! ## Launches -/

/-- A started launch. -/
def launchOf (s : State) (l : LaunchRef) : Option Launch := s.launches.find? fun x => x.ref = l

/-- The launch whose entry or schedule a queue works on. -/
def queueOwner (q : SQueue) : Option LaunchRef :=
  match q.entries with
  | e :: _ => some e.owner.l
  | [] => q.sched.map (·.owner.l)

/-- A queue after a launch has ended: no unbegun entry of it, no schedule of it, and no halt at an entry of it (17/R394: its
source stays halted until the launch completes, DEDUCED, log 42). -/
def queueWithout (l : LaunchRef) (q : SQueue) : SQueue :=
  { q with
    entries := q.entries.filter fun e => !(decide (e.owner.l = l) && !e.begun)
    sched := q.sched.filter fun d => d.owner.l ≠ l
    halt := if queueOwner q = some l then none else q.halt
    haltPage := if queueOwner q = some l then none else q.haltPage }

/-- Discard the unbegun entries and the schedules of a launch (05/R121): each discarded entry's slot completes with
ERR, and its curd share is rolled back; so is that of an entry that a schedule has read and not yet accepted (05/R126). -/
def discardCopies (s : State) (l : LaunchRef) : State :=
  s.clusters.foldl (fun s c =>
    c.2.queues.foldl (fun s q =>
      let gone := q.2.entries.filter fun e => decide (e.owner.l = l) && !e.begun
      let head := if q.2.entries.isEmpty then (q.2.sched.filter fun d => d.owner.l = l).bind fun d => d.head else none
      let s := s.updCluster c.1 fun x => { x with queues := tabUpd x.queues q.1 {} (queueWithout l) }
      let s := match head with
        | some x => if x.share then rollShare s c.1 (chIndex x.shape.scurd.toNat) else s
        | none => s
      gone.foldl (fun s e =>
        let s := if e.share then rollShare s c.1 (chIndex e.shape.scurd.toNat) else s
        looseComplete s e.asid e.hr e.roff e.slot.toNat true e.owner (queueWho (q.1 / 8) (q.1 % 8))) s) s) s

/-- Free a completed launch's islands (12/R287, R304). -/
def freeIslands (s : State) (l : LaunchRef) : State :=
  s.clusters.foldl (fun s c =>
    c.2.islands.foldl (fun s i =>
      match i.2.hold with
      | .held h _ => if h = l then resetIsland s c.1 i.1 .free else s
      | .forClass0 (some h) => if h = l then s.updIsland c.1 i.1 fun x => { x with hold := .free } else s
      | _ => s) s) s

/-- Drop every pending share of a curd that is abandoned (07/R170), but those of copies that have begun, which go on reading
under them (07/R165). -/
def dropShares (s : State) (c i : Nat) : State :=
  let fixT := fun (t : Thread) => { t with
    shares := t.shares.filter (· ≠ i), finals := t.finals.filter fun f => f.1 ≠ i }
  let fixK := fun (e : Nat × Thread) => if keyCluster e.1 = c then (e.1, fixT e.2) else e
  let fixX := fun (x : Launch) => { x with shares := x.shares.filter fun f => f ≠ (c, i) }
  let s := { s with threads := s.threads.map fixK, saved := s.saved.map fixK, launches := s.launches.map fixX }
  let fixN := fun (n : NodeSt) => { n with shares := n.shares.filter fun p => p.2 ≠ i }
  let fixL := fun (k : CastLive) => { k with nodes := tabMap fixN k.nodes }
  let fixC := fun (y : CastSlot) => { y with live := y.live.map fixL }
  let fixE := fun (e : CopyEntry) =>
    if e.share ∧ !e.begun ∧ chIndex e.shape.scurd.toNat = i then { e with share := false } else e
  let fixH := fun (x : SchedHead) => if chIndex x.shape.scurd.toNat = i then { x with share := false } else x
  let fixD := fun (d : Sched) => { d with head := d.head.map fixH }
  let fixQ := fun (q : SQueue) => { q with entries := q.entries.map fixE, sched := q.sched.map fixD }
  s.updCluster c fun x => { x with casts := tabMap fixC x.casts, queues := tabMap fixQ x.queues }

/-- Copies in progress that read a curd under a share. -/
def copiesOf (x : Cluster) (i : Nat) : Nat :=
  sumNat (x.queues.map fun q =>
    (q.2.entries.filter fun e => e.share && e.begun && chIndex e.shape.scurd.toNat = i).length)

/-- Abandon a curd (07/R170): it is stale at once, and its frames return when the copies in progress have read it
(07/R165). -/
def abandonCurd (s : State) (c i part : Nat) : State :=
  let s := dropShares s c i
  let s := settleCurd (updCurd s c i fun k => { k with leaving := true, pend := copiesOf (s.cluster c) i }) c i
  { s with regs := { s.regs with underrd := tabUpd s.regs.underrd (16 * c + part) 0 (satCount · 1) } }

/-- The curds of a completed launch are abandoned (07/R170). -/
def abandonCurds (s : State) (l : LaunchRef) : State :=
  s.clusters.foldl (fun s c =>
    ((liveCurds c.2).filter fun e => e.2.launch = l ∧ !e.2.leaving).foldl (fun s e =>
      abandonCurd s c.1 e.1 e.2.part) s) s

/-- Add 1 to a launch's completion counter (16/R387); one that cannot be reached is left, and one in the scratch aperture is that
of cluster 0, for the dispatcher is a unit of no cluster (DESIGN CHOICE, log 28). -/
def bumpCounter (s : State) (r : Record) : State :=
  if r.den then
    match (r.roots[r.doneh]?) with
    | none => s
    | some h =>
      match atomicAt s ⟨r.asid, 0, 0, none, false⟩ ((h.base.toNat + r.doneoff.toNat) % 2 ^ 56) 8 0
          (fun v => (v + 1) % 2 ^ 64) with
      | .ok g => g.st
      | .error _ => s
  else s

/-- A copy of a launch has begun, and goes on (05/R121). -/
def copying (s : State) (l : LaunchRef) : Bool :=
  s.clusters.any fun c => c.2.queues.any fun q => q.2.entries.any fun e => decide (e.owner.l = l) && e.begun

/-- Steps 2 and 3 of a completion (16/R387), for each launch whose last copy has ended: its release and its completion counter
wait for the copies of it that had begun, so that its entries are complete as seen by whoever reads the counter. (DEDUCED,
log 40.) -/
def settleLaunches (s : State) : State :=
  (s.closing.filter fun x => !copying s x.ref).foldl (fun s x =>
    bumpCounter { s with closing := s.closing.filter fun y => y.ref ≠ x.ref } x.record) s

/-- A launch completes (16/R387). (DEDUCED, log 40.) -/
def completeLaunch (s : State) (l : LaunchRef) : State :=
  match launchOf s l with
  | none => s
  | some x =>
    let s := { s with launches := s.launches.filter fun y => y.ref ≠ l }
    let s := abandonCurds (abortWindows (freeIslands (discardCopies s l) l) l) l
    settleLaunches { s with closing := s.closing ++ [x] }

/-- Complete a launch whose threads have finished and whose castings have ended. -/
def checkComplete (s : State) (l : LaunchRef) : State :=
  if (ranksOf s l).isEmpty ∧ (castsOf s l).isEmpty then completeLaunch s l else s

/-- Castings that a thread loaded and whose id is live. -/
def castsBy (s : State) (r : ThreadRef) : List Nat :=
  (castsOf s r.l).filter fun c =>
    match (castSlot s c).live with
    | some k => k.loader = r
    | none => false

/-- The core is one whose window file or context store is to be retired (17 Table 17.5). -/
def coreGone (s : State) (key : Nat) : Bool :=
  s.rel.retired.contains (.windowFile key) || s.rel.retired.contains (.contextStore key)

/-- A core frees: it is retired now if it is to be (17 Table 17.5). -/
def coreFrees (s : State) (key : Nat) : State :=
  if coreGone s key ∧ (s.threadAt key).isNone then countRetired s 32 else s

/-- Take a thread off its core: its carve-out is unmapped, its core is free, and a saved thread of the core is
restored (16/R386, 17/R396). What the core held of it stays to be read (00/R10). -/
def removeThread (s : State) (key : Nat) (t : Thread) : State :=
  let s := unmapCarve s key t.carve
  let s := { s with
    threads := tabDel s.threads key
    left := tabPut s.left key t
    waiting := s.waiting.filter fun w => w.target ≠ t.ref
    launches := s.launches.map fun x => if x.ref = t.ref.l then { x with live := x.live.erase t.ref.rank } else x }
  coreFrees (restoreThread s key) key

/-- The pending shares of a thread that finishes stay pending, under its launch (07 Table 7.4). -/
def keepShares (s : State) (key : Nat) (t : Thread) : State :=
  { s with launches := s.launches.map fun x =>
      if x.ref = t.ref.l then { x with shares := x.shares ++ t.shares.map fun i => (keyCluster key, i) } else x }

/-- A control thread finishes (16/R386): it leaves its core, and the castings that it loaded are killed. -/
def finishThread (s : State) (key : Nat) : State :=
  match s.threadAt key with
  | none => s
  | some t =>
    let cs := castsBy s t.ref
    let s := cs.foldl (fun s c => killCasting s c) (removeThread (keepShares s key t) key t)
    checkComplete s t.ref.l

/-- A killed thread's pending curd shares are rolled back, and those that a `cfin` has made final are applied (07 Table
7.4, R177). -/
def rollThread (s : State) (key : Nat) (t : Thread) : State :=
  let s := t.finals.foldl (fun s f => finalShare s (keyCluster key) f.1) s
  t.shares.foldl (fun s i => rollShare s (keyCluster key) i) s

/-- So are the pending shares of threads of a killed launch that had finished. -/
def rollLaunch (s : State) (l : LaunchRef) : State :=
  match launchOf s l with
  | none => s
  | some x =>
    let s := { s with launches := s.launches.map fun y => if y.ref = l then { y with shares := [] } else y }
    x.shares.foldl (fun s f => rollShare s f.1 f.2) s

/-- Kill a launch: every thread and casting of it ends, and it completes (17/R394, 18/R411);
its part of a combine fails, and the other participants are told (18/R420, R422). (DEDUCED, log 40.) -/
def killLaunch (s : State) (l : LaunchRef) : State :=
  let s := rollLaunch ((castsOf s l).foldl (fun s c => killCasting s c) s) l
  let s := (s.saved.filter fun e => e.2.ref.l = l).foldl (fun s e =>
    let s := unmapSaved (rollThread s e.1 e.2) e.1
    { s with saved := tabDel s.saved e.1, waiting := s.waiting.filter fun w => w.target ≠ e.2.ref }) s
  let s := (s.threads.filter fun e => e.2.ref.l = l).foldl (fun s e =>
    removeThread (rollThread s e.1 e.2) e.1 e.2) s
  let s := (s.podOps.filter fun x => decide (x.owner.l = l) && x.op.isSome).foldl podFail s
  completeLaunch s l

/-- A double fault, or a fault with no handler: the launch is killed and the fault posted (17/R394). -/
def killFaulted (s : State) (l : LaunchRef) (f : FaultRec) : State :=
  postEvent (killLaunch s l) .kill f.cause f.addr f.who

/-! ## Choosing a channel -/

/-- Channels that could be entered (15/R355). -/
def candidates (t : Thread) : List Nat :=
  (List.range 16).filter fun c => (channel t c).en && !(channel t c).box.isEmpty

/-- The channel that the arbiter chooses: lowest PRI, then the first after the one last entered at that PRI. -/
def chooseChannel (t : Thread) : Option Nat :=
  let cs := candidates t
  match cs with
  | [] => none
  | _ =>
    let pri := minNat 7 (cs.map fun c => (channel t c).pri.toNat)
    let at' := cs.filter fun c => (channel t c).pri.toNat = pri
    let last := tabGet t.lastPri pri 15
    match at'.find? (fun c => last < c) with
    | some c => some c
    | none => at'.head?

/-- Enter a channel (15/R355); a restart label that waits is taken at once (12/R299). (DEDUCED, log 67.) -/
def enterChannel (t : Thread) (c : Nat) : Thread :=
  let ch := channel t c
  let m := ch.box.headD 0
  let t := zeroFile { t with
    chans := tabPut t.chans c { ch with box := ch.box.drop 1 }
    base := 0, depth := 1, fsize := 0, entered := false, ret := 0, callers := [], nres := 1, loops := []
    lastPri := tabPut t.lastPri ch.pri.toNat c
    chrun := c, priv := ch.priv, running := true, pc := t.relabel.getD ch.entry, relabel := none } (List.range 8)
  setCell (setCell t (.file 0) ⟨m, .full⟩) (.file 1) ⟨BitVec.ofNat 64 c, .full⟩

/-- A thread stands at a channel choice: it enters a channel, idles, or finishes when no channel is enabled and no
producer is outstanding (15/R355, 16/R386), nor a release write of its own waits (DESIGN CHOICE, log 75). -/
def channelChoice (s : State) (key : Nat) : State :=
  match s.threadAt key with
  | none => s
  | some t =>
    match chooseChannel t with
    | some c => s.setThread key (enterChannel t c)
    | none =>
      if ((List.range 16).all fun c => !(channel t c).en) ∧ outst t = 0 ∧ t.rels.isEmpty then finishThread s key
      else s.setThread key { t with running := false }

end Sys2Proof.Machine
end

