-- ==== Sys2Proof/Machine/Spill.lean ====
section
/-! DEFINITION. The spill queue of stream translation faults (04/R97), and requests of `ag` held for their descriptor
(11/R279, R286). -/

namespace Sys2Proof.Machine

/-- Key of a fabric instruction within its casting. -/
def nodeKey (n : NodeRef) : Nat := 128 * n.blk + n.slot

/-- Change the state of a fabric instruction. -/
def updNode (s : State) (n : NodeRef) (f : NodeSt → NodeSt) : State :=
  updCast s n.cast fun k => { k with nodes := tabUpd k.nodes (nodeKey n) {} f }

/-- Set how the held access with a given number stands. -/
def setHeld (x : NodeSt) (taken : Nat) (st : HeldState) : NodeSt :=
  { x with held := x.held.map fun h => if h.taken = taken then { h with st := st } else h }

/-- A leaf cut down to the 64 KiB page of an address, as a stream or an edge TLB holds it (04/R96). -/
def streamLeaf (l : TlbEntry) (va : Nat) : TlbEntry :=
  { l with vbase := va / 65536 * 65536, bits := 16, pbase := l.pbase + va % 2 ^ l.bits / 65536 * 65536 }

/-- A walk made for a stream fills the edge TLB of its cluster, which holds 4,096 entries; the oldest leaves (04/R96, DESIGN
CHOICE, log 4). -/
def fillEdge (s : State) (c : Nat) (l : TlbEntry) : State :=
  s.updCluster c fun x => { x with edge := if x.edge.contains l then x.edge else (l :: x.edge).take 4096 }

/-- An address that no entry of the stream maps is looked up in the edge TLB, or walked for (04/R96): what that changes. `own` is
the stream's entry. -/
def noteStream (s : State) (c : Nat) (own : Option TlbEntry) (asid : BitVec 14) (va : Nat) : State :=
  let extra := own.toList ++ (s.cluster c).edge
  if isScratch va ∨ extra.any (fun e => e.hits asid va) then s
  else
    match leafFor s [] asid va with
    | .ok l => fillEdge (noteWalk s [] asid va) c (streamLeaf l va)
    | .error _ => noteWalk s [] asid va

/-- Translate one queued element again (04/R97): it leaves the queue and waits to be performed, or it faults again, the fault of
its stream. (DEDUCED, log 51.) -/
def respillOne (r : ThreadRef) (s : State) (e : SpillElem) : State :=
  match (castSlot s e.node.cast).live with
  | none => s
  | some k =>
    let c := e.node.cast / 256
    let s := noteStream s c none k.asid e.va
    match translateTable s (s.cluster c).edge k.asid e.va (if e.store then .store else .load) with
    | .ok _ =>
      updNode (s.updCluster c fun x => { x with spill := x.spill.erase e }) e.node fun x => setHeld x e.taken .waiting
    | .error ex => sendFault s r srcSpill ex 0 (some e.node.cast) (some ⟨e.node, (castSlot s e.node.cast).gen⟩)

/-- Held requests of a node that wait for `eret` outside the spill queue, those of `ag`, are read again (11/R286). -/
def retryRequests (s : State) (n : NodeRef) : State :=
  let queued := (s.cluster (n.cast / 256)).spill
  let again := fun (h : Held) => h.st = .spilled && !queued.any fun q => decide (q.node = n) && q.taken == h.taken
  updNode s n fun x => { x with held := x.held.map fun h => if again h then { h with st := .waiting } else h }

/-- What the `eret` of the handler that a stream's fault was delivered to does for the stream (04/R97, 11/R286): its queued
elements are translated again in queue order. A thread's other streams are left alone. -/
def respill (s : State) (r : ThreadRef) (x : StreamRef) : State :=
  if (castSlot s x.node.cast).gen ≠ x.gen then s
  else
    let queued := (s.cluster (x.node.cast / 256)).spill.filter fun e => e.node = x.node
    retryRequests (queued.foldl (respillOne r) s) x.node

end Sys2Proof.Machine
end

