-- ==== Sys2Proof/Machine/Ops.lean ====
section
/-! DEFINITION. Issuing an instruction (00/R6, 15/R346, R349), taking a fault (17/R389-R394) and returning from one
(17/R393). -/

namespace Sys2Proof.Machine

/-- What a meaning answers. -/
abbrev Answer := Host.Outcome State Fault Refusal

/-! ## Taking a fault -/

/-- `ESAVE` (17 Table 17.2). -/
def esaveOf (t : Thread) : Word :=
  BitVec.ofNat 64 (t.fsize + 2 ^ 6 * b2n t.entered + 2 ^ 7 * b2n t.priv + 2 ^ 8 * t.base
    + 2 ^ 17 * (t.depth % 65536) + 2 ^ 33 * t.loops.length)

/-- The file positions of the fault frame that delivery makes over a thread. -/
def faultBase (t : Thread) : Nat := (t.base + Nat.max t.fsize 8) % 512

/-- The frame that delivery interrupts, kept below the fault frame; a thread at a channel choice has none. -/
def interrupted (t : Thread) : List FrameRec :=
  if t.depth = 0 then [] else ⟨t.base, t.fsize, t.ret, t.entered⟩ :: t.callers

/-- Delivery of a fault record to a thread that has a handler and is not in fault mode (17/R391). -/
def enterFault (t : Thread) (f : FaultRec) (epc : Word) : Thread :=
  let base := faultBase t
  let u := { t with
    saved := some ⟨epc, t.base, t.fsize, t.entered, t.depth, t.loops, t.priv, t.ret, t.callers.length⟩
    ecause := f.cause, epc := epc, eaddr := f.addr, ewho := f.who, efrom := f.from', esave := esaveOf t
    estream := f.of'
    callers := interrupted t
    nres := (if t.depth = 0 then 0 else t.nres) + 1
    base := base, fsize := 32, entered := true, ret := 0, loops := [], depth := 1, pc := t.fvec, running := true }
  let u := zeroFile u ((List.range 32).map fun i => (base + i) % 512)
  let u := setCell u (.file (base % 512)) ⟨f.cause, .full⟩
  let u := setCell u (.file ((base + 1) % 512)) ⟨epc, .full⟩
  let u := setCell u (.file ((base + 2) % 512)) ⟨f.addr, .full⟩
  setCell u (.file ((base + 3) % 512)) ⟨f.who, .full⟩

/-- Take a fault (17/R389-R394): delivery to the thread's handler, or, in fault mode or with no handler, the launch is
killed and the fault posted. -/
def deliver (s : State) (key : Nat) (f : FaultRec) (epc : Word) : State :=
  match s.threadAt key with
  | none => s
  | some t =>
    if t.saved.isSome ∨ t.fvec = 0 then killFaulted s t.ref.l f else s.setThread key (enterFault t f epc)

/-- The saved PC of a precise trap: the instruction, or for `trap` the next one (15/R364). -/
def trapPc (t : Thread) (e : Exn) : Word := if e.cause = cTrap then t.pc + 4 else t.pc

/-- Take a precise trap at the instruction of a thread. -/
def takeTrap (s : State) (key : Nat) (t : Thread) (e : Exn) : State :=
  deliver (recordOf s srcInstr e 0).2 key (recordOf s srcInstr e 0).1 (trapPc t e)

/-! ## Issuing -/

/-- The state after an attempt: its own, after a wait what the wait keeps, after a trap the delivery. -/
def settle (s : State) (key : Nat) (t : Thread) : Except Exc State → State
  | .ok s' => s'
  | .error (.stall keep) => keep.getD s
  | .error (.trap e keep) => takeTrap (keep.getD s) key t e

/-- Try an instruction at the acting thread: the entered test (15/R346), the register names (08/R182), then its
body. The entered test and the names so come before a privilege test, which is of the body: of an unprivileged `fmt.win` or
`cpart` that also names a register outside the frame, or stands in a frame that has not been entered, the trap taken is the
frame's (DESIGN CHOICE, log 72). -/
def attempt (s : State) (entered : Bool) (names : List Reg) (body : Nat → Thread → Except Exc State) : Answer :=
  match s.threadAt s.core with
  | none => .fault .noThread
  | some t =>
    .next (settle s s.core t (
      if entered && !t.entered then trapWith cIllegal 1
      else
        match namesOk t names with
        | .error e => .error e
        | .ok _ => body s.core t))

/-- Complete without a transfer (15/R349): the end test at the instruction's last word. -/
def complete (s : State) (key : Nat) (last : Word) : State := s.updThread key fun t => endTest t last

/-- Issue an instruction whose body changes the state; it then completes. `more` is the bytes of its words after the
first. -/
def issueWith (more : Word) (s : State) (names : List Reg) (body : Nat → Thread → Except Exc State) : Answer :=
  attempt s true names fun key t =>
    match body key t with
    | .error e => .error e
    | .ok s => .ok (complete s key (t.pc + more))

/-- Issue an instruction of one word. -/
def issue (s : State) (names : List Reg) (body : Nat → Thread → Except Exc State) : Answer := issueWith 0 s names body

/-- Issue an instruction that changes its own thread alone. -/
def issueOwnWith (more : Word) (s : State) (names : List Reg) (body : Thread → Except Exc Thread) : Answer :=
  attempt s true names fun key t =>
    match body t with
    | .error e => .error e
    | .ok t' => .ok (s.setThread key (endTest t' (t.pc + more)))

/-- Issue an instruction of one word that changes its own thread alone. -/
def issueOwn (s : State) (names : List Reg) (body : Thread → Except Exc Thread) : Answer := issueOwnWith 0 s names body

/-- Issue a transfer: the body leaves the PC where the thread goes on. -/
def issueJump (s : State) (names : List Reg) (body : Nat → Thread → Except Exc State) : Answer :=
  attempt s true names body

/-! ## Returning from a fault -/

/-- Leave the fault handler (17/R393), the waits and the legality tests done: fill the interrupted frame when it is not
resident, restore what delivery saved, resume at `EPC`. A thread that was idle, and was moved to a restart label, takes the label
in its next handler, or the `EPC` that its fault handler has written since (12/R299; DEDUCED, log 53). -/
def leaveFault (s : State) (key : Nat) (t : Thread) (c : SavedCtx) : Except Exn (State × Thread) :=
  let restored := { t with
    saved := none, estream := none, base := c.base, fsize := c.fsize, entered := c.entered, depth := c.depth, loops := c.loops
    priv := c.priv, ret := c.ret, callers := t.callers.drop 1, nres := t.nres - 1, pc := t.epc
    running := c.depth ≠ 0, relabel := t.relabel.map fun l => if t.epc = c.pc then l else t.epc }
  match t.callers with
  | [] => .ok (s, restored)
  | f :: _ =>
    if 2 ≤ t.nres then .ok (s, restored)
    else
      match fillFrame s key restored f with
      | .error e => .error e
      | .ok (s, u, g) => .ok (s, { u with nres := 1, ret := g.ret })

/-- `eret` (17/R393); then the queued elements or the held request of the stream whose fault was delivered are tried again
(04/R97, 11/R286). -/
def returnFault (s : State) (key : Nat) (t : Thread) : Except Exc State :=
  match t.saved with
  | none => trapWith cIllegal 0
  | some c =>
    if t.depth ≠ 1 then trapWith cIllegal 0
    else if prodInto t (framePositions t 0 t.fsize) then stallNow
    else
      match leaveFault s key t c with
      | .error e => .error (.trap e none)
      | .ok (s, t') =>
        let s := s.setThread key t'
        .ok (match t.estream with
          | some x => respill s t.ref x
          | none => s)

/-! ## Shapes of register instructions -/

/-- Write a destination, waiting while it is empty (08/R191). -/
def writeDest (t : Thread) (d : Reg) (v : Word) : Except Exc Thread :=
  match destReady t d with
  | .error e => .error e
  | .ok _ => .ok (writeR t d v)

/-- d := f a b. -/
def opRR (s : State) (d : Reg) (a b : Src) (f : Word → Word → Word) : Answer :=
  issueOwn s [d, a.reg, b.reg] fun t => do
    let x ← readSrc t a
    let y ← readSrc t b
    writeDest t d (f x y)

/-- d := f a, in an instruction with `more` bytes of words after the first. -/
def opR (more : Word) (s : State) (d : Reg) (a : Src) (f : Word → Word) : Answer :=
  issueOwnWith more s [d, a.reg] fun t => do
    let x ← readSrc t a
    writeDest t d (f x)

/-- d := a value that the thread gives, in an instruction with `more` bytes of words after the first. -/
def opD (more : Word) (s : State) (d : Reg) (f : Thread → Word) : Answer :=
  issueOwnWith more s [d] fun t => writeDest t d (f t)

end Sys2Proof.Machine
end

