-- ==== Sys2Proof/Machine/Atomics.lean ====
section
/-! DEFINITION. Atomics (08/R205, R206), and the waits that a `fence` leaves behind (08/R207, 14/R330). -/

namespace Sys2Proof.Machine

/-- The address of a Q-form access with no offset field: the handle's check at s(a), then the alignment (08/R205). -/
def slotAddr64 (t : Thread) (a : Src) (h : BitVec 4) (size : Nat) (need : BitVec 5) : Except Exc Nat := do
  let x ← readSrc t a
  let va ← liftE (checkHandle (readH t h) x.toInt size need t.asid)
  if va % size ≠ 0 then trapWith cAlign 0 (some (BitVec.ofNat 64 va)) else pure va

/-- A target in the memory of a member that is not up (08/R205, 04/R99), which the agent may reach. -/
def lostTarget (s : State) (ag : Agent) : Target → Bool
  | .peer m pa => !peerGuard ag pa && !memberUp s m
  | _ => false

/-- An atomic (08/R205): `op` is its number in 08 Table 8.8. -/
def opAmo (s : State) (d : Reg) (a : Src) (h : BitVec 4) (p : BitVec 3) (op : Nat) : Answer :=
  issue s (if op = 9 then [d, regAdd d 1, a.reg] else [d, a.reg]) fun key t => do
    let va ← slotAddr64 t a h 8 rRWA
    let v ← readField t d
    let n ← if op = 9 then readField t (regAdd d 1) else pure 0
    let (tg, s) ← place s (threadAgent key t) va .atomic
    if lostTarget s (threadAgent key t) tg then pure (s.setThread key (writeP t p false))
    else
      let _ ← producerSlot t
      let g ← accAtomic s (threadAgent key t) tg 8 op (fun old => amoNew op 64 old v.toNat n.toNat)
        (BitVec.ofNat 64 va)
      pure (g.st.setThread key (produce (writeP t p true) [d] [BitVec.ofNat 64 (leNat g.bytes)] g.wait g.err
        (BitVec.ofNat 64 va) d none g.undo true))

/-- `amo.add` (08/R205, Table 8.8). -/
def execAmoAdd (d : Reg) (a : Src) (h : BitVec 4) (p : BitVec 3) (s : State) : Answer := opAmo s d a h p 0

/-- `amo.and` (08/R205, Table 8.8). -/
def execAmoAnd (d : Reg) (a : Src) (h : BitVec 4) (p : BitVec 3) (s : State) : Answer := opAmo s d a h p 1

/-- `amo.or` (08/R205, Table 8.8). -/
def execAmoOr (d : Reg) (a : Src) (h : BitVec 4) (p : BitVec 3) (s : State) : Answer := opAmo s d a h p 2

/-- `amo.xor` (08/R205, Table 8.8). -/
def execAmoXor (d : Reg) (a : Src) (h : BitVec 4) (p : BitVec 3) (s : State) : Answer := opAmo s d a h p 3

/-- `amo.min` (08/R205, Table 8.8). -/
def execAmoMin (d : Reg) (a : Src) (h : BitVec 4) (p : BitVec 3) (s : State) : Answer := opAmo s d a h p 4

/-- `amo.minu` (08/R205, Table 8.8). -/
def execAmoMinu (d : Reg) (a : Src) (h : BitVec 4) (p : BitVec 3) (s : State) : Answer := opAmo s d a h p 5

/-- `amo.max` (08/R205, Table 8.8). -/
def execAmoMax (d : Reg) (a : Src) (h : BitVec 4) (p : BitVec 3) (s : State) : Answer := opAmo s d a h p 6

/-- `amo.maxu` (08/R205, Table 8.8). -/
def execAmoMaxu (d : Reg) (a : Src) (h : BitVec 4) (p : BitVec 3) (s : State) : Answer := opAmo s d a h p 7

/-- `amo.swap` (08/R205, Table 8.8). -/
def execAmoSwap (d : Reg) (a : Src) (h : BitVec 4) (p : BitVec 3) (s : State) : Answer := opAmo s d a h p 8

/-- `amo.cas` (08/R205, Table 8.8). -/
def execAmoCas (d : Reg) (a : Src) (h : BitVec 4) (p : BitVec 3) (s : State) : Answer := opAmo s d a h p 9

/-! ## Waits that a `fence` leaves (08/R207) -/

/-- The storage kind of an access, by where its address leads (14/R330), as a bit of SS (02 Table 2.7). -/
def targetKind : Target → BitVec 4
  | .scratch _ _ => 1
  | .dev _ => 4
  | .regs _ => 4
  | .host _ => 8
  | .peer _ _ => 8

/-- The kind of an access at a virtual address; one that does not translate is performed nowhere yet, and counts as of device
memory (DEDUCED, log 1). -/
def kindOf (s : State) (asid : BitVec 14) (va : Nat) (need : Need) : BitVec 4 :=
  match translate s asid va need with
  | .ok t => targetKind t
  | .error _ => 4

/-- The kinds of storage that an item reads when it is performed (14 Table 14.2): scratch rows, or the lines of a tile. -/
def itemKinds : Item → BitVec 4
  | .fire _ _ _ _ => 1
  | .bind _ => 4
  | _ => 0

/-- An item of a thread that reads storage in ss when it is performed. -/
def itemWithin (r : ThreadRef) (ss : BitVec 4) (y : ItemIn) : Bool :=
  match y.src with
  | .thread t _ => decide (t = r) && decide (itemKinds y.it &&& ss ≠ 0)
  | .node _ _ _ _ => false

/-- Such a wait is over. -/
def waitOver (s : State) (c : Nat) (r : ThreadRef) (b : Barred) : Bool :=
  match b.on with
  | .queue q upTo =>
    let y := tabGet (s.cluster c).queues q {}
    (y.entries.isEmpty && y.sched.isNone) || decide (sub32 y.donecnt.toNat upTo.toNat < 2 ^ 31)
  | .island i =>
    let y := tabGet (s.cluster c).islands i {}
    !y.order.any (itemWithin r b.ss)
  | .pod id => !s.podOps.any fun x => x.id = id
  | .copy id => (tabFind s.kvCopies id).isNone
  | .host n => !(threadByRef s r).any fun t => hostBelow t n
  | .release n => !(threadByRef s r).any fun t => t.rels.any fun p => p.num = n

/-- Accesses of given kinds have to wait for one of these (14/R330: those of other kinds pass). -/
def heldBy (s : State) (c : Nat) (r : ThreadRef) (kinds : BitVec 4) (l : List Barred) : Bool :=
  l.any fun b => decide (kinds &&& b.ss ≠ 0) && !waitOver s c r b

end Sys2Proof.Machine
end

