-- ==== Sys2Proof/WellFormed.lean ====
section
/-! DEFINITION. Which terms of `Instr` are well formed: the operand values the encoding chapter allows
(02/R20, R22, R26, R29, R30) and the ranges of the event arguments. -/

namespace Sys2Proof

/-- A register field names a register (02/R20: 48-63 are reserved). -/
def regOk (r : Reg) : Bool := decide (r.toNat < 48)

/-- Agent and storage scope of an instruction that carries one (02/R26). -/
def scopeOk (as : BitVec 3) (ss : BitVec 4) : Bool := as != 7#3 && ss != 0#4

/-- A group of n consecutive registers from r (02/R22): within `g1`-`g15`, within `w0`-`w31`, or a pair from `g0`. -/
def groupOk (r : Reg) (n : Nat) : Bool :=
  decide ((1 ≤ r.toNat ∧ r.toNat + n ≤ 16) ∨ (16 ≤ r.toNat ∧ r.toNat + n ≤ 48) ∨ (n = 2 ∧ r.toNat = 0))

/-- A core of the device: key = 64 × cluster + core (01/R14). -/
def keyOk (key : Nat) : Bool := decide (key / 64 < 32 ∧ key % 64 < 48)

/-- A target field names an input of a slot or an output port (02/R33). -/
def targetOk (t : BitVec 9) : Bool := t.extractLsb' 0 2 != 3#2 || t.extractLsb' 5 4 == 15#4

/-- The parts of a fabric instruction that every opcode shares (02/R33, R36). -/
def FWord.ok (f : FWord) : Bool :=
  decide (f.pm.toNat ≤ 2) && (f.pm != 0#3 || f.pk == 0#2) && decide (f.sh.toNat ≤ 5) &&
  targetOk f.t1 && (targetOk f.t0 || (f.t0 == 0x1DF#9 && f.t1 == 0x1FF#9))

/-- Well-formedness, by constructor. -/
def Instr.wf (i : Instr) : Bool :=
  match i with
  | .add d a b => regOk d && regOk a.reg && regOk b.reg
  | .sub d a b => regOk d && regOk a.reg && regOk b.reg
  | .mul d a b => regOk d && regOk a.reg && regOk b.reg
  | .mulh d a b => regOk d && regOk a.reg && regOk b.reg
  | .mulhu d a b => regOk d && regOk a.reg && regOk b.reg
  | .div d a b => regOk d && regOk a.reg && regOk b.reg
  | .divu d a b => regOk d && regOk a.reg && regOk b.reg
  | .rem d a b => regOk d && regOk a.reg && regOk b.reg
  | .remu d a b => regOk d && regOk a.reg && regOk b.reg
  | .and d a b => regOk d && regOk a.reg && regOk b.reg
  | .or d a b => regOk d && regOk a.reg && regOk b.reg
  | .xor d a b => regOk d && regOk a.reg && regOk b.reg
  | .andn d a b => regOk d && regOk a.reg && regOk b.reg
  | .shl d a b => regOk d && regOk a.reg && regOk b.reg
  | .shr d a b => regOk d && regOk a.reg && regOk b.reg
  | .sra d a b => regOk d && regOk a.reg && regOk b.reg
  | .rot d a b => regOk d && regOk a.reg && regOk b.reg
  | .min d a b => regOk d && regOk a.reg && regOk b.reg
  | .minu d a b => regOk d && regOk a.reg && regOk b.reg
  | .max d a b => regOk d && regOk a.reg && regOk b.reg
  | .maxu d a b => regOk d && regOk a.reg && regOk b.reg
  | .mov d a => regOk d && regOk a.reg
  | .clz d a => regOk d && regOk a.reg
  | .popc d a => regOk d && regOk a.reg
  | .addi d a _ => regOk d && regOk a.reg
  | .andi d a _ => regOk d && regOk a.reg
  | .ori d a _ => regOk d && regOk a.reg
  | .xori d a _ => regOk d && regOk a.reg
  | .shli d a _ => regOk d && regOk a.reg
  | .shri d a _ => regOk d && regOk a.reg
  | .srai d a _ => regOk d && regOk a.reg
  | .bfx d a p l => regOk d && regOk a.reg && decide (p.toNat + l.toNat + 1 ≤ 64)
  | .bfxu d a p l => regOk d && regOk a.reg && decide (p.toNat + l.toNat + 1 ≤ 64)
  | .bfi d a p l => regOk d && regOk a.reg && decide (p.toNat + l.toNat + 1 ≤ 64)
  | .sext d a i => regOk d && regOk a.reg && (i == 8#12 || i == 16#12 || i == 32#12)
  | .movi d _ => regOk d
  | .movl d _ => regOk d
  | .movhi d a _ => regOk d && regOk a.reg
  | .cmpEq _ a b => regOk a.reg && regOk b.reg
  | .cmpNe _ a b => regOk a.reg && regOk b.reg
  | .cmpLt _ a b => regOk a.reg && regOk b.reg
  | .cmpLtu _ a b => regOk a.reg && regOk b.reg
  | .cmpLe _ a b => regOk a.reg && regOk b.reg
  | .cmpLeu _ a b => regOk a.reg && regOk b.reg
  | .pand _ _ _ => true
  | .por _ _ _ => true
  | .pxor _ _ _ => true
  | .pnot _ _ => true
  | .psel d a b _ => regOk d && regOk a.reg && regOk b.reg
  | .ldB d a _ _ => regOk d && regOk a.reg
  | .ldBu d a _ _ => regOk d && regOk a.reg
  | .ldH d a _ _ => regOk d && regOk a.reg
  | .ldHu d a _ _ => regOk d && regOk a.reg
  | .ldW d a _ _ => regOk d && regOk a.reg
  | .ldWu d a _ _ => regOk d && regOk a.reg
  | .ldD d a _ _ => regOk d && regOk a.reg
  | .stB s a _ _ => regOk s && regOk a.reg
  | .stH s a _ _ => regOk s && regOk a.reg
  | .stW s a _ _ => regOk s && regOk a.reg
  | .stD s a _ _ => regOk s && regOk a.reg
  | .pfetch a _ _ => regOk a.reg
  | .amoAdd d a _ _ => regOk d && regOk a.reg
  | .amoAnd d a _ _ => regOk d && regOk a.reg
  | .amoOr d a _ _ => regOk d && regOk a.reg
  | .amoXor d a _ _ => regOk d && regOk a.reg
  | .amoMin d a _ _ => regOk d && regOk a.reg
  | .amoMinu d a _ _ => regOk d && regOk a.reg
  | .amoMax d a _ _ => regOk d && regOk a.reg
  | .amoMaxu d a _ _ => regOk d && regOk a.reg
  | .amoSwap d a _ _ => regOk d && regOk a.reg
  | .amoCas d a _ _ => regOk d && regOk a.reg && groupOk d 2
  | .fence s g => scopeOk s g
  | .hsub _ a b _ => regOk a.reg && regOk b.reg
  | .hrights _ _ _ => true
  | .hbase d _ => regOk d
  | .hlen d _ => regOk d
  | .hmov _ _ => true
  | .hcheck d a _ _ _ => regOk d && regOk a.reg
  | .fmtWin s a _ _ => regOk s && regOk a.reg
  | .br _ _ _ => true
  | .jmp _ => true
  | .call _ => true
  | .jr a => regOk a.reg
  | .callr a => regOk a.reg
  | .ret => true
  | .enter n => decide (8 ≤ n.toNat ∧ n.toNat ≤ 32)
  | .loop _ e => (e != 0#8)
  | .loopr a e => regOk a.reg && (e != 0#8)
  | .cpIssue d a _ _ _ _ => regOk d && regOk a.reg
  | .cpSched a _ _ _ _ => regOk a.reg
  | .cpAdv d a _ _ _ => regOk d && regOk a.reg
  | .cpStatus d _ _ _ => regOk d
  | .ringInit d a _ _ => regOk d && regOk a.reg
  | .ringWait d a _ _ => regOk d && regOk a.reg
  | .ringRel a _ _ => regOk a.reg
  | .ringWptr d a _ _ => regOk d && regOk a.reg
  | .qfence _ m => (m != 0#8)
  | .smap d a _ => regOk d && regOk a.reg
  | .sunmap d _ => regOk d
  | .sprot d _ m => regOk d && (m != 3#2)
  | .sevict d _ => regOk d
  | .smig d a _ => regOk d && regOk a.reg
  | .squery d a => regOk d && regOk a.reg
  | .sfix a => regOk a.reg
  | .calloc d a _ _ => regOk d && regOk a.reg
  | .cseal a s g => regOk a.reg && scopeOk s g
  | .cldR d a b _ => regOk d && regOk a.reg && regOk b.reg
  | .cfin => true
  | .cdrop a n => regOk a.reg && (n != 0#12)
  | .cinfo d a => regOk d && regOk a.reg
  | .cpart a _ => regOk a.reg
  | .mxBind a _ _ _ => regOk a.reg
  | .mxScale a _ _ _ => regOk a.reg
  | .mxMode a _ _ => regOk a.reg
  | .mxFire d a _ _ => regOk d && regOk a.reg
  | .mxAcc d a _ _ => regOk d && regOk a.reg
  | .mxRlbl _ _ => true
  | .mxDrain _ _ => true
  | .mxUnpin _ _ => true
  | .castLoad d a _ _ => regOk d && regOk a.reg
  | .castBind d _ _ _ => regOk d
  | .castKill d _ => regOk d
  | .castEnd d _ => regOk d
  | .bpush d a _ _ => regOk d && regOk a.reg && groupOk a.reg 5 && decide (16 ≤ a.reg.toNat)
  | .bpull d a _ _ => regOk d && regOk a.reg && groupOk d 5 && decide (16 ≤ d.toNat)
  | .bmark d _ _ => regOk d
  | .kvFind d a _ _ => regOk d && regOk a.reg && groupOk d 2
  | .kvAddPool d a _ _ => regOk d && regOk a.reg && groupOk d 4
  | .kvAddOpen d a _ _ => regOk d && regOk a.reg && groupOk d 4
  | .kvAddAppend d a _ _ => regOk d && regOk a.reg && groupOk d 4
  | .kvAddAttach d a _ _ => regOk d && regOk a.reg && groupOk d 4
  | .kvAddPublish d a _ _ => regOk d && regOk a.reg && groupOk d 4
  | .kvAddClose d a _ _ => regOk d && regOk a.reg && groupOk d 4
  | .kvAddDemote d a _ _ => regOk d && regOk a.reg && groupOk d 4
  | .kvPromote d a _ => regOk d && regOk a.reg
  | .kvPromoteCancel d a _ => regOk d && regOk a.reg
  | .dwOpen d a _ _ => regOk d && regOk a.reg
  | .dwSnap d a _ => regOk d && regOk a.reg
  | .dwCommit d a s g => regOk d && regOk a.reg && scopeOk s g
  | .dwAbort a s g => regOk a.reg && scopeOk s g
  | .dwStat d a => regOk d && regOk a.reg
  | .xmcast d a _ _ => regOk d && regOk a.reg
  | .xcomb d a _ _ o => regOk d && regOk a.reg && (o != 7#3)
  | .xbar d a s g => regOk d && regOk a.reg && scopeOk s g
  | .xid d => regOk d
  | .chanBind d a _ => regOk d && regOk a.reg
  | .chanYield => true
  | .chanRaise d a _ => regOk d && regOk a.reg
  | .qput d a _ _ => regOk d && regOk a.reg
  | .qget d a _ _ => regOk d && regOk a.reg
  | .barArrive d a _ => regOk d && regOk a.reg
  | .barWait d a _ => regOk d && regOk a.reg
  | .barTest d a _ => regOk d && regOk a.reg
  | .trap _ => true
  | .eret => true
  | .srd d _ => regOk d
  | .swr a _ => regOk a.reg
  | .brk _ => true
  | .nop => true
  | .iAdd f => f.ok
  | .iSub f => f.ok
  | .iMul f => f.ok
  | .iMad f => f.ok
  | .iMin f => f.ok
  | .iMax f => f.ok
  | .iAbs f => f.ok
  | .iClamp f => f.ok
  | .iAnd f => f.ok
  | .iOr f => f.ok
  | .iXor f => f.ok
  | .iShl f => f.ok
  | .iShr f => f.ok
  | .iSra f => f.ok
  | .iCmp f => f.ok
  | .sel f => f.ok
  | .fabricMov f => f.ok
  | .const f => f.ok
  | .mix f => f.ok
  | .fAdd f => f.ok
  | .fSub f => f.ok
  | .fMul f => f.ok
  | .fFma f => f.ok
  | .fMin f => f.ok
  | .fMax f => f.ok
  | .fAbs f => f.ok
  | .fNeg f => f.ok
  | .fCmp f => f.ok
  | .fRcp f => f.ok
  | .fRsq f => f.ok
  | .fExp2 f => f.ok
  | .fLog2 f => f.ok
  | .fSig f => f.ok
  | .fTanh f => f.ok
  | .cvt f => f.ok
  | .pack f => f.ok
  | .unpack f => f.ok
  | .rEnc f => f.ok
  | .rDec f => f.ok
  | .rMac f => f.ok
  | .xl f => f.ok
  | .red f => f.ok
  | .fork f => f.ok
  | .steer f => f.ok
  | .merge f => f.ok
  | .mergeU f => f.ok
  | .filter f => f.ok
  | .recirc f => f.ok
  | .gate f => f.ok
  | .seq f => f.ok
  | .mark f => f.ok
  | .ldS f => f.ok
  | .stS f => f.ok
  | .amoS f => f.ok
  | .ldG f => f.ok
  | .stG f => f.ok
  | .ag f => f.ok
  | .ldC f => f.ok
  | .stC f => f.ok
  | .cAlloc f => f.ok
  | .cSeal f => f.ok
  | .accRd f => f.ok
  | .aRow f => f.ok
  | .cfgTok f => f.ok
  | .longLatencyProducerComplete key _ => keyOk key
  | .faultDelivery => true
  | .channelEntry => true
  | .streamerBeat cl isl q => decide (cl < 32) && decide (isl < 4) && decide (q < 9)
  | .copyCompletion cl isl q => decide (cl < 32) && decide (isl < 4) && decide (q < 8)
  | .scheduleEntryBegin cl isl q => decide (cl < 32) && decide (isl < 4) && decide (q < 8)
  | .pageIn cl page => decide (cl < 32) && decide (page < 2097152)
  | .pageOut cl page => decide (cl < 32) && decide (page < 2097152)
  | .relocation cl page core => decide (cl < 32) && decide (page < 2097152) && decide (core < 48)
  | .curdGrant _ => true
  | .nodeAccessPerformed _ _ => true
  | .castingMove _ _ => true
  | .castingSlice _ => true
  | .castingReturn _ => true
  | .demandExpiry key => keyOk key
  | .forcedPreemption _ => true
  | .rowFire cl i => decide (cl < 32) && decide (i < 8)
  | .readoutPerform cl i => decide (cl < 32) && decide (i < 8)
  | .bindPerform cl i => decide (cl < 32) && decide (i < 8)
  | .tileLoadComplete cl i => decide (cl < 32) && decide (i < 8)
  | .modeItemPerform cl i => decide (cl < 32) && decide (i < 8)
  | .scaleItemPerform cl i => decide (cl < 32) && decide (i < 8)
  | .accItemPerform cl i => decide (cl < 32) && decide (i < 8)
  | .unpinItemPerform cl i => decide (cl < 32) && decide (i < 8)
  | .configTokenPerform cl i => decide (cl < 32) && decide (i < 8)
  | .appendPageCopyComplete _ => true
  | .demoteComplete _ => true
  | .promotionComplete _ => true
  | .commitPoint _ => true
  | .dispatcherPoll q => decide (q < 64)
  | .recordCheck q => decide (q < 64)
  | .launchStart q => decide (q < 64)
  | .steal q => decide (q < 64)
  | .watchdogExpiry _ => true
  | .correctedError _ => true
  | .linkCrcRetry => true
  | .hostTailWrite q _ _ => decide (q < 64)
  | .hostMemoryWrite _ _ => true
  | .hostMemoryRead _ _ => true
  | .hostWindowCompletion _ => true
  | .hostCompletionTimeout _ => true
  | .registerWrite _ _ _ => true
  | .tinvWrite _ => true
  | .tinvComplete => true
  | .lqctlWrite q _ => decide (q < 64)
  | .errorCounterWrite _ => true
  | .podidWrite _ => true
  | .podwinWrite m _ => decide (m < 1024)
  | .killLaunch _ => true
  | .haltCasting _ => true
  | .releaseCasting _ => true
  | .haltThread _ => true
  | .releaseThread _ => true
  | .watchdogLimit _ => true
  | .readContextStore _ => true
  | .identityPublicKey _ => true
  | .attestationReport _ => true
  | .loadFirmware _ => true
  | .mailboxCommandEnd => true
  | .moduleReset _ => true
  | .thermalWarning _ => true
  | .thermalTrip => true
  | .podRequest m _ => decide (m < 1024)
  | .linkDown m => decide (m < 1024)
  | .responseTimeout m => decide (m < 1024)
  | .fenceNotice m => decide (m < 1024)
  | .podOpComplete _ => true
  | .combineResult _ _ => true
  | .combineFailureNotice _ => true
  | .illegalInstruction _ => true
  | .portGoesDown p => decide (p < 24)
  | .promotionCopyBegin _ => true
  | .castingConfigurationLoaded _ => true
  | .hostAtomicopRequest _ _ => true
  | .unknownMailboxCommand _ _ => true

end Sys2Proof
end

