-- ==== Sys2Proof/Decode.lean ====
section
/-! DEFINITION. The decoder of both instruction sets (02/R19-R35), total on any bits and rejecting by name, and
after it the encoder, written from the same tables. A word is taken apart by its form (02 Table 2.2). -/

namespace Sys2Proof

/-- Why a word is no instruction (02/R31, R36). -/
inductive Reject where
  /-- A reserved major opcode, `0x7F` included. -/
  | reservedMajor (maj : BitVec 7)
  /-- A reserved MIN, IMM12 extension or sub-operation of the major opcode. -/
  | reservedMinor (maj : BitVec 7)
  /-- A field that the instruction leaves unused is nonzero. -/
  | reservedField (maj : BitVec 7)
  /-- A register encoding or operand value that the opcode map forbids. -/
  | forbiddenOperand (maj : BitVec 7)
  /-- A fabric opcode that Table 2.19 does not list. -/
  | reservedOpc (opc : BitVec 8)
  /-- Shape, predicate or target bits that no fabric instruction may hold. -/
  | fabricField (opc : BitVec 8)
  deriving DecidableEq, Repr

/-- The fields of the R form (02 Table 2.2). -/
structure FormR where
  maj : BitVec 7
  d : BitVec 6
  a : BitVec 6
  wa : BitVec 1
  b : BitVec 6
  wb : BitVec 1
  min : BitVec 5
  deriving DecidableEq, Repr

/-- The R form of a word. -/
def FormR.ofWord (w : W32) : FormR where
  maj := w.extractLsb' 25 7
  d := w.extractLsb' 19 6
  a := w.extractLsb' 13 6
  wa := w.extractLsb' 12 1
  b := w.extractLsb' 6 6
  wb := w.extractLsb' 5 1
  min := w.extractLsb' 0 5

/-- The word of a R form. -/
def FormR.toWord (f : FormR) : W32 :=
  f.maj ++ f.d ++ f.a ++ f.wa ++ f.b ++ f.wb ++ f.min

/-- The fields of the I form (02 Table 2.2). -/
structure FormI where
  maj : BitVec 7
  d : BitVec 6
  a : BitVec 6
  wa : BitVec 1
  imm : BitVec 12
  deriving DecidableEq, Repr

/-- The I form of a word. -/
def FormI.ofWord (w : W32) : FormI where
  maj := w.extractLsb' 25 7
  d := w.extractLsb' 19 6
  a := w.extractLsb' 13 6
  wa := w.extractLsb' 12 1
  imm := w.extractLsb' 0 12

/-- The word of a I form. -/
def FormI.toWord (f : FormI) : W32 :=
  f.maj ++ f.d ++ f.a ++ f.wa ++ f.imm

/-- The fields of the B form (02 Table 2.2). -/
structure FormB where
  maj : BitVec 7
  p : BitVec 3
  n : BitVec 1
  off : BitVec 21
  deriving DecidableEq, Repr

/-- The B form of a word. -/
def FormB.ofWord (w : W32) : FormB where
  maj := w.extractLsb' 25 7
  p := w.extractLsb' 22 3
  n := w.extractLsb' 21 1
  off := w.extractLsb' 0 21

/-- The word of a B form. -/
def FormB.toWord (f : FormB) : W32 :=
  f.maj ++ f.p ++ f.n ++ f.off

/-- The fields of the M form (02 Table 2.2). -/
structure FormM where
  maj : BitVec 7
  d : BitVec 6
  a : BitVec 6
  wa : BitVec 1
  h : BitVec 4
  off : BitVec 8
  deriving DecidableEq, Repr

/-- The M form of a word. -/
def FormM.ofWord (w : W32) : FormM where
  maj := w.extractLsb' 25 7
  d := w.extractLsb' 19 6
  a := w.extractLsb' 13 6
  wa := w.extractLsb' 12 1
  h := w.extractLsb' 8 4
  off := w.extractLsb' 0 8

/-- The word of a M form. -/
def FormM.toWord (f : FormM) : W32 :=
  f.maj ++ f.d ++ f.a ++ f.wa ++ f.h ++ f.off

/-- The fields of the A form (02 Table 2.2). -/
structure FormA where
  maj : BitVec 7
  d : BitVec 6
  a : BitVec 6
  wa : BitVec 1
  h : BitVec 4
  as : BitVec 3
  ss : BitVec 4
  z : BitVec 1
  deriving DecidableEq, Repr

/-- The A form of a word. -/
def FormA.ofWord (w : W32) : FormA where
  maj := w.extractLsb' 25 7
  d := w.extractLsb' 19 6
  a := w.extractLsb' 13 6
  wa := w.extractLsb' 12 1
  h := w.extractLsb' 8 4
  as := w.extractLsb' 5 3
  ss := w.extractLsb' 1 4
  z := w.extractLsb' 0 1

/-- The word of a A form. -/
def FormA.toWord (f : FormA) : W32 :=
  f.maj ++ f.d ++ f.a ++ f.wa ++ f.h ++ f.as ++ f.ss ++ f.z

/-- The fields of the Q form (02 Table 2.2). -/
structure FormQ where
  maj : BitVec 7
  d : BitVec 6
  a : BitVec 6
  wa : BitVec 1
  h : BitVec 4
  p : BitVec 3
  min : BitVec 5
  deriving DecidableEq, Repr

/-- The Q form of a word. -/
def FormQ.ofWord (w : W32) : FormQ where
  maj := w.extractLsb' 25 7
  d := w.extractLsb' 19 6
  a := w.extractLsb' 13 6
  wa := w.extractLsb' 12 1
  h := w.extractLsb' 8 4
  p := w.extractLsb' 5 3
  min := w.extractLsb' 0 5

/-- The word of a Q form. -/
def FormQ.toWord (f : FormQ) : W32 :=
  f.maj ++ f.d ++ f.a ++ f.wa ++ f.h ++ f.p ++ f.min

/-- Answer the instruction when its unused fields are zero and its operands are allowed (02/R22, R31). -/
def checked (maj : BitVec 7) (unused : Bool) (i : Instr) : Except Reject Instr :=
  if unused then (if i.wf then .ok i else .error (.forbiddenOperand maj)) else .error (.reservedField maj)

/-- MAJ `0x00`: add, sub, mul, mulh, mulhu, div, divu, rem, remu, and, or, xor, andn, shl, shr, sra, rot, min, minu, max,
maxu, mov, clz, popc (02 Tables 2.11-2.14). -/
def decodeMaj00 (f : FormR) : Except Reject Instr :=
  if (f.min == 0#5) then checked f.maj (true) (.add f.d ⟨f.a, f.wa == 1#1⟩ ⟨f.b, f.wb == 1#1⟩)
  else if (f.min == 1#5) then checked f.maj (true) (.sub f.d ⟨f.a, f.wa == 1#1⟩ ⟨f.b, f.wb == 1#1⟩)
  else if (f.min == 2#5) then checked f.maj (true) (.mul f.d ⟨f.a, f.wa == 1#1⟩ ⟨f.b, f.wb == 1#1⟩)
  else if (f.min == 3#5) then checked f.maj (true) (.mulh f.d ⟨f.a, f.wa == 1#1⟩ ⟨f.b, f.wb == 1#1⟩)
  else if (f.min == 4#5) then checked f.maj (true) (.mulhu f.d ⟨f.a, f.wa == 1#1⟩ ⟨f.b, f.wb == 1#1⟩)
  else if (f.min == 5#5) then checked f.maj (true) (.div f.d ⟨f.a, f.wa == 1#1⟩ ⟨f.b, f.wb == 1#1⟩)
  else if (f.min == 6#5) then checked f.maj (true) (.divu f.d ⟨f.a, f.wa == 1#1⟩ ⟨f.b, f.wb == 1#1⟩)
  else if (f.min == 7#5) then checked f.maj (true) (.rem f.d ⟨f.a, f.wa == 1#1⟩ ⟨f.b, f.wb == 1#1⟩)
  else if (f.min == 8#5) then checked f.maj (true) (.remu f.d ⟨f.a, f.wa == 1#1⟩ ⟨f.b, f.wb == 1#1⟩)
  else if (f.min == 9#5) then checked f.maj (true) (.and f.d ⟨f.a, f.wa == 1#1⟩ ⟨f.b, f.wb == 1#1⟩)
  else if (f.min == 10#5) then checked f.maj (true) (.or f.d ⟨f.a, f.wa == 1#1⟩ ⟨f.b, f.wb == 1#1⟩)
  else if (f.min == 11#5) then checked f.maj (true) (.xor f.d ⟨f.a, f.wa == 1#1⟩ ⟨f.b, f.wb == 1#1⟩)
  else if (f.min == 12#5) then checked f.maj (true) (.andn f.d ⟨f.a, f.wa == 1#1⟩ ⟨f.b, f.wb == 1#1⟩)
  else if (f.min == 13#5) then checked f.maj (true) (.shl f.d ⟨f.a, f.wa == 1#1⟩ ⟨f.b, f.wb == 1#1⟩)
  else if (f.min == 14#5) then checked f.maj (true) (.shr f.d ⟨f.a, f.wa == 1#1⟩ ⟨f.b, f.wb == 1#1⟩)
  else if (f.min == 15#5) then checked f.maj (true) (.sra f.d ⟨f.a, f.wa == 1#1⟩ ⟨f.b, f.wb == 1#1⟩)
  else if (f.min == 16#5) then checked f.maj (true) (.rot f.d ⟨f.a, f.wa == 1#1⟩ ⟨f.b, f.wb == 1#1⟩)
  else if (f.min == 17#5) then checked f.maj (true) (.min f.d ⟨f.a, f.wa == 1#1⟩ ⟨f.b, f.wb == 1#1⟩)
  else if (f.min == 18#5) then checked f.maj (true) (.minu f.d ⟨f.a, f.wa == 1#1⟩ ⟨f.b, f.wb == 1#1⟩)
  else if (f.min == 19#5) then checked f.maj (true) (.max f.d ⟨f.a, f.wa == 1#1⟩ ⟨f.b, f.wb == 1#1⟩)
  else if (f.min == 20#5) then checked f.maj (true) (.maxu f.d ⟨f.a, f.wa == 1#1⟩ ⟨f.b, f.wb == 1#1⟩)
  else if (f.min == 21#5) then checked f.maj ((f.b == 0#6) && (f.wb == 0#1)) (.mov f.d ⟨f.a, f.wa == 1#1⟩)
  else if (f.min == 22#5) then checked f.maj ((f.b == 0#6) && (f.wb == 0#1)) (.clz f.d ⟨f.a, f.wa == 1#1⟩)
  else if (f.min == 23#5) then checked f.maj ((f.b == 0#6) && (f.wb == 0#1)) (.popc f.d ⟨f.a, f.wa == 1#1⟩)
  else .error (.reservedMinor f.maj)

/-- MAJ `0x01`: addi (02 Tables 2.11-2.14). -/
def decodeMaj01 (f : FormI) : Except Reject Instr :=
  checked f.maj (true) (.addi f.d ⟨f.a, f.wa == 1#1⟩ f.imm)

/-- MAJ `0x02`: andi (02 Tables 2.11-2.14). -/
def decodeMaj02 (f : FormI) : Except Reject Instr :=
  checked f.maj (true) (.andi f.d ⟨f.a, f.wa == 1#1⟩ f.imm)

/-- MAJ `0x03`: ori (02 Tables 2.11-2.14). -/
def decodeMaj03 (f : FormI) : Except Reject Instr :=
  checked f.maj (true) (.ori f.d ⟨f.a, f.wa == 1#1⟩ f.imm)

/-- MAJ `0x04`: xori (02 Tables 2.11-2.14). -/
def decodeMaj04 (f : FormI) : Except Reject Instr :=
  checked f.maj (true) (.xori f.d ⟨f.a, f.wa == 1#1⟩ f.imm)

/-- MAJ `0x05`: shli (02 Tables 2.11-2.14). -/
def decodeMaj05 (f : FormI) : Except Reject Instr :=
  checked f.maj ((f.imm.extractLsb' 6 6 == 0#6)) (.shli f.d ⟨f.a, f.wa == 1#1⟩ (f.imm.extractLsb' 0 6))

/-- MAJ `0x06`: shri (02 Tables 2.11-2.14). -/
def decodeMaj06 (f : FormI) : Except Reject Instr :=
  checked f.maj ((f.imm.extractLsb' 6 6 == 0#6)) (.shri f.d ⟨f.a, f.wa == 1#1⟩ (f.imm.extractLsb' 0 6))

/-- MAJ `0x07`: srai (02 Tables 2.11-2.14). -/
def decodeMaj07 (f : FormI) : Except Reject Instr :=
  checked f.maj ((f.imm.extractLsb' 6 6 == 0#6)) (.srai f.d ⟨f.a, f.wa == 1#1⟩ (f.imm.extractLsb' 0 6))

/-- MAJ `0x08`: bfx (02 Tables 2.11-2.14). -/
def decodeMaj08 (f : FormI) : Except Reject Instr :=
  checked f.maj (true) (.bfx f.d ⟨f.a, f.wa == 1#1⟩ (f.imm.extractLsb' 6 6) (f.imm.extractLsb' 0 6))

/-- MAJ `0x09`: bfxu (02 Tables 2.11-2.14). -/
def decodeMaj09 (f : FormI) : Except Reject Instr :=
  checked f.maj (true) (.bfxu f.d ⟨f.a, f.wa == 1#1⟩ (f.imm.extractLsb' 6 6) (f.imm.extractLsb' 0 6))

/-- MAJ `0x0A`: bfi (02 Tables 2.11-2.14). -/
def decodeMaj0A (f : FormI) : Except Reject Instr :=
  checked f.maj (true) (.bfi f.d ⟨f.a, f.wa == 1#1⟩ (f.imm.extractLsb' 6 6) (f.imm.extractLsb' 0 6))

/-- MAJ `0x0B`: sext (02 Tables 2.11-2.14). -/
def decodeMaj0B (f : FormI) : Except Reject Instr :=
  checked f.maj (true) (.sext f.d ⟨f.a, f.wa == 1#1⟩ f.imm)

/-- MAJ `0x0C`: movi (02 Tables 2.11-2.14). -/
def decodeMaj0C (f : FormI) : Except Reject Instr :=
  checked f.maj ((f.a == 0#6) && (f.wa == 0#1)) (.movi f.d f.imm)

/-- MAJ `0x10`: cmp.eq, cmp.ne, cmp.lt, cmp.ltu, cmp.le, cmp.leu (02 Tables 2.11-2.14). -/
def decodeMaj10 (f : FormR) : Except Reject Instr :=
  if (f.min == 0#5) then checked f.maj ((f.d.extractLsb' 3 3 == 0#3)) (.cmpEq (f.d.extractLsb' 0 3) ⟨f.a, f.wa == 1#1⟩ ⟨f.b, f.wb == 1#1⟩)
  else if (f.min == 1#5) then checked f.maj ((f.d.extractLsb' 3 3 == 0#3)) (.cmpNe (f.d.extractLsb' 0 3) ⟨f.a, f.wa == 1#1⟩ ⟨f.b, f.wb == 1#1⟩)
  else if (f.min == 2#5) then checked f.maj ((f.d.extractLsb' 3 3 == 0#3)) (.cmpLt (f.d.extractLsb' 0 3) ⟨f.a, f.wa == 1#1⟩ ⟨f.b, f.wb == 1#1⟩)
  else if (f.min == 3#5) then checked f.maj ((f.d.extractLsb' 3 3 == 0#3)) (.cmpLtu (f.d.extractLsb' 0 3) ⟨f.a, f.wa == 1#1⟩ ⟨f.b, f.wb == 1#1⟩)
  else if (f.min == 4#5) then checked f.maj ((f.d.extractLsb' 3 3 == 0#3)) (.cmpLe (f.d.extractLsb' 0 3) ⟨f.a, f.wa == 1#1⟩ ⟨f.b, f.wb == 1#1⟩)
  else if (f.min == 5#5) then checked f.maj ((f.d.extractLsb' 3 3 == 0#3)) (.cmpLeu (f.d.extractLsb' 0 3) ⟨f.a, f.wa == 1#1⟩ ⟨f.b, f.wb == 1#1⟩)
  else .error (.reservedMinor f.maj)

/-- MAJ `0x11`: pand, por, pxor, pnot (02 Tables 2.11-2.14). -/
def decodeMaj11 (f : FormR) : Except Reject Instr :=
  if (f.min == 0#5) then checked f.maj ((f.d.extractLsb' 3 3 == 0#3) && (f.a.extractLsb' 3 3 == 0#3) && (f.wa == 0#1) && (f.b.extractLsb' 3 3 == 0#3) && (f.wb == 0#1)) (.pand (f.d.extractLsb' 0 3) (f.a.extractLsb' 0 3) (f.b.extractLsb' 0 3))
  else if (f.min == 1#5) then checked f.maj ((f.d.extractLsb' 3 3 == 0#3) && (f.a.extractLsb' 3 3 == 0#3) && (f.wa == 0#1) && (f.b.extractLsb' 3 3 == 0#3) && (f.wb == 0#1)) (.por (f.d.extractLsb' 0 3) (f.a.extractLsb' 0 3) (f.b.extractLsb' 0 3))
  else if (f.min == 2#5) then checked f.maj ((f.d.extractLsb' 3 3 == 0#3) && (f.a.extractLsb' 3 3 == 0#3) && (f.wa == 0#1) && (f.b.extractLsb' 3 3 == 0#3) && (f.wb == 0#1)) (.pxor (f.d.extractLsb' 0 3) (f.a.extractLsb' 0 3) (f.b.extractLsb' 0 3))
  else if (f.min == 3#5) then checked f.maj ((f.d.extractLsb' 3 3 == 0#3) && (f.a.extractLsb' 3 3 == 0#3) && (f.wa == 0#1) && (f.b == 0#6) && (f.wb == 0#1)) (.pnot (f.d.extractLsb' 0 3) (f.a.extractLsb' 0 3))
  else .error (.reservedMinor f.maj)

/-- MAJ `0x12`: psel (02 Tables 2.11-2.14). -/
def decodeMaj12 (f : FormR) : Except Reject Instr :=
  checked f.maj ((f.min.extractLsb' 3 2 == 0#2)) (.psel f.d ⟨f.a, f.wa == 1#1⟩ ⟨f.b, f.wb == 1#1⟩ (f.min.extractLsb' 0 3))

/-- MAJ `0x18`: ld.b (02 Tables 2.11-2.14). -/
def decodeMaj18 (f : FormM) : Except Reject Instr :=
  checked f.maj (true) (.ldB f.d ⟨f.a, f.wa == 1#1⟩ f.h f.off)

/-- MAJ `0x19`: ld.bu (02 Tables 2.11-2.14). -/
def decodeMaj19 (f : FormM) : Except Reject Instr :=
  checked f.maj (true) (.ldBu f.d ⟨f.a, f.wa == 1#1⟩ f.h f.off)

/-- MAJ `0x1A`: ld.h (02 Tables 2.11-2.14). -/
def decodeMaj1A (f : FormM) : Except Reject Instr :=
  checked f.maj (true) (.ldH f.d ⟨f.a, f.wa == 1#1⟩ f.h f.off)

/-- MAJ `0x1B`: ld.hu (02 Tables 2.11-2.14). -/
def decodeMaj1B (f : FormM) : Except Reject Instr :=
  checked f.maj (true) (.ldHu f.d ⟨f.a, f.wa == 1#1⟩ f.h f.off)

/-- MAJ `0x1C`: ld.w (02 Tables 2.11-2.14). -/
def decodeMaj1C (f : FormM) : Except Reject Instr :=
  checked f.maj (true) (.ldW f.d ⟨f.a, f.wa == 1#1⟩ f.h f.off)

/-- MAJ `0x1D`: ld.wu (02 Tables 2.11-2.14). -/
def decodeMaj1D (f : FormM) : Except Reject Instr :=
  checked f.maj (true) (.ldWu f.d ⟨f.a, f.wa == 1#1⟩ f.h f.off)

/-- MAJ `0x1E`: ld.d (02 Tables 2.11-2.14). -/
def decodeMaj1E (f : FormM) : Except Reject Instr :=
  checked f.maj (true) (.ldD f.d ⟨f.a, f.wa == 1#1⟩ f.h f.off)

/-- MAJ `0x20`: st.b (02 Tables 2.11-2.14). -/
def decodeMaj20 (f : FormM) : Except Reject Instr :=
  checked f.maj (true) (.stB f.d ⟨f.a, f.wa == 1#1⟩ f.h f.off)

/-- MAJ `0x21`: st.h (02 Tables 2.11-2.14). -/
def decodeMaj21 (f : FormM) : Except Reject Instr :=
  checked f.maj (true) (.stH f.d ⟨f.a, f.wa == 1#1⟩ f.h f.off)

/-- MAJ `0x22`: st.w (02 Tables 2.11-2.14). -/
def decodeMaj22 (f : FormM) : Except Reject Instr :=
  checked f.maj (true) (.stW f.d ⟨f.a, f.wa == 1#1⟩ f.h f.off)

/-- MAJ `0x23`: st.d (02 Tables 2.11-2.14). -/
def decodeMaj23 (f : FormM) : Except Reject Instr :=
  checked f.maj (true) (.stD f.d ⟨f.a, f.wa == 1#1⟩ f.h f.off)

/-- MAJ `0x24`: pfetch (02 Tables 2.11-2.14). -/
def decodeMaj24 (f : FormM) : Except Reject Instr :=
  checked f.maj ((f.d == 0#6)) (.pfetch ⟨f.a, f.wa == 1#1⟩ f.h f.off)

/-- MAJ `0x28`: amo.add, amo.and, amo.or, amo.xor, amo.min, amo.minu, amo.max, amo.maxu, amo.swap, amo.cas (02 Tables
2.11-2.14). -/
def decodeMaj28 (f : FormQ) : Except Reject Instr :=
  if (f.min == 0#5) then checked f.maj (true) (.amoAdd f.d ⟨f.a, f.wa == 1#1⟩ f.h f.p)
  else if (f.min == 1#5) then checked f.maj (true) (.amoAnd f.d ⟨f.a, f.wa == 1#1⟩ f.h f.p)
  else if (f.min == 2#5) then checked f.maj (true) (.amoOr f.d ⟨f.a, f.wa == 1#1⟩ f.h f.p)
  else if (f.min == 3#5) then checked f.maj (true) (.amoXor f.d ⟨f.a, f.wa == 1#1⟩ f.h f.p)
  else if (f.min == 4#5) then checked f.maj (true) (.amoMin f.d ⟨f.a, f.wa == 1#1⟩ f.h f.p)
  else if (f.min == 5#5) then checked f.maj (true) (.amoMinu f.d ⟨f.a, f.wa == 1#1⟩ f.h f.p)
  else if (f.min == 6#5) then checked f.maj (true) (.amoMax f.d ⟨f.a, f.wa == 1#1⟩ f.h f.p)
  else if (f.min == 7#5) then checked f.maj (true) (.amoMaxu f.d ⟨f.a, f.wa == 1#1⟩ f.h f.p)
  else if (f.min == 8#5) then checked f.maj (true) (.amoSwap f.d ⟨f.a, f.wa == 1#1⟩ f.h f.p)
  else if (f.min == 9#5) then checked f.maj (true) (.amoCas f.d ⟨f.a, f.wa == 1#1⟩ f.h f.p)
  else .error (.reservedMinor f.maj)

/-- MAJ `0x2F`: fence (02 Tables 2.11-2.14). -/
def decodeMaj2F (f : FormA) : Except Reject Instr :=
  checked f.maj ((f.d == 0#6) && (f.a == 0#6) && (f.wa == 0#1) && (f.h == 0#4) && (f.z == 0#1)) (.fence f.as f.ss)

/-- MAJ `0x30`: hsub (02 Tables 2.11-2.14). -/
def decodeMaj30 (f : FormR) : Except Reject Instr :=
  checked f.maj ((f.d.extractLsb' 4 2 == 0#2) && (f.min.extractLsb' 4 1 == 0#1)) (.hsub (f.d.extractLsb' 0 4) ⟨f.a, f.wa == 1#1⟩ ⟨f.b, f.wb == 1#1⟩ (f.min.extractLsb' 0 4))

/-- MAJ `0x31`: hrights (02 Tables 2.11-2.14). -/
def decodeMaj31 (f : FormI) : Except Reject Instr :=
  checked f.maj ((f.d.extractLsb' 4 2 == 0#2) && (f.a.extractLsb' 4 2 == 0#2) && (f.wa == 0#1) && (f.imm.extractLsb' 5 7 == 0#7)) (.hrights (f.d.extractLsb' 0 4) (f.a.extractLsb' 0 4) (f.imm.extractLsb' 0 5))

/-- MAJ `0x32`: hbase (02 Tables 2.11-2.14). -/
def decodeMaj32 (f : FormR) : Except Reject Instr :=
  checked f.maj ((f.a == 0#6) && (f.wa == 0#1) && (f.b == 0#6) && (f.wb == 0#1) && (f.min.extractLsb' 4 1 == 0#1)) (.hbase f.d (f.min.extractLsb' 0 4))

/-- MAJ `0x33`: hlen (02 Tables 2.11-2.14). -/
def decodeMaj33 (f : FormR) : Except Reject Instr :=
  checked f.maj ((f.a == 0#6) && (f.wa == 0#1) && (f.b == 0#6) && (f.wb == 0#1) && (f.min.extractLsb' 4 1 == 0#1)) (.hlen f.d (f.min.extractLsb' 0 4))

/-- MAJ `0x34`: hmov (02 Tables 2.11-2.14). -/
def decodeMaj34 (f : FormR) : Except Reject Instr :=
  checked f.maj ((f.d.extractLsb' 4 2 == 0#2) && (f.a == 0#6) && (f.wa == 0#1) && (f.b == 0#6) && (f.wb == 0#1) && (f.min.extractLsb' 4 1 == 0#1)) (.hmov (f.d.extractLsb' 0 4) (f.min.extractLsb' 0 4))

/-- MAJ `0x35`: hcheck (02 Tables 2.11-2.14). -/
def decodeMaj35 (f : FormQ) : Except Reject Instr :=
  checked f.maj (true) (.hcheck f.d ⟨f.a, f.wa == 1#1⟩ f.h f.p f.min)

/-- MAJ `0x36`: fmt.win (02 Tables 2.11-2.14). -/
def decodeMaj36 (f : FormM) : Except Reject Instr :=
  checked f.maj (true) (.fmtWin f.d ⟨f.a, f.wa == 1#1⟩ f.h f.off)

/-- MAJ `0x38`: br (02 Tables 2.11-2.14). -/
def decodeMaj38 (f : FormB) : Except Reject Instr :=
  checked f.maj (true) (.br f.p (f.n == 1#1) f.off)

/-- MAJ `0x39`: jmp (02 Tables 2.11-2.14). -/
def decodeMaj39 (f : FormB) : Except Reject Instr :=
  checked f.maj ((f.p == 0#3) && (f.n == 0#1)) (.jmp f.off)

/-- MAJ `0x3A`: call (02 Tables 2.11-2.14). -/
def decodeMaj3A (f : FormB) : Except Reject Instr :=
  checked f.maj ((f.p == 0#3) && (f.n == 0#1)) (.call f.off)

/-- MAJ `0x3B`: jr, callr, ret (02 Tables 2.11-2.14). -/
def decodeMaj3B (f : FormR) : Except Reject Instr :=
  if (f.min == 0#5) then checked f.maj ((f.d == 0#6) && (f.b == 0#6) && (f.wb == 0#1)) (.jr ⟨f.a, f.wa == 1#1⟩)
  else if (f.min == 1#5) then checked f.maj ((f.d == 0#6) && (f.b == 0#6) && (f.wb == 0#1)) (.callr ⟨f.a, f.wa == 1#1⟩)
  else if (f.min == 2#5) then checked f.maj ((f.d == 0#6) && (f.a == 0#6) && (f.wa == 0#1) && (f.b == 0#6) && (f.wb == 0#1)) (.ret)
  else .error (.reservedMinor f.maj)

/-- MAJ `0x3C`: enter (02 Tables 2.11-2.14). -/
def decodeMaj3C (f : FormI) : Except Reject Instr :=
  checked f.maj ((f.d == 0#6) && (f.a == 0#6) && (f.wa == 0#1)) (.enter f.imm)

/-- MAJ `0x3E`: loopr (02 Tables 2.11-2.14). -/
def decodeMaj3E (f : FormI) : Except Reject Instr :=
  checked f.maj ((f.d == 0#6) && (f.imm.extractLsb' 8 4 == 0#4)) (.loopr ⟨f.a, f.wa == 1#1⟩ (f.imm.extractLsb' 0 8))

/-- MAJ `0x40`: cp.issue (02 Tables 2.11-2.14). -/
def decodeMaj40 (f : FormQ) : Except Reject Instr :=
  checked f.maj (true) (.cpIssue f.d ⟨f.a, f.wa == 1#1⟩ f.h f.p (f.min.extractLsb' 3 2) (f.min.extractLsb' 0 3))

/-- MAJ `0x41`: cp.sched (02 Tables 2.11-2.14). -/
def decodeMaj41 (f : FormQ) : Except Reject Instr :=
  checked f.maj ((f.d == 0#6)) (.cpSched ⟨f.a, f.wa == 1#1⟩ f.h f.p (f.min.extractLsb' 3 2) (f.min.extractLsb' 0 3))

/-- MAJ `0x42`: cp.adv (02 Tables 2.11-2.14). -/
def decodeMaj42 (f : FormQ) : Except Reject Instr :=
  checked f.maj ((f.h == 0#4)) (.cpAdv f.d ⟨f.a, f.wa == 1#1⟩ f.p (f.min.extractLsb' 3 2) (f.min.extractLsb' 0 3))

/-- MAJ `0x43`: cp.status (02 Tables 2.11-2.14). -/
def decodeMaj43 (f : FormQ) : Except Reject Instr :=
  checked f.maj ((f.a == 0#6) && (f.wa == 0#1) && (f.h == 0#4)) (.cpStatus f.d f.p (f.min.extractLsb' 3 2) (f.min.extractLsb' 0 3))

/-- MAJ `0x44`: ring.init (02 Tables 2.11-2.14). -/
def decodeMaj44 (f : FormQ) : Except Reject Instr :=
  checked f.maj ((f.min == 0#5)) (.ringInit f.d ⟨f.a, f.wa == 1#1⟩ f.h f.p)

/-- MAJ `0x45`: ring.wait (02 Tables 2.11-2.14). -/
def decodeMaj45 (f : FormQ) : Except Reject Instr :=
  checked f.maj ((f.min == 0#5)) (.ringWait f.d ⟨f.a, f.wa == 1#1⟩ f.h f.p)

/-- MAJ `0x46`: ring.rel (02 Tables 2.11-2.14). -/
def decodeMaj46 (f : FormQ) : Except Reject Instr :=
  checked f.maj ((f.d == 0#6) && (f.min == 0#5)) (.ringRel ⟨f.a, f.wa == 1#1⟩ f.h f.p)

/-- MAJ `0x47`: ring.wptr (02 Tables 2.11-2.14). -/
def decodeMaj47 (f : FormQ) : Except Reject Instr :=
  checked f.maj ((f.min == 0#5)) (.ringWptr f.d ⟨f.a, f.wa == 1#1⟩ f.h f.p)

/-- MAJ `0x48`: qfence (02 Tables 2.11-2.14). -/
def decodeMaj48 (f : FormI) : Except Reject Instr :=
  checked f.maj ((f.d == 0#6) && (f.a == 0#6) && (f.wa == 0#1) && (f.imm.extractLsb' 10 2 == 0#2)) (.qfence (f.imm.extractLsb' 8 2) (f.imm.extractLsb' 0 8))

/-- MAJ `0x50`: smap (02 Tables 2.11-2.14). -/
def decodeMaj50 (f : FormQ) : Except Reject Instr :=
  checked f.maj ((f.h == 0#4) && (f.min == 0#5)) (.smap f.d ⟨f.a, f.wa == 1#1⟩ f.p)

/-- MAJ `0x51`: sunmap (02 Tables 2.11-2.14). -/
def decodeMaj51 (f : FormQ) : Except Reject Instr :=
  checked f.maj ((f.a == 0#6) && (f.wa == 0#1) && (f.h == 0#4) && (f.min == 0#5)) (.sunmap f.d f.p)

/-- MAJ `0x52`: sprot (02 Tables 2.11-2.14). -/
def decodeMaj52 (f : FormQ) : Except Reject Instr :=
  checked f.maj ((f.a == 0#6) && (f.wa == 0#1) && (f.h == 0#4) && (f.min.extractLsb' 2 3 == 0#3)) (.sprot f.d f.p (f.min.extractLsb' 0 2))

/-- MAJ `0x53`: sevict (02 Tables 2.11-2.14). -/
def decodeMaj53 (f : FormQ) : Except Reject Instr :=
  checked f.maj ((f.a == 0#6) && (f.wa == 0#1) && (f.h == 0#4) && (f.min == 0#5)) (.sevict f.d f.p)

/-- MAJ `0x54`: smig (02 Tables 2.11-2.14). -/
def decodeMaj54 (f : FormQ) : Except Reject Instr :=
  checked f.maj ((f.h == 0#4) && (f.min == 0#5)) (.smig f.d ⟨f.a, f.wa == 1#1⟩ f.p)

/-- MAJ `0x55`: squery (02 Tables 2.11-2.14). -/
def decodeMaj55 (f : FormR) : Except Reject Instr :=
  checked f.maj ((f.b == 0#6) && (f.wb == 0#1) && (f.min == 0#5)) (.squery f.d ⟨f.a, f.wa == 1#1⟩)

/-- MAJ `0x56`: sfix (02 Tables 2.11-2.14). -/
def decodeMaj56 (f : FormR) : Except Reject Instr :=
  checked f.maj ((f.d == 0#6) && (f.b == 0#6) && (f.wb == 0#1) && (f.min == 0#5)) (.sfix ⟨f.a, f.wa == 1#1⟩)

/-- MAJ `0x58`: calloc (02 Tables 2.11-2.14). -/
def decodeMaj58 (f : FormQ) : Except Reject Instr :=
  checked f.maj ((f.h == 0#4) && (f.min.extractLsb' 4 1 == 0#1)) (.calloc f.d ⟨f.a, f.wa == 1#1⟩ f.p (f.min.extractLsb' 0 4))

/-- MAJ `0x59`: cseal (02 Tables 2.11-2.14). -/
def decodeMaj59 (f : FormA) : Except Reject Instr :=
  checked f.maj ((f.d == 0#6) && (f.h == 0#4) && (f.z == 0#1)) (.cseal ⟨f.a, f.wa == 1#1⟩ f.as f.ss)

/-- MAJ `0x5A`: cld.r (02 Tables 2.11-2.14). -/
def decodeMaj5A (f : FormR) : Except Reject Instr :=
  checked f.maj ((f.min.extractLsb' 2 3 == 0#3)) (.cldR f.d ⟨f.a, f.wa == 1#1⟩ ⟨f.b, f.wb == 1#1⟩ (f.min.extractLsb' 0 2))

/-- MAJ `0x5B`: cfin (02 Tables 2.11-2.14). -/
def decodeMaj5B (f : FormR) : Except Reject Instr :=
  checked f.maj ((f.d == 0#6) && (f.a == 0#6) && (f.wa == 0#1) && (f.b == 0#6) && (f.wb == 0#1) && (f.min == 0#5)) (.cfin)

/-- MAJ `0x5C`: cdrop (02 Tables 2.11-2.14). -/
def decodeMaj5C (f : FormI) : Except Reject Instr :=
  checked f.maj ((f.d == 0#6)) (.cdrop ⟨f.a, f.wa == 1#1⟩ f.imm)

/-- MAJ `0x5D`: cinfo (02 Tables 2.11-2.14). -/
def decodeMaj5D (f : FormR) : Except Reject Instr :=
  checked f.maj ((f.b == 0#6) && (f.wb == 0#1) && (f.min == 0#5)) (.cinfo f.d ⟨f.a, f.wa == 1#1⟩)

/-- MAJ `0x5E`: cpart (02 Tables 2.11-2.14). -/
def decodeMaj5E (f : FormI) : Except Reject Instr :=
  checked f.maj ((f.d == 0#6) && (f.imm.extractLsb' 4 8 == 0#8)) (.cpart ⟨f.a, f.wa == 1#1⟩ (f.imm.extractLsb' 0 4))

/-- MAJ `0x60`: mx.bind (02 Tables 2.11-2.14). -/
def decodeMaj60 (f : FormQ) : Except Reject Instr :=
  checked f.maj ((f.d == 0#6) && (f.min.extractLsb' 3 2 == 0#2)) (.mxBind ⟨f.a, f.wa == 1#1⟩ f.h f.p (f.min.extractLsb' 0 3))

/-- MAJ `0x61`: mx.scale (02 Tables 2.11-2.14). -/
def decodeMaj61 (f : FormQ) : Except Reject Instr :=
  checked f.maj ((f.d == 0#6) && (f.min.extractLsb' 3 2 == 0#2)) (.mxScale ⟨f.a, f.wa == 1#1⟩ f.h f.p (f.min.extractLsb' 0 3))

/-- MAJ `0x62`: mx.mode (02 Tables 2.11-2.14). -/
def decodeMaj62 (f : FormQ) : Except Reject Instr :=
  checked f.maj ((f.d == 0#6) && (f.h == 0#4) && (f.min.extractLsb' 3 2 == 0#2)) (.mxMode ⟨f.a, f.wa == 1#1⟩ f.p (f.min.extractLsb' 0 3))

/-- MAJ `0x63`: mx.fire (02 Tables 2.11-2.14). -/
def decodeMaj63 (f : FormQ) : Except Reject Instr :=
  checked f.maj ((f.h == 0#4) && (f.min.extractLsb' 3 2 == 0#2)) (.mxFire f.d ⟨f.a, f.wa == 1#1⟩ f.p (f.min.extractLsb' 0 3))

/-- MAJ `0x64`: mx.acc (02 Tables 2.11-2.14). -/
def decodeMaj64 (f : FormQ) : Except Reject Instr :=
  checked f.maj ((f.h == 0#4) && (f.min.extractLsb' 3 2 == 0#2)) (.mxAcc f.d ⟨f.a, f.wa == 1#1⟩ f.p (f.min.extractLsb' 0 3))

/-- MAJ `0x65`: mx.rlbl (02 Tables 2.11-2.14). -/
def decodeMaj65 (f : FormB) : Except Reject Instr :=
  checked f.maj ((f.n == 0#1)) (.mxRlbl f.p f.off)

/-- MAJ `0x66`: mx.drain (02 Tables 2.11-2.14). -/
def decodeMaj66 (f : FormQ) : Except Reject Instr :=
  checked f.maj ((f.d == 0#6) && (f.a == 0#6) && (f.wa == 0#1) && (f.h == 0#4) && (f.min.extractLsb' 3 2 == 0#2)) (.mxDrain f.p (f.min.extractLsb' 0 3))

/-- MAJ `0x67`: mx.unpin (02 Tables 2.11-2.14). -/
def decodeMaj67 (f : FormQ) : Except Reject Instr :=
  checked f.maj ((f.d == 0#6) && (f.a == 0#6) && (f.wa == 0#1) && (f.h == 0#4) && (f.min.extractLsb' 3 2 == 0#2)) (.mxUnpin f.p (f.min.extractLsb' 0 3))

/-- MAJ `0x68`: cast.load (02 Tables 2.11-2.14). -/
def decodeMaj68 (f : FormQ) : Except Reject Instr :=
  checked f.maj ((f.min == 0#5)) (.castLoad f.d ⟨f.a, f.wa == 1#1⟩ f.h f.p)

/-- MAJ `0x69`: cast.bind (02 Tables 2.11-2.14). -/
def decodeMaj69 (f : FormQ) : Except Reject Instr :=
  checked f.maj ((f.a == 0#6) && (f.wa == 0#1)) (.castBind f.d f.h f.p f.min)

/-- MAJ `0x6A`: cast.kill (02 Tables 2.11-2.14). -/
def decodeMaj6A (f : FormQ) : Except Reject Instr :=
  checked f.maj ((f.a == 0#6) && (f.wa == 0#1) && (f.h == 0#4) && (f.min == 0#5)) (.castKill f.d f.p)

/-- MAJ `0x6B`: cast.end (02 Tables 2.11-2.14). -/
def decodeMaj6B (f : FormQ) : Except Reject Instr :=
  checked f.maj ((f.a == 0#6) && (f.wa == 0#1) && (f.h == 0#4) && (f.min == 0#5)) (.castEnd f.d f.p)

/-- MAJ `0x6C`: bpush (02 Tables 2.11-2.14). -/
def decodeMaj6C (f : FormQ) : Except Reject Instr :=
  checked f.maj ((f.h.extractLsb' 1 3 == 0#3)) (.bpush f.d ⟨f.a, f.wa == 1#1⟩ (f.h.extractLsb' 0 1 ++ f.min) f.p)

/-- MAJ `0x6D`: bpull (02 Tables 2.11-2.14). -/
def decodeMaj6D (f : FormQ) : Except Reject Instr :=
  checked f.maj ((f.h.extractLsb' 1 3 == 0#3)) (.bpull f.d ⟨f.a, f.wa == 1#1⟩ (f.h.extractLsb' 0 1 ++ f.min) f.p)

/-- MAJ `0x6E`: bmark (02 Tables 2.11-2.14). -/
def decodeMaj6E (f : FormQ) : Except Reject Instr :=
  checked f.maj ((f.a == 0#6) && (f.wa == 0#1) && (f.h.extractLsb' 1 3 == 0#3)) (.bmark f.d (f.h.extractLsb' 0 1 ++ f.min) f.p)

/-- MAJ `0x70`: kv.find (02 Tables 2.11-2.14). -/
def decodeMaj70 (f : FormQ) : Except Reject Instr :=
  checked f.maj ((f.min == 0#5)) (.kvFind f.d ⟨f.a, f.wa == 1#1⟩ f.h f.p)

/-- MAJ `0x71`: kv.add (02 Tables 2.11-2.14). -/
def decodeMaj71 (f : FormQ) : Except Reject Instr :=
  checked f.maj ((f.min == 0#5)) (.kvAddPool f.d ⟨f.a, f.wa == 1#1⟩ f.h f.p)

/-- MAJ `0x72`: kv.promote (02 Tables 2.11-2.14). -/
def decodeMaj72 (f : FormQ) : Except Reject Instr :=
  if (f.min == 0#5) then checked f.maj ((f.h == 0#4)) (.kvPromote f.d ⟨f.a, f.wa == 1#1⟩ f.p)
  else if (f.min == 1#5) then checked f.maj ((f.h == 0#4)) (.kvPromoteCancel f.d ⟨f.a, f.wa == 1#1⟩ f.p)
  else .error (.reservedMinor f.maj)

/-- MAJ `0x73`: dw.open (02 Tables 2.11-2.14). -/
def decodeMaj73 (f : FormQ) : Except Reject Instr :=
  checked f.maj ((f.h == 0#4) && (f.min.extractLsb' 4 1 == 0#1)) (.dwOpen f.d ⟨f.a, f.wa == 1#1⟩ f.p (f.min.extractLsb' 0 4))

/-- MAJ `0x74`: dw.snap (02 Tables 2.11-2.14). -/
def decodeMaj74 (f : FormQ) : Except Reject Instr :=
  checked f.maj ((f.h == 0#4) && (f.min == 0#5)) (.dwSnap f.d ⟨f.a, f.wa == 1#1⟩ f.p)

/-- MAJ `0x75`: dw.commit (02 Tables 2.11-2.14). -/
def decodeMaj75 (f : FormA) : Except Reject Instr :=
  checked f.maj ((f.h == 0#4) && (f.z == 0#1)) (.dwCommit f.d ⟨f.a, f.wa == 1#1⟩ f.as f.ss)

/-- MAJ `0x76`: dw.abort (02 Tables 2.11-2.14). -/
def decodeMaj76 (f : FormA) : Except Reject Instr :=
  checked f.maj ((f.d == 0#6) && (f.h == 0#4) && (f.z == 0#1)) (.dwAbort ⟨f.a, f.wa == 1#1⟩ f.as f.ss)

/-- MAJ `0x77`: dw.stat (02 Tables 2.11-2.14). -/
def decodeMaj77 (f : FormR) : Except Reject Instr :=
  checked f.maj ((f.b == 0#6) && (f.wb == 0#1) && (f.min == 0#5)) (.dwStat f.d ⟨f.a, f.wa == 1#1⟩)

/-- MAJ `0x78`: xmcast (02 Tables 2.11-2.14). -/
def decodeMaj78 (f : FormQ) : Except Reject Instr :=
  checked f.maj ((f.min == 0#5)) (.xmcast f.d ⟨f.a, f.wa == 1#1⟩ f.h f.p)

/-- MAJ `0x79`: xcomb (02 Tables 2.11-2.14). -/
def decodeMaj79 (f : FormQ) : Except Reject Instr :=
  checked f.maj ((f.min.extractLsb' 3 2 == 0#2)) (.xcomb f.d ⟨f.a, f.wa == 1#1⟩ f.h f.p (f.min.extractLsb' 0 3))

/-- MAJ `0x7A`: xbar (02 Tables 2.11-2.14). -/
def decodeMaj7A (f : FormA) : Except Reject Instr :=
  checked f.maj ((f.h == 0#4) && (f.z == 0#1)) (.xbar f.d ⟨f.a, f.wa == 1#1⟩ f.as f.ss)

/-- MAJ `0x7B`: xid (02 Tables 2.11-2.14). -/
def decodeMaj7B (f : FormR) : Except Reject Instr :=
  checked f.maj ((f.a == 0#6) && (f.wa == 0#1) && (f.b == 0#6) && (f.wb == 0#1) && (f.min == 0#5)) (.xid f.d)

/-- MAJ `0x7C`: chan.bind, chan.yield, chan.raise, qput, qget, bar.arrive, bar.wait, bar.test (02 Tables 2.11-2.14). -/
def decodeMaj7C (f : FormQ) : Except Reject Instr :=
  if (f.min == 0#5) then checked f.maj ((f.h == 0#4)) (.chanBind f.d ⟨f.a, f.wa == 1#1⟩ f.p)
  else if (f.min == 1#5) then checked f.maj ((f.d == 0#6) && (f.a == 0#6) && (f.wa == 0#1) && (f.h == 0#4) && (f.p == 0#3)) (.chanYield)
  else if (f.min == 2#5) then checked f.maj ((f.h == 0#4)) (.chanRaise f.d ⟨f.a, f.wa == 1#1⟩ f.p)
  else if (f.min == 3#5) then checked f.maj (true) (.qput f.d ⟨f.a, f.wa == 1#1⟩ f.h f.p)
  else if (f.min == 4#5) then checked f.maj (true) (.qget f.d ⟨f.a, f.wa == 1#1⟩ f.h f.p)
  else if (f.min == 5#5) then checked f.maj ((f.h == 0#4)) (.barArrive f.d ⟨f.a, f.wa == 1#1⟩ f.p)
  else if (f.min == 6#5) then checked f.maj ((f.h == 0#4)) (.barWait f.d ⟨f.a, f.wa == 1#1⟩ f.p)
  else if (f.min == 7#5) then checked f.maj ((f.h == 0#4)) (.barTest f.d ⟨f.a, f.wa == 1#1⟩ f.p)
  else .error (.reservedMinor f.maj)

/-- MAJ `0x7D`: trap, eret, srd, swr, brk, nop (02 Tables 2.11-2.14). -/
def decodeMaj7D (f : FormI) : Except Reject Instr :=
  if (f.imm.extractLsb' 8 4 == 0#4) then checked f.maj ((f.d == 0#6) && (f.a == 0#6) && (f.wa == 0#1)) (.trap (f.imm.extractLsb' 0 8))
  else if (f.imm == 256#12) then checked f.maj ((f.d == 0#6) && (f.a == 0#6) && (f.wa == 0#1)) (.eret)
  else if (f.imm.extractLsb' 8 4 == 2#4) then checked f.maj ((f.a == 0#6) && (f.wa == 0#1)) (.srd f.d (f.imm.extractLsb' 0 8))
  else if (f.imm.extractLsb' 8 4 == 3#4) then checked f.maj ((f.d == 0#6)) (.swr ⟨f.a, f.wa == 1#1⟩ (f.imm.extractLsb' 0 8))
  else if (f.imm.extractLsb' 8 4 == 4#4) then checked f.maj ((f.d == 0#6) && (f.a == 0#6) && (f.wa == 0#1)) (.brk (f.imm.extractLsb' 0 8))
  else if (f.imm == 1280#12) then checked f.maj ((f.d == 0#6) && (f.a == 0#6) && (f.wa == 0#1)) (.nop)
  else .error (.reservedMinor f.maj)

/-- MAJ `0x0D`: movl, movhi, an L form with its second word (02/R28). -/
def decodeMaj0D (f : FormI) (imm : W32) : Except Reject Instr :=
  if f.imm == 0#12 then checked f.maj (f.a == 0#6 && f.wa == 0#1) (.movl f.d imm)
  else if f.imm == 1#12 then checked f.maj true (.movhi f.d ⟨f.a, f.wa == 1#1⟩ imm)
  else .error (.reservedMinor f.maj)

/-- MAJ `0x3D`: loop, an L form whose second word holds E and the count (02/R29). -/
def decodeMaj3D (f : FormI) (imm : W32) : Except Reject Instr :=
  if f.imm == 0#12 then
    checked f.maj (f.d == 0#6 && f.a == 0#6 && f.wa == 0#1) (.loop (imm.extractLsb' 0 24) (imm.extractLsb' 24 8))
  else .error (.reservedMinor f.maj)

/-- True for the major opcodes of the L form, whose instruction is two words (02/R19). -/
def isLong (w : W32) : Bool := w.extractLsb' 25 7 == 0x0D#7 || w.extractLsb' 25 7 == 0x3D#7

/-- Decode a control-thread instruction from its first word and the word after it (02/R19, R30, R31). -/
def decodeWords (w next : W32) : Except Reject Instr :=
  match (w.extractLsb' 25 7).toNat with
  | 0x00 => decodeMaj00 (FormR.ofWord w)
  | 0x01 => decodeMaj01 (FormI.ofWord w)
  | 0x02 => decodeMaj02 (FormI.ofWord w)
  | 0x03 => decodeMaj03 (FormI.ofWord w)
  | 0x04 => decodeMaj04 (FormI.ofWord w)
  | 0x05 => decodeMaj05 (FormI.ofWord w)
  | 0x06 => decodeMaj06 (FormI.ofWord w)
  | 0x07 => decodeMaj07 (FormI.ofWord w)
  | 0x08 => decodeMaj08 (FormI.ofWord w)
  | 0x09 => decodeMaj09 (FormI.ofWord w)
  | 0x0A => decodeMaj0A (FormI.ofWord w)
  | 0x0B => decodeMaj0B (FormI.ofWord w)
  | 0x0C => decodeMaj0C (FormI.ofWord w)
  | 0x0D => decodeMaj0D (FormI.ofWord w) next
  | 0x10 => decodeMaj10 (FormR.ofWord w)
  | 0x11 => decodeMaj11 (FormR.ofWord w)
  | 0x12 => decodeMaj12 (FormR.ofWord w)
  | 0x18 => decodeMaj18 (FormM.ofWord w)
  | 0x19 => decodeMaj19 (FormM.ofWord w)
  | 0x1A => decodeMaj1A (FormM.ofWord w)
  | 0x1B => decodeMaj1B (FormM.ofWord w)
  | 0x1C => decodeMaj1C (FormM.ofWord w)
  | 0x1D => decodeMaj1D (FormM.ofWord w)
  | 0x1E => decodeMaj1E (FormM.ofWord w)
  | 0x20 => decodeMaj20 (FormM.ofWord w)
  | 0x21 => decodeMaj21 (FormM.ofWord w)
  | 0x22 => decodeMaj22 (FormM.ofWord w)
  | 0x23 => decodeMaj23 (FormM.ofWord w)
  | 0x24 => decodeMaj24 (FormM.ofWord w)
  | 0x28 => decodeMaj28 (FormQ.ofWord w)
  | 0x2F => decodeMaj2F (FormA.ofWord w)
  | 0x30 => decodeMaj30 (FormR.ofWord w)
  | 0x31 => decodeMaj31 (FormI.ofWord w)
  | 0x32 => decodeMaj32 (FormR.ofWord w)
  | 0x33 => decodeMaj33 (FormR.ofWord w)
  | 0x34 => decodeMaj34 (FormR.ofWord w)
  | 0x35 => decodeMaj35 (FormQ.ofWord w)
  | 0x36 => decodeMaj36 (FormM.ofWord w)
  | 0x38 => decodeMaj38 (FormB.ofWord w)
  | 0x39 => decodeMaj39 (FormB.ofWord w)
  | 0x3A => decodeMaj3A (FormB.ofWord w)
  | 0x3B => decodeMaj3B (FormR.ofWord w)
  | 0x3C => decodeMaj3C (FormI.ofWord w)
  | 0x3D => decodeMaj3D (FormI.ofWord w) next
  | 0x3E => decodeMaj3E (FormI.ofWord w)
  | 0x40 => decodeMaj40 (FormQ.ofWord w)
  | 0x41 => decodeMaj41 (FormQ.ofWord w)
  | 0x42 => decodeMaj42 (FormQ.ofWord w)
  | 0x43 => decodeMaj43 (FormQ.ofWord w)
  | 0x44 => decodeMaj44 (FormQ.ofWord w)
  | 0x45 => decodeMaj45 (FormQ.ofWord w)
  | 0x46 => decodeMaj46 (FormQ.ofWord w)
  | 0x47 => decodeMaj47 (FormQ.ofWord w)
  | 0x48 => decodeMaj48 (FormI.ofWord w)
  | 0x50 => decodeMaj50 (FormQ.ofWord w)
  | 0x51 => decodeMaj51 (FormQ.ofWord w)
  | 0x52 => decodeMaj52 (FormQ.ofWord w)
  | 0x53 => decodeMaj53 (FormQ.ofWord w)
  | 0x54 => decodeMaj54 (FormQ.ofWord w)
  | 0x55 => decodeMaj55 (FormR.ofWord w)
  | 0x56 => decodeMaj56 (FormR.ofWord w)
  | 0x58 => decodeMaj58 (FormQ.ofWord w)
  | 0x59 => decodeMaj59 (FormA.ofWord w)
  | 0x5A => decodeMaj5A (FormR.ofWord w)
  | 0x5B => decodeMaj5B (FormR.ofWord w)
  | 0x5C => decodeMaj5C (FormI.ofWord w)
  | 0x5D => decodeMaj5D (FormR.ofWord w)
  | 0x5E => decodeMaj5E (FormI.ofWord w)
  | 0x60 => decodeMaj60 (FormQ.ofWord w)
  | 0x61 => decodeMaj61 (FormQ.ofWord w)
  | 0x62 => decodeMaj62 (FormQ.ofWord w)
  | 0x63 => decodeMaj63 (FormQ.ofWord w)
  | 0x64 => decodeMaj64 (FormQ.ofWord w)
  | 0x65 => decodeMaj65 (FormB.ofWord w)
  | 0x66 => decodeMaj66 (FormQ.ofWord w)
  | 0x67 => decodeMaj67 (FormQ.ofWord w)
  | 0x68 => decodeMaj68 (FormQ.ofWord w)
  | 0x69 => decodeMaj69 (FormQ.ofWord w)
  | 0x6A => decodeMaj6A (FormQ.ofWord w)
  | 0x6B => decodeMaj6B (FormQ.ofWord w)
  | 0x6C => decodeMaj6C (FormQ.ofWord w)
  | 0x6D => decodeMaj6D (FormQ.ofWord w)
  | 0x6E => decodeMaj6E (FormQ.ofWord w)
  | 0x70 => decodeMaj70 (FormQ.ofWord w)
  | 0x71 => decodeMaj71 (FormQ.ofWord w)
  | 0x72 => decodeMaj72 (FormQ.ofWord w)
  | 0x73 => decodeMaj73 (FormQ.ofWord w)
  | 0x74 => decodeMaj74 (FormQ.ofWord w)
  | 0x75 => decodeMaj75 (FormA.ofWord w)
  | 0x76 => decodeMaj76 (FormA.ofWord w)
  | 0x77 => decodeMaj77 (FormR.ofWord w)
  | 0x78 => decodeMaj78 (FormQ.ofWord w)
  | 0x79 => decodeMaj79 (FormQ.ofWord w)
  | 0x7A => decodeMaj7A (FormA.ofWord w)
  | 0x7B => decodeMaj7B (FormR.ofWord w)
  | 0x7C => decodeMaj7C (FormQ.ofWord w)
  | 0x7D => decodeMaj7D (FormI.ofWord w)
  | _ => .error (.reservedMajor (w.extractLsb' 25 7))

/-- The fields of a fabric doubleword below its OPC (02 Table 2.15). -/
def FWord.ofBits (w : Word) : FWord where
  pm  := w.extractLsb' 53 3
  pk  := w.extractLsb' 51 2
  fa  := w.extractLsb' 48 3
  fb  := w.extractLsb' 45 3
  fd  := w.extractLsb' 42 3
  sh  := w.extractLsb' 39 3
  t0  := w.extractLsb' 30 9
  t1  := w.extractLsb' 21 9
  imm := w.extractLsb' 0 21

/-- The fabric doubleword of an OPC and its fields. -/
def FWord.toBits (opc : BitVec 8) (f : FWord) : Word :=
  opc ++ f.pm ++ f.pk ++ f.fa ++ f.fb ++ f.fd ++ f.sh ++ f.t0 ++ f.t1 ++ f.imm

/-- The fabric instruction of an OPC (02 Table 2.19); none for a reserved OPC. -/
def fabricOf (opc : BitVec 8) (f : FWord) : Option Instr :=
  match opc.toNat with
  | 0x00 => some (.iAdd f)
  | 0x01 => some (.iSub f)
  | 0x02 => some (.iMul f)
  | 0x03 => some (.iMad f)
  | 0x04 => some (.iMin f)
  | 0x05 => some (.iMax f)
  | 0x06 => some (.iAbs f)
  | 0x07 => some (.iClamp f)
  | 0x08 => some (.iAnd f)
  | 0x09 => some (.iOr f)
  | 0x0A => some (.iXor f)
  | 0x0B => some (.iShl f)
  | 0x0C => some (.iShr f)
  | 0x0D => some (.iSra f)
  | 0x0E => some (.iCmp f)
  | 0x0F => some (.sel f)
  | 0x10 => some (.fabricMov f)
  | 0x11 => some (.const f)
  | 0x12 => some (.mix f)
  | 0x40 => some (.fAdd f)
  | 0x41 => some (.fSub f)
  | 0x42 => some (.fMul f)
  | 0x43 => some (.fFma f)
  | 0x44 => some (.fMin f)
  | 0x45 => some (.fMax f)
  | 0x46 => some (.fAbs f)
  | 0x47 => some (.fNeg f)
  | 0x48 => some (.fCmp f)
  | 0x50 => some (.fRcp f)
  | 0x51 => some (.fRsq f)
  | 0x52 => some (.fExp2 f)
  | 0x53 => some (.fLog2 f)
  | 0x54 => some (.fSig f)
  | 0x55 => some (.fTanh f)
  | 0x58 => some (.cvt f)
  | 0x59 => some (.pack f)
  | 0x5A => some (.unpack f)
  | 0x60 => some (.rEnc f)
  | 0x61 => some (.rDec f)
  | 0x62 => some (.rMac f)
  | 0x68 => some (.xl f)
  | 0x69 => some (.red f)
  | 0x80 => some (.fork f)
  | 0x81 => some (.steer f)
  | 0x82 => some (.merge f)
  | 0x83 => some (.mergeU f)
  | 0x84 => some (.filter f)
  | 0x85 => some (.recirc f)
  | 0x86 => some (.gate f)
  | 0x87 => some (.seq f)
  | 0x88 => some (.mark f)
  | 0xA0 => some (.ldS f)
  | 0xA1 => some (.stS f)
  | 0xA2 => some (.amoS f)
  | 0xA3 => some (.ldG f)
  | 0xA4 => some (.stG f)
  | 0xA5 => some (.ag f)
  | 0xA8 => some (.ldC f)
  | 0xA9 => some (.stC f)
  | 0xAA => some (.cAlloc f)
  | 0xAB => some (.cSeal f)
  | 0xC0 => some (.accRd f)
  | 0xC1 => some (.aRow f)
  | 0xC2 => some (.cfgTok f)
  | _ => none

/-- Decode a fabric doubleword (02/R32-R36). The checks that depend on the opcode's own description, on the
block and on the casting are made by `cast.load` on the image (Machine/CastImage.lean). -/
def decodeFabric (w : Word) : Except Reject Instr :=
  match fabricOf (w.extractLsb' 56 8) (FWord.ofBits w) with
  | none => .error (.reservedOpc (w.extractLsb' 56 8))
  | some i => if i.wf then .ok i else .error (.fabricField (w.extractLsb' 56 8))

/-- The OPC of a fabric instruction. -/
def Instr.fabricOpc (i : Instr) : Option (BitVec 8 × FWord) :=
  match i with
  | .iAdd f => some (0x00#8, f)
  | .iSub f => some (0x01#8, f)
  | .iMul f => some (0x02#8, f)
  | .iMad f => some (0x03#8, f)
  | .iMin f => some (0x04#8, f)
  | .iMax f => some (0x05#8, f)
  | .iAbs f => some (0x06#8, f)
  | .iClamp f => some (0x07#8, f)
  | .iAnd f => some (0x08#8, f)
  | .iOr f => some (0x09#8, f)
  | .iXor f => some (0x0A#8, f)
  | .iShl f => some (0x0B#8, f)
  | .iShr f => some (0x0C#8, f)
  | .iSra f => some (0x0D#8, f)
  | .iCmp f => some (0x0E#8, f)
  | .sel f => some (0x0F#8, f)
  | .fabricMov f => some (0x10#8, f)
  | .const f => some (0x11#8, f)
  | .mix f => some (0x12#8, f)
  | .fAdd f => some (0x40#8, f)
  | .fSub f => some (0x41#8, f)
  | .fMul f => some (0x42#8, f)
  | .fFma f => some (0x43#8, f)
  | .fMin f => some (0x44#8, f)
  | .fMax f => some (0x45#8, f)
  | .fAbs f => some (0x46#8, f)
  | .fNeg f => some (0x47#8, f)
  | .fCmp f => some (0x48#8, f)
  | .fRcp f => some (0x50#8, f)
  | .fRsq f => some (0x51#8, f)
  | .fExp2 f => some (0x52#8, f)
  | .fLog2 f => some (0x53#8, f)
  | .fSig f => some (0x54#8, f)
  | .fTanh f => some (0x55#8, f)
  | .cvt f => some (0x58#8, f)
  | .pack f => some (0x59#8, f)
  | .unpack f => some (0x5A#8, f)
  | .rEnc f => some (0x60#8, f)
  | .rDec f => some (0x61#8, f)
  | .rMac f => some (0x62#8, f)
  | .xl f => some (0x68#8, f)
  | .red f => some (0x69#8, f)
  | .fork f => some (0x80#8, f)
  | .steer f => some (0x81#8, f)
  | .merge f => some (0x82#8, f)
  | .mergeU f => some (0x83#8, f)
  | .filter f => some (0x84#8, f)
  | .recirc f => some (0x85#8, f)
  | .gate f => some (0x86#8, f)
  | .seq f => some (0x87#8, f)
  | .mark f => some (0x88#8, f)
  | .ldS f => some (0xA0#8, f)
  | .stS f => some (0xA1#8, f)
  | .amoS f => some (0xA2#8, f)
  | .ldG f => some (0xA3#8, f)
  | .stG f => some (0xA4#8, f)
  | .ag f => some (0xA5#8, f)
  | .ldC f => some (0xA8#8, f)
  | .stC f => some (0xA9#8, f)
  | .cAlloc f => some (0xAA#8, f)
  | .cSeal f => some (0xAB#8, f)
  | .accRd f => some (0xC0#8, f)
  | .aRow f => some (0xC1#8, f)
  | .cfgTok f => some (0xC2#8, f)
  | _ => none

/-- The little-endian word at the head of a list of bytes; missing bytes read zero. -/
def wordOfBytes (bs : List Byte) : W32 :=
  bs.getD 3 0 ++ bs.getD 2 0 ++ bs.getD 1 0 ++ bs.getD 0 0

/-- Decode a control-thread instruction from bytes, with the bytes after it (00/R3, 02/R19). -/
def decodeBytes (bs : List Byte) : Except Reject (Instr × List Byte) :=
  let w := wordOfBytes bs
  match decodeWords w (wordOfBytes (bs.drop 4)) with
  | .error r => .error r
  | .ok i => .ok (i, bs.drop (if isLong w then 8 else 4))

/-- The four little-endian bytes of a word. -/
def bytesOfWord (w : W32) : List Byte :=
  [w.extractLsb' 0 8, w.extractLsb' 8 8, w.extractLsb' 16 8, w.extractLsb' 24 8]

/-- The instruction of `nbits` bits `w`, numbered as the opcode table numbers them. A control-thread word is laid
out little-endian and given to `decodeBytes`; of more than 32 bits, an L form is taken as its two words and
anything else as a fabric doubleword. -/
def decodeTableWord (nbits w : Nat) : Option Instr :=
  let lo := BitVec.ofNat 32 w
  let hi := BitVec.ofNat 32 (w >>> 32)
  let ctl := match decodeBytes (bytesOfWord lo ++ bytesOfWord hi) with
    | .ok (i, _) => some i
    | .error _ => none
  if nbits ≤ 32 ∨ isLong lo then ctl
  else match decodeFabric (hi ++ lo) with
    | .ok i => some i
    | .error _ => none

/-- The words of a control-thread instruction, first word first (02 Tables 2.2 and 2.11-2.14); an instruction of
the fabric set gives its doubleword low word first, and an event has no words. -/
def encode (i : Instr) : List W32 :=
  match i with
  | .add d a b => [FormR.toWord ⟨0x00#7, d, a.reg, BitVec.ofBool a.wait, b.reg, BitVec.ofBool b.wait, 0#5⟩]
  | .sub d a b => [FormR.toWord ⟨0x00#7, d, a.reg, BitVec.ofBool a.wait, b.reg, BitVec.ofBool b.wait, 1#5⟩]
  | .mul d a b => [FormR.toWord ⟨0x00#7, d, a.reg, BitVec.ofBool a.wait, b.reg, BitVec.ofBool b.wait, 2#5⟩]
  | .mulh d a b => [FormR.toWord ⟨0x00#7, d, a.reg, BitVec.ofBool a.wait, b.reg, BitVec.ofBool b.wait, 3#5⟩]
  | .mulhu d a b => [FormR.toWord ⟨0x00#7, d, a.reg, BitVec.ofBool a.wait, b.reg, BitVec.ofBool b.wait, 4#5⟩]
  | .div d a b => [FormR.toWord ⟨0x00#7, d, a.reg, BitVec.ofBool a.wait, b.reg, BitVec.ofBool b.wait, 5#5⟩]
  | .divu d a b => [FormR.toWord ⟨0x00#7, d, a.reg, BitVec.ofBool a.wait, b.reg, BitVec.ofBool b.wait, 6#5⟩]
  | .rem d a b => [FormR.toWord ⟨0x00#7, d, a.reg, BitVec.ofBool a.wait, b.reg, BitVec.ofBool b.wait, 7#5⟩]
  | .remu d a b => [FormR.toWord ⟨0x00#7, d, a.reg, BitVec.ofBool a.wait, b.reg, BitVec.ofBool b.wait, 8#5⟩]
  | .and d a b => [FormR.toWord ⟨0x00#7, d, a.reg, BitVec.ofBool a.wait, b.reg, BitVec.ofBool b.wait, 9#5⟩]
  | .or d a b => [FormR.toWord ⟨0x00#7, d, a.reg, BitVec.ofBool a.wait, b.reg, BitVec.ofBool b.wait, 10#5⟩]
  | .xor d a b => [FormR.toWord ⟨0x00#7, d, a.reg, BitVec.ofBool a.wait, b.reg, BitVec.ofBool b.wait, 11#5⟩]
  | .andn d a b => [FormR.toWord ⟨0x00#7, d, a.reg, BitVec.ofBool a.wait, b.reg, BitVec.ofBool b.wait, 12#5⟩]
  | .shl d a b => [FormR.toWord ⟨0x00#7, d, a.reg, BitVec.ofBool a.wait, b.reg, BitVec.ofBool b.wait, 13#5⟩]
  | .shr d a b => [FormR.toWord ⟨0x00#7, d, a.reg, BitVec.ofBool a.wait, b.reg, BitVec.ofBool b.wait, 14#5⟩]
  | .sra d a b => [FormR.toWord ⟨0x00#7, d, a.reg, BitVec.ofBool a.wait, b.reg, BitVec.ofBool b.wait, 15#5⟩]
  | .rot d a b => [FormR.toWord ⟨0x00#7, d, a.reg, BitVec.ofBool a.wait, b.reg, BitVec.ofBool b.wait, 16#5⟩]
  | .min d a b => [FormR.toWord ⟨0x00#7, d, a.reg, BitVec.ofBool a.wait, b.reg, BitVec.ofBool b.wait, 17#5⟩]
  | .minu d a b => [FormR.toWord ⟨0x00#7, d, a.reg, BitVec.ofBool a.wait, b.reg, BitVec.ofBool b.wait, 18#5⟩]
  | .max d a b => [FormR.toWord ⟨0x00#7, d, a.reg, BitVec.ofBool a.wait, b.reg, BitVec.ofBool b.wait, 19#5⟩]
  | .maxu d a b => [FormR.toWord ⟨0x00#7, d, a.reg, BitVec.ofBool a.wait, b.reg, BitVec.ofBool b.wait, 20#5⟩]
  | .mov d a => [FormR.toWord ⟨0x00#7, d, a.reg, BitVec.ofBool a.wait, 0#6, 0#1, 21#5⟩]
  | .clz d a => [FormR.toWord ⟨0x00#7, d, a.reg, BitVec.ofBool a.wait, 0#6, 0#1, 22#5⟩]
  | .popc d a => [FormR.toWord ⟨0x00#7, d, a.reg, BitVec.ofBool a.wait, 0#6, 0#1, 23#5⟩]
  | .addi d a i => [FormI.toWord ⟨0x01#7, d, a.reg, BitVec.ofBool a.wait, i⟩]
  | .andi d a i => [FormI.toWord ⟨0x02#7, d, a.reg, BitVec.ofBool a.wait, i⟩]
  | .ori d a i => [FormI.toWord ⟨0x03#7, d, a.reg, BitVec.ofBool a.wait, i⟩]
  | .xori d a i => [FormI.toWord ⟨0x04#7, d, a.reg, BitVec.ofBool a.wait, i⟩]
  | .shli d a n => [FormI.toWord ⟨0x05#7, d, a.reg, BitVec.ofBool a.wait, 0#6 ++ n⟩]
  | .shri d a n => [FormI.toWord ⟨0x06#7, d, a.reg, BitVec.ofBool a.wait, 0#6 ++ n⟩]
  | .srai d a n => [FormI.toWord ⟨0x07#7, d, a.reg, BitVec.ofBool a.wait, 0#6 ++ n⟩]
  | .bfx d a p l => [FormI.toWord ⟨0x08#7, d, a.reg, BitVec.ofBool a.wait, p ++ l⟩]
  | .bfxu d a p l => [FormI.toWord ⟨0x09#7, d, a.reg, BitVec.ofBool a.wait, p ++ l⟩]
  | .bfi d a p l => [FormI.toWord ⟨0x0A#7, d, a.reg, BitVec.ofBool a.wait, p ++ l⟩]
  | .sext d a i => [FormI.toWord ⟨0x0B#7, d, a.reg, BitVec.ofBool a.wait, i⟩]
  | .movi d i => [FormI.toWord ⟨0x0C#7, d, 0#6, 0#1, i⟩]
  | .movl d imm => [FormI.toWord ⟨0x0D#7, d, 0#6, 0#1, 0#12⟩, imm]
  | .movhi d a imm => [FormI.toWord ⟨0x0D#7, d, a.reg, BitVec.ofBool a.wait, 1#12⟩, imm]
  | .cmpEq d a b => [FormR.toWord ⟨0x10#7, 0#3 ++ d, a.reg, BitVec.ofBool a.wait, b.reg, BitVec.ofBool b.wait, 0#5⟩]
  | .cmpNe d a b => [FormR.toWord ⟨0x10#7, 0#3 ++ d, a.reg, BitVec.ofBool a.wait, b.reg, BitVec.ofBool b.wait, 1#5⟩]
  | .cmpLt d a b => [FormR.toWord ⟨0x10#7, 0#3 ++ d, a.reg, BitVec.ofBool a.wait, b.reg, BitVec.ofBool b.wait, 2#5⟩]
  | .cmpLtu d a b => [FormR.toWord ⟨0x10#7, 0#3 ++ d, a.reg, BitVec.ofBool a.wait, b.reg, BitVec.ofBool b.wait, 3#5⟩]
  | .cmpLe d a b => [FormR.toWord ⟨0x10#7, 0#3 ++ d, a.reg, BitVec.ofBool a.wait, b.reg, BitVec.ofBool b.wait, 4#5⟩]
  | .cmpLeu d a b => [FormR.toWord ⟨0x10#7, 0#3 ++ d, a.reg, BitVec.ofBool a.wait, b.reg, BitVec.ofBool b.wait, 5#5⟩]
  | .pand d a b => [FormR.toWord ⟨0x11#7, 0#3 ++ d, 0#3 ++ a, 0#1, 0#3 ++ b, 0#1, 0#5⟩]
  | .por d a b => [FormR.toWord ⟨0x11#7, 0#3 ++ d, 0#3 ++ a, 0#1, 0#3 ++ b, 0#1, 1#5⟩]
  | .pxor d a b => [FormR.toWord ⟨0x11#7, 0#3 ++ d, 0#3 ++ a, 0#1, 0#3 ++ b, 0#1, 2#5⟩]
  | .pnot d a => [FormR.toWord ⟨0x11#7, 0#3 ++ d, 0#3 ++ a, 0#1, 0#6, 0#1, 3#5⟩]
  | .psel d a b k => [FormR.toWord ⟨0x12#7, d, a.reg, BitVec.ofBool a.wait, b.reg, BitVec.ofBool b.wait, 0#2 ++ k⟩]
  | .ldB d a h o => [FormM.toWord ⟨0x18#7, d, a.reg, BitVec.ofBool a.wait, h, o⟩]
  | .ldBu d a h o => [FormM.toWord ⟨0x19#7, d, a.reg, BitVec.ofBool a.wait, h, o⟩]
  | .ldH d a h o => [FormM.toWord ⟨0x1A#7, d, a.reg, BitVec.ofBool a.wait, h, o⟩]
  | .ldHu d a h o => [FormM.toWord ⟨0x1B#7, d, a.reg, BitVec.ofBool a.wait, h, o⟩]
  | .ldW d a h o => [FormM.toWord ⟨0x1C#7, d, a.reg, BitVec.ofBool a.wait, h, o⟩]
  | .ldWu d a h o => [FormM.toWord ⟨0x1D#7, d, a.reg, BitVec.ofBool a.wait, h, o⟩]
  | .ldD d a h o => [FormM.toWord ⟨0x1E#7, d, a.reg, BitVec.ofBool a.wait, h, o⟩]
  | .stB s a h o => [FormM.toWord ⟨0x20#7, s, a.reg, BitVec.ofBool a.wait, h, o⟩]
  | .stH s a h o => [FormM.toWord ⟨0x21#7, s, a.reg, BitVec.ofBool a.wait, h, o⟩]
  | .stW s a h o => [FormM.toWord ⟨0x22#7, s, a.reg, BitVec.ofBool a.wait, h, o⟩]
  | .stD s a h o => [FormM.toWord ⟨0x23#7, s, a.reg, BitVec.ofBool a.wait, h, o⟩]
  | .pfetch a h o => [FormM.toWord ⟨0x24#7, 0#6, a.reg, BitVec.ofBool a.wait, h, o⟩]
  | .amoAdd d a h p => [FormQ.toWord ⟨0x28#7, d, a.reg, BitVec.ofBool a.wait, h, p, 0#5⟩]
  | .amoAnd d a h p => [FormQ.toWord ⟨0x28#7, d, a.reg, BitVec.ofBool a.wait, h, p, 1#5⟩]
  | .amoOr d a h p => [FormQ.toWord ⟨0x28#7, d, a.reg, BitVec.ofBool a.wait, h, p, 2#5⟩]
  | .amoXor d a h p => [FormQ.toWord ⟨0x28#7, d, a.reg, BitVec.ofBool a.wait, h, p, 3#5⟩]
  | .amoMin d a h p => [FormQ.toWord ⟨0x28#7, d, a.reg, BitVec.ofBool a.wait, h, p, 4#5⟩]
  | .amoMinu d a h p => [FormQ.toWord ⟨0x28#7, d, a.reg, BitVec.ofBool a.wait, h, p, 5#5⟩]
  | .amoMax d a h p => [FormQ.toWord ⟨0x28#7, d, a.reg, BitVec.ofBool a.wait, h, p, 6#5⟩]
  | .amoMaxu d a h p => [FormQ.toWord ⟨0x28#7, d, a.reg, BitVec.ofBool a.wait, h, p, 7#5⟩]
  | .amoSwap d a h p => [FormQ.toWord ⟨0x28#7, d, a.reg, BitVec.ofBool a.wait, h, p, 8#5⟩]
  | .amoCas d a h p => [FormQ.toWord ⟨0x28#7, d, a.reg, BitVec.ofBool a.wait, h, p, 9#5⟩]
  | .fence s g => [FormA.toWord ⟨0x2F#7, 0#6, 0#6, 0#1, 0#4, s, g, 0#1⟩]
  | .hsub d a b s => [FormR.toWord ⟨0x30#7, 0#2 ++ d, a.reg, BitVec.ofBool a.wait, b.reg, BitVec.ofBool b.wait, 0#1 ++ s⟩]
  | .hrights d s m => [FormI.toWord ⟨0x31#7, 0#2 ++ d, 0#2 ++ s, 0#1, 0#7 ++ m⟩]
  | .hbase d s => [FormR.toWord ⟨0x32#7, d, 0#6, 0#1, 0#6, 0#1, 0#1 ++ s⟩]
  | .hlen d s => [FormR.toWord ⟨0x33#7, d, 0#6, 0#1, 0#6, 0#1, 0#1 ++ s⟩]
  | .hmov d s => [FormR.toWord ⟨0x34#7, 0#2 ++ d, 0#6, 0#1, 0#6, 0#1, 0#1 ++ s⟩]
  | .hcheck d a h p m => [FormQ.toWord ⟨0x35#7, d, a.reg, BitVec.ofBool a.wait, h, p, m⟩]
  | .fmtWin s a h o => [FormM.toWord ⟨0x36#7, s, a.reg, BitVec.ofBool a.wait, h, o⟩]
  | .br p n o => [FormB.toWord ⟨0x38#7, p, BitVec.ofBool n, o⟩]
  | .jmp o => [FormB.toWord ⟨0x39#7, 0#3, 0#1, o⟩]
  | .call o => [FormB.toWord ⟨0x3A#7, 0#3, 0#1, o⟩]
  | .jr a => [FormR.toWord ⟨0x3B#7, 0#6, a.reg, BitVec.ofBool a.wait, 0#6, 0#1, 0#5⟩]
  | .callr a => [FormR.toWord ⟨0x3B#7, 0#6, a.reg, BitVec.ofBool a.wait, 0#6, 0#1, 1#5⟩]
  | .ret => [FormR.toWord ⟨0x3B#7, 0#6, 0#6, 0#1, 0#6, 0#1, 2#5⟩]
  | .enter n => [FormI.toWord ⟨0x3C#7, 0#6, 0#6, 0#1, n⟩]
  | .loop count e => [FormI.toWord ⟨0x3D#7, 0#6, 0#6, 0#1, 0#12⟩, e ++ count]
  | .loopr a e => [FormI.toWord ⟨0x3E#7, 0#6, a.reg, BitVec.ofBool a.wait, 0#4 ++ e⟩]
  | .cpIssue d a h p s q => [FormQ.toWord ⟨0x40#7, d, a.reg, BitVec.ofBool a.wait, h, p, s ++ q⟩]
  | .cpSched a h p s q => [FormQ.toWord ⟨0x41#7, 0#6, a.reg, BitVec.ofBool a.wait, h, p, s ++ q⟩]
  | .cpAdv d a p s q => [FormQ.toWord ⟨0x42#7, d, a.reg, BitVec.ofBool a.wait, 0#4, p, s ++ q⟩]
  | .cpStatus d p s q => [FormQ.toWord ⟨0x43#7, d, 0#6, 0#1, 0#4, p, s ++ q⟩]
  | .ringInit d a h p => [FormQ.toWord ⟨0x44#7, d, a.reg, BitVec.ofBool a.wait, h, p, 0#5⟩]
  | .ringWait d a h p => [FormQ.toWord ⟨0x45#7, d, a.reg, BitVec.ofBool a.wait, h, p, 0#5⟩]
  | .ringRel a h p => [FormQ.toWord ⟨0x46#7, 0#6, a.reg, BitVec.ofBool a.wait, h, p, 0#5⟩]
  | .ringWptr d a h p => [FormQ.toWord ⟨0x47#7, d, a.reg, BitVec.ofBool a.wait, h, p, 0#5⟩]
  | .qfence s m => [FormI.toWord ⟨0x48#7, 0#6, 0#6, 0#1, 0#2 ++ s ++ m⟩]
  | .smap d a p => [FormQ.toWord ⟨0x50#7, d, a.reg, BitVec.ofBool a.wait, 0#4, p, 0#5⟩]
  | .sunmap d p => [FormQ.toWord ⟨0x51#7, d, 0#6, 0#1, 0#4, p, 0#5⟩]
  | .sprot d p m => [FormQ.toWord ⟨0x52#7, d, 0#6, 0#1, 0#4, p, 0#3 ++ m⟩]
  | .sevict d p => [FormQ.toWord ⟨0x53#7, d, 0#6, 0#1, 0#4, p, 0#5⟩]
  | .smig d a p => [FormQ.toWord ⟨0x54#7, d, a.reg, BitVec.ofBool a.wait, 0#4, p, 0#5⟩]
  | .squery d a => [FormR.toWord ⟨0x55#7, d, a.reg, BitVec.ofBool a.wait, 0#6, 0#1, 0#5⟩]
  | .sfix a => [FormR.toWord ⟨0x56#7, 0#6, a.reg, BitVec.ofBool a.wait, 0#6, 0#1, 0#5⟩]
  | .calloc d a p t => [FormQ.toWord ⟨0x58#7, d, a.reg, BitVec.ofBool a.wait, 0#4, p, 0#1 ++ t⟩]
  | .cseal a s g => [FormA.toWord ⟨0x59#7, 0#6, a.reg, BitVec.ofBool a.wait, 0#4, s, g, 0#1⟩]
  | .cldR d a b z => [FormR.toWord ⟨0x5A#7, d, a.reg, BitVec.ofBool a.wait, b.reg, BitVec.ofBool b.wait, 0#3 ++ z⟩]
  | .cfin => [FormR.toWord ⟨0x5B#7, 0#6, 0#6, 0#1, 0#6, 0#1, 0#5⟩]
  | .cdrop a n => [FormI.toWord ⟨0x5C#7, 0#6, a.reg, BitVec.ofBool a.wait, n⟩]
  | .cinfo d a => [FormR.toWord ⟨0x5D#7, d, a.reg, BitVec.ofBool a.wait, 0#6, 0#1, 0#5⟩]
  | .cpart a t => [FormI.toWord ⟨0x5E#7, 0#6, a.reg, BitVec.ofBool a.wait, 0#8 ++ t⟩]
  | .mxBind a h p i => [FormQ.toWord ⟨0x60#7, 0#6, a.reg, BitVec.ofBool a.wait, h, p, 0#2 ++ i⟩]
  | .mxScale a h p i => [FormQ.toWord ⟨0x61#7, 0#6, a.reg, BitVec.ofBool a.wait, h, p, 0#2 ++ i⟩]
  | .mxMode a p i => [FormQ.toWord ⟨0x62#7, 0#6, a.reg, BitVec.ofBool a.wait, 0#4, p, 0#2 ++ i⟩]
  | .mxFire d a p i => [FormQ.toWord ⟨0x63#7, d, a.reg, BitVec.ofBool a.wait, 0#4, p, 0#2 ++ i⟩]
  | .mxAcc d a p i => [FormQ.toWord ⟨0x64#7, d, a.reg, BitVec.ofBool a.wait, 0#4, p, 0#2 ++ i⟩]
  | .mxRlbl i o => [FormB.toWord ⟨0x65#7, i, 0#1, o⟩]
  | .mxDrain p i => [FormQ.toWord ⟨0x66#7, 0#6, 0#6, 0#1, 0#4, p, 0#2 ++ i⟩]
  | .mxUnpin p i => [FormQ.toWord ⟨0x67#7, 0#6, 0#6, 0#1, 0#4, p, 0#2 ++ i⟩]
  | .castLoad d a h p => [FormQ.toWord ⟨0x68#7, d, a.reg, BitVec.ofBool a.wait, h, p, 0#5⟩]
  | .castBind d h p n => [FormQ.toWord ⟨0x69#7, d, 0#6, 0#1, h, p, n⟩]
  | .castKill d p => [FormQ.toWord ⟨0x6A#7, d, 0#6, 0#1, 0#4, p, 0#5⟩]
  | .castEnd d p => [FormQ.toWord ⟨0x6B#7, d, 0#6, 0#1, 0#4, p, 0#5⟩]
  | .bpush d a port p => [FormQ.toWord ⟨0x6C#7, d, a.reg, BitVec.ofBool a.wait, 0#3 ++ port.extractLsb' 5 1, p, port.extractLsb' 0 5⟩]
  | .bpull d a port p => [FormQ.toWord ⟨0x6D#7, d, a.reg, BitVec.ofBool a.wait, 0#3 ++ port.extractLsb' 5 1, p, port.extractLsb' 0 5⟩]
  | .bmark d port p => [FormQ.toWord ⟨0x6E#7, d, 0#6, 0#1, 0#3 ++ port.extractLsb' 5 1, p, port.extractLsb' 0 5⟩]
  | .kvFind d a h p => [FormQ.toWord ⟨0x70#7, d, a.reg, BitVec.ofBool a.wait, h, p, 0#5⟩]
  | .kvAddPool d a h p => [FormQ.toWord ⟨0x71#7, d, a.reg, BitVec.ofBool a.wait, h, p, 0#5⟩]
  | .kvAddOpen d a h p => [FormQ.toWord ⟨0x71#7, d, a.reg, BitVec.ofBool a.wait, h, p, 0#5⟩]
  | .kvAddAppend d a h p => [FormQ.toWord ⟨0x71#7, d, a.reg, BitVec.ofBool a.wait, h, p, 0#5⟩]
  | .kvAddAttach d a h p => [FormQ.toWord ⟨0x71#7, d, a.reg, BitVec.ofBool a.wait, h, p, 0#5⟩]
  | .kvAddPublish d a h p => [FormQ.toWord ⟨0x71#7, d, a.reg, BitVec.ofBool a.wait, h, p, 0#5⟩]
  | .kvAddClose d a h p => [FormQ.toWord ⟨0x71#7, d, a.reg, BitVec.ofBool a.wait, h, p, 0#5⟩]
  | .kvAddDemote d a h p => [FormQ.toWord ⟨0x71#7, d, a.reg, BitVec.ofBool a.wait, h, p, 0#5⟩]
  | .kvPromote d a p => [FormQ.toWord ⟨0x72#7, d, a.reg, BitVec.ofBool a.wait, 0#4, p, 0#5⟩]
  | .kvPromoteCancel d a p => [FormQ.toWord ⟨0x72#7, d, a.reg, BitVec.ofBool a.wait, 0#4, p, 1#5⟩]
  | .dwOpen d a p n => [FormQ.toWord ⟨0x73#7, d, a.reg, BitVec.ofBool a.wait, 0#4, p, 0#1 ++ n⟩]
  | .dwSnap d a p => [FormQ.toWord ⟨0x74#7, d, a.reg, BitVec.ofBool a.wait, 0#4, p, 0#5⟩]
  | .dwCommit d a s g => [FormA.toWord ⟨0x75#7, d, a.reg, BitVec.ofBool a.wait, 0#4, s, g, 0#1⟩]
  | .dwAbort a s g => [FormA.toWord ⟨0x76#7, 0#6, a.reg, BitVec.ofBool a.wait, 0#4, s, g, 0#1⟩]
  | .dwStat d a => [FormR.toWord ⟨0x77#7, d, a.reg, BitVec.ofBool a.wait, 0#6, 0#1, 0#5⟩]
  | .xmcast d a h p => [FormQ.toWord ⟨0x78#7, d, a.reg, BitVec.ofBool a.wait, h, p, 0#5⟩]
  | .xcomb d a h p o => [FormQ.toWord ⟨0x79#7, d, a.reg, BitVec.ofBool a.wait, h, p, 0#2 ++ o⟩]
  | .xbar d a s g => [FormA.toWord ⟨0x7A#7, d, a.reg, BitVec.ofBool a.wait, 0#4, s, g, 0#1⟩]
  | .xid d => [FormR.toWord ⟨0x7B#7, d, 0#6, 0#1, 0#6, 0#1, 0#5⟩]
  | .chanBind d a p => [FormQ.toWord ⟨0x7C#7, d, a.reg, BitVec.ofBool a.wait, 0#4, p, 0#5⟩]
  | .chanYield => [FormQ.toWord ⟨0x7C#7, 0#6, 0#6, 0#1, 0#4, 0#3, 1#5⟩]
  | .chanRaise d a p => [FormQ.toWord ⟨0x7C#7, d, a.reg, BitVec.ofBool a.wait, 0#4, p, 2#5⟩]
  | .qput d a h p => [FormQ.toWord ⟨0x7C#7, d, a.reg, BitVec.ofBool a.wait, h, p, 3#5⟩]
  | .qget d a h p => [FormQ.toWord ⟨0x7C#7, d, a.reg, BitVec.ofBool a.wait, h, p, 4#5⟩]
  | .barArrive d a p => [FormQ.toWord ⟨0x7C#7, d, a.reg, BitVec.ofBool a.wait, 0#4, p, 5#5⟩]
  | .barWait d a p => [FormQ.toWord ⟨0x7C#7, d, a.reg, BitVec.ofBool a.wait, 0#4, p, 6#5⟩]
  | .barTest d a p => [FormQ.toWord ⟨0x7C#7, d, a.reg, BitVec.ofBool a.wait, 0#4, p, 7#5⟩]
  | .trap c => [FormI.toWord ⟨0x7D#7, 0#6, 0#6, 0#1, 0#4 ++ c⟩]
  | .eret => [FormI.toWord ⟨0x7D#7, 0#6, 0#6, 0#1, 256#12⟩]
  | .srd d r => [FormI.toWord ⟨0x7D#7, d, 0#6, 0#1, 2#4 ++ r⟩]
  | .swr a r => [FormI.toWord ⟨0x7D#7, 0#6, a.reg, BitVec.ofBool a.wait, 3#4 ++ r⟩]
  | .brk c => [FormI.toWord ⟨0x7D#7, 0#6, 0#6, 0#1, 4#4 ++ c⟩]
  | .nop => [FormI.toWord ⟨0x7D#7, 0#6, 0#6, 0#1, 1280#12⟩]
  | .iAdd f => let w := FWord.toBits 0x00#8 f; [w.extractLsb' 0 32, w.extractLsb' 32 32]
  | .iSub f => let w := FWord.toBits 0x01#8 f; [w.extractLsb' 0 32, w.extractLsb' 32 32]
  | .iMul f => let w := FWord.toBits 0x02#8 f; [w.extractLsb' 0 32, w.extractLsb' 32 32]
  | .iMad f => let w := FWord.toBits 0x03#8 f; [w.extractLsb' 0 32, w.extractLsb' 32 32]
  | .iMin f => let w := FWord.toBits 0x04#8 f; [w.extractLsb' 0 32, w.extractLsb' 32 32]
  | .iMax f => let w := FWord.toBits 0x05#8 f; [w.extractLsb' 0 32, w.extractLsb' 32 32]
  | .iAbs f => let w := FWord.toBits 0x06#8 f; [w.extractLsb' 0 32, w.extractLsb' 32 32]
  | .iClamp f => let w := FWord.toBits 0x07#8 f; [w.extractLsb' 0 32, w.extractLsb' 32 32]
  | .iAnd f => let w := FWord.toBits 0x08#8 f; [w.extractLsb' 0 32, w.extractLsb' 32 32]
  | .iOr f => let w := FWord.toBits 0x09#8 f; [w.extractLsb' 0 32, w.extractLsb' 32 32]
  | .iXor f => let w := FWord.toBits 0x0A#8 f; [w.extractLsb' 0 32, w.extractLsb' 32 32]
  | .iShl f => let w := FWord.toBits 0x0B#8 f; [w.extractLsb' 0 32, w.extractLsb' 32 32]
  | .iShr f => let w := FWord.toBits 0x0C#8 f; [w.extractLsb' 0 32, w.extractLsb' 32 32]
  | .iSra f => let w := FWord.toBits 0x0D#8 f; [w.extractLsb' 0 32, w.extractLsb' 32 32]
  | .iCmp f => let w := FWord.toBits 0x0E#8 f; [w.extractLsb' 0 32, w.extractLsb' 32 32]
  | .sel f => let w := FWord.toBits 0x0F#8 f; [w.extractLsb' 0 32, w.extractLsb' 32 32]
  | .fabricMov f => let w := FWord.toBits 0x10#8 f; [w.extractLsb' 0 32, w.extractLsb' 32 32]
  | .const f => let w := FWord.toBits 0x11#8 f; [w.extractLsb' 0 32, w.extractLsb' 32 32]
  | .mix f => let w := FWord.toBits 0x12#8 f; [w.extractLsb' 0 32, w.extractLsb' 32 32]
  | .fAdd f => let w := FWord.toBits 0x40#8 f; [w.extractLsb' 0 32, w.extractLsb' 32 32]
  | .fSub f => let w := FWord.toBits 0x41#8 f; [w.extractLsb' 0 32, w.extractLsb' 32 32]
  | .fMul f => let w := FWord.toBits 0x42#8 f; [w.extractLsb' 0 32, w.extractLsb' 32 32]
  | .fFma f => let w := FWord.toBits 0x43#8 f; [w.extractLsb' 0 32, w.extractLsb' 32 32]
  | .fMin f => let w := FWord.toBits 0x44#8 f; [w.extractLsb' 0 32, w.extractLsb' 32 32]
  | .fMax f => let w := FWord.toBits 0x45#8 f; [w.extractLsb' 0 32, w.extractLsb' 32 32]
  | .fAbs f => let w := FWord.toBits 0x46#8 f; [w.extractLsb' 0 32, w.extractLsb' 32 32]
  | .fNeg f => let w := FWord.toBits 0x47#8 f; [w.extractLsb' 0 32, w.extractLsb' 32 32]
  | .fCmp f => let w := FWord.toBits 0x48#8 f; [w.extractLsb' 0 32, w.extractLsb' 32 32]
  | .fRcp f => let w := FWord.toBits 0x50#8 f; [w.extractLsb' 0 32, w.extractLsb' 32 32]
  | .fRsq f => let w := FWord.toBits 0x51#8 f; [w.extractLsb' 0 32, w.extractLsb' 32 32]
  | .fExp2 f => let w := FWord.toBits 0x52#8 f; [w.extractLsb' 0 32, w.extractLsb' 32 32]
  | .fLog2 f => let w := FWord.toBits 0x53#8 f; [w.extractLsb' 0 32, w.extractLsb' 32 32]
  | .fSig f => let w := FWord.toBits 0x54#8 f; [w.extractLsb' 0 32, w.extractLsb' 32 32]
  | .fTanh f => let w := FWord.toBits 0x55#8 f; [w.extractLsb' 0 32, w.extractLsb' 32 32]
  | .cvt f => let w := FWord.toBits 0x58#8 f; [w.extractLsb' 0 32, w.extractLsb' 32 32]
  | .pack f => let w := FWord.toBits 0x59#8 f; [w.extractLsb' 0 32, w.extractLsb' 32 32]
  | .unpack f => let w := FWord.toBits 0x5A#8 f; [w.extractLsb' 0 32, w.extractLsb' 32 32]
  | .rEnc f => let w := FWord.toBits 0x60#8 f; [w.extractLsb' 0 32, w.extractLsb' 32 32]
  | .rDec f => let w := FWord.toBits 0x61#8 f; [w.extractLsb' 0 32, w.extractLsb' 32 32]
  | .rMac f => let w := FWord.toBits 0x62#8 f; [w.extractLsb' 0 32, w.extractLsb' 32 32]
  | .xl f => let w := FWord.toBits 0x68#8 f; [w.extractLsb' 0 32, w.extractLsb' 32 32]
  | .red f => let w := FWord.toBits 0x69#8 f; [w.extractLsb' 0 32, w.extractLsb' 32 32]
  | .fork f => let w := FWord.toBits 0x80#8 f; [w.extractLsb' 0 32, w.extractLsb' 32 32]
  | .steer f => let w := FWord.toBits 0x81#8 f; [w.extractLsb' 0 32, w.extractLsb' 32 32]
  | .merge f => let w := FWord.toBits 0x82#8 f; [w.extractLsb' 0 32, w.extractLsb' 32 32]
  | .mergeU f => let w := FWord.toBits 0x83#8 f; [w.extractLsb' 0 32, w.extractLsb' 32 32]
  | .filter f => let w := FWord.toBits 0x84#8 f; [w.extractLsb' 0 32, w.extractLsb' 32 32]
  | .recirc f => let w := FWord.toBits 0x85#8 f; [w.extractLsb' 0 32, w.extractLsb' 32 32]
  | .gate f => let w := FWord.toBits 0x86#8 f; [w.extractLsb' 0 32, w.extractLsb' 32 32]
  | .seq f => let w := FWord.toBits 0x87#8 f; [w.extractLsb' 0 32, w.extractLsb' 32 32]
  | .mark f => let w := FWord.toBits 0x88#8 f; [w.extractLsb' 0 32, w.extractLsb' 32 32]
  | .ldS f => let w := FWord.toBits 0xA0#8 f; [w.extractLsb' 0 32, w.extractLsb' 32 32]
  | .stS f => let w := FWord.toBits 0xA1#8 f; [w.extractLsb' 0 32, w.extractLsb' 32 32]
  | .amoS f => let w := FWord.toBits 0xA2#8 f; [w.extractLsb' 0 32, w.extractLsb' 32 32]
  | .ldG f => let w := FWord.toBits 0xA3#8 f; [w.extractLsb' 0 32, w.extractLsb' 32 32]
  | .stG f => let w := FWord.toBits 0xA4#8 f; [w.extractLsb' 0 32, w.extractLsb' 32 32]
  | .ag f => let w := FWord.toBits 0xA5#8 f; [w.extractLsb' 0 32, w.extractLsb' 32 32]
  | .ldC f => let w := FWord.toBits 0xA8#8 f; [w.extractLsb' 0 32, w.extractLsb' 32 32]
  | .stC f => let w := FWord.toBits 0xA9#8 f; [w.extractLsb' 0 32, w.extractLsb' 32 32]
  | .cAlloc f => let w := FWord.toBits 0xAA#8 f; [w.extractLsb' 0 32, w.extractLsb' 32 32]
  | .cSeal f => let w := FWord.toBits 0xAB#8 f; [w.extractLsb' 0 32, w.extractLsb' 32 32]
  | .accRd f => let w := FWord.toBits 0xC0#8 f; [w.extractLsb' 0 32, w.extractLsb' 32 32]
  | .aRow f => let w := FWord.toBits 0xC1#8 f; [w.extractLsb' 0 32, w.extractLsb' 32 32]
  | .cfgTok f => let w := FWord.toBits 0xC2#8 f; [w.extractLsb' 0 32, w.extractLsb' 32 32]
  | .longLatencyProducerComplete _ _ => []
  | .faultDelivery => []
  | .channelEntry => []
  | .streamerBeat _ _ _ => []
  | .copyCompletion _ _ _ => []
  | .scheduleEntryBegin _ _ _ => []
  | .pageIn _ _ => []
  | .pageOut _ _ => []
  | .relocation _ _ _ => []
  | .curdGrant _ => []
  | .nodeAccessPerformed _ _ => []
  | .castingMove _ _ => []
  | .castingSlice _ => []
  | .castingReturn _ => []
  | .demandExpiry _ => []
  | .forcedPreemption _ => []
  | .rowFire _ _ => []
  | .readoutPerform _ _ => []
  | .bindPerform _ _ => []
  | .tileLoadComplete _ _ => []
  | .modeItemPerform _ _ => []
  | .scaleItemPerform _ _ => []
  | .accItemPerform _ _ => []
  | .unpinItemPerform _ _ => []
  | .configTokenPerform _ _ => []
  | .appendPageCopyComplete _ => []
  | .demoteComplete _ => []
  | .promotionComplete _ => []
  | .commitPoint _ => []
  | .dispatcherPoll _ => []
  | .recordCheck _ => []
  | .launchStart _ => []
  | .steal _ => []
  | .watchdogExpiry _ => []
  | .correctedError _ => []
  | .linkCrcRetry => []
  | .hostTailWrite _ _ _ => []
  | .hostMemoryWrite _ _ => []
  | .hostMemoryRead _ _ => []
  | .hostWindowCompletion _ => []
  | .hostCompletionTimeout _ => []
  | .registerWrite _ _ _ => []
  | .tinvWrite _ => []
  | .tinvComplete => []
  | .lqctlWrite _ _ => []
  | .errorCounterWrite _ => []
  | .podidWrite _ => []
  | .podwinWrite _ _ => []
  | .killLaunch _ => []
  | .haltCasting _ => []
  | .releaseCasting _ => []
  | .haltThread _ => []
  | .releaseThread _ => []
  | .watchdogLimit _ => []
  | .readContextStore _ => []
  | .identityPublicKey _ => []
  | .attestationReport _ => []
  | .loadFirmware _ => []
  | .mailboxCommandEnd => []
  | .moduleReset _ => []
  | .thermalWarning _ => []
  | .thermalTrip => []
  | .podRequest _ _ => []
  | .linkDown _ => []
  | .responseTimeout _ => []
  | .fenceNotice _ => []
  | .podOpComplete _ => []
  | .combineResult _ _ => []
  | .combineFailureNotice _ => []
  | .illegalInstruction _ => []
  | .portGoesDown _ => []
  | .promotionCopyBegin _ => []
  | .castingConfigurationLoaded _ => []
  | .hostAtomicopRequest _ _ => []
  | .unknownMailboxCommand _ _ => []

end Sys2Proof
end

