-- ==== Sys2Proof/Machine/Flags.lean ====
section
/-! DEFINITION. The floating-point flags (03/R68-R70): their bits, and the two flag words that gather them. -/

namespace Sys2Proof.Machine

/-- Flag bits (03 Table 3.7). -/
abbrev Flags := BitVec 6

/-- NV, invalid. -/
def fNV : Flags := 1
/-- DZ, division by zero. -/
def fDZ : Flags := 2
/-- OF, overflow. -/
def fOF : Flags := 4
/-- UF, underflow. -/
def fUF : Flags := 8
/-- NX, inexact. -/
def fNX : Flags := 16
/-- RV, a non-canonical RNS24 word was read. -/
def fRV : Flags := 32

/-- A flag, when a condition holds. -/
def flagIf (c : Bool) (f : Flags) : Flags := if c then f else 0

/-- Flags go to a control thread's flag word, running or saved (03/R68). -/
def flagThread (s : State) (r : ThreadRef) (f : Flags) : State :=
  if f = 0 then s else updByRef s r fun t => { t with flags := t.flags ||| f }

/-- Flags raised for an invocation of a casting (03/R68, R70). -/
def flagCast (s : State) (cid inv : Nat) (f : Flags) : State :=
  if f = 0 then s else updCast s cid fun k => { k with flagsAt := tabUpd k.flagsAt inv 0 (· ||| f) }

/-- The flag word of a casting as read: flags of retired invocations and of those in flight (03/R68, R70). -/
def castFlags (k : CastLive) : Flags := k.flagsAt.foldl (fun f e => f ||| e.2) k.flags

end Sys2Proof.Machine
end

