-- ==== Sys2Proof/Machine/Nodes.lean ====
section
/-! DEFINITION. Firing a fabric instruction: queues and arcs (09/R214-R217), markers (09/R219, R220), node faults
(11/R286). -/

namespace Sys2Proof.Machine

/-! ## Tag words (09 Table 9.1, 9.2) -/

/-- P3-P0. -/
def tagP (t : W32) : Nat := bits t.toNat 31 28
/-- SEQ. -/
def tagSeq (t : W32) : Nat := bits t.toNat 27 12
/-- KIND. -/
def tagKind (t : W32) : Nat := bits t.toNat 11 8

/-- Build a tag word. -/
def mkTag (p seq kind : Nat) : W32 := BitVec.ofNat 32 (p * 2 ^ 28 + seq * 2 ^ 12 + kind * 2 ^ 8)

/-- Set KIND. -/
def setKind (b : Billet) (kind : Nat) : Billet := { b with tag := mkTag (tagP b.tag) (tagSeq b.tag) kind }
/-- Set P. -/
def setPred (b : Billet) (p : Nat) : Billet := { b with tag := mkTag p (tagSeq b.tag) (tagKind b.tag) }
/-- Set SEQ. -/
def setSeq (b : Billet) (seq : Nat) : Billet := { b with tag := mkTag (tagP b.tag) seq (tagKind b.tag) }

/-- A data billet. -/
def isData (b : Billet) : Bool := tagKind b.tag = 0
/-- A marker. -/
def isMarker (b : Billet) : Bool := tagKind b.tag = 1

/-- Field j of a record. -/
def fieldOf (r : BitVec 256) (j : Nat) : Nat := r.toNat / 2 ^ (32 * (j % 8)) % 2 ^ 32

/-- Set field j of a record. -/
def setField (r : BitVec 256) (j v : Nat) : BitVec 256 :=
  let lo := 32 * (j % 8)
  BitVec.ofNat 256 (r.toNat - r.toNat / 2 ^ lo % 2 ^ 32 * 2 ^ lo + v % 2 ^ 32 * 2 ^ lo)

/-- The predicate test of a fabric instruction holds (02 Table 2.15, 09/R235). -/
def pmHolds (f : FWord) (tag : W32) : Bool :=
  if f.pm = 0 then true
  else
    let v := bit tag.toNat (28 + f.pk.toNat)
    if f.pm = 1 then v else !v

/-! ## Ports and arcs (02/R34, R38) -/

/-- The block of a place. -/
def blockAt (k : CastLive) (b : Nat) : Block := k.blocks.getD b ⟨0, 0x7F, 0, 0, 0, 1, 0, 0, 0, []⟩

/-- Input port p of a block is enabled. -/
def entryOn (b : Block) (p : Nat) : Bool := bit b.entry.toNat (8 * p + 7)
/-- Its entry slot. -/
def entrySlot (b : Block) (p : Nat) : Nat := bits b.entry.toNat (8 * p + 6) (8 * p)

/-- The input port of a block that feeds input a of a slot. -/
def entryPort (b : Block) (slot : Nat) : Option Nat := firstFrom (fun p => entryOn b p && entrySlot b p == slot) 0 8

/-- All (block, port) pairs of eight ports each, in order of block, then port. -/
def blockPorts (n : Nat) : List (Nat × Nat) := (List.range (8 * n)).map fun i => (i / 8, i % 8)

/-- The casting's input ports: the enabled block inputs that no arc reaches (02/R38). -/
def inPorts (blocks : List Block) (arcs : List Arc) : List (Nat × Nat) :=
  (blockPorts blocks.length).filter fun bp =>
    (match blocks[bp.1]? with
     | some b => entryOn b bp.2
     | none => false) && !arcs.any fun a => a.tblk == bp.1 && a.tin == bp.2

/-- The casting's output ports: the block outputs that carry no arc (02/R38). -/
def outPorts (blocks : List Block) (arcs : List Arc) : List (Nat × Nat) :=
  (blockPorts blocks.length).filter fun bp =>
    (match blocks[bp.1]? with
     | some b => decide (bp.2 < b.nout)
     | none => false) && !arcs.any fun a => a.fblk == bp.1 && a.fout == bp.2

/-- Where a queue stands: an input of an instruction, an inter-block arc, a casting output port, or nowhere. -/
inductive Dest where
  | input (key port : Nat)
  | arc (i : Nat)
  | out (i : Nat)
  | none
  deriving DecidableEq, Repr

/-- The queue that a target names (02/R33). -/
def destOf (k : CastLive) (blk : Nat) (t : BitVec 9) : Dest :=
  let port := bits t.toNat 1 0
  let slot := bits t.toNat 8 2
  if port ≠ 3 then .input (128 * blk + slot) port
  else
    let o := slot % 8
    match k.arcs.findIdx? fun a => a.fblk == blk && a.fout == o with
    | some i => .arc i
    | Option.none =>
      match (outPorts k.blocks k.arcs).findIdx? fun bp => bp == (blk, o) with
      | some i => .out i
      | Option.none => .none

/-- The targets of an instruction (02/R33). -/
def targetsOf (f : FWord) : List (BitVec 9) :=
  (if f.t0 = 0x1DF then [] else [f.t0]) ++ if f.t1 = 0x1FF then [] else [f.t1]

/-- The state of the instruction at a place. -/
def nodeAt (k : CastLive) (n : NodeRef) : NodeSt := nodeOf k (nodeKey n)

/-- Change the state of an instruction within a casting. -/
def nodeUpd (k : CastLive) (n : NodeRef) (f : NodeSt → NodeSt) : CastLive :=
  { k with nodes := tabUpd k.nodes (nodeKey n) {} f }

/-! ## Takes and adds in one cycle (09/R214, R217)

Each queue of a casting has a number, by which `CastLive.fresh`, `owed` and `taken` name it. -/

/-- The queue of input `port` of an instruction. -/
def inputQ (key port : Nat) : Nat := 4 * key + port
/-- That of an arc. -/
def arcQ (i : Nat) : Nat := 4096 + i
/-- That of a casting input port. -/
def insQ (i : Nat) : Nat := 8192 + i
/-- That of a casting output port. -/
def outsQ (i : Nat) : Nat := 12288 + i

/-- How many of a queue's `len` billets may be taken from: those at its tail that were added too late are not seen yet. -/
def seenLen (k : CastLive) (q len : Nat) : Nat := len - tabGet k.fresh q 0

/-- What a take from a queue sees of it. -/
def seenOf (k : CastLive) (q : Nat) (l : List Billet) : List Billet := l.take (seenLen k q l.length)

/-- A billet is added to a queue: a take does not see it yet. -/
def noteAdd (q : Nat) (k : CastLive) : CastLive := { k with fresh := tabUpd k.fresh q 0 (· + 1) }

/-- A billet is taken from a queue. -/
def noteTake (q : Nat) (k : CastLive) : CastLive := { k with taken := q :: k.taken }

/-- A queue of `cap` billets that holds `len` has a free slot: an add finds the slots of the takes that are still to come in
this cycle (09/R217). (DESIGN CHOICE, log 12.) -/
def slotLeft (k : CastLive) (q len cap : Nat) : Bool := len < cap + (k.owed.count q - k.taken.count q)

/-- A target has a free slot (09 Table 9.4). -/
def roomAt (k : CastLive) (blk : Nat) (t : BitVec 9) : Bool :=
  match destOf k blk t with
  | .input key 0 => slotLeft k (inputQ key 0) (nodeOf k key).qa.length 4
  | .input key 1 => slotLeft k (inputQ key 1) (nodeOf k key).qb.length 4
  | .input key _ => slotLeft k (inputQ key 2) (nodeOf k key).qc.length 2
  | .arc i => match k.arcs[i]? with
    | some a => slotLeft k (arcQ i) a.q.length a.depth
    | Option.none => false
  | .out i => slotLeft k (outsQ i) (tabGet k.outs i {}).q.length 16
  | .none => true

/-- Place a billet on a target. -/
def placeAt (blk : Nat) (b : Billet) (k : CastLive) (t : BitVec 9) : CastLive :=
  match destOf k blk t with
  | .input key 0 => noteAdd (inputQ key 0) { k with nodes := tabUpd k.nodes key {} fun x => { x with qa := x.qa ++ [b] } }
  | .input key 1 => noteAdd (inputQ key 1) { k with nodes := tabUpd k.nodes key {} fun x => { x with qb := x.qb ++ [b] } }
  | .input key _ => noteAdd (inputQ key 2) { k with nodes := tabUpd k.nodes key {} fun x => { x with qc := x.qc ++ [b] } }
  | .arc i => noteAdd (arcQ i) { k with arcs := k.arcs.modify i fun a => { a with q := a.q ++ [b] } }
  | .out i => noteAdd (outsQ i) { k with outs := tabUpd k.outs i {} fun o => { o with q := o.q ++ [b] } }
  | .none => k

/-- Every target of a list has a free slot. -/
def roomFor (k : CastLive) (n : NodeRef) (ts : List (BitVec 9)) : Bool := ts.all (roomAt k n.blk)

/-- Place a billet on every target of a list. -/
def emitTo (k : CastLive) (n : NodeRef) (ts : List (BitVec 9)) (b : Billet) : CastLive :=
  ts.foldl (placeAt n.blk b) k

/-- What feeds input a of an entry slot: an arc or a casting input port (02/R38, 09/R218). -/
inductive Feed where
  | arc (i : Nat)
  | port (i : Nat)
  deriving DecidableEq, Repr

/-- The feed of input a of a place. -/
def feedOf (k : CastLive) (n : NodeRef) : Option Feed :=
  match entryPort (blockAt k n.blk) n.slot with
  | none => none
  | some p =>
    match k.arcs.findIdx? fun a => a.tblk == n.blk && a.tin == p with
    | some i => some (.arc i)
    | none => ((inPorts k.blocks k.arcs).findIdx? fun bp => bp == (n.blk, p)).map .port

/-- The head of the arc or the port that feeds input a; a billet that enters the block takes its PINIT (09/R211). -/
def fedHead (k : CastLive) (n : NodeRef) : Option Billet :=
  let raw := match feedOf k n with
    | some (.arc i) => (k.arcs[i]?).bind fun a => (seenOf k (arcQ i) a.q).head?
    | some (.port i) => (seenOf k (insQ i) (tabGet k.ins i {}).q).head?
    | none => none
  raw.map fun b => setPred b (blockAt k n.blk).pinit.toNat

/-- The head of input a: a billet in the input's own queue, a restart token among them, stands before the entry's arc or port
(17/R400). (DEDUCED, log 48.) -/
def headA (k : CastLive) (n : NodeRef) : Option Billet :=
  (seenOf k (inputQ (nodeKey n) 0) (nodeAt k n).qa).head?.or (fedHead k n)
/-- Take it. (DEDUCED, log 48.) -/
def takeA (k : CastLive) (n : NodeRef) : CastLive :=
  if (seenOf k (inputQ (nodeKey n) 0) (nodeAt k n).qa).head?.isSome then
    noteTake (inputQ (nodeKey n) 0) (nodeUpd k n fun x => { x with qa := x.qa.drop 1 })
  else
    match feedOf k n with
    | some (.arc i) => noteTake (arcQ i) { k with arcs := k.arcs.modify i fun a => { a with q := a.q.drop 1 } }
    | some (.port i) => noteTake (insQ i) { k with ins := tabUpd k.ins i {} fun p => { p with q := p.q.drop 1 } }
    | none => k

/-- The head of input b. -/
def headB (k : CastLive) (n : NodeRef) : Option Billet := (seenOf k (inputQ (nodeKey n) 1) (nodeAt k n).qb).head?
/-- Take it. -/
def takeB (k : CastLive) (n : NodeRef) : CastLive :=
  noteTake (inputQ (nodeKey n) 1) (nodeUpd k n fun x => { x with qb := x.qb.drop 1 })
/-- The head of input c. -/
def headC (k : CastLive) (n : NodeRef) : Option Billet := (seenOf k (inputQ (nodeKey n) 2) (nodeAt k n).qc).head?
/-- Take it. -/
def takeC (k : CastLive) (n : NodeRef) : CastLive :=
  noteTake (inputQ (nodeKey n) 2) (nodeUpd k n fun x => { x with qc := x.qc.drop 1 })

/-! ## Acting -/

/-- A casting that stands on pages. -/
def isPlaced (k : CastLive) : Bool :=
  match k.place with
  | .placed _ => true
  | .parked _ => false

/-- A placed casting's context is stepped (09/R214): its configuration has loaded, no debugger halts it (17/R401), and
no *marker* fault has stopped it (09/R219). -/
def stepsOn (k : CastLive) : Bool := isPlaced k && k.loaded && !k.halted && !k.dead && !k.retired

/-- The node acts: its casting steps, and neither a fault nor a page wait holds it (11/R286). -/
def nodeActs (k : CastLive) (n : NodeRef) : Bool := stepsOn k && !(nodeAt k n).stop && (nodeAt k n).page.isNone

/-- Put a casting back. -/
def putCast (s : State) (n : NodeRef) (k : CastLive) : State := updCast s n.cast fun _ => k

/-- A casting id (09 Table 9.6). -/
def castId (s : State) (cid : Nat) : Nat := cid / 256 * 2 ^ 27 + cid % 256 * 2 ^ 19 + (castSlot s cid).gen

/-- `EWHO` of a node (17 Table 17.2). -/
def nodeWho (s : State) (n : NodeRef) : Word :=
  BitVec.ofNat 64 (n.slot % 128 * 2 ^ 35 + n.blk % 8 * 2 ^ 32 + castId s n.cast)

/-- A node raises a fault, to the handler of the thread that loaded its casting (11/R286). -/
def nodeFault (s : State) (n : NodeRef) (e : Exn) : State :=
  match (castSlot s n.cast).live with
  | none => s
  | some k => sendFault s k.loader srcNode e (nodeWho s n) (some n.cast) (some ⟨n, (castSlot s n.cast).gen⟩)

/-- It stops (11 Table 11.5); after *overread* only killing its casting ends that (07 Table 7.5). -/
def nodeStop (s : State) (n : NodeRef) (e : Exn) : State :=
  nodeFault (updNode s n fun x => { x with
    stop := true, doomed := x.doomed || decide (e.cause = cCurd ∧ e.sub = 3) }) n e

/-- A *marker* fault: the casting does no further work until it is killed (09/R219, R234). -/
def markerFault (s : State) (n : NodeRef) : State :=
  nodeFault (updCast (updNode s n fun x => { x with stop := true }) n.cast fun k => { k with dead := true }) n
    ⟨cCast, 6, none, 0⟩

/-! ## Markers -/

/-- No billet stands in the fabric, and every pushed marker has retired at every instruction (09/R220). -/
def atBoundary (k : CastLive) : Bool :=
  (k.arcs.all fun a => a.q.isEmpty) &&
  (k.nodes.all fun e =>
    let x := e.2
    x.qa.isEmpty && x.qb.isEmpty && x.qc.isEmpty && x.buf.isEmpty && x.held.isEmpty && x.emit.isEmpty &&
    x.req.isNone && x.nest.isNone) &&
  (nodeKeys k).all fun key => k.ins.all fun p => p.2.inv ≤ (nodeOf k key).inv

/-- Its port queues are empty too (09/R229). -/
def portsEmpty (k : CastLive) : Bool := (k.ins.all fun p => p.2.q.isEmpty) && k.outs.all fun p => p.2.q.isEmpty

/-- A closed casting retires at a boundary point with empty queues (09/R229). -/
def tryRetire (s : State) (cid : Nat) : State :=
  match (castSlot s cid).live with
  | none => s
  | some k =>
    if k.ending ∧ !k.retired ∧ atBoundary k ∧ portsEmpty k then
      updCast s cid fun k => { k with retired := true, place := .placed [] }
    else s

/-- A share of a curd becomes final at a fabric instruction of a launch, which is kept with the curd (21/R441). -/
def finalAt (s : State) (l : LaunchRef) (n : NodeRef) (i : Nat) : State :=
  let s := updCurdSlot s (n.cast / 256) i fun x => { x with readers := (l, nodeKey n) :: x.readers.erase (l, nodeKey n) }
  finalShare s (n.cast / 256) i

/-- Marker retirement at a node (09/R220): its pending shares of the invocation become final (07/R167), and it goes on
to the next invocation, its generator (03/R62), stream entry and `merge.u` state (17/R399) recorded. -/
def retireAt (s : State) (n : NodeRef) : State :=
  match (castSlot s n.cast).live with
  | none => s
  | some k =>
    let x := nodeAt k n
    let s := updNode s n fun x => { x with
      inv := x.inv + 1
      genAt := tabPut x.genAt (x.inv + 1) x.gen
      lastAt := tabPut x.lastAt (x.inv + 1) x.lastB
      streamAt := tabPut x.streamAt (x.inv + 1) x.stream
      shares := x.shares.filter fun p => p.1 ≠ x.inv }
    let done := x.shares.filter fun p => p.1 = x.inv
    tryRetire (done.foldl (fun s p => finalAt s k.launch n p.2) s) n.cast

/-- Forward a marker to every target, and retire it here. -/
def passMarker (s : State) (n : NodeRef) (f : FWord) (k : CastLive) (m : Billet) : State :=
  retireAt (putCast s n (emitTo k n (targetsOf f) m)) n

/-! ## A firing of one or two inputs -/

/-- Act at a place: the casting there, or the fault of a place that has none. -/
def atNode (s : State) (body : NodeRef → CastLive → State) : Answer :=
  match (castSlot s s.node.cast).live with
  | none => .fault .noNode
  | some k => .next (if nodeActs k s.node then body s.node k else s)

/-- Take from input a when every target has a free slot (09/R216); markers are forwarded and retire. `go` does the rest
for a billet that is no marker, in the casting from which the billet has been taken. -/
def takeOne (s : State) (f : FWord) (go : NodeRef → CastLive → Billet → CastLive) : Answer :=
  atNode s fun n k =>
    match headA k n with
    | none => s
    | some a =>
      let k' := takeA k n
      if !roomFor k' n (targetsOf f) then s
      else if isMarker a then passMarker s n f k' a
      else putCast s n (go n k' a)

/-- Take from input a and place one billet on every target. -/
def passOne (s : State) (f : FWord) (go : CastLive → Billet → CastLive × Billet) : Answer :=
  takeOne s f fun n k a => emitTo (go k a).1 n (targetsOf f) (go k a).2

end Sys2Proof.Machine
end

