-- ==== Sys2Proof/Machine/Formats.lean ====
section
/-! DEFINITION. Number formats (03/R44-R58), rounding (03/R59-R61) and conversions (03/R63-R67, 10/R247). -/

namespace Sys2Proof.Machine

/-! ## Formats -/

/-- How a format spends its largest exponent field (03 Table 3.2): infinities and NaNs, E4M3's single NaN, or nothing. -/
inductive TopKind where
  | ieee | e4m3 | e2m1
  deriving DecidableEq, Repr

/-- A binary floating-point format (03 Table 3.2): exponent bits, mantissa bits, bias. -/
structure Fl where
  eb   : Nat
  mb   : Nat
  bias : Nat
  top  : TopKind
  deriving DecidableEq, Repr

/-- FP32. -/
def flFp32 : Fl := ⟨8, 23, 127, .ieee⟩
/-- FP16. -/
def flFp16 : Fl := ⟨5, 10, 15, .ieee⟩
/-- BF16. -/
def flBf16 : Fl := ⟨8, 7, 127, .ieee⟩
/-- E4M3. -/
def flE4m3 : Fl := ⟨4, 3, 7, .e4m3⟩
/-- E5M2. -/
def flE5m2 : Fl := ⟨5, 2, 15, .ieee⟩
/-- E2M1. -/
def flE2m1 : Fl := ⟨2, 1, 1, .e2m1⟩

/-- The floating-point format of an element code (03 Table 3.1). -/
def flOf : Nat → Option Fl
  | 8 => some flFp32
  | 9 => some flFp16
  | 10 => some flBf16
  | 11 => some flE4m3
  | 12 => some flE5m2
  | 13 => some flE2m1
  | _ => none

/-- Width and signedness of an integer element code. -/
def intOf : Nat → Option (Nat × Bool)
  | 0 => some (8, true)
  | 1 => some (8, false)
  | 2 => some (16, true)
  | 3 => some (16, false)
  | 4 => some (32, true)
  | 5 => some (32, false)
  | 6 => some (64, true)
  | 7 => some (64, false)
  | _ => none

/-- Width of an element code (03 Table 3.1). -/
def widthOf (c : Nat) : Nat :=
  match c with
  | 0 => 8
  | 1 => 8
  | 2 => 16
  | 3 => 16
  | 4 => 32
  | 5 => 32
  | 6 => 64
  | 7 => 64
  | 8 => 32
  | 9 => 16
  | 10 => 16
  | 13 => 4
  | 14 => 32
  | _ => 8

/-- A floating-point datum: a NaN (signalling or not), an infinity, or ± m × 2^e exactly. -/
inductive FVal where
  | nan (signalling : Bool)
  | inf (neg : Bool)
  | fin (neg : Bool) (m : Nat) (e : Int)
  deriving DecidableEq, Repr

/-- Exponent of the least significant bit of the subnormals. -/
def Fl.qmin (f : Fl) : Int := 1 - (f.bias : Int) - f.mb

/-- The pattern of the largest finite magnitude. -/
def Fl.maxMag (f : Fl) : Nat :=
  match f.top with
  | .ieee => (2 ^ f.eb - 1) * 2 ^ f.mb - 1
  | .e4m3 => 0x7E
  | .e2m1 => 7

/-- The canonical NaN (03 Table 3.2); E2M1 has none and holds 0. -/
def Fl.qnan (f : Fl) : Nat :=
  match f.top with
  | .ieee => (2 ^ f.eb - 1) * 2 ^ f.mb + 2 ^ (f.mb - 1)
  | .e4m3 => 0x7F
  | .e2m1 => 0

/-- The pattern of an infinity. -/
def Fl.infBits (f : Fl) (neg : Bool) : Nat := b2n neg * 2 ^ (f.eb + f.mb) + (2 ^ f.eb - 1) * 2 ^ f.mb

/-- A sign put on a magnitude pattern. -/
def Fl.signed (f : Fl) (neg : Bool) (mag : Nat) : Nat := b2n neg * 2 ^ (f.eb + f.mb) + mag

/-- The datum that a pattern stands for (03/R46-R48). -/
def Fl.unpack (f : Fl) (v : Nat) : FVal :=
  let neg := bit v (f.eb + f.mb)
  let e := v / 2 ^ f.mb % 2 ^ f.eb
  let m := v % 2 ^ f.mb
  if f.top = .ieee ∧ e = 2 ^ f.eb - 1 then (if m = 0 then .inf neg else .nan (!bit m (f.mb - 1)))
  else if f.top = .e4m3 ∧ e = 15 ∧ m = 7 then .nan false
  else if e = 0 then .fin neg m f.qmin
  else .fin neg (m + 2 ^ f.mb) ((e : Int) - f.bias - f.mb)

/-- The datum is a NaN. -/
def FVal.isNan : FVal → Bool
  | .nan _ => true
  | _ => false

/-- The datum is a signalling NaN. -/
def FVal.isSnan : FVal → Bool
  | .nan s => s
  | _ => false

/-- The datum is a zero. -/
def FVal.isZero : FVal → Bool
  | .fin _ m _ => m = 0
  | _ => false

/-- Its sign. -/
def FVal.neg : FVal → Bool
  | .nan _ => false
  | .inf n => n
  | .fin n _ _ => n

/-! ## Rounding -/

/-- The generator's next state (03/R61). -/
def genNext (s : W32) : W32 := if s.getLsbD 0 then (s >>> 1) ^^^ 0x80200003 else s >>> 1

/-- The generator before the decision of an element: advanced when the mode is RSTO. -/
def genFor (mode : Nat) (g : W32) : W32 := if mode = 4 then genNext g else g

/-- Round the magnitude (m + [sticky]) × 2^e to a multiple of 2^q (03/R60): the multiple, and whether it is inexact.
`sticky` says that the true magnitude lies strictly between m and m + 1. -/
def roundMag (mode : Nat) (g : W32) (neg : Bool) (m : Nat) (e : Int) (sticky : Bool) (q : Int) : Nat × Bool :=
  if q ≤ e then (m * 2 ^ (e - q).toNat, sticky)
  else
    let h := (q - e).toNat
    let k := m / 2 ^ h
    let r := m % 2 ^ h
    let inexact := r ≠ 0 || sticky
    let up :=
      match mode with
      | 0 => 2 ^ h < 2 * r || (2 * r = 2 ^ h && (sticky || k % 2 = 1))
      | 1 => false
      | 2 => inexact && !neg
      | 3 => inexact && neg
      | _ =>
        if !inexact then false
        else if neg then !(g.toNat * 2 ^ h < (2 ^ h - r) * 2 ^ 32)
        else g.toNat * 2 ^ h < r * 2 ^ 32
    (if up then k + 1 else k, inexact)

/-- A result: its pattern, its flags, and the generator after it. -/
structure Res where
  bits : Nat
  fl   : Flags
  gen  : W32
  deriving DecidableEq, Repr

/-- What an overflow gives (03/R63, R64, R53). `up` says that RSTO chose the greater magnitude. (DEDUCED, log 41.) -/
def overflowBits (f : Fl) (mode : Nat) (sat neg up : Bool) : Nat :=
  match f.top with
  | .e2m1 => f.signed neg f.maxMag
  | .e4m3 => if sat then f.signed neg f.maxMag else f.qnan
  | .ieee =>
    let toInf :=
      match mode with
      | 0 => true
      | 1 => false
      | 2 => !neg
      | 3 => neg
      | _ => up
    if sat ∨ !toInf then f.signed neg f.maxMag else f.infBits neg

/-- Round an exact value to a format (00 Table 0.1 `Round`, 03/R60-R64, R69). (DEDUCED, log 41.) -/
def roundFl (f : Fl) (mode : Nat) (sat : Bool) (g : W32) (neg : Bool) (m : Nat) (e : Int) (sticky : Bool) : Res :=
  let g := genFor mode g
  if m = 0 ∧ !sticky then ⟨f.signed neg 0, 0, g⟩
  else
    let l : Int := e + Nat.log2 m
    let qn := l - f.mb
    let q := if qn < f.qmin then f.qmin else qn
    let r := roundMag mode g neg m e sticky q
    let free := roundMag mode g neg m e sticky qn
    let mag := r.1 + (q - f.qmin).toNat * 2 ^ f.mb
    if f.maxMag < mag then
      let up := decide (m * 2 ^ (e - q).toNat < r.1 * 2 ^ (q - e).toNat)
      ⟨overflowBits f mode sat neg up, fOF ||| fNX, g⟩
    else
      let tiny := decide (qn < f.qmin ∧ free.1 < 2 ^ (f.qmin + f.mb - qn).toNat)
      ⟨f.signed neg mag, flagIf r.2 fNX ||| flagIf (tiny && r.2) fUF, g⟩

/-- Store a datum that an operation produced, with the flags it already raised. -/
def storeFl (f : Fl) (mode : Nat) (sat : Bool) (g : W32) (v : FVal) (fl : Flags) : Res :=
  match v with
  | .nan _ => ⟨f.qnan, fl, genFor mode g⟩
  | .inf n => ⟨if f.top = .ieee then f.infBits n else f.qnan, fl, genFor mode g⟩
  | .fin n m e =>
    let r := roundFl f mode sat g n m e false
    { r with fl := r.fl ||| fl }

/-! ## Exact arithmetic on data -/

/-- ± m × 2^e as an integer multiple of 2^q, for q ≤ e. -/
def scaledTo (q : Int) (neg : Bool) (m : Nat) (e : Int) : Int :=
  let x : Int := (m * 2 ^ (e - q).toNat : Nat)
  if neg then -x else x

/-- The datum of an exact sum x × 2^q; `zneg` is the sign of a zero. -/
def finOf (x : Int) (q : Int) (zneg : Bool) : FVal := .fin (if x = 0 then zneg else decide (x < 0)) x.natAbs q

/-- a + b exactly (03/R48, R49). -/
def addV (mode : Nat) (a b : FVal) : FVal × Flags :=
  match a, b with
  | .nan s, y => (.nan false, flagIf (s || y.isSnan) fNV)
  | x, .nan s => (.nan false, flagIf (s || x.isSnan) fNV)
  | .inf n, .inf k => if n = k then (.inf n, 0) else (.nan false, fNV)
  | .inf n, _ => (.inf n, 0)
  | _, .inf n => (.inf n, 0)
  | .fin n m e, .fin k l d =>
    let q := if e < d then e else d
    let zneg := if m = 0 ∧ l = 0 ∧ n = k then n else decide (mode = 3)
    (finOf (scaledTo q n m e + scaledTo q k l d) q zneg, 0)

/-- -a. -/
def negV : FVal → FVal
  | .nan s => .nan s
  | .inf n => .inf (!n)
  | .fin n m e => .fin (!n) m e

/-- a × b exactly. -/
def mulV (a b : FVal) : FVal × Flags :=
  match a, b with
  | .nan s, y => (.nan false, flagIf (s || y.isSnan) fNV)
  | x, .nan s => (.nan false, flagIf (s || x.isSnan) fNV)
  | .inf n, y => if y.isZero then (.nan false, fNV) else (.inf (n != y.neg), 0)
  | x, .inf n => if x.isZero then (.nan false, fNV) else (.inf (n != x.neg), 0)
  | .fin n m e, .fin k l d => (.fin (n != k) (m * l) (e + d), 0)

/-- a × b + c exactly: an invalid product is invalid whatever the addend (10/R244). -/
def fmaV (mode : Nat) (a b c : FVal) : FVal × Flags :=
  let p := mulV a b
  let s := addV mode p.1 c
  (s.1, p.2 ||| s.2)

/-- Order of two data that are not NaNs: less, with the zeros equal. -/
def ltV (a b : FVal) : Bool :=
  match a, b with
  | .inf n, .inf k => n && !k
  | .inf n, _ => n
  | _, .inf k => !k
  | .fin n m e, .fin k l d =>
    let q := if e < d then e else d
    decide (scaledTo q n m e < scaledTo q k l d)
  | _, _ => false

/-- Equality of two data that are not NaNs, the zeros equal. -/
def eqV (a b : FVal) : Bool :=
  match a, b with
  | .inf n, .inf k => n == k
  | .fin n m e, .fin k l d =>
    let q := if e < d then e else d
    decide (scaledTo q n m e = scaledTo q k l d)
  | _, _ => false

/-! ## Conversions -/

/-- Into a floating-point format (03/R63-R65): NaNs, infinities, then `Round`. -/
def toFl (f : Fl) (mode : Nat) (sat : Bool) (g : W32) (v : FVal) : Res :=
  match v with
  | .nan s =>
    match f.top with
    | .e2m1 => ⟨0, fNV, genFor mode g⟩
    | _ => ⟨f.qnan, flagIf s fNV, genFor mode g⟩
  | .inf n =>
    match f.top with
    | .e2m1 => ⟨f.signed n f.maxMag, fNV, genFor mode g⟩
    | .e4m3 => ⟨if sat then f.signed n f.maxMag else f.qnan, fNV, genFor mode g⟩
    | .ieee => if sat then ⟨f.signed n f.maxMag, fNV, genFor mode g⟩ else ⟨f.infBits n, 0, genFor mode g⟩
  | .fin n m e => roundFl f mode sat g n m e false

/-- Round a finite datum to an integer (03/R66): the integer, and whether rounding changed the value. -/
def roundInt (mode : Nat) (g : W32) (neg : Bool) (m : Nat) (e : Int) : Int × Bool :=
  let r := roundMag mode g neg m e false 0
  (if neg then -(r.1 : Int) else r.1, r.2)

/-- Range of an integer format. -/
def intLo (w : Nat) (signed : Bool) : Int := if signed then -(2 : Int) ^ (w - 1) else 0
/-- Its top. -/
def intHi (w : Nat) (signed : Bool) : Int := if signed then (2 : Int) ^ (w - 1) - 1 else (2 : Int) ^ w - 1

/-- `Sat` (00 Table 0.1). -/
def clampInt (lo hi x : Int) : Int := if x < lo then lo else if hi < x then hi else x

/-- Into an integer format from a floating-point datum (03/R66). -/
def toInt (w : Nat) (signed : Bool) (mode : Nat) (sat : Bool) (g : W32) (v : FVal) : Res :=
  let lo := intLo w signed
  let hi := intHi w signed
  match v with
  | .nan _ => ⟨0, fNV, genFor mode g⟩
  | .inf n => ⟨if sat then wrapN w (if n then lo else hi) else 0, fNV, genFor mode g⟩
  | .fin n m e =>
    let g := genFor mode g
    let r := roundInt mode g n m e
    let out := decide (r.1 < lo ∨ hi < r.1)
    ⟨wrapN w (if sat then clampInt lo hi r.1 else r.1), flagIf out fNV ||| flagIf r.2 fNX, g⟩

/-- Into an integer format from an integer (03/R45, R67). -/
def intToInt (w : Nat) (signed sat : Bool) (x : Int) : Nat :=
  wrapN w (if sat then clampInt (intLo w signed) (intHi w signed) x else x)

/-- The value of an integer pattern. -/
def intVal (w : Nat) (signed : Bool) (v : Nat) : Int := if signed then sOf w v else v

/-! ## RNS24 -/

/-- Lowest and highest value of an RNS24 word (03/R54). -/
def rnsLo : Int := -8257920
/-- Highest. -/
def rnsHi : Int := 8257919

/-- Encode an integer (03/R54, R55). -/
def rnsEnc (sat : Bool) (v : Int) : Nat :=
  let v := if sat then clampInt rnsLo rnsHi v else v
  (v % 256).toNat + 2 ^ 8 * (v % 255).toNat + 2 ^ 16 * (v % 253).toNat

/-- The word as an operation reads it, and whether it was non-canonical (03/R58). -/
def rnsRead (w : Nat) : Nat × Bool :=
  let a0 := bits w 7 0
  let a1 := bits w 15 8
  let a2 := bits w 23 16
  (a0 + 2 ^ 8 * (a1 % 255) + 2 ^ 16 * (a2 % 253), decide (bits w 31 24 ≠ 0 ∨ 254 < a1 ∨ 252 < a2))

/-- Decode a canonical word (03/R56). -/
def rnsDec (w : Nat) : Int :=
  let x := (bits w 7 0 * 11032065 + bits w 15 8 * 8225536 + bits w 23 16 * 13774080) % 16515840
  if 8257920 ≤ x then (x : Int) - 16515840 else x

/-- An operation on each residue of two canonical words (03/R57). -/
def rnsOp (op : Nat → Nat → Nat) (x y : Nat) : Nat :=
  op (bits x 7 0) (bits y 7 0) % 256 + 2 ^ 8 * (op (bits x 15 8) (bits y 15 8) % 255) +
  2 ^ 16 * (op (bits x 23 16) (bits y 23 16) % 253)

/-- To RNS24 from a floating-point datum (10/R247). -/
def toRns (mode : Nat) (sat : Bool) (g : W32) (v : FVal) : Res :=
  match v with
  | .nan _ => ⟨0, fNV, genFor mode g⟩
  | .inf n => ⟨if sat then rnsEnc false (if n then rnsLo else rnsHi) else 0, fNV, genFor mode g⟩
  | .fin n m e =>
    let g := genFor mode g
    let r := roundInt mode g n m e
    ⟨rnsEnc sat r.1, flagIf (decide (r.1 < rnsLo ∨ rnsHi < r.1)) fNV ||| flagIf r.2 fNX, g⟩

/-- An integer as a datum. -/
def intV (x : Int) : FVal := .fin (decide (x < 0)) x.natAbs 0

/-- An integer into any target format (03/R67, 10/R247). -/
def convertInt (dst mode : Nat) (sat : Bool) (g : W32) (x : Int) : Res :=
  match flOf dst with
  | some f => toFl f mode sat g (intV x)
  | none =>
    match intOf dst with
    | some (w, sg) => ⟨intToInt w sg sat x, 0, genFor mode g⟩
    | none => ⟨rnsEnc sat x, 0, genFor mode g⟩

/-- `Convert` (03/R65-R67, 10/R247). -/
def convert (src dst mode : Nat) (sat : Bool) (g : W32) (v : Nat) : Res :=
  match flOf src with
  | some f =>
    let x := f.unpack v
    match flOf dst with
    | some k => toFl k mode sat g x
    | none =>
      match intOf dst with
      | some (w, sg) => toInt w sg mode sat g x
      | none => toRns mode sat g x
  | none =>
    match intOf src with
    | some (w, sg) => convertInt dst mode sat g (intVal w sg v)
    | none =>
      let r := rnsRead v
      if dst = 14 then ⟨r.1, flagIf r.2 fRV, genFor mode g⟩
      else
        let c := convertInt dst mode sat g (rnsDec r.1)
        { c with fl := c.fl ||| flagIf r.2 fRV }

/-! ## MXFP4 blocks -/

/-- The value X of an E8M0 scale byte, as the exponent of a power of two; none for NaN (03/R50). -/
def scaleExp (b : Nat) : Option Int := if b = 255 then none else some ((b : Int) - 127)

/-- floor(log2 |x|) of a finite nonzero datum. -/
def floorLog2 : FVal → Option Int
  | .fin _ m e => if m = 0 then none else some (e + Nat.log2 m)
  | _ => none

/-- The largest of a list of exponents. -/
def maxExp : List FVal → Option Int
  | [] => none
  | x :: r =>
    match floorLog2 x, maxExp r with
    | some a, some b => some (if a < b then b else a)
    | some a, none => some a
    | none, o => o

/-- Round a list of values in order, the generator threaded through: patterns, flags, generator. -/
def roundList (f : W32 → FVal → Res) : W32 → List FVal → List Nat × Flags × W32
  | g, [] => ([], 0, g)
  | g, x :: r =>
    let a := f g x
    let t := roundList f a.gen r
    (a.bits :: t.1, a.fl ||| t.2.1, t.2.2)

/-- Encode 32 values into an MXFP4 block (03/R53): element codes, scale byte, flags, generator. -/
def blockEnc (mode : Nat) (g : W32) (xs : List FVal) : List Nat × Nat × Flags × W32 :=
  if xs.any fun x => match x with
    | .fin _ _ _ => false
    | _ => true
  then (xs.map fun _ => 0, 255, fNV, xs.foldl (fun g _ => genFor mode g) g)
  else
    let t : Int := match maxExp xs with
      | none => 0
      | some l => clampInt (-127) 127 (l - 2)
    let scale := fun (x : FVal) => match x with
      | .fin n m e => FVal.fin n m (e - t)
      | y => y
    let r := roundList (fun g x => toFl flE2m1 mode true g x) g (xs.map scale)
    (r.1, (t + 127).toNat, r.2.1, r.2.2)

end Sys2Proof.Machine
end

