-- ==== Sys2Proof/Machine/Special.lean ====
section
/-! DEFINITION. The fabric special functions (03/R76, Table 3.8): correctly rounded under RNE. Reciprocals are exact
quotients and roots; the others are evaluated with 640 fraction bits (DEDUCED, log 11). -/

namespace Sys2Proof.Machine

/-- A result in FP32 of an exact magnitude (m + [sticky]) × 2^e, under RNE. -/
def spRound (g : W32) (neg : Bool) (m : Nat) (e : Int) (sticky : Bool) : Res := roundFl flFp32 0 false g neg m e sticky

/-- A datum as a result. -/
def spVal (g : W32) (v : FVal) (fl : Flags) : Res := storeFl flFp32 0 false g v fl

/-- A NaN result: a signalling input sets NV. -/
def spNan (g : W32) (signalling : Bool) : Res := spVal g (.nan false) (flagIf signalling fNV)

/-- Result bits of an integer square root, found from bit `k` down: the root so far is `r`. -/
def rootFrom (v : Nat) : Nat → Nat → Nat
  | 0, r => r
  | k + 1, r => if (r + 2 ^ k) * (r + 2 ^ k) ≤ v then rootFrom v k (r + 2 ^ k) else rootFrom v k r

/-- `f.rcp`. -/
def spRcp (g : W32) (v : FVal) : Res :=
  match v with
  | .nan s => spNan g s
  | .inf n => spVal g (.fin n 0 0) 0
  | .fin n m e =>
    if m = 0 then spVal g (.inf n) fDZ else spRound g n (2 ^ 100 / m) (-100 - e) (2 ^ 100 % m ≠ 0)

/-- `f.rsq`. -/
def spRsq (g : W32) (v : FVal) : Res :=
  match v with
  | .nan s => spNan g s
  | .inf n => if n then spVal g (.nan false) fNV else spVal g (.fin false 0 0) 0
  | .fin n m e =>
    if m = 0 then spVal g (.inf n) fDZ
    else if n then spVal g (.nan false) fNV
    else
      let m := if e % 2 = 0 then m else 2 * m
      let e := if e % 2 = 0 then e else e - 1
      let r := rootFrom (2 ^ 200 / m) 101 0
      spRound g false r (-100 - e / 2) (r * r * m ≠ 2 ^ 200)

/-! ## Fixed point with 640 fraction bits -/

/-- 1. -/
def fxOne : Nat := 2 ^ 640

/-- Sum of y^(2k+1) / (2k+1) from the term k on, `p` being y^(2k+1) and `q` y². -/
def fxAtanh (q : Nat) : Nat → Nat → Nat → Nat
  | 0, _, _ => 0
  | n + 1, k, p => p / (2 * k + 1) + fxAtanh q n (k + 1) (p * q / fxOne)

/-- ln x for 1 ≤ x < 2, as 2 artanh((x - 1) / (x + 1)). -/
def fxLn (x : Nat) : Nat :=
  let y := (x - fxOne) * fxOne / (x + fxOne)
  2 * fxAtanh (y * y / fxOne) 210 0 y

/-- ln 2, as 2 artanh(1/3). -/
def fxLn2 : Nat := 2 * fxAtanh (fxOne / 9) 210 0 (fxOne / 3)

/-- Sum of y^k / k! from the term k on, `p` being y^k / k!. -/
def fxExpFrom (y : Nat) : Nat → Nat → Nat → Nat
  | 0, _, _ => 0
  | n + 1, k, p => p + fxExpFrom y n (k + 1) (p * y / fxOne / (k + 1))

/-- e^y for 0 ≤ y < 1. -/
def fxExp1 (y : Nat) : Nat := fxExpFrom y 140 0 fxOne

/-- e^y for y ≥ 0. -/
def fxExp (y : Nat) : Nat := fxExp1 (y % fxLn2) * 2 ^ (y / fxLn2)

/-- m × 2^e, for e ≥ -640. -/
def fxOf (m : Nat) (e : Int) : Nat := m * 2 ^ (e + 640).toNat

/-- `f.exp2`. -/
def spExp2 (g : W32) (v : FVal) : Res :=
  match v with
  | .nan s => spNan g s
  | .inf n => if n then spVal g (.fin false 0 0) 0 else spVal g v 0
  | .fin n m e =>
    let x : Int := scaledTo (-640) n m e
    let one : Int := (fxOne : Nat)
    if 128 * one ≤ x then spVal g (.inf false) (fOF ||| fNX)
    else if x < -150 * one then spVal g (.fin false 0 0) (fUF ||| fNX)
    else
      let k := x / one
      let f := (x % one).toNat
      if f = 0 then spRound g false 1 k false else spRound g false (fxExp1 (f * fxLn2 / fxOne)) (k - 640) true

/-- `f.log2`. -/
def spLog2 (g : W32) (v : FVal) : Res :=
  match v with
  | .nan s => spNan g s
  | .inf n => if n then spVal g (.nan false) fNV else spVal g v 0
  | .fin n m e =>
    if m = 0 then spVal g (.inf true) fDZ
    else if n then spVal g (.nan false) fNV
    else
      let k := Nat.log2 m
      let b : Int := e + k
      if m = 2 ^ k then spRound g (decide (b < 0)) b.natAbs 0 false
      else
        let y : Int := (fxLn (m * fxOne / 2 ^ k) * fxOne / fxLn2 : Nat)
        let r : Int := b * ((fxOne : Nat) : Int) + y
        spRound g (decide (r < 0)) r.natAbs (-640) true

/-- The magnitude is at least 300: e to its negative is below every place that a result keeps. -/
def spFar (m : Nat) (e : Int) : Bool := decide (300 * (fxOne : Int) ≤ scaledTo (-640) false m e)

/-- `f.sig`. -/
def spSig (g : W32) (v : FVal) : Res :=
  match v with
  | .nan s => spNan g s
  | .inf n => if n then spVal g (.fin false 0 0) 0 else spVal g (.fin false 1 0) 0
  | .fin n m e =>
    if m = 0 then spVal g (.fin false 1 (-1)) 0
    else if spFar m e then (if n then spRound g false 0 (-640) true else spRound g false (fxOne - 1) (-640) true)
    else
      let t := fxExp (fxOf m e)
      let r := if n then fxOne * fxOne / (fxOne + t) else t * fxOne / (fxOne + t)
      spRound g false r (-640) true

/-- `f.tanh`. -/
def spTanh (g : W32) (v : FVal) : Res :=
  match v with
  | .nan s => spNan g s
  | .inf n => spVal g (.fin n 1 0) 0
  | .fin n m e =>
    if m = 0 then spVal g v 0
    else if spFar m e then spRound g n (fxOne - 1) (-640) true
    else
      let t := fxExp (2 * fxOf m e)
      spRound g n ((t - fxOne) * fxOne / (t + fxOne)) (-640) true

end Sys2Proof.Machine
end

