-- ==== Sys2Proof/Machine/Compute.lean ====
section
/-! DEFINITION. Fabric compute instructions (10). -/

namespace Sys2Proof.Machine

/-! ## Operands (10/R231, R232, R236, R237) -/

/-- The view turned by k. -/
def turnRec (r k : Nat) : Nat := r / 2 ^ (32 * k) + r % 2 ^ (32 * k) * 2 ^ (256 - 32 * k)

/-- Lanes and lane width of a shape (09 Table 9.3). -/
def shapeOf (sh : BitVec 3) : Nat × Nat :=
  match sh.toNat with
  | 0 => (1, 32)
  | 1 => (8, 32)
  | 2 => (16, 16)
  | 3 => (32, 8)
  | 4 => (1, 64)
  | _ => (64, 4)

/-- BSRC (10 Table 10.1). -/
def imBsrc (f : FWord) : Nat := bits f.imm.toNat 20 19
/-- OPT. -/
def imOpt (f : FWord) : Nat := bits f.imm.toNat 18 16
/-- SAT of an integer instruction. -/
def imSat (f : FWord) : Bool := bit f.imm.toNat 16
/-- UNS. -/
def imUns (f : FWord) : Bool := bit f.imm.toNat 17
/-- ME. -/
def imMe (f : FWord) : Bool := bit f.imm.toNat 15
/-- MF. -/
def imMf (f : FWord) : Nat := bits f.imm.toNat 14 12
/-- ALT. -/
def imAlt (f : FWord) : Bool := bit f.imm.toNat 11
/-- IMM11. -/
def imLow (f : FWord) : Nat := bits f.imm.toNat 10 0

/-- The float lane format (10 Table 10.1). -/
def laneFl (w : Nat) (alt : Bool) : Fl :=
  if w = 32 then flFp32
  else if w = 16 then (if alt then flBf16 else flFp16)
  else if alt then flE5m2 else flE4m3

/-- An integer immediate (10/R237). -/
def immInt (f : FWord) : Nat := wrapN (shapeOf f.sh).2 (sOf 11 (imLow f))

/-- A float immediate, in the lane format (10/R237). -/
def immFl (f : FWord) : Nat := (toFl (laneFl (shapeOf f.sh).2 (imAlt f)) 0 false 1 (flFp32.unpack (imLow f * 2 ^ 21))).bits

/-- What a compute instruction sees (10/R231): lane count and width, the views A, B and V, the immediate, the untouched
record of input a. -/
structure View where
  n   : Nat
  w   : Nat
  av  : Nat
  bv  : Nat
  vv  : Nat
  imm : Option Nat
  ra  : Nat
  me  : Bool
  mf  : Nat

/-- The views of a firing; `imm` is the value of an immediate. -/
def viewOf (f : FWord) (imm : Nat) (a b : Billet) : View :=
  let ra := a.data.toNat
  let rb := if imBsrc f = 1 then b.data.toNat else ra
  { n := (shapeOf f.sh).1, w := (shapeOf f.sh).2, av := turnRec ra f.fa.toNat, bv := turnRec rb f.fb.toNat
    vv := turnRec ra f.fd.toNat, imm := if imBsrc f = 2 then some imm else none, ra := ra, me := imMe f, mf := imMf f }

/-- Lane i of a view of lanes of width w. -/
def laneAt (w v i : Nat) : Nat := v / 2 ^ (w * i) % 2 ^ w
/-- Set lane i. -/
def laneSet (w v i x : Nat) : Nat := v - laneAt w v i * 2 ^ (w * i) + x % 2 ^ w * 2 ^ (w * i)

/-- Lane i of A. -/
def View.a (v : View) (i : Nat) : Nat := laneAt v.w v.av i
/-- Lane i of B. -/
def View.b (v : View) (i : Nat) : Nat := v.imm.getD (laneAt v.w v.bv i)
/-- Lane i of V. -/
def View.v (v : View) (i : Nat) : Nat := laneAt v.w v.vv i

/-- Mask bit i (10/R232). -/
def View.mask (v : View) (i : Nat) : Bool :=
  let j := if v.w = 4 then i / 2 else if v.n = 1 then 0 else i
  bit (v.ra / 2 ^ (32 * v.mf) % 2 ^ 32) j

/-- Lane i is enabled. -/
def View.en (v : View) (i : Nat) : Bool := !v.me || v.mask i

/-- The enabled lanes. -/
def View.lanes (v : View) : List Nat := (List.range v.n).filter v.en

/-- What a firing yields: the billet, the flags, the rounding generator after it. -/
structure Fired where
  out : Billet
  fl  : Flags
  gen : W32

/-- The output billet of R233: the view V written back, under the tag of the billet at a. -/
def outBillet (f : FWord) (a : Billet) (vv : Nat) : Billet :=
  { a with data := BitVec.ofNat 256 (turnRec vv ((8 - f.fd.toNat) % 8)) }

/-- Compute the given lanes in order, the generator threaded through (10/R233, 03/R61); target lanes have width `wt`. -/
def runLanes (wt : Nat) (op : Nat → W32 → Res) : List Nat → Nat → W32 → Nat × Flags × W32
  | [], vv, g => (vv, 0, g)
  | i :: r, vv, g =>
    let x := op i g
    let t := runLanes wt op r (laneSet wt vv i x.bits) x.gen
    (t.1, x.fl ||| t.2.1, t.2.2)

/-- The usual effect (10/R233), the lanes of the target being `wt` wide. -/
def laneWise (wt : Nat) (f : FWord) (v : View) (a : Billet) (g : W32) (op : Nat → W32 → Res) : Fired :=
  let t := runLanes wt op v.lanes v.vv g
  ⟨outBillet f a t.1, t.2.1, t.2.2⟩

/-! ## Firing (10/R234, R235) -/

/-- Apply the operation to a data pair whose predicate holds, leaving generator and flags. -/
def applyOp (f : FWord) (op : Billet → Billet → W32 → Fired) (n : NodeRef) (k : CastLive) (a b : Billet) :
    CastLive × Billet :=
  if !pmHolds f a.tag then (k, a)
  else
    let x := nodeAt k n
    let r := op a b x.gen
    let k := nodeUpd k n fun x => { x with gen := r.gen }
    ({ k with flagsAt := if r.fl = 0 then k.flagsAt else tabUpd k.flagsAt x.inv 0 (· ||| r.fl) }, r.out)

/-- A compute instruction of two inputs (10/R234). -/
def fireTwo (s : State) (f : FWord) (op : Billet → Billet → W32 → Fired) (n : NodeRef) (k : CastLive) : State :=
  match headA k n, headB k n with
  | some a, some b =>
    let k' := takeB (takeA k n) n
    if isMarker a ∧ isMarker b then
      if tagSeq a.tag ≠ tagSeq b.tag then markerFault s n
      else if roomFor k' n (targetsOf f) then passMarker s n f k' a else s
    else if isMarker a ∨ isMarker b then markerFault s n
    else if !roomFor k' n (targetsOf f) then s
    else
      let r := if !isData a then (k', a) else if !isData b then (k', b) else applyOp f op n k' a b
      putCast s n (emitTo r.1 n (targetsOf f) r.2)
  | _, _ => s

/-- A compute instruction fires: on input a, and on input b as well when BSRC is 01. -/
def fire (s : State) (f : FWord) (op : Billet → Billet → W32 → Fired) : Answer :=
  if imBsrc f = 1 then atNode s (fireTwo s f op)
  else passOne s f fun k a => if isData a then applyOp f op s.node k a a else (k, a)

/-! ## Integer arithmetic and logic (10/R239) -/

/-- A lane value as SAT and UNS read it. -/
def rdLane (f : FWord) (w x : Nat) : Int := if imUns f then (x : Int) else sOf w x

/-- The result of an exact integer value (10/R239). -/
def satLane (f : FWord) (w : Nat) (x : Int) : Nat :=
  if imSat f then wrapN w (clampInt (intLo w (!imUns f)) (intHi w (!imUns f)) x) else wrapN w x

/-- An integer instruction lane by lane: its exact value from the operands as read. -/
def fireInt (s : State) (f : FWord) (op : Int → Int → Int → Int) : Answer :=
  fire s f fun a b g =>
    let v := viewOf f (immInt f) a b
    laneWise v.w f v a g fun i g =>
      ⟨satLane f v.w (op (rdLane f v.w (v.a i)) (rdLane f v.w (v.b i)) (rdLane f v.w (v.v i))), 0, g⟩

/-- An instruction lane by lane on patterns: width, a, b, v. -/
def firePat (s : State) (f : FWord) (imm : Nat) (op : View → Nat → Nat) : Answer :=
  fire s f fun a b g =>
    let v := viewOf f imm a b
    laneWise v.w f v a g fun i g => ⟨op v i, 0, g⟩

/-- The shift count. -/
def shiftCount (v : View) (i : Nat) : Nat := v.b i % v.w

/-- The lesser. -/
def minInt (a b : Int) : Int := if a < b then a else b
/-- The greater. -/
def maxInt (a b : Int) : Int := if a < b then b else a

/-- `i.add` (10 Table 10.3). -/
def execIAdd (f : FWord) (s : State) : Answer := fireInt s f fun a b _ => a + b

/-- `i.sub` (10 Table 10.3). -/
def execISub (f : FWord) (s : State) : Answer := fireInt s f fun a b _ => a - b

/-- `i.mul` (10 Table 10.3). -/
def execIMul (f : FWord) (s : State) : Answer := fireInt s f fun a b _ => a * b

/-- `i.mad` (10 Table 10.3). -/
def execIMad (f : FWord) (s : State) : Answer := fireInt s f fun a b v => a * b + v

/-- `i.min` (10 Table 10.3). -/
def execIMin (f : FWord) (s : State) : Answer := fireInt s f fun a b _ => minInt a b

/-- `i.max` (10 Table 10.3). -/
def execIMax (f : FWord) (s : State) : Answer := fireInt s f fun a b _ => maxInt a b

/-- `i.abs` (10 Table 10.3). -/
def execIAbs (f : FWord) (s : State) : Answer := fireInt s f fun a _ _ => if a < 0 then -a else a

/-- `i.clamp` (10 Table 10.3). -/
def execIClamp (f : FWord) (s : State) : Answer := fireInt s f fun a b v => minInt (maxInt a b) v

/-- `i.and` (10 Table 10.3). -/
def execIAnd (f : FWord) (s : State) : Answer := firePat s f (immInt f) fun v i => v.a i &&& v.b i

/-- `i.or` (10 Table 10.3). -/
def execIOr (f : FWord) (s : State) : Answer := firePat s f (immInt f) fun v i => v.a i ||| v.b i

/-- `i.xor` (10 Table 10.3). -/
def execIXor (f : FWord) (s : State) : Answer := firePat s f (immInt f) fun v i => v.a i ^^^ v.b i

/-- `i.shl` (10 Table 10.3). -/
def execIShl (f : FWord) (s : State) : Answer := firePat s f (immInt f) fun v i =>
  satLane f v.w (rdLane f v.w (v.a i) * (2 : Int) ^ shiftCount v i)

/-- `i.shr` (10 Table 10.3). -/
def execIShr (f : FWord) (s : State) : Answer := firePat s f (immInt f) fun v i => v.a i / 2 ^ shiftCount v i

/-- `i.sra` (10 Table 10.3). -/
def execISra (f : FWord) (s : State) : Answer := firePat s f (immInt f) fun v i =>
  wrapN v.w (sOf v.w (v.a i) / (2 : Int) ^ shiftCount v i)

/-! ## Compare, select, move, constant and mix (10/R240-R243) -/

/-- Predicate bit PB of a tag. -/
def putPred (b : Billet) (pb : Nat) (c : Bool) : Billet :=
  let p := tagP b.tag
  setPred b (if c then p ||| 2 ^ pb else p - b2n (bit p pb) * 2 ^ pb)

/-- All ones or zeros. -/
def maskLane (w : Nat) (c : Bool) : Nat := if c then 2 ^ w - 1 else 0

/-- A compare (10 Table 10.5): the lane masks, and the predicate that PMODE asks for. -/
def fireCmp (s : State) (f : FWord) (cond : View → Nat → Bool × Flags) : Answer :=
  fire s f fun a b g =>
    let v := viewOf f 0 a b
    let r := laneWise v.w f v a g fun i g => ⟨maskLane v.w (cond v i).1, (cond v i).2, g⟩
    let pb := bits (imLow f) 7 6
    let out := match bits (imLow f) 5 4 with
      | 1 => putPred r.out pb (v.lanes.any fun i => (cond v i).1)
      | 2 => putPred r.out pb (v.lanes.all fun i => (cond v i).1)
      | _ => r.out
    { r with out := out }

/-- CC on two integers. -/
def ccInt (cc : Nat) (a b : Int) : Bool :=
  match cc with
  | 0 => a = b
  | 1 => a ≠ b
  | 2 => a < b
  | 3 => a ≤ b
  | 4 => b < a
  | 5 => b ≤ a
  | _ => false

/-- `i.cmp`. -/
def execICmp (f : FWord) (s : State) : Answer :=
  fireCmp s f fun v i => (ccInt (bits (imLow f) 10 8) (rdLane f v.w (v.a i)) (rdLane f v.w (v.b i)), 0)

/-- CC on two data (10/R241). -/
def ccFl (cc : Nat) (a b : FVal) : Bool × Flags :=
  let sig := flagIf (a.isSnan || b.isSnan) fNV
  if a.isNan || b.isNan then (cc = 1 || cc = 6, if 2 ≤ cc ∧ cc ≤ 5 then fNV else sig)
  else
    match cc with
    | 0 => (eqV a b, 0)
    | 1 => (!eqV a b, 0)
    | 2 => (ltV a b, 0)
    | 3 => (ltV a b || eqV a b, 0)
    | 4 => (ltV b a, 0)
    | 5 => (ltV b a || eqV a b, 0)
    | _ => (false, 0)

/-- `f.cmp`. -/
def execFCmp (f : FWord) (s : State) : Answer :=
  fireCmp s f fun v i =>
    let fl := laneFl v.w (imAlt f)
    ccFl (bits (imLow f) 10 8) (fl.unpack (v.a i)) (fl.unpack (v.b i))

/-- `sel` (10/R242). -/
def execSel (f : FWord) (s : State) : Answer :=
  fire s f fun a b g =>
    let v := viewOf f 0 a b
    let lanesC := turnRec v.ra (bits (imLow f) 5 3)
    let cond := fun i =>
      if bit (imLow f) 0 then decide (laneAt v.w lanesC i ≠ 0) else bit (tagP a.tag) (bits (imLow f) 2 1)
    laneWise v.w f v a g fun i g => ⟨if cond i then v.a i else v.b i, 0, g⟩

/-- `mov` (10/R243). -/
def execFabricMov (f : FWord) (s : State) : Answer := firePat s f 0 fun v i => v.a i

/-- `const` (10/R243). -/
def execConst (f : FWord) (s : State) : Answer :=
  firePat s f (if bit f.imm.toNat 18 then immFl f else immInt f) fun v i => v.b i

/-- `mix` (10/R243). -/
def execMix (f : FWord) (s : State) : Answer := firePat s f 0 fun v i => v.b i

/-! ## Floating-point arithmetic (10/R244-R246) -/

/-- A float instruction lane by lane: format, mode and the lane's data. -/
def fireFl (s : State) (f : FWord) (op : Nat → FVal → FVal → FVal → FVal × Flags) : Answer :=
  fire s f fun a b g =>
    let v := viewOf f (immFl f) a b
    let fl := laneFl v.w (imAlt f)
    let rm := imOpt f
    laneWise v.w f v a g fun i g =>
      let r := op rm (fl.unpack (v.a i)) (fl.unpack (v.b i)) (fl.unpack (v.v i))
      storeFl fl rm false g r.1 r.2

/-- `f.add`. -/
def execFAdd (f : FWord) (s : State) : Answer := fireFl s f fun rm a b _ => addV rm a b

/-- `f.sub`. -/
def execFSub (f : FWord) (s : State) : Answer := fireFl s f fun rm a b _ => addV rm a (negV b)

/-- `f.mul`. -/
def execFMul (f : FWord) (s : State) : Answer := fireFl s f fun _ a b _ => mulV a b

/-- `f.fma`. -/
def execFFma (f : FWord) (s : State) : Answer := fireFl s f fun rm a b v => fmaV rm a b v

/-- The lesser or greater of two patterns, -0 less than +0 (10/R245). -/
def pickFl (fl : Fl) (greater : Bool) (x y : Nat) (g : W32) : Res :=
  let a := fl.unpack x
  let b := fl.unpack y
  if a.isNan || b.isNan then ⟨fl.qnan, flagIf (a.isSnan || b.isSnan) fNV, g⟩
  else
    let less := ltV a b || (eqV a b && a.neg && !b.neg)
    ⟨if less != greater then x else y, 0, g⟩

/-- A float instruction on patterns, which rounds nothing. -/
def firePick (s : State) (f : FWord) (op : Fl → View → Nat → W32 → Res) : Answer :=
  fire s f fun a b g =>
    let v := viewOf f (immFl f) a b
    laneWise v.w f v a g (op (laneFl v.w (imAlt f)) v)

/-- `f.min`. -/
def execFMin (f : FWord) (s : State) : Answer := firePick s f fun fl v i g => pickFl fl false (v.a i) (v.b i) g

/-- `f.max`. -/
def execFMax (f : FWord) (s : State) : Answer := firePick s f fun fl v i g => pickFl fl true (v.a i) (v.b i) g

/-- The sign bit cleared or inverted; a NaN gives the canonical NaN, with no flag. -/
def signLane (fl : Fl) (invert : Bool) (x : Nat) : Nat :=
  let top := 2 ^ (fl.eb + fl.mb)
  if (fl.unpack x).isNan then fl.qnan
  else if invert then x ^^^ top else x % top

/-- `f.abs`. -/
def execFAbs (f : FWord) (s : State) : Answer := firePick s f fun fl v i g => ⟨signLane fl false (v.a i), 0, g⟩

/-- `f.neg`. -/
def execFNeg (f : FWord) (s : State) : Answer := firePick s f fun fl v i g => ⟨signLane fl true (v.a i), 0, g⟩

/-- A special function lane by lane (10/R246). -/
def fireSpecial (s : State) (f : FWord) (op : W32 → FVal → Res) : Answer :=
  firePick s f fun _ v i g => op g (flFp32.unpack (v.a i))

/-- `f.rcp`. -/
def execFRcp (f : FWord) (s : State) : Answer := fireSpecial s f spRcp

/-- `f.rsq`. -/
def execFRsq (f : FWord) (s : State) : Answer := fireSpecial s f spRsq

/-- `f.exp2`. -/
def execFExp2 (f : FWord) (s : State) : Answer := fireSpecial s f spExp2

/-- `f.log2`. -/
def execFLog2 (f : FWord) (s : State) : Answer := fireSpecial s f spLog2

/-- `f.sig`. -/
def execFSig (f : FWord) (s : State) : Answer := fireSpecial s f spSig

/-- `f.tanh`. -/
def execFTanh (f : FWord) (s : State) : Answer := fireSpecial s f spTanh

/-! ## Conversions (10/R247-R249) -/

/-- `cvt`. -/
def execCvt (f : FWord) (s : State) : Answer :=
  fire s f fun a b g =>
    let v := viewOf f 0 a b
    let dst := bits (imLow f) 10 7
    laneWise (widthOf dst) f v a g fun i g =>
      convert (bits (imLow f) 6 3) dst (imOpt f) (bit (imLow f) 2) g (v.a i)

/-- Pack patterns of w bits, the first lowest. -/
def packBits (w : Nat) : List Nat → Nat
  | [] => 0
  | x :: r => x % 2 ^ w + 2 ^ w * packBits w r

/-- `pack` (10/R248). -/
def execPack (f : FWord) (s : State) : Answer :=
  fire s f fun a b g =>
    let v := viewOf f 0 a b
    let fl := laneFl 8 (imAlt f)
    let e := blockEnc (imOpt f) g ((List.range 32).map fun i => fl.unpack (v.a i))
    ⟨outBillet f a (v.vv / 2 ^ 160 * 2 ^ 160 + e.2.1 * 2 ^ 128 + packBits 4 e.1), e.2.2.1, e.2.2.2⟩

/-- `unpack` (10/R249). -/
def execUnpack (f : FWord) (s : State) : Answer :=
  fire s f fun a b g =>
    let v := viewOf f 0 a b
    let fl := laneFl v.w (imAlt f)
    let rm := imOpt f
    laneWise v.w f v a g fun i g =>
      match scaleExp (laneAt 8 v.av 16), flE2m1.unpack (laneAt 4 v.av (v.n * bits (imLow f) 1 0 + i)) with
      | some x, .fin n m e => toFl fl rm (bit (imLow f) 2) g (.fin n m (e + x))
      | _, _ => ⟨fl.qnan, 0, genFor rm g⟩

/-! ## Residue arithmetic (10/R250) -/

/-- `r.enc`. -/
def execREnc (f : FWord) (s : State) : Answer := firePat s f 0 fun v i => rnsEnc (imSat f) (sOf 32 (v.a i))

/-- `r.dec`. -/
def execRDec (f : FWord) (s : State) : Answer :=
  fire s f fun a b g =>
    let v := viewOf f 0 a b
    laneWise v.w f v a g fun i g =>
      let x := rnsRead (v.a i)
      ⟨wrapN 32 (rnsDec x.1), flagIf x.2 fRV, g⟩

/-- `r.mac`. -/
def execRMac (f : FWord) (s : State) : Answer :=
  fire s f fun a b g =>
    let v := viewOf f 0 a b
    laneWise v.w f v a g fun i g =>
      let x := rnsRead (v.a i)
      let y := rnsRead (v.b i)
      let z := rnsRead (v.v i)
      ⟨rnsOp (· + ·) z.1 (rnsOp (· * ·) x.1 y.1), flagIf (x.2 || y.2 || z.2) fRV, g⟩

/-! ## Cross-lane moves (10/R251, R252) -/

/-- The source lane that a pattern names (10 Table 10.9). -/
def xlSource (f : FWord) (v : View) (i : Nat) : Int :=
  let k : Int := bits (imLow f) 5 0
  match imOpt f with
  | 0 => v.b i
  | 1 => ((i : Int) - k) % v.n
  | 2 => i - k
  | 3 => i + k
  | 4 => ((i ^^^ bits (imLow f) 5 0 : Nat) : Int)
  | _ => k

/-- The source lane, unless the read is empty. -/
def xlRead (f : FWord) (v : View) (i : Nat) : Option Nat :=
  let j := xlSource f v i
  if j < 0 ∨ (v.n : Int) ≤ j ∨ (v.me ∧ !v.mask j.toNat) then none else some (v.a j.toNat)

/-- `xl`. -/
def execXl (f : FWord) (s : State) : Answer :=
  fire s f fun a b g =>
    let v := viewOf f 0 a b
    let mode := bits (imLow f) 10 9
    if mode = 2 ∧ v.lanes.any (fun i => (xlRead f v i).isNone) then ⟨setKind a 3, 0, g⟩
    else
      laneWise v.w f v a g fun i g =>
        let empty := if mode = 0 then 0 else if mode = 1 then v.v i else v.b i
        ⟨(xlRead f v i).getD empty, 0, g⟩

/-! ## Reductions (10/R253, R254) -/

/-- OPR (10 Table 10.12). -/
def redOp (f : FWord) : Nat := bits (imLow f) 10 8
/-- Its SAT. -/
def redSat (f : FWord) : Bool := bit (imLow f) 7
/-- Its UNS. -/
def redUns (f : FWord) : Bool := bit (imLow f) 6

/-- The identity of an operator (10 Table 10.13). -/
def redIdentity (f : FWord) (w : Nat) : Nat :=
  let fl := laneFl w (imAlt f)
  let top := fun (neg : Bool) => if fl.top = .ieee then fl.infBits neg else fl.signed neg fl.maxMag
  match redOp f with
  | 0 => 0
  | 1 => wrapN w (intHi w (!redUns f))
  | 2 => wrapN w (intLo w (!redUns f))
  | 3 => fl.signed true 0
  | 4 => top false
  | _ => top true

/-- The value that a lane brings into the tree. -/
def redLeaf (f : FWord) (v : View) (i : Nat) : Nat :=
  if v.en i then v.a i
  else
    match bits (imLow f) 5 4 with
    | 0 => 0
    | 1 => redIdentity f v.w
    | _ => v.b i

/-- One combination. A float one rounds once in RM, a minimum or maximum too: its value needs no rounding, but under RSTO it
draws its step (10/R253). -/
def redPair (f : FWord) (w x y : Nat) (g : W32) : Res :=
  let fl := laneFl w (imAlt f)
  let rd := fun (v : Nat) => if redUns f then (v : Int) else sOf w v
  match redOp f with
  | 0 =>
    let t := rd x + rd y
    ⟨wrapN w (if redSat f then clampInt (intLo w (!redUns f)) (intHi w (!redUns f)) t else t), 0, g⟩
  | 1 => ⟨wrapN w (minInt (rd x) (rd y)), 0, g⟩
  | 2 => ⟨wrapN w (maxInt (rd x) (rd y)), 0, g⟩
  | 3 =>
    let r := addV (imOpt f) (fl.unpack x) (fl.unpack y)
    storeFl fl (imOpt f) false g r.1 r.2
  | 4 => { pickFl fl false x y g with gen := genFor (imOpt f) g }
  | _ => { pickFl fl true x y g with gen := genFor (imOpt f) g }

/-- One level of the tree: neighbours combined in ascending order. -/
def redLevel (f : FWord) (w : Nat) : List Nat → W32 → List Nat × Flags × W32
  | x :: y :: r, g =>
    let c := redPair f w x y g
    let t := redLevel f w r c.gen
    (c.bits :: t.1, c.fl ||| t.2.1, t.2.2)
  | l, g => (l, 0, g)

/-- The pairwise tree (03/R75); `levels` bounds its height. -/
def redTree (f : FWord) (w : Nat) : Nat → List Nat → Flags → W32 → Res
  | 0, l, fl, g => ⟨l.headD 0, fl, g⟩
  | levels + 1, l, fl, g =>
    if l.length ≤ 1 then ⟨l.headD 0, fl, g⟩
    else
      let t := redLevel f w l g
      redTree f w levels t.1 (fl ||| t.2.1) t.2.2

/-- `red`. -/
def execRed (f : FWord) (s : State) : Answer :=
  fire s f fun a b g =>
    let v := viewOf f 0 a b
    if bits (imLow f) 5 4 = 2 ∧ !(List.range v.n).all v.en then ⟨setKind a 3, 0, g⟩
    else
      let r := redTree f v.w 6 ((List.range v.n).map (redLeaf f v)) 0 g
      ⟨outBillet f a (laneSet v.w v.vv 0 r.bits), r.fl, r.gen⟩

end Sys2Proof.Machine
end

