-- ==== Sys2Proof/Machine/CastImage.lean ====
section
/-! DEFINITION. The casting image and its static checks (02/R33-R38, 09/R218, 10/R236-R238, R247-R254, 11/R257-R261,
12/R298, 17/R400). -/

namespace Sys2Proof.Machine

/-! ## Parsing (02/R34, R37, R38) -/

/-- A casting image, read. -/
structure Image where
  blocks : List Block
  arcs   : List Arc
  ns     : Nat
  deriving DecidableEq, Repr

/-- A block header and its code (02 Table 2.17); none when a field of the header is out of range or bytes are missing. -/
def parseBlock (b : List Byte) : Option (Block × List Byte) :=
  let h := leNat (b.take 16)
  let n := bits h 115 109 + 1
  let code := (b.drop 16).take (8 * n)
  if b.length < 16 + 8 * n ∨ bits h 127 120 ≠ 0xB1 ∨ bits h 119 116 ≠ 1 ∨ bits h 67 64 ≠ 0 ∨ bits h 100 99 = 3 ∨
      8 < bits h 108 105 ∨ 8 < bits h 104 101 ∨ bits h 71 68 = 0 ∨ 12 < bits h 71 68 ∨
      (bits h 98 92 ≠ 0x7F ∧ n ≤ bits h 98 92) then none
  else
    some ({ imode := bits h 100 99, rlbl := bits h 98 92, pinit := BitVec.ofNat 4 (bits h 91 88)
            cdepth := bits h 87 80, mdepth := bits h 79 72, ctx := bits h 71 68, nin := bits h 108 105
            nout := bits h 104 101, entry := BitVec.ofNat 64 h
            code := (chunks 8 n code).map fun w => BitVec.ofNat 64 (leNat w) }, b.drop (16 + 8 * n))

/-- n block images. -/
def parseBlocks : Nat → List Byte → Option (List Block × List Byte)
  | 0, b => some ([], b)
  | n + 1, b =>
    match parseBlock b with
    | none => none
    | some (x, r) => (parseBlocks n r).map fun y => (x :: y.1, y.2)

/-- An arc entry (02 Table 2.21). -/
def parseArc (e : Nat) : Option Arc :=
  if bits e 11 0 ≠ 0 ∨ bits e 19 12 = 0 then none
  else some ⟨bits e 31 29, bits e 28 26, bits e 25 23, bits e 22 20, bits e 19 12, []⟩

/-- n arc entries. -/
def parseArcs : Nat → List Byte → Option (List Arc × List Byte)
  | 0, b => some ([], b)
  | n + 1, b =>
    if b.length < 4 then none
    else
      match parseArc (leNat (b.take 4)) with
      | none => none
      | some x => (parseArcs n (b.drop 4)).map fun y => (x :: y.1, y.2)

/-- LEN of an image header (02 Table 2.20). -/
def imageLen (hdr : Nat) : Nat := bits hdr 95 64

/-- An image of LEN bytes (02/R37): its fields in range, its length and padding right. -/
def parseImage (b : List Byte) : Option Image :=
  let h := leNat (b.take 16)
  if b.length < 16 ∨ b.length % 8 ≠ 0 ∨ bits h 127 120 ≠ 0xCA ∨ bits h 119 116 ≠ 1 ∨ bits h 99 96 ≠ 0 ∨
      bits h 63 0 ≠ 0 ∨ 64 < bits h 112 106 ∨ 32 < bits h 105 100 then none
  else
    match parseBlocks (bits h 115 113 + 1) (b.drop 16) with
    | none => none
    | some (blocks, r) =>
      match parseArcs (bits h 112 106) r with
      | none => none
      | some (arcs, pad) => if pad.length < 8 ∧ pad.all (· = 0) then some ⟨blocks, arcs, bits h 105 100⟩ else none

/-! ## Instruction fields (10 Table 10.2) -/

/-- A float immediate is a value that the lane format represents exactly, or an infinity that it has (10/R237). -/
def fImmOk (w : Nat) (alt : Bool) (i : Nat) : Bool :=
  let f := laneFl w alt
  match flFp32.unpack (i * 2 ^ 21) with
  | .nan _ => false
  | .inf _ => w = 32 || w = 16 || alt
  | v =>
    let r := toFl f 0 false 1 v
    eqV (f.unpack r.bits) v

/-- How a row of 10 Table 10.2 reads: shapes, BSRC values, whether FB is 0, OPT mask for integer rows, and what ALT and
IMM11 may hold. -/
structure CRow where
  shapes : List Nat
  bsrcs  : List Nat
  noB    : Bool := false
  noA    : Bool := false
  optMax : Nat → Bool
  float  : Bool := false
  imm    : FWord → Bool

/-- Shapes I of 10 Table 10.2. -/
def shI : List Nat := [0, 1, 2, 3, 4]
/-- Shapes F. -/
def shF : List Nat := [0, 1, 2, 3]
/-- All six. -/
def shAll : List Nat := [0, 1, 2, 3, 4, 5]

/-- No IMM11. -/
def immZero (f : FWord) : Bool := imLow f = 0
/-- An integer immediate when BSRC = 10, else 0. -/
def immIntOk (f : FWord) : Bool := imBsrc f = 2 || imLow f = 0
/-- A float immediate when BSRC = 10, else 0. -/
def immFloatOk (f : FWord) : Bool :=
  if imBsrc f = 2 then fImmOk (shapeOf f.sh).2 (imAlt f) (imLow f) else imLow f = 0
/-- A compare's IMM11 (10 Table 10.5). -/
def immCmp (ccMax : Nat) (f : FWord) : Bool :=
  let i := imLow f
  bits i 10 8 ≤ ccMax && bits i 5 4 ≠ 3 && bits i 3 0 = 0
/-- `sel`'s (10/R242). -/
def immSel (f : FWord) : Bool :=
  let i := imLow f
  bits i 10 6 = 0 && (if bit i 0 then bits i 2 1 = 0 else bits i 5 3 = 0)
/-- `const`'s (10/R243): FLT is OPT bit 18. -/
def immConst (f : FWord) : Bool :=
  if bit (imOpt f) 2 then f.sh.toNat ≤ 3 && fImmOk (shapeOf f.sh).2 (imAlt f) (imLow f) else true
/-- A format code names a floating-point format (03 Table 3.1). -/
def isFlCode (c : Nat) : Bool := 8 ≤ c && c ≤ 13
/-- `cvt`'s (10/R247, Table 10.8). -/
def immCvt (f : FWord) : Bool :=
  let i := imLow f
  let t := bits i 10 7
  let c := bits i 6 3
  let x := shapeOf f.sh
  bits i 1 0 = 0 && t ≤ 14 && c ≤ 14 && widthOf c = x.2 && x.1 * widthOf t ≤ 256 &&
  (isFlCode t || isFlCode c || imOpt f = 0) && (t ≠ 14 || f.sh.toNat ≤ 1)
/-- `unpack`'s (10/R249). -/
def immUnpack (f : FWord) : Bool :=
  let i := imLow f
  bits i 10 3 = 0 && (match f.sh.toNat with
    | 1 => true
    | 2 => bits i 1 0 ≤ 1
    | _ => bits i 1 0 = 0)
/-- `xl`'s (10/R251, R252). -/
def immXl (f : FWord) : Bool :=
  let i := imLow f
  let n := (shapeOf f.sh).1
  let k := bits i 5 0
  let idx : Bool := imOpt f = 0
  let repl : Bool := bits i 10 9 = 3
  bits i 8 6 = 0 && !(idx && repl) &&
  (if idx then k = 0 else if imOpt f = 5 then k < n else 1 ≤ k && k < n) &&
  (if idx || repl then imBsrc f ≤ 1 else imBsrc f = 0 && f.fb = 0)
/-- The operator of `red` is a float operator (10 Table 10.12). -/
def redFloat (f : FWord) : Bool := 3 ≤ bits (imLow f) 10 8
/-- `red`'s (10/R253, R254). -/
def immRed (f : FWord) : Bool :=
  let i := imLow f
  bits i 10 8 ≤ 5 && bits i 3 0 = 0 && (!redFloat f || bits i 7 6 = 0) &&
  (if redFloat f then imOpt f ≤ 4 else imOpt f = 0) &&
  (if bits i 5 4 = 3 then imBsrc f ≤ 1 else imBsrc f = 0 && f.fb = 0)

/-- OPT bits within a mask. -/
def optIn (m : Nat) (o : Nat) : Bool := o &&& m = o
/-- A rounding mode (03/R59). -/
def optRm (o : Nat) : Bool := o ≤ 4

/-- The row of an opcode (10 Table 10.2); none for one that is no compute instruction. -/
def cRow (opc : Nat) : Option CRow :=
  if opc ≤ 3 then some { shapes := shI, bsrcs := [0, 1, 2], optMax := optIn 3, imm := immIntOk }
  else if opc ≤ 5 then some { shapes := shI, bsrcs := [0, 1, 2], optMax := optIn 2, imm := immIntOk }
  else if opc = 6 then some { shapes := shI, bsrcs := [0], noB := true, optMax := optIn 1, imm := immZero }
  else if opc = 7 then some { shapes := shI, bsrcs := [0, 1, 2], optMax := optIn 2, imm := immIntOk }
  else if opc ≤ 0x0A then some { shapes := shAll, bsrcs := [0, 1, 2], optMax := optIn 0, imm := immIntOk }
  else if opc = 0x0B then some { shapes := shI, bsrcs := [0, 1, 2], optMax := optIn 3, imm := immIntOk }
  else if opc ≤ 0x0D then some { shapes := shI, bsrcs := [0, 1, 2], optMax := optIn 0, imm := immIntOk }
  else if opc = 0x0E then some { shapes := shI, bsrcs := [0, 1], optMax := optIn 2, imm := immCmp 5 }
  else if opc = 0x0F then some { shapes := shAll, bsrcs := [0, 1], optMax := optIn 0, imm := immSel }
  else if opc = 0x10 then some { shapes := shAll, bsrcs := [0], noB := true, optMax := optIn 0, imm := immZero }
  else if opc = 0x11 then
    some { shapes := shAll, bsrcs := [2], noB := true, noA := true, optMax := optIn 4, imm := immConst }
  else if opc = 0x12 then some { shapes := shAll, bsrcs := [1], noA := true, optMax := optIn 0, imm := immZero }
  else if 0x40 ≤ opc ∧ opc ≤ 0x43 then
    some { shapes := shF, bsrcs := [0, 1, 2], optMax := optRm, float := true, imm := immFloatOk }
  else if opc = 0x44 ∨ opc = 0x45 then
    some { shapes := shF, bsrcs := [0, 1, 2], optMax := optIn 0, float := true, imm := immFloatOk }
  else if opc = 0x46 ∨ opc = 0x47 then
    some { shapes := shF, bsrcs := [0], noB := true, optMax := optIn 0, float := true, imm := immZero }
  else if opc = 0x48 then some { shapes := shF, bsrcs := [0, 1], optMax := optIn 0, float := true, imm := immCmp 6 }
  else if 0x50 ≤ opc ∧ opc ≤ 0x55 then
    some { shapes := [0, 1], bsrcs := [0], noB := true, optMax := optRm, float := true, imm := immZero }
  else if opc = 0x58 then some { shapes := shAll, bsrcs := [0], noB := true, optMax := optRm, imm := immCvt }
  else if opc = 0x59 then
    some { shapes := [3], bsrcs := [0], noB := true, optMax := optRm, float := true
           imm := fun f => immZero f && !imMe f }
  else if opc = 0x5A then
    some { shapes := [1, 2, 3], bsrcs := [0], noB := true, optMax := optRm, float := true, imm := immUnpack }
  else if opc = 0x60 then some { shapes := [0, 1], bsrcs := [0], noB := true, optMax := optIn 1, imm := immZero }
  else if opc = 0x61 then some { shapes := [0, 1], bsrcs := [0], noB := true, optMax := optIn 0, imm := immZero }
  else if opc = 0x62 then some { shapes := [0, 1], bsrcs := [0, 1], optMax := optIn 0, imm := immZero }
  else if opc = 0x68 then some { shapes := [1, 2, 3, 5], bsrcs := [0, 1], optMax := fun o => o ≤ 5, imm := immXl }
  else if opc = 0x69 then some { shapes := [1, 2, 3], bsrcs := [0, 1], optMax := optRm, imm := immRed }
  else none

/-- Field numbers are even under `s64` (02/R33). -/
def evenOk (f : FWord) : Bool := f.sh ≠ 4 || (!f.fa.getLsbD 0 && !f.fb.getLsbD 0 && !f.fd.getLsbD 0)

/-- A compute instruction keeps 10/R238. -/
def computeOk (opc : Nat) (f : FWord) (r : CRow) : Bool :=
  let flt : Bool := r.float || (opc = 0x11 && bit (imOpt f) 2) || (opc = 0x69 && redFloat f)
  let w := (shapeOf f.sh).2
  r.shapes.contains f.sh.toNat && r.bsrcs.contains (imBsrc f) &&
  (!(r.noB || imBsrc f = 2) || f.fb = 0) && (!r.noA || f.fa = 0) && r.optMax (imOpt f) &&
  (imMe f || bits f.imm.toNat 14 12 = 0) && (!imAlt f || (flt && (w = 16 || w = 8))) && evenOk f && r.imm f

/-! ## Nodes (11 Table 11.1, R257-R261) -/

/-- The bits of IMM21 in a mask alone are set. -/
def immWithin (f : FWord) (m : Nat) : Bool := f.imm.toNat &&& m = f.imm.toNat

/-- Fields that a node does not use are 0. -/
def fieldsZero (f : FWord) (a b d : Bool) : Bool := (a || f.fa = 0) && (b || f.fb = 0) && (d || f.fd = 0)

/-- The condition's fields of `steer` and `filter`. -/
def condOk (f : FWord) : Bool :=
  let c := bit f.imm.toNat 3
  fieldsZero f c false false && (!c || bits f.imm.toNat 1 0 = 0)

/-- Both targets of `fork` and `steer` are there. -/
def bothTargets (f : FWord) : Bool := f.t1 ≠ 0x1FF && f.t0 ≠ 0x1DF

/-- Mask fields of a load or store. -/
def maskOk (f : FWord) : Bool := bit f.imm.toNat 15 || bits f.imm.toNat 14 12 = 0

/-- A flow, memory or island node keeps 11/R257-R261 and 12/R298. -/
def nodeOk (opc mdepth : Nat) (f : FWord) : Bool :=
  let i := f.imm.toNat
  (f.sh = 0 || (opc = 0xA2 && f.sh = 4)) && (f.pm = 0 || opc = 0x80 || opc = 0x88 || 0xA0 ≤ opc) && evenOk f &&
  (match opc with
   | 0x80 => immWithin f 0 && fieldsZero f false false false && bothTargets f
   | 0x81 => immWithin f 0xF && condOk f && bothTargets f
   | 0x82 => immWithin f 0x1FF && fieldsZero f false false false && (bits i 7 0 ≠ 0 || mdepth ≠ 0)
   | 0x83 => immWithin f 0 && fieldsZero f false false false
   | 0x84 => immWithin f 0x1F && condOk f
   | 0x85 => immWithin f 0 && fieldsZero f false false false
   | 0x86 => immWithin f 0xFFFF && fieldsZero f false false false
   | 0x87 => immWithin f 0 && fieldsZero f false false false
   | 0x88 => immWithin f 0x3FF && fieldsZero f false false false && bits i 9 8 ≠ 3
   | 0xA0 => immWithin f 0xFBFF && fieldsZero f true false true && maskOk f
   | 0xA8 => immWithin f 0xFBFF && fieldsZero f true false true && maskOk f
   | 0xA3 => fieldsZero f true false true && maskOk f && !(bit i 10 && f.fa.getLsbD 0)
   | 0xA1 => immWithin f 0xFBFF && fieldsZero f true true false && maskOk f
   | 0xA9 => immWithin f 0xFBFF && fieldsZero f true true false && maskOk f
   | 0xA4 => fieldsZero f true true false && maskOk f && !(bit i 10 && f.fa.getLsbD 0)
   | 0xA2 => immWithin f 0xFFF8 && fieldsZero f true true (bit i 10) && bits i 15 12 ≤ 10 &&
       !(bits i 15 12 = 10 && f.sh = 4)
   | 0xA5 => immWithin f 0x1FE000 && fieldsZero f true (bit i 14) true && !(bit i 13 && f.fd.getLsbD 0)
   | 0xAA => immWithin f 0x7FFFF && fieldsZero f (bit i 18) false true &&
       (if bit i 18 then bits i 17 0 = 0 else bits i 11 0 ≠ 0)
   | 0xAB => immWithin f 0x7F && fieldsZero f true false false && bits i 2 0 ≠ 7 && bits i 6 3 ≠ 0
   | 0xC0 => immWithin f 0x7FF && fieldsZero f true false false && bits i 6 3 + bits i 10 7 + 1 ≤ 16
   | 0xC1 => immWithin f 0xF && fieldsZero f true true false
   | 0xC2 => immWithin f 0x7FF && fieldsZero f false false false &&
       ((bits i 10 9 = 0 && bits i 8 3 = 0) || (bits i 10 9 = 1 && bits i 8 0 = 0))
   | _ => false)

/-- OPC of a fabric doubleword. -/
def opcOf (w : Word) : Nat := bits w.toNat 63 56

/-- A target names a slot of the block, or an output port below NOUT (02/R33). -/
def targetIn (b : Block) (t : BitVec 9) : Bool :=
  let slot := bits t.toNat 8 2
  if bits t.toNat 1 0 = 3 then slot / 8 = 15 && slot % 8 < b.nout else slot < b.code.length

/-- One instruction of a block keeps the rules about itself (02/R33, R36). (DEDUCED, log 55.) -/
def wordOk (b : Block) (w : Word) : Bool :=
  let f := FWord.ofBits w
  f.ok && (targetsOf f).all (targetIn b) &&
  (match cRow (opcOf w) with
   | some r => computeOk (opcOf w) f r
   | none => nodeOk (opcOf w) b.mdepth f)

/-- The inputs that an instruction consumes (10/R234, 11/R266-R269): 0 a, 1 b, 2 c. -/
def consumes (w : Word) : List Nat :=
  let opc := opcOf w
  if opc < 0x80 then (if opc = 0x12 ∨ imBsrc (FWord.ofBits w) = 1 then [0, 1] else [0])
  else if opc = 0x82 ∨ opc = 0x83 ∨ opc = 0x85 then [0, 1]
  else if opc = 0x86 then [0, 2]
  else [0]

/-! ## The graph (02/R38, 09/R218, 17/R400) -/

/-- ENTRY bytes of a block keep 02/R36: no slot of an enabled or disabled byte lies at or above NI + 1. -/
def entriesOk (b : Block) : Bool :=
  (List.range 8).all fun p => decide (entrySlot b p < b.code.length) && (!entryOn b p || decide (p < b.nin))

/-- Targets of every instruction of a block. -/
def blockTargets (b : Block) : List (BitVec 9) := (b.code.map fun w => targetsOf (FWord.ofBits w)).flatten

/-- Sources of an input of a slot: targets, and ENTRY bytes for input a. -/
def sourceCount (b : Block) (slot input : Nat) : Nat :=
  ((blockTargets b).filter fun t => bits t.toNat 1 0 = input ∧ bits t.toNat 8 2 = slot).length +
  (if input = 0 then ((List.range 8).filter fun p => entryOn b p && entrySlot b p == slot).length else 0)

/-- Every input of every instruction has one source if it is consumed, else none (09/R218). -/
def sourcesOk (b : Block) : Bool :=
  b.code.zipIdx.all fun w => (List.range 3).all fun i =>
    sourceCount b w.2 i = if (consumes w.1).contains i then 1 else 0

/-- Every output port below NOUT is named by exactly one target (09/R218). -/
def outputsOk (b : Block) : Bool :=
  (List.range b.nout).all fun o =>
    ((blockTargets b).filter fun t => bits t.toNat 1 0 = 3 ∧ bits t.toNat 8 2 % 8 = o).length = 1

/-- The rules about one block. -/
def blockOk (b : Block) : Bool := entriesOk b && b.code.all (wordOk b) && sourcesOk b && outputsOk b

/-- An arc's ends exist, and no other arc shares one (02/R38). -/
def arcOk (m : Image) (a : Arc) : Bool :=
  (match m.blocks[a.fblk]? with
   | some b => decide (a.fout < b.nout)
   | none => false) &&
  (match m.blocks[a.tblk]? with
   | some b => entryOn b a.tin
   | none => false) &&
  (m.arcs.filter fun x => x.fblk = a.fblk ∧ x.fout = a.fout).length = 1 &&
  (m.arcs.filter fun x => x.tblk = a.tblk ∧ x.tin = a.tin).length = 1

/-- Instructions that a place sends to directly, through targets and inter-block arcs. -/
def nextOf (m : Image) (n : Nat × Nat) : List (Nat × Nat) :=
  match (m.blocks[n.1]?).bind fun b => b.code[n.2]? with
  | none => []
  | some w =>
    (targetsOf (FWord.ofBits w)).filterMap fun t =>
      if bits t.toNat 1 0 ≠ 3 then some (n.1, bits t.toNat 8 2)
      else
        match m.arcs.find? fun a => a.fblk = n.1 ∧ a.fout = bits t.toNat 8 2 % 8 with
        | none => none
        | some a => (m.blocks[a.tblk]?).map fun b => (a.tblk, entrySlot b a.tin)

/-- The opcode at a place. -/
def opcAt (m : Image) (n : Nat × Nat) : Nat := (((m.blocks[n.1]?).bind fun b => b.code[n.2]?).map opcOf).getD 0xFF

/-- Every place of an image. -/
def placesOf (m : Image) : List (Nat × Nat) :=
  (m.blocks.zipIdx.map fun b => (List.range b.1.code.length).map fun k => (b.2, k)).flatten

/-- Take away places that send to no place that is left; `fuel` bounds the rounds. -/
def peel (m : Image) : Nat → List (Nat × Nat) → List (Nat × Nat)
  | 0, l => l
  | fuel + 1, l => peel m fuel (l.filter fun n => (nextOf m n).any l.contains)

/-- Every directed cycle passes through a `recirc` (09/R218): without those, nothing is left. -/
def cyclesOk (m : Image) : Bool :=
  let l := (placesOf m).filter fun n => opcAt m n ≠ 0x85
  (peel m l.length l).isEmpty

/-- Every place that some places reach; `fuel` bounds the length of a path. -/
def reach (m : Image) : Nat → List (Nat × Nat) → List (Nat × Nat)
  | 0, l => l
  | fuel + 1, l => reach m fuel (l ++ ((l.map (nextOf m)).flatten.eraseDups.filter fun n => !l.contains n))

/-- No restart slot reaches an ordered `merge` (17/R400). -/
def restartOk (m : Image) : Bool :=
  m.blocks.zipIdx.all fun b =>
    b.1.rlbl = 0x7F || (reach m (placesOf m).length [(b.2, b.1.rlbl)]).all fun n => opcAt m n ≠ 0x82

/-- The image breaks no rule (02/R36-R38, 09/R218). (DEDUCED, log 55.) -/
def imageOk (m : Image) : Bool :=
  m.blocks.all blockOk && m.arcs.all (arcOk m) && cyclesOk m && restartOk m

/-- Fabric pages of a casting (09/R213). -/
def pageCount (blocks : List Block) : Nat :=
  (blocks.map fun b => (b.code.length + 16 * b.ctx - 1) / (16 * b.ctx)).foldl (· + ·) 0

/-- The curd depth of a casting (07/R161). -/
def curdDepth (blocks : List Block) : Nat := (blocks.map (·.cdepth)).foldl (· + ·) 0

end Sys2Proof.Machine
end

