-- ==== Sys2Proof/Machine/Force.lean ====
section
/-! DEFINITION. A casting as it is placed, and its forced end: restart or kill (03/R62, 17/R397-R400). -/

namespace Sys2Proof.Machine

/-! ## Fresh instructions -/

/-- The seed of the generator in slot k of block b, from the launch's rounding seed (03/R62). -/
def seedOf (q : W32) (b k : Nat) : W32 :=
  let v := q + 0x9E3779B9 * BitVec.ofNat 32 (128 * b + k + 1)
  if v = 0 then 1 else v

/-- CINIT of a `gate`, 0 for any other instruction (11/R269). -/
def creditOf (w : Word) : Nat := if bits w.toNat 63 56 = 0x86 then bits w.toNat 15 0 else 0

/-- An instruction's state when its casting is placed. -/
def freshNode (q : W32) (b k : Nat) (w : Word) : NodeSt :=
  { gen := seedOf q b k, genAt := [(0, seedOf q b k)], streamAt := [(0, none)], lastAt := [(0, none)], credit := creditOf w }

/-- The states of every instruction of a casting when it is placed. -/
def freshNodes (q : W32) (blocks : List Block) : Tab NodeSt :=
  (blocks.zipIdx.map fun b => b.1.code.zipIdx.map fun w => (128 * b.2 + w.2, freshNode q b.2 w.2 w.1)).flatten

/-- The word of the instruction with a key. -/
def codeOf (k : CastLive) (key : Nat) : Word := ((k.blocks[key / 128]?).bind fun b => b.code[key % 128]?).getD 0

/-! ## Restart (17/R399, R400) -/

/-- An instruction's state when invocation v starts again: after its marker before v, with the generator, the stream
entry and the `merge.u` state of that moment. One that an *overread* has stopped stays so (07 Table 7.5). -/
def restartNode (w : Word) (v : Nat) (x : NodeSt) : NodeSt :=
  { gen := tabGet x.genAt v x.gen
    genAt := x.genAt.filter fun e => e.1 ≤ v
    stream := tabGet x.streamAt v none
    streamAt := x.streamAt.filter fun e => e.1 ≤ v
    lastB := tabGet x.lastAt v none
    lastAt := x.lastAt.filter fun e => e.1 ≤ v
    inv := v, credit := creditOf w, ntake := x.ntake, nreq := x.nreq, stop := x.doomed, doomed := x.doomed }

/-- A casting that starts again at invocation v, parked with empty queues, a restart token owed. One that a *marker* fault has
stopped does no further work all the same, until it is killed (09/R219). (DEDUCED, log 54.) -/
def restartLive (now v : Nat) (k : CastLive) : CastLive :=
  { k with
    nodes := k.nodes.map fun e => (e.1, restartNode (codeOf k e.1) v e.2)
    arcs := k.arcs.map fun a => { a with q := [] }
    ins := tabMap (fun p => { p with q := [], seq := 0, inv := v }) k.ins
    outs := tabMap (fun (_ : PortOut) => ({ pulled := v } : PortOut)) k.outs
    flagsAt := k.flagsAt.filter fun e => e.1 < v
    bindAt := k.bindAt.filter fun e => e.1 ≤ v
    fresh := [], owed := [], taken := [], place := .parked now, loaded := false, token := some v }

/-- Restart a casting at its oldest unretired invocation. (DEDUCED, log 54.) -/
def restartCasting (s : State) (cid : Nat) : State :=
  match (castSlot s cid).live with
  | none => s
  | some k =>
    let c := cid / 256
    let v := retiredCount k
    let who := BitVec.ofNat 64 (castId s cid)
    let s := (k.nodes.map fun n => n.2.shares).flatten.foldl (fun s x => rollShare s c x.2) s
    let s := (openCurdsOf s cid v).foldl (fun s i => returnCurd s c i) s
    let s := dropSnapshots s cid
    let s := s.updCluster c fun x => { x with spill := x.spill.filter fun e => e.node.cast ≠ cid }
    let s := { s with waiting := s.waiting.filter fun w => w.cast ≠ some cid }
    let s := updCast s cid (restartLive s.cycle v)
    sendFault s k.loader srcNode ⟨cRestart, 0, some (BitVec.ofNat 64 v), 0⟩ who (some cid)

/-- Kill a casting that is forced: its loading thread receives the casting fault *forced*. -/
def killForced (s : State) (cid : Nat) : State :=
  match (castSlot s cid).live with
  | none => s
  | some k =>
    let who := BitVec.ofNat 64 (castId s cid)
    checkComplete (sendFault (killCasting s cid) k.loader srcNode ⟨cCast, 10, none, 0⟩ who none) k.launch

/-- The castings's blocks make it one that is never forced: some block draining, none non-idempotent (17/R398). -/
def isDraining (blocks : List Block) : Bool := blocks.any (fun b => b.imode = 2) && !blocks.any fun b => b.imode = 1

/-- Some `a.row` or `acc.rd` node of a casting names an island (11/R283, R284). -/
def feedsIsland (k : CastLive) (i : Nat) : Bool :=
  k.blocks.any fun b => b.code.any fun w =>
    (bits w.toNat 63 56 = 0xC0 || bits w.toNat 63 56 = 0xC1) && (FWord.ofBits w).imm.toNat % 8 = i

/-- No placed draining casting that feeds an island stands between its boundary points: only then is the island pre-empted
(17/R398). -/
def islandPreemptable (s : State) (c i : Nat) : Bool :=
  (liveCasts (s.cluster c)).all fun e =>
    !(isDraining e.2.blocks && feedsIsland e.2 i && isPlaced e.2) || atBoundary e.2

/-- Force a casting by the most restrictive IMODE among its blocks (17/R398). -/
def forceCasting (s : State) (cid : Nat) : State :=
  match (castSlot s cid).live with
  | none => s
  | some k =>
    if k.retired then s
    else if k.blocks.all fun b => b.imode = 0 then restartCasting s cid
    else killForced s cid

end Sys2Proof.Machine
end

