-- ==== Sys2Proof/Machine/Castings.lean ====
section
/-! DEFINITION. Casting and port instructions (09/R222-R230), and the fabric allocator (16/R380, 17/R397-R400). -/

namespace Sys2Proof.Machine

/-! ## Fabric pages (16/R380) -/

/-- Fabric pages of a cluster. -/
def pagesPerCluster : Nat := 192

/-- The pages that placed castings of a cluster take. -/
def takenPages (x : Cluster) : List Nat :=
  ((liveCasts x).map fun e => match e.2.place with
    | .placed ps => ps
    | .parked _ => []).flatten

/-- A page is reserved for class 0: counted from core 47 downward (16 Table 16.3). (DEDUCED, log 56.) -/
def pageReserved (s : State) (p : Nat) : Bool := pagesPerCluster - resPages s ≤ p

/-- A class-0 launch has a thread on the cluster, from its start until it completes. -/
def class0Here (s : State) (c : Nat) : Bool := s.launches.any fun x => x.record.cls = 0 && x.clusters.contains c

/-- Distance of two cores in the 6 × 8 array (01/R14). -/
def coreDistance (a b : Nat) : Nat :=
  (Nat.max (a / 8) (b / 8) - Nat.min (a / 8) (b / 8)) + (Nat.max (a % 8) (b % 8) - Nat.min (a % 8) (b % 8))

/-- Cores in the order of 16/R380, from a core on: by distance, then by number. -/
def coreOrder (core : Nat) : List Nat :=
  ((List.range 13).map fun d => (List.range 48).filter fun x => coreDistance core x = d).flatten

/-- Pages in that order. -/
def pageOrder (core : Nat) : List Nat :=
  ((coreOrder core).map fun x => (List.range 4).map fun j => 4 * x + j).flatten

/-- A casting of a class, one that drains or not, may be given a page (16/R380, 17/R398). -/
def pageAllowed (s : State) (c : Nat) (cls : BitVec 2) (drain : Bool) (p : Nat) : Bool :=
  cls = 0 || !pageReserved s p || !(class0Here s c || drain)

/-- The free pages that a casting may be given, in the order in which they are taken. -/
def freePages (s : State) (c core : Nat) (cls : BitVec 2) (blocks : List Block) : List Nat :=
  let taken := takenPages (s.cluster c)
  let l := (pageOrder core).filter fun p => !taken.contains p && pageAllowed s c cls (isDraining blocks) p
  if cls = 0 then l else (l.filter fun p => !pageReserved s p) ++ l.filter (pageReserved s)

/-- The pages that a placement takes; none when fewer are free than it needs. -/
def choosePages (s : State) (c core : Nat) (cls : BitVec 2) (blocks : List Block) : Option (List Nat) :=
  let n := pageCount blocks
  let l := freePages s c core cls blocks
  if l.length < n then none else some (l.take n)

/-- 100 µs in cycles of 800 MHz. -/
def us100 : Nat := 80000
/-- 6 µs. -/
def us6 : Nat := 4800

/-- Demands that stand in a cluster: their thread's latest `cast.load` is less than 100 µs old. -/
def demandsOf (s : State) (c : Nat) : List Demand := (s.cluster c).demands.filter fun d => s.cycle - d.last < us100

/-- Change the demands of a cluster. -/
def updDemands (s : State) (c : Nat) (f : List Demand → List Demand) : State :=
  s.updCluster c fun x => { x with demands := f x.demands }

/-- A thread issues a `cast.load` that leaves its demand, if one stands, as it was. -/
def renewDemand (s : State) (c : Nat) (r : ThreadRef) : State :=
  updDemands s c fun l => l.map fun d => if d.owner = r then { d with last := s.cycle } else d

/-- A thread's refused `cast.load` leaves a demand standing: since its first refusal, if one stood. -/
def recordDemand (s : State) (key : Nat) (t : Thread) (blocks : List Block) : State :=
  let c := keyCluster key
  let since := match (demandsOf s c).find? fun d => d.owner = t.ref with
    | some d => d.since
    | none => s.cycle
  updDemands s c fun l =>
    (l.filter fun d => d.owner ≠ t.ref) ++ [⟨t.ref, key, pageCount blocks, t.cls, isDraining blocks, s.cycle, since⟩]

/-- A thread's `cast.load` has succeeded: its demand stands no longer. -/
def meetDemand (s : State) (c : Nat) (r : ThreadRef) : State := updDemands s c fun l => l.filter fun d => d.owner ≠ r

/-! ## `cast.load` (09/R224) -/

/-- The image behind a handle (09/R224): checked, read and tested. -/
def readImage (s : State) (key : Nat) (t : Thread) (h : Handle) (off : Int) : Except Exc (Image × State) :=
  match checkHandle h off 16 rRX t.asid with
  | .error e => .error (.trap e none)
  | .ok va =>
    if va % 8 ≠ 0 then trapWith cLoad 0
    else
      match readIssue s (threadAgent key t) va 16 with
      | .error e => .error e
      | .ok (hdr, s) =>
        let len := imageLen (leNat hdr)
        match checkHandle h off len rRX t.asid with
        | .error e => .error (.trap e none)
        | .ok va =>
          match readIssue s (threadAgent key t) va len with
          | .error e => .error e
          | .ok (b, s) =>
            match parseImage b with
            | none => trapWith cLoad 1
            | some m => if imageOk m then .ok (m, s) else trapWith cLoad 1

/-- The lowest free casting index of a cluster (09/R222). (DEDUCED, log 56.) -/
def freeCast (s : State) (c : Nat) : Option Nat :=
  firstFrom (fun i => (castSlot s (256 * c + i)).live.isNone) 0 192

/-- The rounding seed of a launch (16 Table 16.1). -/
def seedFor (s : State) (l : LaunchRef) : W32 :=
  match launchOf s l with
  | some x => x.record.seed
  | none => 0

/-- A casting newly placed (09/R224). -/
def freshCast (s : State) (key : Nat) (t : Thread) (m : Image) (pages : List Nat) : CastLive :=
  { asid := t.asid, cls := t.cls, launch := t.ref.l, loader := t.ref, core := keyCore key, part := t.part.toNat
    blocks := m.blocks, arcs := m.arcs, ns := m.ns
    ins := (List.range (inPorts m.blocks m.arcs).length).map fun i => (i, {})
    outs := (List.range (outPorts m.blocks m.arcs).length).map fun i => (i, {})
    nodes := freshNodes (seedFor s t.ref.l) m.blocks
    depth := curdDepth m.blocks, place := .placed pages, since := s.cycle }

/-- The rest of `cast.load`, the image accepted. -/
def placeImage (s : State) (key : Nat) (t : Thread) (d : Reg) (p : BitVec 3) (m : Image) : Except Exc State :=
  let c := keyCluster key
  let part := t.part.toNat
  let dep := curdDepth m.blocks
  let x := s.cluster c
  let refused := (renewDemand s c t.ref).setThread key (writeP t p false)
  if !partFor s c part t.asid ∨ ptMin (partDesc s c part) < dep then trapWith cLoad 2
  else if ptMin (partDesc s c part) < partDepth x part + dep ∨ 4096 < heldBack x + dep then .ok refused
  else
    match choosePages s c (keyCore key) t.cls m.blocks with
    | none => .ok ((recordDemand s key t m.blocks).setThread key (writeP t p false))
    | some pages =>
      match freeCast s c with
      | none => .ok refused
      | some i =>
        let cid := 256 * c + i
        let s := updCastSlot (meetDemand s c t.ref) cid fun y => { y with live := some (freshCast s key t m pages) }
        let id := BitVec.ofNat 64 (castId s cid)
        .ok (s.setThread key (writeP (writeR t d id) p true))

/-- `cast.load` (09/R224). -/
def execCastLoad (d : Reg) (a : Src) (h : BitVec 4) (p : BitVec 3) (s : State) : Answer :=
  issue s [d, a.reg] fun key t => do
    let x ← readSrc t a
    let _ ← destReady t d
    let (m, s) ← readImage s key t (readH t h) x.toInt
    placeImage s key t d p m

/-! ## Casting ids (09/R223) -/

/-- The tests that every instruction naming an id applies: the casting, or none when the id is not live. -/
def namedCast (s : State) (key : Nat) (t : Thread) (x : Word) : Except Exc (Option (Nat × CastLive)) :=
  let id := x.toNat
  if bits id 63 32 ≠ 0 then trapWith cCast 0
  else if bits id 31 27 ≠ keyCluster key then trapWith cCast 1
  else
    let cid := 256 * keyCluster key + bits id 26 19
    let slot := castSlot s cid
    match slot.live with
    | none => .ok none
    | some k =>
      if slot.gen ≠ bits id 18 0 then .ok none
      else if k.asid ≠ t.asid then trapWith cCast 2
      else .ok (some (cid, k))

/-- Set a predicate of the acting thread. -/
def setPredOf (s : State) (key : Nat) (p : BitVec 3) (v : Bool) : State := s.updThread key fun t => writeP t p v

/-- Act on a named casting; pP is false when its id is not live. -/
def onCast (s : State) (key : Nat) (t : Thread) (x : Word) (p : BitVec 3)
    (body : Nat → CastLive → Except Exc State) : Except Exc State :=
  match namedCast s key t x with
  | .error e => .error e
  | .ok none => .ok (setPredOf s key p false)
  | .ok (some (cid, k)) => body cid k

/-- `cast.bind` (09/R225). -/
def execCastBind (d : Reg) (h : BitVec 4) (p : BitVec 3) (n : BitVec 5) (s : State) : Answer :=
  issue s [d] fun key t => do
    let x ← readField t d
    onCast s key t x p fun cid k =>
      let hk := readH t h
      if k.ns ≤ n.toNat then trapWith cCast 5
      else if !hk.v then trapWith cHandle 0 (some (vaOf hk 0))
      else if hk.asid ≠ t.asid then trapWith cHandle 1 (some (vaOf hk 0))
      else if hk.rights &&& rX ≠ rX then trapWith cHandle 2 (some (vaOf hk 0))
      else .ok (setPredOf (updCast s cid fun k => { k with binds := tabPut k.binds n.toNat hk }) key p true)

/-- `cast.kill` (09/R230). -/
def execCastKill (d : Reg) (p : BitVec 3) (s : State) : Answer :=
  issue s [d] fun key t => do
    let x ← readField t d
    onCast s key t x p fun cid k => .ok (setPredOf (checkComplete (killCasting s cid) k.launch) key p true)

/-- The id of a retired casting stops being live (09/R229). -/
def dropCast (s : State) (cid : Nat) (l : LaunchRef) : State :=
  let s := updCastSlot s cid fun x => { gen := if x.gen = 2 ^ 19 - 1 then 1 else x.gen + 1, live := none }
  checkComplete (underread s l) l

/-- `cast.end` (09/R229). -/
def execCastEnd (d : Reg) (p : BitVec 3) (s : State) : Answer :=
  issue s [d] fun key t => do
    let x ← readField t d
    onCast s key t x p fun cid _ =>
      let s := tryRetire (updCast s cid fun k => { k with ending := true }) cid
      match (castSlot s cid).live with
      | none => .ok s
      | some k =>
        if k.retired then
          let s := s.updThread key fun t => writeR t d ((castFlags k).zeroExtend 64)
          .ok (setPredOf (dropCast s cid k.launch) key p true)
        else .ok (setPredOf s key p false)

/-! ## Ports (09/R226-R228) -/

/-- Append a stamped billet to an input port (09/R210): the invocation that it begins takes the bindings in force
(09/R225). -/
def pushPort (k : CastLive) (i : Nat) (b : Billet) : CastLive :=
  let q := tabGet k.ins i {}
  let q' : PortIn := if isMarker b then { q := q.q ++ [setSeq b (q.inv % 65536)], seq := 0, inv := q.inv + 1 }
    else { q with q := q.q ++ [setSeq b q.seq.toNat], seq := q.seq + 1 }
  { noteAdd (insQ i) k with
    ins := tabPut k.ins i q'
    bindAt := if (tabFind k.bindAt q.inv).isSome then k.bindAt else tabPut k.bindAt q.inv k.binds }

/-- An input port takes no more: it is full, or the casting is closed (09/R229). -/
def portRefuses (k : CastLive) (i : Nat) : Bool :=
  k.ending || k.retired || !slotLeft k (insQ i) (tabGet k.ins i {}).q.length 16

/-- The billet in five registers (02 Table 2.13). -/
def billetOf (ws : List Word) : Billet :=
  ⟨BitVec.ofNat 256 ((List.range 4).foldl (fun n j => n + (ws.getD j 0).toNat * 2 ^ (64 * j)) 0),
    (ws.getD 4 0).truncate 32⟩

/-- `bpush` (09/R226). -/
def execBpush (d : Reg) (a : Src) (port : BitVec 6) (p : BitVec 3) (s : State) : Answer :=
  issue s [d, a.reg, regAdd a.reg 1, regAdd a.reg 2, regAdd a.reg 3, regAdd a.reg 4] fun key t => do
    let ws ← readGroup t a.reg a.wait 5
    let x ← readField t d
    onCast s key t x p fun cid k =>
      let b := billetOf ws
      if k.ins.length ≤ port.toNat then trapWith cCast 3
      else if bits (ws.getD 4 0).toNat 63 32 ≠ 0 ∨ bits b.tag.toNat 7 0 ≠ 0 ∨ (tagKind b.tag ≠ 0 ∧ tagKind b.tag ≠ 2) then
        trapWith cCast 4
      else if portRefuses k port.toNat then .ok (setPredOf s key p false)
      else .ok (setPredOf (updCast s cid fun k => pushPort k port.toNat b) key p true)

/-- `bmark` (09/R227). -/
def execBmark (d : Reg) (port : BitVec 6) (p : BitVec 3) (s : State) : Answer :=
  issue s [d] fun key t => do
    let x ← readField t d
    onCast s key t x p fun cid k =>
      if k.ins.length ≤ port.toNat then trapWith cCast 3
      else if portRefuses k port.toNat then .ok (setPredOf s key p false)
      else .ok (setPredOf (updCast s cid fun k => pushPort k port.toNat ⟨0, mkTag 0 0 1⟩) key p true)

/-- What an output port offers: its head, but a marker only once it has retired at every instruction (14/R339). -/
def offered (k : CastLive) (i : Nat) : Option Billet :=
  let o := tabGet k.outs i {}
  match seenOf k (outsQ i) o.q with
  | [] => none
  | b :: _ =>
    if isMarker b ∧ !(nodeKeys k).all (fun key => o.pulled < (nodeOf k key).inv) then none else some b

/-- The five words of a billet. -/
def wordsOf (b : Billet) : List Word :=
  (List.range 4).map (fun j => BitVec.ofNat 64 (b.data.toNat / 2 ^ (64 * j))) ++ [b.tag.zeroExtend 64]

/-- Take the head of an output port. -/
def pullPort (k : CastLive) (i : Nat) (marker : Bool) : CastLive :=
  { noteTake (outsQ i) k with outs := tabUpd k.outs i {} fun o =>
    { q := o.q.drop 1, pulled := if marker then o.pulled + 1 else o.pulled } }

/-- `bpull` (09/R228). -/
def execBpull (d : Reg) (a : Src) (port : BitVec 6) (p : BitVec 3) (s : State) : Answer :=
  let ds := (List.range 5).map (regAdd d)
  issue s (a.reg :: ds) fun key t => do
    let x ← readSrc t a
    let _ ← mapE (destReady t) ds
    onCast s key t x p fun cid k =>
      if k.outs.length ≤ port.toNat then trapWith cCast 3
      else
        match offered k port.toNat with
        | none => .ok (setPredOf s key p false)
        | some b =>
          match producerSlot t with
          | .error e => .error e
          | .ok _ =>
            let s := tryRetire (updCast s cid fun k => pullPort k port.toNat (isMarker b)) cid
            .ok (setPredOf (s.updThread key fun t => produce t ds (wordsOf b) none none 0 d) key p true)

/-! ## The allocator's events -/

/-- A live casting that has not retired. -/
def movable (s : State) (cid : Nat) : Option CastLive :=
  match (castSlot s cid).live with
  | some k => if k.retired then none else some k
  | none => none

/-- CASTING_CONFIGURATION_LOADED (09/R224). -/
def execCastingConfigurationLoaded (cid : Nat) (s : State) : Answer :=
  .next (match movable s cid with
    | some k =>
      (match k.place with
       | .placed _ => updCast s cid fun k => { k with loaded := true }
       | .parked _ => s)
    | none => s)

/-- The longest run of consecutive numbers below n outside a list. -/
def longestRun (taken : List Nat) (n : Nat) : Nat :=
  ((List.range n).foldl (fun (x : Nat × Nat) p =>
    if taken.contains p then (0, x.2) else (x.1 + 1, Nat.max x.2 (x.1 + 1))) (0, 0)).2

/-- A move to other pages may be made (16/R380): at a boundary point, onto free pages that the casting may be given, so
that a standing demand fits in one contiguous run, and at most once in 100 µs. -/
def mayMove (s : State) (cid : Nat) (k : CastLive) (own pages : List Nat) : Bool :=
  let c := cid / 256
  let others := (takenPages (s.cluster c)).filter fun p => !own.contains p
  let run := longestRun (others ++ pages) pagesPerCluster
  atBoundary k && pages.length = own.length && pages.eraseDups.length = pages.length &&
  pages.all (fun p => p < pagesPerCluster && !others.contains p && pageAllowed s c k.cls (isDraining k.blocks) p) &&
  (demandsOf s c).any (fun d => d.pages ≤ run) &&
  (match k.moved with
   | some m => us100 ≤ s.cycle - m
   | none => true)

/-- CASTING_MOVE (16/R380): nothing that a program reads changes. -/
def execCastingMove (cid : Nat) (pages : List Nat) (s : State) : Answer :=
  .next (match movable s cid with
    | some k =>
      (match k.place with
       | .placed own =>
         if mayMove s cid k own pages then
           updCast s cid fun k => { k with place := .placed pages, moved := some s.cycle }
         else s
       | .parked _ => s)
    | none => s)

/-- The cycles since which class 0 has wanted reserved pages of a cluster (16/R381): demands of class-0 threads, class-0
launches started there, class-0 records admitted. -/
def class0Wants (s : State) (c : Nat) : List Nat :=
  ((demandsOf s c).filter fun d => d.cls = 0).map (·.since) ++
  (s.launches.filter fun x => x.record.cls = 0 ∧ x.clusters.contains c).map (·.started) ++
  s.lqs.filterMap fun e =>
    match e.2.record with
    | some r => if r.cls = 0 then some e.2.admitted else none
    | none => none

/-- A placed casting of classes 1-3 stands on reserved pages that class 0 wants (16/R381). -/
def inTheWay (s : State) (cid : Nat) (k : CastLive) (own : List Nat) : Bool :=
  k.cls ≠ 0 && own.any (pageReserved s) && !(class0Wants s (cid / 256)).isEmpty

/-- The pages of a casting would meet a demand: with them, and the free ones, as many as it asks for may be given to it. -/
def wouldMeet (s : State) (c : Nat) (own : List Nat) (d : Demand) : Bool :=
  let taken := (takenPages (s.cluster c)).filter fun p => !own.contains p
  decide (d.pages ≤ ((List.range pagesPerCluster).filter fun p =>
    !taken.contains p && pageAllowed s c d.cls d.drain p).length)

/-- A casting is to be parked at its next boundary point (16/R380, R381): a demand of a more urgent class stands; or one
of its own class that its pages would meet, after 100 µs; or class 0 wants its reserved pages. -/
def toPark (s : State) (cid : Nat) (k : CastLive) (own : List Nat) : Bool :=
  let c := cid / 256
  (demandsOf s c).any (fun d => decide (d.cls.toNat < k.cls.toNat) ||
    (d.cls = k.cls && us100 ≤ s.cycle - k.since && wouldMeet s c own d)) || inTheWay s cid k own

/-- CASTING_SLICE (16/R380, 17/R397): the casting is parked at a boundary point, its state kept. -/
def execCastingSlice (cid : Nat) (s : State) : Answer :=
  .next (match movable s cid with
    | some k =>
      (match k.place with
       | .placed own =>
         if atBoundary k ∧ toPark s cid k own then
           updCast s cid fun k => { k with place := .parked s.cycle, loaded := false }
         else s
       | .parked _ => s)
    | none => s)

/-- Parked castings of a cluster with their class and the cycle since which they have been parked. -/
def parkedCasts (x : Cluster) : List (BitVec 2 × Nat) :=
  (liveCasts x).filterMap fun e => match e.2.place with
    | .parked since => some (e.2.cls, since)
    | .placed _ => none

/-- No parked casting stands before one of a class, parked since a cycle. -/
def firstParked (s : State) (c : Nat) (cls : BitVec 2) (since : Nat) : Bool :=
  (parkedCasts (s.cluster c)).all fun e => !(e.1.toNat < cls.toNat || (e.1 = cls && e.2 < since))

/-- The restart token of an invocation for a block (17/R400). -/
def restartToken (b : Block) (v : Nat) : Billet := ⟨BitVec.ofNat 256 (v % 2 ^ 32), mkTag b.pinit.toNat 0 2⟩

/-- Each block with a restart slot receives its token in the slot's input a (17/R400). -/
def giveTokens (k : CastLive) : CastLive :=
  match k.token with
  | none => k
  | some v =>
    k.blocks.zipIdx.foldl (fun k b =>
      if b.1.rlbl = 0x7F then k
      else { k with nodes := tabUpd k.nodes (128 * b.2 + b.1.rlbl) {} fun x =>
        { x with qa := restartToken b.1 v :: x.qa } }) { k with token := none }

/-- CASTING_RETURN (16/R380, 17/R397, R400): a parked casting is placed again, in class order, then in order of
parking. -/
def execCastingReturn (cid : Nat) (s : State) : Answer :=
  .next (match movable s cid with
    | some k =>
      (match k.place with
       | .placed _ => s
       | .parked since =>
         if firstParked s (cid / 256) k.cls since then
           (match choosePages s (cid / 256) k.core k.cls k.blocks with
            | none => s
            | some pages =>
              updCast s cid fun k => giveTokens { k with place := .placed pages, since := s.cycle })
         else s)
    | none => s)

/-- DEMAND_EXPIRY (16/R380): a thread of a core, running, saved or finished, has issued no `cast.load` for 100 µs. -/
def execDemandExpiry (key : Nat) (s : State) : Answer :=
  .next (updDemands s (keyCluster key) fun l => l.filter fun d => !(d.key = key && us100 ≤ s.cycle - d.last))

/-- FORCED_PREEMPTION (16/R381, 17/R398): a casting in the way of class 0 that has reached no boundary point within 6 µs
is forced; one of class 0, and one that drains, never is. -/
def execForcedPreemption (cid : Nat) (s : State) : Answer :=
  .next (match movable s cid with
    | some k =>
      (match k.place with
       | .placed own =>
         if inTheWay s cid k own ∧ !isDraining k.blocks ∧ !atBoundary k ∧
             (class0Wants s (cid / 256)).any (fun since => us6 ≤ s.cycle - since) then forceCasting s cid
         else s
       | .parked _ => s)
    | none => s)

end Sys2Proof.Machine
end

