-- ==== Sys2Proof/Machine/Channels.lean ====
section
/-! DEFINITION. Channels (15/R352-R357), message queues (15/R358-R360) and barriers (15/R361-R363). -/

namespace Sys2Proof.Machine

/-! ## Channels -/

/-- Change a channel. -/
def updChannel (t : Thread) (c : Nat) (f : Channel → Channel) : Thread :=
  { t with chans := tabPut t.chans c (f (channel t c)) }

/-- `chan.bind` (15/R353). -/
def execChanBind (d : Reg) (a : Src) (p : BitVec 3) (s : State) : Answer :=
  issueOwn s [d, a.reg] fun t => do
    let x ← readSrc t a
    let w ← readField t d
    let c := bits w.toNat 3 0
    let en := bit w.toNat 7
    let pv := bit w.toNat 8
    if bits w.toNat 63 9 ≠ 0 ∨ x.toNat % 4 ≠ 0 then trapWith cChannel 0
    else if pv ∧ !t.priv then trapWith cPriv 0
    else if !en ∧ !(channel t c).box.isEmpty then pure (writeP t p false)
    else
      let pri := BitVec.ofNat 3 (bits w.toNat 6 4)
      pure (writeP (updChannel t c fun ch => { ch with pri := pri, en := en, priv := pv, entry := x }) p true)

/-- A channel has room for a message of an ASID (15/R353). -/
def canRaise (t : Thread) (asid : BitVec 14) (c : Nat) : Bool :=
  t.asid = asid && (channel t c).en && (channel t c).box.length < 4

/-- `chan.raise` (15/R353). -/
def execChanRaise (d : Reg) (a : Src) (p : BitVec 3) (s : State) : Answer :=
  issue s [d, a.reg] fun key t => do
    let x ← readSrc t a
    let w ← readField t d
    let c := bits w.toNat 3 0
    let core := bits w.toNat 9 4
    if bits w.toNat 63 10 ≠ 0 ∨ (48 ≤ core ∧ core ≤ 62) then trapWith cChannel 0
    else
      let target := if core = 63 then key else 64 * keyCluster key + core
      match s.threadAt target with
      | none => pure (s.setThread key (writeP t p false))
      | some u =>
        if canRaise u t.asid c then
          pure ((s.setThread key (writeP t p true)).updThread target fun u =>
            updChannel u c fun ch => { ch with box := ch.box ++ [x] })
        else pure (s.setThread key (writeP t p false))

/-! ## Message queues -/

/-- The local device-memory address behind a queue's virtual address (15/R360). -/
def queuePa (s : State) (key : Nat) (t : Thread) (va : Nat) : Except Exc (Nat × State) :=
  match place s (threadAgent key t) va .atomic with
  | .error e => .error e
  | .ok (.dev pa, s) => .ok (pa, s)
  | .ok _ => trapWith cQueue 0 (some (BitVec.ofNat 64 va))

/-- Read device memory as one step of an instruction (08/R453). -/
def queueRead (s : State) (ag : Agent) (pa n va : Nat) : Except Exc (Nat × State) :=
  if badLine s pa then trapWith cData 0 (some (BitVec.ofNat 64 va))
  else .ok (leNat (agentBytes s ag pa n), touch s pa n)

/-- A queue header is well formed (15/R359). -/
def queueWf (h : Nat) : Bool :=
  bit h 68 && bits h 511 69 = 0 && bits h 67 64 ≤ 12 && sub32 (bits h 31 0) (bits h 63 32) ≤ 2 ^ bits h 67 64

/-- The tests of 15/R360: the header's addresses and its contents; and the state after its read. -/
def queueOpen (s : State) (key : Nat) (t : Thread) (a : Src) (h : BitVec 4) : Except Exc (Nat × Nat × Nat × State) := do
  let x ← readSrc t a
  let va ← liftE (checkHandle (readH t h) x.toInt 64 rRWA t.asid)
  if va % 64 ≠ 0 then trapWith cQueue 0 (some (BitVec.ofNat 64 va))
  else
    let (pa, s) ← queuePa s key t va
    let (hd, s) ← queueRead s (threadAgent key t) pa 64 va
    if !queueWf hd then trapWith cQueue 0 (some (BitVec.ofNat 64 va))
    else
      let _ ← liftE (checkHandle (readH t h) x.toInt (64 + 8 * 2 ^ bits hd 67 64) rRWA t.asid)
      pure (va, pa, hd, s)

/-- Store to device memory as one step of an instruction. -/
def queueWrite (s : State) (ag : Agent) (pa n v va : Nat) : Except Exc State :=
  liftE (devWrite s ag pa (allBytes (natLe n v)) false (BitVec.ofNat 64 va))

/-- `qput` (15/R360). -/
def execQput (d : Reg) (a : Src) (h : BitVec 4) (p : BitVec 3) (s : State) : Answer :=
  issue s [d, a.reg] fun key t => do
    let v ← readField t d
    let (va, pa, hd, s) ← queueOpen s key t a h
    let n := 2 ^ bits hd 67 64
    let put := bits hd 31 0
    if sub32 put (bits hd 63 32) = n then pure (s.setThread key (writeP t p false))
    else
      let sva := va + 64 + 8 * (put % n)
      let (spa, s) ← queuePa s key t sva
      let s1 ← queueWrite s (threadAgent key t) spa 8 v.toNat sva
      let s2 ← queueWrite s1 (threadAgent key t) pa 4 (put + 1) va
      pure (s2.setThread key (writeP t p true))

/-- `qget` (15/R360). -/
def execQget (d : Reg) (a : Src) (h : BitVec 4) (p : BitVec 3) (s : State) : Answer :=
  issue s [d, a.reg] fun key t => do
    let (va, pa, hd, s) ← queueOpen s key t a h
    let n := 2 ^ bits hd 67 64
    let get := bits hd 63 32
    let _ ← destReady t d
    if bits hd 31 0 = get then pure (s.setThread key (writeP t p false))
    else
      let sva := va + 64 + 8 * (get % n)
      let (spa, s) ← queuePa s key t sva
      let (v, s) ← queueRead s (threadAgent key t) spa 8 sva
      let s1 ← queueWrite s (threadAgent key t) (pa + 4) 4 (get + 1) va
      pure (s1.setThread key (writeP (writeR t d (BitVec.ofNat 64 v)) p true))

/-! ## Barriers -/

/-- A barrier of a cluster. -/
def State.barrier (s : State) (c b : Nat) : Barrier := tabGet (s.cluster c).bars b {}

/-- Arrivals at a barrier (15/R362): the new barrier and whether the phase completes; none on a mismatch.
(DEDUCED, log 44.) -/
def arriveAt (b : Barrier) (nb : Nat) (asid : BitVec 14) : Except Exn (Barrier × Bool) :=
  if 0 < b.arr ∧ nb ≠ b.nb then exn cBarrier 1
  else if 0 < b.arr ∧ asid ≠ b.asid then exn cBarrier 2
  else if b.arr + 1 = nb then .ok (⟨b.phase + 1, 0, nb, asid⟩, true)
  else .ok (⟨b.phase, b.arr + 1, nb, asid⟩, false)

/-- `bar.arrive` (15/R362). -/
def execBarArrive (d : Reg) (a : Src) (p : BitVec 3) (s : State) : Answer :=
  issue s [d, a.reg] fun key t => do
    let x ← readSrc t a
    let w := x.toNat
    let c := keyCluster key
    if bits w 15 8 ≠ 0 ∨ bits w 63 32 ≠ 0 ∨ bits w 31 16 = 0 then trapWith cBarrier 0
    else
      let b := s.barrier c (bits w 7 0)
      let r ← liftE (arriveAt b (bits w 31 16) t.asid)
      let t' ← writeDest t d (b.phase.setWidth 64)
      pure ((s.updCluster c fun y => { y with bars := tabPut y.bars (bits w 7 0) r.1 }).setThread key
        (writeP t' p r.2))

/-- A barrier test (15/R362): d := PHASE, pP := the test of PHASE and t. -/
def opBarTest (s : State) (d : Reg) (a : Src) (p : BitVec 3) (f : W32 → Nat → Bool) : Answer :=
  issueOwn s [d, a.reg] fun t => do
    let x ← readSrc t a
    if bits x.toNat 31 8 ≠ 0 then trapWith cBarrier 0
    else
      let b := s.barrier (keyCluster s.core) (bits x.toNat 7 0)
      let t' ← writeDest t d (b.phase.setWidth 64)
      pure (writeP t' p (f b.phase (bits x.toNat 63 32)))

/-- `bar.wait` (15/R362). -/
def execBarWait (d : Reg) (a : Src) (p : BitVec 3) (s : State) : Answer :=
  opBarTest s d a p fun ph t => decide (1 ≤ sub32 ph.toNat t ∧ sub32 ph.toNat t ≤ 2 ^ 31)

/-- `bar.test` (15/R362). -/
def execBarTest (d : Reg) (a : Src) (p : BitVec 3) (s : State) : Answer :=
  opBarTest s d a p fun ph t => decide (ph.toNat % 2 ≠ t % 2)

end Sys2Proof.Machine
end

