-- ==== Sys2Proof/Machine/Compare.lean ====
section
/-! DEFINITION. Compare and predicate instructions (08/R199). -/

namespace Sys2Proof.Machine

/-- pD := r a b; no other effect (08/R199). -/
def opCmp (s : State) (d : BitVec 3) (a b : Src) (r : Word → Word → Bool) : Answer :=
  issueOwn s [a.reg, b.reg] fun t => do
    let x ← readSrc t a
    let y ← readSrc t b
    pure (writeP t d (r x y))

/-- pD := f of the predicates. -/
def opPred (s : State) (d : BitVec 3) (f : Thread → Bool) : Answer :=
  issueOwn s [] fun t => .ok (writeP t d (f t))

/-- `cmp.eq` (08/R199): pD := a = b. -/
def execCmpEq (d : BitVec 3) (a b : Src) (s : State) : Answer := opCmp s d a b (fun x y => x == y)

/-- `cmp.ne` (08/R199): pD := a ≠ b. -/
def execCmpNe (d : BitVec 3) (a b : Src) (s : State) : Answer := opCmp s d a b (fun x y => x != y)

/-- `cmp.lt` (08/R199): pD := s(a) < s(b). -/
def execCmpLt (d : BitVec 3) (a b : Src) (s : State) : Answer := opCmp s d a b (fun x y => x.slt y)

/-- `cmp.ltu` (08/R199): pD := u(a) < u(b). -/
def execCmpLtu (d : BitVec 3) (a b : Src) (s : State) : Answer := opCmp s d a b (fun x y => x.ult y)

/-- `cmp.le` (08/R199): pD := s(a) ≤ s(b). -/
def execCmpLe (d : BitVec 3) (a b : Src) (s : State) : Answer := opCmp s d a b (fun x y => x.sle y)

/-- `cmp.leu` (08/R199): pD := u(a) ≤ u(b). -/
def execCmpLeu (d : BitVec 3) (a b : Src) (s : State) : Answer := opCmp s d a b (fun x y => x.ule y)

/-- `pand` (08/R199): pD := pA and pB. -/
def execPand (d a b : BitVec 3) (s : State) : Answer := opPred s d fun t => readP t a && readP t b

/-- `por` (08/R199): pD := pA or pB. -/
def execPor (d a b : BitVec 3) (s : State) : Answer := opPred s d fun t => readP t a || readP t b

/-- `pxor` (08/R199): pD := pA xor pB. -/
def execPxor (d a b : BitVec 3) (s : State) : Answer := opPred s d fun t => readP t a != readP t b

/-- `pnot` (08/R199): pD := not pA. -/
def execPnot (d a : BitVec 3) (s : State) : Answer := opPred s d fun t => !readP t a

/-- `psel` (08/R199): d := a when pK is true, else b; both are read. -/
def execPsel (d : Reg) (a b : Src) (k : BitVec 3) (s : State) : Answer :=
  issueOwn s [d, a.reg, b.reg] fun t => do
    let x ← readSrc t a
    let y ← readSrc t b
    writeDest t d (if readP t k then x else y)

end Sys2Proof.Machine
end

