-- ==== Sys2Proof/Machine/Fetch.lean ====
section
/-! DEFINITION. What acts next: fetching (15/R343), selecting an instruction, the time that passes (17/R402), and the
state in which a given word is the next instruction. -/

namespace Sys2Proof.Machine

/-! ## Fetching -/

/-- Fetch four bytes at an offset within the code handle (15/R343), an access to their line as any other (05/R102). -/
def fetchWord (s : State) (key : Nat) (t : Thread) (off : Word) : Except Exc (List Byte × State) :=
  match checkHandle t.code off.toInt 4 rX t.asid with
  | .error e => .error (.trap e none)
  | .ok va => readIssue s (threadAgent key t) va 4

/-- The seven operations of `kv.add` share one word; OP in bits 3:0 of the operation word, register d, names the row
(13/R318, DEDUCED, log 15). -/
def kvAddRow (t : Thread) (d : Reg) (a : Src) (h : BitVec 4) (p : BitVec 3) : Instr :=
  match readField t d with
  | .error _ => .kvAddPool d a h p
  | .ok v =>
    match bits v.toNat 3 0 with
    | 1 => .kvAddOpen d a h p
    | 2 => .kvAddAppend d a h p
    | 3 => .kvAddAttach d a h p
    | 4 => .kvAddPublish d a h p
    | 5 => .kvAddClose d a h p
    | 6 => .kvAddDemote d a h p
    | _ => .kvAddPool d a h p

/-- The row that a decoded instruction selects. -/
def selectRow (t : Thread) (i : Instr) : Instr :=
  match i with
  | .kvAddPool d a h p => kvAddRow t d a h p
  | _ => i

/-- The next instruction of a thread, and the state after its fetch: its word, with the second word of an L form, decoded; a
word that is no instruction is the illegal instruction (02/R31). Both words are fetched before the first is judged, so a
second word that faults gives that fault although the first is no instruction, or is an L form with a nonzero reserved
field or in a frame that is not entered; and a reserved field is judged before the privilege of `cpart` or `fmt.win`
(DESIGN CHOICE, log 72). -/
def fetchInstr (s : State) (key : Nat) (t : Thread) : Except Exc (Instr × State) :=
  match fetchWord s key t t.pc with
  | .error e => .error e
  | .ok (b, s) =>
    let more : Except Exc (List Byte × State) :=
      if isLong (wordOfBytes b) then fetchWord s key t (t.pc + 4) else .ok ([], s)
    match more with
    | .error e => .error e
    | .ok (b2, s) =>
      match decodeBytes (b ++ b2) with
      | .error _ => .ok (.illegalInstruction (wordOfBytes b), s)
      | .ok x => .ok (selectRow t x.1, s)

/-- A late fault is to be delivered at this boundary (17/R390, R392). -/
def lateDue (t : Thread) : Bool := t.saved.isNone && !t.late.isEmpty

/-- An asynchronous fault waits for a boundary outside fault mode (17/R390, R392). -/
def asyncDue (t : Thread) : Bool := t.saved.isNone && !t.fq.isEmpty

/-- What a running thread does next, asynchronous faults apart, and the state after a fetch; an error is a fetch that faults
or waits. -/
def nextInstr (s : State) (key : Nat) (t : Thread) : Except Exc (Instr × State) :=
  if lateDue t then .ok (.faultDelivery, s)
  else if !t.running then .ok (if asyncDue t then .faultDelivery else .channelEntry, s)
  else fetchInstr s key t

/-- The doubleword of a fabric instruction. -/
def nodeWord (s : State) (n : NodeRef) : Option Word :=
  match (castSlot s n.cast).live with
  | none => none
  | some k => (k.blocks[n.blk]?).bind fun b => b.code[n.slot]?

/-- The fabric instruction at a place. -/
def nodeInstr (s : State) (n : NodeRef) : Option Instr :=
  match nodeWord s n with
  | none => none
  | some w =>
    match decodeFabric w with
    | .ok i => some i
    | .error _ => none

/-- An event that stands in the agenda by itself: a row with no words that is not an occurrence of one thread's own
course. -/
def freeEvent (i : Instr) : Bool :=
  (encode i).isEmpty && i.wf &&
  (match i with
   | .faultDelivery => false
   | .channelEntry => false
   | .illegalInstruction _ => false
   | _ => true)

/-! ## Time -/

/-- A launch has a thread on a core or a casting placed. -/
def launchPlaced (s : State) (l : LaunchRef) : Bool :=
  s.threads.any (fun e => e.2.ref.l = l) ||
  (castsOf s l).any fun c =>
    match (castSlot s c).live with
    | some k => (match k.place with
      | .placed _ => true
      | .parked _ => false)
    | none => false

/-- A thread or casting of an ASID is halted. -/
def asidHalted (s : State) (a : BitVec 14) : Bool :=
  s.threads.any (fun e => e.2.asid = a && e.2.halted) || s.saved.any (fun e => e.2.asid = a && e.2.halted) ||
  s.clusters.any fun c => (liveCasts c.2).any fun e => e.2.asid = a && e.2.halted

/-- Cycles pass: `CYCLE` counts them, and so does each watchdog that counts (17/R402). -/
def passTime (s : State) (dt : Nat) : State :=
  { s with
    cycle := s.cycle + dt
    launches := s.launches.map fun x =>
      if launchPlaced s x.ref ∧ !asidHalted s x.record.asid then { x with counted := x.counted + dt } else x }

/-! ## Caches and the outside -/

/-- A translation cache takes the leaf of an address (04/R92, DESIGN CHOICE, log 4). -/
def cacheFill (s : State) (asid : BitVec 14) (va : Nat) : State :=
  if !bit s.regs.asidt.toNat 0 ∨ s.tlb.any (fun e => e.hits asid va) then s
  else
    match walk s asid va with
    | .ok e => { s with tlb := e :: s.tlb }
    | .error _ => s

/-- A translation cache, or an edge TLB, drops an entry. -/
def cacheDrop (s : State) (asid : BitVec 14) (va : Nat) : State :=
  { s with
    tlb := s.tlb.filter fun e => !e.hits asid va
    clusters := tabMap (fun c => { c with edge := c.edge.filter fun e => !e.hits asid va }) s.clusters }

/-- The outside changes its own memory (DESIGN CHOICE, log 7). -/
def outsideWrite (s : State) (cells : List Host.Cell) : State :=
  { s with outside := cells.foldl (fun m c => memPut m c.1 c.2) s.outside }

/-! ## The next word, placed -/

/-- The code handle of the placed program: a page of code at virtual address 2^16, rights R and X. -/
def placedCode : Handle := ⟨true, 0, rRX, 65536, 65536⟩

/-- A thread whose next instruction is the placed word: first handler of channel 0, a frame of 32 registers entered,
or not yet entered when the word is `enter`. -/
def placedThread (isEnter : Bool) : Thread :=
  { ref := ⟨⟨0, 0⟩, 0⟩, asid := 0, cls := 0, part := 0, carve := 0, code := placedCode, pc := 0
    base := 0, fsize := if isEnter then 0 else 32, entered := !isEnter, depth := 1, nres := 1, running := true }

/-- Translation for ASID 0 (04/R88-R91): `ASIDT` at physical address 0, its first entry naming a table at 2^24, whose
first entry is a leaf that maps the lowest 32 GiB onto themselves for reading and writing. -/
def placedMemory (m : Memory) (code : List Byte) : Memory :=
  let m := memWrite m 0 (natLe 8 (2 ^ 24 + 1))
  let m := memWrite m (2 ^ 24) (natLe 8 15)
  memWrite m 65536 code

/-- The casting that holds a placed fabric instruction as its only one. -/
def placedCast (w : Word) : CastLive :=
  { asid := 0, cls := 0, launch := ⟨0, 0⟩, loader := ⟨⟨0, 0⟩, 0⟩, core := 0, part := 0
    blocks := [⟨0, 0x7F, 0, 1, 1, 1, 1, 1, 0, [w]⟩], arcs := [], ns := 0, depth := 0, place := .placed [0]
    loaded := true }

/-- Place a control-thread instruction, the zero word after it. -/
def placeWord (s : State) (bytes : List Byte) (isEnter : Bool) : State :=
  { s with
    phase := .up, agenda := [], turns := [.thread 0], core := 0
    regs := { s.regs with asidt := 1 }
    mem := placedMemory s.mem bytes
    tlb := []
    threads := tabPut s.threads 0 (placedThread isEnter) }

/-- Place a fabric doubleword as the next to act. -/
def placeNode (s : State) (w : Word) : State :=
  let s := { s with phase := .up, agenda := [], turns := [.node ⟨0, 0, 0⟩] }
  s.updCluster 0 fun x => { x with casts := tabPut x.casts 0 ⟨1, some (placedCast w)⟩ }

/-- Place the instruction whose bits are w: its words stored little-endian at the PC of the thread on core 0, or, for
more than 32 bits that are no L form, as a fabric instruction. -/
def placeBits (s : State) (nbits w : Nat) : State :=
  let lo := BitVec.ofNat 32 w
  if nbits ≤ 32 ∨ isLong lo then placeWord s (natLe 8 w) (lo.extractLsb' 25 7 == 0x3C#7)
  else placeNode s (BitVec.ofNat 64 w)

end Sys2Proof.Machine
end

