-- ==== Sys2Proof/Machine/Control.lean ====
section
/-! DEFINITION. Transfers, frames and loops (15/R344-R350). -/

namespace Sys2Proof.Machine

/-! ## Transfers -/

/-- `br` (15/R344): when pK xor N is true, to the target; otherwise the instruction completes. -/
def execBr (p : BitVec 3) (n : Bool) (o : BitVec 21) (s : State) : Answer :=
  issueJump s [] fun key t =>
    .ok (s.setThread key (if readP t p != n then transfer t (branchTarget t.pc o) else endTest t t.pc))

/-- `jmp` (15/R344). -/
def execJmp (o : BitVec 21) (s : State) : Answer :=
  issueJump s [] fun key t => .ok (s.setThread key (transfer t (branchTarget t.pc o)))

/-- A register target (15/R344, R345): misaligned, an alignment fault. -/
def regTarget (t : Thread) (a : Src) : Except Exc Word := do
  let x ← readSrc t a
  if x.toNat % 4 ≠ 0 then trapWith cAlign 0 else pure x

/-- `jr` (15/R344). -/
def execJr (a : Src) (s : State) : Answer :=
  issueJump s [a.reg] fun key t => do
    let x ← regTarget t a
    pure (s.setThread key (transfer t x))

/-- `call` (15/R345). -/
def execCall (o : BitVec 21) (s : State) : Answer :=
  issueJump s [] fun key t => .ok (s.setThread key (pushFrame t (t.pc + 4) (branchTarget t.pc o)))

/-- `callr` (15/R345). -/
def execCallr (a : Src) (s : State) : Answer :=
  issueJump s [a.reg] fun key t => do
    let x ← regTarget t a
    pure (s.setThread key (pushFrame t (t.pc + 4) x))

/-! ## Ends of handlers and frames -/

/-- The handler is over (15/R354): every frame and spill record is discarded. (DEDUCED, log 45.) -/
def clearHandler (t : Thread) : Thread :=
  { t with
    fsize := 0, depth := 0, entered := false, ret := 0, callers := [], nres := 0, csp := 0, osp := 0, loops := []
    running := false }

/-- A producer is outstanding into a `w` register. -/
def prodIntoFile (t : Thread) : Bool := prodInto t (List.range 512)

/-- `chan.yield` (15/R354). (DEDUCED, log 45.) -/
def yieldThread (s : State) (key : Nat) (t : Thread) : Except Exc State :=
  if t.saved.isSome then trapWith cIllegal 0
  else if prodIntoFile t then stallNow
  else .ok (channelChoice (s.setThread key (clearHandler t)) key)

/-- `chan.yield`. -/
def execChanYield (s : State) : Answer := issueJump s [] fun key t => yieldThread s key t

/-- Drop the loop entries of the current frame (15/R347). -/
def dropLoops (t : Thread) : List LoopEntry := t.loops.dropWhile (loopActive t)

/-- Make the caller's frame current (15/R347). -/
def popFrame (t : Thread) (f : FrameRec) (nres : Nat) (ret : Word) : Thread :=
  { t with
    base := f.base, fsize := f.size, entered := true, ret := ret, callers := t.callers.drop 1, nres := nres
    depth := t.depth - 1, loops := dropLoops t, pc := t.ret }

/-- `ret` from a frame that is not the outermost (15/R347). -/
def returnFrame (s : State) (key : Nat) (t : Thread) : Except Exc State :=
  if prodInto t (framePositions t 8 t.fsize) then stallNow
  else
    match t.callers with
    | [] => trapWith cWindow 0
    | f :: _ =>
      if 2 ≤ t.nres then .ok (s.setThread key (popFrame t f (t.nres - 1) f.ret))
      else
        match fillFrame s key t f with
        | .error e => .error (.trap e none)
        | .ok (s, u, g) => .ok (s.setThread key (popFrame u f 1 g.ret))

/-- `ret` (15/R347). -/
def execRet (s : State) : Answer :=
  issueJump s [] fun key t =>
    if t.depth = 1 then yieldThread s key t else returnFrame s key t

/-- `enter` (15/R346, 08/R183, R184): legal only in a frame that is not entered. -/
def execEnter (n : BitVec 12) (s : State) : Answer :=
  attempt s false [] fun key t =>
    if t.entered then trapWith cIllegal 1
    else
      match spillFor key n.toNat (t.nres + 1) (s, t) with
      | .error e => .error e
      | .ok x =>
        let u := { x.2 with fsize := n.toNat, entered := true }
        let u := zeroFile u (framePositions u 8 n.toNat)
        .ok (x.1.setThread key (endTest u u.pc))

/-! ## Loops -/

/-- A word that may not end a loop body (15 Table 15.2): decoded alone, it is one of these instructions, an L form being
judged by its own word whatever word follows it. -/
def endForbidden (w : W32) : Bool :=
  match decodeWords w 0x01000001 with
  | .error _ => false
  | .ok i =>
    match i with
    | .br _ _ _ => true
    | .jmp _ => true
    | .call _ => true
    | .jr _ => true
    | .callr _ => true
    | .ret => true
    | .movl _ _ => true
    | .movhi _ _ _ => true
    | .loop _ _ => true
    | .loopr _ _ => true
    | .chanYield => true
    | .trap _ => true
    | .eret => true
    | .brk _ => true
    | _ => false

/-- Start a loop (15/R348): its tests, then skip it or push it. -/
def startLoop (s : State) (key : Nat) (t : Thread) (start : Word) (e : BitVec 8) (n : Nat) : Except Exc State := do
  let stop := start + BitVec.ofNat 64 (4 * (e.toNat - 1))
  let (b, s) ← fetchWord s key t stop
  if endForbidden (wordOfBytes b) then trapWith cIllegal 3
  else if 4 ≤ t.loops.length then trapWith cIllegal 4
  else if n = 0 then pure (s.setThread key (endTest t stop))
  else
    let entry : LoopEntry := ⟨start, stop, e, BitVec.ofNat 24 n, t.depth, t.base⟩
    pure (s.setThread key { t with loops := entry :: t.loops, pc := start })

/-- `loop` (15/R348). -/
def execLoop (count : BitVec 24) (e : BitVec 8) (s : State) : Answer :=
  issueJump s [] fun key t => startLoop s key t (t.pc + 8) e count.toNat

/-- `loopr` (15/R348). -/
def execLoopr (a : Src) (e : BitVec 8) (s : State) : Answer :=
  issueJump s [a.reg] fun key t => do
    let n ← readSrc t a
    if 16777215 < n.toNat then trapWith cIllegal 2 else startLoop s key t (t.pc + 4) e n.toNat

end Sys2Proof.Machine
end

