-- ==== Sys2Proof/Machine/Releases.lean ====
section
/-! DEFINITION. Release writes that wait for a thread's writes to the host window (14/R332, R336, R341), and pod barriers
(18/R425). (DESIGN CHOICE, log 75.) -/

namespace Sys2Proof.Machine

/-! ## Pod barriers (18/R425) -/

/-- The result word of `xbar` (18/R425). -/
def xbarWord (status phase : Nat) : Word := BitVec.ofNat 64 (status * 2 ^ 32 + phase)

/-- What a pod barrier answers an arrival (a count) or a probe (0): the barrier after, and the word.
(DEDUCED, log 44.) -/
def podBarrier (b : Barrier) (count : Nat) (asid : BitVec 14) : Barrier × Word :=
  if count = 0 then (b, xbarWord 0 b.phase.toNat)
  else
    match arriveAt b count asid with
    | .error _ => (b, xbarWord 1 b.phase.toNat)
    | .ok r => (r.1, xbarWord 0 b.phase.toNat)

/-- STATUS 10, with a phase that the spec does not state: a free value (DESIGN CHOICE, log 60). -/
def lostBarrier (s : State) : Word := xbarWord 2 (bits (Config.freeWord s.free).toNat 31 0)

/-- An arrival or a probe is performed at its home: this member's own barrier, or another's as its requests find it. -/
def atHome (s : State) (x : Arrival) : State × Word :=
  if x.home = s.member then
    let r := podBarrier (tabGet s.podBars x.idx {}) x.count x.asid
    ({ s with podBars := tabPut s.podBars x.idx r.1 }, r.2)
  else
    let k := 256 * x.home + x.idx
    let r := podBarrier (tabGet s.outBars k {}) x.count x.asid
    ({ s with outBars := tabPut s.outBars k r.1 }, r.2)

/-- A request of an `xbar` made now: the result as far as it is known, what it waits for, the error of a request that no up port
carries, what is delivered should the home be lost, the arrival that the home still has to answer, and the state. -/
structure Request where
  word   : Word
  wait   : Option Await
  err    : Option Nat
  onLoss : Option Word
  arrive : Option Arrival
  st     : State
  deriving DecidableEq, Repr

/-- Ask a home (18/R425): this member's own barrier answers at once; another member's as its response comes, so that an arrival
that fails changes nothing there; one that is not up is STATUS 10. -/
def askHome (s : State) (x : Arrival) : Request :=
  if x.home = s.member then
    let r := atHome s x
    ⟨r.2, none, none, none, none, r.1⟩
  else
    let u := { s with free := s.free + 1 }
    if memberUp s x.home then
      ⟨0, some (peerWait s x.home 0), if sends s x.home 0 then none else some cPeer, some (lostBarrier s), some x, u⟩
    else ⟨lostBarrier s, none, none, none, none, u⟩

/-- The port that the request would leave by is down and still drains (18/R413): the request is held back, and not its
instruction, for `xbar` never waits (R425; DESIGN CHOICE, log 60). -/
def homeBusy (s : State) (x : Arrival) : Bool :=
  decide (x.home ≠ s.member) && memberUp s x.home && portWaits s x.home 0

/-! ## Rings (05/R133) -/

/-- The object after `ring.rel`: the slot at RP is released. -/
def ringFreed (r : Nat) : Nat :=
  let i := rgRp r % rgN r
  setBits (setBits r (256 + i) (256 + i) 0) 159 128 ((rgRp r + 1) % 2 ^ 32)

/-- Slots of the ring at an address that `ring.rel` has released and whose new RP still waits (05/R133, 14/R332): no other
`ring.rel` releases them again (DESIGN CHOICE, log 75). -/
def ringPending (s : State) (pa : Nat) : Nat :=
  ((s.threads ++ s.saved).map fun e => (e.2.rels.filter fun p => decide (p.op = .ring pa)).length).foldl (· + ·) 0

/-! ## Performing -/

/-- A thread's seal of a curd still waits. -/
def sealWaiting (t : Thread) (i : Nat) : Bool :=
  t.rels.any fun p => match p.op with
    | .seal j _ => i == j
    | _ => false

/-- A release write may be performed: the thread's earlier writes to the host window have completed (14/R341), and the request of
an `xbar` comes after the releases before it and finds its port. -/
def relReady (s : State) (t : Thread) (p : Pending) : Bool :=
  !(p.host && hostBelow t p.num) &&
  match p.op with
  | .arrive x => decide (t.rels.head? = some p) && !homeBusy s x
  | _ => true

/-- The producer of an `xbar` whose request is made. -/
def askedProducer (q : Request) (p : Producer) : Producer :=
  { p with vals := p.dests.map fun _ => q.word, wait := q.wait, err := q.err.map (BitVec.ofNat 8), onLoss := q.onLoss
           arrive := q.arrive }

/-- Perform a release write of a thread of a cluster. A curd that is no longer there, or has been sealed meanwhile, and a ring
that is no longer well formed, are passed over (DESIGN CHOICE, log 75). -/
def performRelease (c : Nat) (r : ThreadRef) (s : State) (p : Pending) : State :=
  let s := updByRef s r fun t => { t with rels := t.rels.filter fun x => x.num ≠ p.num }
  match p.op with
  | .seal i g =>
    (match (curdSlot s c i).live with
     | some k => if (curdSlot s c i).gen = g ∧ !k.isSealed then sealCurd s c i else s
     | none => s)
  | .ring pa =>
    let x := ringGet s pa
    if ringWf x ∧ rgRp x ≠ rgCp x then ringSet s pa (ringFreed x) else s
  | .window i g => if (tabGet s.wins i {}).gen = g then s.updWindow i fun w => { w with waits := false } else s
  | .arrive x =>
    let q := askHome s x
    updByRef q.st r fun t => { t with prods := t.prods.map fun y => if y.num = p.num then askedProducer q y else y }

/-- Perform the release writes of a thread that may be performed, oldest first. -/
def releaseThread (c : Nat) (r : ThreadRef) (ps : List Pending) (s : State) : State :=
  ps.foldl (fun s p => match threadByRef s r with
    | some t => if relReady s t p then performRelease c r s p else s
    | none => s) s

/-- Perform every release write that may be performed, of running and of saved threads. -/
def performReleases (s : State) : State :=
  (s.threads ++ s.saved).foldl (fun s e => releaseThread (keyCluster e.1) e.2.ref e.2.rels s) s

end Sys2Proof.Machine
end

