-- ==== Sys2Proof/Machine/System.lean ====
section
/-! DEFINITION. System instructions (15/R364-R366), special registers (08 Table 8.4, 15 Table 15.9, 17 Table 17.2), and
what happens to one thread between instructions: producers completing, faults delivered, channels entered. -/

namespace Sys2Proof.Machine

/-! ## Special registers -/

/-- `CHRUN` (15 Table 15.9). -/
def chrunWord (t : Thread) : Word := BitVec.ofNat 64 (t.chrun + 16 * b2n t.priv)

/-- Read a special register; none for a reserved number (08/R194). (DEDUCED, log 6.) -/
def readSpecial (s : State) (key : Nat) (t : Thread) (r : Nat) : Option Word :=
  match r with
  | 0x00 => some (t.flags.setWidth 64)
  | 0x01 => some (BitVec.ofNat 64 s.cycle)
  | 0x02 => some (BitVec.ofNat 64 (keyCluster key * 64 + keyCore key))
  | 0x03 => some (t.asid.setWidth 64)
  | 0x04 => some (t.cls.setWidth 64)
  | 0x08 => some (wstat t)
  | 0x09 => some t.csp
  | 0x0A => some (BitVec.ofNat 64 (t.carve * 2048))
  | 0x0B => some t.osp
  | 0x0C => some t.ovbase
  | 0x0D => some t.ovlen
  | 0x0E => some (BitVec.ofNat 64 (outst t))
  | 0x20 => some (lstat t)
  | 0x21 => some (lrem t 0)
  | 0x22 => some (lrem t 1)
  | 0x23 => some (lrem t 2)
  | 0x24 => some (lrem t 3)
  | 0x25 => some (lstart t 0)
  | 0x26 => some (lstart t 1)
  | 0x27 => some (lstart t 2)
  | 0x28 => some (lstart t 3)
  | 0x29 => some (chrunWord t)
  | 0x2A => some (chpend t)
  | 0x2B => some t.ecause
  | 0x2C => some t.epc
  | 0x2D => some t.eaddr
  | 0x2E => some t.ewho
  | 0x2F => some t.esave
  | 0x30 => some t.fvec
  | 0x31 => some (BitVec.ofNat 64 t.fq.length)
  | 0x32 => some (BitVec.ofNat 64 (b2n t.saved.isSome))
  | _ => none

/-- How `swr` may write a register (08/R194, 17 Table 17.2). -/
inductive WriteRight where
  | any | privileged | faultMode | never
  deriving DecidableEq, Repr

/-- The right a register asks for; every register not named is read-only or reserved. -/
def writeRight (r : Nat) : WriteRight :=
  if r = 0x00 ∨ r = 0x30 then .any
  else if r = 0x09 ∨ r = 0x0B ∨ r = 0x0C ∨ r = 0x0D then .privileged
  else if r = 0x2B ∨ r = 0x2C then .faultMode
  else .never

/-- Write a special register, its `rsv` bits discarded (08/R194, 00/R8). -/
def writeSpecial (t : Thread) (r : Nat) (v : Word) : Thread :=
  match r with
  | 0x00 => { t with flags := v.setWidth 6 }
  | 0x09 => { t with csp := v &&& 0xFFFFFFFFFFFFFFF8 }
  | 0x0B => { t with osp := v &&& 0xFFFFFFFFFFFFFFF8 }
  | 0x0C => { t with ovbase := v &&& 0x00FFFFFFFFFFFFF8 }
  | 0x0D => { t with ovlen := v &&& 0xFFFFFFFFFFFFFFF8 }
  | 0x2B => { t with ecause := v &&& 0xFFF0FFFF }
  | 0x2C => { t with epc := v &&& 0xFFFFFFFFFFFFFFFC }
  | 0x30 => { t with fvec := v &&& 0xFFFFFFFFFFFFFFFC }
  | _ => t

/-- `srd` (15/R366). -/
def execSrd (d : Reg) (r : BitVec 8) (s : State) : Answer :=
  issueOwn s [d] fun t =>
    match readSpecial s s.core t r.toNat with
    | none => trapWith cIllegal 0
    | some v => writeDest t d v

/-- `swr` (15/R366, 08/R194). The source is read before the number is tested: an empty one stalls, or traps as an empty register,
also where the number is reserved or read-only (DESIGN CHOICE, log 17). -/
def execSwr (a : Src) (r : BitVec 8) (s : State) : Answer :=
  issueOwn s [a.reg] fun t => do
    let v ← readSrc t a
    match writeRight r.toNat with
    | .never => trapWith cIllegal 0
    | .any => pure (writeSpecial t r.toNat v)
    | .privileged => if t.priv then pure (writeSpecial t r.toNat v) else trapWith cPriv 0
    | .faultMode => if t.saved.isSome then pure (writeSpecial t r.toNat v) else trapWith cIllegal 0

/-! ## Traps -/

/-- `trap` (15/R364): the saved PC is the next instruction. -/
def execTrap (c : BitVec 8) (s : State) : Answer :=
  attempt s true [] fun _ _ => .error (.trap ⟨cTrap, 0, none, c⟩ none)

/-- `brk` (15/R364): the saved PC is the `brk` itself. -/
def execBrk (c : BitVec 8) (s : State) : Answer :=
  attempt s true [] fun _ _ => .error (.trap ⟨cBreak, 0, none, c⟩ none)

/-- `eret` (17/R393). -/
def execEret (s : State) : Answer := attempt s true [] fun key t => returnFault s key t

/-- `nop` (15/R366). -/
def execNop (s : State) : Answer := issueOwn s [] fun t => .ok t

/-- A word that is no instruction (02/R31): a precise illegal-instruction trap, *encoding*; the encoding is tested
before the frame (DESIGN CHOICE, log 17). -/
def execIllegalInstruction (_w : W32) (s : State) : Answer :=
  attempt s false [] fun _ _ => trapWith cIllegal 0

/-! ## Between instructions -/

/-- A late fault, or a waiting asynchronous one, is delivered (17/R390-R392). Nothing is due in fault mode. -/
def execFaultDelivery (s : State) : Answer :=
  match s.threadAt s.core with
  | none => .fault .noThread
  | some t =>
    if t.saved.isSome then .next s
    else
      match t.late with
      | f :: r => .next (deliver (s.setThread s.core { t with late := r }) s.core f t.pc)
      | [] =>
        match t.fq with
        | f :: r =>
          let s := admitWaiting (s.setThread s.core { t with fq := r }) t.ref
          .next (deliver s s.core f t.pc)
        | [] => .next s

/-- An idle thread enters a channel, goes on idling, or finishes (15/R355, 16/R386). -/
def execChannelEntry (s : State) : Answer :=
  match s.threadAt s.core with
  | none => .fault .noThread
  | some t => if t.running then .next s else .next (channelChoice s s.core)

/-- Write a completed producer's destinations (08/R189); one that failed leaves them empty, with no producer
outstanding (08/R193). -/
def fillDests (t : Thread) (p : Producer) : Thread :=
  (p.dests.zip p.vals).foldl (fun t x =>
    match p.err with
    | none => setCell t x.1 ⟨x.2, .full⟩
    | some _ => setCell t x.1 { cellAt t x.1 with fill := .dead }) t

/-- The fault record of a failed producer: its address, its target and its destination (08/R193, 17 Table 17.2).
(DEDUCED, log 65.) -/
def lateRecord (p : Producer) (cause : BitVec 8) : FaultRec :=
  ⟨ecauseOf srcLate ⟨cause.toNat, 0, some p.addr, 0⟩, p.addr, p.field.setWidth 64, p.pc, none⟩

/-- A read under the shares of curd i, issued before the thread's `cfin` number n + 1, is outstanding (07/R177). -/
def readsUnder (t : Thread) (f : Nat × Nat) : Bool :=
  t.prods.any fun p => match p.under with
    | some u => decide (u.1 = f.1 ∧ u.2 ≤ f.2)
    | none => false

/-- The shares that a `cfin` has made final, once every read under them has delivered its data (07/R177). -/
def applyFinals (s : State) (key : Nat) (r : ThreadRef) : State :=
  match threadByRef s r with
  | none => s
  | some t =>
    let done := t.finals.filter fun f => !readsUnder t f
    let s := updByRef s r fun t => { t with finals := t.finals.filter (readsUnder t) }
    done.foldl (fun s f => finalShare s (keyCluster key) f.1) s

/-- A thread with one producer fewer. -/
def dropProducer (t : Thread) (idx : Nat) (p : Producer) : Thread :=
  fillDests { t with prods := t.prods.eraseIdx idx } p

/-- A late fault of a producer that completed (08/R193, 17/R392, R394). (DEDUCED, log 65.) -/
def raiseLate (s : State) (t : Thread) (p : Producer) (c : BitVec 8) : State :=
  let f := lateRecord p c
  if p.inFault then killFaulted s t.ref.l f
  else if t.saved.isSome then
    (if t.fq.length < 16 then updByRef s t.ref fun t => { t with fq := t.fq ++ [f] }
     else { s with waiting := s.waiting ++ [⟨t.ref, f, none⟩] })
  else updByRef s t.ref fun t => { t with late := t.late ++ [f] }

/-- A producer's results may be delivered now: they are ready, or its wait is for the response of another member to a request
that reached it, which this event then is (18/R415). -/
def mayComplete (p : Producer) : Bool :=
  match p.wait with
  | none => true
  | some (.peer _ _ _) => p.err.isNone
  | _ => false

/-- The response of a home comes with the arrival performed there (18/R425). -/
def answered (s : State) (p : Producer) : State × Producer :=
  match p.arrive with
  | some x =>
    let r := atHome s x
    (r.1, { p with vals := p.dests.map fun _ => r.2 })
  | none => (s, p)

/-- Complete producer `idx` of a thread of a core, running or saved. -/
def completeProducer (s : State) (key : Nat) (t : Thread) (idx : Nat) : State :=
  match t.prods[idx]? with
  | none => s
  | some p =>
    if !mayComplete p then s
    else
      let (s, p) := answered s p
      let s := applyFinals (updByRef s t.ref fun t => dropProducer t idx p) key t.ref
      match p.err with
      | none => s
      | some c => raiseLate s t p c

/-- A long-latency producer completes (08/R189, R193): of the thread on the core, or beyond its list of the thread in
the core's context store (17/R396). -/
def execLongLatencyProducerComplete (key idx : Nat) (s : State) : Answer :=
  let run := s.threadAt key
  let n := match run with
    | some t => t.prods.length
    | none => 0
  if idx < n then
    match run with
    | some t => .next (completeProducer s key t idx)
    | none => .next s
  else
    match tabFind s.saved key with
    | some t => .next (completeProducer s key t (idx - n))
    | none => .next s

end Sys2Proof.Machine
end

