-- ==== Sys2Proof/Machine/Curds.lean ====
section
/-! DEFINITION. Curd instructions (07/R173-R180). -/

namespace Sys2Proof.Machine

/-- A curd as a thread finds it: the shares that its `cfin`s have made final count as gone, though they are applied only when
their reads have delivered their data (07/R177); none when they leave it nothing. -/
def ownView (t : Thread) (i : Nat) (k : CurdLive) : Option CurdLive :=
  let n := (t.finals.filter fun f => f.1 = i).length
  if 0 < n ∧ k.fin ≤ n then none else some { k with fin := k.fin - n, pend := k.pend - n }

/-- Index of a curd handle's curd, and the curd (07/R173 `CurdAt`), as the thread's `cfin`s have left it, for `cseal` too, which
07/R177 does not name (DESIGN CHOICE, log 79); one that the thread has sealed under a release that waits is waited for
(DESIGN CHOICE, log 75). -/
def openCurd (s : State) (key : Nat) (t : Thread) (x : Word) : Except Exc (Nat × CurdLive) :=
  let h := bits x.toNat 31 0
  match curdAt s (keyCluster key) t.asid h with
  | .error e => .error (.trap e none)
  | .ok k =>
    if sealWaiting t (chIndex h) then stallNow
    else
      match ownView t (chIndex h) k with
      | some k => .ok (chIndex h, k)
      | none => trapWith cCurd 0 (some (BitVec.ofNat 64 h))

/-- A curd handle, for `EADDR`. -/
def handleWord (x : Word) : Option Word := some (BitVec.ofNat 64 (bits x.toNat 31 0))

/-- `calloc` (07/R174). -/
def execCalloc (d : Reg) (a : Src) (p : BitVec 3) (part : BitVec 4) (s : State) : Answer :=
  issue s [d, a.reg] fun key t => do
    let c := keyCluster key
    let x ← readSrc t a
    let w := x.toNat
    let n := bits w 16 12 + 1
    if bits w 63 18 ≠ 0 ∨ bits w 11 0 = 0 then trapWith cCurd 7
    else if !partFor s c part.toNat t.asid then trapWith cCurd 2
    else
      let _ ← destReady t d
      match testGrant s c part.toNat n false with
      | .granted i =>
        let r := allocCurd s c (keyCore key) i part.toNat n (bits w 11 0) (bit w 17) t.ref.l t.ref none false
        pure (r.1.setThread key (writeP (writeR t d (BitVec.ofNat 64 r.2)) p true))
      | .short k => pure ((startPageOuts s c k).setThread key (writeP t p false))
      | .refused => pure (s.setThread key (writeP t p false))

/-- `cseal` (07/R175): the release of 07/R169, and the seal, which waits where the release does. -/
def execCseal (a : Src) (as : BitVec 3) (ss : BitVec 4) (s : State) : Answer :=
  issue s [a.reg] fun key t => do
    let x ← readSrc t a
    let (i, k) ← openCurd s key t x
    if k.isSealed then trapWith cCurd 5 (handleWord x)
    else if releaseWaits t as ss then
      pure (s.setThread key (defer t (.seal i (curdSlot s (keyCluster key) i).gen)))
    else pure (sealCurd s (keyCluster key) i)

/-- `cld.r` (07/R176); `z` is log2 of the size. -/
def execCldR (d : Reg) (a b : Src) (z : BitVec 2) (s : State) : Answer :=
  issue s [d, a.reg, b.reg] fun key t => do
    let c := keyCluster key
    let x ← readSrc t a
    let o ← readSrc t b
    let size := 2 ^ z.toNat
    let (i, k) ← openCurd s key t x
    if !k.isSealed then trapWith cCurd 4 (handleWord x)
    else if o.toNat % size ≠ 0 ∨ curdSize k < o.toNat + size then trapWith cCurd 6 (handleWord x)
    else
      let held := t.shares.contains i
      if !held ∧ k.fin - k.pend = 0 then trapWith cCurd 3 (handleWord x)
      else
        let _ ← destReady t d
        let _ ← producerSlot t
        let v := BitVec.ofNat 64 (leNat (curdBytes s c k o.toNat size))
        let err := if badBank s (curdAddr c k o.toNat) size then some cData else none
        let t' := { t with shares := if held then t.shares else t.shares ++ [i] }
        let s' := useBanks (if held then s else takeShare s c i) (curdAddr c k o.toNat) size
        pure (s'.setThread key (produce t' [d] [v] none err (BitVec.ofNat 64 (bits x.toNat 31 0)) d (some (i, t.nfin))))

/-- `cfin` (07/R177): every share the thread holds becomes final, once the reads under it have delivered their data. -/
def execCfin (s : State) : Answer :=
  issue s [] fun key t =>
    .ok (applyFinals (s.setThread key { t with
      shares := [], finals := t.finals ++ t.shares.map (fun i => (i, t.nfin)), nfin := t.nfin + 1 }) key t.ref)

/-- `cdrop` (07/R178). -/
def execCdrop (a : Src) (n : BitVec 12) (s : State) : Answer :=
  issue s [a.reg] fun key t => do
    let c := keyCluster key
    let x ← readSrc t a
    let (i, k) ← openCurd s key t x
    if k.fin - k.pend < n.toNat then trapWith cCurd 3 (handleWord x)
    else pure (settleCurd (updCurd s c i fun k => { k with fin := k.fin - n.toNat }) c i)

/-- The result of `cinfo` (07 Table 7.8). -/
def infoWord : Option CurdLive → Word
  | none => 0
  | some k =>
    BitVec.ofNat 64 ((if k.isSealed then 2 else 1) * 2 ^ 30 + b2n k.strict * 2 ^ 29 + (k.frames.length - 1) * 2 ^ 24 +
      k.pend * 2 ^ 12 + k.fin)

/-- `cinfo` (07/R180): *cluster* and *space* as ever, but no fault on a stale handle. -/
def execCinfo (d : Reg) (a : Src) (s : State) : Answer :=
  issueOwn s [d, a.reg] fun t => do
    let c := keyCluster s.core
    let x ← readSrc t a
    let h := bits x.toNat 31 0
    if chCluster h ≠ c then trapWith cCurd 1 (handleWord x)
    else if !partFor s c (chPart h) t.asid then trapWith cCurd 2 (handleWord x)
    else if (currentCurd s h).isSome && sealWaiting t (chIndex h) then stallNow
    else writeDest t d (infoWord ((currentCurd s h).bind (ownView t (chIndex h))))

/-- A partition descriptor breaks 07 Table 7.2. -/
def partBad (w : Nat) : Bool :=
  bits w 62 46 ≠ 0 || bits w 31 29 ≠ 0 || bits w 15 13 ≠ 0 || 6144 < ptMax w || 4096 < ptMin w || ptMax w < ptMin w

/-- A change of a partition in use that 07/R179 forbids. -/
def partBreaks (s : State) (c p w : Nat) : Bool :=
  let x := s.cluster c
  let curds := (liveCurds x).any fun e => e.2.part = p
  let casts := (liveCasts x).any fun e => e.2.part = p
  (curds || casts) &&
  (!ptEn w || ptAsid w ≠ ptAsid (partDesc s c p) || ptMin w < partDepth x p || ptMax w < partFrames x p)

/-- `cpart` (07/R179). -/
def execCpart (a : Src) (part : BitVec 4) (s : State) : Answer :=
  issue s [a.reg] fun key t => do
    if !t.priv then trapWith cPriv 0
    else
      let x ← readSrc t a
      let c := keyCluster key
      if partBad x.toNat then trapWith cCurd 7
      else if partBreaks s c part.toNat x.toNat then trapWith cCurd 8
      else pure (s.updCluster c fun y => { y with parts := tabPut y.parts part.toNat ⟨x⟩ })

end Sys2Proof.Machine
end

