-- ==== Sys2Proof/Machine/MemNodes.lean ====
section
/-! DEFINITION. Memory nodes (11/R272-R281, R286, 04/R96, R97). A turn of a memory node emits a billet whose access has
been performed and takes one from input a; the access itself is `nodeAccessPerformed`. -/

namespace Sys2Proof.Machine

/-! ## Taking and emitting (11/R272) -/

/-- ANY: billets leave in the order performed. -/
def imAny (f : FWord) : Bool := bit f.imm.toNat 11

/-- The held billet that was performed first, of those performed before a cycle; of several performed in one cycle the one
taken first. -/
def firstPerformed (now : Nat) : List Held → Option Held
  | [] => none
  | h :: r =>
    if h.st = .performed ∧ h.perf < now then
      match firstPerformed now r with
      | some j => some (if j.perf < h.perf then j else h)
      | none => some h
    else firstPerformed now r

/-- The held billet that may leave next: under ANY, what was performed in the present cycle leaves in a later one, when all
that it was performed with is known. -/
def readyHeld (any : Bool) (now : Nat) (x : NodeSt) : Option Held :=
  if any then firstPerformed now x.held
  else
    match x.held with
    | h :: _ => if h.st = .performed then some h else none
    | [] => none

/-- Emit one billet if one may leave and every target has a free slot. (DEDUCED, log 50.) -/
def emitHeld (f : FWord) (now : Nat) (n : NodeRef) (k : CastLive) : CastLive :=
  match readyHeld (imAny f) now (nodeAt k n) with
  | none => k
  | some h =>
    if roomFor k n (targetsOf f) then
      emitTo (nodeUpd k n fun x => { x with held := x.held.filter fun y => y.taken ≠ h.taken }) n (targetsOf f) h.out
    else k

/-- Take a billet: a data billet whose predicate holds waits for its access; any other counts as performed. -/
def takeHeld (f : FWord) (now : Nat) (n : NodeRef) (k : CastLive) (a : Billet) : CastLive :=
  let waits := isData a && pmHolds f a.tag
  nodeUpd (takeA k n) n fun x => { x with
    held := x.held ++ [{
      src := a, out := a, st := if waits then .waiting else .performed, taken := x.ntake, since := now, perf := now
      inv := x.inv }]
    ntake := x.ntake + 1 }

/-- A fabric instruction has fired in the present cycle. -/
def State.fire (s : State) (n : NodeRef) : State := { s with fired := n :: s.fired }

/-- Emit a billet in a stepped cycle in which the node has emitted none (09/R214, R216). -/
def emitOnce (s : State) (n : NodeRef) (f : FWord) (k : CastLive) : State :=
  if s.fired.contains n ∨ (readyHeld (imAny f) s.cycle (nodeAt k n)).isNone ∨ !roomFor k n (targetsOf f) then s
  else putCast (s.fire n) n (emitHeld f s.cycle n k)

/-- Take a billet, or pass a marker when the node holds none. -/
def takeTurn (s : State) (n : NodeRef) (f : FWord) (k : CastLive) : State :=
  if !nodeActs k n then s
  else
    match headA k n with
    | none => s
    | some a =>
      if isMarker a then
        let k' := takeA k n
        if (nodeAt k n).held.isEmpty ∧ roomFor k' n (targetsOf f) then passMarker s n f k' a else s
      else if (nodeAt k n).held.length < 8 then putCast s n (takeHeld f s.cycle n k a)
      else s

/-- A turn of a memory node: it emits, then it takes. (DEDUCED, log 50.) -/
def memTurn (s : State) (f : FWord) : Answer :=
  match (castSlot s s.node.cast).live with
  | none => .fault .noNode
  | some k =>
    let n := s.node
    .next (
      if !stepsOn k then s
      else
        let u := emitOnce s n f k
        match (castSlot u n.cast).live with
        | none => u
        | some k => takeTurn u n f k)

/-- `ld.s`. -/
def execLdS (f : FWord) (s : State) : Answer := memTurn s f
/-- `st.s`. -/
def execStS (f : FWord) (s : State) : Answer := memTurn s f
/-- `amo.s`. -/
def execAmoS (f : FWord) (s : State) : Answer := memTurn s f
/-- `ld.g`. -/
def execLdG (f : FWord) (s : State) : Answer := memTurn s f
/-- `st.g`. -/
def execStG (f : FWord) (s : State) : Answer := memTurn s f
/-- `ld.c`. -/
def execLdC (f : FWord) (s : State) : Answer := memTurn s f
/-- `st.c`. -/
def execStC (f : FWord) (s : State) : Answer := memTurn s f

/-! ## The access (11/R273, R274) -/

/-- The kinds of access. -/
inductive MemKind where
  | ldS | stS | amoS | ldG | stG | ldC | stC
  deriving DecidableEq, Repr

/-- The kind and fields of a memory node's instruction. -/
def memKind : Instr → Option (MemKind × FWord)
  | .ldS f => some (.ldS, f)
  | .stS f => some (.stS, f)
  | .amoS f => some (.amoS, f)
  | .ldG f => some (.ldG, f)
  | .stG f => some (.stG, f)
  | .ldC f => some (.ldC, f)
  | .stC f => some (.stC, f)
  | _ => none

/-- Two fields as one value, the first low. -/
def pairOf (r : BitVec 256) (j : Nat) : Nat := fieldOf r j + 2 ^ 32 * fieldOf r (j + 1)

/-- Where an access goes: what names its space (a scratch space, a handle, or nothing), its base and its bytes. -/
structure Span where
  key  : Nat
  base : Int
  size : Nat
  deriving DecidableEq, Repr

/-- The span of an access (11/R273, R277). -/
def spanOf (kd : MemKind) (f : FWord) (b : Billet) : Span :=
  let off : Int := 4 * sOf 7 (bits f.imm.toNat 9 3)
  let size := 4 * (bits f.imm.toNat 2 0 + 1)
  let fa := f.fa.toNat
  let x := fieldOf b.data fa
  match kd with
  | .ldS => ⟨bits x 31 22, bits x 21 0 + off, size⟩
  | .stS => ⟨bits x 31 22, bits x 21 0 + off, size⟩
  | .amoS => ⟨bits x 31 22, bits x 21 0 + off, if f.sh = 4 then 8 else 4⟩
  | .ldG => ⟨0, (if bit f.imm.toNat 10 then pairOf b.data fa else x) + off, size⟩
  | .stG => ⟨0, (if bit f.imm.toNat 10 then pairOf b.data fa else x) + off, size⟩
  | .ldC => ⟨x, fieldOf b.data (fa + 1) + off, size⟩
  | .stC => ⟨x, fieldOf b.data (fa + 1) + off, size⟩

/-- Check 1 of 11/R273, and the alignment of `amo.s`. -/
def spanAligned (kd : MemKind) (p : Span) : Bool :=
  if kd = .amoS then p.base % p.size = 0 else p.base % 4 = 0 && p.base / 32 == (p.base + p.size - 1) / 32

/-- Two spans share a byte. -/
def spansMeet (p q : Span) : Bool := p.key == q.key && decide (p.base < q.base + q.size) && decide (q.base < p.base + p.size)

/-- Word k is enabled (11/R274). -/
def wordOn (f : FWord) (b : Billet) (k : Nat) : Bool := !imMe f || bit (fieldOf b.data (imMf f)) k

/-- The record with the loaded words in place. -/
def loadWords (f : FWord) (b : Billet) (bytes : List Byte) : Billet :=
  let n := bytes.length / 4
  { b with data := (List.range n).foldl (fun r k =>
      if wordOn f b k then setField r (f.fd.toNat + k) (leNat ((bytes.drop (4 * k)).take 4)) else r) b.data }

/-- The bytes that a store writes, under its mask. -/
def storeWords (f : FWord) (b : Billet) (size : Nat) : List (Byte × Bool) :=
  ((List.range (size / 4)).map fun k =>
    (natLe 4 (fieldOf b.data (f.fb.toNat + k))).map fun y => (y, wordOn f b k)).flatten

/-- The context of a block that an instruction is a stage of: 16 slots in each (09/R213). -/
def nodeContext (k : CastLive) (n : NodeRef) : Nat := n.slot % (16 * (blockAt k n.blk).ctx) / 16

/-- The key in `State.ctxs` of a block: its pages are placed together, and their units step together (DEDUCED, log 64). -/
def blockKey (s : State) (n : NodeRef) : Nat := 8 * castId s n.cast + n.blk

/-- The fabric page, 4 × core + page, on which a node of a placed casting lies: the slots of a block fill its pages in order, 16
for each of its contexts (09/R213). (DEDUCED, log 64.) -/
def nodePage (k : CastLive) (n : NodeRef) : Option Nat :=
  let pagesOf := fun (b : Block) => (b.code.length + 16 * b.ctx - 1) / (16 * b.ctx)
  let before := sumNat ((k.blocks.take n.blk).map pagesOf)
  match k.place with
  | .placed ps => some (ps.getD (before + n.slot / (16 * (blockAt k n.blk).ctx)) 0)
  | .parked _ => none

/-- The unit of a node steps its context in this cycle (09/R214). -/
def steppedNow (s : State) (k : CastLive) (n : NodeRef) : Bool := tabGet s.ctxs (blockKey s n) 0 == nodeContext k n

/-- The memory unit of a node, as `banksOf` numbers the banks: two to a page, each of 8 stages of a context (09/R213, 06/R137;
DESIGN CHOICE, log 64). -/
def nodeUnit (k : CastLive) (n : NodeRef) : Option Nat :=
  (nodePage k n).map fun p => 512 * (n.cast / 256) + 2 * p + n.slot % 16 / 8

/-- The core of a node (06/R147). (DEDUCED, log 64.) -/
def nodeCore (k : CastLive) (n : NodeRef) : Nat :=
  match nodePage k n with
  | some p => p / 4
  | none => k.core

/-- The agent that a node is. (DEDUCED, log 64.) -/
def nodeAgent (k : CastLive) (n : NodeRef) : Agent := ⟨k.asid, n.cast / 256, nodeCore k n, some k.launch, false⟩

/-- The handle in a binding slot, for an invocation (09/R225). -/
def bindingOf (k : CastLive) (inv slot : Nat) : Handle := tabGet (tabGet k.bindAt inv k.binds) slot {}

/-! ## How an access ends (11 Table 11.5) -/

/-- The access is performed, its billet ready. -/
def heldDone (s : State) (n : NodeRef) (taken : Nat) (out : Billet) (st : HeldState) (undo : List Host.Cell := []) :
    State :=
  updNode s n fun x => { x with
    held := x.held.map fun h =>
      if h.taken = taken then { h with out := out, st := st, perf := s.cycle, undo := undo } else h }

/-- A fault that is no translation fault: a page wait, a wait for a granule, or the node stops. -/
def heldFault (s : State) (n : NodeRef) (taken : Nat) (e : Exn) (page : Nat) : State :=
  if e.cause = cScratch ∧ e.sub ≠ 3 then
    nodeFault (updNode s n fun x => { setHeld x taken (.pageFault page) with page := some page }) n e
  else if e.cause = cDraft ∧ e.sub = 5 then nodeFault (updNode s n fun x => setHeld x taken .shadow) n e
  else nodeStop (updNode s n fun x => setHeld x taken .stopped) n e

/-! ## Scratch (11/R275, R277) -/

/-- The scratch word of an access, for `EADDR`, as field FA holds it, also where OFF7 puts the access on another page than FA
names (DESIGN CHOICE, log 49). -/
def heldWord (f : FWord) (b : Billet) : Option Word := some (BitVec.ofNat 64 (fieldOf b.data f.fa.toNat))

/-- The new value, flags and old-value fields of `amo.s` (11/R277). -/
def amoNode (f : FWord) (b : Billet) (old : Nat) : Nat × Flags × Billet :=
  let wide := f.sh = 4
  let fb := f.fb.toNat
  let get := fun j => if wide then pairOf b.data j else fieldOf b.data j
  let v := get fb
  let nw := get (if wide then fb + 2 else fb + 1)
  let fd := f.fd.toNat
  let out := if bit f.imm.toNat 10 then
      (let r := setField b.data fd (old % 2 ^ 32)
       { b with data := if wide then setField r (fd + 1) (old / 2 ^ 32) else r })
    else b
  let op := bits f.imm.toNat 15 12
  if op = 10 then
    let x := addV 0 (flFp32.unpack old) (flFp32.unpack v)
    let r := storeFl flFp32 0 false 1 x.1 x.2
    (r.bits, r.fl, out)
  else (amoNew op (if wide then 64 else 32) old v nw, 0, out)

/-- A resolved scratch access. -/
def scratchDo (s : State) (kd : MemKind) (f : FWord) (n : NodeRef) (h : Held) (p : Span) (fr : Nat) : State :=
  let c := n.cast / 256
  let o := p.base.toNat % 2048
  let page := 2048 * p.key + p.base.toNat / 2048
  let s := useBanks (touchPage s c page) (frameAddr c fr o) p.size
  match kd with
  | .stS =>
    heldDone { s with sram := memWriteMask s.sram (frameAddr c fr o) (storeWords f h.src p.size) } n h.taken h.src
      .performed
  | .amoS =>
    let r := amoNode f h.src (leNat (frameBytes s c fr o p.size))
    let s := { s with sram := memWrite s.sram (frameAddr c fr o) (natLe p.size r.1) }
    flagCast (heldDone s n h.taken r.2.2 .performed) n.cast h.inv r.2.1
  | _ => heldDone s n h.taken (loadWords f h.src (frameBytes s c fr o p.size)) .performed

/-- Perform a scratch access (06/R144). -/
def performScratch (s : State) (kd : MemKind) (f : FWord) (k : CastLive) (n : NodeRef) (h : Held) : State :=
  let p := spanOf kd f h.src
  let c := n.cast / 256
  let page := 2048 * p.key + p.base.toNat / 2048
  if !spanAligned kd p then heldFault s n h.taken ⟨cAlign, 0, heldWord f h.src, 0⟩ 0
  else if p.base < 0 ∨ 2 ^ 22 < p.base + p.size then heldFault s n h.taken ⟨cScratch, 3, heldWord f h.src, 0⟩ 0
  else
    match resolvePage s c page k.asid (kd ≠ .ldS) with
    | .fault sub => heldFault s n h.taken ⟨cScratch, sub, heldWord f h.src, 0⟩ page
    | .paged => wantPage s c page (nodeCore k n)
    | .moving => s
    | .frame fr =>
      if kd ≠ .stS ∧ badBank s (frameAddr c fr (p.base.toNat % 2048)) p.size then
        heldFault s n h.taken ⟨cData, 0, heldWord f h.src, 0⟩ 0
      else scratchDo s kd f n h p fr

/-! ## Curds (11/R275) -/

/-- Take the invocation's share of a sealed curd at a node (07/R167); none when none is left. -/
def nodeShare (s : State) (n : NodeRef) (inv idx : Nat) (k : CurdLive) (x : NodeSt) : Option State :=
  if x.shares.contains (inv, idx) then some s
  else if k.fin - k.pend = 0 then none
  else some (takeShare (updNode s n fun x => { x with shares := x.shares ++ [(inv, idx)] }) (n.cast / 256) idx)

/-- A re-run reads a curd once more than its count allows: the curd has returned because its final count reached 0, and a share of
it has become final at this place of a casting of the launch, in this casting or one loaded before it (21/R441: the program's
re-run loads the casting anew). (DEDUCED, log 76.) -/
def drainedHere (s : State) (k : CastLive) (n : NodeRef) (h : Nat) : Bool :=
  (tabGet (curdSlot s (n.cast / 256) (chIndex h)).past (chGen h) []).contains (k.launch, nodeKey n)

/-- `CurdAt` (07/R173) at a node that reads: what a re-run finds spent is *overread*, not *stale* (21/R441). -/
def curdAtNode (s : State) (k : CastLive) (n : NodeRef) (h : Nat) : Except Exn CurdLive :=
  match curdAt s (n.cast / 256) k.asid h with
  | .error e => if e.sub = 0 ∧ drainedHere s k n h then exn cCurd 3 e.addr else .error e
  | .ok u => .ok u

/-- Perform a curd access. -/
def performCurd (s : State) (kd : MemKind) (f : FWord) (k : CastLive) (n : NodeRef) (h : Held) : State :=
  let p := spanOf kd f h.src
  let c := n.cast / 256
  let e : Option Word := some (BitVec.ofNat 64 p.key)
  if !spanAligned kd p then heldFault s n h.taken ⟨cAlign, 0, e, 0⟩ 0
  else
    match (if kd = .stC then curdAt s c k.asid p.key else curdAtNode s k n p.key) with
    | .error x => heldFault s n h.taken x 0
    | .ok u =>
      if p.base < 0 ∨ (curdSize u : Int) < p.base + p.size then heldFault s n h.taken ⟨cCurd, 6, e, 0⟩ 0
      else if kd = .stC then
        if u.isSealed then heldFault s n h.taken ⟨cCurd, 5, e, 0⟩ 0
        else
          heldDone (useBanks (curdWrite s c u p.base.toNat (storeWords f h.src p.size)) (curdAddr c u p.base.toNat) p.size)
            n h.taken h.src .performed
      else if !u.isSealed then s
      else
        match nodeShare s n h.inv (chIndex p.key) u (nodeAt k n) with
        | none => heldFault s n h.taken ⟨cCurd, 3, e, 0⟩ 0
        | some s =>
          if badBank s (curdAddr c u p.base.toNat) p.size then heldFault s n h.taken ⟨cData, 0, e, 0⟩ 0
          else
            heldDone (useBanks s (curdAddr c u p.base.toNat) p.size) n h.taken
              (loadWords f h.src (curdBytes s c u p.base.toNat p.size)) .performed

/-! ## Device, host and peer memory (11/R275, 04/R96, R97) -/

/-- Translate an element of a stream in a cluster, by the stream's entry, the edge TLB, or a walk (04/R96): the target, and the
stream's entry after it. -/
def streamTranslate (s : State) (c : Nat) (x : Option TlbEntry) (asid : BitVec 14) (va : Nat) (need : Need) :
    Except Exn (Target × Option TlbEntry) :=
  if isScratch va then .ok (.scratch (bits va 31 11) (bits va 10 0), x)
  else
    match leafFor s (x.toList ++ (s.cluster c).edge) asid va with
    | .error e => .error e
    | .ok l =>
      match targetOf s l va need with
      | .error e => .error e
      | .ok t => .ok (t, some (streamLeaf l va))

/-- Divert an element to the spill queue (04/R97); with the queue full it stays where it is. A fault is given when the
element itself faulted. (DEDUCED, log 51.) -/
def divert (s : State) (n : NodeRef) (taken va : Nat) (store : Bool) (e : Option Exn) : State :=
  let c := n.cast / 256
  if 256 ≤ (s.cluster c).spill.length then s
  else
    let s := s.updCluster c fun x => { x with spill := x.spill ++ [⟨n, taken, va, store⟩] }
    let s := updNode s n fun x => setHeld x taken .spilled
    match e, (castSlot s n.cast).live with
    | some e, some k => sendFault s k.loader srcSpill e 0 (some n.cast) (some ⟨n, (castSlot s n.cast).gen⟩)
    | _, _ => s

/-- The node has a diverted element in the 64 KiB page of an address. -/
def behindSpill (s : State) (n : NodeRef) (va : Nat) : Bool :=
  (s.cluster (n.cast / 256)).spill.any fun e => e.node = n && e.va / 65536 == va / 65536

/-- What the pieces of an access yield: the bytes read, the state, the stream's entry, what the access still waits for,
whether every request has reached its member, and the bytes replaced at another member. -/
structure Pieces where
  bytes : List Byte
  st    : State
  entry : Option TlbEntry
  wait  : Option Await
  sent  : Bool
  undo  : List Host.Cell
  deriving DecidableEq, Repr

/-- One piece of a load or a store at its target. -/
def onePiece (s : State) (ag : Agent) (store : Bool) (t : Target) (len : Nat) (data : List (Byte × Bool)) (ea : Word) :
    Except Exc Got :=
  if store then
    match accWrite s ag t data false ea with
    | .error e => .error e
    | .ok d => .ok ⟨[], d.err, d.wait, d.undo, false, d.st⟩
  else accRead s ag t len ea

/-- Perform the pieces of an access within its lines. (DEDUCED, log 49.) -/
def globalPieces (ag : Agent) (store : Bool) : List (Nat × Nat × List (Byte × Bool)) → State → Option TlbEntry →
    Except Exc Pieces
  | [], s, x => .ok ⟨[], s, x, none, true, []⟩
  | (va, len, data) :: r, s, x =>
    match streamTranslate s ag.cl x ag.asid va (if store then .store else .load) with
    | .error e => .error (.trap e none)
    | .ok (t, y) =>
      match onePiece (noteStream s ag.cl x ag.asid va) ag store t len data (BitVec.ofNat 64 va) with
      | .error e => .error e
      | .ok g =>
        match g.err, g.wait with
        | some c, none => .error (.trap ⟨c, 0, some (BitVec.ofNat 64 va), 0⟩ (some g.st))
        | err, wait =>
          match globalPieces ag store r g.st y with
          | .error e => .error e
          | .ok q => .ok { q with
              bytes := g.bytes ++ q.bytes, wait := wait.or q.wait, sent := err.isNone && q.sent, undo := g.undo ++ q.undo }

/-- How a performed access stands: at the host or another member it waits for its completion. -/
def heldAfter (wait : Option Await) (sent : Bool) : HeldState :=
  match wait with
  | some .host => .atHost
  | some (.peer m since port) => .atPeer m since port sent
  | _ => .performed

/-- The page on which a scratch fault arose: that of the piece that faulted (06/R149). -/
def faultPage (e : Exn) (va : Nat) : Nat := bits (e.addr.getD (BitVec.ofNat 64 va)).toNat 31 11

/-- Perform an access through a binding. -/
def performGlobal (s : State) (kd : MemKind) (f : FWord) (k : CastLive) (n : NodeRef) (h : Held) : State :=
  let p := spanOf kd f h.src
  let store := kd = .stG
  let hk := bindingOf k h.inv (bits f.imm.toNat 20 16)
  if !spanAligned kd p then heldFault s n h.taken ⟨cAlign, 0, some (vaOf hk p.base), 0⟩ 0
  else
    match checkHandle hk p.base p.size (if store then rW else rR) k.asid with
    | .error e => heldFault s n h.taken e 0
    | .ok va =>
      if behindSpill s n va then divert s n h.taken va store none
      else
        let words := storeWords f h.src p.size
        let pieces := (linesOf va p.size).map fun q => (q.1, q.2, (words.drop (q.1 - va)).take q.2)
        match globalPieces (nodeAgent k n) store pieces s (nodeAt k n).stream with
        | .error (.stall keep) => keep.getD s
        | .error (.trap e keep) =>
          if e.cause = cTrans then divert s n h.taken va store (some e)
          else heldFault (keep.getD s) n h.taken e (faultPage e va)
        | .ok q =>
          heldDone (updNode q.st n fun y => { y with stream := q.entry }) n h.taken
            (if store then h.src else loadWords f h.src q.bytes) (heldAfter q.wait q.sent) q.undo

/-! ## NODE_ACCESS_PERFORMED -/

/-- Where the bytes of an access through a binding lie, piece by piece, as far as they translate. -/
def heldPlaces (s : State) (kd : MemKind) (f : FWord) (k : CastLive) (n : NodeRef) (h : Held) : List (Target × Nat) :=
  let p := spanOf kd f h.src
  let va := (bindingOf k h.inv (bits f.imm.toNat 20 16)).base.toNat + p.base.toNat
  let need : Need := if kd = .stG then .store else .load
  (linesOf va p.size).filterMap fun q =>
    match streamTranslate s (n.cast / 256) (nodeAt k n).stream k.asid q.1 need with
    | .ok (t, _) => some (t, q.2)
    | .error _ => none

/-- A target as a storage and a byte of it. -/
def flatTarget : Target → Nat × Nat
  | .dev pa => (0, pa)
  | .host x => (1, x)
  | .regs off => (2, off)
  | .scratch k o => (3, 2048 * k + o)
  | .peer m pa => (4 + m, pa)

/-- Two targets share a byte. -/
def targetsMeet (x y : Target × Nat) : Bool :=
  let a := flatTarget x.1
  let b := flatTarget y.1
  a.1 == b.1 && decide (a.2 < b.2 + y.2) && decide (b.2 < a.2 + x.2)

/-- The access goes through a binding. -/
def isGlobal : MemKind → Bool
  | .ldG => true
  | .stG => true
  | _ => false

/-- Two accesses of a node share a byte of storage (11/R272, 14/R331). -/
def heldMeet (s : State) (kd : MemKind) (f : FWord) (k : CastLive) (n : NodeRef) (g h : Held) : Bool :=
  if isGlobal kd then (heldPlaces s kd f k n g).any fun x => (heldPlaces s kd f k n h).any (targetsMeet x)
  else spansMeet (spanOf kd f g.src) (spanOf kd f h.src)

/-- A page that is paged out or moving (06/R144). -/
def pageWaits (s : State) (c page : Nat) (asid : BitVec 14) (write : Bool) : Bool :=
  match resolvePage s c page asid write with
  | .paged => true
  | .moving => true
  | _ => false

/-- An access through a binding that would be diverted, had the spill queue a free place (04/R97). -/
def spillBlocked (s : State) (kd : MemKind) (f : FWord) (k : CastLive) (n : NodeRef) (h : Held) : Bool :=
  let p := spanOf kd f h.src
  let va := (bindingOf k h.inv (bits f.imm.toNat 20 16)).base.toNat + p.base.toNat
  decide (256 ≤ (s.cluster (n.cast / 256)).spill.length) &&
  (behindSpill s n va || (linesOf va p.size).any fun q =>
    match streamTranslate s (n.cast / 256) (nodeAt k n).stream k.asid q.1 (if kd = .stG then .store else .load) with
    | .error e => decide (e.cause = cTrans)
    | .ok _ => false)

/-- An earlier access of the node that stalls it in order: it waits for a page (06/R144), a seal (07 Table 7.3), or a place in
the spill queue (04/R97). -/
def stallsNode (s : State) (kd : MemKind) (f : FWord) (k : CastLive) (n : NodeRef) (h : Held) : Bool :=
  let p := spanOf kd f h.src
  let c := n.cast / 256
  match kd with
  | .ldC =>
    (match curdAt s c k.asid p.key with
     | .ok u => !u.isSealed
     | .error _ => false)
  | .stC => false
  | .ldG =>
    spillBlocked s kd f k n h || (heldPlaces s kd f k n h).any fun x => match x.1 with
      | .scratch page _ => pageWaits s c page k.asid false
      | _ => false
  | .stG =>
    spillBlocked s kd f k n h || (heldPlaces s kd f k n h).any fun x => match x.1 with
      | .scratch page _ => pageWaits s c page k.asid true
      | _ => false
  | _ => pageWaits s c (2048 * p.key + p.base.toNat / 2048) k.asid (kd ≠ .ldS)

/-! ## Sub-banks (11/R276) -/

/-- The sub-banks that a held access needs, as far as it can be resolved. -/
def heldBanks (s : State) (kd : MemKind) (f : FWord) (k : CastLive) (n : NodeRef) (h : Held) : List Nat :=
  let p := spanOf kd f h.src
  let c := n.cast / 256
  let onPage := fun (page o size : Nat) =>
    match resolvePage s c page k.asid false with
    | .frame fr => banksOf (frameAddr c fr o) size
    | _ => []
  if isGlobal kd then
    ((heldPlaces s kd f k n h).map fun x => match x.1 with
      | .scratch page o => onPage page o x.2
      | _ => []).flatten
  else if kd = .ldC ∨ kd = .stC then
    match curdAt s c k.asid p.key with
    | .ok u => if p.base < 0 then [] else banksOf (curdAddr c u p.base.toNat) p.size
    | .error _ => []
  else onPage (2048 * p.key + p.base.toNat / 2048) (p.base.toNat % 2048) p.size

/-- The rank of an access among those that wait for a sub-bank: the cycle of its arrival, then the tie order: units outside the
memory unit by core, a core's control thread before its nodes (class 0); units with no core (1); the unit's own nodes (2). -/
def bankRank (since cls core sub : Nat) : Nat := ((since * 4 + cls) * 64 + core) * 2048 + sub

/-- The rank of a fabric instruction at sub-banks: in the last class at those of its own memory unit. -/
def nodeBankRank (k : CastLive) (n : NodeRef) (banks : List Nat) (since : Nat) : Nat :=
  let own := banks.all fun b => nodeUnit k n == some (b / 16)
  bankRank since (if own then 2 else 0) (nodeCore k n) (1 + nodeKey n)

/-- The rank of a node's access at its sub-banks. -/
def nodeRank (k : CastLive) (n : NodeRef) (banks : List Nat) (h : Held) : Nat :=
  nodeBankRank k n banks h.since

/-- The rank of a waiting access of another agent. -/
def waitRank (s : State) (w : BankWait) : Nat :=
  match w.who with
  | .thread key => bankRank w.since 0 (keyCore key) 0
  | .node n =>
    (match (castSlot s n.cast).live with
     | some k => nodeBankRank k n w.banks w.since
     | none => bankRank w.since 0 0 (1 + nodeKey n))
  | .queue _ isl _ => bankRank w.since 1 0 isl
  | .island _ isl => bankRank w.since 1 0 (4 + isl)

/-- An access may be performed now, its sub-banks apart: it waits, and no earlier one stalls the node or shares a byte with it
(11/R272). -/
def mayPerform (s : State) (kd : MemKind) (f : FWord) (k : CastLive) (n : NodeRef) (h : Held) : Bool :=
  h.st = .waiting &&
  (nodeAt k n).held.all fun g =>
    g.taken ≥ h.taken || g.st = .performed || g.st = .atHost || (match g.st with
      | .atPeer _ _ _ _ => true
      | _ => false) ||
    !(heldMeet s kd f k n g h) && !(g.st = .waiting && stallsNode s kd f k n g)

/-- The accesses of nodes of a casting that wait for sub-banks, by rank. -/
def castWaiters (s : State) (cid : Nat) (k : CastLive) : List (Nat × List Nat) :=
  if k.dead then []
  else
    (k.nodes.map fun e =>
      let n : NodeRef := ⟨cid, e.1 / 128, e.1 % 128⟩
      if e.2.stop ∨ e.2.page.isSome ∨ e.2.held.isEmpty then []
      else
        match (nodeInstr s n).bind memKind with
        | some (kd, f) =>
          e.2.held.filterMap fun h =>
            if mayPerform s kd f k n h then
              let b := heldBanks s kd f k n h
              if b.isEmpty then none else some (nodeRank k n b h, b)
            else none
        | none => []).flatten

/-- Those of a cluster. -/
def bankWaiters (s : State) (c : Nat) : List (Nat × List Nat) :=
  ((s.cluster c).casts.map fun e =>
    match e.2.live with
    | some k => castWaiters s (256 * c + e.1) k
    | none => []).flatten

/-- Every sub-bank of an access is free in this cycle, and no access of lower rank waits for one of them. -/
def bankFree (s : State) (c rank : Nat) (banks : List Nat) : Bool :=
  banks.isEmpty || (banks.all fun b => !s.busy.contains b) &&
  (bankWaiters s c ++ s.banked.map fun w => (waitRank s w, w.banks)).all fun w =>
    rank ≤ w.1 || !w.2.any fun b => banks.contains b

/-- A held access may be performed now. -/
def heldFree (s : State) (kd : MemKind) (f : FWord) (k : CastLive) (n : NodeRef) (h : Held) : Bool :=
  let b := heldBanks s kd f k n h
  mayPerform s kd f k n h && bankFree s (n.cast / 256) (nodeRank k n b h) b

/-- Perform an access by its kind. (DEDUCED, log 49.) -/
def performHeld (s : State) (kd : MemKind) (f : FWord) (k : CastLive) (n : NodeRef) (h : Held) : State :=
  match kd with
  | .ldG => performGlobal s kd f k n h
  | .stG => performGlobal s kd f k n h
  | .ldC => performCurd s kd f k n h
  | .stC => performCurd s kd f k n h
  | _ => performScratch s kd f k n h

/-- Emit a billet after a performance, in a cycle that steps the node (09/R214). -/
def emitAfter (s : State) (n : NodeRef) (f : FWord) : State :=
  match (castSlot s n.cast).live with
  | none => s
  | some k => if stepsOn k ∧ steppedNow s k n then emitOnce s n f k else s

/-- NODE_ACCESS_PERFORMED: the access of the held billet with number `idx` is performed, or another member has answered a
request of it (18/R415); and a billet is emitted. A halted casting's accesses complete (17/R401). -/
def execNodeAccessPerformed (n : NodeRef) (idx : Nat) (s : State) : Answer :=
  .next (
    match (castSlot s n.cast).live, (nodeInstr s n).bind memKind with
    | some k, some (kd, f) =>
      match (nodeAt k n).held.find? fun h => h.taken = idx with
      | none => s
      | some h =>
        if k.dead ∨ (nodeAt k n).stop then s
        else
          match h.st with
          | .atPeer _ _ _ sent => if sent then emitAfter (heldDone s n idx h.out .performed) n f else s
          | _ =>
            if (nodeAt k n).page.isNone ∧ heldFree s kd f k n h then emitAfter (performHeld s kd f k n h) n f else s
    | _, _ => s)

/-! ## The address generator (11/R278, R279) -/

/-- Read a nest descriptor and check it; an error is the fault. -/
def nestOf (f : FWord) (b : Billet) (d : Nat) : Except Exn Nest :=
  let nd := bits d 321 320
  let tk := bits d 323 322
  let space := bits d 333 324
  let a64 := bit f.imm.toNat 13
  let bound := fun i => bits d (95 + 32 * i) (64 + 32 * i)
  let stepOf := fun i => sOf 32 (bits d (223 + 32 * i) (192 + 32 * i))
  let dims := (List.range (nd + 1)).map fun i => (bound i, stepOf i)
  let base := sOf 64 (bits d 63 0) + if bit f.imm.toNat 14 then sOf 32 (fieldOf b.data f.fb.toNat) else 0
  let some' := dims.all fun x => x.1 ≠ 0
  let sum := fun (pick : Int → Int) => dims.foldl (fun t x => t + pick (x.2 * ((x.1 : Int) - 1))) base
  let limit : Int := match tk with
    | 0 => 2 ^ 22 - 1
    | 2 => 65535
    | _ => if a64 then 2 ^ 63 - 1 else 2 ^ 32 - 1
  if bits d 511 334 ≠ 0 ∨ tk = 3 ∨ (space ≠ 0 ∧ tk ≠ 0) ∨
      ((List.range 4).any fun i => nd < i && (bound i ≠ 0 || stepOf i ≠ 0)) then exn cCast 8
  else if a64 ∧ tk ≠ 1 then exn cCast 8
  else if some' ∧ (sum (minInt 0) < 0 ∨ limit < sum (maxInt 0)) then exn cCast 8
  else .ok ⟨b, base, dims, tk, space, 0, if some' then dims.foldl (fun t x => t * x.1) 1 else 0⟩

/-- The address of element n of a nest, dimension 0 fastest. -/
def nestAddr : List (Nat × Int) → Nat → Int → Int
  | [], _, x => x
  | (b, st) :: r, n, x => nestAddr r (n / b) (x + st * (n % b : Nat))

/-- The next billet of a nest: an address, or the end-of-stream token. -/
def nestBillet (f : FWord) (t : Nest) : Billet :=
  let fd := f.fd.toNat
  if t.done < t.total then
    let x := nestAddr t.dims t.done t.base
    let v := if t.tkind = 0 then t.space * 2 ^ 22 + wrapN 22 x else wrapN 32 x
    let r := setField t.src.data fd v
    { t.src with data := if bit f.imm.toNat 13 then setField r (fd + 1) (wrapN 64 x / 2 ^ 32) else r }
  else setKind { t.src with data := setField t.src.data fd (t.total % 2 ^ 32) } 2

/-- What a nest still has to emit after one more billet. -/
def nestNext (f : FWord) (t : Nest) : Option Nest :=
  let t' := { t with done := t.done + 1 }
  if t'.done < t.total + b2n (bit f.imm.toNat 15) then some t' else none

/-- Read the descriptor of the held request (11/R278, R279); one in a member that gives no response is waited for (18/R414). -/
def agRead (s : State) (f : FWord) (n : NodeRef) (k : CastLive) (h : Held) : State :=
  let off := fieldOf h.src.data f.fa.toNat
  let fault := fun (s : State) (e : Exn) =>
    if e.cause = cTrans then nodeFault (updNode s n fun x => setHeld x h.taken .spilled) n e
    else nodeStop (updNode s n fun x => setHeld x h.taken .stopped) n e
  if off % 64 ≠ 0 then fault s ⟨cCast, 8, none, 0⟩
  else
    match checkHandle (bindingOf k h.inv (bits f.imm.toNat 20 16)) off 64 rR k.asid with
    | .error e => fault s e
    | .ok va =>
      match readIssue s (nodeAgent k n) va 64 with
      | .error (.stall keep) =>
        let s := keep.getD s
        (match s.asked with
         | some m => updNode { s with asked := none } n fun x => setHeld x h.taken (.atPeer m s.cycle 24 false)
         | none => s)
      | .error (.trap e _) =>
        if e.cause = cScratch then heldFault s n h.taken e (faultPage e va) else fault s e
      | .ok (b, s) =>
        match nestOf f h.src (leNat b) with
        | .error e => fault s e
        | .ok t =>
          updNode s n fun x => { x with
            held := []
            nest := if 0 < t.total + b2n (bit f.imm.toNat 15) then some t else none }

/-- `ag`: one billet of the current request a turn; the next request only after its last. -/
def execAg (f : FWord) (s : State) : Answer :=
  atNode s fun n k =>
    let x := nodeAt k n
    match x.nest with
    | some t =>
      if roomFor k n (targetsOf f) then
        putCast s n (emitTo (nodeUpd k n fun x => { x with nest := nestNext f t }) n (targetsOf f) (nestBillet f t))
      else s
    | none =>
      match x.held with
      | h :: _ => if h.st = .waiting then agRead s f n k h else s
      | [] =>
        match headA k n with
        | none => s
        | some a =>
          let k' := takeA k n
          if isData a ∧ pmHolds f a.tag then
            let h : Held := { src := a, out := a, st := .waiting, taken := x.ntake, since := s.cycle, perf := 0, inv := x.inv }
            let k' := nodeUpd k' n fun x => { x with held := [h], ntake := x.ntake + 1 }
            agRead (putCast s n k') f n k' h
          else if !roomFor k' n (targetsOf f) then s
          else if isMarker a then passMarker s n f k' a
          else putCast s n (emitTo k' n (targetsOf f) a)

/-! ## Curd allocation and sealing (11/R280, R281) -/

/-- The request word of a billet; none when it is malformed. -/
def requestWord (f : FWord) (b : Billet) : Option Nat :=
  if bit f.imm.toNat 18 then
    let w := fieldOf b.data f.fa.toNat
    if bits w 31 18 ≠ 0 ∨ bits w 11 0 = 0 then none else some w
  else some (bits f.imm.toNat 17 0)

/-- Ask for the curd of the billet at the head (07/R163): grant and emit, start page-outs, or wait.
(DEDUCED, log 52.) -/
def tryAlloc (s : State) (f : FWord) (n : NodeRef) (k : CastLive) (a : Billet) : State :=
  let c := n.cast / 256
  match requestWord f a with
  | none => nodeStop s n ⟨cCurd, 7, none, 0⟩
  | some w =>
    let pages := bits w 16 12 + 1
    let reserved := decide (k.resHeld + pages ≤ k.depth)
    if !partFor s c k.part k.asid then nodeStop s n ⟨cCurd, 2, none, 0⟩
    else
      match testGrant s c k.part pages reserved with
      | .refused => s
      | .short m => startPageOuts s c m
      | .granted i =>
        let r := allocCurd s c (nodeCore k n) i k.part pages (bits w 11 0) (bit w 17) k.launch k.loader
          (some (castRef s n.cast, (nodeAt k n).inv)) reserved
        updCast (r.1.fire n) n.cast fun k =>
          let k := takeA { k with resHeld := if reserved then k.resHeld + pages else k.resHeld } n
          emitTo k n (targetsOf f) { a with data := setField a.data f.fd.toNat r.2 }

/-- A turn of `c.alloc`, which fires once in a cycle (09/R214). -/
def allocTurn (s : State) (f : FWord) (n : NodeRef) (k : CastLive) : State :=
  if s.fired.contains n then s
  else
    match headA k n with
    | none => s
    | some a =>
      let k' := takeA k n
      if !roomFor k' n (targetsOf f) then s
      else if isMarker a then passMarker (s.fire n) n f k' a
      else if isData a ∧ pmHolds f a.tag then tryAlloc s f n k a
      else putCast (s.fire n) n (emitTo k' n (targetsOf f) a)

/-- `c.alloc`. -/
def execCAlloc (f : FWord) (s : State) : Answer := atNode s fun n k => allocTurn s f n k

/-- CURD_GRANT: a waiting request is granted, in a cycle that steps the node's context (09/R214). -/
def execCurdGrant (n : NodeRef) (s : State) : Answer :=
  .next (
    match (castSlot s n.cast).live, nodeInstr s n with
    | some k, some (.cAlloc f) =>
      if steppedNow s k n ∧ nodeActs k n ∧ ((headA k n).any fun a => isData a && pmHolds f a.tag) then
        allocTurn s f n k
      else s
    | _, _ => s)

/-- Stores of a casting to the host window that have not completed. -/
def hostStores (s : State) (cid : Nat) (k : CastLive) : Bool :=
  k.nodes.any fun e =>
    (e.2.held.any fun h => h.st = .atHost) &&
    match nodeInstr s ⟨cid, e.1 / 128, e.1 % 128⟩ with
    | some (.stG _) => true
    | _ => false

/-- The release of a `c.seal` at `system` scope over X waits for the casting's stores to the host window (07/R169, 14/R341). -/
def sealWaits (s : State) (f : FWord) (cid : Nat) (k : CastLive) : Bool :=
  bits f.imm.toNat 2 0 = 6 && bit f.imm.toNat 6 && hostStores s cid k

/-- Keys of the `st.c` nodes of a casting. -/
def storeCurdNodes (k : CastLive) : List Nat :=
  (nodeKeys k).filter fun key =>
    match (k.blocks[key / 128]?).bind fun b => b.code[key % 128]? with
    | some w => bits w.toNat 63 56 = 0xA9
    | none => false

/-- Commit the recorded seals (07/R169): curds no longer current are passed over. (DEDUCED, log 52.) -/
def commitSeals (s : State) (n : NodeRef) (hs : List W32) : State :=
  hs.foldl (fun s h => match currentCurd s h.toNat with
    | some _ => sealCurd s (n.cast / 256) (chIndex h.toNat)
    | none => s) s

/-- `c.seal`. -/
def execCSeal (f : FWord) (s : State) : Answer :=
  atNode s fun n k =>
    match headA k n with
    | none => s
    | some a =>
      let k' := takeA k n
      let x := nodeAt k n
      if !roomFor k' n (targetsOf f) then s
      else if isMarker a then
        if ((storeCurdNodes k).all fun j => x.inv < (nodeOf k j).inv) ∧ !sealWaits s f n.cast k then
          match x.seals.find? fun h => (currentCurd s h.toNat).any (·.isSealed) with
          | some h => nodeStop s n ⟨cCurd, 5, some (h.zeroExtend 64), 0⟩
          | none =>
            passMarker (commitSeals s n x.seals) n f (nodeUpd k' n fun x => { x with seals := [] }) a
        else s
      else if isData a ∧ pmHolds f a.tag then
        let h := BitVec.ofNat 32 (fieldOf a.data f.fa.toNat)
        match curdAt s (n.cast / 256) k.asid h.toNat with
        | .error e => nodeStop s n e
        | .ok u =>
          if u.isSealed then nodeStop s n ⟨cCurd, 5, some (h.zeroExtend 64), 0⟩
          else if x.seals.contains h then putCast s n (emitTo k' n (targetsOf f) a)
          else if 64 ≤ x.seals.length then nodeStop s n ⟨cCast, 9, none, 0⟩
          else
            let k' := nodeUpd k' n fun x => { x with seals := x.seals ++ [h] }
            putCast s n (emitTo k' n (targetsOf f) a)
      else putCast s n (emitTo k' n (targetsOf f) a)

end Sys2Proof.Machine
end

