-- ==== Sys2Proof/Machine/RowMath.lean ====
section
/-! DEFINITION. The arithmetic of matrix islands: modes and A rows (12/R289, R290), the sums of a row fire (03/R71-R73,
12/R295) and the operations of `mx.acc` (12 Table 12.9). -/

namespace Sys2Proof.Machine

/-! ## Modes -/

/-- AFMT of a mode word (12 Table 12.2). -/
def mdA (w : Nat) : Nat := bits w 3 0
/-- BFMT. -/
def mdB (w : Nat) : Nat := bits w 7 4
/-- ACC. -/
def mdAcc (w : Nat) : Nat := bits w 9 8
/-- SP. -/
def mdSp (w : Nat) : Nat := bits w 12 10
/-- SAT. -/
def mdSat (w : Nat) : Bool := bit w 13
/-- REL. -/
def mdRel (w : Nat) : Bool := bit w 15

/-- A mode word is valid (12/R289, Table 12.3). -/
def modeOk (w : Nat) : Bool :=
  if mdRel w then w = 0x8000
  else
    let a := mdA w
    let b := mdB w
    bits w 63 16 = 0 && !bit w 14 && mdSp w ≤ 4 &&
    (((a = 11 || a = 12) && (b = 11 || b = 12) && mdAcc w = 0) || (a = 0 && b = 0 && mdAcc w ≠ 3) ||
     (a = 10 && b = 10 && mdAcc w = 0 && mdSp w = 0) || (a = 13 && b = 13 && mdAcc w = 0))

/-- G of a packing, 0 for a dense one (12/R289). -/
def groupsOf (sp : Nat) : Nat := if sp = 0 then 0 else 256 / packN sp

/-- Elements of an A row, K′. -/
def rowElems (sp : Nat) : Nat := if sp = 0 then 256 else 12 * groupsOf sp

/-- The A-row length L of a mode (12/R290, Table 12.4). -/
def rowLen (w : Nat) : Nat :=
  let k := rowElems (mdSp w)
  let n := k * widthOf (mdA w) / 8 + if mdA w = 13 then (k + 31) / 32 else 0
  (n + 31) / 32 * 32

/-! ## Elements -/

/-- Element k of packed bytes (12/R290, R292). -/
def elemAt (fmt : Nat) (l : Array Byte) (k : Nat) : FVal :=
  let byte := fun i => (l.getD i 0).toNat
  match fmt with
  | 0 => intV (sOf 8 (byte k))
  | 10 => flBf16.unpack (byte (2 * k) + 256 * byte (2 * k + 1))
  | 11 => flE4m3.unpack (byte k)
  | 12 => flE5m2.unpack (byte k)
  | _ => flE2m1.unpack (byte (k / 2) / 16 ^ (k % 2) % 16)

/-- A datum times a scale; a NaN scale gives a NaN, which signals if the datum did (03/R48). -/
def scaleV (x : Option Int) (v : FVal) : FVal :=
  match x, v with
  | none, .nan s => .nan s
  | none, _ => .nan false
  | some d, .fin n m e => .fin n m (e + d)
  | some _, v => v

/-- The elements of an A row, an MXFP4 element times its block scale (03/R71). -/
def rowVals (w : Nat) (bytes : List Byte) : Array FVal :=
  let a := bytes.toArray
  let k := rowElems (mdSp w)
  ((List.range k).map fun i =>
    let v := elemAt (mdA w) a i
    if mdA w = 13 then scaleV (scaleExp (a.getD (k / 2 + i / 32) 0).toNat) v else v).toArray

/-- Set bits of a mask's positions 11:0, in ascending order. -/
def maskBits (m : Nat) : List Nat := (List.range 12).filter fun i => bit m i

/-- A mask that contributes products (12/R292). -/
def groupMaskOk (n : Nat) (m : Nat) : Bool := m / 4096 = 0 && (maskBits m).length = n

/-- The (A, B) index pairs of a column's products, in ascending order (12/R292). -/
def pairsOf (sp : Nat) (masks : List Half) : List (Nat × Nat) :=
  if sp = 0 then (List.range 256).map fun k => (k, k)
  else
    let n := packN sp
    (masks.zipIdx.map fun x =>
      if groupMaskOk n x.1.toNat then (maskBits x.1.toNat).zipIdx.map fun c => (12 * x.2 + c.1, x.2 * n + c.2) else []).flatten

/-! ## Sums -/

/-- Add products one after another, exactly, from +0 (03/R71, R73). Infinities of both signs among them set NV, also where a NaN
stands before them. -/
def sumV (l : List (FVal × Flags)) : FVal × Flags :=
  let r := l.foldl (fun t p =>
    let r := addV 0 t.1 p.1
    (r.1, t.2 ||| p.2 ||| r.2)) (.fin false 0 0, 0)
  (r.1, r.2 ||| flagIf ((l.any fun p => p.1 = .inf false) && l.any fun p => p.1 = .inf true) fNV)

/-- acc := Round(acc + S, FP32, RNE). -/
def accAdd (acc : W32) (v : FVal) (fl : Flags) : W32 × Flags :=
  let x := addV 0 (flFp32.unpack acc.toNat) v
  let r := storeFl flFp32 0 false 1 x.1 (x.2 ||| fl)
  (BitVec.ofNat 32 r.bits, r.fl)

/-- A datum truncated toward zero to a multiple of 2^q. -/
def truncV (q : Int) : FVal → FVal
  | .fin n m e => if e < q then .fin n (m / 2 ^ (q - e).toNat) q else .fin n m e
  | v => v

/-- One group of a BF16 fire (03/R73). -/
def groupFire (acc : W32) (ps : List (FVal × Flags)) : W32 × Flags :=
  if ps.all fun p => p.1.isZero then (acc, 0)
  else
    match maxExp (ps.map (·.1)) with
    | none =>
      let s := sumV ps
      accAdd acc s.1 s.2
    | some e =>
      let s := sumV (ps.map fun p => (truncV (e - 58) p.1, p.2))
      accAdd acc s.1 s.2

/-- The groups in order, each with its own rounding. -/
def groupsFire : List (List (FVal × Flags)) → W32 → W32 × Flags
  | [], acc => (acc, 0)
  | g :: r, acc =>
    let x := groupFire acc g
    let y := groupsFire r x.1
    (y.1, x.2 ||| y.2)

/-- The integer of an INT8 element. -/
def intOfV : FVal → Int
  | .fin n m e => scaledTo 0 n m e
  | _ => 0

/-- One column of a row fire (12/R295): the accumulator word and the flags; `sigma` is the column scale, and under `0xFF` the
sum is a NaN whatever the column's products are. -/
def columnFire (w : Nat) (a : Array FVal) (b : Nat → FVal) (pairs : List (Nat × Nat)) (sigma : Byte) (acc : W32) :
    W32 × Flags :=
  if mdAcc w = 0 then
    let ps := pairs.map fun p => mulV (a.getD p.1 (.fin false 0 0)) (scaleV (scaleExp sigma.toNat) (b p.2))
    if mdA w = 10 then groupsFire (chunks 16 17 ps) acc
    else
      let s := sumV ps
      accAdd acc (if (scaleExp sigma.toNat).isNone then .nan false else s.1) s.2
  else
    let s := pairs.foldl (fun t p => t + intOfV (a.getD p.1 (.fin false 0 0)) * intOfV (b p.2)) (0 : Int)
    if mdAcc w = 1 then
      let t := sOf 32 acc.toNat + s
      (BitVec.ofNat 32 (wrapN 32 (if mdSat w then clampInt (intLo 32 true) (intHi 32 true) t else t)), 0)
    else
      let x := rnsRead acc.toNat
      (BitVec.ofNat 32 (rnsOp (· + ·) x.1 (rnsEnc false s)), flagIf x.2 fRV)

/-- An operation of `mx.acc` on one word (12 Table 12.9). -/
def accWord (op : Nat) (fill : W32) (w : W32) : W32 × Flags :=
  match op with
  | 0 => (0, 0)
  | 1 => (fill, 0)
  | 2 =>
    let x := rnsRead w.toNat
    (BitVec.ofNat 32 (wrapN 32 (rnsDec x.1)), flagIf x.2 fRV)
  | _ =>
    let r := toFl flFp32 0 false 1 (intV (sOf 32 w.toNat))
    (BitVec.ofNat 32 r.bits, r.fl)

end Sys2Proof.Machine
end

