-- ==== Sys2Proof/Machine/Islands.lean ====
section
/-! DEFINITION. Matrix islands: holding and pre-empting them (12/R287, R288, R299, R304), the island order (11/R282), the
`mx` instructions (12/R301-R309), the performance of items (12/R293-R298, R300) and the island nodes (11/R283, R284). -/

namespace Sys2Proof.Machine

/-! ## Who holds an island -/

/-- An accepted REL item waits to be performed (12/R304). -/
def relPending (x : Island) : Bool :=
  x.order.any fun y => match y.it with
    | .mode w => mdRel w.toNat
    | _ => false

/-- The launch holds the island (12/R287, R304). -/
def holdsIsland (x : Island) (l : LaunchRef) : Bool :=
  match x.hold with
  | .held h _ => h = l && !relPending x
  | _ => false

/-- The island's channel has a free slot (11/R282). -/
def islandRoom (x : Island) : Bool := x.order.length < 8

/-- L of the accepted mode (12/R290). -/
def acceptedLen (x : Island) : Nat :=
  match x.accepted with
  | some w => rowLen w.toNat
  | none => 256

/-- The rank of a source among those whose items reach an island in one cycle (11/R282): its core, then the thread before the
nodes, then block and slot. -/
def srcRank (s : State) (src : ItemSrc) : Nat :=
  match src with
  | .thread _ core => core * 2 ^ 20
  | .node n _ _ _ =>
    let core := match (castSlot s n.cast).live with
      | some k => nodeCore k n
      | none => 0
    core * 2 ^ 20 + (1 + nodeKey n) * 256 + n.cast % 256

/-- Enter an item into an order: behind every item, but before those of the same cycle with a higher rank. -/
def enterOrder (y : ItemIn) : List ItemIn → List ItemIn
  | [] => [y]
  | z :: r => if z.at' = y.at' ∧ y.rank < z.rank then y :: z :: r else z :: enterOrder y r

/-- Accept an item into an island's order (11/R282). -/
def acceptItem (s : State) (c i : Nat) (src : ItemSrc) (it : Item) : State :=
  s.updIsland c i fun x => { x with order := enterOrder ⟨src, it, s.cycle, srcRank s src⟩ x.order }

/-! ## Pre-emption (12/R299) -/

/-- Move a thread to a restart label at its next instruction boundary; an idle one, in its next handler. (DEDUCED, log 53.) -/
def moveToLabel (label : Word) (t : Thread) : Thread :=
  match t.saved with
  | some c =>
    let v := { t with depth := c.depth, base := c.base }
    { t with
      epc := label, saved := some { c with pc := label, loops := popLoops v label c.loops }
      relabel := if c.depth = 0 then some label else t.relabel }
  | none => if t.running then transfer t label else { t with relabel := some label }

/-- The castings that had an item in the order or a snapshot in the link, each once. -/
def castsFeeding (s : State) (x : Island) : List Nat :=
  let items := x.order.filterMap fun y => match y.src, y.it with
    | .node n gen _ _, _ => if (castSlot s n.cast).gen = gen then some n.cast else none
    | _, _ => none
  (items ++ x.link.map (·.node.cast)).eraseDups

/-- Pre-empt an island's holder for a class-0 launch. Where the restart thread has finished, nobody is moved and no fault is sent:
an island with a restart label is not lost (DESIGN CHOICE, log 81). -/
def preemptIsland (s : State) (c i : Nat) (forL : LaunchRef) : State :=
  let x := s.island c i
  match x.hold with
  | .held l by' =>
    let casts := castsFeeding s x
    let s := resetIsland (s.updIsland c i fun x => { x with link := [] }) c i (.forClass0 (some forL))
    let s := match x.rlbl with
      | some (label, r) => updByRef s r (moveToLabel label)
      | none =>
        sendFault s (if (threadByRef s by').isSome then by' else orLowest s ⟨l, by'.rank⟩) srcIsland
          ⟨cIsland, 5, none, 0⟩ (BitVec.ofNat 64 i) none
    casts.foldl forceCasting s
  | _ => s

/-! ## Tiles (12/R291-R293) -/

/-- Bytes of a column's values; an odd number of 4-bit values ends within a byte. -/
def tileVB (d : TileDesc) : Nat :=
  let n := if d.sp = 0 then 256 else groupsOf d.sp.toNat * packN d.sp.toNat
  (n * widthOf d.bfmt.toNat + 7) / 8

/-- Bytes of a column's masks. -/
def tileMB (d : TileDesc) : Nat := 2 * groupsOf d.sp.toNat

/-- The descriptor of 512 bits, in a handle. -/
def tileDescOf (hk : Handle) (d : Nat) : TileDesc :=
  ⟨hk, bits d 63 0, bits d 127 64, bits d 159 128, bits d 191 160, BitVec.ofNat 4 (bits d 195 192),
    BitVec.ofNat 3 (bits d 198 196)⟩

/-- A descriptor breaks 12 Table 12.5. -/
def tileBad (d : Nat) (t : TileDesc) : Bool :=
  bits d 511 199 ≠ 0 || t.bfmt = 15 || 4 < t.sp.toNat || t.voff % 64 ≠ 0 || t.moff % 64 ≠ 0 || t.kstr % 64 ≠ 0 ||
  t.mstr % 64 ≠ 0 || t.kstr < tileVB t ||
  (if t.sp = 0 then t.moff ≠ 0 || t.mstr ≠ 0 else t.mstr < tileMB t)

/-- The value range of column j. -/
def valueRange (d : TileDesc) (j : Nat) : Nat × Nat := (d.voff + j * d.kstr, tileVB d)
/-- The mask range of column j. -/
def maskRange (d : TileDesc) (j : Nat) : Nat × Nat := (d.moff + j * d.mstr, tileMB d)

/-- The value ranges of a tile. -/
def valueRanges (d : TileDesc) : List (Nat × Nat) := (List.range 128).map (valueRange d)
/-- Its value and mask ranges. -/
def tileRanges (d : TileDesc) : List (Nat × Nat) :=
  valueRanges d ++ if d.sp = 0 then [] else (List.range 128).map (maskRange d)

/-- Virtual line numbers of a range of a handle. -/
def lineNos (h : Handle) (r : Nat × Nat) : List Nat :=
  let a := h.base.toNat + r.1
  (List.range ((a + r.2 + 63) / 64 - a / 64)).map (a / 64 + ·)

/-- How the translation of a tile's lines ends: all are mapped, one lies outside local device memory, or one faults. -/
inductive MapEnd where
  | mapped
  | outside
  | fails (e : Exn)
  deriving DecidableEq, Repr

/-- Translate the lines of a tile that are not translated yet (12/R293), in order, up to the first that faults (12 Table 12.7), or
that lies outside local device memory: a later line whose translation would fault is not reached (DESIGN CHOICE, log 81). -/
def mapLines (asid : BitVec 14) : State → Tab Nat → List Nat → State × Tab Nat × MapEnd
  | s, m, [] => (s, m, .mapped)
  | s, m, l :: r =>
    if (tabFind m l).isSome then mapLines asid s m r
    else
      match translate s asid (64 * l) .load with
      | .error e => (s, m, .fails e)
      | .ok (.dev pa) => mapLines asid (noteWalk s [] asid (64 * l)) (tabPut m l (pa / 64)) r
      | .ok _ => (s, m, .outside)

/-- A pin request that 05/R104 refuses: lines on both dies, or more than 1,024. -/
def pinRefused (m : Tab Nat) : Bool :=
  let ls := (m.map (·.2)).eraseDups
  decide (1024 < ls.length) || ls.any fun l => dieOf (64 * l) ≠ dieOf (64 * ls.headD 0)

/-- Send the pin request of a tile whose lines are mapped (05/R104, R105). -/
def requestPins (s : State) (c i : Nat) (t : Tile) : State :=
  let s := s.updIsland c i fun x => { x with pending := some t }
  if t.refused then s
  else
    let die := dieOf (64 * t.lines.headD 0)
    let s := s.updDie die fun y => { y with waiting := y.waiting ++ [⟨c, i, t.lines⟩] }
    grantWaiting die ((s.die die).waiting.length) s

/-- Fetch a tile's translations, going on from those that it has, and send its pin request (12/R293); an error is the fault of
a line, which stays the next to be translated. -/
def fetchTile (s : State) (c i : Nat) (asid : BitVec 14) (d : TileDesc) : State × Option Exn :=
  let had := match (s.island c i).pending with
    | some t => t.vmap
    | none => []
  match mapLines asid s had ((tileRanges d).map (lineNos d.hk)).flatten with
  | (s, m, .fails e) => (s.updIsland c i fun x => { x with pending := some { desc := d, vmap := m } }, some e)
  | (s, m, .outside) =>
    (requestPins s c i { desc := d, vmap := m, mapped := true, refused := true }, none)
  | (s, m, .mapped) =>
    (requestPins s c i { desc := d, vmap := m, mapped := true, refused := pinRefused m }, none)

/-- The physical address of a byte of a tile. -/
def tilePa (t : Tile) (va : Nat) : Nat := 64 * tabGet t.vmap (va / 64) 0 + va % 64

/-- Bytes of a range of a tile, as an agent of the holding launch reads them. -/
def tileBytes (s : State) (ag : Agent) (t : Tile) (r : Nat × Nat) : List Byte :=
  (List.range r.2).map fun o => (agentBytes s ag (tilePa t (t.desc.hk.base.toNat + r.1 + o)) 1).headD 0

/-- The side-band scales of a column's values, one for each 16 bytes and one for a last part of 16 bytes. Where the column
does not begin at a multiple of 16 bytes of memory, 12/R292's "block that holds the value" and "covers rows 32c to 32c + 31"
part: each run of 32 values takes the scale of the block that holds the run's first byte (DESIGN CHOICE, log 77). -/
def tileScales (s : State) (t : Tile) (r : Nat × Nat) : List Byte :=
  (List.range ((r.2 + 15) / 16)).map fun b =>
    let pa := tilePa t (t.desc.hk.base.toNat + r.1 + 16 * b)
    ((sideScales s (pa / 64)).getD []).getD (pa % 64 / 16) 0

/-- The halves of a byte list. -/
def halvesOf : List Byte → List Half
  | a :: b :: r => BitVec.ofNat 16 (a.toNat + 256 * b.toNat) :: halvesOf r
  | _ => []

/-- Load one column. -/
def loadColumn (s : State) (ag : Agent) (t : Tile) (j : Nat) : TileCol :=
  let v := valueRange t.desc j
  { vals := tileBytes s ag t v
    masks := if t.desc.sp = 0 then [] else halvesOf (tileBytes s ag t (maskRange t.desc j))
    scales := if t.desc.bfmt = 13 then tileScales s t v else [] }

/-- Under MXFP4, a value line outside a scaled window's view (12/R292). -/
def tileUnscaled (s : State) (t : Tile) : Bool :=
  t.desc.bfmt = 13 && (((valueRanges t.desc).map (lineNos t.desc.hk)).flatten).any fun l =>
    (sideScales s (tabGet t.vmap l 0)).isNone

/-- A line that the tile's bytes or scales are read from holds an uncorrectable error (17/R403). -/
def tileBadLine (s : State) (ag : Agent) (t : Tile) : Bool :=
  (t.lines.any fun l => agentBad s ag (64 * l) 64) ||
  t.desc.bfmt = 13 && (((valueRanges t.desc).map (lineNos t.desc.hk)).flatten).any fun l => scalesBad s (tabGet t.vmap l 0)

/-- The agent that an island is, for its holding launch. -/
def islandAgent (s : State) (c : Nat) (x : Island) : Agent :=
  match x.hold with
  | .held l _ => ⟨((launchOf s l).map (·.record.asid)).getD 0, c, 0, some l, false⟩
  | _ => ⟨0, c, 0, none, false⟩

/-- TILE_LOAD_COMPLETE: the pinned tile is loaded, its invalid masks counted (12/R292, R293). -/
def execTileLoadComplete (cl i : Nat) (s : State) : Answer :=
  let x := s.island cl i
  .next (
    match x.pending with
    | none => s
    | some t =>
      if !t.granted ∨ t.loaded ∨ tileUnscaled s t ∨ tileBadLine s (islandAgent s cl x) t then s
      else
        let cols := (List.range 128).map (loadColumn s (islandAgent s cl x) t)
        let n := packN t.desc.sp.toNat
        let bad := sumNat (cols.map fun k => (k.masks.filter fun m => !groupMaskOk n m.toNat).length)
        let die := dieOf (64 * t.lines.headD 0)
        countInvalid (s.updIsland cl i fun x => { x with pending := some { t with loaded := true, cols := cols } }) die bad)

/-! ## Instructions (12/R301-R309) -/

/-- Issue an island instruction: a name outside the frame traps first (DESIGN CHOICE, log 81), and the *owner* test comes before
every operand is read (12/R301; DEDUCED, log 53). -/
def issueIsland (s : State) (i : BitVec 3) (names : List Reg) (body : Nat → Thread → Except Exc State) : Answer :=
  issue s names fun key t =>
    if holdsIsland (s.island (keyCluster key) i.toNat) t.ref.l then body key t else trapWith cIsland 0

/-- The source of a thread's items. (DEDUCED, log 53.) -/
def threadSrc (key : Nat) (t : Thread) : ItemSrc := .thread t.ref (keyCore key)

/-- Place an item, or answer that no slot is free. -/
def placeItem (s : State) (key : Nat) (t : Thread) (i : BitVec 3) (p : BitVec 3) (it : Item) : State :=
  let c := keyCluster key
  if islandRoom (s.island c i.toNat) then
    acceptItem (s.setThread key (writeP t p true)) c i.toNat (threadSrc key t) it
  else s.setThread key (writeP t p false)

/-- A bind item is not yet performed, or a tile is pending (12/R302). -/
def bindPending (x : Island) : Bool :=
  x.pending.isSome || x.order.any fun y => match y.it with
    | .bind _ => true
    | _ => false

/-- `mx.bind` (12/R302): the descriptor is read before its alignment is judged. -/
def execMxBind (a : Src) (h : BitVec 4) (p : BitVec 3) (i : BitVec 3) (s : State) : Answer :=
  issueIsland s i [a.reg] fun key t => do
    let c := keyCluster key
    let x ← readSrc t a
    let hk := readH t h
    let off := some (BitVec.ofInt 64 x.toInt)
    let va ← liftE (checkHandle hk x.toInt 64 rRX t.asid)
    let (b, s) ← readIssue s (threadAgent key t) va (64 - va % 64)
    let d := tileDescOf hk (leNat b)
    if va % 64 ≠ 0 ∨ tileBad (leNat b) d then trapWith cDesc 0 off
    else
      let _ ← liftE (mapE (fun (r : Nat × Nat) => checkHandle hk r.1 r.2 rRX t.asid) (tileRanges d))
      let isl := s.island c i.toNat
      if bindPending isl ∨ !islandRoom isl then pure (s.setThread key (writeP t p false))
      else
        pure (fetchTile (acceptItem (s.setThread key (writeP t p true)) c i.toNat (threadSrc key t) (.bind d)) c i.toNat
          t.asid d).1

/-- `mx.scale` (12/R303). -/
def execMxScale (a : Src) (h : BitVec 4) (p : BitVec 3) (i : BitVec 3) (s : State) : Answer :=
  issueIsland s i [a.reg] fun key t => do
    let x ← readSrc t a
    let va ← liftE (checkHandle (readH t h) x.toInt 128 rR t.asid)
    let (b, s) ← readIssue s (threadAgent key t) va 128
    pure (placeItem s key t i p (.scale b))

/-- The class of a launch. -/
def classOf (s : State) (l : LaunchRef) : BitVec 2 := ((launchOf s l).map (·.record.cls)).getD 0

/-- A class-0 launch may take the island from its holder (12/R304), at a boundary point of each draining casting that feeds it
(17/R398). -/
def mayTake (s : State) (c i : Nat) (t : Thread) (w : Nat) : Bool :=
  t.cls = 0 && !mdRel w && i < resIslands s && islandPreemptable s c i &&
  (match (s.island c i).hold with
   | .held l _ => classOf s l ≠ 0
   | _ => false)

/-- `mx.mode` with a valid word. -/
def claimMode (s : State) (key : Nat) (t : Thread) (p : BitVec 3) (i : Nat) (w : Word) : State :=
  let c := keyCluster key
  let no := fun (s : State) => s.setThread key (writeP t p false)
  let x := s.island c i
  let waits := match x.hold with
    | .held l _ => decide (l = t.ref.l) && relPending x
    | .forClass0 _ => decide (t.cls ≠ 0)
    | .free => false
  if waits then no s
  else
    let s := if mayTake s c i t w.toNat then preemptIsland s c i t.ref.l else s
    let x := s.island c i
    let mine := match x.hold with
      | .held l _ => decide (l = t.ref.l)
      | _ => false
    let other := match x.hold with
      | .held l _ => decide (l ≠ t.ref.l)
      | _ => false
    if other ∨ (!mine ∧ mdRel w.toNat) ∨ !islandRoom x then no s
    else
      let s := if mine then s else resetIsland s c i (.held t.ref.l t.ref)
      let s := acceptItem (s.setThread key (writeP t p true)) c i (threadSrc key t) (.mode w)
      if mdRel w.toNat then s else s.updIsland c i fun x => { x with accepted := some w }

/-- `mx.mode` (12/R304). -/
def execMxMode (a : Src) (p : BitVec 3) (i : BitVec 3) (s : State) : Answer :=
  issue s [a.reg] fun key t => do
    let w ← readSrc t a
    if modeOk w.toNat then pure (claimMode s key t p i.toNat w) else trapWith cIsland 6

/-- `mx.fire` (12/R305). -/
def execMxFire (d : Reg) (a : Src) (p : BitVec 3) (i : BitVec 3) (s : State) : Answer :=
  issueIsland s i [d, a.reg] fun key t => do
    let x ← readSrc t a
    let w ← readField t d
    let off := bits x.toNat 21 0
    let count := bits w.toNat 16 9 + 1
    let len := acceptedLen (s.island (keyCluster key) i.toNat)
    if bits w.toNat 63 17 ≠ 0 ∨ bits x.toNat 63 32 ≠ 0 ∨ off % 32 ≠ 0 ∨ 256 < bits w.toNat 7 0 + count ∨
        2 ^ 22 < off + count * len then trapWith cIsland 6
    else
      pure (placeItem s key t i p
        (.fire (BitVec.ofNat 32 x.toNat) (BitVec.ofNat 9 (bits w.toNat 8 0)) count 0))

/-- `mx.acc` (12/R306). -/
def execMxAcc (d : Reg) (a : Src) (p : BitVec 3) (i : BitVec 3) (s : State) : Answer :=
  issueIsland s i [d, a.reg] fun key t => do
    let w ← readSrc t a
    let v ← readField t d
    let op := bits w.toNat 1 0
    let count := bits w.toNat 18 11 + 1
    if bits w.toNat 63 19 ≠ 0 ∨ (op = 1 ∧ bits v.toNat 63 32 ≠ 0) ∨ 256 < bits w.toNat 9 2 + count then trapWith cIsland 6
    else
      pure (placeItem s key t i p
        (.acc op (BitVec.ofNat 9 (bits w.toNat 10 2)) count (BitVec.ofNat 32 v.toNat)))

/-- `mx.rlbl` (12/R307). -/
def execMxRlbl (i : BitVec 3) (o : BitVec 21) (s : State) : Answer :=
  issueIsland s i [] fun key t =>
    .ok (s.updIsland (keyCluster key) i.toNat fun x => { x with rlbl := some (branchTarget t.pc o, t.ref) })

/-- Discard the item at the head of the order; with a bind item goes its tile. -/
def dropHead (s : State) (c i : Nat) : State :=
  let x := s.island c i
  match x.order with
  | [] => s
  | y :: r =>
    let s := s.updIsland c i fun x => { x with order := r }
    match y.it with
    | .bind _ =>
      let s := withdrawPin s c i
      let s := s.updIsland c i fun x => { x with pending := none }
      match x.pending with
      | some t => unpinTile s t
      | none => s
    | _ => s

/-- Clear an island's halt, discarding the item that raised it where 12 Table 12.7 says so. -/
def clearHalt (s : State) (c i : Nat) : State :=
  let x := s.island c i
  let s := s.updIsland c i fun x => { x with halt := false, discard := false }
  if x.halt ∧ x.discard then dropHead s c i else s

/-- `mx.drain` (12/R308). -/
def execMxDrain (p : BitVec 3) (i : BitVec 3) (s : State) : Answer :=
  issueIsland s i [] fun key t =>
    let s := clearHalt s (keyCluster key) i.toNat
    let x := s.island (keyCluster key) i.toNat
    .ok (s.setThread key (writeP t p (x.order.isEmpty && x.link.isEmpty)))

/-- `mx.unpin` (12/R309). -/
def execMxUnpin (p : BitVec 3) (i : BitVec 3) (s : State) : Answer :=
  issueIsland s i [] fun key t => .ok (placeItem s key t i p .unpin)

/-! ## Performing items (12/R294, R296, R300) -/

/-- Markers at the head are performed as no-ops. -/
def dropMarkers : List ItemIn → List ItemIn
  | [] => []
  | y :: r => match y.it with
    | .marker => dropMarkers r
    | _ => y :: r

/-- Perform the head item, if the island is not halted and its downstream link has a free slot. -/
def performHead (s : State) (c i : Nat) (body : State → Island → ItemIn → State) : Answer :=
  let x := s.island c i
  .next (
    if x.halt ∨ 8 ≤ x.link.length then s
    else
      let s := s.updIsland c i fun x => { x with order := dropMarkers x.order }
      match dropMarkers x.order with
      | [] => s
      | y :: _ => body s (s.island c i) y)

/-- The head item has been performed. -/
def popHead (s : State) (c i : Nat) : State := s.updIsland c i fun x => { x with order := x.order.drop 1 }

/-- An island fault: the island halts, and the fault goes to the issuer of the item, or to the thread that loaded the
casting of its node (12/R300). -/
def islandFault (s : State) (c i : Nat) (src : ItemSrc) (e : Exn) (discard : Bool) : State :=
  let s := s.updIsland c i fun x => { x with halt := true, discard := discard }
  let r := match src with
    | .thread t _ => t
    | .node _ _ loader _ => loader
  sendFault s r srcIsland e (BitVec.ofNat 64 i) none

/-- Flags of a fire go to the issuing thread or to the node's casting (12/R295). -/
def flagItem (s : State) (src : ItemSrc) (f : Flags) : State :=
  match src with
  | .thread t _ => flagThread s t f
  | .node n gen _ inv => if (castSlot s n.cast).gen = gen then flagCast s n.cast inv f else s

/-- Fire one row, every column (12/R295). -/
def fireRow (x : Island) (w : Nat) (t : Tile) (bytes : List Byte) (sel : Nat) : Island × Flags :=
  let a := rowVals w bytes
  let one := fun (st : Tab W32 × Flags) (j : Nat) =>
    let col := t.cols.getD j ⟨[], [], []⟩
    let arr := col.vals.toArray
    let b := fun k =>
      let v := elemAt (mdB w) arr k
      if mdB w = 13 then scaleV (scaleExp (col.scales.getD (k / 32) 0).toNat) v else v
    let key := 128 * sel + j
    let r := columnFire w a b (pairsOf (mdSp w) col.masks) (tabGet x.sigma j 0x7F) (tabGet st.1 key 0)
    (tabPut st.1 key r.1, st.2 ||| r.2)
  let r := (List.range 128).foldl one (x.acc, 0)
  ({ x with acc := r.1 }, r.2)

/-- Half-cycles that a row occupies its island for (12/R294, 01 Table 1.2): under MXFP4 one, under BF16 four, else two. -/
def rowSlots (w : Nat) : Nat := if mdA w = 13 then 1 else if mdA w = 10 then 4 else 2

/-- The island may fire a row in the present cycle: it has not fired its one row, or its two under MXFP4, and no row of BF16 is
still in its second cycle. -/
def slotFree (w cycle slot : Nat) : Bool := decide (slot ≤ 2 * cycle + (if rowSlots w = 1 then 1 else 0))

/-- The half-cycle from which the next row may fire. -/
def nextSlot (w cycle slot : Nat) : Nat := Nat.max slot (2 * cycle) + rowSlots w

/-- What keeps a row from firing (12 Table 12.7). -/
def rowFault (x : Island) : Option Exn :=
  match x.mode, x.cur with
  | none, _ => some ⟨cIsland, 1, none, 0⟩
  | some _, none => some ⟨cIsland, 3, none, 0⟩
  | some w, some t =>
    if t.desc.bfmt.toNat ≠ mdB w.toNat ∨ t.desc.sp.toNat ≠ mdSp w.toNat then some ⟨cIsland, 1, none, 0⟩ else none

/-- A row of the accumulators that an item reads holds an uncorrectable error: the item raises the data error and is discarded
(17/R403, DEDUCED, log 19). -/
def rowError (s : State) (c i : Nat) (x : Island) (src : ItemSrc) (rows : List Nat) (go : State) : State :=
  if rows.any fun r => x.badRows.contains r then islandFault s c i src ⟨cData, 0, none, 0⟩ true else go

/-- Fire a row whose bytes are present; `done` finishes it. -/
def fireWith (s : State) (c i : Nat) (x : Island) (src : ItemSrc) (bytes : List Byte) (sel : Nat)
    (done : State → State) : State :=
  match x.mode, x.cur with
  | some w, some t =>
    let r := fireRow x w.toNat t bytes sel
    rowError s c i x src [sel] <|
      done (flagItem (s.updIsland c i fun _ => { r.1 with slot := nextSlot w.toNat s.cycle x.slot }) src r.2)
  | _, _ => s

/-- Bytes of a row in scratch, for an island: an error is a fault or a stall (06/R144). -/
def rowBytes (ag : Agent) : List (Nat × Nat) → State → Nat → Except Exc (List Byte × State)
  | [], s, _ => .ok ([], s)
  | (o, n) :: r, s, space =>
    let ea := BitVec.ofNat 64 (space * 2 ^ 22 + o)
    match resolveFor s ag (2048 * space + o / 2048) false ea with
    | .error e => .error e
    | .ok f =>
      let a := frameAddr ag.cl f (o % 2048)
      if badBank s a n then trapWith cData 0 (some ea)
      else
        match rowBytes ag r (useBanks (touchPage s ag.cl (2048 * space + o / 2048)) a n) space with
        | .error e => .error e
        | .ok (l, s) => .ok (frameBytes s ag.cl f (o % 2048) n ++ l, s)

/-- The pieces of a scratch range within its pages. -/
def pagePieces (o n : Nat) : List (Nat × Nat) :=
  let k := Nat.min n (2048 - o % 2048)
  (o, k) :: if k < n then [(o + k, n - k)] else []

/-- Row `done` of an `mx.fire`. -/
def fireScratch (s : State) (c i : Nat) (x : Island) (y : ItemIn) (sw : W32) (sel : BitVec 9) (count done : Nat) : State :=
  let len := rowLen (x.mode.getD 0).toNat
  let o := bits sw.toNat 21 0 + done * len
  let core := match y.src with
    | .thread _ k => k
    | .node _ _ _ _ => 0
  match rowBytes { islandAgent s c x with core := core } (pagePieces o len) s (bits sw.toNat 31 22) with
  | .error (.stall keep) => keep.getD s
  | .error (.trap e _) => islandFault s c i y.src e (e.cause = cData)
  | .ok (b, s) =>
    fireWith s c i x y.src b (sel.toNat + done) fun s =>
      if done + 1 < count then
        s.updIsland c i fun x => { x with
          order := { y with it := .fire sw sel count (done + 1), at' := 0, rank := 0 } :: x.order.drop 1 }
      else popHead s c i

/-- A row at the head of an order fires, or faults. -/
def fireHead (s : State) (cl i : Nat) (x : Island) (y : ItemIn) : State :=
  match y.it with
  | .row b sel => fireWith s cl i x y.src b sel.toNat fun s => popHead s cl i
  | .fire sw sel count done => fireScratch s cl i x y sw sel count done
  | _ => s

/-- The item is a row, or rows of scratch. -/
def isRow : Item → Bool
  | .row _ _ => true
  | .fire _ _ _ _ => true
  | _ => false

/-- ROW_FIRE (12/R294, R295), at the rate that the mode allows (01/R17). -/
def execRowFire (cl i : Nat) (s : State) : Answer :=
  performHead s cl i fun s x y =>
    if !isRow y.it then s
    else
      match rowFault x with
      | some e => islandFault s cl i y.src e true
      | none => if slotFree (x.mode.getD 0).toNat s.cycle x.slot then fireHead s cl i x y else s

/-- READOUT_PERFORM (12/R297); a readout of a casting that has ended or started again is performed for nobody: its number is
not that of the node's present request. -/
def execReadoutPerform (cl i : Nat) (s : State) : Answer :=
  performHead s cl i fun s x y =>
    match y.it, y.src with
    | .readout sel num, .node n gen _ _ =>
      let words := (List.range 128).map fun j => tabGet x.acc (128 * sel.toNat + j) 0
      let waits : Bool := match (castSlot s n.cast).live with
        | some k => decide ((nodeAt k n).req.isSome ∧ (nodeAt k n).nreq = num + 1)
        | none => false
      rowError s cl i x y.src [sel.toNat] <|
        let s := popHead s cl i
        if waits ∧ (castSlot s n.cast).gen = gen then s.updIsland cl i fun x => { x with link := x.link ++ [⟨n, words⟩] }
        else s
    | _, _ => s

/-- The loaded pending tile becomes current; the tile before it is consumed. -/
def makeCurrent (s : State) (c i : Nat) (x : Island) (t : Tile) : State :=
  let s := popHead (s.updIsland c i fun x => { x with cur := some t, pending := none }) c i
  match x.cur with
  | some old => unpinTile s old
  | none => s

/-- BIND_PERFORM (12/R293). -/
def execBindPerform (cl i : Nat) (s : State) : Answer :=
  performHead s cl i fun s x y =>
    match y.it, x.pending with
    | .bind d, some t =>
      if t.refused then islandFault s cl i y.src ⟨cIsland, 4, none, 0⟩ true
      else if !t.mapped then
        (match fetchTile s cl i (islandAgent s cl x).asid d with
         | (s, none) => s
         | (s, some e) => islandFault s cl i y.src e false)
      else if tileUnscaled s t then islandFault s cl i y.src ⟨cIsland, 2, none, 0⟩ true
      else if !t.loaded ∧ tileBadLine s (islandAgent s cl x) t then islandFault s cl i y.src ⟨cData, 0, none, 0⟩ false
      else if t.granted ∧ t.loaded then makeCurrent s cl i x t
      else s
    | _, _ => s

/-- MODE_ITEM_PERFORM (12/R304): the mode is set, or the island is freed. -/
def execModeItemPerform (cl i : Nat) (s : State) : Answer :=
  performHead s cl i fun s _ y =>
    match y.it with
    | .mode w =>
      if mdRel w.toNat then resetIsland s cl i .free
      else popHead (s.updIsland cl i fun x => { x with mode := some w }) cl i
    | _ => s

/-- Set column scales from a list, from column j on. -/
def setScales (x : Island) (j : Nat) (l : List Byte) : Island :=
  { x with sigma := l.zipIdx.foldl (fun t b => tabPut t (j + b.2) b.1) x.sigma }

/-- SCALE_ITEM_PERFORM (12/R303). -/
def execScaleItemPerform (cl i : Nat) (s : State) : Answer :=
  performHead s cl i fun s _ y =>
    match y.it with
    | .scale b => popHead (s.updIsland cl i fun x => setScales x 0 b) cl i
    | _ => s

/-- ACC_ITEM_PERFORM (12/R306). -/
def execAccItemPerform (cl i : Nat) (s : State) : Answer :=
  performHead s cl i fun s x y =>
    match y.it with
    | .acc op sel count fill =>
      let keys := (List.range (128 * count)).map (128 * sel.toNat + ·)
      let rows := (List.range count).map (sel.toNat + ·)
      let r := keys.foldl (fun (st : Tab W32 × Flags) key =>
        let v := accWord op fill (tabGet st.1 key 0)
        (tabPut st.1 key v.1, st.2 ||| v.2)) (x.acc, 0)
      rowError s cl i x y.src (if 2 ≤ op then rows else []) <|
        popHead (flagItem (s.updIsland cl i fun x => { x with
          acc := r.1, badRows := x.badRows.filter fun b => !rows.contains b }) y.src r.2) cl i
    | _ => s

/-- UNPIN_ITEM_PERFORM (12/R309). -/
def execUnpinItemPerform (cl i : Nat) (s : State) : Answer :=
  performHead s cl i fun s x y =>
    match y.it with
    | .unpin =>
      let s := popHead (s.updIsland cl i fun x => { x with cur := none }) cl i
      (match x.cur with
       | some t => unpinTile s t
       | none => s)
    | _ => s

/-- CONFIG_TOKEN_PERFORM (12/R298). -/
def execConfigTokenPerform (cl i : Nat) (s : State) : Answer :=
  performHead s cl i fun s _ y =>
    match y.it with
    | .token csel b =>
      let act := bits csel.toNat 10 9
      let w := fieldOf b.data 0
      if act = 0 then
        let sig := (List.range 16).map fun m => BitVec.ofNat 8 (fieldOf b.data (m / 4) / 256 ^ (m % 4))
        popHead (s.updIsland cl i fun x => setScales x (16 * bits csel.toNat 2 0) sig) cl i
      else if modeOk w ∧ !mdRel w then popHead (s.updIsland cl i fun x => { x with mode := some (BitVec.ofNat 64 w) }) cl i
      else islandFault s cl i y.src ⟨cIsland, 1, none, 0⟩ true
    | _ => s

/-! ## Island nodes (11/R283, R284) -/

/-- The source of a node's items. -/
def nodeSrc (s : State) (n : NodeRef) (k : CastLive) : ItemSrc :=
  .node n (castSlot s n.cast).gen k.loader (nodeAt k n).inv

/-- The bytes of an A row at a node (11/R283): an error is a fault or a wait, with the page it concerns. `EADDR` is field FA as it
stands, also where the row's second page faults (DESIGN CHOICE, log 49). -/
def aRowBytes (s : State) (f : FWord) (n : NodeRef) (k : CastLive) (a : Billet) (len : Nat) :
    Except (Exc × Nat) (List Byte × State) :=
  let c := n.cast / 256
  let x := fieldOf a.data f.fa.toNat
  let e : Option Word := some (BitVec.ofNat 64 x)
  let bad := fun (cause sub : Nat) => Except.error (Exc.trap ⟨cause, sub, e, 0⟩ none, 0)
  if bit f.imm.toNat 3 then
    let o := bits x 21 0
    if o % 32 ≠ 0 then bad cAlign 0
    else if 2 ^ 22 < o + len then bad cScratch 3
    else
      let space := bits x 31 22
      let page := (pagePieces o len).findSome? fun q =>
        match resolvePage s c (2048 * space + q.1 / 2048) k.asid false with
        | .fault _ => some (2048 * space + q.1 / 2048)
        | _ => none
      match rowBytes (nodeAgent k n) (pagePieces o len) s space with
      | .ok r => .ok r
      | .error (.trap y keep) => .error (.trap { y with addr := e } keep, page.getD 0)
      | .error y => .error (y, 0)
  else
    let o := fieldOf a.data (f.fa.toNat + 1)
    match curdAt s c k.asid x with
    | .error y => .error (.trap y none, 0)
    | .ok u =>
      if o % 32 ≠ 0 then bad cAlign 0
      else if curdSize u < o + len then bad cCurd 6
      else if !u.isSealed then .error (.stall none, 0)
      else
        match nodeShare s n (nodeAt k n).inv (chIndex x) u (nodeAt k n) with
        | none => bad cCurd 3
        | some s =>
          if (List.range len).any fun j => badBank s (curdAddr c u (o + j)) 1 then bad cData 0
          else .ok (curdBytes s c u o len, (pagePieces o len).foldl (fun s q => useBanks s (curdAddr c u q.1) q.2) s)

/-- A fault at a node that holds its billet at the input: a page wait, or the node stops (11 Table 11.5). -/
def inputFault (s : State) (n : NodeRef) (e : Exn) (page : Nat) : State :=
  if e.cause = cScratch ∧ e.sub ≠ 3 then nodeFault (updNode s n fun x => { x with page := some page }) n e
  else nodeStop s n e

/-- Put a node's item into an island's order and go on with what follows, once a slot is free; an item of a launch that
does not hold the island stops the node (12/R287). -/
def offerItem (s : State) (n : NodeRef) (k : CastLive) (i : Nat) (go : State → State) : State :=
  let x := s.island (n.cast / 256) i
  if !holdsIsland x k.launch then nodeStop s n ⟨cIsland, 0, none, 0⟩
  else if !islandRoom x then s
  else go s

/-- `a.row` with a data billet (11/R283, its steps in their order): the checks, the share and the stall, then the wait for a
free slot; the row goes into the order, the billet to the targets. -/
def aRowData (s : State) (f : FWord) (n : NodeRef) (k : CastLive) (a : Billet) : State :=
  let c := n.cast / 256
  let i := bits f.imm.toNat 2 0
  match aRowBytes s f n k a (acceptedLen (s.island c i)) with
  | .error (.stall keep, _) => keep.getD s
  | .error (.trap e keep, page) => inputFault (keep.getD s) n e page
  | .ok (b, s) =>
    offerItem s n k i fun s =>
      let s := acceptItem s c i (nodeSrc s n k) (.row b (BitVec.ofNat 9 (fieldOf a.data f.fb.toNat)))
      updCast s n.cast fun k => emitTo (takeA k n) n (targetsOf f) a

/-- A token placed in the order: a valid mode token is a mode item (12/R290). -/
def acceptToken (s : State) (c i : Nat) (src : ItemSrc) (a : Billet) : State :=
  let csel := BitVec.ofNat 11 (fieldOf a.data 7)
  let w := fieldOf a.data 0
  let s := acceptItem s c i src (.token csel a)
  if bits csel.toNat 10 9 = 1 ∧ modeOk w ∧ !mdRel w then
    s.updIsland c i fun x => { x with accepted := some (BitVec.ofNat 64 w) }
  else s

/-- `a.row`. A configuration token, which is forwarded to no target, needs no free slot there (DESIGN CHOICE, log 80). -/
def execARow (f : FWord) (s : State) : Answer :=
  atNode s fun n k =>
    let c := n.cast / 256
    let i := bits f.imm.toNat 2 0
    match headA k n with
    | none => s
    | some a =>
      let k' := takeA k n
      if tagKind a.tag = 4 then
        offerItem s n k i fun s => acceptToken (putCast s n k') c i (nodeSrc s n k) a
      else if !roomFor k' n (targetsOf f) then s
      else if isMarker a then
        offerItem s n k i fun s => passMarker (acceptItem s c i (nodeSrc s n k) .marker) n f k' a
      else if isData a ∧ pmHolds f a.tag then aRowData s f n k a
      else putCast s n (emitTo k' n (targetsOf f) a)

/-- The billets of a snapshot (11/R284). -/
def readBillets (f : FWord) (a : Billet) (words : List W32) : List Billet :=
  (List.range (bits f.imm.toNat 10 7 + 1)).map fun j =>
    let c := bits f.imm.toNat 6 3 + j
    { a with data := BitVec.ofNat 256 (packBits 32 (((words.drop (8 * c)).take 8).map (·.toNat))) }

/-- Emit the next billet of a readout; the link slot frees with the last (12/R297). -/
def emitReadout (s : State) (f : FWord) (n : NodeRef) (k : CastLive) (l : List Billet) : State :=
  match l with
  | [] => s
  | b :: r =>
    if !roomFor k n (targetsOf f) then putCast s n (nodeUpd k n fun x => { x with emit := l })
    else
      let fin := r.isEmpty
      let k := nodeUpd k n fun x => { x with emit := r, req := if fin then none else x.req }
      let s := putCast s n (emitTo k n (targetsOf f) b)
      if fin then
        s.updIsland (n.cast / 256) (bits f.imm.toNat 2 0) fun x => { x with link := x.link.filter fun q => q.node ≠ n }
      else s

/-- `acc.rd`: one request at a time; its billets leave one a turn. -/
def execAccRd (f : FWord) (s : State) : Answer :=
  atNode s fun n k =>
    let c := n.cast / 256
    let i := bits f.imm.toNat 2 0
    let x := nodeAt k n
    match x.req with
    | some a =>
      if x.emit.isEmpty then
        match (s.island c i).link.find? fun q => q.node = n with
        | none => s
        | some q => emitReadout s f n k (readBillets f a q.words)
      else emitReadout s f n k x.emit
    | none =>
      match headA k n with
      | none => s
      | some a =>
        let k' := takeA k n
        if isData a ∧ pmHolds f a.tag then
          offerItem s n k i fun s =>
            let s := putCast s n (nodeUpd k' n fun x => { x with req := some a, nreq := x.nreq + 1 })
            acceptItem s c i (nodeSrc s n k) (.readout (BitVec.ofNat 9 (fieldOf a.data f.fa.toNat)) x.nreq)
        else if !roomFor k' n (targetsOf f) then s
        else if isMarker a then passMarker s n f k' a
        else putCast s n (emitTo k' n (targetsOf f) a)

end Sys2Proof.Machine
end

