-- ==== Sys2Proof/Machine/LoadStore.lean ====
section
/-! DEFINITION. Loads, stores and `pfetch` (08/R200-R203). -/

namespace Sys2Proof.Machine

/-- The address of an M-form access (08/R200): the handle's check at s(a) + OFF8 × size, then the alignment. -/
def effAddr (t : Thread) (a : Src) (h : BitVec 4) (o : BitVec 8) (size : Nat) (need : BitVec 5) : Except Exc Nat := do
  let x ← readSrc t a
  let va ← liftE (checkHandle (readH t h) (x.toInt + o.toInt * size) size need t.asid)
  if va % size ≠ 0 then trapWith cAlign 0 (some (BitVec.ofNat 64 va)) else pure va

/-- Deliver a loaded value (08/R189, R201): at once from a resident page of the issuing core, else as a producer. -/
def deliverLoad (key : Nat) (t : Thread) (d : Reg) (v : Word) (g : Got) (va : Word) : Except Exc State := do
  let _ ← destReady t d
  if g.atCore then pure (g.st.setThread key (writeR t d v))
  else
    let _ ← producerSlot t
    pure (g.st.setThread key (produce t [d] [v] g.wait g.err va d))

/-- A load of `size` bytes (08/R200, R201). -/
def opLoad (s : State) (d : Reg) (a : Src) (h : BitVec 4) (o : BitVec 8) (size : Nat) (ext : Nat → Word) : Answer :=
  issue s [d, a.reg] fun key t => do
    let va ← effAddr t a h o size rR
    let g ← readAt s (threadAgent key t) va size
    deliverLoad key t d (ext (leNat g.bytes)) g (BitVec.ofNat 64 va)

/-- A store of the low `size` bytes of a register (08/R200, R202). -/
def opStore (s : State) (r : Reg) (a : Src) (h : BitVec 4) (o : BitVec 8) (size : Nat) : Answer :=
  issue s [r, a.reg] fun key t => do
    let va ← effAddr t a h o size rW
    let v ← readField t r
    let x ← writeAt s (threadAgent key t) va (allBytes (natLe size v.toNat)) (size = 8)
    pure (x.st.setThread key (lateStore t x.wait x.err x.undo (BitVec.ofNat 64 va)))

/-- Sign-extension of an n-bit value. -/
def signExt (n v : Nat) : Word := BitVec.ofInt 64 (sOf n v)

/-- `ld.b`: a byte, sign-extended (08/R201). -/
def execLdB (d : Reg) (a : Src) (h : BitVec 4) (o : BitVec 8) (s : State) : Answer := opLoad s d a h o 1 (signExt 8)

/-- `ld.bu`: a byte, zero-extended (08/R201). -/
def execLdBu (d : Reg) (a : Src) (h : BitVec 4) (o : BitVec 8) (s : State) : Answer := opLoad s d a h o 1 (BitVec.ofNat 64)

/-- `ld.h`: a half, sign-extended (08/R201). -/
def execLdH (d : Reg) (a : Src) (h : BitVec 4) (o : BitVec 8) (s : State) : Answer := opLoad s d a h o 2 (signExt 16)

/-- `ld.hu`: a half, zero-extended (08/R201). -/
def execLdHu (d : Reg) (a : Src) (h : BitVec 4) (o : BitVec 8) (s : State) : Answer := opLoad s d a h o 2 (BitVec.ofNat 64)

/-- `ld.w`: a word, sign-extended (08/R201). -/
def execLdW (d : Reg) (a : Src) (h : BitVec 4) (o : BitVec 8) (s : State) : Answer := opLoad s d a h o 4 (signExt 32)

/-- `ld.wu`: a word, zero-extended (08/R201). -/
def execLdWu (d : Reg) (a : Src) (h : BitVec 4) (o : BitVec 8) (s : State) : Answer := opLoad s d a h o 4 (BitVec.ofNat 64)

/-- `ld.d`: a doubleword (08/R201). -/
def execLdD (d : Reg) (a : Src) (h : BitVec 4) (o : BitVec 8) (s : State) : Answer := opLoad s d a h o 8 (BitVec.ofNat 64)

/-- `st.b` (08/R202): 1 byte. -/
def execStB (r : Reg) (a : Src) (h : BitVec 4) (o : BitVec 8) (s : State) : Answer := opStore s r a h o 1

/-- `st.h` (08/R202): 2 bytes. -/
def execStH (r : Reg) (a : Src) (h : BitVec 4) (o : BitVec 8) (s : State) : Answer := opStore s r a h o 2

/-- `st.w` (08/R202): 4 bytes. -/
def execStW (r : Reg) (a : Src) (h : BitVec 4) (o : BitVec 8) (s : State) : Answer := opStore s r a h o 4

/-- `st.d` (08/R202): 8 bytes. -/
def execStD (r : Reg) (a : Src) (h : BitVec 4) (o : BitVec 8) (s : State) : Answer := opStore s r a h o 8

/-- The line that a prefetch names is brought into its home slice (08/R203, 05/R103): where the check of its handle, the
translation or the leaf's R would fault, or the address is not of this member's device memory, nothing happens. -/
def prefetch (s : State) (t : Thread) (h : Handle) (off : Int) : State :=
  match checkHandle h off 1 rR t.asid with
  | .error _ => s
  | .ok va =>
    match translate s t.asid va .load with
    | .ok (.dev pa) => touch (noteWalk s [] t.asid va) pa 1
    | _ => s

/-- `pfetch` (08/R203): a hint. It reads its source, brings the line of s(a) + OFF8 × 64 into the L2, and has no other effect. -/
def execPfetch (a : Src) (h : BitVec 4) (o : BitVec 8) (s : State) : Answer :=
  issue s [a.reg] fun _ t => do
    let x ← readSrc t a
    pure (prefetch s t (readH t h) (x.toInt + o.toInt * 64))

end Sys2Proof.Machine
end

