-- ==== Sys2Proof/Machine/Streamer.lean ====
section
/-! DEFINITION. Streamer islands: shape records (05/R112-R115), copies (05/R109-R121), rings (05/R122-R124, R132, R133),
schedules (05/R125, R126) and the instructions (05/R127-R134). -/

namespace Sys2Proof.Machine

/-! ## Queues -/

/-- A streamer queue of a cluster. -/
def State.squeue (s : State) (c isl q : Nat) : SQueue := tabGet (s.cluster c).queues (8 * isl + q) {}

/-- Change a streamer queue. -/
def State.updSqueue (s : State) (c isl q : Nat) (f : SQueue → SQueue) : State :=
  s.updCluster c fun x => { x with queues := tabUpd x.queues (8 * isl + q) {} f }

/-- A streamer island. -/
def State.streamer (s : State) (c isl : Nat) : Streamer := tabGet (s.cluster c).streamers isl {}

/-- Change a streamer island. -/
def State.updStreamer (s : State) (c isl : Nat) (f : Streamer → Streamer) : State :=
  s.updCluster c fun x => { x with streamers := tabUpd x.streamers isl {} f }

/-- Acceptance numbers of every entry that an island holds. -/
def heldNums (s : State) (c isl : Nat) : List Nat :=
  ((List.range 8).map fun q => (s.squeue c isl q).entries.map (·.num)).flatten

/-! ## Shape records -/

/-- A 32-bit word of a record. -/
def recWord (r byte : Nat) : Nat := bits r (8 * byte + 31) (8 * byte)

/-- Kind code of an endpoint (05 Table 5.1). -/
def endKind : Nat → Option EndKind
  | 0 => some .mem
  | 1 => some .scratch
  | 2 => some .curd
  | _ => none

/-- Product of a list. -/
def prodNat (l : List Nat) : Nat := l.foldl (· * ·) 1

/-- Insert a dimension, as stride size and extent, into a list that ascends by size, behind equals. -/
def insertDim (x : Nat × Nat) : List (Nat × Nat) → List (Nat × Nat)
  | [] => [x]
  | y :: r => if x.1 < y.1 then x :: y :: r else y :: insertDim x r

/-- Every dimension's stride exceeds the span of those before it (05/R115). -/
def spansOk : Nat → List (Nat × Nat) → Bool
  | _, [] => true
  | span, (a, n) :: r => 1 + span ≤ a && spansOk (span + a * (n - 1)) r

/-- 05/R115 on extents and destination strides. -/
def destOk (ext : List Nat) (str : List Int) : Bool :=
  let dims := ((ext.zip str).filter fun x => 1 < x.1).foldl (fun l x => insertDim (x.2.natAbs, x.1) l) []
  spansOk 0 dims

/-- Read the fields of a shape record, offsets shifted (05/R125), with the tests of 05/R114 that need nothing but the
record. -/
def parseShape (r : Nat) (ds dd : Int) : Option Shape :=
  let nd := bits r 15 12 + 1
  let above := (List.range 16).drop nd
  let zero := fun b => above.all fun d => recWord r (b + 4 * d) = 0
  let ext := (List.range nd).map fun d => recWord r (64 + 4 * d)
  let str := fun b => (List.range nd).map fun d => sOf 32 (recWord r (b + 4 * d))
  match endKind (bits r 19 18), endKind (bits r 21 20) with
  | some sk, some dk =>
    if bits r 7 0 = 0x5A ∧ bits r 11 8 = 1 ∧ bits r 63 30 = 0 ∧ bits r 511 276 = 0 ∧
      (sk = .mem ∨ bits r 25 22 = 0) ∧ (dk = .mem ∨ bits r 29 26 = 0) ∧
      (sk = .curd ∨ bits r 223 192 = 0) ∧ (dk = .curd ∨ bits r 255 224 = 0) ∧
      (sk = .scratch ∨ bits r 265 256 = 0) ∧ (dk = .scratch ∨ bits r 275 266 = 0) ∧
      zero 64 ∧ zero 128 ∧ zero 192 ∧ ext.all (0 < ·) ∧ prodNat ext < 2 ^ 32 ∧ destOk ext (str 192) then
      some {
        esz := 2 ^ bits r 17 16, skind := sk, dkind := dk, sh := bits r 25 22, dh := bits r 29 26
        soff := sOf 64 (bits r 127 64) + ds, doff := sOf 64 (bits r 191 128) + dd
        scurd := BitVec.ofNat 32 (bits r 223 192), dcurd := BitVec.ofNat 32 (bits r 255 224)
        sspace := bits r 265 256, dspace := bits r 275 266, ext := ext, sstr := str 128, dstr := str 192 }
    else none
  | _, _ => none

/-- Lowest and one past the highest byte offset of an endpoint (05/R113). -/
def boxRange (off : Int) (esz : Nat) (ext : List Nat) (str : List Int) : Int × Int :=
  (ext.zip str).foldl (fun p x =>
    let d := (esz : Int) * x.2 * ((x.1 : Int) - 1)
    if d < 0 then (p.1 + d, p.2) else (p.1, p.2 + d)) (off, off + esz)

/-- The tests of one endpoint (05/R114, 07/R173): `h` is the handle of a memory endpoint, `src` the direction. A curd's offset
that is misaligned, or a range that passes its bytes, is the descriptor fault of R114, and not the *bounds* of 07 Table 7.5
(DESIGN CHOICE, log 78). -/
def checkEnd (s : State) (cl : Nat) (asid : BitVec 14) (kind : EndKind) (h : Handle) (curd : W32) (off : Int)
    (esz : Nat) (ext : List Nat) (str : List Int) (src : Bool) (roff : Word) : Except Exn Unit :=
  let r := boxRange off esz ext str
  match kind with
  | .mem =>
    if ((h.base.toNat : Int) + off) % esz ≠ 0 then exn cDesc 0 (some roff)
    else
      match checkHandle h r.1 (r.2 - r.1).toNat (if src then rRX else rWX) asid with
      | .error e => .error e
      | .ok _ => .ok ()
  | .scratch =>
    if off % esz ≠ 0 ∨ r.1 < 0 ∨ 2 ^ 22 < r.2 then exn cDesc 0 (some roff) else .ok ()
  | .curd =>
    match curdAt s cl asid curd.toNat with
    | .error e => .error e
    | .ok k =>
      if src ∧ !k.isSealed then exn cCurd 4 (some (curd.setWidth 64))
      else if !src ∧ k.isSealed then exn cCurd 5 (some (curd.setWidth 64))
      else if off % esz ≠ 0 ∨ r.1 < 0 ∨ (curdSize k : Int) < r.2 then exn cDesc 0 (some roff)
      else if src ∧ k.fin - k.pend = 0 then exn cCurd 3 (some (curd.setWidth 64))
      else .ok ()

/-- Read a shape record and check it whole (05/R114, R127 `Shape`): the record, and the state its reading leaves. Where
several tests fail, those of the source endpoint, its handle or curd fault included, come before the destination's (DESIGN
CHOICE, log 42). -/
def readShape (s : State) (ag : Agent) (h : Handle) (off : Word) (hs : Nat → Handle) (ds dd : Int) :
    Except Exc (Shape × State) := do
  let va ← liftE (checkHandle h off.toInt 256 rR ag.asid)
  if va % 64 ≠ 0 then trapWith cDesc 0 (some off)
  else
    let x ← readIssue s ag va 256
    match parseShape (leNat x.1) ds dd with
    | none => trapWith cDesc 0 (some off)
    | some r =>
      let _ ← liftE (checkEnd x.2 ag.cl ag.asid r.skind (hs r.sh) r.scurd r.soff r.esz r.ext r.sstr true off)
      let _ ← liftE (checkEnd x.2 ag.cl ag.asid r.dkind (hs r.dh) r.dcurd r.doff r.esz r.ext r.dstr false off)
      pure (r, x.2)

/-! ## Moving elements -/

/-- Number of elements of a copy. -/
def copyTotal (r : Shape) : Nat := prodNat r.ext

/-- Σ i_d × stride_d of the element of ordinal k (05/R113). -/
def elemOffset : Nat → List Nat → List Int → Int
  | k, n :: ext, x :: str => ((k % n : Nat) : Int) * x + elemOffset (k / n) ext str
  | _, _, _ => 0

/-- The agent that a copy's accesses are made by (05/R109, 06/R147). -/
def copyAgent (cl : Nat) (e : CopyEntry) : Agent := ⟨e.asid, cl, e.core, some e.owner.l, false⟩

/-- A scratch word, for `EADDR`: space in bits 31:22, offset in bits 21:0. -/
def scratchWord (space : Nat) (off : Int) : Word := BitVec.ofNat 64 (space * 2 ^ 22 + off.toNat)

/-- The curd of a running copy's endpoint. -/
def copyCurd (s : State) (cl : Nat) (e : CopyEntry) (h : W32) : Except Exc CurdLive := liftE (curdAt s cl e.asid h.toNat)

/-- The source curd of a running copy: its share keeps the frames of a curd that has been abandoned (07/R165). -/
def sourceCurd (s : State) (cl : Nat) (e : CopyEntry) : Except Exc CurdLive :=
  match namedCurd s e.shape.scurd.toNat with
  | some k => if e.share ∧ k.leaving then .ok k else copyCurd s cl e e.shape.scurd
  | none => copyCurd s cl e e.shape.scurd

/-- Read element k of a copy. -/
def readElem (s : State) (cl : Nat) (e : CopyEntry) (k : Nat) : Except Exc Got :=
  let r := e.shape
  let off := r.soff + (r.esz : Int) * elemOffset k r.ext r.sstr
  match r.skind with
  | .mem => readAt s (copyAgent cl e) (e.hs.base.toNat + off.toNat) r.esz
  | .scratch =>
    accRead s (copyAgent cl e) (.scratch (2048 * r.sspace + off.toNat / 2048) (off.toNat % 2048)) r.esz
      (scratchWord r.sspace off)
  | .curd => do
    let c ← sourceCurd s cl e
    if badBank s (curdAddr cl c off.toNat) r.esz then pure (gotErr cData s)
    else pure (gotNow (curdBytes s cl c off.toNat r.esz) (useBanks s (curdAddr cl c off.toNat) r.esz))

/-- Write element k of a copy. It is no `st.d`: what of it lies in a TAIL is discarded (16/R371). -/
def writeElem (s : State) (cl : Nat) (e : CopyEntry) (k : Nat) (b : List Byte) : Except Exc Done :=
  let r := e.shape
  let off := r.doff + (r.esz : Int) * elemOffset k r.ext r.dstr
  match r.dkind with
  | .mem => writeAt s (copyAgent cl e) (e.hd.base.toNat + off.toNat) (allBytes b) false
  | .scratch =>
    accWrite s (copyAgent cl e) (.scratch (2048 * r.dspace + off.toNat / 2048) (off.toNat % 2048)) (allBytes b) false
      (scratchWord r.dspace off)
  | .curd => do
    let c ← copyCurd s cl e r.dcurd
    if c.isSealed then trapWith cCurd 5 (some (r.dcurd.setWidth 64))
    else pure (doneNow (useBanks (curdWrite s cl c off.toNat (allBytes b)) (curdAddr cl c off.toNat) r.esz))

/-- The virtual address of element k at an endpoint in memory. -/
def elemVa (r : Shape) (h : Handle) (off : Int) (str : List Int) (k : Nat) : Nat :=
  h.base.toNat + (off + (r.esz : Int) * elemOffset k r.ext str).toNat

/-- Where the endpoints in memory of a copy's next element lead, as far as they translate. -/
def elemTargets (s : State) (e : CopyEntry) : List Target :=
  let r := e.shape
  let at' := fun (kind : EndKind) (h : Handle) (off : Int) (str : List Int) (need : Need) =>
    if kind = .mem then (translate s e.asid (elemVa r h off str e.done) need).toOption.toList else []
  at' r.skind e.hs r.soff r.sstr .load ++ at' r.dkind e.hd r.doff r.dstr .store

/-- The kinds of storage that element k of a shape is read from and written to (14 Table 14.2), its endpoints in memory behind
given handles. -/
def shapeKinds (s : State) (asid : BitVec 14) (r : Shape) (hs hd : Handle) (k : Nat) : BitVec 4 :=
  let at' := fun (kind : EndKind) (h : Handle) (off : Int) (str : List Int) (need : Need) =>
    match kind with
    | .mem => kindOf s asid (elemVa r h off str k) need
    | .scratch => (1 : BitVec 4)
    | .curd => 2
  at' r.skind hs r.soff r.sstr .load ||| at' r.dkind hd r.doff r.dstr .store

/-- The kinds of storage of element k of a copy. -/
def elemKinds (s : State) (e : CopyEntry) (k : Nat) : BitVec 4 := shapeKinds s e.asid e.shape e.hs e.hd k

/-- How an element's access ended: a request that gets no response leaves the copy waiting (18/R414), another error ends it
(05/R120). -/
def elemEnd (err : Option Nat) (wait : Option Await) (s : State) : Except Exc (Bool × State) :=
  if err.isSome ∧ wait.isSome then stallNow else pure (err.isSome, s)

/-- Move element k: whether an error of 05/R120 was met, and the state. -/
def moveElem (s : State) (cl : Nat) (e : CopyEntry) (k : Nat) : Except Exc (Bool × State) := do
  let g ← readElem s cl e k
  if g.err.isSome then elemEnd g.err g.wait g.st
  else
    let d ← writeElem g.st cl e k g.bytes
    elemEnd d.err d.wait d.st

/-- Why a beat stops before its elements are all moved. -/
inductive BeatStop where
  | ended
  | failed
  | waits
  | halts (e : Exn)
  deriving DecidableEq, Repr

/-- An error that ends a copy without halting its queue (05/R119, R120). -/
def endsCopy (e : Exn) : Bool := e.cause = cDraft || e.cause = cData || e.cause = cPeer

/-- Move up to n elements from ordinal k: the state, the elements delivered, and how the beat stopped. Each is read when it
is moved, so that of the two values that 05/R116 allows where the bytes overlap, a destination element always gets the one
that an earlier element has written (DESIGN CHOICE, log 1). -/
def moveElems (cl : Nat) (e : CopyEntry) : Nat → State → Nat → State × Nat × BeatStop
  | 0, s, k => (s, k, .ended)
  | n + 1, s, k =>
    if copyTotal e.shape ≤ k then (s, k, .ended)
    else
      match moveElem s cl e k with
      | .ok (true, s) => (s, k, .failed)
      | .ok (false, s) => moveElems cl e n s (k + 1)
      | .error (.stall keep) => (keep.getD s, k, .waits)
      | .error (.trap ex _) => if endsCopy ex then (s, k, .failed) else (s, k, .halts ex)

/-! ## Halts -/

/-- HCAUSE of a fault (05 Table 5.6). The table has no code for an uncorrectable data error or a lost member: a queue that
halts on one of those, met as it reads a record, a schedule entry or a ring object, shows 3, *descriptor* (DESIGN CHOICE, log
42). -/
def haltOf (cause : Nat) : HaltCause :=
  if cause = cTrans then .translation
  else if cause = cScratch then .scratch
  else if cause = cFormat then .format
  else if cause = cCurd then .curd
  else if cause = cHandle then .handle
  else if cause = cRing then .ring
  else .descriptor

/-- The page of a scratch fault, from its scratch word or aperture address. -/
def pageOfFault (e : Exn) : Option Nat :=
  if e.cause = cScratch then e.addr.map fun a => bits a.toNat 31 11 else none

/-- Halt a queue at a fault (05/R119), which goes to a thread. (DEDUCED, log 42.) -/
def haltQueue (s : State) (c isl q : Nat) (owner : ThreadRef) (e : Exn) : State :=
  let s := s.updSqueue c isl q fun x => { x with halt := some (haltOf e.cause), haltPage := pageOfFault e }
  sendFault s owner srcQueue e (queueWho isl q) none

/-- Change the head entry of a queue. -/
def updHead (s : State) (c isl q : Nat) (f : CopyEntry → CopyEntry) : State :=
  s.updSqueue c isl q fun x => { x with entries := match x.entries with
    | e :: r => f e :: r
    | [] => [] }

/-- Show the delivered prefix in the ring, when the copy holds slot WP (05/R124). -/
def showProgress (s : State) (e : CopyEntry) (done : Nat) : State :=
  match ringAt s e.asid e.hr e.roff.toInt with
  | .ok pa =>
    let r := ringGet s pa
    let s := touchRing s e.asid e.hr e.roff.toInt pa
    if ringWf r ∧ rgWp r = e.slot.toNat then ringSet s pa (setBits r 31 0 done) else s
  | .error _ => s

/-! ## Beats -/

/-- The head entry of a queue, when it may move an element now, its page apart (05/R111, R119, R134), and no `fence` issued before
it holds the element back (08/R207). -/
def readyHead (s : State) (c isl q : Nat) : Option CopyEntry :=
  let x := s.squeue c isl q
  match x.entries with
  | [] => none
  | e :: _ =>
    let nums := heldNums s c isl
    if x.halt.isSome ∨ e.err ∨ copyTotal e.shape ≤ e.done ∨ e.after.any (nums.contains ·) ∨
        heldBy s c e.owner (elemKinds s e e.done) e.barred then none else some e

/-- The head entry can proceed: its next element does not wait. -/
def proceeds (s : State) (c isl q : Nat) : Option CopyEntry :=
  match readyHead s c isl q with
  | none => none
  | some e =>
    match moveElem s c e e.done with
    | .error (.stall _) => if (s.squeue c isl q).bad then some e else none
    | _ => some e

/-- The bytes of a partly shared page that an APPEND copies: those of its first rows (13/R318). -/
def pageBytes (s : State) (r : SeqRef) (rows : Nat) : Nat := 256 * plRowb s r.q.poolRef * rows

/-- A page copy of a streamer island that has bytes left to move (13/R318), by its id: the one issued first. -/
def pageCopy (s : State) (c isl : Nat) : Option (Nat × KvCopy) :=
  s.kvCopies.find? fun e => match e.2 with
    | .append r _ _ rows b _ _ => decide (b.cl = c) && decide (b.isl = isl) && decide (b.done < pageBytes s r rows)
    | _ => false

/-- The class of a page copy: its thread's. -/
def KvCopy.beatClass : KvCopy → BitVec 2
  | .append _ _ _ _ b _ _ => b.cls
  | _ => 0

/-- What an island may move a beat for, by number, with its class: queue q, or 8, its page copy (13/R318). -/
def beatReady (s : State) (c isl q : Nat) : Option Nat :=
  if q = 8 then (pageCopy s c isl).map fun x => x.2.beatClass.toNat else (proceeds s c isl q).map fun e => e.cls.toNat

/-- What an island chooses to move a beat for (05/R110): lowest class, then round robin after what it chose last, a page copy
after queue 7. (DEDUCED, log 43.) -/
def chooseQueue (s : State) (c isl : Nat) : Option Nat :=
  let last := (s.streamer c isl).lastq
  let order := (List.range 9).map fun i => (last + 1 + i) % 9
  let ready := order.filterMap fun q => (beatReady s c isl q).map fun cls => (q, cls)
  let best := minNat 3 (ready.map (·.2))
  (ready.find? fun x => x.2 = best).map (·.1)

/-- A waiting head entry has begun (05/R111). -/
def beginHead (s : State) (c isl q : Nat) : State :=
  updHead s c isl q fun e => if e.begun then e else { e with begun := true, since := s.cycle }

/-- A fault halts a queue at its head; a copy whose launch has ended has nobody left to resume it, and ends in error (DEDUCED,
log 42). -/
def haltOrEnd (s : State) (c isl q : Nat) (owner : ThreadRef) (e : Exn) : State :=
  if (launchOf s owner.l).isSome then haltQueue s c isl q owner e
  else sendFault (updHead s c isl q fun y => { y with err := true }) owner srcQueue e (queueWho isl q) none

/-- One beat of a queue's head entry (05/R110): at most 256 bytes; an entry whose queue storage holds an uncorrectable error
moves nothing and ends in error (17/R403, 05/R120). (DEDUCED, log 43.) -/
def beat (s : State) (c isl q : Nat) (e : CopyEntry) : State :=
  let r := if (s.squeue c isl q).bad then (s, e.done, .failed) else moveElems c e (256 / e.shape.esz) s e.done
  match r with
  | (s, k, stop) =>
    let s := updHead s c isl q fun e => { e with begun := true, done := k, err := stop = .failed, since := s.cycle }
    let s := showProgress (s.updStreamer c isl fun x => { x with lastq := q }) e k
    let s := { s with beats := s.beats ++ [4 * c + isl] }
    match stop with
    | .halts ex => haltOrEnd s c isl q e.owner ex
    | _ => s

/-- The agent of a key-value copy: no window's agent. -/
def seqAgent (q : Seq) : Agent := ⟨q.asid, 0, 0, none, false⟩

/-- Copy n bytes behind a captured handle; a piece that cannot be read or written keeps its bytes (DESIGN CHOICE, log 27). -/
def kvCopyBytes (s : State) (q : Seq) (src dst n : Nat) : State :=
  match readIssue s (seqAgent q) (q.hk.base.toNat + src) n with
  | .error _ => s
  | .ok (b, s) =>
    match writeIssue s (seqAgent q) (q.hk.base.toNat + dst) b with
    | .ok s => s
    | .error _ => s

/-- A streamer island moves one beat, of at most 256 bytes, for a page copy, where it chooses it (13/R318, 05/R110). -/
def pageBeat (s : State) (cl isl : Nat) : State :=
  match pageCopy s cl isl with
  | some (id, .append r src dst rows b who reg) =>
    if s.beats.contains (4 * cl + isl) ∨ chooseQueue s cl isl ≠ some 8 then s
    else
      let p := r.q.poolRef
      let n := Nat.min 256 (pageBytes s r rows - b.done)
      let s := kvCopyBytes s r.q (rowOff s p src 0 + b.done) (rowOff s p dst 0 + b.done) n
      let s := s.updStreamer cl isl fun x => { x with lastq := 8 }
      { s with
        beats := s.beats ++ [4 * cl + isl]
        kvCopies := tabPut s.kvCopies id (.append r src dst rows { b with done := b.done + n } who reg) }
  | _ => s

/-- A streamer island moves one beat for a queue's head entry (05/R110, R118-R120), at most one in a cycle (01/R17); a head that
waits for a page asks for it (05/R117). Number 8 is the island's page copy (13/R318). -/
def execStreamerBeat (cl isl q : Nat) (s : State) : Answer :=
  if 8 ≤ q then .next (pageBeat s cl isl)
  else
  match readyHead s cl isl q with
  | none => .next s
  | some e =>
    if s.beats.contains (4 * cl + isl) then .next s
    else
    match if (s.squeue cl isl q).bad then .ok (true, s) else moveElem s cl e e.done with
    | .error (.stall keep) => .next (beginHead (keep.getD s) cl isl q)
    | _ => .next (if chooseQueue s cl isl = some q then beat s cl isl q e else s)

/-- The copy's queue side of a completion: the entry leaves, its curd share is final, a schedule counts it. -/
def finishEntry (s : State) (c isl q : Nat) (e : CopyEntry) : State :=
  let s := s.updSqueue c isl q fun x => { x with
    entries := x.entries.drop 1, donecnt := x.donecnt + 1, bad := false
    sched := x.sched.bind fun d => if d.comp + 1 = d.total then none else some { d with comp := d.comp + 1, head := none } }
  if e.share then finalShare s c (chIndex e.shape.scurd.toNat) else s

/-- A head entry whose ring cannot be advanced: the queue halts (05/R123); a copy whose launch has ended leaves all the same
(DEDUCED, log 42). -/
def ringFails (s : State) (c isl q : Nat) (e : CopyEntry) (ex : Exn) : State :=
  if (launchOf s e.owner.l).isSome then haltQueue s c isl q e.owner ex
  else sendFault (settleLaunches (finishEntry s c isl q e)) e.owner srcQueue ex (queueWho isl q) none

/-- A copy completes (05/R120, R121, R124); a ring that cannot be advanced halts the queue (05/R123). So does a ring object
whose own line holds an uncorrectable error, for then no slot can be completed (DESIGN CHOICE, log 42). A launch that waited for
its last copy then adds to its counter (16/R387). -/
def execCopyCompletion (cl isl q : Nat) (s : State) : Answer :=
  let x := s.squeue cl isl q
  match x.entries with
  | [] => .next s
  | e :: _ =>
    if x.halt.isSome ∨ !(e.err || decide (copyTotal e.shape ≤ e.done)) then .next s
    else
      match ringAt s e.asid e.hr e.roff.toInt with
      | .error ex => .next (ringFails s cl isl q e ex)
      | .ok pa =>
        if !ringWf (ringGet s pa) then .next (ringFails s cl isl q e ⟨cRing, 0, some e.roff, 0⟩)
        else
          .next (settleLaunches (ringComplete (touchRing (finishEntry s cl isl q e) e.asid e.hr e.roff.toInt pa) pa
            e.slot.toNat e.err))

/-! ## Accepting entries -/

/-- Append an entry (05/R128), taking the ring's slot, and the share of a source curd (07/R167) unless it holds one; `barred` is
what the `fence`s before it hold its elements back for. It has not begun before its first beat: at its launch's end it is
discarded until then (05/R121, which does not say when an entry begins: DESIGN CHOICE, log 78). -/
def acceptEntry (s : State) (c isl q : Nat) (r : Shape) (hs hd hr : Handle) (roff : Word) (pa : Nat) (asid : BitVec 14)
    (cls : BitVec 2) (owner : ThreadRef) (core : Nat) (barred : List Barred) (shared : Bool := false) : State :=
  let x := ringReserve (ringGet s pa)
  let isCurd := decide (r.skind = .curd)
  let e : CopyEntry := {
    shape := r, hs := hs, hd := hd, hr := hr, roff := roff, slot := BitVec.ofNat 32 x.1, asid := asid, cls := cls
    owner := owner, core := core, begun := false, done := 0, err := false, share := isCurd
    num := (s.streamer c isl).next, after := (s.squeue c isl q).fence, barred := barred }
  let s := ringSet s pa x.2
  let s := if isCurd && !shared then takeShare s c (chIndex r.scurd.toNat) else s
  let s := s.updStreamer c isl fun y => { y with next := y.next + 1 }
  s.updSqueue c isl q fun y => { y with entries := y.entries ++ [e] }

/-- A thread's own seal of the curd at an end of a copy waits (14/R336): of the source curd that a refused shape named, or of a
copy's destination. -/
def sealAhead (t : Thread) : Except Exc (Shape × State) → Bool
  | .ok (r, _) => decide (r.dkind = .curd) && sealWaiting t (chIndex r.dcurd.toNat)
  | .error (.trap e _) => decide (e.cause = cCurd ∧ e.sub = 4) && sealWaiting t (chIndex (e.addr.getD 0).toNat)
  | .error (.stall _) => false

/-- `cp.issue` (05/R128). A copy from or to a curd that the thread has sealed under a release that still waits is issued after the
seal (DESIGN CHOICE, log 75). -/
def execCpIssue (d : Reg) (a : Src) (h : BitVec 4) (p : BitVec 3) (isl : BitVec 2) (q : BitVec 3) (s : State) : Answer :=
  issue s [d, a.reg] fun key t => do
    let c := keyCluster key
    let x ← readSrc t a
    let ro ← readField t d
    let hk := readH t h
    let shape := readShape s (threadAgent key t) hk x (fun k => readH t (BitVec.ofNat 4 k)) 0 0
    if sealAhead t shape then stallNow
    let (r, s') ← shape
    let pa ← liftE (ringAt s' t.asid hk ro.toInt)
    let ring := ringGet s' pa
    let s' := touchRing s' t.asid hk ro.toInt pa
    if !ringWf ring then trapWith cRing 0 (some ro)
    else
      let y := s'.squeue c isl.toNat q.toNat
      if y.sched.isSome ∨ 16 ≤ y.entries.length ∨ sub32 (rgIp ring) (rgRp ring) = rgN ring then
        pure (s'.setThread key (writeP t p false))
      else
        let hd := readH t (BitVec.ofNat 4 r.dh)
        let s2 := acceptEntry s' c isl.toNat q.toNat r (readH t (BitVec.ofNat 4 r.sh)) hd hk ro pa t.asid t.cls t.ref
          (keyCore key) t.barred
        pure (s2.setThread key (writeP t p true))

/-! ## Schedules -/

/-- A schedule header is legal (05 Table 5.3, R129). -/
def schedOk (h : Nat) : Bool :=
  bits h 7 0 = 0x5C && bits h 11 8 = 1 && bits h 63 36 = 0 && bits h 511 224 = 0 &&
  bits h 223 192 ≤ (bits h 19 12 + 1) * (bits h 35 20 + 1)

/-- The schedule that a header describes, loaded. -/
def mkSched (h : Nat) (hs : Tab Handle) (hk : Handle) (off : Word) (asid : BitVec 14) (cls : BitVec 2)
    (owner : ThreadRef) (core : Nat) (gates : List (Nat × List Barred) := []) : Sched :=
  { ne := bits h 19 12 + 1, rep := bits h 35 20 + 1, sdelta := sOf 64 (bits h 127 64), ddelta := sOf 64 (bits h 191 128)
    hs := hs, hk := hk, off := off, sc := bits h 223 192, comp := 0, total := (bits h 19 12 + 1) * (bits h 35 20 + 1)
    asid := asid, cls := cls, owner := owner, core := core, gates := gates }

/-- What the stages from a number on wait for, noted as they are let begin. -/
def addGate (barred : List Barred) (from' : Nat) (l : List (Nat × List Barred)) : List (Nat × List Barred) :=
  if barred.isEmpty ∧ l.isEmpty then l else (from', barred) :: l

/-- What a stage waits for: by the gate noted last at or below it. -/
def gateOf (d : Sched) (k : Nat) : List Barred := ((d.gates.find? fun g => g.1 ≤ k).map (·.2)).getD []

/-- A queue that can take a schedule (05/R129). -/
def queueIdle (x : SQueue) : Bool := x.entries.isEmpty && x.sched.isNone && x.halt.isNone

/-- `cp.sched` (05/R129). -/
def execCpSched (a : Src) (h : BitVec 4) (p : BitVec 3) (isl : BitVec 2) (q : BitVec 3) (s : State) : Answer :=
  issue s [a.reg] fun key t => do
    let c := keyCluster key
    let x ← readSrc t a
    let hk := readH t h
    let va ← liftE (checkHandle hk x.toInt 64 rRX t.asid)
    let (b, s') ← readIssue s (threadAgent key t) va 64
    let hdr := leNat b
    if !schedOk hdr ∨ x.toNat % 64 ≠ 0 then trapWith cDesc 0 (some x)
    else if !queueIdle (s'.squeue c isl.toNat q.toNat) then pure (s'.setThread key (writeP t p false))
    else
      let d := mkSched hdr t.h hk x t.asid t.cls t.ref (keyCore key) (addGate t.barred 0 [])
      pure ((s'.updSqueue c isl.toNat q.toNat fun y => { y with sched := some d }).setThread key (writeP t p true))

/-- The next entry of a schedule, read and checked (05/R126): its shape, its ring's offset and address, the state.
(DEDUCED, log 42.) -/
def schedEntry (s : State) (cl : Nat) (d : Sched) : Except Exc (Shape × Word × Nat × State) := do
  let ag : Agent := ⟨d.asid, cl, d.core, some d.owner.l, false⟩
  let e := d.comp % d.ne
  let r := d.comp / d.ne
  let off : Word := d.off + BitVec.ofNat 64 (64 + 32 * e)
  let va ← liftE (checkHandle d.hk off.toInt 32 rR d.asid)
  let (b, s') ← readIssue s ag va 32
  let w := leNat b
  if bits w 255 128 ≠ 0 ∨ bits w 63 0 % 64 ≠ 0 then trapWith cDesc 0 (some off)
  else
    let (sh, s2) ← readShape s' ag d.hk (BitVec.ofNat 64 (bits w 63 0)) (fun k => tabGet d.hs k {}) (r * d.sdelta)
      (r * d.ddelta)
    let roff := BitVec.ofNat 64 (bits w 127 64)
    let pa ← liftE (ringAt s2 d.asid d.hk roff.toInt)
    if !ringWf (ringGet s2 pa) then trapWith cRing 0 (some roff)
    else pure (sh, roff, pa, touchRing s2 d.asid d.hk roff.toInt pa)

/-- The reading of a schedule's next entry has asked a member that gives no response: since when, if it is the same as before
(18/R414). -/
def askedSince (now : Nat) (old : Option (Nat × Nat)) (m : Option Nat) : Option (Nat × Nat) :=
  m.map fun m => match old with
    | some (k, c) => if k = m then (m, c) else (m, now)
    | none => (m, now)

/-- The ring of an entry that was read before. One that is no longer well formed, as the slot is sought, halts the queue all the
same (DESIGN CHOICE, log 78). -/
def headRing (s : State) (d : Sched) (roff : Word) : Except Exn (Nat × State) :=
  match ringAt s d.asid d.hk roff.toInt with
  | .error e => .error e
  | .ok pa => if ringWf (ringGet s pa) then .ok (pa, touchRing s d.asid d.hk roff.toInt pa) else exn cRing 0 (some roff)

/-- The entry at a schedule's head: read and checked once, and kept while it waits for its ring's slot (05/R126); the state, the
entry, and its ring's address. A source curd's share is taken with the check, so that the wait cannot fail for want of one. -/
def headEntry (s : State) (cl : Nat) (d : Sched) : Except Exc (SchedHead × Nat × State) :=
  match d.head with
  | some x => (liftE (headRing s d x.roff)).map fun r => (x, r.1, r.2)
  | none =>
    (schedEntry s cl d).map fun r =>
      let curd := decide (r.1.skind = .curd)
      let z := if curd then takeShare r.2.2.2 cl (chIndex r.1.scurd.toNat) else r.2.2.2
      (⟨r.1, r.2.1, curd⟩, r.2.2.1, z)

/-- A schedule entry begins once its stage and its ring's slot allow (05/R126). -/
def execScheduleEntryBegin (cl isl q : Nat) (s : State) : Answer :=
  let x := s.squeue cl isl q
  match x.sched with
  | none => .next s
  | some d =>
    if x.halt.isSome ∨ !x.entries.isEmpty ∨ d.sc ≤ d.comp then .next s
    else
      match headEntry s cl d with
      | .error (.stall keep) =>
        let s := keep.getD s
        let z := s.updSqueue cl isl q fun x => { x with
          sched := x.sched.map fun d => { d with asks := askedSince s.cycle d.asks s.asked } }
        .next { z with asked := none }
      | .error (.trap e _) => .next (haltQueue s cl isl q d.owner e)
      | .ok (y, pa, s') =>
        let ring := ringGet s' pa
        let s' := s'.updSqueue cl isl q fun x => { x with sched := x.sched.map fun d => { d with head := some y } }
        if sub32 (rgIp ring) (rgRp ring) = rgN ring then .next s'
        else
          .next (acceptEntry s' cl isl q y.shape (tabGet d.hs y.shape.sh {}) (tabGet d.hs y.shape.dh {}) d.hk y.roff pa d.asid
            d.cls d.owner d.core (gateOf d d.comp) y.share)

/-! ## The other instructions -/

/-- `cp.adv` (05/R130). -/
def execCpAdv (d : Reg) (a : Src) (p : BitVec 3) (isl : BitVec 2) (q : BitVec 3) (s : State) : Answer :=
  issue s [d, a.reg] fun key t => do
    let c := keyCluster key
    let n ← readSrc t a
    let x := s.squeue c isl.toNat q.toNat
    let sc := match x.sched with
      | some y => Nat.min (y.sc + n.toNat) y.total
      | none => 0
    let t' ← writeDest t d (BitVec.ofNat 64 sc)
    let s' := s.updSqueue c isl.toNat q.toNat fun x =>
      { x with halt := none, haltPage := none, sched := x.sched.map fun y =>
        { y with sc := sc, gates := if y.sc < sc then addGate t.barred y.sc y.gates else y.gates } }
    pure (s'.setThread key (writeP t' p x.sched.isSome))

/-- HCAUSE code (05 Table 5.6). -/
def haltCode : Option HaltCause → Nat
  | none => 0
  | some .translation => 1
  | some .scratch => 2
  | some .descriptor => 3
  | some .format => 4
  | some .curd => 5
  | some .handle => 6
  | some .ring => 7

/-- The result of `cp.status` (05 Table 5.6). -/
def statusWord (x : SQueue) : Word :=
  BitVec.ofNat 64 (x.donecnt.toNat * 2 ^ 32 + haltCode x.halt * 2 ^ 8 + b2n x.halt.isSome * 2 ^ 6 +
    b2n x.sched.isSome * 2 ^ 5 + x.entries.length)

/-- `cp.status` (05/R131). -/
def execCpStatus (d : Reg) (p : BitVec 3) (isl : BitVec 2) (q : BitVec 3) (s : State) : Answer :=
  issueOwn s [d] fun t => do
    let x := s.squeue (keyCluster s.core) isl.toNat q.toNat
    let t' ← writeDest t d (statusWord x)
    pure (writeP t' p (queueIdle x))

/-- `ring.init` (05/R132): the ring word. -/
def ringWordOk (w : Nat) : Bool := bits w 63 10 = 0 && bits w 2 0 ≤ 6 && bits w 5 3 ≠ 7 && bits w 9 6 ≠ 0

/-- The object that `ring.init` writes. -/
def freshRing (w : Nat) : Nat := bits w 2 0 * 2 ^ 160 + bits w 5 3 * 2 ^ 163 + bits w 9 6 * 2 ^ 166 + 2 ^ 170

/-- `ring.init` (05/R132). -/
def execRingInit (d : Reg) (a : Src) (h : BitVec 4) (p : BitVec 3) (s : State) : Answer :=
  issue s [d, a.reg] fun key t => do
    let x ← readSrc t a
    let w ← readField t d
    let pa ← liftE (ringAt s t.asid (readH t h) x.toInt)
    let r := ringGet s pa
    let s := touchRing s t.asid (readH t h) x.toInt pa
    if !ringWordOk w.toNat then trapWith cRing 0 (some x)
    else if ringWf r ∧ rgIp r ≠ rgRp r then pure (s.setThread key (writeP t p false))
    else pure ((ringSet s pa (freshRing w.toNat)).setThread key (writeP t p true))

/-- The well-formed ring that a ring instruction names (05/R133). -/
def openRing (s : State) (t : Thread) (a : Src) (h : BitVec 4) : Except Exc (Nat × Nat × State) := do
  let x ← readSrc t a
  let pa ← liftE (ringAt s t.asid (readH t h) x.toInt)
  let r := ringGet s pa
  if ringWf r then pure (pa, r, touchRing s t.asid (readH t h) x.toInt pa) else trapWith cRing 0 (some x)

/-- Release(AS, SS) of a ring object (05/R133) has something to wait for. -/
def ringWaits (t : Thread) (r : Nat) : Bool :=
  releaseWaits t (BitVec.ofNat 3 (bits r 165 163)) (BitVec.ofNat 4 (bits r 169 166))

/-- `ring.wait` (05/R133). -/
def execRingWait (d : Reg) (a : Src) (h : BitVec 4) (p : BitVec 3) (s : State) : Answer :=
  issue s [d, a.reg] fun key t => do
    let (pa, r, s) ← openRing s t a h
    let _ ← destReady t d
    if rgCp r = rgWp r then pure (s.setThread key (writeP t p false))
    else
      let i := rgCp r % rgN r
      let v := BitVec.ofNat 64 (b2n (bit (rgErr r) i) * 2 ^ 63 + i)
      let s' := ringSet s pa (setBits r 127 96 ((rgCp r + 1) % 2 ^ 32))
      pure (s'.setThread key (writeP (writeR t d v) p true))

/-- `ring.rel` (05/R133): the new RP waits where the release does. -/
def execRingRel (a : Src) (h : BitVec 4) (p : BitVec 3) (s : State) : Answer :=
  issue s [a.reg] fun key t => do
    let (pa, r, s) ← openRing s t a h
    if sub32 (rgCp r) (rgRp r) ≤ ringPending s pa then pure (s.setThread key (writeP t p false))
    else if ringWaits t r then pure (s.setThread key (writeP (defer t (.ring pa)) p true))
    else pure ((ringSet s pa (ringFreed r)).setThread key (writeP t p true))

/-- `ring.wptr` (05/R133). -/
def execRingWptr (d : Reg) (a : Src) (h : BitVec 4) (p : BitVec 3) (s : State) : Answer :=
  issue s [d, a.reg] fun key t => do
    let (_, r, s) ← openRing s t a h
    let t' ← writeDest t d (BitVec.ofNat 64 (rgWp r * 2 ^ 32 + rgProg r))
    pure (s.setThread key (writeP t' p (decide (rgIp r ≠ rgWp r))))

/-- `qfence` (05/R134). -/
def execQfence (isl : BitVec 2) (m : BitVec 8) (s : State) : Answer :=
  issue s [] fun key _ =>
    let c := keyCluster key
    let named := (List.range 8).filter fun q => m.getLsbD q
    let nums := (named.map fun q => (s.squeue c isl.toNat q).entries.map (·.num)).flatten
    .ok (named.foldl (fun s q => s.updSqueue c isl.toNat q fun x =>
      { x with fence := (x.fence.filter fun n => (heldNums s c isl.toNat).contains n ∧ !nums.contains n) ++ nums }) s)

end Sys2Proof.Machine
end

