-- ==== Sys2Proof/Machine/Dispatcher.lean ====
section
/-! DEFINITION. The dispatcher: launch queues (16/R370-R372), record checks (R373), holds (R374), placement (R375-R377),
starts (R378, R381, R384, 17/R396), steals (R379) and watchdogs (17/R402). -/

namespace Sys2Proof.Machine

/-! ## Records (16 Tables 16.1, 16.2) -/

/-- A handle from its 128 bits (04 Table 4.8). -/
def handleOf (w : Nat) : Handle :=
  ⟨bit w 127, BitVec.ofNat 14 (bits w 122 109), BitVec.ofNat 5 (bits w 108 104), BitVec.ofNat 48 (bits w 103 56),
    BitVec.ofNat 56 (bits w 55 0)⟩

/-- Root handle k of a record, as bits. -/
def rootBits (w k : Nat) : Nat := bits w (1151 + 128 * k) (1024 + 128 * k)

/-- Hierarchy word d of a record. -/
def levelBits (w d : Nat) : Nat := bits w (543 + 32 * d) (512 + 32 * d)

/-- The record that 256 bytes hold. -/
def recordOfBits (w : Nat) : Record :=
  { nlev := bits w 14 12, cls := BitVec.ofNat 2 (bits w 16 15), asid := BitVec.ofNat 14 (bits w 30 17)
    part := bits w 34 31, carve := bits w 42 35, codeh := bits w 45 43, sen := bit w 46, sis := bits w 48 47
    sq := bits w 51 49, schh := bits w 54 52, den := bit w 55, doneh := bits w 58 56, depen := bit w 59
    deph := bits w 62 60, entry := BitVec.ofNat 64 (bits w 127 64), task := BitVec.ofNat 56 (bits w 183 128)
    msg := BitVec.ofNat 64 (bits w 255 192), ovbase := BitVec.ofNat 64 (bits w 319 256)
    ovlen := BitVec.ofNat 64 (bits w 383 320), schoff := BitVec.ofNat 64 (bits w 447 384)
    seed := BitVec.ofNat 32 (bits w 479 448)
    levels := (List.range (bits w 14 12 + 1)).map fun d => BitVec.ofNat 32 (levelBits w d)
    doneoff := BitVec.ofNat 64 (bits w 895 832), depoff := BitVec.ofNat 64 (bits w 959 896)
    roots := (List.range 8).map fun k => handleOf (rootBits w k), shdr := 0 }

/-- COUNT of a hierarchy word. -/
def lvCount (w : Nat) : Nat := bits w 23 0
/-- DOMAIN. -/
def lvDomain (w : Nat) : Nat := bits w 26 24
/-- SCOPE. -/
def lvScope (w : Nat) : Nat := bits w 29 27

/-- Cores in one instance of a placement domain (01 Table 1.1). -/
def coresOf : Nat → Nat
  | 3 => 1
  | 4 => 48
  | 5 => 768
  | _ => 1536

/-- One level of the hierarchy under the domain above it, none for level 0 (16/R369). (DEDUCED, log 61.) -/
def levelOk (above : Option Nat) (w : Nat) : Bool :=
  let d := lvDomain w
  let n := lvCount w
  let falls := match above with
    | none => true
    | some u => decide (d < u)
  n ≠ 0 && falls &&
  (if d < 3 then lvScope w ≤ 2
   else
    let outer := above.getD 6
    d ≠ 7 && (d ≠ 6 || n = 1) && n ≤ coresOf outer / coresOf d && d - 2 ≤ lvScope w && lvScope w ≤ outer - 2 &&
    n ≤ coresOf (lvScope w + 2) / coresOf d)

/-- The levels obey 16/R369, each under the one before. -/
def levelsOk : Option Nat → List W32 → Bool
  | _, [] => true
  | above, w :: r => levelOk above w.toNat && levelsOk (some (lvDomain w.toNat)) r

/-- Placement levels, outermost first. -/
def placeLevels (r : Record) : List Nat := (r.levels.map (·.toNat)).filter fun w => 3 ≤ lvDomain w

/-- Reserved bits of a record are 0, and so are the levels above NLEV (16 Table 16.4 cause 1). -/
def reservedClear (w : Nat) : Bool :=
  !bit w 63 && bits w 191 184 = 0 && bits w 1023 960 = 0 &&
  (List.range 8).all fun d => if d ≤ bits w 14 12 then bits (levelBits w d) 31 30 = 0 else levelBits w d = 0

/-- A root handle obeys 04/R93 for an ASID. -/
def rootOk (asid w : Nat) : Bool :=
  bits w 126 123 = 0 && bits w 55 0 + bits w 103 56 ≤ 2 ^ 56 && (!bit w 127 || bits w 122 109 = asid)

/-- A root handle gives R, W and A at an 8-byte word (16 Table 16.4 cause 9). -/
def wordRootOk (r : Record) (k : Nat) (off : Word) : Bool :=
  let h := r.roots.getD k {}
  h.v && h.rights &&& rRWA = rRWA && off.toNat % 8 = 0 && off.toNat + 8 ≤ h.len.toNat

/-- The schedule header in root SCHH, where it passes 05/R129's checks (16 Table 16.4 cause 8), and the state after its
reading. (DEDUCED, log 61.) -/
def schedHeader (s : State) (r : Record) : Option (Nat × State) :=
  match checkHandle (r.roots.getD r.schh {}) r.schoff.toInt 64 rRX r.asid with
  | .error _ => none
  | .ok va =>
    match readLocal s r.asid va 64 with
    | .error _ => none
    | .ok x => if schedOk (leNat x.1) ∧ r.schoff.toNat % 64 = 0 then some (leNat x.1, x.2) else none

/-- The first cause of 16 Table 16.4 that a record fails, 0 for none; cause 7 is tested at placement. -/
def recordCause (s : State) (q w : Nat) : Nat :=
  let r := recordOfBits w
  let ctl := (tabGet s.regs.lqctl q 0).toNat
  let code := r.roots.getD r.codeh {}
  if bits w 7 0 ≠ 0x1A ∨ bits w 11 8 ≠ 1 ∨ !reservedClear w then 1
  else if !levelsOk none r.levels ∨ (placeLevels r).isEmpty then 2
  else if r.asid ≠ lqAsid s q ∨ r.cls.toNat < bits ctl 44 43 then 3
  else if (List.range 8).any fun k => !rootOk r.asid.toNat (rootBits w k) then 4
  else if !code.v ∨ code.rights &&& rX ≠ rX ∨ r.entry.toNat % 4 ≠ 0 ∨ code.len.toNat < r.entry.toNat + 4 then 5
  else if 128 < r.carve ∨ bits r.ovbase.toNat 63 56 ≠ 0 ∨ bits r.ovbase.toNat 2 0 ≠ 0 ∨ bits r.ovlen.toNat 2 0 ≠ 0 then 6
  else if r.sen ∧ (schedHeader s r).isNone then 8
  else if (r.den ∧ !wordRootOk r r.doneh r.doneoff) ∨ (r.depen ∧ !wordRootOk r r.deph r.depoff) then 9
  else 0

/-! ## Queue objects (16/R370, R372) -/

/-- Offset of the slot of a counter. -/
def slotAt (s : State) (q : Nat) (v : Word) : Nat := 256 + 256 * (v.toNat % lqSlots s q)

/-- Write bytes of a queue object. A place that does not translate to local device memory is left; one in the view of a packed
window has no storing instruction or node to raise the fault of 04/R84 at, and the bytes go to memory under the view (DESIGN
CHOICE, log 28). -/
def lqWrite (s : State) (q off n v : Nat) : State :=
  match translate s (lqAsid s q) (lqBase s q + off) .store with
  | .ok (.dev pa) => putPlain (noteWalk s [] (lqAsid s q) (lqBase s q + off)) pa (natLe n v)
  | _ => s

/-- Consume the slot at HEAD (16/R372): STAT, HEAD, and the header's copy. -/
def consume (s : State) (q stat : Nat) : State :=
  let h := (s.lq q).head
  let s := lqWrite s q (slotAt s q h + 96) 8 stat
  let s := lqWrite s q 8 8 (h + 1).toNat
  s.updLq q fun l => { l with head := h + 1, ready := false, record := none, heldAt := none, limit := 0 }

/-- Read bytes of a queue; a failing read holds the queue (16/R372). -/
def lqRead (s : State) (q off n : Nat) : Except Exn (List Byte × State) := readLocal s (lqAsid s q) (lqBase s q + off) n

/-! ## Placement (16/R375-R377) -/

/-- A core is free (16/R377): no thread holds it, and it is not retired. -/
def coreFree (s : State) (key : Nat) : Bool := (s.threadAt key).isNone && (tabFind s.saved key).isNone && !coreGone s key

/-- Free cores of a cluster. -/
def freeCores (s : State) (c : Nat) : List Nat := ((List.range 48).map (64 * c + ·)).filter (coreFree s)

/-- Reserved cores of a cluster held by threads less urgent than class 0, least urgent class first, then highest core
(16/R376, R381). -/
def takenCores (s : State) (c : Nat) : List Nat :=
  let keys := (List.range (resCores s)).map fun i => 64 * c + (47 - i)
  ([3, 2, 1].map fun cls => keys.filter fun k =>
    match s.threadAt k with
    | some t => decide (t.cls.toNat = cls) && (tabFind s.saved k).isNone && !coreGone s k
    | none => false).flatten

/-- Cores of a cluster in placement order for a class (16/R376). -/
def placeOrder (s : State) (cls c : Nat) : List Nat :=
  if cls = 0 then freeCores s c ++ takenCores s c else freeCores s c

/-- Clusters of a scope, from cluster h (16/R376). -/
def clusterOrder (h scope : Nat) : List Nat :=
  if scope ≤ 2 then [h]
  else if scope = 3 then (List.range 16).map fun i => 16 * (h / 16) + (h % 16 + i) % 16
  else (List.range 32).map fun i => (h + i) % 32

/-- The cluster from which instance i of a level wider than `core` starts (16/R376). -/
def instStart (h dom scope i : Nat) : Nat :=
  if dom = 5 then 16 * ((h / 16 + i) % 2) + h % 16
  else if dom = 4 then
    (if scope ≤ 2 then h else if scope = 3 then 16 * (h / 16) + (h % 16 + i) % 16 else (h + i) % 32)
  else h

/-- Instances of one level under one instance: index lists and starting clusters. -/
def expandOne (w : Nat) (x : List Nat × Nat) : List (List Nat × Nat) :=
  (List.range (lvCount w)).map fun i => (x.1 ++ [i], instStart x.2 (lvDomain w) (lvScope w) i)

/-- Instances of the levels wider than `core`, in rank order. -/
def expandAll : List Nat → List (List Nat × Nat) → List (List Nat × Nat)
  | [], l => l
  | w :: r, l => expandAll r (l.map (expandOne w)).flatten

/-- Give each instance n cores, each used once: index lists and cores, in rank order. `inner` says that the cores are a
level of their own. -/
def assignCores (s : State) (cls n : Nat) (order : Nat → List Nat) (inner : Bool) :
    List (List Nat × Nat) → List Nat → Option (List (List Nat × Nat))
  | [], _ => some []
  | x :: r, used =>
    let ks := (((order x.2).map (placeOrder s cls)).flatten.filter fun k => !used.contains k).take n
    if ks.length < n then none
    else
      match assignCores s cls n order inner r (used ++ ks) with
      | none => none
      | some l => some (ks.zipIdx.map (fun k => (if inner then x.1 ++ [k.2] else x.1, k.1)) ++ l)

/-- Place a launch's threads from a home: the placement indices and the core of each, in rank order. -/
def placeThreads (s : State) (r : Record) (home : Nat) : Option (List (List Nat × Nat)) :=
  let ls := placeLevels r
  let wide := ls.filter fun w => 4 ≤ lvDomain w
  let insts := expandAll wide [([], home)]
  match ls.find? fun w => lvDomain w = 3 with
  | some w => assignCores s r.cls.toNat (lvCount w) (fun h => clusterOrder h (lvScope w)) true insts []
  | none =>
    let dom := lvDomain (ls.getLastD 0)
    assignCores s r.cls.toNat 1 (fun h => clusterOrder h (dom - 2)) false insts []

/-- The cluster with the most cores that are free for a class (16/R375, R377), the lowest of several. -/
def freest (s : State) (cls : Nat) : Nat :=
  let n := fun c => (placeOrder s cls c).length
  (List.range 32).foldl (fun b c => if n b < n c then c else b) 0

/-- The home cluster of a launch (16/R375). (DEDUCED, log 29.) -/
def homeOf (s : State) (r : Record) : Nat :=
  let most := fun () => freest s r.cls.toNat
  if r.task = 0 ∨ isScratch r.task.toNat then most ()
  else
    match translateTable s [] r.asid r.task.toNat .load with
    | .ok (.dev pa) => clusterOf pa
    | _ => most ()

/-! ## Holds (16/R374) -/

/-- Read the dependence word (16/R374): the launch is held when it is nonzero, or cannot be read. The dispatcher is a unit of
no cluster: a word in the scratch aperture is that of cluster 0 (DESIGN CHOICE, log 33). -/
def readDep (s : State) (r : Record) : Except Exc (List Byte × State) :=
  readIssue s ⟨r.asid, 0, 0, none, false⟩ ((r.roots.getD r.deph {}).base.toNat + r.depoff.toNat) 8

/-- The dependence word holds a launch. -/
def depHolds (s : State) (r : Record) : Bool :=
  r.depen &&
  (match readDep s r with
   | .ok x => leNat x.1 ≠ 0
   | .error _ => true)

/-- What reading the dependence word leaves: its line has been used (05/R103). -/
def afterDep (s : State) (r : Record) : State :=
  match r.depen, readDep s r with
  | true, .ok x => x.2
  | _, _ => s

/-- Clusters on which a placement starts threads. -/
def startClusters (pl : List (List Nat × Nat)) : List Nat := (pl.map fun x => keyCluster x.2).eraseDups

/-- Pages that the page engine could page out. -/
def evictable (s : State) (c : Nat) : Nat :=
  ((s.cluster c).lru.filter fun k => eSt (sttEntry s c k) = 1 && eProt (sttEntry s c k) ≠ 2).length

/-- A cluster can take n carve-out pages (06/R154, 07/R162, 16/R374). -/
def carveFits (s : State) (c n : Nat) : Bool :=
  let x := s.cluster c
  heldBack x + n ≤ 4096 && x.slots.length + n ≤ 8192 && n ≤ freeCount x + evictable s c

/-- The schedule's queue on rank 0's cluster can take it. -/
def schedFits (s : State) (r : Record) (pl : List (List Nat × Nat)) : Bool :=
  !r.sen || queueIdle (s.squeue (keyCluster (pl.headD ([], 0)).2) r.sis r.sq)

/-- A placement under which a launch of the record may start now from a home: none while it is held. -/
def startable (s : State) (r : Record) (home : Nat) : Option (List (List Nat × Nat)) :=
  if depHolds s r then none
  else
    match placeThreads s r home with
    | none => none
    | some pl =>
      let fits := (startClusters pl).all fun c =>
        carveFits s c (r.carve * (pl.filter fun x => keyCluster x.2 = c).length)
      if fits ∧ schedFits s r pl then some pl else none

/-- The record is held only because its threads cannot be placed (16/R379). -/
def wantsPlace (s : State) (r : Record) (home : Nat) : Bool :=
  r.cls ≠ 0 && !depHolds s r && (placeThreads s r home).isNone

/-! ## Polling and checking -/

/-- Note since when the queue's record has been held only for want of placement. -/
def noteHeld (s : State) (q : Nat) : State :=
  match (s.lq q).record with
  | none => s
  | some r =>
    let h := if wantsPlace s r (s.lq q).home then some ((s.lq q).heldAt.getD s.cycle) else none
    (afterDep s r).updLq q fun l => { l with heldAt := h }

/-- Read TAIL and the VALID word of the slot at HEAD (16/R372); a read that has succeeded lets a later fault post again. -/
def pollQueue (s : State) (q : Nat) : State :=
  match lqRead s q 0 8 with
  | .error e => queueFault s q e
  | .ok (tb, s) =>
    let tail := BitVec.ofNat 64 (leNat tb)
    let h := (s.lq q).head
    let s := s.updLq q fun l => { l with tail := tail, posted := false }
    if tail.toNat ≤ h.toNat then s.updLq q fun l => { l with ready := false }
    else
      match lqRead s q (slotAt s q h + 60) 4 with
      | .error e => queueFault s q e
      | .ok (vb, s) =>
        let ready := decide (leNat vb = (h.toNat + 1) % 2 ^ 32)
        s.updLq q fun l => { l with ready := ready }

/-- The dispatcher reads a queue again: its header while it has not read it, then TAIL, VALID and the dependence word. -/
def readQueue (s : State) (q : Nat) : State :=
  if !lqEn s q then s
  else if !(s.lq q).opened then openQueue s q
  else if (s.lq q).record.isSome then noteHeld s q
  else pollQueue s q

/-- DISPATCHER_POLL (16/R372, R374). -/
def execDispatcherPoll (q : Nat) (s : State) : Answer := .next (if q < 64 then readQueue s q else s)

/-- RECORD_CHECK (16/R373): a ready slot's record is rejected, or admitted. (DEDUCED, log 29.) -/
def execRecordCheck (q : Nat) (s : State) : Answer :=
  .next (
    let l := s.lq q
    if 64 ≤ q ∨ !lqEn s q ∨ !l.opened ∨ !l.ready ∨ l.record.isSome then s
    else
      match lqRead s q (slotAt s q l.head) 256 with
      | .error e => queueFault s q e
      | .ok (b, s) =>
        let w := leNat b
        let cause := recordCause s q w
        let s := s.updLq q fun l => { l with posted := false }
        if cause ≠ 0 then consume s q (2 + cause * 256)
        else
          let r := recordOfBits w
          let x := ((if r.sen then schedHeader s r else none)).getD (0, s)
          let r := { r with shdr := x.1 }
          noteHeld (x.2.updLq q fun l => { l with record := some r, home := homeOf s r, admitted := s.cycle }) q)

/-! ## Starting (16/R378, R381, R384) -/

/-- A registers' table: `g1` rank, `g2` launch id, `g3` TASK, `g4 + d` the levels' indices or counts. -/
def startRegs (r : Record) (l : LaunchRef) (rank : Nat) (idx : List Nat) : Tab Cell :=
  let full := fun v => (⟨BitVec.ofNat 64 v, .full⟩ : Cell)
  let words := (r.levels.zipIdx.map fun x =>
    let w := x.1.toNat
    if 3 ≤ lvDomain w then idx.getD x.2 0 else lvCount w)
  [(1, full rank), (2, full (l.n % 2 ^ 26 * 64 + l.q)), (3, full r.task.toNat)] ++
    words.zipIdx.map fun x => (4 + x.2, full x.1)

/-- A control thread as it starts (16/R378). (DEDUCED, log 67.) -/
def startThread (r : Record) (l : LaunchRef) (rank : Nat) (idx : List Nat) : Thread :=
  { ref := ⟨l, rank⟩, asid := r.asid, cls := r.cls, part := BitVec.ofNat 4 r.part, carve := r.carve
    g := startRegs r l rank idx, h := r.roots.zipIdx.map fun x => (x.2, x.1)
    code := r.roots.getD r.codeh {}, ovbase := r.ovbase, ovlen := r.ovlen
    chans := [(0, ⟨0, true, false, r.entry, [r.msg]⟩)] }

/-- Map one carve-out page, resident and pinned (06/R154). -/
def mapCarvePage (s : State) (key p : Nat) (asid : BitVec 14) : State :=
  let c := keyCluster key
  let k := 2048 * carveSpace key + p
  match freeSlot (s.cluster c), frameOrEvict s c (keyCore key) with
  | some n, some (s, f) =>
    let s := s.updCluster c fun x => { x with slots := x.slots ++ [n], pinned := x.pinned ++ [k] }
    let s := takeFrame s c f (.page k)
    touchPage (setEntry s c k (mkEntry asid.toNat n 1 2 f)) c k
  | _, _ => s

/-- Map the carve-out of a core's thread. -/
def mapCarve (s : State) (key pages : Nat) (asid : BitVec 14) : State :=
  (List.range pages).foldl (fun s p => mapCarvePage s key p asid) s

/-- Start one thread: the core's present thread, less urgent, is saved (17/R396). -/
def startOn (s : State) (r : Record) (l : LaunchRef) (rank : Nat) (x : List Nat × Nat) : State :=
  let s := saveThread s x.2
  let s := mapCarve s x.2 r.carve r.asid
  s.setThread x.2 (startThread r l rank x.1)

/-- A class-0 launch takes the reserved islands of its clusters from lower-class holders (16/R381, 12/R304); one that a draining
casting feeds is not pre-empted between that casting's boundary points, but at the launch's claim (17/R398). -/
def takeIslands (s : State) (l : LaunchRef) (cs : List Nat) : State :=
  cs.foldl (fun s c => (List.range (resIslands s)).foldl (fun s i =>
    match (s.island c i).hold with
    | .held h _ => if classOf s h ≠ 0 ∧ islandPreemptable s c i then preemptIsland s c i l else s
    | _ => s) s) s

/-- Load the schedule at start (16/R378, 05/R129). -/
def startSched (s : State) (r : Record) (l : LaunchRef) (key : Nat) : State :=
  if r.sen then
    let d := mkSched r.shdr (r.roots.zipIdx.map fun x => (x.2, x.1)) (r.roots.getD r.schh {}) r.schoff r.asid r.cls
      ⟨l, 0⟩ (keyCore key)
    s.updSqueue (keyCluster key) r.sis r.sq fun y => { y with sched := some d }
  else s

/-- All threads of a launch start together (16/R377, R378). -/
def startLaunch (s : State) (q : Nat) (r : Record) (pl : List (List Nat × Nat)) : State :=
  let l : LaunchRef := ⟨q, (s.lq q).head.toNat⟩
  let cs := startClusters pl
  let limit := (s.lq q).limit
  let s := if r.cls = 0 then takeIslands s l cs else s
  let s := consume s q 1
  let x : Launch := { ref := l, record := r, live := List.range pl.length, clusters := cs, started := s.cycle, limit := limit }
  let s := { s with launches := s.launches ++ [x] }
  let s := pl.zipIdx.foldl (fun s y => startOn s r l y.2 y.1) s
  startSched s r l (pl.headD ([], 0)).2

/-- PART is enabled for the ASID on every cluster that would receive a thread (16 Table 16.4 cause 7). -/
def partsOk (s : State) (r : Record) (pl : List (List Nat × Nat)) : Bool :=
  (startClusters pl).all fun c => partFor s c r.part r.asid

/-- The weight of a class (16 Table 16.3). -/
def weightOf (s : State) (c : Nat) : Nat := bits s.regs.schwt.toNat (8 * c - 1) (8 * c - 8)

/-- Credit of a class (16/R384). -/
def creditIn (s : State) (c : Nat) : Nat := tabGet s.credits c 0

/-- The next queue in round robin after the one served last in a class. -/
def nextQueue (s : State) (c : Nat) (qs : List Nat) : Option Nat :=
  match qs.find? fun q => tabGet s.lastQ c 63 < q with
  | some q => some q
  | none => qs.head?

/-- Queues of a class among given ones. -/
def ofClass (s : State) (qs : List Nat) (c : Nat) : List Nat :=
  qs.filter fun q => match (s.lq q).record with
    | some r => decide (r.cls.toNat = c)
    | none => false

/-- The class-1 to class-3 queue that weighted round robin takes with the credits in force. -/
def pickWeighted (s : State) (qs : List Nat) : Option Nat :=
  ([1, 2, 3].find? fun c => creditIn s c ≠ 0 && !(ofClass s qs c).isEmpty).bind fun c => nextQueue s c (ofClass s qs c)

/-- Every credit set back to its weight (16/R384). -/
def resetCredits (s : State) : State := { s with credits := [1, 2, 3].map fun c => (c, weightOf s c) }

/-- The queue that the dispatcher starts from, among those with a startable head (16/R381, R384), and the state with the
credits it uses. -/
def pickQueue (s : State) (qs : List Nat) : Option (Nat × State) :=
  match ofClass s qs 0 with
  | q :: r => (nextQueue s 0 (q :: r)).map fun x => (x, s)
  | [] =>
    match pickWeighted s qs with
    | some x => some (x, s)
    | none => (pickWeighted (resetCredits s) qs).map fun x => (x, resetCredits s)

/-- A start takes its class's turn and credit. -/
def countStart (s : State) (q c : Nat) : State :=
  let s := { s with lastQ := tabPut s.lastQ c q }
  if c = 0 then s else { s with credits := tabPut s.credits c (creditIn s c - 1) }

/-- Queues with a startable head. -/
def startableQueues (s : State) : List Nat :=
  (List.range 64).filter fun q =>
    match (s.lq q).record with
    | some r => lqEn s q && (startable s r (s.lq q).home).isSome
    | none => false

/-- While no class with credit has a startable head, every credit stands at its weight (16/R384). -/
def settleCredits (s : State) : State :=
  if (pickWeighted s (startableQueues s)).isNone then resetCredits s else s

/-- Place an admitted launch: it is rejected for cause 7, or it starts. -/
def placeLaunch (s : State) (q : Nat) (r : Record) (pl : List (List Nat × Nat)) : State :=
  if partsOk s r pl then startLaunch (countStart s q r.cls.toNat) q r pl else consume s q (2 + 7 * 256)

/-- LAUNCH_START (16/R377, R378, R381, R384). -/
def execLaunchStart (q : Nat) (s : State) : Answer :=
  .next (
    match (s.lq q).record, pickQueue s (startableQueues s) with
    | some r, some (x, s') =>
      if x = q then
        match startable s' r (s'.lq q).home with
        | some pl => placeLaunch (afterDep s' r) q r pl
        | none => s
      else s
    | _, _ => s)

/-- STEAL (16/R379): the first other home at which the launch's threads can be placed (R377). -/
def execSteal (q : Nat) (s : State) : Answer :=
  .next (
    match (s.lq q).record, (s.lq q).heldAt with
    | some r, some t =>
      let h := (s.lq q).home
      let due := decide (t + s.regs.stealt.toNat ≤ s.cycle) && wantsPlace s r h && lqEn s q
      let home := ((List.range 31).map fun i => (h + 1 + i) % 32).find? fun g => (placeThreads s r g).isSome
      let found := home.bind fun g => startable s r g
      match due, found, pickQueue s (startableQueues s ++ [q]) with
      | true, some pl, some (x, s') => if x = q then placeLaunch (afterDep s' r) q r pl else s
      | _, _, _ => s
    | _, _ => s)

/-! ## Watchdogs (17/R402) -/

/-- WATCHDOG_EXPIRY: the count of 800 cycles a microsecond passes the limit, and the launch is killed as 17/R394 lays
down. -/
def execWatchdogExpiry (l : LaunchRef) (s : State) : Answer :=
  .next (match launchOf s l with
    | some x =>
      if x.limit ≠ 0 ∧ x.limit * 800 < x.counted then postFree (killLaunch s l) .kill else s
    | none => s)

end Sys2Proof.Machine
end

