-- ==== Sys2Proof/Machine/Pod.lean ====
section
/-! DEFINITION. The pod: combining operators (18/R420, R421), pod instructions (R416-R426), requests of other members
(R413, R418, R425), and lost members (R414, R415, R422). -/

namespace Sys2Proof.Machine

/-! ## Combining operators (18 Table 18.8) -/

/-- A combined value and the flags raised. -/
structure Combined where
  words : List W32
  fl    : Flags
  deriving DecidableEq, Repr

/-- Word i of a contribution. -/
def wordAt (l : List W32) (i : Nat) : Nat := (l.getD i 0).toNat

/-- Combine the doublewords of two contributions. -/
def combineInt (f : Int → Int → Int) (x y : List W32) : Combined :=
  let dw := fun (l : List W32) i => sOf 64 (wordAt l (2 * i) + 2 ^ 32 * wordAt l (2 * i + 1))
  ⟨((List.range (x.length / 2)).map fun i =>
      let r := wrapN 64 (f (dw x i) (dw y i))
      [BitVec.ofNat 32 r, BitVec.ofNat 32 (r / 2 ^ 32)]).flatten, 0⟩

/-- Combine the FP32 words of two contributions. -/
def combineFl (f : Nat → Nat → Res) (x y : List W32) : Combined :=
  let rs := (List.range x.length).map fun i => f (wordAt x i) (wordAt y i)
  ⟨rs.map fun r => BitVec.ofNat 32 r.bits, rs.foldl (fun a r => a ||| r.fl) 0⟩

/-- Round(x + y, FP32, RNE). -/
def addFp32 (x y : Nat) : Res :=
  let v := addV 0 (flFp32.unpack x) (flFp32.unpack y)
  storeFl flFp32 0 false 1 v.1 v.2

/-- α of one side of `rmerge` (18/R421). -/
def mergeAlpha (mk m : Nat) : Res :=
  if eqV (flFp32.unpack mk) (flFp32.unpack m) then ⟨0x3F800000, 0, 1⟩
  else if mk = 0xFF800000 then ⟨0, 0, 1⟩
  else
    let v := addV 0 (flFp32.unpack mk) (negV (flFp32.unpack m))
    let d := storeFl flFp32 0 false 1 v.1 v.2
    let e := spExp2 1 (flFp32.unpack d.bits)
    { e with fl := e.fl ||| d.fl }

/-- Round(x1 × α1 + x2 × α2, FP32, RNE), one rounding of the exact value. -/
def mergeWord (x1 a1 x2 a2 : Nat) : Res :=
  let p := mulV (flFp32.unpack x1) (flFp32.unpack a1)
  let q := mulV (flFp32.unpack x2) (flFp32.unpack a2)
  let v := addV 0 p.1 q.1
  storeFl flFp32 0 false 1 v.1 (p.2 ||| q.2 ||| v.2)

/-- `rmerge` (18/R421). -/
def combineMerge (x y : List W32) : Combined :=
  let m1 := wordAt x 0
  let m2 := wordAt y 0
  if (flFp32.unpack m1).isNan ∨ (flFp32.unpack m2).isNan then
    ⟨List.replicate x.length (BitVec.ofNat 32 flFp32.qnan), fNV⟩
  else
    let m := (pickFl flFp32 true m1 m2 1).bits
    let a1 := mergeAlpha m1 m
    let a2 := mergeAlpha m2 m
    let rs := (List.range (x.length - 1)).map fun i => mergeWord (wordAt x (i + 1)) a1.bits (wordAt y (i + 1)) a2.bits
    ⟨BitVec.ofNat 32 m :: rs.map fun r => BitVec.ofNat 32 r.bits,
     rs.foldl (fun a r => a ||| r.fl) (a1.fl ||| a2.fl)⟩

/-- x combined with y, x the left operand. -/
def combineTwo (op : Nat) (x y : List W32) : Combined :=
  match op with
  | 0 => combineInt (· + ·) x y
  | 1 => combineInt maxInt x y
  | 2 => combineInt minInt x y
  | 3 => combineFl addFp32 x y
  | 4 => combineFl (fun a b => pickFl flFp32 true a b 1) x y
  | 5 => combineFl (fun a b => pickFl flFp32 false a b 1) x y
  | _ => combineMerge x y

/-- One level of the tree of 18/R420. -/
def combineLevel (op : Nat) : List (List W32) → List (List W32) × Flags
  | x :: y :: r =>
    let c := combineTwo op x y
    let q := combineLevel op r
    (c.words :: q.1, c.fl ||| q.2)
  | l => (l, 0)

/-- The tree of 18/R420; `fuel` bounds its levels. -/
def combineTree (op : Nat) : Nat → List (List W32) → Flags → List W32 × Flags
  | 0, l, fl => (l.headD [], fl)
  | fuel + 1, l, fl =>
    if l.length ≤ 1 then (l.headD [], fl)
    else
      let q := combineLevel op l
      combineTree op fuel q.1 (fl ||| q.2)

/-- A member can be reached: this one, or one that is up (04/R99). -/
def reaches (s : State) (m : Nat) : Bool := m = s.member || memberUp s m

/-! ## Issuing (18/R416, R417) -/

/-- SRC of a pod descriptor (18 Table 18.7). -/
def pdSrc (w : Nat) : Nat := bits w 63 0
/-- DST. -/
def pdDst (w : Nat) : Nat := bits w 127 64
/-- FLAG. -/
def pdFlag (w : Nat) : Nat := bits w 191 128
/-- LEN. -/
def pdLen (w : Nat) : Nat := bits w 207 192
/-- TAG. -/
def pdTag (w : Nat) : Nat := bits w 223 208
/-- RING. -/
def pdRing (w : Nat) : Nat := bits w 287 224

/-- A descriptor breaks 18 Table 18.7, or R420's lengths. (DEDUCED, log 60.) -/
def podDescBad (w : Nat) (op : Option (BitVec 3)) : Bool :=
  bits w 511 288 ≠ 0 || pdDst w % 8 ≠ 0 || pdLen w % 4 ≠ 0 || pdLen w < 4 ||
  match op with
  | none => pdFlag w % 8 ≠ 0 || pdTag w ≠ 0 || pdLen w % 8 ≠ 0
  | some o => pdFlag w ≠ 0 || (if o.toNat < 3 then pdLen w % 8 ≠ 0 else o = 6 && pdLen w < 12)

/-- The port that a combine's contribution leaves through (18/R423); 24 when none is up. -/
def combinePortOf (s : State) (set : Word) (tag : Half) : Nat := (portBy s (Config.combinePort set tag)).getD 24

/-! ## Combining (18/R420-R424) -/

/-- A participant's contribution to a combine. -/
def PodOp.part (x : PodOp) : Contrib :=
  ⟨x.nth, x.op.getD 0, x.tag, (chunks 4 x.data.length x.data).map fun c => BitVec.ofNat 32 (leNat c)⟩

/-- A contribution agrees with this participant's own in operator, LEN and TAG (18/R422). -/
def agrees (x : PodOp) (c : Contrib) : Bool :=
  c.op = x.part.op && c.tag = x.tag && c.words.length = x.part.words.length

/-- What a run of the tree's levels leaves at a participant: its operation, what it sends and to whom, and whether the
participants disagree. -/
structure TreeRun where
  op   : PodOp
  send : Option (List Nat × PodBody) := none
  bad  : Bool := false
  deriving DecidableEq, Repr

/-- Run the tree level by level at position i, as far as the values that have come allow (18/R424): a position that is no multiple
of 2^l sends its value at level l, and the value leaves the tree; another combines its value, as the left operand, with that of
position i + 2^(l-1), or keeps it where there is none; when one value remains, position 0 sends the result to every other
participant. `fuel` bounds the levels. -/
def treeRun (early : List EarlyPart) (ms : List Nat) (i : Nat) : Nat → PodOp → TreeRun
  | 0, x => { op := x }
  | fuel + 1, x =>
    let l := x.level + 1
    let half := 2 ^ x.level
    if x.out ∨ x.res.isSome then { op := x }
    else if ms.length ≤ half then
      { op := { x with res := some (x.val, x.fl) }, send := some (ms, .result x.set x.nth x.val x.fl) }
    else if i % 2 ^ l ≠ 0 then
      { op := { x with out := true }
        send := some ([ms.getD (i - half) 0], .treeValue x.set l { x.part with words := x.val } x.fl) }
    else if ms.length ≤ i + half then treeRun early ms i fuel { x with level := l }
    else
      match early.find? fun e => e.set = x.set ∧ e.nth = x.nth ∧ e.level = l with
      | none => { op := x }
      | some e =>
        if !agrees x ⟨e.nth, e.op, e.tag, e.words⟩ then { op := x, bad := true }
        else
          let c := combineTwo x.part.op.toNat x.val e.words
          treeRun early ms i fuel { x with level := l, val := c.words, fl := x.fl ||| e.fl ||| c.fl }

/-- A combine goes on in the tree that the participants run themselves (18/R424); one of which a part has failed fails (R420). -/
def treeAdvance (s : State) (x : PodOp) : State :=
  let ms := podMembers x.set
  let r := treeRun s.early ms (ms.idxOf s.member) 12 x
  let s := { s with podOps := s.podOps.map fun y => if y.id = x.id then r.op else y }
  if x.err ∨ r.bad then podFail s r.op
  else
    match r.send with
    | some (ms, b) => sendEach s ms x.dst.toNat b
    | none => s

/-- A combine begins: with a switch, its contribution is sent (18/R423), without one its levels run (R424). One that holds a
member that is not up, or whose source met an error, fails at once (18/R415, R422). -/
def podStart (s : State) (x : PodOp) : State :=
  if x.op.isNone then s
  else if x.err then podFail s x
  else if podSwitch s then { s with sent := s.sent ++ [⟨none, some x.port, .contribution x.set x.part⟩] }
  else treeAdvance s x

/-- The operation as its levels begin: its value is its contribution. -/
def PodOp.atLeaf (x : PodOp) : PodOp := { x with val := x.part.words }

/-- A switch combine's port is down, and requests that are outstanding on it have not ended: the combine waits (18/R413). -/
def combineWaits (s : State) (op : Option (BitVec 3)) (set : Word) (tag : Half) : Bool :=
  op.isSome && podSwitch s && s.ports.contains (combinePortOf s set tag)

/-- The source bytes of a pod operation, read at issue; none where they meet an uncorrectable error or a lost member, and then
every part fails (18/R419). -/
def podSource (s : State) (ag : Agent) (va n : Nat) : Except Exc (List Byte × State) :=
  match readIssue s ag va n with
  | .error (.trap e keep) =>
    if e.cause = cData ∨ e.cause = cPeer then .ok ([], keep.getD s) else .error (.trap e keep)
  | r => r

/-- The ring a descriptor names, well formed; its line is read. -/
def podRing (s : State) (t : Thread) (h : Handle) (off : Nat) : Except Exn (Nat × Nat) :=
  let ro := BitVec.ofNat 64 off
  match ringAt s t.asid h ro.toInt with
  | .error e => .error e
  | .ok pa => if ringWf (ringGet s pa) then .ok (pa, ringGet s pa) else exn cRing 0 (some ro)

/-- Issue a pod operation. (DEDUCED, log 60.) -/
def issuePod (d : Reg) (a : Src) (h : BitVec 4) (p : BitVec 3) (op : Option (BitVec 3)) (s : State) : Answer :=
  issue s [d, a.reg] fun key t => do
    let off ← readSrc t a
    let set ← readField t d
    let hk := readH t h
    let ag := threadAgent key t
    let va ← liftE (checkHandle hk off.toInt 64 rRX t.asid)
    if va % 64 ≠ 0 then trapWith cDesc 0 (some off)
    else
      let (b, s1) ← readIssue s ag va 64
      let w := leNat b
      let setBad : Bool := match podSet set.toNat with
        | none => true
        | some ms => op.isSome && !ms.contains s.member
      if setBad ∨ podDescBad w op then trapWith cDesc 0 (some off)
      else
        let src := BitVec.ofNat 64 (pdSrc w)
        let sva ← liftE (checkHandle hk src.toInt (pdLen w) rR t.asid)
        let (pa, ring) ← liftE (podRing s1 t hk (pdRing w))
        let s1 := touchRing s1 t.asid hk (BitVec.ofNat 64 (pdRing w)).toInt pa
        let mine := (s1.podOps.filter fun x => x.owner = t.ref).length
        if sub32 (rgIp ring) (rgRp ring) = rgN ring ∨ 16 ≤ mine then pure (s1.setThread key (writeP t p false))
        else if combineWaits s1 op set (BitVec.ofNat 16 (pdTag w)) then stallNow
        else
          let (data, s2) ← podSource s1 ag sva (pdLen w)
          let z := ringReserve ring
          let tag := BitVec.ofNat 16 (pdTag w)
          let nth := tabGet s2.combs set.toNat 0
          let x := PodOp.atLeaf {
            id := s2.podNext, owner := t.ref, key := key, nth := nth, asid := t.asid, hr := hk, roff := BitVec.ofNat 64 (pdRing w)
            slot := BitVec.ofNat 32 z.1, op := op, set := set, dst := BitVec.ofNat 64 (pdDst w)
            flag := BitVec.ofNat 64 (pdFlag w), tag := tag, data := data
            err := data.isEmpty || (podMembers set).any fun m => !reaches s2 m
            port := combinePortOf s2 set tag, since := s2.cycle }
          let s3 := ringSet { s2 with
            podOps := s2.podOps ++ [x], podNext := s2.podNext + 1
            combs := if op.isSome then tabPut s2.combs set.toNat (nth + 1) else s2.combs } pa z.2
          pure ((podStart s3 x).updThread key fun t => writeP t p true)

/-- `xmcast` (18/R416-R419). -/
def execXmcast (d : Reg) (a : Src) (h : BitVec 4) (p : BitVec 3) (s : State) : Answer := issuePod d a h p none s

/-- `xcomb` (18/R416, R417, R420). -/
def execXcomb (d : Reg) (a : Src) (h : BitVec 4) (p : BitVec 3) (o : BitVec 3) (s : State) : Answer :=
  issuePod d a h p (some o) s

/-! ## Writing at this member -/

/-- The agent of another member's request: an ASID number translated in this member's tables (18/R418). -/
def podAgent (asid : BitVec 14) : Agent := ⟨asid, 0, 0, none, false⟩

/-- The agent of a pod operation's own part. -/
def PodOp.agent (x : PodOp) : Agent := ⟨x.asid, keyCluster x.key, keyCore x.key, none, false⟩

/-- Write masked bytes, piece by piece; a piece that fails is left, and reported. An address of the scratch aperture resolves in
the cluster of an operation's own issuer (06/R139); a part of another member's has no cluster, and fails (DESIGN CHOICE, log
60). -/
def podPieces (s : State) (ag : Agent) (own : Bool) (va : Nat) (data : List (Byte × Bool)) : Except Exc (State × Bool) :=
  foldE (fun r p =>
    if !own && isScratch p.1 then .ok (r.1, true)
    else
      match writeAt r.1 ag p.1 ((data.drop (p.1 - va)).take p.2) false with
      | .ok d => .ok (d.st, r.2 || d.err.isSome)
      | .error (.stall keep) => .error (.stall keep)
      | .error (.trap _ _) => .ok (r.1, true)) (s, false) (linesOf va data.length)

/-- Bytes each kept or written as a free value decides (18/R419, R422: its old value or its new value; DESIGN CHOICE, log 31). -/
def freeMask (s : State) (data : List Byte) : List (Byte × Bool) :=
  data.zipIdx.map fun x => (x.1, (Config.freeWord (s.free + x.2)).getLsbD 0)

/-- Write bytes at a virtual address; when some part fails, each byte has its old value or its new value. -/
def podWrite (s : State) (ag : Agent) (own : Bool) (va : Nat) (data : List Byte) : Except Exc (State × Bool) :=
  (podPieces s ag own va (allBytes data)).bind fun r =>
    if r.2 then
      (podPieces { s with free := s.free + data.length } ag own va (freeMask s data)).map fun q => (q.1, true)
    else .ok r

/-- Add 1 to the doubleword at an address (18/R418); whether it failed. -/
def podAdd (s : State) (ag : Agent) (own : Bool) (va : Nat) : Except Exc (State × Bool) :=
  if !own && isScratch va then .ok (s, true)
  else
    match atomicAt s ag va 8 0 fun v => (v + 1) % 2 ^ 64 with
    | .ok g => .ok (g.st, g.err.isSome)
    | .error (.stall keep) => .error (.stall keep)
    | .error (.trap _ _) => .ok (s, true)

/-- One multicast part at this member: the data, then the flag (18/R418, R419). -/
def podDeliver (s : State) (ag : Agent) (own : Bool) (dst flag : Word) (data : List Byte) : Except Exc (State × Bool) :=
  (podWrite s ag own dst.toNat data).bind fun r =>
    if r.2 ∨ flag = 0 then .ok r else podAdd r.1 ag own flag.toNat

/-- What a wait of a part leaves (06/R144: a page asked for); a part that traps has failed instead. -/
def podWait (s : State) : Exc → State
  | .stall keep => keep.getD s
  | .trap _ _ => s

/-! ## Completing -/

/-- A pod operation by its id. -/
def podOp (s : State) (id : Nat) : Option PodOp := s.podOps.find? fun x => x.id = id

/-- A multicast's part at this member, when it is one of the set. -/
def ownPart (s : State) (x : PodOp) : Except Exc (State × Bool) :=
  if (podMembers x.set).contains s.member then podDeliver s x.agent true x.dst x.flag x.data else .ok (s, false)

/-- POD_OP_COMPLETE (18/R417-R419): a multicast's part at this member is performed, the others are sent, once no port of
theirs still drains (R413), and its slot completes. Whether a part at another member that is up failed is a free value (DESIGN
CHOICE, log 31). -/
def execPodOpComplete (id : Nat) (s : State) : Answer :=
  .next (match podOp s id with
    | some x =>
      if x.op.isSome then s
      else if x.data.isEmpty then podFinish s x true
      else if (podMembers x.set).any fun m => m ≠ s.member && memberUp s m && portWaits s m x.dst.toNat then s
      else
        match ownPart s x with
        | .error e => podWait s e
        | .ok r =>
          let ms := podMembers x.set
          let u := sendEach r.1 ms x.dst.toNat (.multicast x.asid x.dst x.flag x.data)
          let others := ms.any fun m => m ≠ s.member && memberUp s m
          let far := others && (Config.freeWord u.free).getLsbD 0
          podFinish { u with free := u.free + b2n others } x (x.err || r.2 || far)
    | none => s)

/-- The contributions of a combine, in set order: this member's own, and what the others sent. -/
def contributions (s : State) (x : PodOp) (parts : List Contrib) : List Contrib :=
  ((podMembers x.set).zip parts).map fun y => if y.1 = s.member then x.part else y.2

/-- Contributions are those of one combine: of every member of the set, the k-th each (18/R423). -/
def sameCombine (x : PodOp) (parts all : List Contrib) : Bool :=
  (podMembers x.set).length = parts.length && all.all fun c => c.nth = x.nth

/-- A combine's result is written to this participant's DST, the flags that the tree raised are ORed into the FLAGS of its thread,
and its slot completes (18/R420). -/
def landResult (s : State) (x : PodOp) (words : List W32) (fl : Flags) : State :=
  match podWrite s x.agent true x.dst.toNat ((words.map fun v => natLe 4 v.toNat).flatten) with
  | .error e => podWait s e
  | .ok w => podFinish (updByRef w.1 x.owner fun t => { t with flags := t.flags ||| fl }) x w.2

/-- COMBINE_RESULT (18/R420-R424): with a switch, the contributions of the set's members, in set order, are combined with this
member's own; with none, the result is the one that the tree has given. -/
def execCombineResult (id : Nat) (parts : List Contrib) (s : State) : Answer :=
  .next (match podOp s id with
    | some x =>
      if x.op.isNone then s
      else if podSwitch s then
        let all := contributions s x parts
        if !sameCombine x parts all then s
        else if x.err ∨ !all.all (agrees x) then podFail s x
        else
          let r := combineTree x.part.op.toNat 10 (all.map (·.words)) 0
          landResult s x r.1 r.2
      else if x.err then podFail s x
      else
        match x.res with
        | some r => landResult s x r.1 r.2
        | none => s
    | none => s)

/-- COMBINE_FAILURE_NOTICE (18/R422, R424): the slot completes with ERR, DST unwritten; a participant whose own part has failed
gives notice of it. -/
def execCombineFailureNotice (id : Nat) (s : State) : Answer :=
  .next (match podOp s id with
    | some x => if x.op.isNone then s else if x.err then podFail s x else podFinish s x true
    | none => s)

/-! ## Lost members (18/R414, R415) -/

/-- Pod operations on a fenced member: multicasts have a failed part, combines complete with ERR (18/R415, R422). -/
def podLost (s : State) (m : Nat) : State :=
  let hit := fun (x : PodOp) => (podMembers x.set).contains m
  let s' := { s with podOps := s.podOps.map fun x => if hit x then { x with err := true } else x }
  (s'.podOps.filter fun x => hit x && x.op.isSome).foldl podFail s'

/-- A wait is for the response of a member, to a request made in a given cycle. -/
def peerSince (m : Nat) : Option Await → Option Nat
  | some (.peer m' since _) => if m' = m then some since else none
  | _ => none

/-- Held accesses that wait for the response of a member: the node, the access, and the cycle of the request. -/
def heldAtPeer (s : State) (m : Nat) : List (NodeRef × Held × Nat) :=
  (s.clusters.map fun c => (c.2.casts.map fun e =>
    match e.2.live with
    | none => []
    | some k => (k.nodes.map fun x => x.2.held.filterMap fun h =>
        match h.st with
        | .atPeer m' since _ _ =>
          if m' = m then some ((⟨256 * c.1 + e.1, x.1 / 128, x.1 % 128⟩ : NodeRef), h, since) else none
        | _ => none).flatten).flatten).flatten

/-- The writes outstanding at a member: the cycle of each, and the bytes that it replaced. -/
def writesAt (s : State) (m : Nat) : List (Nat × List Host.Cell) :=
  ((allProducers s).filterMap fun p => (peerSince m p.wait).map fun n => (n, p.undo)) ++
  (heldAtPeer s m).map fun x => (x.2.2, x.2.1.undo)

/-- Put an item into a list that falls by its first component, after those equal to it. -/
def putByCycle (l : List (Nat × List Host.Cell)) (x : Nat × List Host.Cell) : List (Nat × List Host.Cell) :=
  (l.filter fun y => x.1 < y.1) ++ [x] ++ l.filter fun y => y.1 ≤ x.1

/-- A write that a lost member never answered has its place there or none, as a bit of a free value says (14/R340, DESIGN
CHOICE, log 31): with none, the bytes it replaced stand again, but for those of a later write that has a place. -/
def unplace (r : State × List Nat) (w : Nat × List Host.Cell) : State × List Nat :=
  if w.2.isEmpty then r
  else
    let s := { r.1 with free := r.1.free + 1 }
    if (Config.freeWord r.1.free).getLsbD 0 then (s, r.2 ++ w.2.map (·.1))
    else
      let back := w.2.filter fun c => !r.2.contains c.1
      ({ s with outside := back.foldl (fun m c => memPut m c.1 c.2) s.outside }, r.2)

/-- A producer whose request a lost member has not answered completes with *peer lost*, or with the result that it has for that
(18/R415, Table 18.5). -/
def lostProducer (p : Producer) : Producer :=
  match p.onLoss with
  | some v => { p with wait := none, err := none, vals := p.dests.map fun _ => v, undo := [], onLoss := none, arrive := none }
  | none => { p with wait := none, err := some (BitVec.ofNat 8 cPeer), undo := [] }

/-- A thread's requests to a lost member end. -/
def losePeer (m : Nat) (t : Thread) : Thread :=
  { t with prods := t.prods.map fun p => if (peerSince m p.wait).isSome then lostProducer p else p }

/-- The virtual address of a held access through a binding. -/
def heldVa (s : State) (n : NodeRef) (h : Held) : Option Word :=
  match (castSlot s n.cast).live, (nodeInstr s n).bind memKind with
  | some k, some (kd, f) => some (vaOf (bindingOf k h.inv (bits f.imm.toNat 20 16)) (spanOf kd f h.src).base)
  | _, _ => none

/-- What was outstanding to a lost member ends (18/R415): writes have a place or none, threads' requests fail, nodes stop. -/
def loseRequests (s : State) (m : Nat) : State :=
  let nodes := heldAtPeer s m
  let s := (((writesAt s m).foldl putByCycle []).foldl unplace (s, [])).1
  let s := { s with threads := tabMap (losePeer m) s.threads, saved := tabMap (losePeer m) s.saved }
  nodes.foldl (fun s x => heldFault s x.1 x.2.1.taken ⟨cPeer, 0, heldVa s x.1 x.2.1, 0⟩ 0) s

/-- Nothing more goes to a lost member, and no answer of it is awaited (18/R415). -/
def dropMessages (s : State) (m : Nat) : State :=
  { s with treeOut := s.treeOut.filter fun x => x.dest ≠ m, unsent := s.unsent.filter fun x => x.dest ≠ m }

/-- Fence a member: EPOCH, the record, and what was outstanding to it. -/
def fenceMember (s : State) (m : Nat) : State := podLost (dropMessages (loseRequests (setPodState s m 2) m) m) m

/-- The member that finds a loss sends a fence notice on every up port (18/R414). -/
def noticeFence (s : State) (m : Nat) : State :=
  { s with sent := s.sent ++ (upPorts s).map fun p => ⟨none, some p, .fence m⟩ }

/-- LINK_DOWN (18/R414): every port reports its link to a member down. -/
def execLinkDown (m : Nat) (s : State) : Answer :=
  .next (if m ≠ s.member ∧ memberUp s m then noticeFence (fenceMember s m) m else s)

/-- A copy that has begun waits for the response of a member to its next element: the cycle of its latest progress. -/
def copyAtPeer (s : State) (m : Nat) (q : SQueue) : Option Nat :=
  match q.entries with
  | e :: _ =>
    let asks := (elemTargets s e).any fun t => match t with
      | .peer m' _ => m' = m
      | _ => false
    if e.begun ∧ e.done < copyTotal e.shape ∧ asks then some e.since else none
  | [] => none

/-- The cycle since which a member has been asked, where it is the one. -/
def askedAt (m : Nat) (x : Option (Nat × Nat)) : Option Nat := (x.filter fun a => a.1 = m).map (·.2)

/-- The cycles in which the requests to a member that have had no response were made: of threads, those that an instruction
makes at its issue among them, of nodes, of copies and schedules, of multicasts, and of the values and results of the tree
(18/R424). (A combine waits for its participants without limit, 18/R420.) -/
def requestsTo (s : State) (m : Nat) : List Nat :=
  let queues := (s.clusters.map fun c => c.2.queues.map (·.2)).flatten
  (allProducers s).filterMap (fun p => peerSince m p.wait) ++ (heldAtPeer s m).map (·.2.2) ++
  s.threads.filterMap (fun e => askedAt m e.2.asks) ++
  queues.filterMap (fun q => q.sched.bind fun d => askedAt m d.asks) ++ queues.filterMap (copyAtPeer s m) ++
  s.podOps.filterMap (fun x => if x.op.isNone ∧ (podMembers x.set).contains m then some x.since else none) ++
  s.treeOut.filterMap fun x => if x.dest = m then some x.since else none

/-- RESPONSE_TIMEOUT (18/R414): a request to a member has had no response for 1.5 ms, 1,200,000 cycles. -/
def execResponseTimeout (m : Nat) (s : State) : Answer :=
  .next (
    if m ≠ s.member ∧ memberUp s m ∧ (requestsTo s m).any fun n => n + 1200000 ≤ s.cycle then
      noticeFence (fenceMember s m) m
    else s)

/-- FENCE_NOTICE (18/R414). -/
def execFenceNotice (m : Nat) (s : State) : Answer :=
  .next (if s.phase ≠ .up ∨ podState s m = 2 then s else fenceMember s m)

/-- PORT_GOES_DOWN (18/R413, R423): a port is no longer up, and a switch combine carried on it fails. -/
def execPortGoesDown (p : Nat) (s : State) : Answer :=
  .next (
    if s.ports.contains p then s
    else
      let s' := { s with ports := s.ports ++ [p] }
      if podSwitch s then
        (s'.podOps.filter fun x => x.op.isSome && x.port = p).foldl (fun s x => podFinish s x true) s'
      else s')

/-! ## Barriers and identity -/

/-- `xbar` whose request cannot be made yet: d is empty, and the thread goes on (18/R425). -/
def holdXbar (t : Thread) (d : Reg) (x : Arrival) (host : Bool) : Thread :=
  let u := produce t [d] [0] (some .release) none 0 d
  { u with rels := u.rels ++ [⟨t.nprod, host, .arrive x⟩] }

/-- `xbar` (18/R425): d names the barrier and receives the result, STATUS 10 should the home be lost before it has answered (Table
18.5). It never waits: its request does, where its release does (14/R341), behind a release that waits (R336), and where its port
drains (R413). -/
def execXbar (d : Reg) (a : Src) (as : BitVec 3) (ss : BitVec 4) (s : State) : Answer :=
  issue s [d, a.reg] fun key t => do
    let x ← readSrc t a
    let v ← readField t d
    if bits v.toNat 63 18 ≠ 0 ∨ 65535 < x.toNat then trapWith cDesc 0
    else
      let _ ← producerSlot t
      let y : Arrival := ⟨bits v.toNat 9 0, bits v.toNat 17 10, x.toNat, t.asid⟩
      if releaseWaits t as ss || !t.rels.isEmpty || homeBusy s y then
        pure (s.setThread key (holdXbar t d y (releaseWaits t as ss)))
      else
        let q := askHome s y
        pure (q.st.setThread key (produce t [d] [q.word] q.wait q.err 0 d none [] false q.onLoss q.arrive))

/-- `xid` (18/R426). -/
def execXid (d : Reg) (s : State) : Answer := opD 0 s d fun _ => s.regs.podid &&& 0x1FFFF

/-! ## Requests of other members (18/R413, R418, R425) -/

/-- Where n bytes at a local physical address of a request lead, all of one region (04 Table 4.1); the registers are reached in
two other ways only (04/R100), and the reserved gigabyte by no request (06/R141). -/
def localTarget (pa n : Nat) : Option Target :=
  if regionOf (pa + n - 1) ≠ regionOf pa then none
  else
    match regionOf pa with
    | .dev => some (.dev pa)
    | .host => some (.host (pa - hostBase))
    | _ => none

/-- A read or write of the transaction layer: 8 to 256 bytes (18/R413). -/
def podSizeOk (n : Nat) : Bool := decide (8 ≤ n) && decide (n ≤ 256)

/-- A request's answer to the member that made it. -/
def answerWith (s : State) (b : List Byte) : State := { s with answer := b }

/-- A read of another member. -/
def podRead (s : State) (pa n : Nat) : State :=
  match localTarget pa n with
  | none => answerWith s []
  | some t =>
    if !podSizeOk n ∨ (regionOf pa = .dev ∧ (linesOf pa n).any fun p => badLine s p.1) then answerWith s []
    else
      match accRead s (podAgent 0) t n 0 with
      | .ok g => answerWith g.st g.bytes
      | .error _ => answerWith s []

/-- A write of another member. -/
def podStore (s : State) (pa : Nat) (b : List Byte) : State :=
  match localTarget pa b.length with
  | none => answerWith s []
  | some t =>
    if !podSizeOk b.length then answerWith s []
    else
      match accWrite s (podAgent 0) t (allBytes b) (b.length = 8) 0 with
      | .ok d => answerWith d.st []
      | .error _ => answerWith s []

/-- An atomic of another member: one of the ten, on an aligned doubleword (08 Table 8.8). -/
def podAtomic (s : State) (op pa v cmp : Nat) : State :=
  match localTarget pa 8 with
  | none => answerWith s []
  | some t =>
    if 9 < op ∨ pa % 8 ≠ 0 then answerWith s []
    else
      match accAtomic s (podAgent 0) t 8 op (fun old => amoNew op 64 old (if op = 9 then cmp else v) v) 0 with
      | .ok g => answerWith g.st g.bytes
      | .error _ => answerWith s []

/-- A multicast's part of another member; a part answers whether it failed. -/
def podPart (s : State) (asid : BitVec 14) (dst flag : Word) (b : List Byte) : State :=
  match podDeliver s (podAgent asid) false dst flag b with
  | .ok x => answerWith x.1 [BitVec.ofNat 8 (b2n x.2)]
  | .error _ => answerWith s [1]

/-- A value of the tree comes from another participant (18/R424): it is kept for its combine, which goes on if it has been issued
here. One for a combine that has ended here is dropped. -/
def takeTreeValue (s : State) (set : Word) (level : Nat) (part : Contrib) (fl : Flags) : State :=
  let op := s.podOps.find? fun x => x.op.isSome && x.set = set && x.nth = part.nth
  let known := s.early.any fun e => e.set = set && e.nth = part.nth && e.level = level
  if known ∨ (op.isNone ∧ part.nth < tabGet s.combs set.toNat 0) then s
  else
    let s := { s with early := s.early ++ [⟨set, part.nth, level, part.words, fl, part.op, part.tag⟩] }
    match op with
    | some x => treeAdvance s x
    | none => s

/-- The result of a combine comes from position 0 (18/R424). -/
def takeResult (s : State) (set : Word) (nth : Nat) (words : List W32) (fl : Flags) : State :=
  { s with podOps := s.podOps.map fun x =>
      if x.op.isSome ∧ x.set = set ∧ x.nth = nth ∧ x.out then { x with res := some (words, fl) } else x }

/-- POD_REQUEST (18/R413): a request from another member is performed, unless that member is fenced here (18/R414). Nothing is
performed before bring-up has ended (19/R433, R434). -/
def execPodRequest (m : Nat) (r : PodReq) (s : State) : Answer :=
  .next (
    if s.phase ≠ .up ∨ m = s.member ∨ podState s m = 2 then s
    else
      match r with
      | .read pa n => podRead s pa n
      | .write pa b => podStore s pa b
      | .atomic op pa v cmp => podAtomic s op.toNat pa v.toNat cmp.toNat
      | .multicast asid dst flag b => podPart s asid dst flag b
      | .barrier idx asid count =>
        let b := podBarrier (tabGet s.podBars idx.toNat {}) count.toNat asid
        answerWith { s with podBars := tabPut s.podBars idx.toNat b.1 } (natLe 8 b.2.toNat)
      | .treeValue set level part fl => if podSwitch s then s else takeTreeValue s set level part fl
      | .result set nth words fl => if podSwitch s then s else takeResult s set nth words fl)

end Sys2Proof.Machine
end

