-- ==== Sys2Proof/Machine/Kv.lean ====
section
/-! DEFINITION. Key-value instructions and their copies (13/R310-R320). -/

namespace Sys2Proof.Machine

/-! ## Well-formed pools (13/R311) -/

/-- n bytes from a virtual address all translate to local device memory, with leaf rights R and W; `fuel` bounds the
pages crossed. -/
def allLocal (s : State) (asid : BitVec 14) : Nat → Nat → Nat → Bool
  | 0, _, n => n = 0
  | fuel + 1, va, n =>
    if n = 0 then true
    else if isScratch va then false
    else
      match leafFor s [] asid va with
      | .error _ => false
      | .ok l =>
        let k := Nat.min n (2 ^ l.bits - va % 2 ^ l.bits)
        (match targetOf s l va .atomic with
         | .ok (.dev pa) => decide (pa + k ≤ backingBase)
         | _ => false) && allLocal s asid fuel (va + k) (n - k)

/-- An area of a pool passes Check with R and W, and lies in local device memory where `dev` says so. -/
def areaOk (s : State) (p : PoolRef) (off n : Nat) (dev : Bool) : Bool :=
  match checkHandle p.h off n rRW p.asid with
  | .error _ => false
  | .ok va => !dev || allLocal s p.asid (n / 65536 + 2) va n

/-- The value that FHEAD and LINK hold when there is no page. -/
def noPage : Nat := 0xFFFFFF

/-- The pool is well formed (13/R311); POOL, which sets FHEAD and FCNT, does not test them (`fresh`). -/
def poolWf (s : State) (p : PoolRef) (fresh : Bool) : Bool :=
  let npg := plNpg s p
  let rowb := plRowb s p
  poolField s p 319 293 = 0 && poolField s p 351 344 = 0 && poolField s p 383 376 = 0 &&
  poolField s p 511 472 = 0 && ((List.range 8).all fun j => poolField s p (64 * j + 575) (64 * j + 512) = 0) &&
  npg ≠ 0 && rowb ≠ 0 && 4 ≤ plHlog s p && plHlog s p ≤ 24 &&
  plPg s p % 256 = 0 && plPd s p % 8 = 0 && plHt s p % 128 = 0 && plSl s p % 256 = 0 &&
  areaOk s p (plPg s p) (npg * (4096 * rowb)) true && areaOk s p (plPd s p) (8 * npg) true &&
  areaOk s p (plHt s p) (128 * 2 ^ plHlog s p) true && areaOk s p (plSl s p) (plNsl s p * (4096 * rowb)) false &&
  (fresh || (plFcnt s p ≤ npg && (if plFcnt s p = 0 then plFhead s p = noPage else plFhead s p < npg)))

/-- A page descriptor that an instruction reads: it can be reached, and its reserved bits are 0 (13 Table 13.2, 00/R8: the
fault *pool*, DEDUCED, log 57). -/
def checkedDesc (s : State) (p : PoolRef) (g : Nat) : Except Exc Nat :=
  (kvReach s p.asid p.h (plPd s p + 8 * g) 8).bind fun _ =>
    if !descOk s p g then trapWith cKv 0 else .ok (pageDesc s p g)

/-- The head page of the free list is free, and its LINK names a page or none (13/R311). -/
def checkedHead (s : State) (p : PoolRef) : Except Exc Unit :=
  (checkedDesc s p (plFhead s p)).bind fun d =>
    if pdSt d = 0 && (pdLink d < plNpg s p || pdLink d = noPage) then .ok () else trapWith cKv 0

/-- Half of a pool block, at a virtual address: in local device memory, aligned, in no packed view, with no data error
(13/R310, 08/R453; DEDUCED, log 57). -/
def blockHalf (s : State) (asid : BitVec 14) (va : Nat) : Except Exn Unit :=
  match translate s asid va .atomic with
  | .error e => .error e
  | .ok (.dev pa) =>
    if pa % 64 ≠ 0 then exn cKv 0
    else if inPacked s pa then exn cFormat 0 (some (BitVec.ofNat 64 va))
    else if badLine s pa then exn cData 0 (some (BitVec.ofNat 64 va))
    else .ok ()
  | .ok _ => exn cKv 0

/-- A pool block passes its Check, can be read and written, and describes a well-formed pool (13/R310, R311, R316). -/
def checkedPool (s : State) (p : PoolRef) (fresh : Bool) : Except Exn Unit :=
  (checkHandle p.h p.off 128 rRWA p.asid).bind fun va =>
    (blockHalf s p.asid va).bind fun _ =>
      (blockHalf s p.asid (va + 64)).bind fun _ => if poolWf s p fresh then .ok () else exn cKv 0

/-- The pool block that `kv.find` and `kv.add` name (13/R316). -/
def poolAt (s : State) (t : Thread) (h : Handle) (off : Int) (fresh : Bool) : Except Exn PoolRef :=
  (checkHandle h off 128 rRWA t.asid).bind fun _ =>
    (checkedPool s ⟨t.asid, h, off.toNat⟩ fresh).map fun _ => ⟨t.asid, h, off.toNat⟩

/-- The reads of n bytes behind a handle are accesses to their lines, their walks made (05/R102, R103). -/
def noteKv (s : State) (p : PoolRef) (off n : Nat) : State :=
  (linesOf (p.h.base.toNat + off) n).foldl (fun s l =>
    match translate s p.asid l.1 .atomic with
    | .ok (.dev pa) => touch (noteWalk s [] p.asid l.1) pa l.2
    | _ => s) s

/-- Spans of bytes behind handles: a pool, an offset, a length. -/
abbrev Spans := List (PoolRef × Nat × Nat)

/-- The reads of several spans. -/
def noteSpans (s : State) (l : Spans) : State := l.foldl (fun s x => noteKv s x.1 x.2.1 x.2.2) s

/-- A pool block. -/
def blockSpan (p : PoolRef) : PoolRef × Nat × Nat := (p, p.off, 128)
/-- A page descriptor. -/
def descSpan (s : State) (p : PoolRef) (g : Nat) : PoolRef × Nat × Nat := (p, plPd s p + 8 * g, 8)
/-- A bucket of the prefix table. -/
def bucketSpan (s : State) (p : PoolRef) (b : Nat) : PoolRef × Nat × Nat := (p, prefixOff s p b 0, 128)
/-- A record's header. -/
def recordSpan (q : Seq) : PoolRef × Nat × Nat := (q.poolRef, q.recOff.toNat, 128)
/-- An entry of its list. -/
def entrySpan (q : Seq) (i : Nat) : PoolRef × Nat × Nat := (q.poolRef, q.recOff.toNat + 128 + 4 * i, 4)

/-! ## The prefix table (13/R313) -/

/-- The bucket of a tag. -/
def bucketOf (s : State) (p : PoolRef) (tag : Nat) : Nat := tag % 2 ^ plHlog s p

/-- The tag of an entry. -/
def prefixTag (s : State) (p : PoolRef) (b e : Nat) : Nat := kvRead s p.asid p.h (prefixOff s p b e) 16

/-- PAGE of an entry. -/
def pfPage (hi : Nat) : Nat := bits hi 23 0
/-- ROWS. -/
def pfRows (hi : Nat) : Nat := bits hi 28 24
/-- V. -/
def pfV (hi : Nat) : Bool := bit hi 29

/-- The entry of its bucket that matches a tag. -/
def matchTag (s : State) (p : PoolRef) (tag : Nat) : Option Nat :=
  let b := bucketOf s p tag
  firstFrom (fun e => pfV (prefixHi s p b e) && prefixTag s p b e = tag) 0 4

/-- A valid entry has a nonzero reserved bit (13 Table 13.3). -/
def prefixRsv (s : State) (p : PoolRef) (b e : Nat) : Bool :=
  pfV (prefixHi s p b e) &&
    (bits (prefixHi s p b e) 63 30 ≠ 0 || kvRead s p.asid p.h (prefixOff s p b e + 24) 8 ≠ 0)

/-- A bucket that an instruction reads: it can be reached, and no valid entry has a nonzero reserved bit (00/R8: the fault
*pool*, DEDUCED, log 57). -/
def checkedBucket (s : State) (p : PoolRef) (b : Nat) : Except Exc Unit :=
  (kvReach s p.asid p.h (prefixOff s p b 0) 128).bind fun _ =>
    if (List.range 4).any (prefixRsv s p b) then trapWith cKv 0 else .ok ()

/-- The entry word that a lookup finds: PAGE and ROWS; a page at or beyond NPG is the fault *pool*. -/
def lookup (s : State) (p : PoolRef) (tag : Nat) : Except Exc (Option Nat) :=
  (checkedBucket s p (bucketOf s p tag)).bind fun _ =>
    match matchTag s p tag with
    | none => .ok none
    | some e =>
      let hi := prefixHi s p (bucketOf s p tag) e
      if plNpg s p ≤ pfPage hi then trapWith cKv 0 else .ok (some hi)

/-- The tag in two registers, the low half first. -/
def tagOf (lo hi : Word) : Nat := lo.toNat + 2 ^ 64 * hi.toNat

/-- ROWS ‖ PAGE. -/
def foundWord (hi : Nat) : Word := BitVec.ofNat 64 (bits hi 28 0)

/-- `kv.find` (13/R317). -/
def execKvFind (d : Reg) (a : Src) (h : BitVec 4) (p : BitVec 3) (s : State) : Answer :=
  issue s [d, regAdd d 1, a.reg] fun key t => do
    let x ← readSrc t a
    let ws ← readGroup t d true 2
    let pool ← liftE (poolAt s t (readH t h) x.toInt false)
    let tag := tagOf (ws.getD 0 0) (ws.getD 1 0)
    let r ← lookup s pool tag
    let s := noteSpans s [blockSpan pool, bucketSpan s pool (bucketOf s pool tag)]
    match r with
    | none => pure (s.setThread key (writeP t p false))
    | some hi => pure (s.setThread key (writeP (writeR t d (foundWord hi)) p true))

/-! ## Sequences (13/R314, R315) -/

/-- The sequence that a handle names: *sequence* when it is stale, *space* for another ASID. -/
def seqNamed (s : State) (t : Thread) (h : Nat) : Except Exn SeqRef :=
  let i := bits h 13 0
  let x := tabGet s.seqs i {}
  match x.live with
  | none => exn cKv 1
  | some q => if x.gen ≠ bits h 31 14 then exn cKv 1 else if q.asid ≠ t.asid then exn cKv 2 else .ok ⟨i, x.gen, q⟩

/-- The physical address of a pool block. -/
def poolPa (s : State) (p : PoolRef) : Option Nat := kvPa s p.asid p.h p.off

/-- The sequence of a `kv.add` op: its pool must be the one named (13/R318), and is well formed through the captured
handle. -/
def seqOn (s : State) (t : Thread) (p : PoolRef) (h : Nat) : Except Exn SeqRef :=
  match seqNamed s t h with
  | .error e => .error e
  | .ok r =>
    if poolPa s r.q.poolRef ≠ poolPa s p then exn cKv 1
    else (checkedPool s r.q.poolRef false).map fun _ => r

/-- A list entry as the device reads it back: it can be reached (08/R453), and holds no reserved value (13/R315). -/
def checkedEntry (s : State) (q : Seq) (i : Nat) : Except Exc Nat :=
  let e := listEntry s q i
  (recordReach s q i).bind fun _ =>
    if bit e 31 ∨ (leSt e ≠ 2 ∧ plNpg s q.poolRef ≤ lePage e) ∨ (leSt e = 1 ∧ (leM e = 0 ∨ 16 < leM e)) then trapWith cKv 3
    else .ok e

/-- The entry in force for list index i (13/R318): a page of the newest window that has one there, else the list's. -/
def entryInForce (s : State) (r : SeqRef) (i : Nat) : Except Exc Nat :=
  let drafts := (seqWindows s r.idx).filterMap fun w =>
    (w.2.pages.find? fun d => d.entry = i).map fun d => mkList d.page 0 3
  match drafts.getLast? with
  | some e => .ok e
  | none => checkedEntry s r.q i

/-! ## `kv.add` (13/R318) -/

/-- How an APPEND places its row: with no new page, with a new page, or with a copy of n rows of a shared page. -/
inductive AppendKind where
  | same (page : Nat)
  | slow
  | fresh
  | copyOf (page rows : Nat)
  deriving DecidableEq, Repr

/-- Which it is for token t (13/R318): by the entry in force for t - 1. -/
def appendKind (s : State) (r : SeqRef) (t : Nat) : Except Exc AppendKind :=
  if t % 16 = 0 then .ok .fresh
  else
    match entryInForce s r (t / 16) with
    | .error e => .error e
    | .ok e =>
      if leSt e = 1 then .ok (.copyOf (lePage e) (t % 16))
      else if leSt e = 2 then .ok .slow
      else .ok (.same (lePage e))

/-- The token that an APPEND takes next. -/
def nextToken (s : State) (r : SeqRef) : Nat := r.q.ntok + sumNat ((seqWindows s r.idx).map fun x => x.2.napp)

/-- What an op of a sequence reads beside the pool block and the sequence's record, by its number (13/R318). -/
def opSpans (s : State) (r : SeqRef) (ws : List Word) : Spans :=
  let q := r.q.poolRef
  let w := (ws.getD 0 0).toNat
  let i := bits w 31 8
  let tag := tagOf (ws.getD 2 0) (ws.getD 3 0)
  let bucket := bucketSpan s q (bucketOf s q tag)
  let own := [entrySpan r.q i, descSpan s q (lePage (listEntry s r.q i))]
  match bits w 3 0 with
  | 2 =>
    entrySpan r.q (nextToken s r / 16) ::
    (match appendKind s r (nextToken s r) with
     | .ok .fresh => [descSpan s q (plFhead s q)]
     | .ok (.copyOf page _) => [descSpan s q (plFhead s q), descSpan s q page]
     | _ => [])
  | 3 =>
    bucket ::
    (match lookup s q tag with
     | .ok (some hi) => [descSpan s q (pfPage hi), entrySpan r.q r.q.npge]
     | _ => [])
  | 4 => bucket :: own
  | 5 =>
    ((List.range r.q.npge).map fun j => [entrySpan r.q j, descSpan s q (lePage (listEntry s r.q j))]).flatten
  | _ => own

/-- What a `kv.add` op reads (13/R316, R318). (DEDUCED, log 18.) -/
def addSpans (s : State) (t : Thread) (p : PoolRef) (h : Handle) (ws : List Word) : Spans :=
  match bits (ws.getD 0 0).toNat 3 0 with
  | 0 => [blockSpan p]
  | 1 => [blockSpan p, (⟨t.asid, h, p.off⟩, (ws.getD 1 0).toNat, 128)]
  | _ =>
    match seqNamed s t (ws.getD 1 0).toNat with
    | .error _ => [blockSpan p]
    | .ok r => blockSpan p :: recordSpan r.q :: opSpans s r ws

/-- The shape of a `kv.add` op: the pool tested, the operation word and the operand registers holding no bit that the op
does not name, then the body. `mask` is what the op names of its word, `regs` how many registers after it, `seq` that
the first is a sequence handle. (DEDUCED, log 57.) -/
def kvAdd (s : State) (d : Reg) (a : Src) (h : BitVec 4) (mask regs : Nat) (seq fresh : Bool)
    (body : Nat → Thread → PoolRef → List Word → Except Exc State) : Answer :=
  issue s [d, regAdd d 1, regAdd d 2, regAdd d 3, a.reg] fun key t => do
    let x ← readSrc t a
    let ws ← readGroup t d true 4
    let pool ← liftE (poolAt s t (readH t h) x.toInt fresh)
    if (ws.getD 0 0).toNat &&& mask ≠ (ws.getD 0 0).toNat ∨ (ws.drop (1 + regs)).any (· ≠ 0) ∨
        (seq ∧ bits (ws.getD 1 0).toNat 63 32 ≠ 0) then trapWith cKv 5
    else (body key t pool ws).map fun z => noteSpans z (addSpans s t pool (readH t h) ws)

/-- Refusal: pP false, d unchanged. -/
def kvRefuse (s : State) (key : Nat) (t : Thread) (p : BitVec 3) : Except Exc State :=
  .ok (s.setThread key (writeP t p false))

/-- Success with a result that is there at once. -/
def kvGive (s : State) (key : Nat) (t : Thread) (p : BitVec 3) (d : Reg) (v : Word) : Except Exc State :=
  .ok (s.setThread key (writeP (writeR t d v) p true))

/-- Success with a long result (13/R316): the register is empty until the copy has completed, if there is one; a result
that `g0` discards waits for nothing. -/
def kvLong (s : State) (key : Nat) (t : Thread) (p : BitVec 3) (d : Reg) (v : Word) (ready : Bool) : Except Exc State :=
  match producerSlot t with
  | .error e => .error e
  | .ok _ =>
    let wait := if ready || d = 0 then none else some Await.copy
    .ok (s.setThread key (writeP (produce t [d] [v] wait none 0 d) p true))

/-- Hold a copy. -/
def addCopy (s : State) (c : KvCopy) : State :=
  { s with kvCopies := tabPut s.kvCopies s.kvNext c, kvNext := s.kvNext + 1 }

/-- The location of a result register, for a copy that fills it. -/
def locOf (t : Thread) (d : Reg) : RegLoc := ((destLocs t [d]).head?).getD (.g 0)

/-- Every page free, in order, and no prefix entry valid. -/
def freshPool (s : State) (p : PoolRef) : State :=
  let n := plNpg s p
  let s := (List.range n).foldl (fun s k => setDesc s p k (mkDesc 0 0 0 0 0 (if k + 1 = n then noPage else k + 1))) s
  let s := (List.range (4 * 2 ^ plHlog s p)).foldl (fun s e =>
    let o := plHt s p + 32 * e + 16
    kvWrite s p.asid p.h o 8 (setBits (kvRead s p.asid p.h o 8) 29 29 0)) s
  setPoolField (setPoolField s p 343 320 0) p 375 352 n

/-- `kv.add` POOL, and an OP of 7-15 (13/R318). -/
def execKvAddPool (d : Reg) (a : Src) (h : BitVec 4) (p : BitVec 3) (s : State) : Answer :=
  kvAdd s d a h 0xF 0 false true fun key t pool ws =>
    if (ws.getD 0 0).toNat ≠ 0 then trapWith cKv 5
    else
      let used := s.seqs.any fun e => match e.2.live with
        | some q => poolPa s q.poolRef == poolPa s pool
        | none => false
      if used then kvRefuse s key t p else kvLong (freshPool s pool) key t p d 0 true

/-- A state region of a record: offset, length, and whether its bits are allowed (13 Table 13.4). -/
def regionAt (s : State) (t : Thread) (h : Handle) (ro k : Nat) : Nat × Nat × Bool :=
  let lo := kvRead s t.asid h (ro + 32 + 16 * k) 8
  let hi := kvRead s t.asid h (ro + 40 + 16 * k) 8
  (lo, bits hi 16 0, bits hi 63 17 = 0 && lo % 256 = 0 && bits hi 16 0 % 256 = 0 && bits hi 16 0 ≤ 65536)

/-- Check one used state region: rights R and W, local device memory. -/
def checkRegion (s : State) (t : Thread) (h : Handle) (x : Nat × Nat × Bool) : Except Exn Unit :=
  if x.2.1 = 0 then .ok ()
  else
    match checkHandle h x.1 x.2.1 rRW t.asid with
    | .error e => .error e
    | .ok va => if allLocal s t.asid (x.2.1 / 65536 + 2) va x.2.1 then .ok () else exn cKv 3

/-- A free sequence entry. -/
def freeSeq (s : State) : Option Nat := firstFrom (fun i => (tabGet s.seqs i {}).live.isNone) 0 16384

/-- Reserved bytes of a record's header outside its state regions (13 Table 13.4), by offset and length. -/
def recordRsv : List (Nat × Nat) := [(11, 1), (15, 1), (24, 8), (96, 32)]

/-- The record that a sequence opens with, tested (13/R314, R318); its state regions. A nonzero reserved bit outside them is
the fault *record* too (00/R8, DEDUCED, log 57). -/
def openRecord (s : State) (t : Thread) (h : Handle) (ro : Int) (lcap : Nat) : Except Exc (List (Nat × Nat)) :=
  if ro % 128 ≠ 0 then trapWith cKv 3
  else
    (liftE (checkHandle h ro (128 + 4 * lcap) rRW t.asid)).bind fun _ =>
      (kvReach s t.asid h ro.toNat 128).bind fun _ =>
        let rs := (List.range 4).map (regionAt s t h ro.toNat)
        if rs.any (fun x => !x.2.2) ∨ recordRsv.any (fun x => kvRead s t.asid h (ro.toNat + x.1) x.2 ≠ 0) then trapWith cKv 3
        else (liftE (mapE (checkRegion s t h) rs)).map fun _ => (rs.filter fun x => x.2.1 ≠ 0).map fun x => (x.1, x.2.1)

/-- Write the record of a sequence that opens: LCAP, NTOK, NPGE and POOL. -/
def initRecord (s : State) (t : Thread) (h : Handle) (ro lcap pool : Nat) : State :=
  let s := kvWrite s t.asid h ro 8 0
  let s := kvWrite s t.asid h (ro + 8) 3 0
  let s := kvWrite s t.asid h (ro + 12) 3 lcap
  kvWrite s t.asid h (ro + 16) 8 pool

/-- `kv.add` OPEN. -/
def execKvAddOpen (d : Reg) (a : Src) (h : BitVec 4) (p : BitVec 3) (s : State) : Answer :=
  kvAdd s d a h 0xFFFFFF0F 1 false false fun key t pool ws => do
    let lcap := bits (ws.getD 0 0).toNat 31 8
    if lcap = 0 then trapWith cKv 5
    else
      let ro := ws.getD 1 0
      let sreg ← openRecord s t (readH t h) ro.toInt lcap
      match freeSeq s with
      | none => kvRefuse s key t p
      | some i =>
        let s := initRecord s t (readH t h) ro.toNat lcap pool.off
        let q : Seq := { asid := t.asid, hk := readH t h, pool := BitVec.ofNat 64 pool.off, recOff := ro, ntok := 0
                         npge := 0, lcap := lcap, sreg := sreg, nwin := 0 }
        let s := { s with seqs := tabUpd s.seqs i {} fun x => { x with live := some q } }
        kvGive s key t p d (BitVec.ofNat 64 ((tabGet s.seqs i {}).gen * 2 ^ 14 + i))

/-- The piece of 256 bytes behind a handle, in physical runs (13/R322, R323): it crosses one page boundary at most. -/
def pieceAt (s : State) (q : Seq) (off : Nat) : Piece :=
  let n := Nat.min 256 (65536 - (q.hk.base.toNat + off) % 65536)
  match kvPa s q.asid q.hk off, kvPa s q.asid q.hk (off + n) with
  | some a, some b => if n = 256 then [(a, 256)] else [(a, n), (b, 256 - n)]
  | some a, none => if n = 256 then [(a, 256)] else []
  | none, _ => []

/-- The pieces of n bytes behind a handle that lie in local device memory. -/
def piecesOf (s : State) (q : Seq) (off n : Nat) : List Piece :=
  ((List.range (n / 256)).map fun j => pieceAt s q (off + 256 * j)).filter (· ≠ [])

/-- A new page for token t: its list entry, or the draft page of the newest window. -/
def appendPage (s : State) (r : SeqRef) (w : Option (Nat × Window)) (t : Nat) (copy : Option Nat) : State × Nat :=
  let p := r.q.poolRef
  let x := allocPage s p (match w with
    | some (i, _) => mkDesc i 0 0 2 1 0
    | none => mkDesc 0 0 0 1 1 0)
  let e := t / 16
  match w with
  | some (i, _) =>
    let s := x.1.updWindow i fun w => { w with pages := w.pages ++ [⟨x.2, e, copy⟩] }
    (if copy.isSome then s else setEntry4 s r.q e (mkList x.2 0 3), x.2)
  | none =>
    let s := setEntry4 x.1 r.q e (mkList x.2 0 0)
    (match copy with
     | some old => dropPage s p old
     | none => s, x.2)

/-- Token t is taken: by the newest window, its row covered from now on, or committed at once. -/
def appendToken (s : State) (r : SeqRef) (w : Option (Nat × Window)) (t off : Nat) : State :=
  match w with
  | some (i, _) =>
    let row := piecesOf s r.q off (256 * plRowb s r.q.poolRef)
    s.updWindow i fun w => { w with napp := w.napp + 1, rows := w.rows ++ [row] }
  | none => setCounts s r.idx (t + 1) ((t + 16) / 16)

/-- The result word of an APPEND. (DEDUCED, log 58.) -/
def appendWord (copy new : Bool) (off : Nat) : Word := BitVec.ofNat 64 (b2n copy * 2 ^ 63 + b2n new * 2 ^ 62 + off % 2 ^ 56)

/-- The streamer island of the issuing cluster that copies a page: which of the four, the rule does not say, a free value
(13/R318, DESIGN CHOICE, log 82); its beats are of the thread's class. -/
def beatsFor (s : State) (key : Nat) (t : Thread) : PageBeats :=
  ⟨keyCluster key, (Config.freeWord s.free).toNat % 4, t.cls, 0⟩

/-- `kv.add` APPEND. A row of an entry in the slow tier has no page: its offset is a free value. -/
def execKvAddAppend (d : Reg) (a : Src) (h : BitVec 4) (p : BitVec 3) (s : State) : Answer :=
  kvAdd s d a h 0xF 1 true false fun key t pool ws => do
    let r ← liftE (seqOn s t pool (ws.getD 1 0).toNat)
    let wins := seqWindows s r.idx
    let w := wins.getLast?
    let full : Bool := match w with
      | some (_, x) => x.napp = x.nmax || x.st = .closing
      | none => false
    if full then kvRefuse s key t p
    else
      let q := r.q.poolRef
      let tok := nextToken s r
      let k ← appendKind s r tok
      let new : Bool := match k with
        | .fresh => true
        | .copyOf _ _ => true
        | _ => false
      if new ∧ (plFcnt s q = 0 ∨ r.q.lcap ≤ (tok + 15) / 16) then kvRefuse s key t p
      else do
        if new then checkedHead s q
        match k with
        | .copyOf page _ => let _ ← checkedDesc s q page
        | _ => pure ()
        recordReach s r.q (tok / 16)
        match k with
        | .same page =>
          let o := rowOff s q page (tok % 16)
          kvLong (appendToken s r w tok o) key t p d (appendWord false false o) true
        | .slow =>
          let o := (Config.freeWord s.free).toNat
          kvLong (appendToken { s with free := s.free + 1 } r w tok o) key t p d (appendWord false false o) true
        | .fresh =>
          let x := appendPage s r w tok none
          let o := rowOff x.1 q x.2 0
          kvLong (appendToken x.1 r w tok o) key t p d (appendWord false true o) true
        | .copyOf page rows =>
          let x := appendPage s r w tok (some page)
          let o := rowOff x.1 q x.2 rows
          let s' := addCopy (appendToken x.1 r w tok o) (.append r page x.2 rows (beatsFor x.1 key t) t.ref (locOf t d))
          kvLong { s' with free := s'.free + 1 } key t p d (appendWord true true o) false

/-- `kv.add` ATTACH. -/
def execKvAddAttach (d : Reg) (a : Src) (h : BitVec 4) (p : BitVec 3) (s : State) : Answer :=
  kvAdd s d a h 0xF 3 true false fun key t pool ws => do
    let r ← liftE (seqOn s t pool (ws.getD 1 0).toNat)
    let q := r.q.poolRef
    if !(seqWindows s r.idx).isEmpty ∨ r.q.ntok % 16 ≠ 0 then trapWith cKv 4
    else
      let f ← lookup s q (tagOf (ws.getD 2 0) (ws.getD 3 0))
      match f with
      | none => kvRefuse s key t p
      | some hi =>
        if r.q.lcap ≤ r.q.npge then trapWith cKv 3
        else
          let desc ← checkedDesc s q (pfPage hi)
          recordReach s r.q r.q.npge
          let s := setDesc s q (pfPage hi) (setBits desc 39 24 (pdRef desc + 1))
          let s := setEntry4 s r.q r.q.npge (mkList (pfPage hi) ((pfRows hi + 1) % 32) 1)
          let s := setCounts s r.idx (r.q.ntok + pfRows hi + 1) (r.q.npge + 1)
          kvGive s key t p d (foundWord hi)

/-- The list entry that PUBLISH, DEMOTE and `kv.promote` name, for an index below NPGE: one beyond is the fault
*order*. -/
def namedEntry (s : State) (r : SeqRef) (i : Nat) : Except Exc Nat :=
  if r.q.npge ≤ i then trapWith cKv 4 else checkedEntry s r.q i

/-- `kv.add` PUBLISH. -/
def execKvAddPublish (d : Reg) (a : Src) (h : BitVec 4) (p : BitVec 3) (s : State) : Answer :=
  kvAdd s d a h 0x1FFFFFFF0F 3 true false fun key t pool ws => do
    let r ← liftE (seqOn s t pool (ws.getD 1 0).toNat)
    let q := r.q.poolRef
    let i := bits (ws.getD 0 0).toNat 31 8
    let m := bits (ws.getD 0 0).toNat 36 32 + 1
    let e ← namedEntry s r i
    let desc ← if leSt e = 0 then checkedDesc s q (lePage e) else pure 0
    if leSt e ≠ 0 ∨ pdPub desc ∨ r.q.ntok < 16 * i + m then trapWith cKv 4
    else
      let tag := tagOf (ws.getD 2 0) (ws.getD 3 0)
      let b := bucketOf s q tag
      checkedBucket s q b
      let free := firstFrom (fun e => !pfV (prefixHi s q b e)) 0 4
      match matchTag s q tag, free with
      | none, some f =>
        let s := kvWrite s q.asid q.h (prefixOff s q b f) 16 tag
        let s := kvWrite s q.asid q.h (prefixOff s q b f + 16) 16 (2 ^ 29 + (m - 1) * 2 ^ 24 + lePage e)
        let s := setDesc s q (lePage e) (mkDesc (bits desc 56 45) f 1 (pdSt desc) (pdRef desc) b)
        kvGive s key t p d 0
      | _, _ => kvRefuse s key t p

/-- `kv.add` CLOSE. -/
def execKvAddClose (d : Reg) (a : Src) (h : BitVec 4) (p : BitVec 3) (s : State) : Answer :=
  kvAdd s d a h 0xF 1 true false fun key t pool ws => do
    let r ← liftE (seqOn s t pool (ws.getD 1 0).toNat)
    if !(seqWindows s r.idx).isEmpty then trapWith cKv 4
    else
      let es ← mapE (checkedEntry s r.q) (List.range r.q.npge)
      let _ ← mapE (fun e => checkedDesc s r.q.poolRef (lePage e)) (es.filter fun e => leSt e ≠ 2)
      let s := (es.filter fun e => leSt e ≠ 2).foldl (fun s e => dropPage s r.q.poolRef (lePage e)) s
      let s := { s with seqs := tabUpd s.seqs r.idx {} fun x =>
        { gen := if x.gen = 2 ^ 18 - 1 then 1 else x.gen + 1, live := none } }
      kvGive s key t p d 0

/-- `kv.add` DEMOTE. -/
def execKvAddDemote (d : Reg) (a : Src) (h : BitVec 4) (p : BitVec 3) (s : State) : Answer :=
  kvAdd s d a h 0xFFFFFFFFFFFF0F 1 true false fun key t pool ws => do
    let r ← liftE (seqOn s t pool (ws.getD 1 0).toNat)
    let q := r.q.poolRef
    let i := bits (ws.getD 0 0).toNat 31 8
    let slot := bits (ws.getD 0 0).toNat 55 32
    let e ← namedEntry s r i
    if leSt e ≠ 0 then trapWith cKv 4
    else if plNsl s q ≤ slot then trapWith cKv 5
    else do
      let desc ← checkedDesc s q (lePage e)
      if !(seqWindows s r.idx).isEmpty ∨ pdRef desc ≠ 1 then return (← kvRefuse s key t p)
      let s' := addCopy (unpublish s q (lePage e)) (.demote r i (lePage e) slot t.ref (locOf t d))
      kvLong s' key t p d 0 false

/-! ## `kv.promote` (13/R319) -/

/-- The pending promotion of an entry, with its copy id. -/
def promotionOf (s : State) (r : SeqRef) (i : Nat) : Option (Nat × KvCopy) :=
  s.kvCopies.findSome? fun c =>
    match c.2 with
    | .promote x e _ _ _ _ _ => if x.idx = r.idx ∧ x.gen = r.gen ∧ e = i then some c else none
    | _ => none

/-- The sequence and entry that `kv.promote` names. -/
def promoteArg (s : State) (t : Thread) (x : Word) : Except Exn (SeqRef × Nat) :=
  if bits x.toNat 63 56 ≠ 0 then exn cKv 5
  else
    match seqNamed s t (bits x.toNat 31 0) with
    | .error e => .error e
    | .ok r => (checkedPool s r.q.poolRef false).map fun _ => (r, bits x.toNat 55 32)

/-- The promotion ring of a pool: the well-formed object at RGOFF (05/R127). -/
def promotionRing (s : State) (r : SeqRef) : Except Exn (Nat × Nat) :=
  match ringAt s r.q.asid r.q.hk (plRg s r.q.poolRef) with
  | .error e => .error e
  | .ok pa => if ringWf (ringGet s pa) then .ok (pa, ringGet s pa) else exn cRing 0 (some (BitVec.ofNat 64 (plRg s r.q.poolRef)))

/-- What a promotion reads: the pool block, the record, its entry, the ring, and the head page's descriptor. -/
def notePromote (s z : State) (r : SeqRef) (i : Nat) : State :=
  let q := r.q.poolRef
  noteSpans z [blockSpan q, recordSpan r.q, entrySpan r.q i, (q, plRg s q, 64), descSpan s q (plFhead s q)]

/-- `kv.promote` (13/R319). -/
def execKvPromote (d : Reg) (a : Src) (p : BitVec 3) (s : State) : Answer :=
  issue s [d, a.reg] fun key t => do
    let x ← readSrc t a
    let _ ← destReady t d
    let (r, i) ← liftE (promoteArg s t x)
    let q := r.q.poolRef
    let e ← namedEntry s r i
    if leSt e ≠ 2 then trapWith cKv 4
    else
      let (pa, ring) ← liftE (promotionRing s r)
      if (promotionOf s r i).isSome ∨ plFcnt s q = 0 ∨ sub32 (rgIp ring) (rgRp ring) = rgN ring then kvRefuse s key t p
      else
        checkedHead s q
        let g := allocPage s q (mkDesc 0 0 0 1 1 0)
        let z := ringReserve ring
        let s' := addCopy (ringSet g.1 pa z.2) (.promote r i g.2 (lePage e) (BitVec.ofNat 32 z.1) false t.ref)
        kvGive (notePromote s s' r i) key t p d (BitVec.ofNat 64 z.1)

/-- A promotion's ring slot completes (05/R124). -/
def promotionSlot (s : State) (r : SeqRef) (slot : W32) (err : Bool) (who : ThreadRef) : State :=
  looseComplete s r.q.asid r.q.hk (BitVec.ofNat 64 (plRg s r.q.poolRef)) slot.toNat err who 0

/-- `kv.promote … cancel` (13/R319). The descriptor of the page that it frees is read, and tested (00/R8). -/
def execKvPromoteCancel (d : Reg) (a : Src) (p : BitVec 3) (s : State) : Answer :=
  issue s [d, a.reg] fun key t => do
    let x ← readSrc t a
    let _ ← destReady t d
    let (r, i) ← liftE (promoteArg s t x)
    match promotionOf s r i with
    | some (id, .promote _ _ page _ ring false who) =>
      let _ ← checkedDesc s r.q.poolRef page
      let s := noteSpans s [blockSpan r.q.poolRef, descSpan s r.q.poolRef page]
      let s := { freePage s r.q.poolRef page with kvCopies := tabDel s.kvCopies id }
      let s := promotionSlot s r ring true who
      pure (s.updThread key fun t => writeP (writeR t d (ring.zeroExtend 64)) p true)
    | _ => kvRefuse s key t p

/-! ## Copies -/

/-- The long result of a copy is ready. -/
def readyResult (s : State) (who : ThreadRef) (reg : RegLoc) : State :=
  updByRef s who fun t => { t with prods := t.prods.map fun p =>
    if p.dests = [reg] ∧ p.wait = some .copy then { p with wait := none } else p }

/-- The sequence of a copy is still open. -/
def stillOpen (s : State) (r : SeqRef) : Bool :=
  let x := tabGet s.seqs r.idx {}
  x.live.isSome && x.gen = r.gen

/-- A copy ends and is forgotten. -/
def dropCopy (s : State) (id : Nat) : State := { s with kvCopies := tabDel s.kvCopies id }

/-- APPEND_PAGE_COPY_COMPLETE (13/R318): the island has moved the last byte. (DEDUCED, log 58.) -/
def execAppendPageCopyComplete (id : Nat) (s : State) : Answer :=
  .next (match tabFind s.kvCopies id with
    | some (.append r _ _ rows b who reg) =>
      if b.done < pageBytes s r rows then s else readyResult (dropCopy s id) who reg
    | _ => s)

/-- Offset of a slow-tier slot. -/
def slotOff (s : State) (p : PoolRef) (k : Nat) : Nat := plSl s p + k * pageLen s p

/-- DEMOTE_COMPLETE (13/R318): the entry becomes slow and its page is freed, if it is still the sequence's own. -/
def execDemoteComplete (id : Nat) (s : State) : Answer :=
  .next (match tabFind s.kvCopies id with
    | some (.demote r i page slot who reg) =>
      let p := r.q.poolRef
      let s' := kvCopyBytes s r.q (pageOff s p page) (slotOff s p slot) (pageLen s p)
      let mine := stillOpen s r && leSt (listEntry s r.q i) = 0 && lePage (listEntry s r.q i) = page
      let s' := noteSpans s' [recordSpan r.q, entrySpan r.q i, descSpan s p page]
      let s' := if mine then setEntry4 (freePage s' p page) r.q i (mkList slot 0 2) else s'
      readyResult (dropCopy s' id) who reg
    | _ => s)

/-- PROMOTION_COPY_BEGIN (13/R319). -/
def execPromotionCopyBegin (id : Nat) (s : State) : Answer :=
  .next (match tabFind s.kvCopies id with
    | some (.promote r i page slot ring _ who) =>
      { s with kvCopies := tabPut s.kvCopies id (.promote r i page slot ring true who) }
    | _ => s)

/-- PROMOTION_COMPLETE (13/R319, R320): the entry becomes own, and the ring slot completes; the page of a sequence that
has closed is freed. -/
def execPromotionComplete (id : Nat) (s : State) : Answer :=
  .next (match tabFind s.kvCopies id with
    | some (.promote r i page slot ring true who) =>
      let p := r.q.poolRef
      let s' := kvCopyBytes s r.q (slotOff s p slot) (pageOff s p page) (pageLen s p)
      let s' := if stillOpen s r then setEntry4 s' r.q i (mkList page 0 0) else freePage s' p page
      promotionSlot (dropCopy s' id) r ring false who
    | _ => s)

end Sys2Proof.Machine
end

