-- ==== Sys2Proof/Machine/Windows.lean ====
section
/-! DEFINITION. Draft windows (13/R321-R327). -/

namespace Sys2Proof.Machine

/-- The id of a window (13/R321). -/
def winId (s : State) (i : Nat) : Nat := (tabGet s.wins i {}).gen * 2 ^ 12 + i

/-- Window indices that hold a window. -/
def heldWindows (s : State) : Nat := (s.wins.filter fun e => e.2.live.isSome).length

/-- An open window of the sequence stops taking positions when a later one opens (13 Table 13.8). -/
def stopTaking (s : State) (q : Nat) : State :=
  ((seqWindows s q).filter fun x => x.2.st = .opened).foldl (fun s x =>
    s.updWindow x.1 fun w => { w with nmax := w.napp }) s

/-- The window that `dw.open` opens (13/R321). -/
def newWindow (s : State) (r : SeqRef) (l : LaunchRef) (n : Nat) : Window :=
  { seq := r.idx, launch := l, ord := r.q.nwin, nmax := n, napp := 0
    first := r.q.ntok + sumNat ((seqWindows s r.idx).map fun x => x.2.napp)
    keep := 0, snaps := 0, st := .opened, as := 0, ss := 0, rows := []
    regions := r.q.sreg.map fun x => piecesOf s r.q x.1 x.2
    grans := [], pages := [] }

/-- `dw.open` (13/R326). (DEDUCED, log 59.) -/
def execDwOpen (d : Reg) (a : Src) (p : BitVec 3) (n : BitVec 4) (s : State) : Answer :=
  issue s [d, a.reg] fun key t => do
    let x ← readSrc t a
    let _ ← destReady t d
    if bits x.toNat 63 32 ≠ 0 then trapWith cKv 5
    else
      let r ← liftE (seqNamed s t x.toNat)
      match firstFrom (fun i => (tabGet s.wins i {}).live.isNone) 0 4096 with
      | none => kvRefuse s key t p
      | some i =>
        if 16 ≤ (seqWindows s r.idx).length then kvRefuse s key t p
        else
          let w := newWindow s r t.ref.l (n.toNat + 1)
          let s := stopTaking s r.idx
          let s := { s with wins := tabUpd s.wins i {} fun x => { x with live := some w } }
          let s := updSeq s r.idx fun q => { q with nwin := q.nwin + 1 }
          kvGive s key t p d (BitVec.ofNat 64 (winId s i))

/-- The window that an id names for a launch (13/R326): stale, foreign, and nonzero upper bits are the fault *window*.
(DEDUCED, log 59.) -/
def windowNamed (s : State) (l : LaunchRef) (x : Word) : Option (Nat × Window) :=
  let i := bits x.toNat 11 0
  let e := tabGet s.wins i {}
  match e.live with
  | some w => if bits x.toNat 63 32 = 0 ∧ e.gen = bits x.toNat 31 12 ∧ w.launch = l then some (i, w) else none
  | none => none

/-- The open window that `dw.snap`, `dw.commit` and `dw.abort` act on. -/
def openNamed (s : State) (t : Thread) (x : Word) : Except Exn (Nat × Window) :=
  match windowNamed s t.ref.l x with
  | none => exn cDraft 0
  | some (i, w) => if w.st = .opened then .ok (i, w) else exn cDraft 4

/-- The reading of a piece's window view reaches the lines that its bytes come from (05/R101-R103). -/
def touchView (s : State) (l : LaunchRef) (pc : Piece) : State :=
  pc.foldl (fun s r => touchAgent s ⟨0, 0, 0, some l, false⟩ r.1 r.2) s

/-- The window view of a piece (13/R322). -/
def viewPiece (s : State) (l : LaunchRef) (pc : Piece) : List Byte :=
  (pc.map fun r => (List.range r.2).map fun j => draftByte s l (r.1 + j)).flatten

/-- A line that the window view of a piece is read from holds an uncorrectable error: memory's, or a live shadow's. -/
def badPiece (s : State) (w : Window) (pc : Piece) : Bool := (pieceAddrs pc).any (draftBad s w.launch)

/-- Take snapshot p over given granules of the shadow area (13/R324): each holds 256 bytes of the window view. -/
def takeSnapshot (s : State) (i p : Nat) (w : Window) (slots : List Nat) : State :=
  let pieces := w.regions.flatten
  let pairs := pieces.zip slots
  let data := pairs.map fun x => (x.2, viewPiece s w.launch x.1)
  let s := pairs.foldl (fun s x => touchView s w.launch x.1) s
  let s := data.foldl (fun s x => putBytes s x.1 x.2) s
  let kept := w.grans.filter fun g => g.snap ≠ p
  let new := pairs.map fun x => (⟨x.1, x.2, p, BitVec.allOnes 256⟩ : Granule)
  s.updWindow i fun w => { w with grans := kept ++ new, snaps := w.snaps ||| (1#16 <<< (p - 1)) }

/-- The granules that snapshot p may take: those of an earlier snapshot p, and the free ones (13/R326: it replaces the
earlier one). -/
def snapshotSlots (s : State) (p : Nat) (w : Window) : List Nat :=
  let n := w.regions.flatten.length
  let old := (w.grans.filter fun g => g.snap = p).map fun g => g.slot
  (old ++ freeGranules s (n - old.length)).take n

/-- `dw.snap` (13/R326); d holds p and is read. A view that meets an uncorrectable error is a precise data error, as for every
read made at issue (17/R403, 08/R453, DEDUCED, log 19). -/
def execDwSnap (d : Reg) (a : Src) (p : BitVec 3) (s : State) : Answer :=
  issue s [d, a.reg] fun key t => do
    let x ← readSrc t a
    let v ← readField t d
    let (i, w) ← liftE (openNamed s t x)
    let newest : Bool := match (seqWindows s w.seq).getLast? with
      | some y => y.1 = i
      | none => false
    if !newest then trapWith cDraft 1
    else if v.toNat < 1 ∨ w.napp < v.toNat then trapWith cDraft 2
    else
      let slots := snapshotSlots s v.toNat w
      if slots.length < w.regions.flatten.length then kvRefuse s key t p
      else if w.regions.flatten.any (badPiece s w) then trapWith cData 0
      else pure ((takeSnapshot s i v.toNat w slots).setThread key (writeP t p true))

/-- A window closes, keeping n positions; its commit point waits where its release does (13/R325, 14/R341). -/
def closing (s : State) (key : Nat) (t : Thread) (i n : Nat) (as : BitVec 3) (ss : BitVec 4) : State :=
  let waits := releaseWaits t as ss
  let z := s.updWindow i fun w => { w with st := .closing, keep := n, as := as, ss := ss, waits := waits }
  if waits then z.setThread key (defer t (.window i (tabGet s.wins i {}).gen)) else z

/-- Close a window keeping n positions (13/R326). -/
def closeWindow (s : State) (key : Nat) (t : Thread) (x : Word) (n : Nat) (as : BitVec 3) (ss : BitVec 4) :
    Except Exn State :=
  match openNamed s t x with
  | .error e => .error e
  | .ok (i, w) =>
    if w.napp < n then exn cDraft 2
    else if 1 ≤ n ∧ w.regions ≠ [] ∧ !w.snaps.getLsbD (n - 1) then exn cDraft 3
    else .ok (closing s key t i n as ss)

/-- `dw.commit` (13/R326); d holds n and is read. Its release takes place at the commit point. -/
def execDwCommit (d : Reg) (a : Src) (as : BitVec 3) (ss : BitVec 4) (s : State) : Answer :=
  issue s [d, a.reg] fun key t => do
    let x ← readSrc t a
    let v ← readField t d
    liftE (closeWindow s key t x v.toNat as ss)

/-- `dw.abort` (13/R326): a commit with n = 0. -/
def execDwAbort (a : Src) (as : BitVec 3) (ss : BitVec 4) (s : State) : Answer :=
  issue s [a.reg] fun key t => do
    let x ← readSrc t a
    liftE (closeWindow s key t x 0 as ss)

/-- STATE of 13 Table 13.10. -/
def winStateCode : WinState → Nat
  | .opened => 1
  | .closing => 2
  | .committed => 3
  | .aborted => 4

/-- The word of `dw.stat` (13 Table 13.10). -/
def winWord (w : Window) : Word :=
  BitVec.ofNat 64 (winStateCode w.st + w.nmax * 2 ^ 8 + w.napp * 2 ^ 13 + w.keep * 2 ^ 18 + w.snaps.toNat * 2 ^ 24
    + w.ord % 65536 * 2 ^ 40)

/-- `dw.stat` (13/R327): a retired window's index is freed. -/
def execDwStat (d : Reg) (a : Src) (s : State) : Answer :=
  issue s [d, a.reg] fun key t => do
    let x ← readSrc t a
    let _ ← destReady t d
    match windowNamed s t.ref.l x with
    | none => pure (s.setThread key (writeR t d 0))
    | some (i, w) =>
      let s := if w.unretired then s else freeWindow s i
      pure (s.setThread key (writeR t d (winWord w)))

/-- COMMIT_POINT (13/R325): the window is closing, every earlier window of its sequence has retired, and its release waits for
nothing (14/R341). -/
def execCommitPoint (win : Nat) (s : State) : Answer :=
  .next (match (tabGet s.wins win {}).live with
    | none => s
    | some w =>
      let due : Bool := w.st = .closing && !w.waits && (seqWindows s w.seq).all fun x => w.ord ≤ x.2.ord
      if due then retireWindow s win w.keep else s)

end Sys2Proof.Machine
end

