-- ==== Sys2Proof/Machine/Fence.lean ====
section
/-! DEFINITION. `fence` (08/R207): what its later accesses wait for, and the storage kinds of an instruction's accesses
(14/R330). -/

namespace Sys2Proof.Machine

/-! ## What a `fence` waits for -/

/-- The kinds of the elements that a copy has still to move. -/
def copyKinds (s : State) (e : CopyEntry) : BitVec 4 :=
  (List.range (copyTotal e.shape - e.done)).foldl (fun a i => a ||| elemKinds s e (e.done + i)) 0

/-- The kinds of a stage of a schedule that has been let begin; of one whose record cannot be read, every kind (DEDUCED, log
1). -/
def stageKinds (s : State) (c : Nat) (d : Sched) (j : Nat) : BitVec 4 :=
  let kept := (d.head.filter fun _ => j = d.comp).map (·.shape)
  match kept.or ((schedEntry s c { d with comp := j }).toOption.map fun r => r.1) with
  | none => 15
  | some r =>
    let h := fun i => tabGet d.hs i {}
    (List.range (copyTotal r)).foldl (fun a k => a ||| shapeKinds s d.asid r (h r.sh) (h r.dh) k) 0

/-- One past the last place of a list that passes a test, 0 with none. -/
def upToLast {α : Type} (f : α → Bool) (l : List α) : Nat :=
  l.zipIdx.foldl (fun n e => if f e.1 then e.2 + 1 else n) 0

/-- Completions of a queue until every copy of a thread that has still to access storage in ss is done: of the entries that the
queue holds, and of the stages of a schedule that have been let begin. -/
def queueAhead (s : State) (c : Nat) (r : ThreadRef) (ss : BitVec 4) (x : SQueue) : Nat :=
  let held := upToLast (fun e => decide (e.owner = r) && decide (copyKinds s e &&& ss ≠ 0)) x.entries
  match x.sched with
  | none => held
  | some d =>
    if d.owner ≠ r then held
    else
      Nat.max held (upToLast (fun i => decide (stageKinds s c d (d.comp + i) &&& ss ≠ 0)) (List.range (d.sc - d.comp)))

/-- The kinds of the writes that a pod operation has still to make: at this member, and a multicast's at others. -/
def podKinds (s : State) (x : PodOp) : BitVec 4 :=
  let ms := podMembers x.set
  let own : BitVec 4 := if ms.contains s.member then kindOf s x.asid x.dst.toNat .store else 0
  own ||| (if x.op.isNone && ms.any (· ≠ s.member) then 8 else 0)

/-- The kind of the memory that holds a slot of a pool's slow tier. -/
def slotKind (s : State) (q : Seq) (slot : Nat) : BitVec 4 :=
  kindOf s q.asid (q.hk.base.toNat + slotOff s q.poolRef slot) .load

/-- The thread of a key-value copy, and the kinds of storage that it reads and writes. -/
def kvCopyOf (s : State) : KvCopy → ThreadRef × BitVec 4
  | .append _ _ _ _ _ who _ => (who, 4)
  | .demote r _ _ slot who _ => (who, 4 ||| slotKind s r.q slot)
  | .promote r _ _ slot _ _ who => (who, 4 ||| slotKind s r.q slot)

/-- What the accesses after a `fence` of a thread wait for: the data reads and writes in ss of the engine commands that it has
issued (08/R207), under a release at `system` scope over X its writes to the host window (14/R341), and the release writes before
its acquire that wait (14/R336). -/
def fenceWaits (s : State) (c : Nat) (t : Thread) (as : BitVec 3) (ss : BitVec 4) : List FenceWait :=
  let x := s.cluster c
  let queues := x.queues.filterMap fun q =>
    let n := queueAhead s c t.ref ss q.2
    if n = 0 then none else some (.queue q.1 (q.2.donecnt + BitVec.ofNat 32 n))
  let islands := x.islands.filterMap fun i =>
    if i.2.order.any (itemWithin t.ref ss) then some (.island i.1) else none
  let pods := s.podOps.filterMap fun y =>
    if y.owner = t.ref ∧ podKinds s y &&& ss ≠ 0 then some (.pod y.id) else none
  let copies := s.kvCopies.filterMap fun y =>
    if (kvCopyOf s y.2).1 = t.ref ∧ (kvCopyOf s y.2).2 &&& ss ≠ 0 then some (.copy y.1) else none
  let host := if releaseWaits t as ss then [.host t.nprod] else []
  queues ++ islands ++ pods ++ copies ++ host ++ t.rels.map fun p => .release p.num

/-- A list with further waits of storage kinds ss, each once. -/
def barWith (l : List Barred) (ss : BitVec 4) (ws : List FenceWait) : List Barred :=
  l ++ (ws.map fun w => (⟨w, ss⟩ : Barred)).filter fun b => !l.contains b

/-- `fence` (08/R207): the thread's own accesses are performed at their issue (DESIGN CHOICE, log 1); what is still to be
performed holds back its later accesses in ss, and no other instruction. -/
def execFence (as : BitVec 3) (ss : BitVec 4) (s : State) : Answer :=
  issueOwn s [] fun t => .ok { t with barred := barWith t.barred ss (fenceWaits s (keyCluster s.core) t as ss) }

/-! ## The storage kinds of an instruction's accesses (14 Table 14.2) -/

/-- The kind of an access at an offset behind a handle. -/
def kindBehind (s : State) (asid : BitVec 14) (h : Handle) (off : Int) (need : Need) : BitVec 4 :=
  kindOf s asid (vaOf h off).toNat need

/-- The kind of an access at s(a) + k behind a handle; one whose address is not there yet makes none. -/
def kindAt (s : State) (t : Thread) (a : Src) (h : BitVec 4) (k : Int) (need : Need) : BitVec 4 :=
  match readSrc t a with
  | .ok x => kindBehind s t.asid (readH t h) (x.toInt + k) need
  | .error _ => 0

/-- The kind of a sequence's record, by the handle that names the sequence. -/
def recordKind (s : State) (t : Thread) (h : Nat) : BitVec 4 :=
  match seqNamed s t h with
  | .ok r => kindBehind s r.q.asid r.q.hk r.q.recOff.toInt .load
  | .error _ => 0

/-- The kinds of a `kv.add` on a sequence: the pool's, and the record's. -/
def kvAddKinds (s : State) (t : Thread) (d : Reg) : BitVec 4 :=
  match readField t (regAdd d 1) with
  | .ok w => 4 ||| recordKind s t w.toNat
  | .error _ => 4

/-- Those of `kv.add` OPEN: its record lies behind the handle named. -/
def kvOpenKinds (s : State) (t : Thread) (d : Reg) (h : BitVec 4) : BitVec 4 :=
  match readField t (regAdd d 1) with
  | .ok w => 4 ||| kindBehind s t.asid (readH t h) w.toInt .store
  | .error _ => 4

/-- Those of `kv.add` DEMOTE: its slow-tier slot's too. -/
def kvDemoteKinds (s : State) (t : Thread) (d : Reg) : BitVec 4 :=
  match readField t d, readField t (regAdd d 1) with
  | .ok x, .ok w =>
    (match seqNamed s t w.toNat with
     | .ok r => slotKind s r.q (bits x.toNat 55 32)
     | .error _ => 0) ||| kvAddKinds s t d
  | _, _ => 4

/-- Those of `kv.promote`: the pool's, the record's, and the slow-tier slot's. -/
def kvPromoteKinds (s : State) (t : Thread) (a : Src) : BitVec 4 :=
  match readSrc t a with
  | .ok x =>
    (match promoteArg s t x with
     | .ok (r, i) => slotKind s r.q (lePage (listEntry s r.q i))
     | .error _ => 0) ||| 4 ||| recordKind s t (bits x.toNat 31 0)
  | .error _ => 4

/-- Those of the commit point of a window: device memory, and the record of its sequence. -/
def windowKinds (s : State) (t : Thread) (a : Src) : BitVec 4 :=
  match readSrc t a with
  | .ok x =>
    (match (windowNamed s t.ref.l x).bind fun w => seqAt s w.2.seq with
     | some q => 4 ||| kindBehind s q.asid q.hk q.recOff.toInt .load
     | none => 4)
  | .error _ => 4

/-- Those of a pod instruction: its descriptor, its ring, its source, and where it writes. -/
def podInstrKinds (s : State) (key : Nat) (t : Thread) (d : Reg) (a : Src) (h : BitVec 4) (comb : Bool) : BitVec 4 :=
  match readSrc t a, readField t d with
  | .ok off, .ok set =>
    let desc := kindBehind s t.asid (readH t h) off.toInt .load
    let ms := podMembers set
    let far : BitVec 4 := if !comb && ms.any (· ≠ s.member) then 8 else 0
    let rest : BitVec 4 := match readIssue s (threadAgent key t) (vaOf (readH t h) off.toInt).toNat 64 with
      | .error _ => 0
      | .ok (b, _) =>
        let w := leNat b
        kindBehind s t.asid (readH t h) (BitVec.ofNat 64 (pdSrc w)).toInt .load |||
          if ms.contains s.member then kindOf s t.asid (pdDst w) .store else 0
    4 ||| desc ||| far ||| rest
  | _, _ => 4

/-- The kind of a pod barrier: this member's own, or another's. -/
def xbarKind (s : State) (t : Thread) (d : Reg) : BitVec 4 :=
  match readField t d with
  | .ok v => if bits v.toNat 9 0 = s.member then 4 else 8
  | .error _ => 0

/-- An instruction that performs an acquire (14 Table 14.3), but for `fence`, which holds nothing but later accesses, and `xbar`,
whose acquire comes with its result. -/
def acquires : Instr → Bool
  | .bpull _ _ _ _ => true
  | .castLoad _ _ _ _ => true
  | .ringWait _ _ _ _ => true
  | .ringWptr _ _ _ _ => true
  | .cldR _ _ _ _ => true
  | .mxDrain _ _ => true
  | .dwStat _ _ => true
  | .kvFind _ _ _ _ => true
  | .kvAddAttach _ _ _ _ => true
  | _ => false

/-- A release before an acquire is performed before it (14/R336). -/
def acquireWaits (t : Thread) (i : Instr) : Bool := !t.rels.isEmpty && acquires i

/-- The thread enters a channel, an atomic read of its mailbox in device memory's storage (15/R357), as it yields, returns
from its outermost frame, or stands idle. -/
def entersNext (t : Thread) : BitVec 4 := if t.saved.isNone && (chooseChannel t).isSome then 4 else 0

/-- The storage kinds of an instruction's data accesses, its own and those of the engine command that it issues (14/R330,
08/R207), but for a copy's, whose elements wait themselves. -/
def accessKinds (s : State) (key : Nat) (t : Thread) : Instr → BitVec 4
  | .ldB _ a h o => kindAt s t a h o.toInt .load
  | .ldBu _ a h o => kindAt s t a h o.toInt .load
  | .ldH _ a h o => kindAt s t a h (o.toInt * 2) .load
  | .ldHu _ a h o => kindAt s t a h (o.toInt * 2) .load
  | .ldW _ a h o => kindAt s t a h (o.toInt * 4) .load
  | .ldWu _ a h o => kindAt s t a h (o.toInt * 4) .load
  | .ldD _ a h o => kindAt s t a h (o.toInt * 8) .load
  | .stB _ a h o => kindAt s t a h o.toInt .store
  | .stH _ a h o => kindAt s t a h (o.toInt * 2) .store
  | .stW _ a h o => kindAt s t a h (o.toInt * 4) .store
  | .stD _ a h o => kindAt s t a h (o.toInt * 8) .store
  | .amoAdd _ a h _ => kindAt s t a h 0 .atomic
  | .amoAnd _ a h _ => kindAt s t a h 0 .atomic
  | .amoOr _ a h _ => kindAt s t a h 0 .atomic
  | .amoXor _ a h _ => kindAt s t a h 0 .atomic
  | .amoMin _ a h _ => kindAt s t a h 0 .atomic
  | .amoMinu _ a h _ => kindAt s t a h 0 .atomic
  | .amoMax _ a h _ => kindAt s t a h 0 .atomic
  | .amoMaxu _ a h _ => kindAt s t a h 0 .atomic
  | .amoSwap _ a h _ => kindAt s t a h 0 .atomic
  | .amoCas _ a h _ => kindAt s t a h 0 .atomic
  | .fmtWin _ a h o => kindAt s t a h (o.toInt * 32) .load
  | .qput _ a h _ => kindAt s t a h 0 .atomic
  | .qget _ a h _ => kindAt s t a h 0 .atomic
  | .castLoad _ a h _ => kindAt s t a h 0 .load
  | .mxScale a h _ _ => kindAt s t a h 0 .load
  | .mxBind a h _ _ => 4 ||| kindAt s t a h 0 .load
  | .mxFire _ _ _ _ => 1
  | .cpIssue _ a h _ _ _ => 4 ||| kindAt s t a h 0 .load
  | .cpSched a h _ _ _ => kindAt s t a h 0 .load
  | .ringInit _ _ _ _ => 4
  | .ringWait _ _ _ _ => 4
  | .ringRel _ _ _ => 4
  | .ringWptr _ _ _ _ => 4
  | .cldR _ _ _ _ => 2
  | .kvFind _ _ _ _ => 4
  | .kvAddPool _ _ _ _ => 4
  | .kvAddOpen d _ h _ => kvOpenKinds s t d h
  | .kvAddAppend d _ _ _ => kvAddKinds s t d
  | .kvAddAttach d _ _ _ => kvAddKinds s t d
  | .kvAddPublish d _ _ _ => kvAddKinds s t d
  | .kvAddClose d _ _ _ => kvAddKinds s t d
  | .kvAddDemote d _ _ _ => kvDemoteKinds s t d
  | .kvPromote _ a _ => kvPromoteKinds s t a
  | .kvPromoteCancel _ a _ => kvPromoteKinds s t a
  | .dwSnap _ _ _ => 4
  | .dwCommit _ a _ _ => windowKinds s t a
  | .dwAbort a _ _ => windowKinds s t a
  | .xmcast d a h _ => podInstrKinds s key t d a h false
  | .xcomb d a h _ _ => podInstrKinds s key t d a h true
  | .xbar d _ _ _ => xbarKind s t d
  | .chanRaise _ _ _ => 4
  | .chanYield => entersNext t
  | .channelEntry => if t.running then 0 else entersNext t
  | .ret => if t.depth = 1 then entersNext t else 0
  | .barArrive _ _ _ => 4
  | .barWait _ _ _ => 4
  | .barTest _ _ _ => 4
  | _ => 0

end Sys2Proof.Machine
end

