-- ==== Sys2Proof/Machine/Flow.lean ====
section
/-! DEFINITION. Flow nodes (11/R262-R271) and `cfg.tok` (11/R285). -/

namespace Sys2Proof.Machine

/-- The condition of `steer` and `filter` (11/R262). -/
def flowCond (f : FWord) (b : Billet) : Bool :=
  let i := f.imm.toNat
  let c := if bit i 3 then decide (fieldOf b.data f.fa.toNat ≠ 0) else bit (tagP b.tag) (bits i 1 0)
  c != bit i 2

/-- `fork` (11/R263). -/
def execFork (f : FWord) (s : State) : Answer :=
  takeOne s f fun n k a =>
    emitTo k n (if isData a ∧ !pmHolds f a.tag then [f.t0] else targetsOf f) a

/-- `steer` (11/R264). -/
def execSteer (f : FWord) (s : State) : Answer :=
  takeOne s f fun n k a => emitTo k n [if flowCond f a then f.t0 else f.t1] a

/-- `filter` (11/R265). -/
def execFilter (f : FWord) (s : State) : Answer :=
  takeOne s f fun n k a =>
    if isData a ∧ !flowCond f a then
      (if bit f.imm.toNat 4 then emitTo k n (targetsOf f) (setKind a 3) else k)
    else emitTo k n (targetsOf f) a

/-- `seq` (11/R270); at a marker the counter returns to 0. -/
def execSeq (f : FWord) (s : State) : Answer :=
  atNode s fun n k =>
    match headA k n with
    | none => s
    | some a =>
      let k' := takeA k n
      if !roomFor k' n (targetsOf f) then s
      else if isMarker a then passMarker s n f (nodeUpd k' n fun x => { x with seq := 0 }) a
      else
        let c := (nodeAt k n).seq
        putCast s n (emitTo (nodeUpd k' n fun x => { x with seq := c + 1 }) n (targetsOf f) (setSeq a c.toNat))

/-- `mark` (11/R271). -/
def markBillet (f : FWord) (a : Billet) : Billet :=
  let i := f.imm.toNat
  let set := bits i 3 0
  let a' := setPred a ((tagP a.tag &&& (15 - set)) ||| (bits i 7 4 &&& set))
  match bits i 9 8 with
  | 1 => setKind a' 2
  | 2 => setKind a' 0
  | _ => a'

/-- `mark`: data billets and control tokens are edited, others and predicated-off billets pass. -/
def execMark (f : FWord) (s : State) : Answer :=
  passOne s f fun k a =>
    (k, if (isData a || tagKind a.tag = 2) && pmHolds f a.tag then markBillet f a else a)

/-- `cfg.tok` (11/R285). -/
def execCfgTok (f : FWord) (s : State) : Answer :=
  passOne s f fun k a =>
    (k, if isData a && pmHolds f a.tag then setKind { a with data := setField a.data 7 (bits f.imm.toNat 10 0) } 4
        else a)

/-! ## merge (11/R266) -/

/-- Reorder depth D. -/
def mergeDepth (f : FWord) (b : Block) : Nat :=
  if bits f.imm.toNat 7 0 ≠ 0 then bits f.imm.toNat 7 0 else b.mdepth

/-- How far tag x stands after E, modulo 65,536. -/
def seqAhead (e : BitVec 16) (b : Billet) : Nat := (tagSeq b.tag + 65536 - e.toNat) % 65536

/-- The buffered billet whose SEQ follows E most closely. -/
def nearest (e : BitVec 16) : List Billet → Option Billet
  | [] => none
  | b :: r =>
    match nearest e r with
    | none => some b
    | some c => some (if seqAhead e c < seqAhead e b then c else b)

/-- Emit a buffered billet: E goes past it, and a hole is dropped when HDROP says so. -/
def mergeEmit (f : FWord) (n : NodeRef) (k : CastLive) (b : Billet) : CastLive :=
  let k := nodeUpd k n fun x => { x with buf := x.buf.erase b, e := BitVec.ofNat 16 (tagSeq b.tag + 1) }
  if bit f.imm.toNat 8 ∧ tagKind b.tag = 3 then k else emitTo k n (targetsOf f) b

/-- The heads that request admission, in tag order (09/R221): the billet, and whether it stands at b. -/
def mergeHeads (k : CastLive) (n : NodeRef) : List (Billet × Bool) :=
  let get := fun (o : Option Billet) (isB : Bool) => match o with
    | some b => if isMarker b then [] else [(b, isB)]
    | none => []
  match get (headA k n) false, get (headB k n) true with
  | [a], [b] => if (tagSeq a.1.tag + 65536 - tagSeq b.1.tag) % 65536 ∈ List.range' 1 32767 then [b, a] else [a, b]
  | l, r => l ++ r

/-- Admit the heads (11/R266 step 2); an error is the *sequence* fault. -/
def mergeAdmit (depth : Nat) (n : NodeRef) : List (Billet × Bool) → CastLive → Except CastLive CastLive
  | [], k => .ok k
  | (b, isB) :: r, k =>
    let x := nodeAt k n
    if seqAhead x.e b < 32768 ∧ !(x.buf.any fun c => tagSeq c.tag = tagSeq b.tag) then
      if x.buf.length < depth then
        let k := if isB then takeB k n else takeA k n
        mergeAdmit depth n r (nodeUpd k n fun x => { x with buf := x.buf ++ [b] })
      else mergeAdmit depth n r k
    else .error k

/-- Step 2 of `merge` on a state. -/
def mergeStep2 (s : State) (n : NodeRef) (f : FWord) : State :=
  match (castSlot s n.cast).live with
  | none => s
  | some k =>
    match mergeAdmit (mergeDepth f (blockAt k n.blk)) n (mergeHeads k n) k with
    | .ok k => putCast s n k
    | .error k => nodeStop (putCast s n k) n ⟨cCast, 7, none, 0⟩

/-- `merge`. -/
def execMerge (f : FWord) (s : State) : Answer :=
  atNode s fun n k =>
    let x := nodeAt k n
    let both := match headA k n, headB k n with
      | some a, some b => if isMarker a ∧ isMarker b then some (a, b) else none
      | _, _ => none
    let room := roomFor k n (targetsOf f)
    match x.buf.find? fun b => seqAhead x.e b = 0 with
    | some b => mergeStep2 (if room then putCast s n (mergeEmit f n k b) else s) n f
    | none =>
      match both with
      | none => mergeStep2 s n f
      | some (a, b) =>
        match nearest x.e x.buf with
        | some c => mergeStep2 (if room then putCast s n (mergeEmit f n k c) else s) n f
        | none =>
          if tagSeq a.tag ≠ tagSeq b.tag then markerFault s n
          else if room then
            let k := nodeUpd (takeB (takeA k n) n) n fun x => { x with e := 0 }
            mergeStep2 (passMarker s n f k a) n f
          else s

/-! ## merge.u (11/R267) -/

/-- `merge.u`. -/
def execMergeU (f : FWord) (s : State) : Answer :=
  atNode s fun n k =>
    let pass := fun (k : CastLive) (b : Billet) =>
      if roomFor k n (targetsOf f) then putCast s n (emitTo k n (targetsOf f) b) else s
    match headA k n, headB k n with
    | some a, some b =>
      if isMarker a ∧ isMarker b then
        let k := takeB (takeA k n) n
        if tagSeq a.tag ≠ tagSeq b.tag then markerFault s n
        else if roomFor k n (targetsOf f) then passMarker s n f k a else s
      else if isMarker a then pass (takeB k n) b
      else if isMarker b then pass (takeA k n) a
      else
        let fromB := (nodeAt k n).lastB = some false
        let k := nodeUpd k n fun x => { x with lastB := some fromB }
        if fromB then pass (takeB k n) b else pass (takeA k n) a
    | some a, none => if isMarker a then s else pass (takeA k n) a
    | none, some b => if isMarker b then s else pass (takeB k n) b
    | none, none => s

/-! ## recirc (11/R268) -/

/-- The instructions that an instruction's targets lead to, arcs followed (02/R33, R38). -/
def succOf (k : CastLive) (key : Nat) : List Nat :=
  match (k.blocks[key / 128]?).bind fun b => b.code[key % 128]? with
  | none => []
  | some w =>
    (targetsOf (FWord.ofBits w)).filterMap fun t =>
      match destOf k (key / 128) t with
      | .input j _ => some j
      | .arc i => (k.arcs[i]?).map fun a => 128 * a.tblk + entrySlot (blockAt k a.tblk) a.tin
      | _ => none

/-- Everything reachable from a list of instructions; `fuel` bounds the length of paths. -/
def reachFrom (k : CastLive) : Nat → List Nat → List Nat
  | 0, l => l
  | fuel + 1, l => reachFrom k fuel (l ++ (l.flatMap (succOf k)).eraseDups.filter fun j => !l.contains j)

/-- The instructions of the loop of a `recirc`. -/
def loopOf (k : CastLive) (key : Nat) : List Nat :=
  let all := nodeKeys k
  let fwd := reachFrom k all.length (succOf k key).eraseDups
  if fwd.contains key then fwd.filter fun j => j = key || (reachFrom k all.length (succOf k j).eraseDups).contains key
  else [key]

/-- Billets of a list that are no markers. -/
def countBillets (l : List Billet) : Nat := (l.filter fun b => !isMarker b).length

/-- A loop instruction delivers to an input of an instruction directly. -/
def loopFeeds (k : CastLive) (loop : List Nat) (key port : Nat) : Bool :=
  loop.any fun j =>
    match (k.blocks[j / 128]?).bind fun b => b.code[j % 128]? with
    | some w => (targetsOf (FWord.ofBits w)).any fun t => destOf k (j / 128) t == .input key port
    | none => false

/-- The loop count: billets other than markers that stand in the loop (11/R268). -/
def loopCount (k : CastLive) (key : Nat) : Nat :=
  let loop := loopOf k key
  let at' := fun j =>
    let x := nodeOf k j
    (if loopFeeds k loop j 0 then countBillets x.qa else 0) + (if loopFeeds k loop j 1 then countBillets x.qb else 0) +
    (if loopFeeds k loop j 2 then countBillets x.qc else 0) + countBillets x.buf + countBillets (x.held.map (·.src)) +
    countBillets x.emit + x.req.toList.length + x.nest.toList.length
  let arcs := k.arcs.filter fun a =>
    loop.contains (128 * a.tblk + entrySlot (blockAt k a.tblk) a.tin) &&
    loop.any fun j => j / 128 == a.fblk && (match (k.blocks[j / 128]?).bind fun b => b.code[j % 128]? with
      | some w => (targetsOf (FWord.ofBits w)).any fun t => bits t.toNat 1 0 == 3 && bits t.toNat 4 2 == a.fout
      | none => false)
  sumNat (loop.map at') + sumNat (arcs.map fun a => countBillets a.q)

/-- `recirc`. The marker at b, which is placed nowhere, is taken and retires whatever slots its targets have free (DESIGN CHOICE,
log 80). -/
def execRecirc (f : FWord) (s : State) : Answer :=
  atNode s fun n k =>
    let x := nodeAt k n
    let pass := fun (k : CastLive) (b : Billet) =>
      if roomFor k n (targetsOf f) then putCast s n (emitTo k n (targetsOf f) b) else s
    let fromA := match headA k n with
      | none => s
      | some a =>
        if x.out then s
        else if !isMarker a then pass (takeA k n) a
        else if (headB k n).isNone ∧ loopCount k (nodeKey n) = 0 then
          pass (nodeUpd (takeA k n) n fun x => { x with out := true }) a
        else s
    match headB k n with
    | none => fromA
    | some b =>
      if isMarker b then retireAt (putCast s n (nodeUpd (takeB k n) n fun x => { x with out := false })) n
      else pass (takeB k n) b

/-! ## gate (11/R269) -/

/-- `gate`. -/
def execGate (f : FWord) (s : State) : Answer :=
  atNode s fun n k =>
    let x := nodeAt k n
    let fromC := match headC k n with
      | some c => !isMarker c && decide (x.credit < 65535)
      | none => false
    let k1 := if fromC then takeC k n else k
    let c1 := if fromC then x.credit + 1 else x.credit
    let rest := fun (k : CastLive) (c : Nat) => putCast s n (nodeUpd k n fun x => { x with credit := c })
    match headA k n with
    | none => rest k1 c1
    | some a =>
      let k2 := takeA k1 n
      let room := roomFor k2 n (targetsOf f)
      if isMarker a then
        match headC k n with
        | some c =>
          if isMarker c then
            if tagSeq a.tag ≠ tagSeq c.tag then markerFault s n
            else if room then
              passMarker s n f (nodeUpd (takeC k2 n) n fun x => { x with credit := bits f.imm.toNat 15 0 }) a
            else s
          else rest k1 c1
        | none => rest k1 c1
      else if !room ∨ (isData a ∧ c1 = 0) then rest k1 c1
      else rest (emitTo k2 n (targetsOf f) a) (if isData a then c1 - 1 else c1)

end Sys2Proof.Machine
end

