-- ==== Sys2Proof/Machine/Handles.lean ====
section
/-! DEFINITION. Handle instructions (04/R95) and format windows (04/R87). -/

namespace Sys2Proof.Machine

/-- `hsub` (04/R95). -/
def execHsub (d : BitVec 4) (a b : Src) (h : BitVec 4) (s : State) : Answer :=
  issueOwn s [a.reg, b.reg] fun t => do
    let x ← readSrc t a
    let y ← readSrc t b
    let k := readH t h
    if k.v = false then trapWith cHandle 0 (some (vaOf k x.toNat))
    else if k.asid ≠ t.asid then trapWith cHandle 1 (some (vaOf k x.toNat))
    else if k.rights.getLsbD 4 = false then trapWith cHandle 2 (some (vaOf k x.toNat))
    else if k.len.toNat < x.toNat + y.toNat then trapWith cHandle 3 (some (vaOf k x.toNat))
    else pure (writeH t d { k with base := k.base + x.setWidth 56, len := y.setWidth 48 })

/-- `hrights` (04/R95). -/
def execHrights (d h : BitVec 4) (m : BitVec 5) (s : State) : Answer :=
  issueOwn s [] fun t =>
    let k := readH t h
    if k.v = false then trapWith cHandle 0
    else .ok (writeH t d { k with rights := k.rights &&& m })

/-- `hbase` (04/R95). -/
def execHbase (d : Reg) (h : BitVec 4) (s : State) : Answer := opD 0 s d fun t => (readH t h).base.setWidth 64

/-- `hlen` (04/R95). -/
def execHlen (d : Reg) (h : BitVec 4) (s : State) : Answer := opD 0 s d fun t => (readH t h).len.setWidth 64

/-- `hmov` (04/R95). -/
def execHmov (d h : BitVec 4) (s : State) : Answer := issueOwn s [] fun t => .ok (writeH t d (readH t h))

/-- `hcheck` (04/R95): the test, without a fault. -/
def execHcheck (d : Reg) (a : Src) (h : BitVec 4) (p : BitVec 3) (m : BitVec 5) (s : State) : Answer :=
  issueOwn s [d, a.reg] fun t => do
    let x ← readSrc t a
    let y ← readField t d
    let k := readH t h
    pure (writeP t p (k.v && decide (k.asid = t.asid) && decide (k.rights &&& m = m) &&
      decide (x.toNat + y.toNat ≤ k.len.toNat)))

/-! ## Format windows -/

/-- Element formats that a window kind admits (04/R82). -/
def fmtOk (d : BitVec 256) : Bool :=
  [0, 1, 9, 10, 11, 12, 13].contains (winFmt d)

/-- Two byte ranges share a byte. -/
def meets (a n b m : Nat) : Bool := n ≠ 0 && m ≠ 0 && a < b + m && b < a + n

/-- The other enabled windows, as die and descriptor: the view that the window itself held before is none of them, for the new
descriptor takes its place (DESIGN CHOICE, log 46). -/
def otherWindows (s : State) (die idx : Nat) : List (Nat × BitVec 256) :=
  (s.dies.map fun e => e.2.windows.filterMap fun w =>
    if winEn w.2 ∧ ¬ (e.1 = die ∧ w.1 = idx) then some (e.1, w.2) else none).flatten

/-- The tests of 04/R87 on an enabled descriptor. The view ends within device memory (04 Table 4.1); the auxiliary region,
which the memory port reads with the view, ends before the gigabyte that only page engines and walkers reach (06/R141;
DEDUCED, log 46). A tag window's AUX must be 0 (04/R82); so must that of a scaled or packed window of LEN 0, whose auxiliary
region is empty (DESIGN CHOICE, log 46). -/
def descriptorBad (s : State) (die idx : Nat) (d : BitVec 256) : Bool :=
  let n := d.toNat
  let aux := winAux d
  let auxLen := winAuxLen d
  let others := otherWindows s die idx
  bits n 255 176 ≠ 0 || bits n 127 96 ≠ 0 || bits n 63 48 ≠ 0 || bits n 15 8 ≠ 0 || 4 < winPack d || !fmtOk d ||
  devEnd < winBase d + winLen d ||
  (auxLen = 0 && aux ≠ 0) || aux % 64 ≠ 0 || backingBase < aux + auxLen ||
  others.any (fun w => w.1 = die && meets (winBase d) (winLen d) (winBase w.2) (winLen w.2)) ||
  meets aux auxLen (winBase d) (winLen d) ||
  others.any fun w => meets aux auxLen (winBase w.2) (winLen w.2)

/-- The lines of a view that are not pinned leave the L2 (04/R87). -/
def invalidateView (s : State) (die : Nat) (d : BitVec 256) : State :=
  let out := fun (l : Nat) => winBase d ≤ 64 * l ∧ 64 * l < winBase d + winLen d
  if !winEn d then s
  else s.updDie die fun x => { x with l2 := tabMap (fun ls => ls.filter fun l => isPinned x l ∨ ¬ out l) x.l2 }

/-- A window takes a descriptor (04/R87): the unpinned lines of the old view and of the new one are invalidated. -/
def setWindow (s : State) (die i : Nat) (d : BitVec 256) : State :=
  let old := tabGet (s.die die).windows i 0
  (invalidateView (invalidateView s die old) die d).updDie die fun x => { x with windows := tabPut x.windows i d }

/-- `fmt.win` (04/R87). (DEDUCED, log 46.) -/
def execFmtWin (r : Reg) (a : Src) (h : BitVec 4) (o : BitVec 8) (s : State) : Answer :=
  issue s [r, a.reg] fun key t => do
    if !t.priv then trapWith cPriv 0
    else
      let x ← readSrc t a
      let w ← readField t r
      let va ← liftE (checkHandle (readH t h) (x.toInt + o.toInt * 32) 32 rR t.asid)
      let y ← readIssue s (threadAgent key t) va 32
      let d := BitVec.ofNat 256 (leNat y.1)
      let die := w.toNat / 64
      if 128 ≤ w.toNat then trapWith cFormat 0
      else if winEn d ∧ descriptorBad s die (w.toNat % 64) d then trapWith cFormat 0
      else pure (setWindow y.2 die (w.toNat % 64) d)

end Sys2Proof.Machine
end

