-- ==== Sys2Proof/Machine/Host.lean ====
section
/-! DEFINITION. The host's accesses (18/R407-R410), writes of device registers (04/R92, R100, 16/R370, 17/R405, 18/R414,
R423), and errors in storage and links (17/R403, R404). -/

namespace Sys2Proof.Machine

/-! ## BAR 0 and BAR 2 (18/R408, R409) -/

/-- The host: in no ASID and no draft window. -/
def hostAgent : Agent := ⟨0, 0, 0, none, false⟩

/-- BARs 0 and 2 answer: bring-up has ended with the boot image verified (19/R434, R435), and the function stands in D0 (18 Table
18.1; PRESUMED, log 69). -/
def barsUp (s : State) : Bool := s.phase = .up && !s.pci.d3hot

/-- Device memory at an offset of BAR 2: inside the BAR's size (18 Table 18.1, Resizable BAR), and no reserved gigabyte (18 Table
18.2, 06/R141). -/
def inBar2 (s : State) (x : Nat) : Bool := decide (x < 2 ^ s.pci.bar2) && regionOf x = .dev

/-- The TAIL doubleword of a launch queue (16/R370, R371). -/
def hostTail (s : State) (q : Nat) : Option Nat := if q < 64 then tailAddr s q else none

/-- HOST_TAIL_WRITE (18/R409): an 8-byte write is performed on the queue's TAIL as an unsigned maximum (16/R371); any
other size is discarded, and so is every write before bring-up has ended (19/R434, R435). (DEDUCED, log 62.) -/
def execHostTailWrite (q size : Nat) (v : Word) (s : State) : Answer :=
  .next (
    if !barsUp s ∨ size ≠ 8 then s
    else
      match hostTail s q with
      | some pa => raiseTail s pa v.toNat
      | none => s)

/-- HOST_MEMORY_WRITE (18/R409): device-memory bytes are written, but for those of a TAIL (16/R371); a write to an undefined range
is discarded. -/
def execHostMemoryWrite (x : Nat) (bytes : List Byte) (s : State) : Answer :=
  .next (
    if !barsUp s then s
    else
      (linesOf x bytes.length).foldl (fun s p =>
        if inBar2 s p.1 then
          match devWrite s hostAgent p.1 (allBytes ((bytes.drop (p.1 - x)).take p.2)) false 0 with
          | .ok s => s
          | .error _ => s
        else s) s)

/-- What a host read of BAR 2 returns: device-memory bytes; an undefined range, and everything before bring-up has ended, reads
all ones. -/
def bar2Bytes (s : State) (x n : Nat) : List Byte :=
  (List.range n).map fun i => if barsUp s ∧ inBar2 s (x + i) then viewByte s (x + i) else 0xFF

/-- Some line of device memory that a host read covers holds an uncorrectable error. -/
def bar2Bad (s : State) (x n : Nat) : Bool :=
  barsUp s && (linesOf x n).any fun p => inBar2 s p.1 && badLine s p.1

/-- The lines of device memory that a host read covers, read at their home slices (05/R102, 04/R83). -/
def bar2Touch (s : State) (x n : Nat) : State :=
  if barsUp s then (linesOf x n).foldl (fun s p => if inBar2 s p.1 then touch s p.1 p.2 else s) s else s

/-- HOST_MEMORY_READ (18/R408, R409); bytes of a line that holds an uncorrectable error are delivered nowhere (17/R403). -/
def execHostMemoryRead (x n : Nat) (s : State) : Answer :=
  .next (
    if bar2Bad s x n then { s with answer := [] }
    else { bar2Touch s x n with answer := bar2Bytes s x n })

/-- The number of a host atomic in 08 Table 8.8, its operand and its comparand. -/
def hostAtomicOf : HostAtomic → Nat × Nat × Nat
  | .fetchAdd v => (0, v.toNat, 0)
  | .swap v => (8, v.toNat, 0)
  | .cas c v => (9, c.toNat, v.toNat)

/-- HOST_ATOMICOP_REQUEST (18 Table 18.1): a 64-bit atomic is performed at its home slice. -/
def execHostAtomicopRequest (op : HostAtomic) (x : Nat) (s : State) : Answer :=
  .next (
    if !barsUp s ∨ !inBar2 s x ∨ x % 8 ≠ 0 then { s with answer := List.replicate 8 0xFF }
    else
      let o := hostAtomicOf op
      match accAtomic s hostAgent (.dev x) 8 o.1 (fun old => amoNew o.1 64 old o.2.1 o.2.2) 0 with
      | .ok g => { g.st with answer := g.bytes }
      | .error _ => { s with answer := List.replicate 8 0xFF })

/-! ## Host-window requests (18/R410) -/

/-- A producer whose host-window request ends, with or without an error. -/
def hostEnds (err : Option (BitVec 8)) (p : Producer) : Producer :=
  if p.wait = some .host then { p with wait := none, err := err } else p

/-- A host-window request of a thread of a core ends: producer `idx`, or beyond the running thread's list one of the thread in the
core's context store. -/
def endProducer (s : State) (key idx : Nat) (err : Option (BitVec 8)) : State :=
  let n := match s.threadAt key with
    | some t => t.prods.length
    | none => 0
  let at' := fun (i : Nat) (t : Thread) => { t with prods := t.prods.modify i (hostEnds err) }
  if idx < n then s.updThread key (at' idx)
  else
    match tabFind s.saved key with
    | some t => { s with saved := tabPut s.saved key (at' (idx - n) t) }
    | none => s

/-- A held access of a node that is at the host. -/
def atHostHeld (s : State) (n : NodeRef) (idx : Nat) : Option Held :=
  match (castSlot s n.cast).live with
  | some k => (nodeOf k (nodeKey n)).held.find? fun h => h.taken = idx && h.st = .atHost
  | none => none

/-- HOST_WINDOW_COMPLETION (18/R410): the request's results are ready. A copy's element completes in its beat (DESIGN CHOICE,
log 1). -/
def execHostWindowCompletion (who : Requester) (s : State) : Answer :=
  .next (match who with
    | .producer key idx => endProducer s key idx none
    | .node n idx =>
      (match atHostHeld s n idx with
       | none => s
       | some h => heldDone s n h.taken h.out .performed)
    | .queue _ _ _ => s)

/-- The next element of a running copy is in the host window, at one end or the other. -/
def copyAtHost (s : State) (e : CopyEntry) : Bool :=
  decide (e.done < copyTotal e.shape) && (elemTargets s e).any fun t => match t with
    | .host _ => true
    | _ => false

/-- HOST_COMPLETION_TIMEOUT (18/R410): an uncorrectable data error, late at a thread (08/R193), at a node (11/R286), in a
copy (05/R120). -/
def execHostCompletionTimeout (who : Requester) (s : State) : Answer :=
  .next (match who with
    | .producer key idx => endProducer s key idx (some (BitVec.ofNat 8 cData))
    | .node n idx =>
      (match atHostHeld s n idx with
       | none => s
       | some h => heldFault s n h.taken ⟨cData, 0, none, 0⟩ 0)
    | .queue cl isl q =>
      (match (s.squeue cl isl q).entries with
       | e :: _ => if e.begun ∧ copyAtHost s e then updHead s cl isl q fun e => { e with err := true } else s
       | [] => s))

/-! ## Device registers (04/R100) -/

/-- The host reaches BAR 4 once the BARs respond (18/R408, 19/R435, DEDUCED, log 35), in D0 (PRESUMED, log 69). -/
def reachable (s : State) : Bool := (s.phase = .up || s.phase = .recovery) && !s.pci.d3hot

/-- A host write of a device register. -/
def hostReg (s : State) (off size : Nat) (v : Word) : Answer := .next (if reachable s then writeReg s off size v else s)

/-- REGISTER_WRITE (04/R100). -/
def execRegisterWrite (off size : Nat) (v : Word) (s : State) : Answer := hostReg s off size v

/-- TINV_WRITE (04/R92). -/
def execTinvWrite (v : Word) (s : State) : Answer := hostReg s 0x8 8 v

/-- LQCTL_WRITE (16/R370). -/
def execLqctlWrite (q : Nat) (v : Word) (s : State) : Answer :=
  if q < 64 then hostReg s (0x10000 + 16 * q) 8 v else .next s

/-- ERROR_COUNTER_WRITE (17/R405). -/
def execErrorCounterWrite (off : Nat) (s : State) : Answer := .next (if reachable s then clearCounter s off else s)

/-- PODID_WRITE (18/R423). -/
def execPodidWrite (v : Word) (s : State) : Answer := hostReg s 0x32008 8 v

/-- PODWIN_WRITE (18/R414). -/
def execPodwinWrite (m : Nat) (v : Word) (s : State) : Answer :=
  if m < 1024 then hostReg s (0x30000 + 8 * m) 8 v else .next s

/-- A `TINV` invalidation matches a cached entry (04 Table 4.7). -/
def tinvHits (v : Nat) (e : TlbEntry) : Bool :=
  bit v 62 ||
  (e.asid.toNat = bits v 61 48 &&
   (!bit v 40 || (e.vbase ≤ bits v 39 0 * 65536 && bits v 39 0 * 65536 < e.vbase + 2 ^ e.bits)))

/-- Drop the matching stream entries of a casting, those saved with it included (04/R96, DEDUCED, log 34). -/
def tinvCast (v : Nat) (k : CastLive) : CastLive :=
  let drop := fun (x : Option TlbEntry) => x.filter fun e => !tinvHits v e
  { k with nodes := tabMap (fun n => { n with
      stream := drop n.stream, streamAt := tabMap drop n.streamAt }) k.nodes }

/-- TINV_COMPLETE (04/R92): no cache holds a matching entry, and GO returns to 0; the dispatcher tries its failed reads
again (16/R372). -/
def execTinvComplete (s : State) : Answer :=
  .next (
    let v := s.regs.tinv.toNat
    if !bit v 63 then s
    else
      let s := { s with
        tlb := s.tlb.filter fun e => !tinvHits v e
        regs := { s.regs with tinv := s.regs.tinv &&& 0x7FFFFFFFFFFFFFFF }
        clusters := tabMap (fun c => { c with
          edge := c.edge.filter fun e => !tinvHits v e
          casts := tabMap (fun (x : CastSlot) => { x with live := x.live.map (tinvCast v) }) c.casts }) s.clusters }
      ((List.range 64).filter fun q => (s.lq q).posted).foldl readQueue s)

/-! ## Errors (17/R403, R404) -/

/-- LINK_CRC_RETRY (17/R403): the flit is sent again; a retry adds latency and nothing else. -/
def execLinkCrcRetry (s : State) : Answer := .next s

/-- Rows of a bank spared so far. -/
def sparedRows (s : State) (stack bank : Nat) : Nat :=
  (s.rel.retired.filter fun u => match u with
    | .hbmRow a b _ => a = stack && b = bank
    | _ => false).length

/-- Retire a frame (17 Table 17.5): a free one now, a page's after its page-out (one that is being moved is paged out when its
move has ended), any other when it is freed. (DEDUCED, log 63.) -/
def retireFrame (s : State) (c f : Nat) : State :=
  match tabFind (s.cluster c).frames f with
  | none => freeFrame s c f
  | some (.page k) => retirePage s c k
  | some _ => s

/-- A set that has lost a way gives up a line (17 Table 17.5). -/
def trimSet (s : State) (slice n : Nat) : State :=
  let set := 4096 * slice + n
  s.updDie (slice / 32) fun d => { d with l2 := tabUpd d.l2 set [] (makeRoom d (waysOf s set + 1)) }

/-- The record of a row whose bank has no spare left names a granule to be disabled (17 Table 17.5); which granule a row holds is
not given (DESIGN CHOICE, log 63). -/
def postGranule (s : State) : State :=
  let g := (Config.freeWord (s.free + 1)).toNat % (devEnd / 65536)
  { postEvent s .retirement (Config.freeWord s.free) (BitVec.ofNat 64 (g * 65536)) (Config.freeWord (s.free + 2)) with
    free := s.free + 3 }

/-- Retire a lasting unit (17 Table 17.5), posting the retirement (17/R404). (DEDUCED, log 63.) -/
def retireUnit (s : State) (u : UnitRef) : State :=
  let mark := fun (s : State) => { s with rel := { s.rel with retired := u :: s.rel.retired } }
  match u with
  | .hbmRow stack bank _ =>
    if sparedRows s stack bank < 4 then countRetired (mark s) 0 else postGranule (mark s)
  | .l2Way slice n _ => postFree (trimSet (mark s) slice n) .retirement
  | .scratchFrame c f => retireFrame (mark s) c f
  | .lane _ _ => postFree (mark s) .retirement
  | .seamLane _ => postFree (mark s) .retirement
  | .windowFile key => if coreGone s key then mark s else coreFrees (mark s) key
  | .contextStore key => if coreGone s key then mark s else coreFrees (mark s) key

/-- Cycles of 60 s (17/R404, 19/R431). -/
def sixtySeconds : Nat := 60 * 800000000

/-- CORRECTED_ERROR (17/R404): the fourth event of a unit within 60 s of the first of the four retires it. -/
def execCorrectedError (u : UnitRef) (s : State) : Answer :=
  .next (
    let old := match s.rel.events.find? fun e => e.1 = u with
      | some e => e.2
      | none => []
    let times := (s.cycle :: old).take 4
    let s := { s with rel := { s.rel with events := (u, times) :: s.rel.events.filter fun e => e.1 ≠ u } }
    let lasting := times.length = 4 && s.cycle - times.getD 3 0 ≤ sixtySeconds
    if lasting ∧ !s.rel.retired.contains u then retireUnit s u else s)

end Sys2Proof.Machine
end

