-- ==== Sys2Proof/Machine/Integer.lean ====
section
/-! DEFINITION. Integer and address arithmetic (08/R195-R198). -/

namespace Sys2Proof.Machine

/-! ## Operations on words -/

/-- Bits 127:64 of s(a) × s(b). -/
def mulHigh (a b : Word) : Word := BitVec.ofInt 64 (a.toInt * b.toInt / 2 ^ 64)
/-- Bits 127:64 of u(a) × u(b). -/
def mulHighU (a b : Word) : Word := BitVec.ofNat 64 (a.toNat * b.toNat / 2 ^ 64)
/-- `div` (08/R196). -/
def divS (a b : Word) : Word := if b = 0 then BitVec.allOnes 64 else BitVec.ofInt 64 (a.toInt.tdiv b.toInt)
/-- `divu` (08/R196). -/
def divU (a b : Word) : Word := if b = 0 then BitVec.allOnes 64 else BitVec.ofNat 64 (a.toNat / b.toNat)
/-- `rem` (08/R196). -/
def remS (a b : Word) : Word := if b = 0 then a else BitVec.ofInt 64 (a.toInt.tmod b.toInt)
/-- `remu` (08/R196). -/
def remU (a b : Word) : Word := if b = 0 then a else BitVec.ofNat 64 (a.toNat % b.toNat)
/-- `rot` (08/R195). -/
def rotL (a : Word) (n : Nat) : Word := if n = 0 then a else a <<< n ||| a >>> (64 - n)
/-- `clz` (08/R195). -/
def clz64 (a : Word) : Word := if a = 0 then 64 else BitVec.ofNat 64 (63 - Nat.log2 a.toNat)
/-- `popc` (08/R195). -/
def popc64 (a : Word) : Word := BitVec.ofNat 64 ((List.range 64).filter fun i => a.getLsbD i).length
/-- IMM12 sign-extended (08/R197). -/
def imm12 (i : BitVec 12) : Word := i.signExtend 64
/-- The bits a<pos+width-1:pos>. -/
def field (a : Word) (pos width : Nat) : Nat := a.toNat / 2 ^ pos % 2 ^ width
/-- `bfx` (08/R198). -/
def bfxOf (a : Word) (pos width : Nat) : Word := BitVec.ofInt 64 (sOf width (field a pos width))
/-- `bfxu` (08/R198). -/
def bfxuOf (a : Word) (pos width : Nat) : Word := BitVec.ofNat 64 (field a pos width)
/-- `bfi` (08/R198): d with bits pos+width-1:pos replaced by a<width-1:0>. -/
def bfiOf (d a : Word) (pos width : Nat) : Word :=
  BitVec.ofNat 64 (d.toNat - field d pos width * 2 ^ pos + a.toNat % 2 ^ width * 2 ^ pos)

/-! ## The instructions -/

/-- `add` (08/R195): d := a + b. -/
def execAdd (d : Reg) (a b : Src) (s : State) : Answer := opRR s d a b (fun x y => x + y)

/-- `sub` (08/R195): d := a - b. -/
def execSub (d : Reg) (a b : Src) (s : State) : Answer := opRR s d a b (fun x y => x - y)

/-- `mul` (08/R195): d := low 64 bits of the signed product. -/
def execMul (d : Reg) (a b : Src) (s : State) : Answer := opRR s d a b (fun x y => x * y)

/-- `mulh` (08/R195): d := bits 127:64 of the signed product. -/
def execMulh (d : Reg) (a b : Src) (s : State) : Answer := opRR s d a b mulHigh

/-- `mulhu` (08/R195): d := bits 127:64 of the unsigned product. -/
def execMulhu (d : Reg) (a b : Src) (s : State) : Answer := opRR s d a b mulHighU

/-- `div` (08/R196): d := signed division. -/
def execDiv (d : Reg) (a b : Src) (s : State) : Answer := opRR s d a b divS

/-- `divu` (08/R196): d := unsigned division. -/
def execDivu (d : Reg) (a b : Src) (s : State) : Answer := opRR s d a b divU

/-- `rem` (08/R196): d := signed remainder. -/
def execRem (d : Reg) (a b : Src) (s : State) : Answer := opRR s d a b remS

/-- `remu` (08/R196): d := unsigned remainder. -/
def execRemu (d : Reg) (a b : Src) (s : State) : Answer := opRR s d a b remU

/-- `and` (08/R195): d := a and b. -/
def execAnd (d : Reg) (a b : Src) (s : State) : Answer := opRR s d a b (fun x y => x &&& y)

/-- `or` (08/R195): d := a or b. -/
def execOr (d : Reg) (a b : Src) (s : State) : Answer := opRR s d a b (fun x y => x ||| y)

/-- `xor` (08/R195): d := a xor b. -/
def execXor (d : Reg) (a b : Src) (s : State) : Answer := opRR s d a b (fun x y => x ^^^ y)

/-- `andn` (08/R195): d := a and not b. -/
def execAndn (d : Reg) (a b : Src) (s : State) : Answer := opRR s d a b (fun x y => x &&& ~~~y)

/-- `shl` (08/R195): d := a << sh. -/
def execShl (d : Reg) (a b : Src) (s : State) : Answer := opRR s d a b (fun x y => x <<< (y.toNat % 64))

/-- `shr` (08/R195): d := a >> sh. -/
def execShr (d : Reg) (a b : Src) (s : State) : Answer := opRR s d a b (fun x y => x >>> (y.toNat % 64))

/-- `sra` (08/R195): d := a shifted right, filling with its sign. -/
def execSra (d : Reg) (a b : Src) (s : State) : Answer := opRR s d a b (fun x y => x.sshiftRight (y.toNat % 64))

/-- `rot` (08/R195): d := a rotated left. -/
def execRot (d : Reg) (a b : Src) (s : State) : Answer := opRR s d a b (fun x y => rotL x (y.toNat % 64))

/-- `min` (08/R195): d := signed lesser. -/
def execMin (d : Reg) (a b : Src) (s : State) : Answer := opRR s d a b (fun x y => if x.slt y then x else y)

/-- `minu` (08/R195): d := unsigned lesser. -/
def execMinu (d : Reg) (a b : Src) (s : State) : Answer := opRR s d a b (fun x y => if x.ult y then x else y)

/-- `max` (08/R195): d := signed greater. -/
def execMax (d : Reg) (a b : Src) (s : State) : Answer := opRR s d a b (fun x y => if x.slt y then y else x)

/-- `maxu` (08/R195): d := unsigned greater. -/
def execMaxu (d : Reg) (a b : Src) (s : State) : Answer := opRR s d a b (fun x y => if x.ult y then y else x)

/-- `mov` (08/R195): d := a. -/
def execMov (d : Reg) (a : Src) (s : State) : Answer := opR 0 s d a id

/-- `clz` (08/R195): count of leading zero bits. -/
def execClz (d : Reg) (a : Src) (s : State) : Answer := opR 0 s d a clz64

/-- `popc` (08/R195): count of one bits. -/
def execPopc (d : Reg) (a : Src) (s : State) : Answer := opR 0 s d a popc64

/-- `addi` (08/R197): a + x. -/
def execAddi (d : Reg) (a : Src) (i : BitVec 12) (s : State) : Answer := opR 0 s d a (· + imm12 i)

/-- `andi` (08/R197): a and x. -/
def execAndi (d : Reg) (a : Src) (i : BitVec 12) (s : State) : Answer := opR 0 s d a (· &&& imm12 i)

/-- `ori` (08/R197): a or x. -/
def execOri (d : Reg) (a : Src) (i : BitVec 12) (s : State) : Answer := opR 0 s d a (· ||| imm12 i)

/-- `xori` (08/R197): a xor x. -/
def execXori (d : Reg) (a : Src) (i : BitVec 12) (s : State) : Answer := opR 0 s d a (· ^^^ imm12 i)

/-- `shli` (08/R197). -/
def execShli (d : Reg) (a : Src) (n : BitVec 6) (s : State) : Answer := opR 0 s d a (· <<< n.toNat)

/-- `shri` (08/R197). -/
def execShri (d : Reg) (a : Src) (n : BitVec 6) (s : State) : Answer := opR 0 s d a (· >>> n.toNat)

/-- `srai` (08/R197). -/
def execSrai (d : Reg) (a : Src) (n : BitVec 6) (s : State) : Answer := opR 0 s d a fun x => x.sshiftRight n.toNat

/-- `bfx` (08/R198); the word holds width - 1. -/
def execBfx (d : Reg) (a : Src) (p l : BitVec 6) (s : State) : Answer :=
  opR 0 s d a fun x => bfxOf x p.toNat (l.toNat + 1)

/-- `bfxu` (08/R198). -/
def execBfxu (d : Reg) (a : Src) (p l : BitVec 6) (s : State) : Answer :=
  opR 0 s d a fun x => bfxuOf x p.toNat (l.toNat + 1)

/-- `bfi` (08/R198): d is read in stall mode. -/
def execBfi (d : Reg) (a : Src) (p l : BitVec 6) (s : State) : Answer :=
  issueOwn s [d, a.reg] fun t => do
    let x ← readSrc t a
    let y ← readField t d
    writeDest t d (bfiOf y x p.toNat (l.toNat + 1))

/-- `sext` (08/R198): sign-extend from 8, 16 or 32 bits. -/
def execSext (d : Reg) (a : Src) (i : BitVec 12) (s : State) : Answer := opR 0 s d a fun x => bfxOf x 0 i.toNat

/-- `movi` (08/R197): d := x. -/
def execMovi (d : Reg) (i : BitVec 12) (s : State) : Answer := opD 0 s d fun _ => imm12 i

/-- `movl` (08/R197): d := imm32, zero-extended. Two words. -/
def execMovl (d : Reg) (imm : W32) (s : State) : Answer := opD 4 s d fun _ => imm.zeroExtend 64

/-- `movhi` (08/R197): d := imm32 ‖ a<31:0>. Two words. -/
def execMovhi (d : Reg) (a : Src) (imm : W32) (s : State) : Answer := opR 4 s d a fun x => imm ++ x.extractLsb' 0 32

end Sys2Proof.Machine
end

