-- ==== Sys2Proof/Machine/Mailbox.lean ====
section
/-! DEFINITION. The management mailbox (18/R411, R412, R427-R429, 17/R396, R401, R402, 19/R434, R437), module reset and
bring-up (19/R433-R436) and the thermal events (R432). -/

namespace Sys2Proof.Machine

/-! ## Commands -/

/-- What a command leaves: the state, `RSTAT` and `RESP`. -/
structure Reply where
  st    : State
  rstat : Word
  resp  : List Byte
  deriving DecidableEq, Repr

/-- `REQ` after the host has written its first doublewords: those that it does not write stay. -/
def reqAfter (s : State) (req : List Word) : List Word := (req ++ s.mbox.req.drop req.length).take 32

/-- The host writes `REQ`, then `DOORBELL` (18/R411). The doorbell write is discarded while a command runs, and before
bring-up has ended both are (19/R435); otherwise the command runs, and what it answers is shown when it ends. -/
def doorbell (s : State) (code : Word) (req : List Word) (f : List Word → State → Reply) : Answer :=
  .next (
    if !reachable s then s
    else
      let all := reqAfter s req
      let s := { s with mbox := { s.mbox with req := all } }
      if s.mbox.busy then s
      else
        let r := f all s
        { r.st with mbox := { r.st.mbox with busy := true, code := code, next := (r.rstat, r.resp) } })

/-- A command that the recovery state does not accept ends with `RSTAT` 1 there (19/R434). -/
def command (s : State) (code : Word) (req : List Word) (f : List Word → State → Reply) : Answer :=
  doorbell s code req fun req s => if s.phase = .recovery then ⟨s, 1, []⟩ else f req s

/-- Success. -/
def success (s : State) : Reply := ⟨s, 0, []⟩
/-- An operand out of range. -/
def badOperand (s : State) : Reply := ⟨s, 2, []⟩
/-- The target no longer exists. -/
def noTarget (s : State) : Reply := ⟨s, 3, []⟩

/-- Doubleword i of `REQ`. -/
def reqAt (req : List Word) (i : Nat) : Nat := (req.getD i 0).toNat

/-- A held launch is killed (18/R411): its slot is consumed as a start, and it completes at once. -/
def killHeld (s : State) (q : Nat) (r : Record) : State :=
  let l : LaunchRef := ⟨q, (s.lq q).head.toNat⟩
  let s := consume s q 1
  let x : Launch := { ref := l, record := r, live := [], clusters := [], started := s.cycle }
  completeLaunch { s with launches := s.launches ++ [x] } l

/-- Kill launch: `REQ` holds the queue and the slot counter. -/
def killCommand (req : List Word) (s : State) : Reply :=
  let q := reqAt req 0
  let l : LaunchRef := ⟨q, reqAt req 1⟩
  if 64 ≤ q then badOperand s
  else if (launchOf s l).isSome then success (killLaunch s l)
  else
    match (s.lq q).record with
    | some r => if (s.lq q).head.toNat = l.n then success (killHeld s q r) else noTarget s
    | none => noTarget s

/-- KILL_LAUNCH (18 Table 18.4). -/
def execKillLaunch (req : List Word) (s : State) : Answer := command s 0x01 req killCommand

/-- Halt or release a casting (17/R401): `REQ` holds its id. -/
def haltCast (halt : Bool) (req : List Word) (s : State) : Reply :=
  let x := reqAt req 0
  let cid := 256 * bits x 31 27 + bits x 26 19
  if bits x 63 32 ≠ 0 ∨ 192 ≤ bits x 26 19 then badOperand s
  else if (castSlot s cid).live.isSome ∧ (castSlot s cid).gen = bits x 18 0 then
    success (updCast s cid fun k => { k with halted := halt })
  else noTarget s

/-- HALT_CASTING (17/R401). -/
def execHaltCasting (req : List Word) (s : State) : Answer := command s 0x02 req (haltCast true)

/-- RELEASE_CASTING (17/R401). -/
def execReleaseCasting (req : List Word) (s : State) : Answer := command s 0x03 req (haltCast false)

/-- The thread key that `REQ` names by cluster and core. -/
def reqKey (req : List Word) : Option Nat :=
  if reqAt req 0 < 32 ∧ reqAt req 1 < 48 then some (64 * reqAt req 0 + reqAt req 1) else none

/-- HALT_THREAD (17/R401): the thread on the core stops at its next instruction boundary. -/
def execHaltThread (req : List Word) (s : State) : Answer :=
  command s 0x04 req fun req s =>
    match reqKey req with
    | none => badOperand s
    | some key =>
      if (s.threadAt key).isSome then success (s.updThread key fun t => { t with halted := true }) else noTarget s

/-- RELEASE_THREAD (17/R401): a halted thread of the core, running or saved, goes on. -/
def execReleaseThread (req : List Word) (s : State) : Answer :=
  command s 0x05 req fun req s =>
    match reqKey req with
    | none => badOperand s
    | some key =>
      match s.threadAt key, tabFind s.saved key with
      | some t, some u =>
        if t.halted ∨ !u.halted then success (s.setThread key { t with halted := false })
        else success { s with saved := tabPut s.saved key { u with halted := false } }
      | some t, none => success (s.setThread key { t with halted := false })
      | none, some u => success { s with saved := tabPut s.saved key { u with halted := false } }
      | none, none => noTarget s

/-- WATCHDOG_LIMIT (17/R402): queue, slot counter, limit in µs. -/
def execWatchdogLimit (req : List Word) (s : State) : Answer :=
  command s 0x06 req fun req s =>
    let l : LaunchRef := ⟨reqAt req 0, reqAt req 1⟩
    if 64 ≤ reqAt req 0 then badOperand s
    else if (launchOf s l).isSome then
      success { s with launches := s.launches.map fun x => if x.ref = l then { x with limit := reqAt req 2 } else x }
    else if (s.lq l.q).record.isSome ∧ (s.lq l.q).head.toNat = l.n then
      success (s.updLq l.q fun x => { x with limit := reqAt req 2 })
    else noTarget s

/-! ## Context stores (17 Table 17.3) -/

/-- The 128 bits of a handle (04 Table 4.8). -/
def handleBits (h : Handle) : Nat :=
  h.base.toNat + h.len.toNat * 2 ^ 56 + h.rights.toNat * 2 ^ 104 + h.asid.toNat * 2 ^ 109 + b2n h.v * 2 ^ 127

/-- A register holds a value. -/
def isFull (c : Cell) : Nat := b2n (c.fill = .full)

/-- Bits from a list, bit 0 first. -/
def bitsNat : List Nat → Nat
  | [] => 0
  | b :: r => b + 2 * bitsNat r

/-- The doubleword at `0x10B8`. -/
def stateWord (t : Thread) : Nat :=
  2 * bitsNat ((List.range 15).map fun i => isFull (tabGet t.g (i + 1) {})) + t.p.toNat / 2 * 2 ^ 17
    + b2n t.priv * 2 ^ 24 + b2n t.saved.isSome * 2 ^ 25 + b2n t.entered * 2 ^ 26

/-- A loop level of the store: START, then E, REM and the frame base. -/
def loopWords (t : Thread) (k : Nat) : List Nat :=
  match t.loops[k]? with
  | some e => [e.start.toNat, e.rem.toNat + e.e.toNat * 2 ^ 24 + e.fbase % 512 * 2 ^ 32]
  | none => [0, 0]

/-- A channel of the store: binding word and message count, entry, four messages. -/
def channelWords (t : Thread) (c : Nat) : List Nat :=
  let x := channel t c
  [bindWord c x + x.box.length * 2 ^ 32, x.entry.toNat] ++ (List.range 4).map fun i => (x.box.getD i 0).toNat

/-- A waiting fault of the store. -/
def faultWords (t : Thread) (i : Nat) : List Nat :=
  match t.fq[i]? with
  | some f => [f.cause.toNat, f.addr.toNat, f.who.toNat, 0]
  | none => [0, 0, 0, 0]

/-- The store of a thread, as doublewords. The interrupted state's layout is not given: its 16 doublewords are free values
(DESIGN CHOICE, log 36). `tab` is the carve-out's translation entries. -/
def contextWords (t : Thread) (tab : List Word) (free : Nat) : List Nat :=
  (List.range 512).map (fun i => (tabGet t.win i {}).val.toNat) ++
  (List.range 8).map (fun j => bitsNat ((List.range 64).map fun i => isFull (tabGet t.win (64 * j + i) {}))) ++
  (List.range 15).map (fun i => (tabGet t.g (i + 1) {}).val.toNat) ++ [stateWord t] ++
  ((List.range 16).map fun i =>
    let w := handleBits (tabGet t.h i {})
    [w % 2 ^ 64, w / 2 ^ 64]).flatten ++
  [t.pc.toNat, (wstat t).toNat, t.flags.toNat, t.csp.toNat, t.osp.toNat, t.ovbase.toNat, t.ovlen.toNat, t.carve * 2048] ++
  ((List.range 4).map (loopWords t)).flatten ++ ((List.range 16).map (channelWords t)).flatten ++
  [t.ecause.toNat, t.epc.toNat, t.eaddr.toNat, t.ewho.toNat, t.esave.toNat, t.fvec.toNat, t.fq.length, outst t] ++
  (List.range 16).map (fun i => (Config.freeWord (free + i)).toNat) ++
  (List.range 128).map (fun i => (tab.getD i 0).toNat) ++ ((List.range 16).map (faultWords t)).flatten

/-- The thread whose store can be read on a core, with its translation entries: a saved one, or a halted one. -/
def storedThread (s : State) (key : Nat) : Option (Thread × List Word) :=
  match tabFind s.saved key with
  | some t => some (t, tabGet s.savedTab key [])
  | none =>
    match s.threadAt key with
    | some t =>
      if t.halted then
        some (t, (List.range t.carve).map fun p =>
          BitVec.ofNat 64 (sttEntry s (keyCluster key) (2048 * carveSpace key + p)))
      else none
    | none => none

/-- READ_CONTEXT_STORE (17/R396): cluster, core, byte offset; 256 bytes. -/
def execReadContextStore (req : List Word) (s : State) : Answer :=
  command s 0x07 req fun req s =>
    let off := reqAt req 2
    match reqKey req with
    | none => badOperand s
    | some key =>
      if off % 256 ≠ 0 ∨ 0x1C00 ≤ off then badOperand s
      else
        match storedThread s key with
        | none => noTarget s
        | some (t, tab) =>
          let ws := ((contextWords t tab s.free).drop (off / 8)).take 32
          ⟨{ s with free := s.free + 16 }, 0, (ws.map (natLe 8)).flatten⟩

/-! ## Identity and firmware (18/R427-R429) -/

/-- IDENTITY_PUBLIC_KEY (18/R428). -/
def execIdentityPublicKey (req : List Word) (s : State) : Answer :=
  doorbell s 0x08 req fun _ s => ⟨s, 0, natLe 64 Config.publicKey.toNat⟩

/-- The Device Serial Number (18/R428, Table 18.1): bits 63:0 of the identity digest. -/
def deviceSerial : Word := BitVec.ofNat 64 (Config.sm3 (natLe 64 Config.publicKey.toNat)).toNat

/-- The boot image in force (19/R437). -/
def bootOf (s : State) : List Byte := s.mbox.boot.getD Config.bootImage

/-- Bytes 0-167 of the report (18 Table 18.9). -/
def reportBody (s : State) (nonce : List Byte) : List Byte :=
  let regs := [s.regs.asidt, s.regs.q0res, s.regs.schwt, s.regs.dwshad, s.regs.hostoff, s.regs.podid] ++
    (List.range 64).map fun q => tabGet s.regs.lqctl q 0
  natLe 4 1 ++ natLe 4 s.mbox.fwLoads ++ nonce ++ natLe 32 (Config.sm3 (bootOf s ++ s.mbox.fwLog)).toNat ++
  natLe 32 (Config.sm3 ((regs.map fun w => natLe 8 w.toNat).flatten)).toNat ++
  natLe 32 (Config.sm3 (natLe 64 Config.publicKey.toNat)).toNat ++ natLe 32 0

/-- ATTESTATION_REPORT (18/R429): `REQ` holds the 32-byte nonce. -/
def execAttestationReport (req : List Word) (s : State) : Answer :=
  command s 0x09 req fun req s =>
    let nonce := ((List.range 4).map fun i => natLe 8 (reqAt req i)).flatten
    let b := reportBody s nonce
    ⟨s, 0, b ++ natLe 64 (Config.sm2Sign b).toNat⟩

/-- Bytes of the recovery state's staging buffer (19/R434). -/
def stagingLen : Nat := 0x300000

/-- The image that command `0x0A` names: in device memory, or in the staging buffer (19/R434). -/
def imageBytes (s : State) (a n : Nat) : Option (List Byte) :=
  if s.phase = .recovery then (if a + n ≤ stagingLen then some (memBytes s.mbox.buffer a n) else none)
  else if a + n ≤ backingBase then some (viewBytes s a n) else none

/-- `RESP` of a firmware load: it tells a rejected image from an accepted one; how is not given (18/R427): here by its bit 0,
its other bits free values (DESIGN CHOICE, log 36). -/
def loadResp (s : State) (accepted : Bool) : List Byte :=
  natLe 8 ((Config.freeWord s.free).toNat / 2 * 2 + b2n (!accepted))

/-- LOAD_FIRMWARE (18/R427, 19/R437): an image whose signature verifies is staged and counted. -/
def execLoadFirmware (req : List Word) (s : State) : Answer :=
  doorbell s 0x0A req fun req s =>
    match imageBytes s (reqAt req 0) (reqAt req 1) with
    | none => badOperand s
    | some b =>
      let resp := loadResp s (Config.sm2Verify b)
      let s := { s with free := s.free + 1 }
      if Config.sm2Verify b then
        ⟨{ s with mbox := { s.mbox with
            staged := some b, fwLoads := s.mbox.fwLoads + 1, fwLog := s.mbox.fwLog ++ b } }, 0, resp⟩
      else ⟨s, 0, resp⟩

/-- UNKNOWN_MAILBOX_COMMAND (18/R411, 19/R434). -/
def execUnknownMailboxCommand (code : Word) (req : List Word) (s : State) : Answer :=
  let known := decide (1 ≤ code.toNat) && decide (code.toNat ≤ 10) &&
    (decide (s.phase ≠ .recovery) || code.toNat = 8 || code.toNat = 10)
  if known then .next s else doorbell s code req fun _ s => ⟨s, 1, []⟩

/-- MAILBOX_COMMAND_END (18/R411, R412): `RSTAT` and `RESP` hold the answer, and MSI-X vector 0 fires. -/
def execMailboxCommandEnd (s : State) : Answer :=
  .next (
    if s.mbox.busy ∧ reachable s then
      { s with mbox := { s.mbox with
          busy := false, rstat := s.mbox.next.1, resp := s.mbox.next.2, msix0 := s.mbox.msix0 + 1 } }
    else s)

/-! ## BAR reads and byte writes (18/R408, R411) -/

/-- A kind of event record, numbered for `Config.eventCode`. -/
def kindIndex : EventKind → Nat
  | .kill => 0
  | .retirement => 1
  | .member => 2
  | .queueHeld => 3

/-- The doublewords of an event-ring record (18/R411): kind, `ECAUSE`, `EADDR`, `EWHO`; one never written reads 0. The kinds have
no numbers in the spec (DESIGN CHOICE, log 30). -/
def recordWords32 (x : Option EventRec) : List Word :=
  match x with
  | some e => [Config.eventCode (kindIndex e.kind), e.cause, e.addr, e.who]
  | none => [0, 0, 0, 0]

/-- A doubleword of the management mailbox, none where no range is defined (18/R411). What `DOORBELL` reads below bit 63, and what
`RESP` reads beyond an answer, are not given: the last code, and 0 (DESIGN CHOICE, log 30). -/
def mailboxWord (s : State) (i : Nat) : Option Word :=
  let m := s.mbox
  if i = 0 then some (BitVec.ofNat 64 (b2n m.busy * 2 ^ 63 + m.code.toNat % 2 ^ 63))
  else if i = 1 then some m.rstat
  else if i = 2 then some m.posted
  else if 32 ≤ i ∧ i < 64 then some (m.req.getD (i - 32) 0)
  else if 64 ≤ i ∧ i < 128 then
    some (BitVec.ofNat 64 (leNat ((List.range 8).map fun j => m.resp.getD (8 * (i - 64) + j) 0)))
  else if 128 ≤ i ∧ i < 512 then some ((recordWords32 (tabFind m.ring ((i - 128) / 4))).getD (i % 4) 0)
  else none

/-- Byte j of a doubleword; all ones where there is none. -/
def byteOf (w : Option Word) (j : Nat) : Byte :=
  match w with
  | some v => BitVec.ofNat 8 (v.toNat / 2 ^ (8 * j))
  | none => 0xFF

/-- A host read of BAR 0: bytes of TAIL at the start of a queue's page (18/R409), all ones elsewhere and before bring-up has
ended. -/
def bar0Bytes (s : State) (off n : Nat) : List Byte :=
  (List.range n).map fun i =>
    let x := off + i
    if barsUp s ∧ x % 4096 < 8 then
      byteOf ((hostTail s (x / 4096)).map fun pa => memWord s.mem pa) (x % 4096)
    else 0xFF

/-- A host read of BAR 4: the mailbox, the staging buffer of the recovery state, or a device register at its own size
(18/R408). -/
def bar4Bytes (s : State) (off n : Nat) : List Byte :=
  if !reachable s then List.replicate n 0xFF
  else if 0x400000 ≤ off then natLe n (readReg s (off - 0x400000) n)
  else
    (List.range n).map fun i =>
      let x := off + i
      if x < 0x1000 then byteOf (mailboxWord s (x / 8)) (x % 8)
      else if s.phase = .recovery ∧ 0x100000 ≤ x ∧ x < 0x400000 then memGet s.mbox.buffer (x - 0x100000)
      else 0xFF

/-- A host read of a BAR. BAR number 8 stands for the Device Serial Number, which is read in configuration space (18 Table
18.1). -/
def hostRead (s : State) (bar off n : Nat) : State :=
  match bar with
  | 0 => { s with answer := bar0Bytes s off n }
  | 2 => if bar2Bad s off n then { s with answer := [] } else { bar2Touch s off n with answer := bar2Bytes s off n }
  | 4 => { s with answer := bar4Bytes s off n }
  | 8 => { s with answer := natLe 8 deviceSerial.toNat }
  | _ => { s with answer := List.replicate n 0xFF }

/-- A byte of BAR 4 that the host writes: of `REQ` (18/R411), or of the staging buffer in the recovery state (19/R434). `DOORBELL`
and the registers are written whole, by their own events; every other byte is discarded. -/
def mailboxByte (s : State) (x : Nat) (b : Byte) : State :=
  if 0x100 ≤ x ∧ x < 0x200 then
    let i := (x - 0x100) / 8
    let old := (s.mbox.req ++ List.replicate (32 - s.mbox.req.length) 0)
    let w := BitVec.ofNat 64 (setBits (old.getD i 0).toNat (8 * (x % 8) + 7) (8 * (x % 8)) b.toNat)
    { s with mbox := { s.mbox with req := listPut old i w } }
  else if s.phase = .recovery ∧ 0x100000 ≤ x ∧ x < 0x400000 then
    { s with mbox := { s.mbox with buffer := memPut s.mbox.buffer (x - 0x100000) b } }
  else s

/-- The host writes bytes of BAR 4. -/
def mailboxWrite (s : State) (off : Nat) (bytes : List Byte) : State :=
  if reachable s then bytes.zipIdx.foldl (fun s x => mailboxByte s (off + x.2) x.1) s else s

/-- The host sets the size of BAR 2, 1 GiB to 1 TiB (18 Table 18.1). -/
def setBar2 (s : State) (n : Nat) : State :=
  if 30 ≤ n ∧ n ≤ 40 then { s with pci := { s.pci with bar2 := n } } else s

/-! ## Reset and bring-up (19/R433-R437) -/

/-- What outlasts a module reset: the moves to come, the outside, the free values drawn, the firmware in flash.
(DESIGN CHOICE, log 9.) -/
def resetState (s : State) (ph : Phase) (boot : Option (List Byte)) : State :=
  { State.reset with
    phase := ph, agenda := s.agenda, turns := s.turns, core := s.core, node := s.node, outside := s.outside
    outBars := s.outBars, free := s.free, sent := s.sent, mbox := { boot := boot, busy := true } }

/-- Bring-up ends (19/R433, R434). Its step 2 has verified the boot image by 18/R427. With a verified image, its step 3 has
cleared device memory, SRAM and the check bits, and the launch queues may be used; with any other the module is in the
recovery state. -/
def endBringUp (s : State) : State :=
  if Config.sm2Verify (bootOf s) then
    { s with
      phase := .up, mem := [], sram := [], rel := { s.rel with badLines := [], badSram := [] }
      mbox := { s.mbox with busy := false } }
  else { s with phase := .recovery, mbox := { s.mbox with busy := false } }

/-- MODULE_RESET (19/R433): its start, with the staged image as the one to boot, and the end of bring-up. -/
def execModuleReset (ph : ResetPhase) (s : State) : Answer :=
  .next (
    match ph with
    | .start => resetState s .bringUp (s.mbox.staged.orElse fun _ => s.mbox.boot)
    | .finish => if s.phase = .bringUp then endBringUp s else s)

/-! ## Thermal events (19/R432) -/

/-- Power is removed, and all volatile state is lost. -/
def powerOff (s : State) : State := resetState s .off (s.mbox.staged.orElse fun _ => s.mbox.boot)

/-- The hottest sensor reads t °C (19/R432): TMAX holds it; from 95 °C on WARN is set, and at 110 °C power is removed, at once
(DESIGN CHOICE, log 3). -/
def senseHeat (t : BitVec 8) (s : State) : State :=
  if s.phase = .off then s
  else if 110 ≤ t.toNat then powerOff s
  else
    let warn := bit s.regs.therm.toNat 16 || decide (95 ≤ t.toNat)
    { s with regs := { s.regs with therm := BitVec.ofNat 64 (b2n warn * 2 ^ 16 + t.toNat) } }

/-- THERMAL_WARNING: a sensor has reached 95 °C. -/
def execThermalWarning (t : BitVec 8) (s : State) : Answer := .next (if 95 ≤ t.toNat then senseHeat t s else s)

/-- THERMAL_TRIP: a sensor has reached 110 °C. -/
def execThermalTrip (s : State) : Answer := .next (powerOff s)

end Sys2Proof.Machine
end

