-- ==== Sys2Proof/Machine/Scratch.lean ====
section
/-! DEFINITION. Scratch page instructions (06/R150-R153) and the page engine's moves (06/R145-R147). -/

namespace Sys2Proof.Machine

/-- A page word checked (06/R150, R154): the page's key, 2,048 × space + page. -/
def pageWord (x : Word) : Except Exc Nat :=
  if bits x.toNat 63 32 ≠ 0 then trapWith cScratch 3 (some x) else .ok (bits x.toNat 31 11)

/-- A page that programs manage: system spaces are refused (06/R154). -/
def userPage (x : Word) (k : Nat) : Except Exc Unit :=
  if 960 ≤ k / 2048 then trapWith cScratch 1 (some x) else .ok ()

/-- Map one page (06/R151): its slot, and a frame when one is free. A page that is mapped counts as used then, which 06/R147
does not say (DESIGN CHOICE, log 79). -/
def mapPage (s : State) (c core k : Nat) (asid : BitVec 14) : State :=
  match freeSlot (s.cluster c) with
  | none => s
  | some n =>
    let s := s.updCluster c fun x => { x with slots := x.slots ++ [n] }
    match chooseFrame (s.cluster c) core with
    | some f =>
      let s := takeFrame s c f (.page k)
      touchPage (setEntry s c k (mkEntry asid.toNat n 1 0 f)) c k
    | none =>
      let s := { s with mem := memClear s.mem (slotAddr c n) 2048 }
      setEntry s c k (mkEntry asid.toNat n 2 0 0)

/-- `smap` (06/R151). -/
def execSmap (d : Reg) (a : Src) (p : BitVec 3) (s : State) : Answer :=
  issue s [d, a.reg] fun key t => do
    let c := keyCluster key
    let n ← readSrc t a
    let x ← readField t d
    let k ← pageWord x
    if n.toNat = 0 ∨ 2048 < k % 2048 + n.toNat then trapWith cScratch 3 (some x)
    else
      let _ ← userPage x k
      let ks := (List.range n.toNat).map (k + ·)
      if ks.any (fun k => eSt (sttEntry s c k) ≠ 0) ∨ 8192 < (s.cluster c).slots.length + n.toNat then
        pure (s.setThread key (writeP t p false))
      else
        pure ((ks.foldl (fun s k => mapPage s c (keyCore key) k t.asid) s).setThread key (writeP t p true))

/-- Unmap one page (06/R151). -/
def unmapPage (s : State) (c k : Nat) : State :=
  let e := sttEntry s c k
  let s := if eSt e = 1 then freeFrame s c (eFrame e) else s
  let s := s.updCluster c fun x => { x with slots := x.slots.erase (eSlot e) }
  forgetPage (setEntry s c k 0) c k

/-- The opening of an instruction on one page: its key and its entry. -/
def openPage (s : State) (key : Nat) (x : Word) : Except Exc (Nat × Nat) := do
  let k ← pageWord x
  let _ ← userPage x k
  pure (k, sttEntry s (keyCluster key) k)

/-- The entry belongs to another ASID (06/R151). -/
def foreign (t : Thread) (e : Nat) : Bool := eAsid e ≠ t.asid.toNat

/-- `sunmap` (06/R151). -/
def execSunmap (d : Reg) (p : BitVec 3) (s : State) : Answer :=
  issue s [d] fun key t => do
    let x ← readField t d
    let (k, e) ← openPage s key x
    if eSt e = 0 ∨ eSt e = 3 then pure (s.setThread key (writeP t p false))
    else if foreign t e then trapWith cScratch 1 (some x)
    else pure ((unmapPage s (keyCluster key) k).setThread key (writeP t p true))

/-- Set PROT of a page; one that is no longer pinned leaves a frame that is to be retired (17 Table 17.5). -/
def protectPage (s : State) (c k m : Nat) : State :=
  let e := sttEntry s c k
  retirePage ((setEntry s c k (mkEntry (eAsid e) (eSlot e) (eSt e) m (eFrame e))).updCluster c fun x =>
    { x with pinned := (x.pinned.filter (· ≠ k)) ++ (if m = 2 then [k] else []) }) c k

/-- `sprot` (06/R151). -/
def execSprot (d : Reg) (p : BitVec 3) (m : BitVec 2) (s : State) : Answer :=
  issue s [d] fun key t => do
    let c := keyCluster key
    let x ← readField t d
    let (k, e) ← openPage s key x
    if eSt e = 0 ∨ eSt e = 3 then pure (s.setThread key (writeP t p false))
    else if foreign t e then trapWith cScratch 1 (some x)
    else if m = 2 ∧ eProt e ≠ 2 ∧ 4096 ≤ heldBack (s.cluster c) then pure (s.setThread key (writeP t p false))
    else if m = 2 ∧ eSt e = 2 then pure ((wantPage s c k (keyCore key)).setThread key (writeP t p false))
    else pure ((protectPage s c k m.toNat).setThread key (writeP t p true))

/-- `sevict` (06/R151). -/
def execSevict (d : Reg) (p : BitVec 3) (s : State) : Answer :=
  issue s [d] fun key t => do
    let c := keyCluster key
    let x ← readField t d
    let (k, e) ← openPage s key x
    if eSt e = 0 ∨ eSt e = 3 ∨ eProt e = 2 then pure (s.setThread key (writeP t p false))
    else if foreign t e then trapWith cScratch 1 (some x)
    else pure ((if eSt e = 1 then beginPageOut s c k else s).setThread key (writeP t p true))

/-- `smig` (06/R151). -/
def execSmig (d : Reg) (a : Src) (p : BitVec 3) (s : State) : Answer :=
  issue s [d, a.reg] fun key t => do
    let c := keyCluster key
    let n ← readSrc t a
    let x ← readField t d
    let k ← pageWord x
    if 48 ≤ n.toNat then trapWith cScratch 3 (some x)
    else
      let (_, e) ← openPage s key x
      if eSt e = 0 ∨ eSt e = 3 then pure (s.setThread key (writeP t p false))
      else if foreign t e then trapWith cScratch 1 (some x)
      else
        match freeOfCore (s.cluster c) n.toNat with
        | none => pure (s.setThread key (writeP t p false))
        | some f =>
          let s' := if eSt e = 2 then beginPageIn s c k f
            else if eFrame e / 128 = n.toNat then s
            else beginReloc s c k f
          pure (s'.setThread key (writeP t p true))

/-- The result of `squery` (06/R152): the ASID reads 0; a page of another ASID shows bit 27 alone. -/
def queryWord (t : Thread) (e : Nat) : Word :=
  if eSt e = 0 then 0
  else if foreign t e then BitVec.ofNat 64 (2 ^ 27)
  else BitVec.ofNat 64 (mkEntry 0 (eSlot e) (eSt e) (eProt e) (eFrame e))

/-- `squery` (06/R152). -/
def execSquery (d : Reg) (a : Src) (s : State) : Answer :=
  issueOwn s [d, a.reg] fun t => do
    let x ← readSrc t a
    let k ← pageWord x
    writeDest t d (queryWord t (sttEntry s (keyCluster s.core) k))

/-- A held access that waits on a page tries again. -/
def wakeHeld (k : Nat) (h : Held) : Held := if h.st = .pageFault k then { h with st := .waiting } else h

/-- A node that waits on a page tries again. -/
def wakeNode (k : Nat) (n : NodeSt) : NodeSt :=
  { n with held := n.held.map (wakeHeld k), page := if n.page = some k then none else n.page }

/-- The nodes of a casting of an ASID that wait on a page try again (06/R153). -/
def wakeCast (k : Nat) (asid : BitVec 14) (x : CastSlot) : CastSlot :=
  { x with live := x.live.map fun y => if y.asid = asid then { y with nodes := tabMap (wakeNode k) y.nodes } else y }

/-- The ASID under which a queue works. -/
def queueAsid (x : SQueue) : Option (BitVec 14) :=
  match x.entries with
  | e :: _ => some e.asid
  | [] => x.sched.map (·.asid)

/-- A queue that is halted on a page resumes (06/R153). -/
def wakeQueue (k : Nat) (asid : BitVec 14) (x : SQueue) : SQueue :=
  if x.halt = some .scratch ∧ x.haltPage = some k ∧ queueAsid x = some asid then { x with halt := none, haltPage := none }
  else x

/-- `sfix` (06/R153). -/
def execSfix (a : Src) (s : State) : Answer :=
  issue s [a.reg] fun key t => do
    let x ← readSrc t a
    let k ← pageWord x
    pure (s.updCluster (keyCluster key) fun y => { y with
      casts := tabMap (wakeCast k t.asid) y.casts, queues := tabMap (wakeQueue k t.asid) y.queues })

/-! ## Moves -/

/-- A page move begins, or one in progress ends (06/R145-R147). A page-in that an access asked for takes a frame by
R147, paging a victim out when none is free. -/
def execPageIn (cl page : Nat) (s : State) : Answer :=
  match tabFind (s.cluster cl).moves page with
  | some (.pageIn f) => .next (endPageIn s cl page f)
  | some _ => .next s
  | none =>
    match tabFind (s.cluster cl).wants page with
    | none => .next s
    | some core =>
      if eSt (sttEntry s cl page) ≠ 2 then
        .next (s.updCluster cl fun x => { x with wants := tabDel x.wants page })
      else
        match frameOrEvict s cl core with
        | none => .next s
        | some r => .next (beginPageIn r.1 cl page r.2)

/-- A page-out in progress ends (06/R146); `sevict`, a page-in or a curd request began it. -/
def execPageOut (cl page : Nat) (s : State) : Answer :=
  match tabFind (s.cluster cl).moves page with
  | some (.pageOut f) => .next (endPageOut s cl page f)
  | _ => .next s

/-- A relocation ends, or the page engine begins one of its own choice, to a core's lowest free frame (06/R146). -/
def execRelocation (cl page core : Nat) (s : State) : Answer :=
  match tabFind (s.cluster cl).moves page with
  | some (.reloc src dst) => .next (endReloc s cl page src dst)
  | some _ => .next s
  | none =>
    let e := sttEntry s cl page
    if eSt e = 1 ∧ eProt e ≠ 2 ∧ eFrame e / 128 ≠ core then
      match freeOfCore (s.cluster cl) core with
      | some f => .next (beginReloc s cl page f)
      | none => .next s
    else .next s

end Sys2Proof.Machine
end

