-- ==== Sys2Proof/Machine/Dispatch.lean ====
section
/-! DEFINITION. The dispatch: one arm for each constructor of `Instr`. -/

namespace Sys2Proof.Machine

/-- What an instruction or an event does. A control-thread instruction acts for the thread on `s.core`, a fabric
instruction at the place `s.node`; an event names the units that act. -/
def exec (i : Instr) (s : State) : Host.Outcome State Fault Refusal :=
  match i with
  | .add d a b => Sys2Proof.Machine.execAdd d a b s
  | .sub d a b => Sys2Proof.Machine.execSub d a b s
  | .mul d a b => Sys2Proof.Machine.execMul d a b s
  | .mulh d a b => Sys2Proof.Machine.execMulh d a b s
  | .mulhu d a b => Sys2Proof.Machine.execMulhu d a b s
  | .div d a b => Sys2Proof.Machine.execDiv d a b s
  | .divu d a b => Sys2Proof.Machine.execDivu d a b s
  | .rem d a b => Sys2Proof.Machine.execRem d a b s
  | .remu d a b => Sys2Proof.Machine.execRemu d a b s
  | .and d a b => Sys2Proof.Machine.execAnd d a b s
  | .or d a b => Sys2Proof.Machine.execOr d a b s
  | .xor d a b => Sys2Proof.Machine.execXor d a b s
  | .andn d a b => Sys2Proof.Machine.execAndn d a b s
  | .shl d a b => Sys2Proof.Machine.execShl d a b s
  | .shr d a b => Sys2Proof.Machine.execShr d a b s
  | .sra d a b => Sys2Proof.Machine.execSra d a b s
  | .rot d a b => Sys2Proof.Machine.execRot d a b s
  | .min d a b => Sys2Proof.Machine.execMin d a b s
  | .minu d a b => Sys2Proof.Machine.execMinu d a b s
  | .max d a b => Sys2Proof.Machine.execMax d a b s
  | .maxu d a b => Sys2Proof.Machine.execMaxu d a b s
  | .mov d a => Sys2Proof.Machine.execMov d a s
  | .clz d a => Sys2Proof.Machine.execClz d a s
  | .popc d a => Sys2Proof.Machine.execPopc d a s
  | .addi d a imm => Sys2Proof.Machine.execAddi d a imm s
  | .andi d a imm => Sys2Proof.Machine.execAndi d a imm s
  | .ori d a imm => Sys2Proof.Machine.execOri d a imm s
  | .xori d a imm => Sys2Proof.Machine.execXori d a imm s
  | .shli d a n => Sys2Proof.Machine.execShli d a n s
  | .shri d a n => Sys2Proof.Machine.execShri d a n s
  | .srai d a n => Sys2Proof.Machine.execSrai d a n s
  | .bfx d a p l => Sys2Proof.Machine.execBfx d a p l s
  | .bfxu d a p l => Sys2Proof.Machine.execBfxu d a p l s
  | .bfi d a p l => Sys2Proof.Machine.execBfi d a p l s
  | .sext d a imm => Sys2Proof.Machine.execSext d a imm s
  | .movi d imm => Sys2Proof.Machine.execMovi d imm s
  | .movl d imm => Sys2Proof.Machine.execMovl d imm s
  | .movhi d a imm => Sys2Proof.Machine.execMovhi d a imm s
  | .cmpEq d a b => Sys2Proof.Machine.execCmpEq d a b s
  | .cmpNe d a b => Sys2Proof.Machine.execCmpNe d a b s
  | .cmpLt d a b => Sys2Proof.Machine.execCmpLt d a b s
  | .cmpLtu d a b => Sys2Proof.Machine.execCmpLtu d a b s
  | .cmpLe d a b => Sys2Proof.Machine.execCmpLe d a b s
  | .cmpLeu d a b => Sys2Proof.Machine.execCmpLeu d a b s
  | .pand d a b => Sys2Proof.Machine.execPand d a b s
  | .por d a b => Sys2Proof.Machine.execPor d a b s
  | .pxor d a b => Sys2Proof.Machine.execPxor d a b s
  | .pnot d a => Sys2Proof.Machine.execPnot d a s
  | .psel d a b k => Sys2Proof.Machine.execPsel d a b k s
  | .ldB d a h o => Sys2Proof.Machine.execLdB d a h o s
  | .ldBu d a h o => Sys2Proof.Machine.execLdBu d a h o s
  | .ldH d a h o => Sys2Proof.Machine.execLdH d a h o s
  | .ldHu d a h o => Sys2Proof.Machine.execLdHu d a h o s
  | .ldW d a h o => Sys2Proof.Machine.execLdW d a h o s
  | .ldWu d a h o => Sys2Proof.Machine.execLdWu d a h o s
  | .ldD d a h o => Sys2Proof.Machine.execLdD d a h o s
  | .stB x a h o => Sys2Proof.Machine.execStB x a h o s
  | .stH x a h o => Sys2Proof.Machine.execStH x a h o s
  | .stW x a h o => Sys2Proof.Machine.execStW x a h o s
  | .stD x a h o => Sys2Proof.Machine.execStD x a h o s
  | .pfetch a h o => Sys2Proof.Machine.execPfetch a h o s
  | .amoAdd d a h p => Sys2Proof.Machine.execAmoAdd d a h p s
  | .amoAnd d a h p => Sys2Proof.Machine.execAmoAnd d a h p s
  | .amoOr d a h p => Sys2Proof.Machine.execAmoOr d a h p s
  | .amoXor d a h p => Sys2Proof.Machine.execAmoXor d a h p s
  | .amoMin d a h p => Sys2Proof.Machine.execAmoMin d a h p s
  | .amoMinu d a h p => Sys2Proof.Machine.execAmoMinu d a h p s
  | .amoMax d a h p => Sys2Proof.Machine.execAmoMax d a h p s
  | .amoMaxu d a h p => Sys2Proof.Machine.execAmoMaxu d a h p s
  | .amoSwap d a h p => Sys2Proof.Machine.execAmoSwap d a h p s
  | .amoCas d a h p => Sys2Proof.Machine.execAmoCas d a h p s
  | .fence x g => Sys2Proof.Machine.execFence x g s
  | .hsub d a b x => Sys2Proof.Machine.execHsub d a b x s
  | .hrights d x m => Sys2Proof.Machine.execHrights d x m s
  | .hbase d x => Sys2Proof.Machine.execHbase d x s
  | .hlen d x => Sys2Proof.Machine.execHlen d x s
  | .hmov d x => Sys2Proof.Machine.execHmov d x s
  | .hcheck d a h p m => Sys2Proof.Machine.execHcheck d a h p m s
  | .fmtWin x a h o => Sys2Proof.Machine.execFmtWin x a h o s
  | .br p n o => Sys2Proof.Machine.execBr p n o s
  | .jmp o => Sys2Proof.Machine.execJmp o s
  | .call o => Sys2Proof.Machine.execCall o s
  | .jr a => Sys2Proof.Machine.execJr a s
  | .callr a => Sys2Proof.Machine.execCallr a s
  | .ret => Sys2Proof.Machine.execRet s
  | .enter n => Sys2Proof.Machine.execEnter n s
  | .loop count e => Sys2Proof.Machine.execLoop count e s
  | .loopr a e => Sys2Proof.Machine.execLoopr a e s
  | .cpIssue d a h p x q => Sys2Proof.Machine.execCpIssue d a h p x q s
  | .cpSched a h p x q => Sys2Proof.Machine.execCpSched a h p x q s
  | .cpAdv d a p x q => Sys2Proof.Machine.execCpAdv d a p x q s
  | .cpStatus d p x q => Sys2Proof.Machine.execCpStatus d p x q s
  | .ringInit d a h p => Sys2Proof.Machine.execRingInit d a h p s
  | .ringWait d a h p => Sys2Proof.Machine.execRingWait d a h p s
  | .ringRel a h p => Sys2Proof.Machine.execRingRel a h p s
  | .ringWptr d a h p => Sys2Proof.Machine.execRingWptr d a h p s
  | .qfence x m => Sys2Proof.Machine.execQfence x m s
  | .smap d a p => Sys2Proof.Machine.execSmap d a p s
  | .sunmap d p => Sys2Proof.Machine.execSunmap d p s
  | .sprot d p m => Sys2Proof.Machine.execSprot d p m s
  | .sevict d p => Sys2Proof.Machine.execSevict d p s
  | .smig d a p => Sys2Proof.Machine.execSmig d a p s
  | .squery d a => Sys2Proof.Machine.execSquery d a s
  | .sfix a => Sys2Proof.Machine.execSfix a s
  | .calloc d a p t => Sys2Proof.Machine.execCalloc d a p t s
  | .cseal a x g => Sys2Proof.Machine.execCseal a x g s
  | .cldR d a b z => Sys2Proof.Machine.execCldR d a b z s
  | .cfin => Sys2Proof.Machine.execCfin s
  | .cdrop a n => Sys2Proof.Machine.execCdrop a n s
  | .cinfo d a => Sys2Proof.Machine.execCinfo d a s
  | .cpart a t => Sys2Proof.Machine.execCpart a t s
  | .mxBind a h p imm => Sys2Proof.Machine.execMxBind a h p imm s
  | .mxScale a h p imm => Sys2Proof.Machine.execMxScale a h p imm s
  | .mxMode a p imm => Sys2Proof.Machine.execMxMode a p imm s
  | .mxFire d a p imm => Sys2Proof.Machine.execMxFire d a p imm s
  | .mxAcc d a p imm => Sys2Proof.Machine.execMxAcc d a p imm s
  | .mxRlbl imm o => Sys2Proof.Machine.execMxRlbl imm o s
  | .mxDrain p imm => Sys2Proof.Machine.execMxDrain p imm s
  | .mxUnpin p imm => Sys2Proof.Machine.execMxUnpin p imm s
  | .castLoad d a h p => Sys2Proof.Machine.execCastLoad d a h p s
  | .castBind d h p n => Sys2Proof.Machine.execCastBind d h p n s
  | .castKill d p => Sys2Proof.Machine.execCastKill d p s
  | .castEnd d p => Sys2Proof.Machine.execCastEnd d p s
  | .bpush d a port p => Sys2Proof.Machine.execBpush d a port p s
  | .bpull d a port p => Sys2Proof.Machine.execBpull d a port p s
  | .bmark d port p => Sys2Proof.Machine.execBmark d port p s
  | .kvFind d a h p => Sys2Proof.Machine.execKvFind d a h p s
  | .kvAddPool d a h p => Sys2Proof.Machine.execKvAddPool d a h p s
  | .kvAddOpen d a h p => Sys2Proof.Machine.execKvAddOpen d a h p s
  | .kvAddAppend d a h p => Sys2Proof.Machine.execKvAddAppend d a h p s
  | .kvAddAttach d a h p => Sys2Proof.Machine.execKvAddAttach d a h p s
  | .kvAddPublish d a h p => Sys2Proof.Machine.execKvAddPublish d a h p s
  | .kvAddClose d a h p => Sys2Proof.Machine.execKvAddClose d a h p s
  | .kvAddDemote d a h p => Sys2Proof.Machine.execKvAddDemote d a h p s
  | .kvPromote d a p => Sys2Proof.Machine.execKvPromote d a p s
  | .kvPromoteCancel d a p => Sys2Proof.Machine.execKvPromoteCancel d a p s
  | .dwOpen d a p n => Sys2Proof.Machine.execDwOpen d a p n s
  | .dwSnap d a p => Sys2Proof.Machine.execDwSnap d a p s
  | .dwCommit d a x g => Sys2Proof.Machine.execDwCommit d a x g s
  | .dwAbort a x g => Sys2Proof.Machine.execDwAbort a x g s
  | .dwStat d a => Sys2Proof.Machine.execDwStat d a s
  | .xmcast d a h p => Sys2Proof.Machine.execXmcast d a h p s
  | .xcomb d a h p o => Sys2Proof.Machine.execXcomb d a h p o s
  | .xbar d a x g => Sys2Proof.Machine.execXbar d a x g s
  | .xid d => Sys2Proof.Machine.execXid d s
  | .chanBind d a p => Sys2Proof.Machine.execChanBind d a p s
  | .chanYield => Sys2Proof.Machine.execChanYield s
  | .chanRaise d a p => Sys2Proof.Machine.execChanRaise d a p s
  | .qput d a h p => Sys2Proof.Machine.execQput d a h p s
  | .qget d a h p => Sys2Proof.Machine.execQget d a h p s
  | .barArrive d a p => Sys2Proof.Machine.execBarArrive d a p s
  | .barWait d a p => Sys2Proof.Machine.execBarWait d a p s
  | .barTest d a p => Sys2Proof.Machine.execBarTest d a p s
  | .trap c => Sys2Proof.Machine.execTrap c s
  | .eret => Sys2Proof.Machine.execEret s
  | .srd d r => Sys2Proof.Machine.execSrd d r s
  | .swr a r => Sys2Proof.Machine.execSwr a r s
  | .brk c => Sys2Proof.Machine.execBrk c s
  | .nop => Sys2Proof.Machine.execNop s
  | .iAdd f => Sys2Proof.Machine.execIAdd f s
  | .iSub f => Sys2Proof.Machine.execISub f s
  | .iMul f => Sys2Proof.Machine.execIMul f s
  | .iMad f => Sys2Proof.Machine.execIMad f s
  | .iMin f => Sys2Proof.Machine.execIMin f s
  | .iMax f => Sys2Proof.Machine.execIMax f s
  | .iAbs f => Sys2Proof.Machine.execIAbs f s
  | .iClamp f => Sys2Proof.Machine.execIClamp f s
  | .iAnd f => Sys2Proof.Machine.execIAnd f s
  | .iOr f => Sys2Proof.Machine.execIOr f s
  | .iXor f => Sys2Proof.Machine.execIXor f s
  | .iShl f => Sys2Proof.Machine.execIShl f s
  | .iShr f => Sys2Proof.Machine.execIShr f s
  | .iSra f => Sys2Proof.Machine.execISra f s
  | .iCmp f => Sys2Proof.Machine.execICmp f s
  | .sel f => Sys2Proof.Machine.execSel f s
  | .fabricMov f => Sys2Proof.Machine.execFabricMov f s
  | .const f => Sys2Proof.Machine.execConst f s
  | .mix f => Sys2Proof.Machine.execMix f s
  | .fAdd f => Sys2Proof.Machine.execFAdd f s
  | .fSub f => Sys2Proof.Machine.execFSub f s
  | .fMul f => Sys2Proof.Machine.execFMul f s
  | .fFma f => Sys2Proof.Machine.execFFma f s
  | .fMin f => Sys2Proof.Machine.execFMin f s
  | .fMax f => Sys2Proof.Machine.execFMax f s
  | .fAbs f => Sys2Proof.Machine.execFAbs f s
  | .fNeg f => Sys2Proof.Machine.execFNeg f s
  | .fCmp f => Sys2Proof.Machine.execFCmp f s
  | .fRcp f => Sys2Proof.Machine.execFRcp f s
  | .fRsq f => Sys2Proof.Machine.execFRsq f s
  | .fExp2 f => Sys2Proof.Machine.execFExp2 f s
  | .fLog2 f => Sys2Proof.Machine.execFLog2 f s
  | .fSig f => Sys2Proof.Machine.execFSig f s
  | .fTanh f => Sys2Proof.Machine.execFTanh f s
  | .cvt f => Sys2Proof.Machine.execCvt f s
  | .pack f => Sys2Proof.Machine.execPack f s
  | .unpack f => Sys2Proof.Machine.execUnpack f s
  | .rEnc f => Sys2Proof.Machine.execREnc f s
  | .rDec f => Sys2Proof.Machine.execRDec f s
  | .rMac f => Sys2Proof.Machine.execRMac f s
  | .xl f => Sys2Proof.Machine.execXl f s
  | .red f => Sys2Proof.Machine.execRed f s
  | .fork f => Sys2Proof.Machine.execFork f s
  | .steer f => Sys2Proof.Machine.execSteer f s
  | .merge f => Sys2Proof.Machine.execMerge f s
  | .mergeU f => Sys2Proof.Machine.execMergeU f s
  | .filter f => Sys2Proof.Machine.execFilter f s
  | .recirc f => Sys2Proof.Machine.execRecirc f s
  | .gate f => Sys2Proof.Machine.execGate f s
  | .seq f => Sys2Proof.Machine.execSeq f s
  | .mark f => Sys2Proof.Machine.execMark f s
  | .ldS f => Sys2Proof.Machine.execLdS f s
  | .stS f => Sys2Proof.Machine.execStS f s
  | .amoS f => Sys2Proof.Machine.execAmoS f s
  | .ldG f => Sys2Proof.Machine.execLdG f s
  | .stG f => Sys2Proof.Machine.execStG f s
  | .ag f => Sys2Proof.Machine.execAg f s
  | .ldC f => Sys2Proof.Machine.execLdC f s
  | .stC f => Sys2Proof.Machine.execStC f s
  | .cAlloc f => Sys2Proof.Machine.execCAlloc f s
  | .cSeal f => Sys2Proof.Machine.execCSeal f s
  | .accRd f => Sys2Proof.Machine.execAccRd f s
  | .aRow f => Sys2Proof.Machine.execARow f s
  | .cfgTok f => Sys2Proof.Machine.execCfgTok f s
  | .illegalInstruction w => Sys2Proof.Machine.execIllegalInstruction w s
  | .longLatencyProducerComplete key idx => Sys2Proof.Machine.execLongLatencyProducerComplete key idx s
  | .faultDelivery => Sys2Proof.Machine.execFaultDelivery s
  | .channelEntry => Sys2Proof.Machine.execChannelEntry s
  | .streamerBeat cl isl q => Sys2Proof.Machine.execStreamerBeat cl isl q s
  | .copyCompletion cl isl q => Sys2Proof.Machine.execCopyCompletion cl isl q s
  | .scheduleEntryBegin cl isl q => Sys2Proof.Machine.execScheduleEntryBegin cl isl q s
  | .pageIn cl page => Sys2Proof.Machine.execPageIn cl page s
  | .pageOut cl page => Sys2Proof.Machine.execPageOut cl page s
  | .relocation cl page core => Sys2Proof.Machine.execRelocation cl page core s
  | .curdGrant n => Sys2Proof.Machine.execCurdGrant n s
  | .nodeAccessPerformed n idx => Sys2Proof.Machine.execNodeAccessPerformed n idx s
  | .castingMove cid pages => Sys2Proof.Machine.execCastingMove cid pages s
  | .castingSlice cid => Sys2Proof.Machine.execCastingSlice cid s
  | .castingReturn cid => Sys2Proof.Machine.execCastingReturn cid s
  | .demandExpiry key => Sys2Proof.Machine.execDemandExpiry key s
  | .forcedPreemption cid => Sys2Proof.Machine.execForcedPreemption cid s
  | .rowFire cl imm => Sys2Proof.Machine.execRowFire cl imm s
  | .readoutPerform cl imm => Sys2Proof.Machine.execReadoutPerform cl imm s
  | .bindPerform cl imm => Sys2Proof.Machine.execBindPerform cl imm s
  | .tileLoadComplete cl imm => Sys2Proof.Machine.execTileLoadComplete cl imm s
  | .modeItemPerform cl imm => Sys2Proof.Machine.execModeItemPerform cl imm s
  | .scaleItemPerform cl imm => Sys2Proof.Machine.execScaleItemPerform cl imm s
  | .accItemPerform cl imm => Sys2Proof.Machine.execAccItemPerform cl imm s
  | .unpinItemPerform cl imm => Sys2Proof.Machine.execUnpinItemPerform cl imm s
  | .configTokenPerform cl imm => Sys2Proof.Machine.execConfigTokenPerform cl imm s
  | .appendPageCopyComplete id => Sys2Proof.Machine.execAppendPageCopyComplete id s
  | .demoteComplete id => Sys2Proof.Machine.execDemoteComplete id s
  | .promotionComplete id => Sys2Proof.Machine.execPromotionComplete id s
  | .commitPoint win => Sys2Proof.Machine.execCommitPoint win s
  | .dispatcherPoll q => Sys2Proof.Machine.execDispatcherPoll q s
  | .recordCheck q => Sys2Proof.Machine.execRecordCheck q s
  | .launchStart q => Sys2Proof.Machine.execLaunchStart q s
  | .steal q => Sys2Proof.Machine.execSteal q s
  | .watchdogExpiry l => Sys2Proof.Machine.execWatchdogExpiry l s
  | .correctedError u => Sys2Proof.Machine.execCorrectedError u s
  | .linkCrcRetry => Sys2Proof.Machine.execLinkCrcRetry s
  | .hostTailWrite q size v => Sys2Proof.Machine.execHostTailWrite q size v s
  | .hostMemoryWrite x bytes => Sys2Proof.Machine.execHostMemoryWrite x bytes s
  | .hostMemoryRead x n => Sys2Proof.Machine.execHostMemoryRead x n s
  | .hostWindowCompletion who => Sys2Proof.Machine.execHostWindowCompletion who s
  | .hostCompletionTimeout who => Sys2Proof.Machine.execHostCompletionTimeout who s
  | .registerWrite off size v => Sys2Proof.Machine.execRegisterWrite off size v s
  | .tinvWrite v => Sys2Proof.Machine.execTinvWrite v s
  | .tinvComplete => Sys2Proof.Machine.execTinvComplete s
  | .lqctlWrite q v => Sys2Proof.Machine.execLqctlWrite q v s
  | .errorCounterWrite off => Sys2Proof.Machine.execErrorCounterWrite off s
  | .podidWrite v => Sys2Proof.Machine.execPodidWrite v s
  | .podwinWrite m v => Sys2Proof.Machine.execPodwinWrite m v s
  | .killLaunch req => Sys2Proof.Machine.execKillLaunch req s
  | .haltCasting req => Sys2Proof.Machine.execHaltCasting req s
  | .releaseCasting req => Sys2Proof.Machine.execReleaseCasting req s
  | .haltThread req => Sys2Proof.Machine.execHaltThread req s
  | .releaseThread req => Sys2Proof.Machine.execReleaseThread req s
  | .watchdogLimit req => Sys2Proof.Machine.execWatchdogLimit req s
  | .readContextStore req => Sys2Proof.Machine.execReadContextStore req s
  | .identityPublicKey req => Sys2Proof.Machine.execIdentityPublicKey req s
  | .attestationReport req => Sys2Proof.Machine.execAttestationReport req s
  | .loadFirmware req => Sys2Proof.Machine.execLoadFirmware req s
  | .mailboxCommandEnd => Sys2Proof.Machine.execMailboxCommandEnd s
  | .moduleReset ph => Sys2Proof.Machine.execModuleReset ph s
  | .thermalWarning t => Sys2Proof.Machine.execThermalWarning t s
  | .thermalTrip => Sys2Proof.Machine.execThermalTrip s
  | .podRequest m r => Sys2Proof.Machine.execPodRequest m r s
  | .linkDown m => Sys2Proof.Machine.execLinkDown m s
  | .responseTimeout m => Sys2Proof.Machine.execResponseTimeout m s
  | .fenceNotice m => Sys2Proof.Machine.execFenceNotice m s
  | .podOpComplete id => Sys2Proof.Machine.execPodOpComplete id s
  | .combineResult id parts => Sys2Proof.Machine.execCombineResult id parts s
  | .combineFailureNotice id => Sys2Proof.Machine.execCombineFailureNotice id s
  | .portGoesDown p => Sys2Proof.Machine.execPortGoesDown p s
  | .promotionCopyBegin id => Sys2Proof.Machine.execPromotionCopyBegin id s
  | .castingConfigurationLoaded cid => Sys2Proof.Machine.execCastingConfigurationLoaded cid s
  | .hostAtomicopRequest op x => Sys2Proof.Machine.execHostAtomicopRequest op x s
  | .unknownMailboxCommand code req => Sys2Proof.Machine.execUnknownMailboxCommand code req s

end Sys2Proof.Machine
end

