-- ==== Sys2Proof/Machine/Cycle.lean ====
section
/-! DEFINITION. A cycle: which agents act in it, in which order (09/R214, R217, 11/R276, R282, 15/R353, R359, R362), and the
turn of each. (DESIGN CHOICE, log 2, log 3, log 12.) -/

namespace Sys2Proof.Machine

/-! ## Sorting by rank -/

/-- Insert before the first element of no lower rank. -/
def insertBy {α : Type} (f : α → Nat) (x : α) : List α → List α
  | [] => [x]
  | y :: r => if f x ≤ f y then x :: y :: r else y :: insertBy f x r

/-- Sort by rank, elements of one rank in their order. -/
def sortBy {α : Type} (f : α → Nat) (l : List α) : List α := l.foldr (insertBy f) []

/-! ## Contexts (09/R213, R214) -/

/-- The context after the one that a block's units stepped last, ascending and wrapping; units that have stepped none begin with
the first (DESIGN CHOICE, log 2). -/
def nextContext (last : Option Nat) (c : Nat) : Nat :=
  match last with
  | none => 0
  | some j => (j + 1) % c

/-- An instruction of a placed casting as a stage: the key of its block in `State.ctxs`, the context that it is of, and how many
contexts the block's units step. -/
structure Stage where
  node : NodeRef
  unit : Nat
  ctx  : Nat
  of'  : Nat
  deriving DecidableEq, Repr

/-- The stages of a placed casting. -/
def stagesOf (s : State) (cid : Nat) (k : CastLive) : List Stage :=
  if isPlaced k then
    (nodeKeys k).map fun key =>
      let n : NodeRef := ⟨cid, key / 128, key % 128⟩
      ⟨n, blockKey s n, nodeContext k n, (blockAt k n.blk).ctx⟩
  else []

/-- The castings of the part, each with its id. -/
def allCasts (s : State) : List (Nat × CastLive) :=
  (s.clusters.map fun x => (liveCasts x.2).map fun e => (256 * x.1 + e.1, e.2)).flatten

/-- The stages of every placed casting of the part. -/
def allStages (s : State) : List Stage := (allCasts s).flatMap fun e => stagesOf s e.1 e.2

/-- The units of every block go on to its next context. -/
def advance (old : Tab Nat) (stages : List Stage) : Tab Nat :=
  stages.foldl (fun t x => tabPut t x.unit (nextContext (tabFind old x.unit) x.of')) []

/-- The instructions of the contexts that are stepped. -/
def steppedNodes (now : Tab Nat) (stages : List Stage) : List NodeRef :=
  (stages.filter fun x => tabGet now x.unit 0 == x.ctx).map (·.node)

/-- Change every live casting. -/
def mapCasts (s : State) (f : Nat → CastLive → CastLive) : State :=
  { s with clusters := s.clusters.map fun x => (x.1, { x.2 with
      casts := x.2.casts.map fun e => (e.1, { e.2 with live := e.2.live.map (f (256 * x.1 + e.1)) }) }) }

/-- The units of a block step their first context in this cycle. -/
def roundBegins (s : State) (cid b : Nat) : Bool := tabGet s.ctxs (blockKey s ⟨cid, b, 0⟩) 0 = 0

/-- A queue stays hidden beyond the cycle of the add: an input, until its block's units begin a round, so that a billet goes on by
one instruction every c cycles (09/R214); so too an arc between two blocks of as many contexts, which step in phase. Any other
arc, and every port, shows in the next cycle what was added in this one (R217). (DESIGN CHOICE, log 2.) -/
def staysHidden (s : State) (cid : Nat) (k : CastLive) (q : Nat) : Bool :=
  if q < 4096 then !roundBegins s cid (q / 512)
  else
    match (if q < 8192 then k.arcs[q - 4096]? else none) with
    | some a => (blockAt k a.fblk).ctx == (blockAt k a.tblk).ctx && !roundBegins s cid a.tblk
    | none => false

/-- What was added before this cycle shows. -/
def showAdded (s : State) : State :=
  mapCasts s fun cid k => { k with fresh := k.fresh.filter fun e => staysHidden s cid k e.1, owed := [], taken := [] }

/-! ## Who comes before whom in a cycle -/

/-- The instruction that a thread's turn will run. -/
def threadInstr (s : State) (key : Nat) : Option Instr :=
  match s.threadAt key with
  | none => none
  | some t =>
    match nextInstr s key t with
    | .ok r => some r.1
    | .error _ => none

/-- A `qget`. -/
def isQget : Instr → Bool
  | .qget _ _ _ _ => true
  | _ => false

/-- The rank among threads and fabric instructions in one cycle (09/R217, R230, 11/R276, R282): core, then the thread before the
nodes, then block and slot. -/
def coreRank (s : State) (m : Move) : Nat :=
  match m with
  | .thread key => key * 2 ^ 20
  | .node n =>
    let core := match (castSlot s n.cast).live with
      | some k => nodeCore k n
      | none => 0
    (64 * (n.cast / 256) + core) * 2 ^ 20 + (1 + nodeKey n) * 256 + n.cast % 256
  | _ => 0

/-- The performance of a node's access. -/
def isAccess : Move → Bool
  | .event (.nodeAccessPerformed _ _) => true
  | _ => false

/-- The core of a thread's turn. -/
def threadOf : Move → Option Nat
  | .thread key => some key
  | _ => none

/-- The turns of a cycle in their order: a `qget` before all that add to its queue (15/R359); threads and stepped instructions by
core; the agenda's other events; and accesses of nodes. (DESIGN CHOICE, log 12.) -/
def turnsOf (s : State) (due : List Move) (ns : List NodeRef) : List Move :=
  let keys := (due.filterMap threadOf).eraseDups
  let early := keys.filter fun j => (threadInstr s j).any isQget
  let rest := keys.filter fun j => !early.contains j
  (sortBy id early).map .thread ++ sortBy (coreRank s) (rest.map .thread ++ ns.map .node) ++
  (due.filter fun m => !isAccess m && (threadOf m).isNone) ++ due.filter isAccess

/-- What the agenda makes due in the cycle that begins, and what it keeps: the head when its cycles have passed, and all that
follow it at no distance. The stages of the fabric come of themselves. -/
def dueMoves (core : Nat) : List (Nat × Move) → List Move × List (Nat × Move)
  | [] => ([.thread core], [])
  | (dt, m) :: rest =>
    if 1 < dt then ([], (dt - 1, m) :: rest)
    else (m :: (rest.takeWhile fun e => e.1 = 0).map (·.2), rest.dropWhile fun e => e.1 = 0)

/-- Not a stage of the fabric. -/
def isAgendas : Move → Bool
  | .node _ => false
  | _ => true

/-! ## A thread's turn -/

/-- The instruction would trap here, precisely. -/
def trapsHere (s : State) (key : Nat) (t : Thread) (i : Instr) : Bool :=
  match exec i ({ s with core := key }.setThread key { t with fvec := 4 }) with
  | .next u => (u.threadAt key).any fun v => decide (v.ref = t.ref) && v.saved.isSome
  | _ => false

/-- A wait, where a thread's next instruction was sought. -/
def isStall {α : Type} : Except Exc α → Bool
  | .error (.stall _) => true
  | _ => false

/-- What an instruction's accesses at issue have asked a member for in vain is kept with its thread, since when it has asked
(18/R414). -/
def noteAsked (key : Nat) (old : Option (Nat × Nat)) (s : State) : State :=
  if s.asked.isNone ∧ old.isNone then s
  else { s with asked := none }.updThread key fun t => { t with asks := askedSince s.cycle old s.asked }

/-- Run a thread's instruction: its accesses wait for what a `fence` before them waits for (08/R207, 14/R330), and its acquire
for its releases (R336). -/
def runInstr (s : State) (key : Nat) (t : Thread) (i : Instr) : Answer :=
  let c := keyCluster key
  let left := t.barred.filter fun b => !waitOver s c t.ref b
  let s := if t.barred.isEmpty then s else s.setThread key { t with barred := left }
  if heldBy s c t.ref (accessKinds s key t i) left || acquireWaits t i then .next s
  else
    match exec i { s with core := key } with
    | .next u => .next (noteAsked key t.asks u)
    | r => r

/-- A thread's turn, its sub-banks apart: at its boundary a late fault comes first, then the instruction's own precise fault,
then a waiting asynchronous fault (17/R390), then the instruction. (DEDUCED, log 68.) -/
def runThread (s : State) (key : Nat) : Answer :=
  match s.threadAt key with
  | none => .next s
  | some t =>
    if s.phase ≠ .up ∨ t.halted then .next s
    else
      let async := asyncDue t && t.running
      match nextInstr s key t with
      | .error e =>
        if async && isStall (nextInstr s key t) then exec .faultDelivery { s with core := key }
        else .next (settle s key t (.error e))
      | .ok (i, s') =>
        if async && !lateDue t && !trapsHere s' key t i then exec .faultDelivery { s with core := key }
        else runInstr s' key t i

/-! ## A fabric instruction's turn -/

/-- The head of an input queue holds an uncorrectable error, and would be taken (17/R403). -/
def headBad (k : CastLive) (n : NodeRef) : Bool :=
  (nodeAt k n).bad && nodeActs k n && ((headA k n).isSome || (headB k n).isSome || (headC k n).isSome)

/-- Run a fabric instruction; a billet whose consumption brings a closed casting to its boundary retires it (09/R229). -/
def runNode (s : State) (n : NodeRef) (i : Instr) : Answer :=
  match exec i { s with node := n } with
  | .next u => .next (tryRetire u n.cast)
  | r => r

/-- A fabric instruction's turn, its sub-banks apart. -/
def turnNode (s : State) (n : NodeRef) : Answer :=
  if s.phase ≠ .up then .next s
  else
    match (castSlot s n.cast).live, nodeInstr s n with
    | some k, some i =>
      if headBad k n then .next (nodeStop (updNode s n fun x => { x with bad := false }) n ⟨cData, 0, none, 0⟩)
      else runNode s n i
    | _, _ => .next s

/-! ## Sub-banks (11/R276) -/

/-- The cluster of an agent. -/
def Waiter.cluster : Waiter → Nat
  | .thread key => keyCluster key
  | .node n => n.cast / 256
  | .queue cl _ _ => cl
  | .island cl _ => cl

/-- What an agent's turn answers, its sub-banks apart. -/
def bankTurn (s : State) : Waiter → Answer
  | .thread key => runThread s key
  | .node n => turnNode s n
  | .queue cl isl q => exec (.streamerBeat cl isl q) s
  | .island cl isl => exec (.rowFire cl isl) s

/-- The sub-banks at which a turn's accesses are performed. -/
def banksUsed (s : State) : Answer → List Nat
  | .next u => u.busy.drop s.busy.length
  | _ => []

/-- An agent's wait, with the cycle since which it has waited, as long as its access would still be made. -/
def waitStill (s : State) (who : Waiter) (since : Nat) : Option BankWait :=
  let b := banksUsed s (bankTurn s who)
  if b.isEmpty then none else some ⟨who, since, b⟩

/-- An agent's wait is over. -/
def unwait (who : Waiter) (s : State) : State :=
  if s.banked.isEmpty then s else { s with banked := s.banked.filter fun w => w.who ≠ who }

/-- An agent's turn stands when every sub-bank that it uses is free in this cycle and no access of lower rank waits for one;
otherwise it waits, since the cycle of its arrival. -/
def atBanks (s : State) (who : Waiter) (a : Answer) : Answer :=
  match a with
  | .next u =>
    let b := banksUsed s a
    let old := s.banked.find? fun w => w.who = who
    let w : BankWait := ⟨who, (old.map (·.since)).getD s.cycle, b⟩
    if bankFree (unwait who s) who.cluster (waitRank s w) b then .next (unwait who u)
    else .next { s with banked := (s.banked.filter fun w => w.who ≠ who) ++ [w] }
  | r => r

/-- A thread's turn. -/
def stepThread (s : State) (key : Nat) : Answer := atBanks s (.thread key) (runThread s key)

/-- A fabric instruction's turn. -/
def stepNode (s : State) (n : NodeRef) : Answer := atBanks s (.node n) (turnNode s n)

/-! ## Other turns -/

/-- An event of the agenda. -/
def stepEvent (s : State) (i : Instr) : Answer :=
  if !freeEvent i then .next s
  else
    match i with
    | .streamerBeat cl isl q => atBanks s (.queue cl isl q) (exec i s)
    | .rowFire cl isl => atBanks s (.island cl isl) (exec i s)
    | .nodeAccessPerformed n _ =>
      (match exec i s with
       | .next u => .next (tryRetire u n.cast)
       | r => r)
    | _ => exec i s

/-- An uncorrectable error arises (17/R403). -/
def eccError (s : State) : EccPlace → State
  | .line l => { s with rel := { s.rel with badLines := l :: s.rel.badLines } }
  | .sram l => { s with rel := { s.rel with badSram := l :: s.rel.badSram } }
  | .register key l => s.updThread key fun t => { t with bad := l :: t.bad }
  | .entry cl q => s.updCluster cl fun x => { x with
      queues := x.queues.map fun e => if e.1 = q then (e.1, { e.2 with bad := !queueIdle e.2 }) else e }
  | .node n => updNode s n fun x => { x with bad := true }
  | .accRow cl isl row => s.updIsland cl isl fun x => { x with badRows := row :: x.badRows }

/-- One turn. -/
def stepMove (s : State) (m : Move) : Answer :=
  match m with
  | .thread key => stepThread s key
  | .node n => stepNode s n
  | .event i => stepEvent s i
  | .outside cells => .next (outsideWrite s cells)
  | .outBar k b => .next { s with outBars := tabPut s.outBars k b }
  | .eccError p => .next (eccError s p)
  | .hostRead bar off n => .next (hostRead s bar off n)
  | .mailboxWrite off bytes => .next (mailboxWrite s off bytes)
  | .pciSize n => .next (setBar2 s n)
  | .pciPower d3hot => .next { s with pci := { s.pci with d3hot := d3hot } }
  | .issueTimeout key => .next { s with timedOut := key :: s.timedOut }
  | .treeAnswer m => .next { s with treeOut := s.treeOut.filter fun x => x.dest ≠ m }
  | .sensor t => .next (senseHeat t s)
  | .cacheFill asid va => .next (cacheFill s asid va)
  | .cacheDrop asid va => .next (cacheDrop s asid va)

/-! ## The plan of a cycle (09/R217, 11/R276)

In one cycle a queue's take comes before the add, and a sub-bank's accesses rank among all that arrive; but the turns act one
after another. So before the first turn acts the cycle is planned: which takes it will make, and which accesses arrive in it. -/

/-- The agent of a turn that may reach sub-banks. -/
def waiterOf : Move → Option Waiter
  | .thread key => some (.thread key)
  | .node n => some (.node n)
  | .event (.streamerBeat cl isl q) => some (.queue cl isl q)
  | .event (.rowFire cl isl) => some (.island cl isl)
  | _ => none

/-- The accesses at sub-banks that a turn's agent makes in it, and since when they wait, given those that waited before. -/
def arriving (old : List BankWait) (s : State) (m : Move) : List BankWait :=
  match waiterOf m with
  | none => []
  | some w =>
    let b := banksUsed s (bankTurn s w)
    if b.isEmpty then [] else [⟨w, ((old.find? fun x => x.who = w).map (·.since)).getD s.cycle, b⟩]

/-- The access of the billet that a memory node took last, when it took it in this cycle. -/
def arrivingHeld (s : State) (m : Move) : List BankWait :=
  match m with
  | .node n =>
    (match (castSlot s n.cast).live, (nodeInstr s n).bind memKind with
     | some k, some (kd, f) =>
       (match (nodeAt k n).held.getLast? with
        | some h =>
          if h.since = s.cycle ∧ h.st = .waiting then
            let b := heldBanks s kd f k n h
            if b.isEmpty then [] else [⟨.node n, s.cycle, b⟩]
          else []
        | none => [])
     | _, _ => [])
  | _ => []

/-- A plan: the queues that takes are still to come from, of each casting by its casting id, and the accesses that arrive. -/
structure Plan where
  owed   : Tab (List Nat)
  arrive : List BankWait
  deriving DecidableEq, Repr

/-- A state in which a plan holds. -/
def planned (s : State) (p : Plan) : State :=
  { mapCasts s fun cid k => { k with owed := tabGet p.owed (castId s cid) [] } with banked := p.arrive }

/-- Run turns as they would act: the state in which they end, and the accesses that arrive. -/
def rehearse (old : List BankWait) : List Move → State → State × List BankWait
  | [], s => (s, [])
  | m :: r, s =>
    let u := match stepMove s m with
      | .next u => u
      | _ => s
    let z := rehearse old r u
    (z.1, arriving old s m ++ arrivingHeld u m ++ z.2)

/-- What two lists have in common, each element as often as in both. -/
def inBoth (l : List Nat) : List Nat → List Nat
  | [] => []
  | x :: r => if l.contains x then x :: inBoth (l.erase x) r else inBoth l r

/-- The most that takes of one cycle can come from: one from each input, arc and input port that shows a billet, and from an
output port as many as it shows. -/
def mayOwe (k : CastLive) : List Nat :=
  let one := fun (q len : Nat) => if seenLen k q len = 0 then [] else [q]
  (k.nodes.flatMap fun e =>
    one (inputQ e.1 0) e.2.qa.length ++ one (inputQ e.1 1) e.2.qb.length ++ one (inputQ e.1 2) e.2.qc.length) ++
  (k.arcs.zipIdx.flatMap fun a => one (arcQ a.2) a.1.q.length) ++
  (k.ins.flatMap fun e => one (insQ e.1) e.2.q.length) ++
  k.outs.flatMap fun e => List.replicate (seenLen k (outsQ e.1) e.2.q.length) (outsQ e.1)

/-- The table of a quantity of each casting, by casting id. -/
def castTab (s : State) (f : CastLive → List Nat) : Tab (List Nat) :=
  (allCasts s).foldl (fun t e => tabPut t (castId s e.1) (f e.2)) []

/-- The waits of agents whose turn does not come in this cycle. -/
def oldWaits (s : State) (ms : List Move) : List BankWait :=
  let due := ms.filterMap waiterOf
  (s.banked.filter fun b => !due.contains b.who).filterMap fun b => waitStill s b.who b.since

/-- Settle a plan: the turns are rehearsed with the takes that it allows and the accesses that it awaits, until they make those
very takes and accesses. Of the takes no more are allowed each time than were made, so that most takes that can come together do:
in a ring of full queues all move. When the rehearsals do not agree, no take is counted on. (DESIGN CHOICE, log 12.) -/
def settlePlan (s : State) (ms : List Move) : Nat → Plan → Plan
  | 0, p => { p with owed := [] }
  | fuel + 1, p =>
    let z := rehearse s.banked ms (planned s p)
    let made := castTab z.1 (·.taken)
    let q : Plan := ⟨p.owed.map fun e => (e.1, inBoth (tabGet made e.1 []) e.2), oldWaits s ms ++ z.2⟩
    if q = p then p else settlePlan s ms fuel q

/-! ## The beginning of a cycle -/

/-- A cycle begins: time passes; writes of releases and messages that have waited are made; the fabric's contexts advance; and
the turns are ordered and planned. -/
def beginCycle (s : State) : State :=
  let due := dueMoves s.core s.agenda
  let s := settleCredits (passTime { s with agenda := due.2, busy := [], beats := [], fired := [] } 1)
  let s := sendHeld (performReleases s)
  let stages := allStages s
  let s := showAdded { s with ctxs := advance s.ctxs stages }
  let turns := turnsOf s (due.1.filter isAgendas) (steppedNodes s.ctxs stages)
  let owed := castTab s mayOwe
  let fuel := 2 * (turns.length + (owed.map fun e => e.2.length).sum) + 2
  { planned s (settlePlan s turns fuel ⟨owed, s.banked⟩) with turns := turns }

/-- One step: the next turn of the present cycle, or, when all have been taken, the beginning of the next cycle.
(DESIGN CHOICE, log 2, log 12.) -/
def oneStep (s : State) : Answer :=
  match s.turns with
  | [] => .next (beginCycle s)
  | m :: rest => stepMove { s with turns := rest } m

end Sys2Proof.Machine
end

