-- ==== Sys2Proof/Machine/Step.lean ====
section
/-! DEFINITION. The step of the machine, and the state in which a given word is the next instruction. -/

namespace Sys2Proof.Machine

/-- One step (DESIGN CHOICE, log 2, log 12). -/
def step (s : State) : Host.Outcome State Fault Refusal := oneStep s

/-- The state in which the very next step runs the instruction whose bits are w (DESIGN CHOICE, log 8). -/
def State.withFetchWord (s : State) (nbits w : Nat) : State := placeBits s nbits w

end Sys2Proof.Machine
end

