-- ==== Sys2Proof/Safety.lean ====
section
/-! DEFINITION. The words in which statements about the machine are made: who acts, what an operand holds, what an
instruction that completes leaves, and the canonical form of every memory that the state holds. -/

namespace Sys2Proof.Machine

/-! ## Acting and operands -/

/-- The thread t stands on the core whose turn it is, in a frame that it has entered (15/R346). -/
def Acts (s : State) (t : Thread) : Prop := s.threadAt s.core = some t ∧ t.entered = true

/-- The acting thread, entered or not. -/
def Stands (s : State) (t : Thread) : Prop := s.threadAt s.core = some t

/-- A source register is full (or the read does not wait, and holds) the value x (08/R190). -/
def Reads (t : Thread) (a : Src) (x : Word) : Prop := readSrc t a = .ok x

/-- A register field without a wait bit holds x (02/R21). -/
def Holds (t : Thread) (r : Reg) (x : Word) : Prop := readField t r = .ok x

/-- A destination lies in the frame and is not empty (08/R182, R191); `g0` always is so. -/
def Ready (t : Thread) (d : Reg) : Prop := destReady t d = .ok ()

/-- Fewer than 64 producers are outstanding (08/R192). -/
def HasRoom (t : Thread) : Prop := outst t < 64

/-! ## What a completed instruction leaves -/

/-- A completed one-word instruction that changes its thread alone, into u but for what the end test does to the PC and
the loop stack (15/R349). -/
def ends (s : State) (t u : Thread) : Answer := .next (s.setThread s.core (endTest u t.pc))

/-- The same for an instruction of two words. -/
def endsLong (s : State) (t u : Thread) : Answer := .next (s.setThread s.core (endTest u (t.pc + 4)))

/-- A completed one-word instruction that leaves the state s' with its own thread made u, but for the end test. -/
def endsWith (s : State) (t : Thread) (s' : State) (u : Thread) : Answer :=
  .next (s'.setThread s.core (endTest u t.pc))

/-- A completed one-word instruction that leaves the state s' but for the end test of its thread. -/
def endsIn (s : State) (t : Thread) (s' : State) : Answer := .next (complete s' s.core t.pc)

/-- A precise trap is taken, nothing else having changed (00/R6, 17/R391). -/
def traps (s : State) (t : Thread) (e : Exn) : Answer := .next (takeTrap s s.core t e)

/-! ## Memory -/

/-- Every memory in the state has the canonical form. -/
def MemoryForm (s : State) : Prop :=
  s.mem.wf = true ∧ s.sram.wf = true ∧ s.outside.wf = true ∧ s.mbox.buffer.wf = true

/-- Every byte that the state holds in device memory, scratch frames and the outside reads as before. -/
def SameBytes (s u : State) : Prop :=
  (∀ a, memGet u.mem a = memGet s.mem a) ∧ (∀ a, memGet u.sram a = memGet s.sram a) ∧
  ∀ a, memGet u.outside a = memGet s.outside a

/-- Two threads agree but for the register at one place (its value and whether it holds an error), the PC and the loop
stack. -/
def SameBut (l : Option RegLoc) (t u : Thread) : Prop :=
  u = { t with g := u.g, win := u.win, bad := u.bad, pc := u.pc, loops := u.loops } ∧
  ∀ l', l ≠ some l' → cellAt u l' = cellAt t l' ∧ (l' ∈ u.bad ↔ l' ∈ t.bad)

/-- Two threads agree but for their predicates, the PC and the loop stack. -/
def SameButPreds (t u : Thread) : Prop := u = { t with p := u.p, pc := u.pc, loops := u.loops }

/-! ## Fabric instructions -/

/-- The casting of the node whose turn it is, placed and stepping, the node neither stopped nor waiting for a page. -/
def NodeTurn (s : State) (k : CastLive) : Prop :=
  (castSlot s s.node.cast).live = some k ∧ nodeActs k s.node = true

/-- A compute instruction fires (10/R234, R235): data billets stand at its inputs (b is a where `BSRC` names no second
input), its predicate holds, and every target has a free slot once they are taken; k' is the casting without them. -/
def Fires (s : State) (f : FWord) (k k' : CastLive) (a b : Billet) : Prop :=
  NodeTurn s k ∧ headA k s.node = some a ∧ isData a = true ∧ isData b = true ∧ pmHolds f a.tag = true ∧
  (if imBsrc f = 1 then headB k s.node = some b ∧ k' = takeB (takeA k s.node) s.node
   else b = a ∧ k' = takeA k s.node) ∧
  roomFor k' s.node (targetsOf f) = true

/-- What a firing leaves: the rounding generator and the sticky flags of the invocation, and the billet on every
target. -/
def fired (s : State) (f : FWord) (k' : CastLive) (r : Fired) : Answer :=
  let x := nodeAt k' s.node
  let k := nodeUpd k' s.node fun x => { x with gen := r.gen }
  .next (putCast s s.node (emitTo
    { k with flagsAt := if r.fl = 0 then k.flagsAt else tabUpd k.flagsAt x.inv 0 (· ||| r.fl) }
    s.node (targetsOf f) r.out))

/-- A compute instruction that fires leaves lane i of the target view as `val i` where the lane is enabled and as it was
elsewhere, nothing else of the record changed, and no flag (10/R233). -/
def LanesBecome (s : State) (f : FWord) (k' : CastLive) (a : Billet) (v : View) (val : Nat → Nat) (i : Instr) : Prop :=
  ∃ r : BitVec 256,
    exec i s = fired s f k' ⟨{ a with data := r }, 0, (nodeAt k' s.node).gen⟩ ∧
    (∀ j < v.n, laneAt v.w (turnRec r.toNat f.fd.toNat) j = if v.en j then val j % 2 ^ v.w else v.v j) ∧
    turnRec r.toNat f.fd.toNat / 2 ^ (v.n * v.w) = v.vv / 2 ^ (v.n * v.w)

/-- The billet passes to every target of the instruction, the casting otherwise k. -/
def passes (s : State) (f : FWord) (k : CastLive) (b : Billet) : Answer :=
  .next (putCast s s.node (emitTo k s.node (targetsOf f) b))

/-- The compute instructions of the fabric (10). -/
def computeInstrs (f : FWord) : List Instr :=
  [.iAdd f, .iSub f, .iMul f, .iMad f, .iMin f, .iMax f, .iAbs f, .iClamp f, .iAnd f, .iOr f, .iXor f, .iShl f,
   .iShr f, .iSra f, .iCmp f, .sel f, .fabricMov f, .const f, .mix f, .fAdd f, .fSub f, .fMul f, .fFma f, .fMin f,
   .fMax f, .fAbs f, .fNeg f, .fCmp f, .fRcp f, .fRsq f, .fExp2 f, .fLog2 f, .fSig f, .fTanh f, .cvt f, .pack f,
   .unpack f, .rEnc f, .rDec f, .rMac f, .xl f, .red f]

/-! ## Encoding -/

/-- The instruction that the words of another decode to: the seven operations of `kv.add` share one word (13/R318). -/
def wordRow (i : Instr) : Instr :=
  match i with
  | .kvAddOpen d a h p => .kvAddPool d a h p
  | .kvAddAppend d a h p => .kvAddPool d a h p
  | .kvAddAttach d a h p => .kvAddPool d a h p
  | .kvAddPublish d a h p => .kvAddPool d a h p
  | .kvAddClose d a h p => .kvAddPool d a h p
  | .kvAddDemote d a h p => .kvAddPool d a h p
  | _ => i

/-- The bytes of an instruction, as they stand in memory. -/
def bytesOf (i : Instr) : List Byte := (encode i).flatMap bytesOfWord

/-- Decoding the words of an instruction gives it back: a control-thread instruction from its bytes, whatever follows them
(which is left), a fabric instruction from its doubleword; an event has no words. -/
def RoundTrips (i : Instr) : Prop :=
  match i.fabricOpc with
  | some _ => ∃ lo hi, encode i = [lo, hi] ∧ decodeFabric (hi ++ lo) = .ok i
  | none => encode i = [] ∨ ∀ rest, decodeBytes (bytesOf i ++ rest) = .ok (wordRow i, rest)

end Sys2Proof.Machine
end

