-- ==== Sys2Proof/Certificates/Slice0/Obligations.lean ====
section
/-! DEFINITION. The statements for the provers, each a proposition about the machine. -/

open Sys2Proof Sys2Proof.Machine

/-! ## Registers -/

/-- 08/R195, R196: what the R-form arithmetic writes. 08/R195, R197, R198: what the instructions of one source and of none
write. A long form ends at its second word. 08/R198: `bfi` replaces the field and keeps every other bit of d. -/
def Obligations.IntegerResults : Prop :=
  (∀ (s : State) (t : Thread) (d : Reg) (a b : Src) (x y : Word),
    Acts s t → Reads t a x → Reads t b y → Ready t d →
    ∀ e ∈ ([
      (.add d a b, x + y),
      (.sub d a b, x - y),
      (.mul d a b, BitVec.ofInt 64 (x.toInt * y.toInt)),
      (.mulh d a b, BitVec.ofInt 64 (x.toInt * y.toInt / 2 ^ 64)),
      (.mulhu d a b, BitVec.ofNat 64 (x.toNat * y.toNat / 2 ^ 64)),
      (.div d a b, if y = 0 then BitVec.allOnes 64 else BitVec.ofInt 64 (x.toInt.tdiv y.toInt)),
      (.divu d a b, if y = 0 then BitVec.allOnes 64 else BitVec.ofNat 64 (x.toNat / y.toNat)),
      (.rem d a b, if y = 0 then x else BitVec.ofInt 64 (x.toInt - y.toInt * x.toInt.tdiv y.toInt)),
      (.remu d a b, if y = 0 then x else BitVec.ofNat 64 (x.toNat % y.toNat)),
      (.and d a b, x &&& y),
      (.or d a b, x ||| y),
      (.xor d a b, x ^^^ y),
      (.andn d a b, x &&& ~~~y),
      (.shl d a b, x <<< (y.toNat % 64)),
      (.shr d a b, x >>> (y.toNat % 64)),
      (.sra d a b, x.sshiftRight (y.toNat % 64)),
      (.rot d a b, x.rotateLeft (y.toNat % 64)),
      (.min d a b, if x.toInt < y.toInt then x else y),
      (.minu d a b, if x.toNat < y.toNat then x else y),
      (.max d a b, if x.toInt < y.toInt then y else x),
      (.maxu d a b, if x.toNat < y.toNat then y else x)] : List (Instr × Word)),
      exec e.1 s = ends s t (writeR t d e.2)) ∧
  (∀ (s : State) (t : Thread) (d : Reg) (a : Src) (x : Word) (i : BitVec 12) (n m : BitVec 6) (w : W32),
    Acts s t → Reads t a x → Ready t d →
    (∀ e ∈ ([
      (.mov d a, x),
      (.clz d a, if x = 0 then 64 else BitVec.ofNat 64 (63 - Nat.log2 x.toNat)),
      (.popc d a, BitVec.ofNat 64 ((List.range 64).filter fun k => x.getLsbD k).length),
      (.addi d a i, x + i.signExtend 64),
      (.andi d a i, x &&& i.signExtend 64),
      (.ori d a i, x ||| i.signExtend 64),
      (.xori d a i, x ^^^ i.signExtend 64),
      (.shli d a n, x <<< n.toNat),
      (.shri d a n, x >>> n.toNat),
      (.srai d a n, x.sshiftRight n.toNat),
      (.bfx d a n m, BitVec.ofInt 64 (sOf (m.toNat + 1) (x.toNat / 2 ^ n.toNat % 2 ^ (m.toNat + 1)))),
      (.bfxu d a n m, BitVec.ofNat 64 (x.toNat / 2 ^ n.toNat % 2 ^ (m.toNat + 1))),
      (.sext d a i, BitVec.ofInt 64 (sOf i.toNat (x.toNat % 2 ^ i.toNat))),
      (.movi d i, i.signExtend 64)] : List (Instr × Word)), exec e.1 s = ends s t (writeR t d e.2)) ∧
    (∀ e ∈ ([
      (.movl d w, w.zeroExtend 64),
      (.movhi d a w, w ++ x.extractLsb' 0 32)] : List (Instr × Word)), exec e.1 s = endsLong s t (writeR t d e.2))) ∧
  (∀ (s : State) (t : Thread) (d : Reg) (a : Src) (x y : Word) (p l : BitVec 6),
    Acts s t → Reads t a x → Holds t d y → p.toNat + (l.toNat + 1) ≤ 64 →
    ∃ v : Word, exec (.bfi d a p l) s = ends s t (writeR t d v) ∧
      ∀ k, k < 64 → v.getLsbD k =
        if p.toNat ≤ k ∧ k < p.toNat + (l.toNat + 1) then x.getLsbD (k - p.toNat) else y.getLsbD k)

/-- 08/R199: compares, predicate operations and `psel`. -/
def Obligations.CompareAndPredicate : Prop :=
  ∀ (s : State) (t : Thread) (a b : Src) (x y : Word) (p q r : BitVec 3) (d : Reg),
    Acts s t →
    (Reads t a x → Reads t b y →
      ∀ e ∈ ([
        (.cmpEq p a b, decide (x = y)),
        (.cmpNe p a b, decide (x ≠ y)),
        (.cmpLt p a b, decide (x.toInt < y.toInt)),
        (.cmpLtu p a b, decide (x.toNat < y.toNat)),
        (.cmpLe p a b, decide (x.toInt ≤ y.toInt)),
        (.cmpLeu p a b, decide (x.toNat ≤ y.toNat))] : List (Instr × Bool)),
        exec e.1 s = ends s t (writeP t p e.2)) ∧
    (∀ e ∈ ([
        (.pand p q r, readP t q && readP t r),
        (.por p q r, readP t q || readP t r),
        (.pxor p q r, xor (readP t q) (readP t r)),
        (.pnot p q, !readP t q)] : List (Instr × Bool)), exec e.1 s = ends s t (writeP t p e.2)) ∧
    (Reads t a x → Reads t b y → Ready t d →
      exec (.psel d a b q) s = ends s t (writeR t d (if readP t q then x else y))) ∧
    (namesOk t [d, a.reg, b.reg] = .ok () →
      (∀ l, regLoc t a.reg = .ok (some l) → (cellAt t l).fill ≠ .full → exec (.psel d a b q) s =
        if a.wait ∧ (cellAt t l).fill = .empty then .next s else traps s t ⟨cEmpty, 0, none, 0⟩) ∧
      (∀ l, Reads t a x → regLoc t b.reg = .ok (some l) → (cellAt t l).fill ≠ .full → exec (.psel d a b q) s =
        if b.wait ∧ (cellAt t l).fill = .empty then .next s else traps s t ⟨cEmpty, 0, none, 0⟩))

/-- 08 Table 8.1, R182: what the named registers are. `g0` reads zero and discards, `p0` reads true and discards; a write
of any other register or predicate is read back and leaves the others alone. 08/R182, R190, R191, 02/R20: how an
instruction of two sources and a destination ends when an operand is not to hand: a register outside the frame, or a
reserved number, is an illegal-instruction trap; an empty source that waits, or an empty destination, leaves all as it
was; an empty source that does not wait is the empty-register trap. That a bad name, the destination's too, traps whatever the
other operands hold, an empty source included, is the model's reading of an order that the spec does not give (log 25). -/
def Obligations.RegisterFile : Prop :=
  (∀ (t : Thread) (v : Word) (k j : BitVec 3) (b : Bool),
    (∀ w, readReg64 t 0 w = .ok 0) ∧ writeR t 0 v = t ∧ readP t 0 = true ∧ writeP t 0 b = t ∧
    (k ≠ 0 → readP (writeP t k b) k = b) ∧ (j ≠ k → readP (writeP t k b) j = readP t j) ∧
    (∀ (d : Reg) (l : RegLoc), regLoc t d = .ok (some l) →
      cellAt (writeR t d v) l = ⟨v, .full⟩ ∧ ∀ l', l' ≠ l → cellAt (writeR t d v) l' = cellAt t l') ∧
    (∀ i : Nat, i < t.fsize → i < 32 → regLoc t (BitVec.ofNat 6 (16 + i)) = .ok (some (.file ((t.base + i) % 512)))) ∧
    (∀ i : Nat, t.fsize ≤ i → i < 32 → regLoc t (BitVec.ofNat 6 (16 + i)) = exn cIllegal 1) ∧
    (∀ r : Reg, 48 ≤ r.toNat → regLoc t r = exn cIllegal 0)) ∧
  (∀ (s : State) (t : Thread) (d : Reg) (a b : Src), Acts s t →
    ∀ i ∈ ([.add d a b, .sub d a b, .mul d a b, .mulh d a b, .mulhu d a b, .div d a b, .divu d a b, .rem d a b,
      .remu d a b, .and d a b, .or d a b, .xor d a b, .andn d a b, .shl d a b, .shr d a b, .sra d a b, .rot d a b,
      .min d a b, .minu d a b, .max d a b, .maxu d a b] : List Instr),
      (∀ e, namesOk t [d, a.reg, b.reg] = .error (.trap e none) → exec i s = traps s t e) ∧
      (∀ l, namesOk t [d, a.reg, b.reg] = .ok () → regLoc t a.reg = .ok (some l) → (cellAt t l).fill ≠ .full →
        exec i s = if a.wait ∧ (cellAt t l).fill = .empty then .next s else traps s t ⟨cEmpty, 0, none, 0⟩) ∧
      (∀ l x, namesOk t [d, a.reg, b.reg] = .ok () → Reads t a x → regLoc t b.reg = .ok (some l) →
        (cellAt t l).fill ≠ .full →
        exec i s = if b.wait ∧ (cellAt t l).fill = .empty then .next s else traps s t ⟨cEmpty, 0, none, 0⟩) ∧
      (∀ l x y, Reads t a x → Reads t b y → regLoc t d = .ok (some l) → (cellAt t l).fill = .empty →
        exec i s = .next s))

/-- 00/R6, 08/R195, R199: the frame of the register instructions. Whatever next state one of them gives is the state
unchanged (it waits), or a trap taken from the state unchanged, or the state with its own thread changed at the
destination register alone, beside the PC and the loop stack: no byte of memory, no other thread, no other register,
predicate, flag, handle or special register. The same for the instructions whose destination is a predicate. -/
def Obligations.RegisterFrame : Prop :=
  (∀ (s s' : State) (t : Thread) (d : Reg) (a b : Src) (i : BitVec 12) (n m : BitVec 6) (w : W32) (k : BitVec 3),
    s.threadAt s.core = some t →
    ∀ j ∈ ([.add d a b, .sub d a b, .mul d a b, .mulh d a b, .mulhu d a b, .div d a b, .divu d a b, .rem d a b,
      .remu d a b, .and d a b, .or d a b, .xor d a b, .andn d a b, .shl d a b, .shr d a b, .sra d a b, .rot d a b,
      .min d a b, .minu d a b, .max d a b, .maxu d a b, .mov d a, .clz d a, .popc d a, .addi d a i, .andi d a i,
      .ori d a i, .xori d a i, .shli d a n, .shri d a n, .srai d a n, .bfx d a n m, .bfxu d a n m, .bfi d a n m,
      .sext d a i, .movi d i, .movl d w, .movhi d a w, .psel d a b k] : List Instr),
      exec j s = .next s' →
      s' = s ∨ (∃ e, s' = takeTrap s s.core t e) ∨
      ∃ u, s' = s.setThread s.core u ∧ ∃ l, regLoc t d = .ok l ∧ SameBut l t u) ∧
  (∀ (s s' : State) (t : Thread) (a b : Src) (p q r : BitVec 3), s.threadAt s.core = some t →
    ∀ j ∈ ([.cmpEq p a b, .cmpNe p a b, .cmpLt p a b, .cmpLtu p a b, .cmpLe p a b, .cmpLeu p a b, .pand p q r,
      .por p q r, .pxor p q r, .pnot p q] : List Instr),
      exec j s = .next s' →
      s' = s ∨ (∃ e, s' = takeTrap s s.core t e) ∨
      ∃ u, s' = s.setThread s.core u ∧ SameButPreds t u ∧ ∀ k, k ≠ p → readP u k = readP t k)

/-! ## Memory and handles -/

/-- 04/R94: the check of every use of a handle, its tests in order. -/
def Obligations.HandleCheck : Prop :=
  ∀ (h : Handle) (off : Int) (size : Nat) (need : BitVec 5) (asid : BitVec 14),
    (h.v = false → checkHandle h off size need asid = exn cHandle 0 (some (vaOf h off))) ∧
    (h.v = true → h.asid ≠ asid → checkHandle h off size need asid = exn cHandle 1 (some (vaOf h off))) ∧
    (h.v = true → h.asid = asid → h.rights &&& need ≠ need →
      checkHandle h off size need asid = exn cHandle 2 (some (vaOf h off))) ∧
    (h.v = true → h.asid = asid → h.rights &&& need = need → (off < 0 ∨ (h.len.toNat : Int) < off + size) →
      checkHandle h off size need asid = exn cHandle 3 (some (vaOf h off))) ∧
    (h.v = true → h.asid = asid → h.rights &&& need = need → 0 ≤ off → off + size ≤ (h.len.toNat : Int) →
      checkHandle h off size need asid = .ok (h.base.toNat + off.toNat))

/-- 08/R200: every load and store checks its handle at s(a) + OFF8 × size and then its alignment, and a failing test is a
precise trap that changes nothing else. A store has read its source S by then (08/R190, R202). -/
def Obligations.AccessFaults : Prop :=
  ∀ (s : State) (t : Thread) (d : Reg) (a : Src) (x : Word) (h : BitVec 4) (o : BitVec 8),
    Acts s t → Reads t a x → (∃ l, regLoc t d = .ok l) →
    ∀ e ∈ ([
      (.ldB d a h o, 1, 1), (.ldBu d a h o, 1, 1), (.ldH d a h o, 2, 1), (.ldHu d a h o, 2, 1), (.ldW d a h o, 4, 1),
      (.ldWu d a h o, 4, 1), (.ldD d a h o, 8, 1), (.stB d a h o, 1, 2), (.stH d a h o, 2, 2), (.stW d a h o, 4, 2),
      (.stD d a h o, 8, 2)] : List (Instr × Nat × BitVec 5)),
      (e.2.2 = 2 → ∃ v, Holds t d v) →
      (∀ f, checkHandle (readH t h) (x.toInt + o.toInt * e.2.1) e.2.1 e.2.2 t.asid = .error f →
        exec e.1 s = traps s t f) ∧
      (∀ va, checkHandle (readH t h) (x.toInt + o.toInt * e.2.1) e.2.1 e.2.2 t.asid = .ok va → va % e.2.1 ≠ 0 →
        exec e.1 s = traps s t ⟨cAlign, 0, some (BitVec.ofNat 64 va), 0⟩)

/-- 08/R189, R200, R201: a load whose address passes its tests and whose access yields g: from a resident page of its own
core the value is written at once; otherwise the destination goes empty and a producer holds the value. -/
def Obligations.LoadResults : Prop :=
  ∀ (s : State) (t : Thread) (d : Reg) (a : Src) (x : Word) (h : BitVec 4) (o : BitVec 8),
    Acts s t → Reads t a x → Ready t d →
    ∀ e ∈ ([
      (.ldB d a h o, 1, fun v => BitVec.ofInt 64 (sOf 8 v)), (.ldBu d a h o, 1, BitVec.ofNat 64),
      (.ldH d a h o, 2, fun v => BitVec.ofInt 64 (sOf 16 v)), (.ldHu d a h o, 2, BitVec.ofNat 64),
      (.ldW d a h o, 4, fun v => BitVec.ofInt 64 (sOf 32 v)), (.ldWu d a h o, 4, BitVec.ofNat 64),
      (.ldD d a h o, 8, BitVec.ofNat 64)] : List (Instr × Nat × (Nat → Word))),
      ∀ va tg z g, checkHandle (readH t h) (x.toInt + o.toInt * e.2.1) e.2.1 rR t.asid = .ok va → va % e.2.1 = 0 →
        place s (threadAgent s.core t) va .load = .ok (tg, z) →
        accRead z (threadAgent s.core t) tg e.2.1 (BitVec.ofNat 64 va) = .ok g →
        (g.atCore = true →
          exec e.1 s = .next (g.st.setThread s.core (endTest (writeR t d (e.2.2 (leNat g.bytes))) t.pc))) ∧
        (g.atCore = false → HasRoom t →
          exec e.1 s = .next (g.st.setThread s.core (endTest
            (produce t [d] [e.2.2 (leNat g.bytes)] g.wait g.err (BitVec.ofNat 64 va) d) t.pc)))

/-- 08/R189, R201: `ld.d` from plain device memory. The destination reads empty after it; LONG_LATENCY_PRODUCER_COMPLETE
writes it full with the little-endian doubleword, and memory reads as before throughout. -/
def Obligations.LoadIsDelivered : Prop :=
  ∀ (s : State) (t : Thread) (d : Reg) (l : RegLoc) (a : Src) (x : Word) (h : BitVec 4) (o : BitVec 8) (va pa : Nat),
    Acts s t → runningKey s t.ref = some s.core → Reads t a x → Ready t d → regLoc t d = .ok (some l) → t.prods = [] →
    checkHandle (readH t h) (x.toInt + o.toInt * 8) 8 rR t.asid = .ok va → va % 8 = 0 →
    translate s t.asid va .load = .ok (.dev pa) → badLine s pa = false → liveWindows s t.ref.l = [] →
    (∀ i < 8, windowAt s (pa + i) = none ∧ tabFind (s.die (dieOf (pa + i))).decoded ((pa + i) / 64) = none) →
    pa % 8 = 0 → tabFind (s.die (dieOf (64 * (pa / 64)))).decoded (pa / 64) = none → windowAt s (64 * (pa / 64)) = none →
    ∃ s1 s2 u1 u2, exec (.ldD d a h o) s = .next s1 ∧ s1.threadAt s.core = some u1 ∧ (cellAt u1 l).fill = .empty ∧
      s1.mem = s.mem ∧ exec (.longLatencyProducerComplete s.core 0) s1 = .next s2 ∧ s2.threadAt s.core = some u2 ∧
      cellAt u2 l = ⟨memWord s.mem pa, .full⟩ ∧ s2.mem = s.mem

/-- 08/R200, R202: a store whose address passes its tests, and whose access is made. -/
def Obligations.StoreResults : Prop :=
  ∀ (s : State) (t : Thread) (r : Reg) (a : Src) (x v : Word) (h : BitVec 4) (o : BitVec 8),
    Acts s t → Reads t a x → Holds t r v →
    ∀ e ∈ ([(.stB r a h o, 1), (.stH r a h o, 2), (.stW r a h o, 4), (.stD r a h o, 8)] : List (Instr × Nat)),
      ∀ va tg z w, checkHandle (readH t h) (x.toInt + o.toInt * e.2) e.2 rW t.asid = .ok va → va % e.2 = 0 →
        place s (threadAgent s.core t) va .store = .ok (tg, z) →
        accWrite z (threadAgent s.core t) tg (allBytes (natLe e.2 v.toNat)) (e.2 = 8) (BitVec.ofNat 64 va) = .ok w →
        exec e.1 s = .next (w.st.setThread s.core (endTest (lateStore t w.wait w.err w.undo (BitVec.ofNat 64 va)) t.pc))

/-- 08/R202, 04/R77: the frame of a store to plain device memory. The address is what the handle's check and the
translation give; the form's bytes there hold the low bytes of the register, every other byte of every memory reads as
before, and no register of any thread changes (of the device's registers, only the decode counts of the lines that the
walk and the store touch may rise, 04/R83). 08/R205, R453: an atomic access to plain device memory: its eight bytes
become the new value of the old one, which is what it answers, and every other byte reads as before. -/
def Obligations.MemoryFrame : Prop :=
  (∀ (s : State) (t : Thread) (r : Reg) (a : Src) (x v : Word) (h : BitVec 4) (o : BitVec 8),
    MemoryForm s → Acts s t → Reads t a x → Holds t r v →
    ∀ e ∈ ([(.stB r a h o, 1), (.stH r a h o, 2), (.stW r a h o, 4), (.stD r a h o, 8)] : List (Instr × Nat)),
      ∀ va pa, checkHandle (readH t h) (x.toInt + o.toInt * e.2) e.2 rW t.asid = .ok va → va % e.2 = 0 →
        translate s t.asid va .store = .ok (.dev pa) → inPacked s pa = false →
        covers s (some t.ref.l) pa e.2 = none → (∀ q ∈ tailAddrs s, q + 8 ≤ pa ∨ pa + e.2 ≤ q) →
        ∃ s', exec e.1 s = .next s' ∧
          (∀ k < e.2, memGet s'.mem (pa + k) = BitVec.ofNat 8 (v.toNat / 256 ^ k)) ∧
          (∀ b, b < pa ∨ pa + e.2 ≤ b → memGet s'.mem b = memGet s.mem b) ∧
          s'.sram = s.sram ∧ s'.outside = s.outside ∧ s'.regs = { s.regs with invcode := s'.regs.invcode } ∧
          s'.threadAt s.core = some (endTest t t.pc) ∧ ∀ k, k ≠ s.core → s'.threadAt k = s.threadAt k) ∧
  (∀ (s : State) (t : Thread) (pa op : Nat) (f : Nat → Nat) (ea : Word),
    MemoryForm s → inPacked s pa = false → badLine s pa = false →
    liveWindows s t.ref.l = [] → tailAddrs s = [] →
    ∃ g, accAtomic s (threadAgent s.core t) (.dev pa) 8 op f ea = .ok g ∧ g.bytes = viewBytes s pa 8 ∧ g.err = none ∧
      (∀ k < 8, memGet g.st.mem (pa + k) = BitVec.ofNat 8 (f (leNat (viewBytes s pa 8)) / 256 ^ k)) ∧
      (∀ b, b < pa ∨ pa + 8 ≤ b → memGet g.st.mem b = memGet s.mem b) ∧
      g.st.sram = s.sram ∧ g.st.outside = s.outside ∧ g.st.threads = s.threads)

/-- 08/R205, Table 8.8: an atomic whose access is made answers the old value by a producer and sets pP; one whose target's
member is not up clears pP and has no other effect. -/
def Obligations.AtomicResults : Prop :=
  ∀ (s z : State) (t : Thread) (d : Reg) (a : Src) (x v n : Word) (h : BitVec 4) (p : BitVec 3) (va : Nat) (tg : Target),
    Acts s t → Reads t a x → Holds t d v → checkHandle (readH t h) x.toInt 8 rRWA t.asid = .ok va → va % 8 = 0 →
    place s (threadAgent s.core t) va .atomic = .ok (tg, z) →
    ∀ e ∈ ([
      (.amoAdd d a h p, 0, fun m => (m + v.toNat) % 2 ^ 64),
      (.amoAnd d a h p, 1, fun m => m &&& v.toNat),
      (.amoOr d a h p, 2, fun m => m ||| v.toNat),
      (.amoXor d a h p, 3, fun m => m ^^^ v.toNat),
      (.amoMin d a h p, 4, fun m => if sOf 64 v.toNat < sOf 64 m then v.toNat else m),
      (.amoMinu d a h p, 5, fun m => Nat.min m v.toNat),
      (.amoMax d a h p, 6, fun m => if sOf 64 m < sOf 64 v.toNat then v.toNat else m),
      (.amoMaxu d a h p, 7, fun m => Nat.max m v.toNat),
      (.amoSwap d a h p, 8, fun _ => v.toNat),
      (.amoCas d a h p, 9, fun m => if m = v.toNat then n.toNat else m)] : List (Instr × Nat × (Nat → Nat))),
      (e.2.1 = 9 → Holds t (regAdd d 1) n) →
      (lostTarget z (threadAgent s.core t) tg = true → exec e.1 s = endsWith s t z (writeP t p false)) ∧
      (∀ g, lostTarget z (threadAgent s.core t) tg = false → HasRoom t →
        accAtomic z (threadAgent s.core t) tg 8 e.2.1 e.2.2 (BitVec.ofNat 64 va) = .ok g →
        exec e.1 s = endsWith s t g.st
          (produce (writeP t p true) [d] [BitVec.ofNat 64 (leNat g.bytes)] g.wait g.err (BitVec.ofNat 64 va) d none g.undo
            true))

/-- 08/R203, R207, 15/R366: `nop` only lets the thread go on, and so does `pfetch`, but that the line it names comes into the L2
(08/R203, log 18). So does `fence`, but for what it notes: its thread's later accesses in its storage scope wait for the engine
commands that access that scope, which the step then holds them to (StepRunsDecoded). It notes each wait that there is, and no
other; with no engine command of the thread outstanding, no access to the host and no release write that waits, it notes nothing
(log 1). -/
def Obligations.NoOtherEffect : Prop :=
  ∀ (s : State) (t : Thread) (a : Src) (x : Word) (h : BitVec 4) (o : BitVec 8) (f : BitVec 3) (g : BitVec 4),
    Acts s t →
      exec .nop s = .next (s.setThread s.core (endTest t t.pc)) ∧
      (Reads t a x → exec (.pfetch a h o) s = .next (complete (prefetch s t (readH t h) (x.toInt + o.toInt * 64)) s.core t.pc)) ∧
      (∀ va pa, checkHandle (readH t h) (x.toInt + o.toInt * 64) 1 rR t.asid = .ok va → translate s t.asid va .load = .ok (.dev pa) →
        prefetch s t (readH t h) (x.toInt + o.toInt * 64) = touch (noteWalk s [] t.asid va) pa 1) ∧
      (let waits := fenceWaits s (keyCluster s.core) t f g
       ∃ l, exec (.fence f g) s = .next (s.setThread s.core (endTest { t with barred := t.barred ++ l } t.pc)) ∧
        (∀ w ∈ waits, (⟨w, g⟩ : Barred) ∈ t.barred ++ l) ∧ ∀ b ∈ l, b.ss = g ∧ b.on ∈ waits) ∧
      ((∀ q ∈ (s.cluster (keyCluster s.core)).queues, q.2.entries = [] ∧ q.2.sched = none) →
        (∀ i ∈ (s.cluster (keyCluster s.core)).islands, i.2.order = []) → (∀ x ∈ s.podOps, x.owner ≠ t.ref) →
        (∀ c ∈ s.kvCopies, (kvCopyOf s c.2).1 ≠ t.ref) → (∀ p ∈ t.prods, p.wait ≠ some .host) → t.rels = [] →
        exec (.fence f g) s = .next (s.setThread s.core (endTest t t.pc)))

/-- 04/R95: the handle instructions. -/
def Obligations.HandleInstructions : Prop :=
  ∀ (s : State) (t : Thread) (d e h : BitVec 4) (r : Reg) (a b : Src) (x y : Word) (m : BitVec 5) (p : BitVec 3),
    Acts s t →
    (Reads t a x → Reads t b y → (readH t h).v = true → (readH t h).asid = t.asid →
      (readH t h).rights.getLsbD 4 = true → x.toNat + y.toNat ≤ (readH t h).len.toNat →
      exec (.hsub d a b h) s = ends s t (writeH t d { readH t h with
        base := (readH t h).base + x.setWidth 56, len := y.setWidth 48 })) ∧
    ((readH t h).v = true →
      exec (.hrights d h m) s = ends s t (writeH t d { readH t h with rights := (readH t h).rights &&& m })) ∧
    ((readH t h).v = false → exec (.hrights d h m) s = traps s t ⟨cHandle, 0, none, 0⟩) ∧
    exec (.hmov d h) s = ends s t (writeH t d (readH t h)) ∧
    (Ready t r → exec (.hbase r h) s = ends s t (writeR t r ((readH t h).base.setWidth 64)) ∧
      exec (.hlen r h) s = ends s t (writeR t r ((readH t h).len.setWidth 64))) ∧
    (Reads t a x → Holds t r y → exec (.hcheck r a h p m) s = ends s t (writeP t p
      ((readH t h).v && decide ((readH t h).asid = t.asid) && decide ((readH t h).rights &&& m = m) &&
        decide (x.toNat + y.toNat ≤ (readH t h).len.toNat)))) ∧
    (readH (writeH t d (readH t h)) d = readH t h ∧ (e ≠ d → readH (writeH t d (readH t h)) e = readH t e))

/-- 04/R87: `fmt.win` needs privilege; with it, a window below 128 and a descriptor that passes the rule's tests, the
descriptor takes effect, and it alone (lines of the views may leave the L2). -/
def Obligations.FormatWindow : Prop :=
  ∀ (s s' : State) (t : Thread) (r : Reg) (a : Src) (x w : Word) (h : BitVec 4) (o : BitVec 8) (va : Nat) (b : List Byte),
    Acts s t → Reads t a x → Holds t r w →
    (t.priv = false → exec (.fmtWin r a h o) s = traps s t ⟨cPriv, 0, none, 0⟩) ∧
    (t.priv = true → checkHandle (readH t h) (x.toInt + o.toInt * 32) 32 rR t.asid = .ok va →
      readIssue s (threadAgent s.core t) va 32 = .ok (b, s') →
      (128 ≤ w.toNat → exec (.fmtWin r a h o) s = traps s t ⟨cFormat, 0, none, 0⟩) ∧
      (w.toNat < 128 →
        descriptorBad s (w.toNat / 64) (w.toNat % 64) (BitVec.ofNat 256 (leNat b)) = false ∨
          winEn (BitVec.ofNat 256 (leNat b)) = false →
        exec (.fmtWin r a h o) s = endsIn s t (setWindow s' (w.toNat / 64) (w.toNat % 64) (BitVec.ofNat 256 (leNat b))))) ∧
    (∀ die i e, let z := setWindow s die i e
      (z.die die).windows = tabPut (s.die die).windows i e ∧ (∀ j, j ≠ die → (z.die j).windows = (s.die j).windows) ∧
      z.mem = s.mem ∧ z.sram = s.sram ∧ z.threads = s.threads ∧ z.regs = s.regs)

/-! ## Control, channels and faults -/

/-- 15/R344, R345, 02/R24: branches, jumps and calls. A target is the instruction's address plus 4 × OFF21, or a register,
which must be a multiple of 4; a call makes a frame of eight registers that overlap the caller's last eight. -/
def Obligations.Transfers : Prop :=
  ∀ (s : State) (t : Thread) (p : BitVec 3) (n : Bool) (o : BitVec 21) (a : Src) (x : Word), Acts s t →
    let go := fun (target : Word) => Host.Outcome.next (s.setThread s.core (transfer t target))
    let callTo := fun (target : Word) => Host.Outcome.next (s.setThread s.core { t with
      callers := ⟨t.base, t.fsize, t.ret, t.entered⟩ :: t.callers, base := (t.base + t.fsize + 504) % 512, fsize := 8
      entered := false, ret := t.pc + 4, depth := t.depth + 1, nres := t.nres + 1, pc := target })
    let target := t.pc + 4 * o.signExtend 64
    exec (.br p n o) s = (if readP t p != n then go target else ends s t t) ∧
    exec (.jmp o) s = go target ∧
    exec (.call o) s = callTo target ∧
    (Reads t a x → x.toNat % 4 = 0 → exec (.jr a) s = go x ∧ exec (.callr a) s = callTo x) ∧
    (Reads t a x → x.toNat % 4 ≠ 0 → exec (.jr a) s = traps s t ⟨cAlign, 0, none, 0⟩ ∧
      exec (.callr a) s = traps s t ⟨cAlign, 0, none, 0⟩)

/-- 15/R349: the end test. A loop of the current frame whose end is the address goes round again while more than one
iteration remains, and is popped with the last; the next entry is then tested in its turn. -/
def Obligations.EndTest : Prop :=
  ∀ (t : Thread) (x : Word) (e : LoopEntry) (r : List LoopEntry),
    (endTest { t with loops := [] } x = { t with loops := [], pc := x + 4 }) ∧
    (t.loops = e :: r → (loopActive t e = false ∨ e.stop ≠ x) → endTest t x = { t with pc := x + 4 }) ∧
    (t.loops = e :: r → loopActive t e = true → e.stop = x → 1 < e.rem.toNat →
      endTest t x = { t with pc := e.start, loops := { e with rem := e.rem - 1 } :: r }) ∧
    (t.loops = e :: r → loopActive t e = true → e.stop = x → e.rem.toNat ≤ 1 →
      endTest t x = endTest { t with loops := r } x)

/-- 15/R346, 08/R183: `enter` in a frame that is not entered sets the frame's size and clears `w8` up, older frames
spilled first when they do not fit beside it; in an entered frame it is an illegal-instruction trap, and so is every
other instruction of a control thread, whatever its operands, in one that is not. Of `srd` and `swr` with a reserved number, for
which 08/R194 names the sub-cause *encoding*, it is the model's choice that the frame is tested first (log 17), as it
is of `fmt.win` and `cpart` without privilege (log 72). -/
def Obligations.FrameEntry : Prop :=
  ∀ (s : State) (t : Thread) (n : BitVec 12) (i : Instr), s.threadAt s.core = some t →
    (t.entered = false → residWith t n.toNat ≤ 480 →
      exec (.enter n) s = .next (s.setThread s.core (endTest
        (zeroFile { t with fsize := n.toNat, entered := true } (framePositions t 8 n.toNat)) t.pc))) ∧
    (∀ s' t', t.entered = false → spillFor s.core n.toNat (t.nres + 1) (s, t) = .ok (s', t') →
      exec (.enter n) s = .next (s'.setThread s.core (endTest
        (zeroFile { t' with fsize := n.toNat, entered := true } (framePositions t' 8 n.toNat)) t'.pc))) ∧
    (t.entered = true → exec (.enter n) s = traps s t ⟨cIllegal, 1, none, 0⟩) ∧
    (t.entered = false → i.fabricOpc = none → encode i ≠ [] → (∀ m, i ≠ .enter m) →
      exec i s = traps s t ⟨cIllegal, 1, none, 0⟩)

/-- 15/R347: `ret`. From a frame that is not the outermost the caller's frame is current again, with its size, and the
thread goes on at the link; a frame that is not in the file is filled first; a producer into the frame is waited for;
from the outermost frame it is `chan.yield`. 15/R343: a return address that a filled frame's record gives is a multiple of 4. -/
def Obligations.Return : Prop :=
  ∀ (s s' : State) (t t' : Thread) (f f' : FrameRec) (r : List FrameRec) (e : Exn), Acts s t →
    (t.depth = 1 → exec .ret s = exec .chanYield s) ∧
    (t.depth ≠ 1 → prodInto t (framePositions t 8 t.fsize) = true → exec .ret s = .next s) ∧
    (t.depth ≠ 1 → t.callers = f :: r → 2 ≤ t.nres → prodInto t (framePositions t 8 t.fsize) = false →
      ∃ u, exec .ret s = .next (s.setThread s.core u) ∧ u.pc = t.ret ∧ u.base = f.base ∧ u.fsize = f.size ∧
        u.ret = f.ret ∧ u.entered = true ∧ u.depth = t.depth - 1 ∧ u.callers = r ∧ u.g = t.g ∧ u.win = t.win ∧
        u.p = t.p ∧ u.h = t.h ∧ u.loops = t.loops.dropWhile (loopActive t)) ∧
    (t.depth ≠ 1 → t.callers = f :: r → t.nres < 2 → prodInto t (framePositions t 8 t.fsize) = false →
      (fillFrame s s.core t f = .error e → exec .ret s = traps s t e) ∧
      (fillFrame s s.core t f = .ok (s', t', f') →
        exec .ret s = .next (s'.setThread s.core (popFrame t' f 1 f'.ret)) ∧ f'.ret.toNat % 4 = 0))

/-- 15/R348: `loop` and `loopr`. With a count of at least 1 the loop is pushed and its body begins; a count of 0 skips it;
a count above 2^24 - 1, a body whose last word may not end one, and a fifth loop are traps. -/
def Obligations.Loops : Prop :=
  ∀ (s z z' : State) (t : Thread) (c : BitVec 24) (e : BitVec 8) (a : Src) (x : Word) (b b' : List Byte), Acts s t →
    let last := fun (start : Word) => start + BitVec.ofNat 64 (4 * (e.toNat - 1))
    let pushed := fun (z : State) (start : Word) (n : Nat) => Host.Outcome.next (z.setThread s.core { t with
      loops := ⟨start, last start, e, BitVec.ofNat 24 n, t.depth, t.base⟩ :: t.loops, pc := start })
    fetchWord s s.core t (last (t.pc + 8)) = .ok (b, z) → fetchWord s s.core t (last (t.pc + 4)) = .ok (b', z') →
    Reads t a x →
    (endForbidden (wordOfBytes b) = true → exec (.loop c e) s = traps s t ⟨cIllegal, 3, none, 0⟩) ∧
    (endForbidden (wordOfBytes b) = false → 4 ≤ t.loops.length →
      exec (.loop c e) s = traps s t ⟨cIllegal, 4, none, 0⟩) ∧
    (endForbidden (wordOfBytes b) = false → t.loops.length < 4 → 0 < c.toNat →
      exec (.loop c e) s = pushed z (t.pc + 8) c.toNat) ∧
    (endForbidden (wordOfBytes b) = false → t.loops.length < 4 → c = 0 →
      exec (.loop c e) s = .next (z.setThread s.core (endTest t (last (t.pc + 8))))) ∧
    (2 ^ 24 ≤ x.toNat → exec (.loopr a e) s = traps s t ⟨cIllegal, 2, none, 0⟩) ∧
    (x.toNat < 2 ^ 24 → endForbidden (wordOfBytes b') = true → exec (.loopr a e) s = traps s t ⟨cIllegal, 3, none, 0⟩) ∧
    (x.toNat < 2 ^ 24 → endForbidden (wordOfBytes b') = false → 4 ≤ t.loops.length →
      exec (.loopr a e) s = traps s t ⟨cIllegal, 4, none, 0⟩) ∧
    (x.toNat < 2 ^ 24 → endForbidden (wordOfBytes b') = false → t.loops.length < 4 → 0 < x.toNat →
      exec (.loopr a e) s = pushed z' (t.pc + 4) x.toNat) ∧
    (x = 0 → endForbidden (wordOfBytes b') = false → t.loops.length < 4 →
      exec (.loopr a e) s = .next (z'.setThread s.core (endTest t (last (t.pc + 4)))))

/-- 17/R391, Table 17.2: what delivery saves and where it goes, for a thread that has a handler and is not in fault mode. -/
def Obligations.FaultEntry : Prop :=
  ∀ (s : State) (key : Nat) (t : Thread) (f : FaultRec) (epc : Word),
    s.threadAt key = some t → t.saved = none → t.fvec ≠ 0 → t.base < 512 → t.fsize ≤ 32 →
    ∃ u, deliver s key f epc = s.setThread key u ∧
      u.pc = t.fvec ∧ u.ecause = f.cause ∧ u.epc = epc ∧ u.eaddr = f.addr ∧ u.ewho = f.who ∧
      u.saved = some ⟨epc, t.base, t.fsize, t.entered, t.depth, t.loops, t.priv, t.ret, t.callers.length⟩ ∧
      u.base = (t.base + Nat.max t.fsize 8) % 512 ∧ u.fsize = 32 ∧ u.entered = true ∧ u.loops = [] ∧ u.depth = 1 ∧
      readField u 16 = .ok f.cause ∧ readField u 17 = .ok epc ∧ readField u 18 = .ok f.addr ∧ readField u 19 = .ok f.who ∧
      (∀ i, 4 ≤ i → i < 32 → readField u (BitVec.ofNat 6 (16 + i)) = .ok 0) ∧
      (∀ i, i < t.fsize → cellAt u (.file ((t.base + i) % 512)) = cellAt t (.file ((t.base + i) % 512))) ∧
      u.g = t.g ∧ u.p = t.p ∧ u.h = t.h ∧ u.flags = t.flags ∧ u.prods = t.prods ∧ u.priv = t.priv

/-- 15/R364, 02/R31, 17 Table 17.1: `trap`, `brk` and a word that is no instruction take their faults; the saved PC is the
next instruction for `trap`, and the instruction itself otherwise. That such a word takes the sub-cause *encoding* also in a frame
that has not been entered is the model's choice (log 17). -/
def Obligations.TrapInstructions : Prop :=
  ∀ (s : State) (t : Thread) (c : BitVec 8) (w : W32), s.threadAt s.core = some t →
    let code := fun (e : Exn) => (recordOf s srcInstr e 0).1
    (t.entered = true →
      exec (.trap c) s = .next (deliver (recordOf s srcInstr ⟨cTrap, 0, none, c⟩ 0).2 s.core
        (code ⟨cTrap, 0, none, c⟩) (t.pc + 4)) ∧
      exec (.brk c) s = .next (deliver (recordOf s srcInstr ⟨cBreak, 0, none, c⟩ 0).2 s.core
        (code ⟨cBreak, 0, none, c⟩) t.pc) ∧
      bits (code ⟨cTrap, 0, none, c⟩).cause.toNat 7 0 = 0x18 ∧ bits (code ⟨cTrap, 0, none, c⟩).cause.toNat 31 24 = c.toNat ∧
      bits (code ⟨cBreak, 0, none, c⟩).cause.toNat 7 0 = 0x19 ∧
      bits (code ⟨cBreak, 0, none, c⟩).cause.toNat 31 24 = c.toNat) ∧
    (t.entered = true → t.saved = none → t.fvec ≠ 0 →
      (∃ u v, exec (.trap c) s = .next u ∧ u.threadAt s.core = some v ∧ v.epc = t.pc + 4 ∧ v.pc = t.fvec ∧
        bits v.ecause.toNat 7 0 = 0x18 ∧ bits v.ecause.toNat 31 24 = c.toNat) ∧
      (∃ u v, exec (.brk c) s = .next u ∧ u.threadAt s.core = some v ∧ v.epc = t.pc ∧ v.pc = t.fvec ∧
        bits v.ecause.toNat 7 0 = 0x19 ∧ bits v.ecause.toNat 31 24 = c.toNat)) ∧
    exec (.illegalInstruction w) s = .next (deliver (recordOf s srcInstr ⟨cIllegal, 0, none, 0⟩ 0).2 s.core
      (code ⟨cIllegal, 0, none, 0⟩) t.pc)

/-- 17/R393: `eret` with the interrupted frame in the file restores what delivery saved and goes on at `EPC`, one that is not
there being filled first; 04/R97: where the fault was a stream's, its queued elements are then tried again; outside fault
mode, or inside a call of the handler, it is an illegal-instruction trap. 17/R394: a fault in fault mode, or with no handler
(`FVEC` = 0), kills the launch and is posted to the management mailbox. -/
def Obligations.FaultReturn : Prop :=
  (∀ (s : State) (t : Thread) (c : SavedCtx), Acts s t →
    let again := fun (z : State) => match t.estream with
      | some x => Host.Outcome.next (respill z t.ref x)
      | none => .next z
    (t.saved = none → exec .eret s = traps s t ⟨cIllegal, 0, none, 0⟩) ∧
    (t.saved = some c → t.depth ≠ 1 → exec .eret s = traps s t ⟨cIllegal, 0, none, 0⟩) ∧
    (t.saved = some c → t.depth = 1 → 2 ≤ t.nres → prodInto t (framePositions t 0 t.fsize) = false →
      ∃ u, exec .eret s = again (s.setThread s.core u) ∧ u.saved = none ∧ u.estream = none ∧ u.pc = t.epc ∧
        u.base = c.base ∧ u.fsize = c.fsize ∧ u.entered = c.entered ∧ u.depth = c.depth ∧ u.loops = c.loops ∧
        u.priv = c.priv ∧ u.ret = c.ret ∧ u.g = t.g ∧ u.win = t.win ∧ u.p = t.p ∧ u.h = t.h) ∧
    (t.saved = some c → t.depth = 1 → prodInto t (framePositions t 0 t.fsize) = false →
      (∀ z u, leaveFault s s.core t c = .ok (z, u) → exec .eret s = again (z.setThread s.core u)) ∧
      ∀ e, leaveFault s s.core t c = .error e → exec .eret s = traps s t e)) ∧
  (∀ (s : State) (key : Nat) (t : Thread) (f : FaultRec) (epc : Word), s.threadAt key = some t →
    t.saved.isSome ∨ t.fvec = 0 →
    ∃ s', deliver s key f epc = s' ∧ s' = postEvent (killLaunch s t.ref.l) .kill f.cause f.addr f.who ∧
      s'.mbox.posted = (killLaunch s t.ref.l).mbox.posted + 1 ∧
      tabGet s'.mbox.ring ((killLaunch s t.ref.l).mbox.posted.toNat % 96) ⟨.member, 0, 0, 0⟩ =
        ⟨.kill, f.cause, f.addr, f.who⟩)

/-- 17/R390, R392, 08/R193: at an instruction boundary outside fault mode a late fault is delivered, or else the oldest
waiting asynchronous fault; one delivered frees its place in the queue, which a fault waiting at its source then
takes. -/
def Obligations.BoundaryFaults : Prop :=
  ∀ (s : State) (t : Thread) (f : FaultRec) (r : List FaultRec), s.threadAt s.core = some t → t.saved = none →
    (t.late = f :: r →
      exec .faultDelivery s = .next (deliver (s.setThread s.core { t with late := r }) s.core f t.pc)) ∧
    (t.late = [] → t.fq = f :: r →
      exec .faultDelivery s =
        .next (deliver (admitWaiting (s.setThread s.core { t with fq := r }) t.ref) s.core f t.pc)) ∧
    (t.late = [] → t.fq = [] → exec .faultDelivery s = .next s)

/-- 08/R194, Tables 8.4 and 8.6, 15/R366, Table 15.9, 17 Table 17.2: reading and writing special registers, and the value
that the tables give to each register that is read-only or computed. A loop level that holds no entry reads 0 (Reset). -/
def Obligations.SpecialRegisters : Prop :=
  ∀ (s : State) (t : Thread) (d : Reg) (a : Src) (r : BitVec 8) (v x : Word), Acts s t → Ready t d → Reads t a x →
    (readSpecial s s.core t r.toNat = some v → exec (.srd d r) s = ends s t (writeR t d v)) ∧
    (readSpecial s s.core t r.toNat = none → exec (.srd d r) s = traps s t ⟨cIllegal, 0, none, 0⟩) ∧
    (0x33 ≤ r.toNat → readSpecial s s.core t r.toNat = none) ∧
    (let reads := fun (n : Nat) (w : Word) => readSpecial s s.core t n = some w;
      reads 0x00 (t.flags.setWidth 64) ∧
      reads 0x01 (BitVec.ofNat 64 s.cycle) ∧
      reads 0x02 (BitVec.ofNat 64 s.core) ∧
      reads 0x03 (t.asid.setWidth 64) ∧
      reads 0x04 (t.cls.setWidth 64) ∧
      reads 0x09 t.csp ∧ reads 0x0A (BitVec.ofNat 64 (2048 * t.carve)) ∧ reads 0x0B t.osp ∧ reads 0x0C t.ovbase ∧
      reads 0x0D t.ovlen ∧
      reads 0x0E (BitVec.ofNat 64 (t.prods.filter (·.counted)).length) ∧
      (t.base < 512 → t.fsize ≤ 32 → ∃ w, reads 0x08 w ∧ bits w.toNat 5 0 = t.fsize ∧ bits w.toNat 15 6 = 0 ∧
        bits w.toNat 31 16 = t.depth % 65536 ∧ bits w.toNat 40 32 = t.base ∧ bits w.toNat 49 41 = resid t ∧
        bits w.toNat 63 50 = 0) ∧
      (t.loops.length ≤ 4 → ∃ w, reads 0x20 w ∧ bits w.toNat 2 0 = t.loops.length ∧ bits w.toNat 63 7 = 0 ∧
        ∀ k < 4, bit w.toNat (3 + k) = (t.loops[k]?).any (loopActive t)) ∧
      (∀ k < 4, ∃ w, reads (0x21 + k) w ∧
        (∀ e, t.loops[k]? = some e → bits w.toNat 23 0 = e.rem.toNat ∧ bits w.toNat 31 24 = e.e.toNat ∧
          bits w.toNat 63 32 = 0 ∧ reads (0x25 + k) e.start) ∧
        (t.loops[k]? = none → w = 0 ∧ reads (0x25 + k) 0)) ∧
      (t.chrun < 16 → ∃ w, reads 0x29 w ∧ bits w.toNat 3 0 = t.chrun ∧ bit w.toNat 4 = t.priv ∧ bits w.toNat 63 5 = 0) ∧
      (∃ w, reads 0x2A w ∧ bits w.toNat 63 16 = 0 ∧ ∀ c < 16, bit w.toNat c = (!(channel t c).box.isEmpty)) ∧
      reads 0x2B t.ecause ∧ reads 0x2C t.epc ∧ reads 0x2D t.eaddr ∧ reads 0x2E t.ewho ∧ reads 0x2F t.esave ∧
      reads 0x30 t.fvec ∧ reads 0x31 (BitVec.ofNat 64 t.fq.length) ∧ reads 0x32 (if t.saved.isSome then 1 else 0)) ∧
    exec (.swr a 0x00) s = ends s t { t with flags := x.setWidth 6 } ∧
    exec (.swr a 0x30) s = ends s t { t with fvec := x &&& 0xFFFFFFFFFFFFFFFC } ∧
    (∀ e ∈ ([
        (0x09, { t with csp := x &&& 0xFFFFFFFFFFFFFFF8 }),
        (0x0B, { t with osp := x &&& 0xFFFFFFFFFFFFFFF8 }),
        (0x0C, { t with ovbase := x &&& 0x00FFFFFFFFFFFFF8 }),
        (0x0D, { t with ovlen := x &&& 0xFFFFFFFFFFFFFFF8 })] : List (BitVec 8 × Thread)),
      exec (.swr a e.1) s = if t.priv then ends s t e.2 else traps s t ⟨cPriv, 0, none, 0⟩) ∧
    (∀ e ∈ ([
        (0x2B, { t with ecause := x &&& 0xFFF0FFFF }),
        (0x2C, { t with epc := x &&& 0xFFFFFFFFFFFFFFFC })] : List (BitVec 8 × Thread)),
      exec (.swr a e.1) s = if t.saved.isSome then ends s t e.2 else traps s t ⟨cIllegal, 0, none, 0⟩) ∧
    (r ∉ ([0x00, 0x09, 0x0B, 0x0C, 0x0D, 0x2B, 0x2C, 0x30] : List (BitVec 8)) →
      exec (.swr a r) s = traps s t ⟨cIllegal, 0, none, 0⟩)

/-- 15/R353-R355: binding, raising, yielding and choosing channels. 15/R355: an idle thread enters the channel that the
arbiter chooses: the oldest message is taken, `w0` holds it and `w1` the channel's number, the frame has eight cleared
registers otherwise and is not entered; with no channel to enter it idles. The model's readings: a thread that a restart label
waits for takes that label as its PC when it next enters a channel (log 53), and `chan.yield` keeps the base of the frame (log
45). -/
def Obligations.ChannelInstructions : Prop :=
  (∀ (s : State) (t u : Thread) (d : Reg) (a : Src) (p : BitVec 3) (x w : Word), Acts s t → Reads t a x → Holds t d w →
    let c := bits w.toNat 3 0
    let ch := channel t c
    let withChannel := fun (t : Thread) (c : Nat) (k : Channel) => { t with chans := tabPut t.chans c k }
    let other := 64 * keyCluster s.core + bits w.toNat 9 4
    (bits w.toNat 63 9 = 0 → x.toNat % 4 = 0 → (bit w.toNat 8 = true → t.priv = true) →
      (bit w.toNat 7 = true ∨ ch.box = []) →
      exec (.chanBind d a p) s = ends s t (writeP (withChannel t c
        ⟨BitVec.ofNat 3 (bits w.toNat 6 4), bit w.toNat 7, bit w.toNat 8, x, ch.box⟩) p true)) ∧
    (bits w.toNat 63 9 = 0 → x.toNat % 4 = 0 → bit w.toNat 8 = true → t.priv = false →
      exec (.chanBind d a p) s = traps s t ⟨cPriv, 0, none, 0⟩) ∧
    (bits w.toNat 63 10 = 0 → bits w.toNat 9 4 < 48 → other ≠ s.core → s.threadAt other = some u → u.asid = t.asid →
      (channel u c).en = true → (channel u c).box.length < 4 →
      ∃ s', exec (.chanRaise d a p) s = .next s' ∧ s'.threadAt s.core = some (endTest (writeP t p true) t.pc) ∧
        s'.threadAt other =
          some (withChannel u c ⟨(channel u c).pri, (channel u c).en, (channel u c).priv, (channel u c).entry,
            (channel u c).box ++ [x]⟩)) ∧
    (bits w.toNat 63 10 = 0 → bits w.toNat 9 4 = 63 → ch.en = true → ch.box.length < 4 →
      ∃ s', exec (.chanRaise d a p) s = .next s' ∧ s'.threadAt s.core =
        some (endTest (withChannel (writeP t p true) c ⟨ch.pri, ch.en, ch.priv, ch.entry, ch.box ++ [x]⟩) t.pc)) ∧
    (bits w.toNat 63 10 = 0 → bits w.toNat 9 4 < 48 → (∀ v, s.threadAt other = some v → canRaise v t.asid c = false) →
      exec (.chanRaise d a p) s = ends s t (writeP t p false)) ∧
    (t.saved = none → prodIntoFile t = false →
      exec .chanYield s = .next (channelChoice (s.setThread s.core { t with
        fsize := 0, depth := 0, entered := false, ret := 0, callers := [], nres := 0, csp := 0, osp := 0, loops := []
        running := false }) s.core)) ∧
    (t.saved.isSome = true → exec .chanYield s = traps s t ⟨cIllegal, 0, none, 0⟩)) ∧
  (∀ (s : State) (t : Thread) (c : Nat) (m : Word) (r : List Word), s.threadAt s.core = some t → t.running = false →
    (chooseChannel t = some c → (channel t c).box = m :: r →
      ∃ u, exec .channelEntry s = .next (s.setThread s.core u) ∧ (channel u c).box = r ∧ u.chrun = c ∧
        u.priv = (channel t c).priv ∧ u.pc = t.relabel.getD (channel t c).entry ∧ u.running = true ∧ u.base = 0 ∧
        u.fsize = 0 ∧ u.entered = false ∧ u.depth = 1 ∧ cellAt u (.file 0) = ⟨m, .full⟩ ∧
        cellAt u (.file 1) = ⟨BitVec.ofNat 64 c, .full⟩ ∧ (∀ i, 2 ≤ i → i < 8 → cellAt u (.file i) = ⟨0, .full⟩) ∧
        u.g = t.g ∧ u.h = t.h) ∧
    (chooseChannel t = none → (∃ k < 16, (channel t k).en = true) ∨ outst t ≠ 0 →
      exec .channelEntry s = .next (s.setThread s.core { t with running := false })))

/-- 15/R360: `qput` and `qget` on a well-formed queue. 15/R361, R362: `bar.arrive` counts arrivals and completes a phase
with the last; `bar.wait` and `bar.test` read. -/
def Obligations.QueuesAndBarriers : Prop :=
  (∀ (s z z1 z2 z3 : State) (t : Thread) (d : Reg) (a : Src) (h : BitVec 4) (p : BitVec 3) (v : Word)
    (va pa hd spa w : Nat), Acts s t → (∃ x, Reads t a x) → queueOpen s s.core t a h = .ok (va, pa, hd, z) →
    let n := 2 ^ bits hd 67 64
    let put := bits hd 31 0
    let get := bits hd 63 32
    let ag := threadAgent s.core t
    let slot := fun (n' : Nat) => va + 64 + 8 * (n' % n)
    (Holds t d v → sub32 put get = n → exec (.qput d a h p) s = endsWith s t z (writeP t p false)) ∧
    (Holds t d v → sub32 put get ≠ n → queuePa z s.core t (slot put) = .ok (spa, z1) →
      queueWrite z1 ag spa 8 v.toNat (slot put) = .ok z2 → queueWrite z2 ag pa 4 (put + 1) va = .ok z3 →
      exec (.qput d a h p) s = endsWith s t z3 (writeP t p true)) ∧
    (Ready t d → put = get → exec (.qget d a h p) s = endsWith s t z (writeP t p false)) ∧
    (Ready t d → put ≠ get → queuePa z s.core t (slot get) = .ok (spa, z1) →
      queueRead z1 ag spa 8 (slot get) = .ok (w, z2) → queueWrite z2 ag (pa + 4) 4 (get + 1) va = .ok z3 →
      exec (.qget d a h p) s = endsWith s t z3 (writeP (writeR t d (BitVec.ofNat 64 w)) p true))) ∧
  (∀ (s : State) (t : Thread) (d : Reg) (a : Src) (p : BitVec 3) (x : Word), Acts s t → Reads t a x → Ready t d →
    let c := keyCluster s.core
    let b := s.barrier c (bits x.toNat 7 0)
    let nb := bits x.toNat 31 16
    let with' := fun (b' : Barrier) => s.updCluster c fun y => { y with bars := tabPut y.bars (bits x.toNat 7 0) b' }
    (bits x.toNat 15 8 = 0 → bits x.toNat 63 32 = 0 → nb ≠ 0 → (0 < b.arr → nb = b.nb ∧ t.asid = b.asid) →
      exec (.barArrive d a p) s =
        (if b.arr + 1 = nb then
          .next ((with' ⟨b.phase + 1, 0, nb, t.asid⟩).setThread s.core
            (endTest (writeP (writeR t d (b.phase.setWidth 64)) p true) t.pc))
        else
          .next ((with' ⟨b.phase, b.arr + 1, nb, t.asid⟩).setThread s.core
            (endTest (writeP (writeR t d (b.phase.setWidth 64)) p false) t.pc)))) ∧
    (bits x.toNat 31 8 = 0 →
      exec (.barWait d a p) s = ends s t (writeP (writeR t d (b.phase.setWidth 64)) p
        (decide (1 ≤ sub32 b.phase.toNat (bits x.toNat 63 32) ∧ sub32 b.phase.toNat (bits x.toNat 63 32) ≤ 2 ^ 31))) ∧
      exec (.barTest d a p) s = ends s t (writeP (writeR t d (b.phase.setWidth 64)) p
        (decide (b.phase.toNat % 2 ≠ bits x.toNat 63 32 % 2)))))

/-! ## Streamers, rings, scratch, curds -/

/-- 05/R128-R131, R134: the instructions of streamer queues. The ring object and the schedule are read through the L2
(05/R102, R103), and what is accepted waits for the fence its thread issued (08/R207). 05/R134: what a `qfence` joins is named
in every queue it names: an entry accepted there afterwards waits for every entry that the named queues held, and no element
of it moves while one of them is not complete; it changes nothing else. -/
def Obligations.StreamerInstructions : Prop :=
  ∀ (s s' : State) (t : Thread) (d : Reg) (a : Src) (h : BitVec 4) (p : BitVec 3) (isl : BitVec 2) (q : BitVec 3)
    (x y : Word) (r : Shape) (pa va : Nat) (b : List Byte) (m : BitVec 8), Acts s t →
    let c := keyCluster s.core
    let sq := s.squeue c isl.toNat q.toNat
    (Reads t a x → Holds t d y →
      readShape s (threadAgent s.core t) (readH t h) x (fun k => readH t (BitVec.ofNat 4 k)) 0 0 = .ok (r, s') →
      ringAt s' t.asid (readH t h) y.toInt = .ok pa → ringWf (ringGet s' pa) = true →
      let z := touchRing s' t.asid (readH t h) y.toInt pa
      exec (.cpIssue d a h p isl q) s =
        (if (s'.squeue c isl.toNat q.toNat).sched.isSome ∨ 16 ≤ (s'.squeue c isl.toNat q.toNat).entries.length ∨
            sub32 (rgIp (ringGet s' pa)) (rgRp (ringGet s' pa)) = rgN (ringGet s' pa) then
          endsWith s t z (writeP t p false)
        else
          endsWith s t (acceptEntry z c isl.toNat q.toNat r (readH t (BitVec.ofNat 4 r.sh))
            (readH t (BitVec.ofNat 4 r.dh)) (readH t h) y pa t.asid t.cls t.ref (keyCore s.core) t.barred)
            (writeP t p true))) ∧
    (Reads t a x → checkHandle (readH t h) x.toInt 64 rRX t.asid = .ok va →
      readIssue s (threadAgent s.core t) va 64 = .ok (b, s') → schedOk (leNat b) = true → x.toNat % 64 = 0 →
      exec (.cpSched a h p isl q) s =
        (if queueIdle (s'.squeue c isl.toNat q.toNat) then
          endsWith s t (s'.updSqueue c isl.toNat q.toNat fun z => { z with
            sched := some (mkSched (leNat b) t.h (readH t h) x t.asid t.cls t.ref (keyCore s.core)
              (addGate t.barred 0 [])) }) (writeP t p true)
        else endsWith s t s' (writeP t p false))) ∧
    (Reads t a x → Ready t d → ∀ k, sq.sched = some k →
      exec (.cpAdv d a p isl q) s =
        endsWith s t (s.updSqueue c isl.toNat q.toNat fun z => { z with
          halt := none, haltPage := none
          sched := some { k with
            sc := Nat.min (k.sc + x.toNat) k.total
            gates := if k.sc < Nat.min (k.sc + x.toNat) k.total then addGate t.barred k.sc k.gates else k.gates } })
          (writeP (writeR t d (BitVec.ofNat 64 (Nat.min (k.sc + x.toNat) k.total))) p true)) ∧
    (Reads t a x → Ready t d → sq.sched = none →
      exec (.cpAdv d a p isl q) s =
        endsWith s t (s.updSqueue c isl.toNat q.toNat fun z => { z with halt := none, haltPage := none, sched := none })
          (writeP (writeR t d 0) p false)) ∧
    (Ready t d → exec (.cpStatus d p isl q) s = ends s t (writeP (writeR t d (BitVec.ofNat 64
      (sq.donecnt.toNat * 2 ^ 32 + haltCode sq.halt * 2 ^ 8 + b2n sq.halt.isSome * 2 ^ 6 + b2n sq.sched.isSome * 2 ^ 5 +
        sq.entries.length))) p (sq.entries.isEmpty && sq.sched.isNone && sq.halt.isNone))) ∧
    (∃ s1, exec (.qfence isl m) s = endsIn s t s1 ∧ s1.mem = s.mem ∧ s1.sram = s.sram ∧ s1.threads = s.threads ∧
      s1.regs = s.regs ∧
      (∀ j k, j < 8 → k < 8 → m.getLsbD j = true → m.getLsbD k = true →
        ∀ e ∈ (s.squeue c isl.toNat k).entries, e.num ∈ (s1.squeue c isl.toNat j).fence) ∧
      (∀ i j, (s1.squeue c i j).entries = (s.squeue c i j).entries) ∧
      (∀ i j, i ≠ isl.toNat ∨ m.getLsbD j = false → j < 8 → s1.squeue c i j = s.squeue c i j)) ∧
    (∀ (r : Shape) (e f g : Handle) (o : Word) (n i j : Nat) (l : List Barred),
      ∃ y, (acceptEntry s c i j r e f g o n t.asid t.cls t.ref (keyCore s.core) l).squeue c i j =
          { s.squeue c i j with entries := (s.squeue c i j).entries ++ [y] } ∧ y.after = (s.squeue c i j).fence) ∧
    (∀ (i j n : Nat) (e : CopyEntry) (l : List CopyEntry), (s.squeue c i j).entries = e :: l → n ∈ e.after →
      n ∈ heldNums s c i → readyHead s c i j = none)

/-- 05/R122-R124, R132, R133: ring objects. `ring.init` writes a fresh object unless a slot is outstanding; `ring.wait`
takes the oldest completed slot, `ring.rel` releases the oldest taken one, `ring.wptr` shows the writer's place. Each reads the
object through the L2 (05/R102, R103). Where the release that the ring names waits for the thread's writes to the host window, the
new RP waits and `ring.rel` does not, by the model's choice (DESIGN CHOICE, log 75). -/
def Obligations.RingInstructions : Prop :=
  ∀ (s : State) (t : Thread) (d : Reg) (a : Src) (h : BitVec 4) (p : BitVec 3) (x w : Word) (pa : Nat), Acts s t →
    Reads t a x → ringAt s t.asid (readH t h) x.toInt = .ok pa →
    let r := ringGet s pa
    let z := touchRing s t.asid (readH t h) x.toInt pa
    (Holds t d w → ringWordOk w.toNat = true →
      exec (.ringInit d a h p) s =
        (if ringWf r = true ∧ rgIp r ≠ rgRp r then endsWith s t z (writeP t p false)
        else endsWith s t (ringSet z pa (freshRing w.toNat)) (writeP t p true))) ∧
    (ringWf r = true → Ready t d →
      (rgCp r = rgWp r → exec (.ringWait d a h p) s = endsWith s t z (writeP t p false)) ∧
      (rgCp r ≠ rgWp r → exec (.ringWait d a h p) s =
        endsWith s t (ringSet z pa (setBits r 127 96 ((rgCp r + 1) % 2 ^ 32)))
          (writeP (writeR t d (BitVec.ofNat 64 (b2n (bit (rgErr r) (rgCp r % rgN r)) * 2 ^ 63 + rgCp r % rgN r))) p true)) ∧
      exec (.ringWptr d a h p) s = endsWith s t z (writeP (writeR t d (BitVec.ofNat 64 (rgWp r * 2 ^ 32 + rgProg r))) p
        (decide (rgIp r ≠ rgWp r)))) ∧
    (ringWf r = true →
      (sub32 (rgCp r) (rgRp r) ≤ ringPending z pa → exec (.ringRel a h p) s = endsWith s t z (writeP t p false)) ∧
      (ringPending z pa < sub32 (rgCp r) (rgRp r) → ringWaits t r = true → exec (.ringRel a h p) s =
        endsWith s t z (writeP (defer t (.ring pa)) p true)) ∧
      (ringPending z pa < sub32 (rgCp r) (rgRp r) → ringWaits t r = false → exec (.ringRel a h p) s =
        endsWith s t (ringSet z pa (setBits (setBits r (256 + rgRp r % rgN r) (256 + rgRp r % rgN r) 0) 159 128
          ((rgRp r + 1) % 2 ^ 32))) (writeP t p true))) ∧
    (ringWf r = false → (∃ l, regLoc t d = .ok l) → exec (.ringWait d a h p) s = traps s t ⟨cRing, 0, some x, 0⟩ ∧
      exec (.ringRel a h p) s = traps s t ⟨cRing, 0, some x, 0⟩ ∧
      exec (.ringWptr d a h p) s = traps s t ⟨cRing, 0, some x, 0⟩)

/-- 06/R150-R154: the scratch page instructions on pages that programs manage. `sprot` to pinned refuses a page that is out
and asks for it; one that is resident it pins, if the held-back count allows. `sevict` refuses a pinned page. `sfix`
releases what waits for the page: the queues of the ASID halted on it, the nodes and the held accesses of its castings. -/
def Obligations.ScratchInstructions : Prop :=
  ∀ (s : State) (t : Thread) (d : Reg) (a : Src) (p : BitVec 3) (m : BitVec 2) (n x : Word) (k : Nat), Acts s t →
    let c := keyCluster s.core
    let e := sttEntry s c k
    let me := keyCore s.core
    let pages := (List.range n.toNat).map (k + ·)
    k = bits x.toNat 31 11 → bits x.toNat 63 32 = 0 → k / 2048 < 960 →
    (Reads t a n → Holds t d x → 0 < n.toNat → k % 2048 + n.toNat ≤ 2048 →
      exec (.smap d a p) s =
        (if pages.any (fun k => eSt (sttEntry s c k) ≠ 0) ∨ 8192 < (s.cluster c).slots.length + n.toNat then
          ends s t (writeP t p false)
        else endsWith s t (pages.foldl (fun s k => mapPage s c me k t.asid) s) (writeP t p true))) ∧
    (Holds t d x →
      (eSt e = 0 ∨ eSt e = 3 →
        exec (.sunmap d p) s = ends s t (writeP t p false) ∧ exec (.sprot d p m) s = ends s t (writeP t p false) ∧
        exec (.sevict d p) s = ends s t (writeP t p false)) ∧
      (eSt e ≠ 0 → eSt e ≠ 3 → eAsid e ≠ t.asid.toNat →
        exec (.sunmap d p) s = traps s t ⟨cScratch, 1, some x, 0⟩ ∧
        exec (.sprot d p m) s = traps s t ⟨cScratch, 1, some x, 0⟩) ∧
      (eSt e ≠ 0 → eSt e ≠ 3 → eAsid e = t.asid.toNat →
        exec (.sunmap d p) s = endsWith s t (unmapPage s c k) (writeP t p true) ∧
        (m ≠ 2 → m ≠ 3 → exec (.sprot d p m) s = endsWith s t (protectPage s c k m.toNat) (writeP t p true)) ∧
        (m = 2 → eProt e ≠ 2 → 4096 ≤ heldBack (s.cluster c) → exec (.sprot d p m) s = ends s t (writeP t p false)) ∧
        (m = 2 → (eProt e = 2 ∨ heldBack (s.cluster c) < 4096) → eSt e ≠ 2 →
          exec (.sprot d p m) s = endsWith s t (protectPage s c k 2) (writeP t p true)) ∧
        (m = 2 → (eProt e = 2 ∨ heldBack (s.cluster c) < 4096) → eSt e = 2 →
          exec (.sprot d p m) s = endsWith s t (wantPage s c k me) (writeP t p false) ∧
          ((tabFind (s.cluster c).wants k).isSome = true ∨ tabFind ((wantPage s c k me).cluster c).wants k = some me)) ∧
        (MemoryForm s → m ≠ 3 → eProt (sttEntry (protectPage s c k m.toNat) c k) = m.toNat) ∧
        (eProt e = 2 → exec (.sevict d p) s = ends s t (writeP t p false)) ∧
        (eProt e ≠ 2 → exec (.sevict d p) s =
          endsWith s t (if eSt e = 1 then beginPageOut s c k else s) (writeP t p true)) ∧
        (∀ f, Reads t a n → n.toNat < 48 → freeOfCore (s.cluster c) n.toNat = some f →
          exec (.smig d a p) s = endsWith s t
            (if eSt e = 2 then beginPageIn s c k f else if eFrame e / 128 = n.toNat then s else beginReloc s c k f)
            (writeP t p true)))) ∧
    (Reads t a x → Ready t d → exec (.squery d a) s = ends s t (writeR t d
      (if eSt e = 0 then 0
       else if eAsid e ≠ t.asid.toNat then BitVec.ofNat 64 (2 ^ 27)
       else BitVec.ofNat 64 (mkEntry 0 (eSlot e) (eSt e) (eProt e) (eFrame e))))) ∧
    (Reads t a x → ∃ s', exec (.sfix a) s = endsIn s t s' ∧ s'.mem = s.mem ∧ s'.sram = s.sram ∧ s'.threads = s.threads ∧
      (∀ i j, let q := s.squeue c i j
        (q.halt = some .scratch → q.haltPage = some k → queueAsid q = some t.asid →
          s'.squeue c i j = { q with halt := none, haltPage := none }) ∧
        (q.halt ≠ some .scratch ∨ q.haltPage ≠ some k ∨ queueAsid q ≠ some t.asid → s'.squeue c i j = q)) ∧
      (∀ i y, (castSlot s (256 * c + i % 256)).live = some y →
        ∃ y', (castSlot s' (256 * c + i % 256)).live = some y' ∧
          (y.asid ≠ t.asid → y' = y) ∧
          (y.asid = t.asid → ∀ n, nodeOf y' n = { nodeOf y n with
            page := if (nodeOf y n).page = some k then none else (nodeOf y n).page
            held := (nodeOf y n).held.map fun h => if h.st = .pageFault k then { h with st := .waiting } else h })))

/-- 07/R173-R180: the curd instructions. `cfin` makes its thread's shares final once the reads under them have delivered their
data; with none outstanding, at once. 07/R165-R168: taking a share raises Pd, making it final lowers Pd and F, rolling it back
lowers Pd; a curd whose final count reaches 0 is gone, its generation advances and its frames are free, one that is to be
retired apart (17/R404). Where the release of `cseal` at `system` scope over X waits for the thread's writes to the host
window (07/R169, 14/R341), the seal waits and the thread goes on (14/R336), by the model's choice (DESIGN CHOICE, log 75).
That the view of 07/R177 is `cseal`'s too is the model's choice (DESIGN CHOICE, log 79). -/
def Obligations.CurdInstructions : Prop :=
  (∀ (s : State) (t : Thread) (d : Reg) (a b : Src) (p : BitVec 3) (part : BitVec 4) (f : BitVec 3) (g : BitVec 4)
    (z : BitVec 2) (n : BitVec 12) (x o : Word) (i : Nat) (k : CurdLive), Acts s t →
    let c := keyCluster s.core
    (Reads t a x → Ready t d → bits x.toNat 63 18 = 0 → bits x.toNat 11 0 ≠ 0 → partFor s c part.toNat t.asid = true →
      (testGrant s c part.toNat (bits x.toNat 16 12 + 1) false = .granted i →
        let r := allocCurd s c (keyCore s.core) i part.toNat (bits x.toNat 16 12 + 1) (bits x.toNat 11 0) (bit x.toNat 17)
          t.ref.l t.ref none false
        exec (.calloc d a p part) s = endsWith s t r.1 (writeP (writeR t d (BitVec.ofNat 64 r.2)) p true)) ∧
      (testGrant s c part.toNat (bits x.toNat 16 12 + 1) false = .refused →
        exec (.calloc d a p part) s = ends s t (writeP t p false)) ∧
      (∀ m, testGrant s c part.toNat (bits x.toNat 16 12 + 1) false = .short m →
        exec (.calloc d a p part) s = endsWith s t (startPageOuts s c m) (writeP t p false))) ∧
    (Reads t a x → openCurd s s.core t x = .ok (i, k) →
      (k.isSealed = false → ¬(f = 6 ∧ g.getLsbD 3 = true ∧ hostWrites t = true) →
        exec (.cseal a f g) s = endsIn s t (sealCurd s c i)) ∧
      (k.isSealed = false → f = 6 → g.getLsbD 3 = true → hostWrites t = true → exec (.cseal a f g) s =
        ends s t (defer t (.seal i (curdSlot s c i).gen))) ∧
      (k.isSealed = true → exec (.cseal a f g) s = traps s t ⟨cCurd, 5, handleWord x, 0⟩) ∧
      (n.toNat ≤ k.fin - k.pend →
        exec (.cdrop a n) s = endsIn s t (settleCurd (updCurd s c i fun k => { k with fin := k.fin - n.toNat }) c i)) ∧
      (k.fin - k.pend < n.toNat → exec (.cdrop a n) s = traps s t ⟨cCurd, 3, handleWord x, 0⟩) ∧
      (Reads t b o → Ready t d → HasRoom t → k.isSealed = true → o.toNat % 2 ^ z.toNat = 0 →
        o.toNat + 2 ^ z.toNat ≤ curdSize k → (i ∈ t.shares ∨ 0 < k.fin - k.pend) →
        exec (.cldR d a b z) s = endsWith s t
          (useBanks (if i ∈ t.shares then s else takeShare s c i) (curdAddr c k o.toNat) (2 ^ z.toNat))
          (produce { t with shares := if i ∈ t.shares then t.shares else t.shares ++ [i] } [d]
            [BitVec.ofNat 64 (leNat (curdBytes s c k o.toNat (2 ^ z.toNat)))] none
            (if badBank s (curdAddr c k o.toNat) (2 ^ z.toNat) then some cData else none)
            (BitVec.ofNat 64 (bits x.toNat 31 0)) d (some (i, t.nfin)))) ∧
      (Reads t b o → (∃ l, regLoc t d = .ok l) → k.isSealed = false →
        exec (.cldR d a b z) s = traps s t ⟨cCurd, 4, handleWord x, 0⟩)) ∧
    exec .cfin s = endsIn s t (applyFinals (s.setThread s.core { t with
      shares := [], finals := t.finals ++ t.shares.map (fun i => (i, t.nfin)), nfin := t.nfin + 1 }) s.core t.ref) ∧
    (runningKey s t.ref = some s.core → t.finals = [] → (∀ q ∈ t.prods, q.under = none) →
      exec .cfin s = endsIn s t (t.shares.foldl (fun s i => finalShare s c i)
        (s.setThread s.core { t with shares := [], nfin := t.nfin + 1 }))) ∧
    (Reads t a x → Ready t d → chCluster (bits x.toNat 31 0) = c → partFor s c (chPart (bits x.toNat 31 0)) t.asid = true →
      (currentCurd s (bits x.toNat 31 0) = none ∨ sealWaiting t (chIndex (bits x.toNat 31 0)) = false) →
      exec (.cinfo d a) s = ends s t (writeR t d (infoWord
        ((currentCurd s (bits x.toNat 31 0)).bind (ownView t (chIndex (bits x.toNat 31 0))))))) ∧
    ((∃ l, regLoc t a.reg = .ok l) → t.priv = false → exec (.cpart a part) s = traps s t ⟨cPriv, 0, none, 0⟩) ∧
    (Reads t a x → t.priv = true → partBad x.toNat = false → partBreaks s c part.toNat x.toNat = false →
      exec (.cpart a part) s = endsIn s t (s.updCluster c fun y => { y with parts := tabPut y.parts part.toNat ⟨x⟩ }))) ∧
  (∀ (s : State) (c i : Nat) (k : CurdLive), ((s.cluster c).frames.map (·.1)).Pairwise (· < ·) →
    (curdSlot s c i).live = some k → k.leaving = false →
    (curdSlot (takeShare s c i) c i).live = some { k with pend := k.pend + 1 } ∧
    (0 < k.fin → (curdSlot (rollShare s c i) c i).live = some { k with pend := k.pend - 1 }) ∧
    (1 < k.fin → (curdSlot (finalShare s c i) c i).live = some { k with pend := k.pend - 1, fin := k.fin - 1 }) ∧
    (k.fin = 1 →
      (curdSlot (finalShare s c i) c i).live = none ∧
      (curdSlot (finalShare s c i) c i).gen = (if (curdSlot s c i).gen = 2047 then 1 else (curdSlot s c i).gen + 1) ∧
      (curdSlot (finalShare s c i) c i).gen ≠ 0 ∧
      ∀ f ∈ k.frames, UnitRef.scratchFrame c f ∉ s.rel.retired → tabFind ((finalShare s c i).cluster c).frames f = none))

/-! ## Islands, castings, key-value blocks, the pod -/

/-- 12/R287, R301-R309: the island instructions. All but `mx.mode` ask that the launch hold the island; an item enters the
island's order when a slot is free, and pP says so. -/
def Obligations.IslandInstructions : Prop :=
  ∀ (s s' : State) (t : Thread) (d : Reg) (a : Src) (h : BitVec 4) (p i : BitVec 3) (o : BitVec 21) (x w : Word)
    (va : Nat) (b : List Byte), Acts s t →
    let c := keyCluster s.core
    let isl := s.island c i.toNat
    let src := ItemSrc.thread t.ref (keyCore s.core)
    let offer := fun (z : State) (it : Item) =>
      if (z.island c i.toNat).order.length < 8 then
        endsIn s t (acceptItem (z.setThread s.core (writeP t p true)) c i.toNat src it)
      else endsWith s t z (writeP t p false)
    (holdsIsland isl t.ref.l = false → (∃ l, regLoc t a.reg = .ok l) → (∃ l, regLoc t d = .ok l) →
      ∀ j ∈ ([.mxBind a h p i, .mxScale a h p i, .mxFire d a p i, .mxAcc d a p i, .mxRlbl i o, .mxDrain p i, .mxUnpin p i] :
        List Instr), exec j s = traps s t ⟨cIsland, 0, none, 0⟩) ∧
    (holdsIsland isl t.ref.l = true →
      exec (.mxUnpin p i) s = offer s .unpin ∧
      exec (.mxRlbl i o) s =
        endsIn s t (s.updIsland c i.toNat fun z => { z with rlbl := some (branchTarget t.pc o, t.ref) }) ∧
      exec (.mxDrain p i) s = (let z := clearHalt s c i.toNat
        endsWith s t z (writeP t p ((z.island c i.toNat).order.isEmpty && (z.island c i.toNat).link.isEmpty))) ∧
      (Reads t a x → checkHandle (readH t h) x.toInt 128 rR t.asid = .ok va →
        readIssue s (threadAgent s.core t) va 128 = .ok (b, s') → exec (.mxScale a h p i) s = offer s' (.scale b)) ∧
      (Reads t a x → Holds t d w → bits w.toNat 63 17 = 0 → bits x.toNat 63 32 = 0 → bits x.toNat 21 0 % 32 = 0 →
        bits w.toNat 7 0 + (bits w.toNat 16 9 + 1) ≤ 256 →
        bits x.toNat 21 0 + (bits w.toNat 16 9 + 1) * acceptedLen isl ≤ 2 ^ 22 →
        exec (.mxFire d a p i) s =
          offer s (.fire (BitVec.ofNat 32 x.toNat) (BitVec.ofNat 9 (bits w.toNat 8 0)) (bits w.toNat 16 9 + 1) 0)) ∧
      (Reads t a x → Holds t d w → bits x.toNat 63 19 = 0 → (bits x.toNat 1 0 = 1 → bits w.toNat 63 32 = 0) →
        bits x.toNat 9 2 + (bits x.toNat 18 11 + 1) ≤ 256 →
        exec (.mxAcc d a p i) s = offer s (.acc (bits x.toNat 1 0) (BitVec.ofNat 9 (bits x.toNat 10 2))
          (bits x.toNat 18 11 + 1) (BitVec.ofNat 32 w.toNat))) ∧
      (Reads t a x → checkHandle (readH t h) x.toInt 64 rRX t.asid = .ok va →
        readIssue s (threadAgent s.core t) va (64 - va % 64) = .ok (b, s') →
        (va % 64 ≠ 0 ∨ tileBad (leNat b) (tileDescOf (readH t h) (leNat b)) = true →
          exec (.mxBind a h p i) s = traps s t ⟨cDesc, 0, some x, 0⟩) ∧
        (va % 64 = 0 → tileBad (leNat b) (tileDescOf (readH t h) (leNat b)) = false →
        (∃ l, mapE (fun (r : Nat × Nat) => checkHandle (readH t h) r.1 r.2 rRX t.asid)
          (tileRanges (tileDescOf (readH t h) (leNat b))) = .ok l) →
        (bindPending (s'.island c i.toNat) = true ∨ 8 ≤ (s'.island c i.toNat).order.length →
          exec (.mxBind a h p i) s = endsWith s t s' (writeP t p false)) ∧
        (bindPending (s'.island c i.toNat) = false → (s'.island c i.toNat).order.length < 8 →
          let z := acceptItem (s'.setThread s.core (writeP t p true)) c i.toNat src (.bind (tileDescOf (readH t h) (leNat b)))
          exec (.mxBind a h p i) s = endsIn s t (fetchTile z c i.toNat t.asid (tileDescOf (readH t h) (leNat b))).1)))) ∧
    (Reads t a x → modeOk x.toNat = false → exec (.mxMode a p i) s = traps s t ⟨cIsland, 6, none, 0⟩) ∧
    (Reads t a x → modeOk x.toNat = true → isl.order.length < 8 →
      let put := fun (z : State) =>
        let y := acceptItem (z.setThread s.core (writeP t p true)) c i.toNat src (.mode x)
        if mdRel x.toNat then y else y.updIsland c i.toNat fun q => { q with accepted := some x }
      (isl.hold = .free → mdRel x.toNat = false →
        exec (.mxMode a p i) s = endsIn s t (put (resetIsland s c i.toNat (.held t.ref.l t.ref)))) ∧
      (isl.hold = .free → mdRel x.toNat = true → exec (.mxMode a p i) s = ends s t (writeP t p false)) ∧
      (∀ by', isl.hold = .held t.ref.l by' → mayTake s c i.toNat t x.toNat = false →
        exec (.mxMode a p i) s = (if relPending isl then ends s t (writeP t p false) else endsIn s t (put s))) ∧
      (∀ l by', isl.hold = .held l by' → l ≠ t.ref.l → mayTake s c i.toNat t x.toNat = false →
        exec (.mxMode a p i) s = ends s t (writeP t p false)))

/-- 09/R222-R225, R229, R230: castings. 09/R224: the casting that an accepted `cast.load` places: fresh instructions and empty
queues on the pages chosen, its id in d, its thread's demand met (16/R380); refused for want of pages, it leaves a demand;
refused, pP is false. That a `cast.end` at the boundary point retires the casting in the same step and answers true at once,
and when a demand is recorded and renewed, are the model's reading (DEDUCED, log 56). -/
def Obligations.CastingInstructions : Prop :=
  (∀ (s s' s1 : State) (t : Thread) (d : Reg) (a : Src) (h : BitVec 4) (p : BitVec 3) (n : BitVec 5) (x : Word) (m : Image)
    (cid : Nat) (k : CastLive), Acts s t →
    (Reads t a x → Ready t d → readImage s s.core t (readH t h) x.toInt = .ok (m, s') →
      placeImage s' s.core t d p m = .ok s1 → exec (.castLoad d a h p) s = endsIn s t s1) ∧
    (Holds t d x → namedCast s s.core t x = .ok none →
      exec (.castBind d h p n) s = ends s t (writeP t p false) ∧ exec (.castKill d p) s = ends s t (writeP t p false) ∧
      exec (.castEnd d p) s = ends s t (writeP t p false)) ∧
    (Holds t d x → namedCast s s.core t x = .ok (some (cid, k)) →
      (n.toNat < k.ns → (readH t h).v = true → (readH t h).asid = t.asid → (readH t h).rights &&& rX = rX →
        exec (.castBind d h p n) s = endsWith s t
          (updCast s cid fun k => { k with binds := tabPut k.binds n.toNat (readH t h) }) (writeP t p true)) ∧
      (k.ns ≤ n.toNat → exec (.castBind d h p n) s = traps s t ⟨cCast, 5, none, 0⟩) ∧
      exec (.castKill d p) s = endsIn s t (setPredOf (checkComplete (killCasting s cid) k.launch) s.core p true) ∧
      (∀ e, e = tryRetire (updCast s cid fun k => { k with ending := true }) cid →
        (∀ k', (castSlot e cid).live = some k' → k'.retired = true →
          exec (.castEnd d p) s = endsIn s t (setPredOf (dropCast (e.updThread s.core fun t =>
            writeR t d ((castFlags k').zeroExtend 64)) cid k'.launch) s.core p true)) ∧
        (∀ k', (castSlot e cid).live = some k' → k'.retired = false →
          exec (.castEnd d p) s = endsIn s t (setPredOf e s.core p false)))) ∧
    (Holds t d x → bits x.toNat 63 32 ≠ 0 → exec (.castKill d p) s = traps s t ⟨cCast, 0, none, 0⟩) ∧
    (Holds t d x → bits x.toNat 63 32 = 0 → bits x.toNat 31 27 ≠ keyCluster s.core →
      exec (.castKill d p) s = traps s t ⟨cCast, 1, none, 0⟩)) ∧
  (∀ (s : State) (key : Nat) (t : Thread) (d : Reg) (p : BitVec 3) (m : Image),
    let c := keyCluster key
    let dep := curdDepth m.blocks
    let part := t.part.toNat
    (partFor s c part t.asid = false ∨ ptMin (partDesc s c part) < dep → placeImage s key t d p m = trapWith cLoad 2) ∧
    (partFor s c part t.asid = true → dep ≤ ptMin (partDesc s c part) →
      partDepth (s.cluster c) part + dep ≤ ptMin (partDesc s c part) → heldBack (s.cluster c) + dep ≤ 4096 →
      ∀ i pages, freeCast s c = some i → choosePages s c (keyCore key) t.cls m.blocks = some pages →
        let s' := updCastSlot (meetDemand s c t.ref) (256 * c + i) fun y => { y with live := some (freshCast s key t m pages) }
        placeImage s key t d p m = .ok (s'.setThread key
          (writeP (writeR t d (BitVec.ofNat 64 (castId s' (256 * c + i)))) p true))) ∧
    (partFor s c part t.asid = true → dep ≤ ptMin (partDesc s c part) →
      partDepth (s.cluster c) part + dep ≤ ptMin (partDesc s c part) → heldBack (s.cluster c) + dep ≤ 4096 →
      choosePages s c (keyCore key) t.cls m.blocks = none →
      placeImage s key t d p m = .ok ((recordDemand s key t m.blocks).setThread key (writeP t p false))) ∧
    (partFor s c part t.asid = true → dep ≤ ptMin (partDesc s c part) →
      (ptMin (partDesc s c part) < partDepth (s.cluster c) part + dep ∨ 4096 < heldBack (s.cluster c) + dep ∨
        freeCast s c = none ∧ ∃ pages, choosePages s c (keyCore key) t.cls m.blocks = some pages) →
      placeImage s key t d p m = .ok ((renewDemand s c t.ref).setThread key (writeP t p false))))

/-- 09/R226-R228: the ports. -/
def Obligations.PortInstructions : Prop :=
  ∀ (s : State) (t : Thread) (d : Reg) (a : Src) (port : BitVec 6) (p : BitVec 3) (x : Word) (ws : List Word) (cid : Nat)
    (k : CastLive), Acts s t → namedCast s s.core t x = .ok (some (cid, k)) →
    (Holds t d x → readGroup t a.reg a.wait 5 = .ok ws →
      (k.ins.length ≤ port.toNat → exec (.bpush d a port p) s = traps s t ⟨cCast, 3, none, 0⟩) ∧
      (port.toNat < k.ins.length → bits (ws.getD 4 0).toNat 63 32 = 0 → bits (billetOf ws).tag.toNat 7 0 = 0 →
        (tagKind (billetOf ws).tag = 0 ∨ tagKind (billetOf ws).tag = 2) →
        exec (.bpush d a port p) s =
          (if portRefuses k port.toNat then ends s t (writeP t p false)
           else endsWith s t (updCast s cid fun k => pushPort k port.toNat (billetOf ws)) (writeP t p true)))) ∧
    (Holds t d x →
      (k.ins.length ≤ port.toNat → exec (.bmark d port p) s = traps s t ⟨cCast, 3, none, 0⟩) ∧
      (port.toNat < k.ins.length →
        exec (.bmark d port p) s =
          (if portRefuses k port.toNat then ends s t (writeP t p false)
           else endsWith s t (updCast s cid fun k => pushPort k port.toNat ⟨0, mkTag 0 0 1⟩) (writeP t p true)))) ∧
    (Reads t a x → (∀ j < 5, Ready t (regAdd d j)) → port.toNat < k.outs.length →
      (offered k port.toNat = none → exec (.bpull d a port p) s = ends s t (writeP t p false)) ∧
      (∀ b, offered k port.toNat = some b → HasRoom t →
        exec (.bpull d a port p) s = endsIn s t (setPredOf ((tryRetire
          (updCast s cid fun k => pullPort k port.toNat (isMarker b)) cid).updThread s.core fun t =>
            produce t ((List.range 5).map (regAdd d)) (wordsOf b) none none 0 d) s.core p true)))

/-- 13/R316-R319: the key-value instructions, their pool, operands and sequence having passed their tests; what they read
is read through the L2 (05/R102, R103). A page that is published has its tag, rows and page in the entry it takes, and its
descriptor names that entry (13/R313); CLOSE lowers by one the reference count of every page that the sequence's list
names, and a page that none names any more is free (13/R312). 13/R319: promotion and its cancelling. -/
def Obligations.KeyValueInstructions : Prop :=
  (∀ (s : State) (t : Thread) (d : Reg) (a : Src) (h : BitVec 4) (p : BitVec 3) (x : Word) (ws : List Word) (q : PoolRef)
    (r : SeqRef), Acts s t → Reads t a x → readGroup t d true 4 = .ok ws →
    let w := (ws.getD 0 0).toNat
    let noted := fun (z : State) => noteSpans z (addSpans s t q (readH t h) ws)
    let no := endsWith s t (noted s) (writeP t p false)
    let gives := fun (z : State) (v : Word) => endsWith s t (noted z) (writeP (writeR t d v) p true)
    let later := fun (z : State) (v : Word) (now : Bool) =>
      endsWith s t (noted z) (writeP (produce t [d] [v] (if now || d = 0 then none else some .copy) none 0 d) p true)
    (w = 0 → (∀ v ∈ ws.drop 1, v = 0) → poolAt s t (readH t h) x.toInt true = .ok q → HasRoom t →
      exec (.kvAddPool d a h p) s = (if s.seqs.any (fun e => match e.2.live with
          | some y => poolPa s y.poolRef == poolPa s q
          | none => false) then no else later (freshPool s q) 0 true)) ∧
    (poolAt s t (readH t h) x.toInt false = .ok q →
      (∀ sreg i, w &&& 0xFFFFFF0F = w → (∀ v ∈ ws.drop 2, v = 0) → bits w 31 8 ≠ 0 →
        openRecord s t (readH t h) (ws.getD 1 0).toInt (bits w 31 8) = .ok sreg → freeSeq s = some i →
        ∃ z, exec (.kvAddOpen d a h p) s = gives z (BitVec.ofNat 64 ((tabGet s.seqs i {}).gen * 2 ^ 14 + i)) ∧
          seqAt z i = some { asid := t.asid, hk := readH t h, pool := BitVec.ofNat 64 q.off, recOff := ws.getD 1 0
                             ntok := 0, npge := 0, lcap := bits w 31 8, sreg := sreg, nwin := 0 }) ∧
      (bits (ws.getD 1 0).toNat 63 32 = 0 → seqOn s t q (ws.getD 1 0).toNat = .ok r →
        (w &&& 0xF = w → (∀ v ∈ ws.drop 2, v = 0) → seqWindows s r.idx = [] → HasRoom t →
          (∀ page, appendKind s r r.q.ntok = .ok (.same page) → recordReach s r.q (r.q.ntok / 16) = .ok () →
            let off := rowOff s r.q.poolRef page (r.q.ntok % 16)
            exec (.kvAddAppend d a h p) s = later (setCounts s r.idx (r.q.ntok + 1) ((r.q.ntok + 16) / 16))
              (BitVec.ofNat 64 (off % 2 ^ 56)) true) ∧
          (appendKind s r r.q.ntok = .ok .fresh → plFcnt s r.q.poolRef = 0 →
            exec (.kvAddAppend d a h p) s = no)) ∧
        (∀ hi, w &&& 0xF = w → seqWindows s r.idx = [] → r.q.ntok % 16 = 0 → r.q.npge < r.q.lcap →
          lookup s r.q.poolRef (tagOf (ws.getD 2 0) (ws.getD 3 0)) = .ok (some hi) →
          checkedDesc s r.q.poolRef (pfPage hi) = .ok (pageDesc s r.q.poolRef (pfPage hi)) →
          recordReach s r.q r.q.npge = .ok () →
          exec (.kvAddAttach d a h p) s = gives
            (setCounts (setEntry4 (setDesc s r.q.poolRef (pfPage hi) (setBits (pageDesc s r.q.poolRef (pfPage hi)) 39 24
              (pdRef (pageDesc s r.q.poolRef (pfPage hi)) + 1))) r.q r.q.npge
              (mkList (pfPage hi) ((pfRows hi + 1) % 32) 1)) r.idx (r.q.ntok + pfRows hi + 1) (r.q.npge + 1))
            (BitVec.ofNat 64 (bits hi 28 0))) ∧
        (w &&& 0xF = w → seqWindows s r.idx = [] → r.q.ntok % 16 = 0 →
          lookup s r.q.poolRef (tagOf (ws.getD 2 0) (ws.getD 3 0)) = .ok none → exec (.kvAddAttach d a h p) s = no) ∧
        (∀ e f, w &&& 0x1FFFFFFF0F = w → namedEntry s r (bits w 31 8) = .ok e → leSt e = 0 →
          checkedDesc s r.q.poolRef (lePage e) = .ok (pageDesc s r.q.poolRef (lePage e)) →
          checkedBucket s r.q.poolRef (bucketOf s r.q.poolRef (tagOf (ws.getD 2 0) (ws.getD 3 0))) = .ok () →
          pdPub (pageDesc s r.q.poolRef (lePage e)) = false → 16 * bits w 31 8 + (bits w 36 32 + 1) ≤ r.q.ntok →
          matchTag s r.q.poolRef (tagOf (ws.getD 2 0) (ws.getD 3 0)) = none →
          firstFrom (fun k => !pfV (prefixHi s r.q.poolRef
            (bucketOf s r.q.poolRef (tagOf (ws.getD 2 0) (ws.getD 3 0))) k)) 0 4 = some f →
          let tag := tagOf (ws.getD 2 0) (ws.getD 3 0)
          let b := bucketOf s r.q.poolRef tag
          let o := prefixOff s r.q.poolRef b f
          let desc := pageDesc s r.q.poolRef (lePage e)
          let y := kvWrite s r.q.asid r.q.hk o 16 tag
          let y := kvWrite y r.q.asid r.q.hk (o + 16) 16 (2 ^ 29 + bits w 36 32 * 2 ^ 24 + lePage e)
          let z := setDesc y r.q.poolRef (lePage e) (mkDesc (bits desc 56 45) f 1 (pdSt desc) (pdRef desc) b)
          exec (.kvAddPublish d a h p) s = gives z 0 ∧ z.sram = s.sram ∧ z.seqs = s.seqs ∧ z.threads = s.threads) ∧
        (∀ es, w &&& 0xF = w → (∀ v ∈ ws.drop 2, v = 0) → seqWindows s r.idx = [] →
          mapE (checkedEntry s r.q) (List.range r.q.npge) = .ok es →
          (∀ e ∈ es, leSt e ≠ 2 → checkedDesc s r.q.poolRef (lePage e) = .ok (pageDesc s r.q.poolRef (lePage e))) →
          let y := (es.filter fun e => leSt e ≠ 2).foldl (fun y e => dropPage y r.q.poolRef (lePage e)) s
          ∃ z, exec (.kvAddClose d a h p) s = gives z 0 ∧ z = { y with seqs := z.seqs } ∧ seqAt z r.idx = none ∧
            (∀ i, i ≠ r.idx → tabGet z.seqs i {} = tabGet s.seqs i {}) ∧
            (tabGet z.seqs r.idx {}).gen = (if (tabGet s.seqs r.idx {}).gen = 2 ^ 18 - 1 then 1
              else (tabGet s.seqs r.idx {}).gen + 1)) ∧
        (∀ e, w &&& 0xFFFFFFFFFFFF0F = w → (∀ v ∈ ws.drop 2, v = 0) → namedEntry s r (bits w 31 8) = .ok e → leSt e = 0 →
          bits w 55 32 < plNsl s r.q.poolRef → seqWindows s r.idx = [] →
          checkedDesc s r.q.poolRef (lePage e) = .ok (pageDesc s r.q.poolRef (lePage e)) →
          pdRef (pageDesc s r.q.poolRef (lePage e)) = 1 → HasRoom t →
          exec (.kvAddDemote d a h p) s = later (addCopy (unpublish s r.q.poolRef (lePage e))
            (.demote r (bits w 31 8) (lePage e) (bits w 55 32) t.ref (locOf t d))) 0 false)) ∧
      (∀ f, readGroup t d true 2 = .ok [ws.getD 0 0, ws.getD 1 0] →
        lookup s q (tagOf (ws.getD 0 0) (ws.getD 1 0)) = .ok f →
        let z := noteSpans s [blockSpan q, bucketSpan s q (bucketOf s q (tagOf (ws.getD 0 0) (ws.getD 1 0)))]
        exec (.kvFind d a h p) s = endsWith s t z (match f with
          | none => writeP t p false
          | some hi => writeP (writeR t d (BitVec.ofNat 64 (bits hi 28 0))) p true)))) ∧
  (∀ (s : State) (t : Thread) (d : Reg) (a : Src) (p : BitVec 3) (x : Word) (r : SeqRef) (i e pa : Nat), Acts s t →
    Reads t a x → Ready t d → promoteArg s t x = .ok (r, i) →
    (namedEntry s r i = .ok e → leSt e ≠ 2 → exec (.kvPromote d a p) s = traps s t ⟨cKv, 4, none, 0⟩) ∧
    (namedEntry s r i = .ok e → leSt e = 2 → promotionRing s r = .ok (pa, ringGet s pa) → promotionOf s r i = none →
      plFcnt s r.q.poolRef ≠ 0 → sub32 (rgIp (ringGet s pa)) (rgRp (ringGet s pa)) ≠ rgN (ringGet s pa) →
      checkedHead s r.q.poolRef = .ok () →
      let g := allocPage s r.q.poolRef (mkDesc 0 0 0 1 1 0)
      exec (.kvPromote d a p) s = endsWith s t
        (notePromote s (addCopy (ringSet g.1 pa (setBits (ringGet s pa) 95 64 ((rgIp (ringGet s pa) + 1) % 2 ^ 32)))
          (.promote r i g.2 (lePage e) (BitVec.ofNat 32 (rgIp (ringGet s pa))) false t.ref)) r i)
        (writeP (writeR t d (BitVec.ofNat 64 (rgIp (ringGet s pa)))) p true)) ∧
    (promotionOf s r i = none → exec (.kvPromoteCancel d a p) s = ends s t (writeP t p false)) ∧
    (∀ id x' e' page slot ring who, promotionOf s r i = some (id, .promote x' e' page slot ring false who) →
      checkedDesc s r.q.poolRef page = .ok (pageDesc s r.q.poolRef page) →
      let z := noteSpans s [blockSpan r.q.poolRef, descSpan s r.q.poolRef page]
      exec (.kvPromoteCancel d a p) s = endsIn s t ((promotionSlot
        { freePage z r.q.poolRef page with kvCopies := tabDel z.kvCopies id } r ring true who).updThread s.core fun t =>
          writeP (writeR t d (ring.zeroExtend 64)) p true))) ∧
  (∀ (s : State) (q : PoolRef) (g : Nat), descOk s q g = true →
    dropPage s q g = (if pdRef (pageDesc s q g) ≤ 1 then freePage s q g
      else setDesc s q g (setBits (pageDesc s q g) 39 24 (pdRef (pageDesc s q g) - 1))) ∧
    freePage s q g = (let u := unpublish s q g
      let u := setDesc u q g (mkDesc 0 0 0 0 0 (plFhead u q))
      setPoolField (setPoolField u q 343 320 g) q 375 352 (plFcnt u q + 1)))

/-- 13/R321-R327: the draft window instructions. None of them waits (13/R326). The release of a `dw.commit` or a `dw.abort`
takes place at the window's commit point: where it is at `system` scope over X and the thread's writes to the host window are
outstanding, the commit point waits for them, and the thread goes on (14/R336; the form is the model's choice, DESIGN CHOICE,
log 75). That a view with an uncorrectable error is a precise data error of `dw.snap` is log 19 (DEDUCED), and that nonzero
upper id bits are the fault *window* is log 59 (DEDUCED). -/
def Obligations.DraftInstructions : Prop :=
  ∀ (s : State) (t : Thread) (d : Reg) (a : Src) (p : BitVec 3) (n : BitVec 4) (f : BitVec 3) (g : BitVec 4) (x v : Word)
    (r : SeqRef) (i : Nat) (w : Window), Acts s t → Reads t a x →
    let waits := decide (f = 6) && g.getLsbD 3 && hostWrites t
    let closes := fun (n : Nat) =>
      let z := s.updWindow i fun w => { w with st := .closing, keep := n, as := f, ss := g, waits := waits }
      if waits then ends z t (defer t (.window i (tabGet s.wins i {}).gen)) else endsIn s t z
    (Ready t d → bits x.toNat 63 32 = 0 → seqNamed s t x.toNat = .ok r →
      firstFrom (fun i => (tabGet s.wins i {}).live.isNone) 0 4096 = some i → (seqWindows s r.idx).length < 16 →
      ∃ z w', exec (.dwOpen d a p n) s =
          endsWith s t z (writeP (writeR t d (BitVec.ofNat 64 (winId z i))) p true) ∧
        (tabGet z.wins i {}).live = some w' ∧ w'.seq = r.idx ∧ w'.launch = t.ref.l ∧ w'.nmax = n.toNat + 1 ∧ w'.napp = 0 ∧
        w'.ord = r.q.nwin ∧ w'.st = .opened ∧ w'.grans = [] ∧ z.mem = s.mem ∧ z.sram = s.sram) ∧
    (Ready t d → bits x.toNat 63 32 = 0 → seqNamed s t x.toNat = .ok r → 16 ≤ (seqWindows s r.idx).length →
      exec (.dwOpen d a p n) s = ends s t (writeP t p false)) ∧
    (openNamed s t x = .ok (i, w) →
      (Holds t d v → ((seqWindows s w.seq).getLast?.map (·.1) = some i) → 1 ≤ v.toNat → v.toNat ≤ w.napp →
        exec (.dwSnap d a p) s =
          (if (snapshotSlots s v.toNat w).length < w.regions.flatten.length then ends s t (writeP t p false)
           else if w.regions.flatten.any (badPiece s w) then traps s t ⟨cData, 0, none, 0⟩
           else endsWith s t (takeSnapshot s i v.toNat w (snapshotSlots s v.toNat w)) (writeP t p true))) ∧
      (Holds t d v → w.napp < v.toNat → exec (.dwCommit d a f g) s = traps s t ⟨cDraft, 2, none, 0⟩) ∧
      (Holds t d v → v.toNat ≤ w.napp → (1 ≤ v.toNat → w.regions = [] ∨ w.snaps.getLsbD (v.toNat - 1) = true) →
        exec (.dwCommit d a f g) s = closes v.toNat) ∧
      exec (.dwAbort a f g) s = closes 0) ∧
    (∀ n e, (tabGet s.wins n {}).live = some e → e.waits = true → exec (.commitPoint n) s = .next s) ∧
    (Ready t d →
      (windowNamed s t.ref.l x = none → exec (.dwStat d a) s = ends s t (writeR t d 0)) ∧
      (windowNamed s t.ref.l x = some (i, w) → exec (.dwStat d a) s =
        endsWith s t (if w.unretired then s else freeWindow s i) (writeR t d (winWord w)))) ∧
    (windowNamed s t.ref.l x = none →
      exec (.dwAbort a f g) s = traps s t ⟨cDraft, 0, none, 0⟩)

/-- 18/R416-R426: the pod instructions. An accepted `xmcast` or `xcomb` reserves a slot of its ring and is held until its
event; it holds the source bytes read. (An `xcomb` that is accepted so has no value of its tree waiting that differs in
operator, length or tag, 18/R422.) One that a port must drain for first waits (18/R413; DESIGN CHOICE, log 60). An `xbar`
never waits (18/R425): it leaves d empty, and its request follows its release (14/R341), the releases that wait before it, and
the drain of its port (DESIGN CHOICE, logs 60 and 75). A home that is another member answers it later, or never, and then with
STATUS 10 (18/R415), whose phase is a free value (DESIGN CHOICE, log 60). 18/R415, R422: an `xcomb` that holds a member that
is not up, or whose source met an error, is accepted too and completes at once. -/
def Obligations.PodInstructions : Prop :=
  ∀ (s s1 s2 : State) (t : Thread) (d : Reg) (a : Src) (h : BitVec 4) (p o : BitVec 3) (f : BitVec 3) (g : BitVec 4)
    (x v : Word) (va sva pa : Nat) (b data : List Byte), Acts s t →
    (∀ e ∈ ([(.xmcast d a h p, none), (.xcomb d a h p o, some o)] : List (Instr × Option (BitVec 3))),
      Reads t a x → Holds t d v → checkHandle (readH t h) x.toInt 64 rRX t.asid = .ok va → va % 64 = 0 →
      readIssue s (threadAgent s.core t) va 64 = .ok (b, s1) →
      (∃ ms, podSet v.toNat = some ms ∧ (e.2.isSome → s.member ∈ ms)) → podDescBad (leNat b) e.2 = false →
      checkHandle (readH t h) (BitVec.ofNat 64 (pdSrc (leNat b))).toInt (pdLen (leNat b)) rR t.asid = .ok sva →
      podRing s1 t (readH t h) (pdRing (leNat b)) = .ok (pa, ringGet s1 pa) →
      let full := sub32 (rgIp (ringGet s1 pa)) (rgRp (ringGet s1 pa)) = rgN (ringGet s1 pa) ∨
        16 ≤ (s1.podOps.filter fun x => x.owner = t.ref).length
      let z1 := touchRing s1 t.asid (readH t h) (BitVec.ofNat 64 (pdRing (leNat b))).toInt pa
      let tag := BitVec.ofNat 16 (pdTag (leNat b))
      (full → exec e.1 s = endsWith s t z1 (writeP t p false)) ∧
      (¬ full → combineWaits z1 e.2 v tag = true → exec e.1 s = .next s) ∧
      (¬ full → combineWaits z1 e.2 v tag = false → podSource z1 (threadAgent s.core t) sva (pdLen (leNat b)) = .ok (data, s2) →
        (e.2.isSome → data ≠ [] ∧ (∀ m ∈ podMembers v, reaches s2 m = true) ∧
          ∀ q ∈ s2.early, q.set = v → some q.op = e.2 ∧ q.tag = tag ∧ q.words.length = (chunks 4 data.length data).length) →
        ∃ z y, exec e.1 s = endsWith s t z (writeP t p true) ∧ z.podOps.length = s2.podOps.length + 1 ∧
          z.podOps.getLast? = some y ∧ y.op = e.2 ∧ y.data = data ∧ y.set = v ∧ y.tag = tag ∧
          y.slot = BitVec.ofNat 32 (rgIp (ringGet s1 pa)) ∧ y.dst = BitVec.ofNat 64 (pdDst (leNat b)) ∧ y.owner = t.ref) ∧
      (¬ full → combineWaits z1 e.2 v tag = false →
        podSource z1 (threadAgent s.core t) sva (pdLen (leNat b)) = .ok (data, s2) → e.2.isSome →
        (data = [] ∨ ∃ m ∈ podMembers v, reaches s2 m = false) →
        ∃ z u, exec e.1 s = .next z ∧ z.threadAt s.core = some u ∧ (p ≠ 0 → readP u p = true) ∧
          ∀ y ∈ z.podOps, y.id ≠ s2.podNext)) ∧
    (Reads t a x → Holds t d v → bits v.toNat 63 18 = 0 → x.toNat ≤ 65535 → HasRoom t →
      let home := bits v.toNat 9 0
      let y : Arrival := ⟨home, bits v.toNat 17 10, x.toNat, t.asid⟩
      let host := decide (f = 6) && g.getLsbD 3 && hostWrites t
      let waits := host = true ∨ t.rels ≠ []
      (waits → exec (.xbar d a f g) s = ends s t (holdXbar t d y host)) ∧
      (¬ waits → home = s.member →
        exec (.xbar d a f g) s = endsWith s t (atHome s y).1 (produce t [d] [(atHome s y).2] none none 0 d)) ∧
      (¬ waits → home ≠ s.member → memberUp s home = false → exec (.xbar d a f g) s =
        endsWith s t { s with free := s.free + 1 } (produce t [d] [lostBarrier s] none none 0 d)) ∧
      (¬ waits → home ≠ s.member → memberUp s home = true →
        (portWaits s home 0 = true → exec (.xbar d a f g) s = ends s t (holdXbar t d y false)) ∧
        (portWaits s home 0 = false → exec (.xbar d a f g) s = endsWith s t { s with free := s.free + 1 } (produce t [d] [0]
          (some (peerWait s home 0)) (if sends s home 0 then none else some cPeer) 0 d none [] false
          (some (lostBarrier s)) (some y))))) ∧
    (Ready t d → exec (.xid d) s = ends s t (writeR t d (s.regs.podid &&& 0x1FFFF)))

/-! ## The fabric -/

/-- 10/R233, R234, R239-R243: the compute instructions whose lanes are values of their operands' lanes alone. Every
enabled lane of the view at FD takes the value; every other bit of the record and the tag stay, and no flag is raised. -/
def Obligations.LaneResults : Prop :=
  ∀ (s : State) (f : FWord) (k k' : CastLive) (a b : Billet), Fires s f k k' a b →
    let v := viewOf f (immInt f) a b
    let w := v.w
    let x := fun i => rdLane f w (v.a i)
    let y := fun i => rdLane f w (v.b i)
    let z := fun i => rdLane f w (v.v i)
    let become := LanesBecome s f k' a v
    become (fun i => satLane f w (x i + y i)) (.iAdd f) ∧
    become (fun i => satLane f w (x i - y i)) (.iSub f) ∧
    become (fun i => satLane f w (x i * y i)) (.iMul f) ∧
    become (fun i => satLane f w (x i * y i + z i)) (.iMad f) ∧
    become (fun i => satLane f w (min (x i) (y i))) (.iMin f) ∧
    become (fun i => satLane f w (max (x i) (y i))) (.iMax f) ∧
    become (fun i => satLane f w |x i|) (.iAbs f) ∧
    become (fun i => satLane f w (min (max (x i) (y i)) (z i))) (.iClamp f) ∧
    become (fun i => v.a i &&& v.b i) (.iAnd f) ∧
    become (fun i => v.a i ||| v.b i) (.iOr f) ∧
    become (fun i => v.a i ^^^ v.b i) (.iXor f) ∧
    become (fun i => satLane f w (x i * 2 ^ (v.b i % w))) (.iShl f) ∧
    become (fun i => v.a i / 2 ^ (v.b i % w)) (.iShr f) ∧
    become (fun i => wrapN w (sOf w (v.a i) / 2 ^ (v.b i % w))) (.iSra f) ∧
    LanesBecome s f k' a (viewOf f 0 a b) v.a (.fabricMov f) ∧
    (imBsrc f = 2 → bit f.imm.toNat 18 = false → become (fun _ => immInt f) (.const f)) ∧
    (imBsrc f = 2 → bit f.imm.toNat 18 = true → become (fun _ => immFl f) (.const f)) ∧
    (imBsrc f = 1 → become v.b (.mix f)) ∧
    (imBsrc f ≠ 2 →
      become (fun i => if (if bit (imLow f) 0 then decide (laneAt w (turnRec v.ra (bits (imLow f) 5 3)) i ≠ 0)
        else bit (tagP a.tag) (bits (imLow f) 2 1)) then v.a i else v.b i) (.sel f)) ∧
    ((bits (imLow f) 10 9 ≠ 2 ∨ ∀ i ∈ v.lanes, xlRead f v i ≠ none) → imBsrc f ≠ 2 →
      become (fun i => (xlRead f v i).getD (match bits (imLow f) 10 9 with | 0 => 0 | 1 => v.v i | _ => v.b i))
        (.xl f)) ∧
    (bits (imLow f) 10 9 = 2 → imBsrc f ≠ 2 → (∃ i ∈ v.lanes, xlRead f v i = none) →
      exec (.xl f) s = fired s f k' ⟨setKind a 3, 0, (nodeAt k' s.node).gen⟩) ∧
    become (fun i => rnsEnc (imSat f) (sOf 32 (v.a i))) (.rEnc f)

/-- 10/R240, R241: a compare leaves all ones or zeros in each enabled lane and every other bit of the record as it was, and
puts nothing, "some enabled lane", or "every enabled lane" into the predicate bit that it names. -/
def Obligations.CompareNodes : Prop :=
  ∀ (s : State) (f : FWord) (k k' : CastLive) (a b : Billet), Fires s f k k' a b → imBsrc f ≠ 2 →
    let v := viewOf f 0 a b
    let fl := laneFl v.w (imAlt f)
    let cc := bits (imLow f) 10 8
    let ci := fun i => ccInt cc (rdLane f v.w (v.a i)) (rdLane f v.w (v.b i))
    let cf := fun i => ccFl cc (fl.unpack (v.a i)) (fl.unpack (v.b i))
    let tagged := fun (c : Nat → Bool) (r : BitVec 256) =>
      let o : Billet := { a with data := r }
      match bits (imLow f) 5 4 with
      | 1 => putPred o (bits (imLow f) 7 6) (v.lanes.any c)
      | 2 => putPred o (bits (imLow f) 7 6) (v.lanes.all c)
      | _ => o
    (∃ r : BitVec 256, exec (.iCmp f) s = fired s f k' ⟨tagged ci r, 0, (nodeAt k' s.node).gen⟩ ∧
      (∀ j < v.n, laneAt v.w (turnRec r.toNat f.fd.toNat) j =
        (if v.en j then (if ci j then 2 ^ v.w - 1 else 0) else v.v j)) ∧
      turnRec r.toNat f.fd.toNat / 2 ^ (v.n * v.w) = v.vv / 2 ^ (v.n * v.w)) ∧
    ∃ (r : BitVec 256) (e : Flags), exec (.fCmp f) s = fired s f k' ⟨tagged (fun i => (cf i).1) r, e, (nodeAt k' s.node).gen⟩ ∧
      (∀ j < v.n, laneAt v.w (turnRec r.toNat f.fd.toNat) j =
        if v.en j then (if (cf j).1 then 2 ^ v.w - 1 else 0) else v.v j) ∧
      turnRec r.toNat f.fd.toNat / 2 ^ (v.n * v.w) = v.vv / 2 ^ (v.n * v.w) ∧
      ∀ m, e.getLsbD m = v.lanes.any fun i => (cf i).2.getLsbD m

/-- 10/R244-R250, R253, R254: the compute instructions that round or raise flags, lane after lane in ascending order with
the rounding generator threaded through. -/
def Obligations.RoundingResults : Prop :=
  ∀ (s : State) (f : FWord) (k k' : CastLive) (a b : Billet), Fires s f k k' a b →
    let g := (nodeAt k' s.node).gen
    let v := viewOf f (immFl f) a b
    let v0 := viewOf f 0 a b
    let fl := laneFl v.w (imAlt f)
    let rm := imOpt f
    let each := fun (v : View) (op : Nat → W32 → Res) => fired s f k' (laneWise v.w f v a g op)
    let fx := fun (g : W32) (r : FVal × Flags) => storeFl fl rm false g r.1 r.2
    let x := fun i => fl.unpack (v.a i)
    let y := fun i => fl.unpack (v.b i)
    let z := fun i => fl.unpack (v.v i)
    let one := fun i => flFp32.unpack (v.a i)
    exec (.fAdd f) s = each v (fun i g => fx g (addV rm (x i) (y i))) ∧
    exec (.fSub f) s = each v (fun i g => fx g (addV rm (x i) (negV (y i)))) ∧
    exec (.fMul f) s = each v (fun i g => fx g (mulV (x i) (y i))) ∧
    exec (.fFma f) s = each v (fun i g => fx g (fmaV rm (x i) (y i) (z i))) ∧
    exec (.fMin f) s = each v (fun i => pickFl fl false (v.a i) (v.b i)) ∧
    exec (.fMax f) s = each v (fun i => pickFl fl true (v.a i) (v.b i)) ∧
    exec (.fAbs f) s = each v (fun i g => ⟨signLane fl false (v.a i), 0, g⟩) ∧
    exec (.fNeg f) s = each v (fun i g => ⟨signLane fl true (v.a i), 0, g⟩) ∧
    exec (.fRcp f) s = each v (fun i g => spRcp g (one i)) ∧
    exec (.fRsq f) s = each v (fun i g => spRsq g (one i)) ∧
    exec (.fExp2 f) s = each v (fun i g => spExp2 g (one i)) ∧
    exec (.fLog2 f) s = each v (fun i g => spLog2 g (one i)) ∧
    exec (.fSig f) s = each v (fun i g => spSig g (one i)) ∧
    exec (.fTanh f) s = each v (fun i g => spTanh g (one i)) ∧
    exec (.cvt f) s = fired s f k' (laneWise (widthOf (bits (imLow f) 10 7)) f v0 a g fun i g =>
      convert (bits (imLow f) 6 3) (bits (imLow f) 10 7) rm (bit (imLow f) 2) g (v0.a i)) ∧
    (∃ (e : List Nat × Nat × Flags × W32),
      e = blockEnc rm g ((List.range 32).map fun i => (laneFl 8 (imAlt f)).unpack (v0.a i)) ∧
      exec (.pack f) s = fired s f k'
        ⟨outBillet f a (v0.vv / 2 ^ 160 * 2 ^ 160 + e.2.1 * 2 ^ 128 + packBits 4 e.1), e.2.2.1, e.2.2.2⟩) ∧
    exec (.unpack f) s = each v0 (fun i g =>
      match scaleExp (laneAt 8 v0.av 16), flE2m1.unpack (laneAt 4 v0.av (v0.n * bits (imLow f) 1 0 + i)) with
      | some x, .fin n m e => toFl fl rm (bit (imLow f) 2) g (.fin n m (e + x))
      | _, _ => ⟨fl.qnan, 0, genFor rm g⟩) ∧
    exec (.rDec f) s = each v0 (fun i g =>
      ⟨wrapN 32 (rnsDec (rnsRead (v0.a i)).1), flagIf (rnsRead (v0.a i)).2 fRV, g⟩) ∧
    exec (.rMac f) s = each v0 (fun i g =>
      ⟨rnsOp (· + ·) (rnsRead (v0.v i)).1 (rnsOp (· * ·) (rnsRead (v0.a i)).1 (rnsRead (v0.b i)).1),
        flagIf ((rnsRead (v0.a i)).2 || (rnsRead (v0.b i)).2 || (rnsRead (v0.v i)).2) fRV, g⟩) ∧
    (bits (imLow f) 5 4 = 2 → (∃ i < v0.n, v0.en i = false) → exec (.red f) s = fired s f k' ⟨setKind a 3, 0, g⟩) ∧
    (bits (imLow f) 5 4 ≠ 2 ∨ (∀ i < v0.n, v0.en i = true) →
      ∃ r, r = redTree f v0.w 6 ((List.range v0.n).map (redLeaf f v0)) 0 g ∧
        exec (.red f) s = fired s f k' ⟨outBillet f a (laneSet v0.w v0.vv 0 r.bits), r.fl, r.gen⟩)

/-- 10/R254: with no lane masked off, the integer sum over a power of two of lanes is the exact sum wrapped. -/
def Obligations.ReductionSum : Prop :=
  ∀ (f : FWord) (w : Nat) (l : List Nat) (fl : Flags) (g : W32) (j : Nat),
    redOp f = 0 → redSat f = false → 0 < w → j ≤ 6 → l.length = 2 ^ j → (∀ x ∈ l, x < 2 ^ w) →
    redTree f w 6 l fl g = ⟨l.sum % 2 ^ w, fl, g⟩

/-- 09/R216, R219, R220, 10/R234, R235: what every compute instruction does when it does not compute. -/
def Obligations.ComputePassing : Prop :=
  ∀ (s : State) (f : FWord) (k : CastLive) (a b : Billet), NodeTurn s k → ∀ i ∈ computeInstrs f,
    let n := s.node
    let k1 := takeA k n
    let k2 := takeB (takeA k n) n
    (headA k n = none → exec i s = .next s) ∧
    (imBsrc f ≠ 1 → headA k n = some a →
      (roomFor k1 n (targetsOf f) = false → exec i s = .next s) ∧
      (roomFor k1 n (targetsOf f) = true →
        (isMarker a = true → exec i s = .next (passMarker s n f k1 a)) ∧
        (isMarker a = false → (isData a = false ∨ pmHolds f a.tag = false) → exec i s = passes s f k1 a))) ∧
    (imBsrc f = 1 → headA k n = some a →
      (headB k n = none → exec i s = .next s) ∧
      (headB k n = some b →
        (isMarker a = true → isMarker b = true → tagSeq a.tag ≠ tagSeq b.tag → exec i s = .next (markerFault s n)) ∧
        (isMarker a ≠ isMarker b → exec i s = .next (markerFault s n)) ∧
        (isMarker a = isMarker b → (isMarker a = true → tagSeq a.tag = tagSeq b.tag) →
          (roomFor k2 n (targetsOf f) = false → exec i s = .next s) ∧
          (roomFor k2 n (targetsOf f) = true →
            (isMarker a = true → exec i s = .next (passMarker s n f k2 a)) ∧
            (isMarker a = false → isData a = false → exec i s = passes s f k2 a) ∧
            (isData a = true → isMarker b = false → isData b = false → exec i s = passes s f k2 b) ∧
            (isData a = true → isData b = true → pmHolds f a.tag = false → exec i s = passes s f k2 a)))))

/-- 11/R262-R271, R285: the flow nodes and `cfg.tok`. 11/R266: `merge` emits a buffered billet whose SEQ is E, and admits
a head whose place is free; a head behind E, or one whose SEQ already waits, is the *sequence* fault. -/
def Obligations.FlowNodes : Prop :=
  (∀ (s : State) (f : FWord) (k : CastLive) (a b : Billet), NodeTurn s k →
    let n := s.node
    let k1 := takeA k n
    let i := f.imm.toNat
    let sends := fun (k : CastLive) (ts : List (BitVec 9)) (x : Billet) => (.next (putCast s n (emitTo k n ts x)) : Answer)
    (headA k n = some a → roomFor k1 n (targetsOf f) = true →
      (isMarker a = true → ∀ j ∈ ([.fork f, .steer f, .filter f, .mark f, .cfgTok f] : List Instr),
        exec j s = .next (passMarker s n f k1 a)) ∧
      (isMarker a = true → exec (.seq f) s = .next (passMarker s n f (nodeUpd k1 n fun x => { x with seq := 0 }) a)) ∧
      (isMarker a = false →
        exec (.fork f) s = sends k1 (if isData a ∧ !pmHolds f a.tag then [f.t0] else targetsOf f) a ∧
        exec (.steer f) s = sends k1 [if flowCond f a then f.t0 else f.t1] a ∧
        exec (.filter f) s = (if isData a ∧ flowCond f a = false then
          (if bit i 4 then sends k1 (targetsOf f) (setKind a 3) else .next (putCast s n k1))
          else sends k1 (targetsOf f) a) ∧
        exec (.mark f) s = sends k1 (targetsOf f)
          (if (isData a || tagKind a.tag == 2) && pmHolds f a.tag then markBillet f a else a) ∧
        exec (.cfgTok f) s = sends k1 (targetsOf f) (if isData a && pmHolds f a.tag then
          setKind { a with data := setField a.data 7 (bits i 10 0) } 4 else a) ∧
        exec (.seq f) s = sends (nodeUpd k1 n fun x => { x with seq := (nodeAt k n).seq + 1 }) (targetsOf f)
          (setSeq a (nodeAt k n).seq.toNat))) ∧
    (headA k n = some a → isData a = true → headC k n = none → roomFor k1 n (targetsOf f) = true →
      0 < (nodeAt k n).credit → exec (.gate f) s =
        .next (putCast s n (nodeUpd (emitTo k1 n (targetsOf f) a) n fun x => { x with credit := (nodeAt k n).credit - 1 }))) ∧
    (headA k n = some a → isData a = true → headC k n = none → (nodeAt k n).credit = 0 →
      exec (.gate f) s = .next (putCast s n (nodeUpd k n fun x => { x with credit := 0 }))) ∧
    (headA k n = none → headC k n = some b → isMarker b = false → (nodeAt k n).credit < 65535 → exec (.gate f) s =
      .next (putCast s n (nodeUpd (takeC k n) n fun x => { x with credit := (nodeAt k n).credit + 1 }))) ∧
    (headA k n = some a → headB k n = none → isMarker a = false → roomFor k1 n (targetsOf f) = true →
      exec (.mergeU f) s = passes s f k1 a ∧
      ((nodeAt k n).out = false → exec (.recirc f) s = passes s f k1 a)) ∧
    (headB k n = some b → isMarker b = false → roomFor (takeB k n) n (targetsOf f) = true →
      exec (.recirc f) s = passes s f (takeB k n) b ∧
      (headA k n = none → exec (.mergeU f) s = passes s f (takeB k n) b)) ∧
    (headA k n = some a → isMarker a = false → headB k n = some b → isMarker b = false →
      (nodeAt k n).lastB = some false →
      exec (.mergeU f) s = (let k' := takeB (nodeUpd k n fun x => { x with lastB := some true }) n
        if roomFor k' n (targetsOf f) then passes s f k' b else .next s))) ∧
  (∀ (s : State) (f : FWord) (k : CastLive) (a c : Billet), NodeTurn s k → headA k s.node = some a → isMarker a = false →
    headB k s.node = none →
    let n := s.node
    let x := nodeAt k n
    let d := mergeDepth f (blockAt k n.blk)
    (x.buf = [] → seqAhead x.e a < 32768 → 0 < d →
      exec (.merge f) s = .next (putCast s n (nodeUpd (takeA k n) n fun y => { y with buf := y.buf ++ [a] }))) ∧
    (x.buf = [] → 32768 ≤ seqAhead x.e a →
      exec (.merge f) s = .next (nodeStop (putCast s n k) n ⟨cCast, 7, none, 0⟩)) ∧
    (x.buf = [c] → seqAhead x.e c ≠ 0 → tagSeq a.tag = tagSeq c.tag →
      exec (.merge f) s = .next (nodeStop (putCast s n k) n ⟨cCast, 7, none, 0⟩)) ∧
    (x.buf.find? (fun b => seqAhead x.e b = 0) = some c → roomFor k n (targetsOf f) = true →
      exec (.merge f) s = .next (mergeStep2 (putCast s n (mergeEmit f n k c)) n f)))

/-- 11/R272-R274: a turn of a memory node takes the billet at input a when fewer than 8 are held, and emits one whose access
has been performed, at most one in a cycle (09/R214); a marker passes once nothing is held. 06/R144, 11/R272-R277: the access
of a held billet when it is performed. In scratch `ld.s` fills the fields from FD with the words of its offset, `st.s` stores
its fields from FB, and `amo.s` puts the new value; a misaligned span, and one outside the 4 MiB space, stop the node. That
the checks are made when the access is performed is log 49 (DEDUCED); that a turn emits before it takes, and which billet
leaves first under ANY, is log 50 (DEDUCED). -/
def Obligations.MemoryNodes : Prop :=
  (∀ (s : State) (f : FWord) (k : CastLive) (a : Billet), NodeTurn s k →
    ∀ i ∈ ([.ldS f, .stS f, .amoS f, .ldG f, .stG f, .ldC f, .stC f] : List Instr),
    let n := s.node
    let x := nodeAt k n
    let rest := fun (k : CastLive) (h : Held) => nodeUpd k n fun x => { x with held := x.held.filter fun y => y.taken ≠ h.taken }
    (readyHeld (imAny f) s.cycle x = none ∨ n ∈ s.fired ∨ roomFor k n (targetsOf f) = false →
      (headA k n = none → exec i s = .next s) ∧
      (headA k n = some a → isMarker a = false → x.held.length < 8 →
        exec i s = .next (putCast s n (takeHeld f s.cycle n k a))) ∧
      (headA k n = some a → isMarker a = false → 8 ≤ x.held.length → exec i s = .next s) ∧
      (headA k n = some a → isMarker a = true → x.held = [] → roomFor (takeA k n) n (targetsOf f) = true →
        exec i s = .next (passMarker s n f (takeA k n) a)) ∧
      (headA k n = some a → isMarker a = true → x.held ≠ [] → exec i s = .next s)) ∧
    (∀ h, readyHeld (imAny f) s.cycle x = some h → n ∉ s.fired → roomFor k n (targetsOf f) = true →
      let k1 := emitTo (rest k h) n (targetsOf f) h.out
      let z := putCast (s.fire n) n k1
      nodeActs k1 n = true →
      (headA k1 n = none → exec i s = .next z) ∧
      (headA k1 n = some a → isMarker a = false → (nodeAt k1 n).held.length < 8 →
        exec i s = .next (putCast z n (takeHeld f s.cycle n k1 a))))) ∧
  (∀ (s : State) (n : NodeRef) (idx : Nat) (k : CastLive) (f : FWord) (h : Held) (fr : Nat),
    let c := n.cast / 256
    let done := fun (kd : MemKind) =>
      let p := spanOf kd f h.src
      let page := 2048 * p.key + p.base.toNat / 2048
      let o := frameAddr c fr (p.base.toNat % 2048)
      let t := useBanks (touchPage s c page) o p.size
      match kd with
      | .stS => heldDone { t with sram := memWriteMask t.sram o (storeWords f h.src p.size) } n h.taken h.src .performed
      | .amoS =>
        let r := amoNode f h.src (leNat (frameBytes t c fr (p.base.toNat % 2048) p.size))
        flagCast (heldDone { t with sram := memWrite t.sram o (natLe p.size r.1) } n h.taken r.2.2 .performed) n.cast
          h.inv r.2.1
      | _ => heldDone t n h.taken (loadWords f h.src (frameBytes t c fr (p.base.toNat % 2048) p.size)) .performed
    (castSlot s n.cast).live = some k → k.dead = false → (nodeAt k n).stop = false → (nodeAt k n).page = none →
    (nodeAt k n).held.find? (fun h => h.taken = idx) = some h →
    ∀ ki ∈ ([(.ldS, .ldS f), (.stS, .stS f), (.amoS, .amoS f)] : List (MemKind × Instr)),
    let kd := ki.1
    let p := spanOf kd f h.src
    let e : Option Word := some (BitVec.ofNat 64 (fieldOf h.src.data f.fa.toNat))
    nodeInstr s n = some ki.2 → heldFree s kd f k n h = true →
    (spanAligned kd p = true → 0 ≤ p.base → p.base + p.size ≤ 2 ^ 22 →
      resolvePage s c (2048 * p.key + p.base.toNat / 2048) k.asid (kd ≠ .ldS) = .frame fr →
      (kd = .stS ∨ badBank s (frameAddr c fr (p.base.toNat % 2048)) p.size = false) →
      exec (.nodeAccessPerformed n idx) s = .next (emitAfter (done kd) n f)) ∧
    (spanAligned kd p = false → exec (.nodeAccessPerformed n idx) s =
      .next (emitAfter (nodeStop (updNode s n fun x => setHeld x h.taken .stopped) n ⟨cAlign, 0, e, 0⟩) n f)) ∧
    (spanAligned kd p = true → (p.base < 0 ∨ 2 ^ 22 < p.base + p.size) → exec (.nodeAccessPerformed n idx) s =
      .next (emitAfter (nodeStop (updNode s n fun x => setHeld x h.taken .stopped) n ⟨cScratch, 3, e, 0⟩) n f)))

/-- 11/R273-R275, 04/R96, R97, 07 Table 7.3, R167, R172: the access of a held billet through a binding, and of one to a curd,
when it is performed (how the parts of an access that crosses a line are made: logs 49 and 50). `ld.g` fills the fields from
FD with the words it reads and `st.g` stores its fields from FB; the stream keeps the page's translation; one that cannot be
translated is diverted to the spill queue with its fault, and so, without one, is every later access to that page. `ld.c`
waits for the seal, takes its invocation's share and reads; `st.c` writes an open curd. 21/R441: where a re-run of a launch's
`ld.c` finds the curd spent by its own final shares, the fault is *overread* (log 76, DEDUCED, tells a re-run). -/
def Obligations.NodeAccesses : Prop :=
  ∀ (s z : State) (n : NodeRef) (idx va : Nat) (k : CastLive) (f : FWord) (h : Held) (u : CurdLive),
    let c := n.cast / 256
    let x := nodeAt k n
    let stops := fun (s : State) (cause sub : Nat) (a : Word) => (.next (emitAfter
      (nodeStop (updNode s n fun x => setHeld x h.taken .stopped) n ⟨cause, sub, some a, 0⟩) n f) : Answer)
    (castSlot s n.cast).live = some k → k.dead = false → x.stop = false → x.page = none →
    x.held.find? (fun h => h.taken = idx) = some h →
    (∀ ki ∈ ([(.ldG, .ldG f, rR, .load), (.stG, .stG f, rW, .store)] : List (MemKind × Instr × BitVec 5 × Need)),
      let kd := ki.1
      let p := spanOf kd f h.src
      let hk := bindingOf k h.inv (bits f.imm.toNat 20 16)
      let store := decide (kd = .stG)
      nodeInstr s n = some ki.2.1 → heldFree s kd f k n h = true →
      (spanAligned kd p = false → exec (.nodeAccessPerformed n idx) s = stops s cAlign 0 (vaOf hk p.base)) ∧
      (spanAligned kd p = true → checkHandle hk p.base p.size ki.2.2.1 k.asid = .ok va →
        (behindSpill s n va = true →
          exec (.nodeAccessPerformed n idx) s = .next (emitAfter (divert s n h.taken va store none) n f)) ∧
        (behindSpill s n va = false → linesOf va p.size = [(va, p.size)] →
          (∀ e, streamTranslate s c x.stream k.asid va ki.2.2.2 = .error e → e.cause = cTrans →
            exec (.nodeAccessPerformed n idx) s = .next (emitAfter (divert s n h.taken va store (some e)) n f)) ∧
          (∀ tg y, streamTranslate s c x.stream k.asid va ki.2.2.2 = .ok (tg, y) →
            (kd = .ldG → ∀ g, accRead (noteStream s c x.stream k.asid va) (nodeAgent k n) tg p.size (BitVec.ofNat 64 va) = .ok g →
              g.err = none → exec (.nodeAccessPerformed n idx) s = .next (emitAfter (heldDone
                (updNode g.st n fun x => { x with stream := y }) n h.taken (loadWords f h.src g.bytes)
                (heldAfter g.wait true) g.undo) n f)) ∧
            (kd = .stG → ∀ g, accWrite (noteStream s c x.stream k.asid va) (nodeAgent k n) tg (storeWords f h.src p.size) false
                (BitVec.ofNat 64 va) = .ok g →
              g.err = none → exec (.nodeAccessPerformed n idx) s = .next (emitAfter (heldDone
                (updNode g.st n fun x => { x with stream := y }) n h.taken h.src (heldAfter g.wait true) g.undo) n f)))))) ∧
    (let p := spanOf .ldC f h.src
     let a := BitVec.ofNat 64 p.key
     let o := curdAddr c u p.base.toNat
     nodeInstr s n = some (.ldC f) → heldFree s .ldC f k n h = true → spanAligned .ldC p = true →
     curdAt s c k.asid p.key = .ok u → 0 ≤ p.base → p.base + p.size ≤ curdSize u →
     (u.isSealed = false → exec (.nodeAccessPerformed n idx) s = .next (emitAfter s n f)) ∧
     (u.isSealed = true → nodeShare s n h.inv (chIndex p.key) u x = none →
       exec (.nodeAccessPerformed n idx) s = stops s cCurd 3 a) ∧
     (u.isSealed = true → nodeShare s n h.inv (chIndex p.key) u x = some z → badBank z o p.size = false →
       exec (.nodeAccessPerformed n idx) s = .next (emitAfter (heldDone (useBanks z o p.size) n h.taken
         (loadWords f h.src (curdBytes z c u p.base.toNat p.size)) .performed) n f))) ∧
    (∀ e, nodeInstr s n = some (.ldC f) → heldFree s .ldC f k n h = true → spanAligned .ldC (spanOf .ldC f h.src) = true →
      curdAt s c k.asid (spanOf .ldC f h.src).key = .error e → e.sub = 0 →
      drainedHere s k n (spanOf .ldC f h.src).key = true → exec (.nodeAccessPerformed n idx) s = .next (emitAfter
        (nodeStop (updNode s n fun x => setHeld x h.taken .stopped) n ⟨cCurd, 3, e.addr, 0⟩) n f)) ∧
    (let p := spanOf .stC f h.src
     nodeInstr s n = some (.stC f) → heldFree s .stC f k n h = true → spanAligned .stC p = true →
     curdAt s c k.asid p.key = .ok u → 0 ≤ p.base → p.base + p.size ≤ curdSize u →
     (u.isSealed = true → exec (.nodeAccessPerformed n idx) s = stops s cCurd 5 (BitVec.ofNat 64 p.key)) ∧
     (u.isSealed = false → exec (.nodeAccessPerformed n idx) s = .next (emitAfter (heldDone
       (useBanks (curdWrite s c u p.base.toNat (storeWords f h.src p.size)) (curdAddr c u p.base.toNat) p.size)
       n h.taken h.src .performed) n f))) ∧
    (u.isSealed = true → (h.inv, chIndex (spanOf .ldC f h.src).key) ∉ x.shares →
      (u.fin - u.pend = 0 → nodeShare s n h.inv (chIndex (spanOf .ldC f h.src).key) u x = none) ∧
      (0 < u.fin - u.pend → nodeShare s n h.inv (chIndex (spanOf .ldC f h.src).key) u x = some (takeShare
        (updNode s n fun x => { x with shares := x.shares ++ [(h.inv, chIndex (spanOf .ldC f h.src).key)] }) c
        (chIndex (spanOf .ldC f h.src).key))))

/-- 11/R278-R284: the address generator, the curd nodes and the island nodes. `ag` takes a request, reads its nest descriptor
and tests it before it emits anything (11/R279). `c.alloc` fires once in a cycle (09/R214). `c.seal` fires the invocation's
marker once it has retired at every `st.c` node, and commits the seals recorded (11/R281). -/
def Obligations.OtherNodes : Prop :=
  ∀ (s : State) (f : FWord) (k : CastLive) (a : Billet), NodeTurn s k →
    let n := s.node
    let c := n.cast / 256
    let k1 := takeA k n
    let x := nodeAt k n
    let island := bits f.imm.toNat 2 0
    let isl := s.island c island
    (∀ t, x.nest = some t → roomFor k n (targetsOf f) = true → exec (.ag f) s =
      .next (putCast s n (emitTo (nodeUpd k n fun x => { x with nest := nestNext f t }) n (targetsOf f)
        (nestBillet f t)))) ∧
    (headA k n = some a → x.nest = none → x.held = [] → isData a = true → pmHolds f a.tag = true →
      let h : Held := { src := a, out := a, st := .waiting, taken := x.ntake, since := s.cycle, perf := 0, inv := x.inv }
      let k2 := nodeUpd k1 n fun x => { x with held := [h], ntake := x.ntake + 1 }
      let off := fieldOf a.data f.fa.toNat
      let stops := fun (z : State) => Host.Outcome.next
        (nodeStop (updNode z n fun x => setHeld x h.taken .stopped) n ⟨cCast, 8, none, 0⟩)
      (off % 64 ≠ 0 → exec (.ag f) s = stops (putCast s n k2)) ∧
      ∀ va b z, off % 64 = 0 →
        checkHandle (bindingOf k2 h.inv (bits f.imm.toNat 20 16)) off 64 rR k2.asid = .ok va →
        readIssue (putCast s n k2) (nodeAgent k2 n) va 64 = .ok (b, z) →
        let dsc := leNat b
        let nd := bits dsc 321 320
        let tk := bits dsc 323 322
        let a64 := bit f.imm.toNat 13
        let bound := fun j => bits dsc (95 + 32 * j) (64 + 32 * j)
        let step := fun j => sOf 32 (bits dsc (223 + 32 * j) (192 + 32 * j))
        let dims := (List.range (nd + 1)).map fun j => (bound j, step j)
        let base : Int := sOf 64 (bits dsc 63 0) + if bit f.imm.toNat 14 then sOf 32 (fieldOf a.data f.fb.toNat) else 0
        let full := dims.all fun y => y.1 ≠ 0
        let lo := base + (dims.map fun y => min 0 (y.2 * ((y.1 : Int) - 1))).sum
        let hi := base + (dims.map fun y => max 0 (y.2 * ((y.1 : Int) - 1))).sum
        let limit : Int := if tk = 0 then 2 ^ 22 - 1 else if tk = 2 then 65535 else if a64 then 2 ^ 63 - 1 else 2 ^ 32 - 1
        let total := if full then (dims.map (·.1)).prod else 0
        let bad := bits dsc 511 334 ≠ 0 ∨ tk = 3 ∨ (bits dsc 333 324 ≠ 0 ∧ tk ≠ 0) ∨
          (∃ j < 4, nd < j ∧ (bound j ≠ 0 ∨ step j ≠ 0)) ∨ (a64 = true ∧ tk ≠ 1) ∨ (full = true ∧ (lo < 0 ∨ limit < hi))
        (bad → exec (.ag f) s = stops z) ∧
        (¬ bad → exec (.ag f) s = .next (updNode z n fun x => { x with
          held := []
          nest := if 0 < total + b2n (bit f.imm.toNat 15) then some ⟨a, base, dims, tk, bits dsc 333 324, 0, total⟩
            else none }))) ∧
    (headA k n = some a → isMarker a = true → roomFor k1 n (targetsOf f) = true →
      ((∃ j ∈ storeCurdNodes k, (nodeOf k j).inv ≤ x.inv) → exec (.cSeal f) s = .next s) ∧
      ((∀ j ∈ storeCurdNodes k, x.inv < (nodeOf k j).inv) → sealWaits s f n.cast k = false →
        (∀ h ∈ x.seals, ∀ u, currentCurd s h.toNat = some u → u.isSealed = false) →
        exec (.cSeal f) s =
          .next (passMarker (commitSeals s n x.seals) n f (nodeUpd k1 n fun x => { x with seals := [] }) a))) ∧
    (∀ l : List W32, (∀ h ∈ l, chCluster h.toNat = c) → ∀ h ∈ l, ∀ u, currentCurd s h.toNat = some u →
      currentCurd (commitSeals s n l) h.toNat = some { u with isSealed := true }) ∧
    (headA k n = some a → roomFor k1 n (targetsOf f) = true → isMarker a = false → tagKind a.tag ≠ 4 →
      (isData a = false ∨ pmHolds f a.tag = false) →
      (x.nest = none → x.held = [] → exec (.ag f) s = passes s f k1 a) ∧
      (n ∉ s.fired → exec (.cAlloc f) s = passes (s.fire n) f k1 a) ∧
        exec (.cSeal f) s = passes s f k1 a ∧ exec (.aRow f) s = passes s f k1 a ∧
      (x.req = none → exec (.accRd f) s = passes s f k1 a)) ∧
    (n ∈ s.fired → exec (.cAlloc f) s = .next s) ∧
    (headA k n = some a → roomFor k1 n (targetsOf f) = true → isData a = true → pmHolds f a.tag = true →
      (∀ w i, n ∉ s.fired → requestWord f a = some w → partFor s c k.part k.asid = true →
        testGrant s c k.part (bits w 16 12 + 1) (decide (k.resHeld + (bits w 16 12 + 1) ≤ k.depth)) = .granted i →
        let pages := bits w 16 12 + 1
        let own := decide (k.resHeld + pages ≤ k.depth)
        let r := allocCurd s c (nodeCore k n) i k.part pages (bits w 11 0) (bit w 17) k.launch k.loader
          (some (castRef s n.cast, x.inv)) own
        exec (.cAlloc f) s = .next (updCast (r.1.fire n) n.cast fun k =>
          emitTo (takeA { k with resHeld := if own then k.resHeld + pages else k.resHeld } n) n (targetsOf f)
            { a with data := setField a.data f.fd.toNat r.2 })) ∧
      (n ∉ s.fired → requestWord f a = none → exec (.cAlloc f) s = .next (nodeStop s n ⟨cCurd, 7, none, 0⟩)) ∧
      (∀ u, curdAt s c k.asid (fieldOf a.data f.fa.toNat) = .ok u → u.isSealed = false → x.seals = [] →
        exec (.cSeal f) s = passes s f (nodeUpd k1 n fun x => { x with seals := x.seals ++
          [BitVec.ofNat 32 (fieldOf a.data f.fa.toNat)] }) a) ∧
      (∀ b z, aRowBytes s f n k a (acceptedLen isl) = .ok (b, z) →
        (holdsIsland (z.island c island) k.launch = false → exec (.aRow f) s = .next (nodeStop z n ⟨cIsland, 0, none, 0⟩)) ∧
        (holdsIsland (z.island c island) k.launch = true → islandRoom (z.island c island) = false →
          exec (.aRow f) s = .next z) ∧
        (holdsIsland (z.island c island) k.launch = true → islandRoom (z.island c island) = true → exec (.aRow f) s =
          .next (updCast (acceptItem z c island (nodeSrc z n k) (.row b (BitVec.ofNat 9 (fieldOf a.data f.fb.toNat))))
            n.cast fun k => emitTo (takeA k n) n (targetsOf f) a))) ∧
      (x.req = none → holdsIsland isl k.launch = true → islandRoom isl = true → exec (.accRd f) s =
        (let z := putCast s n (nodeUpd k1 n fun x => { x with req := some a, nreq := x.nreq + 1 })
         .next (acceptItem z c island (nodeSrc z n k) (.readout (BitVec.ofNat 9 (fieldOf a.data f.fa.toNat)) x.nreq)))) ∧
      (x.req = none → holdsIsland isl k.launch = false →
        exec (.accRd f) s = .next (nodeStop s n ⟨cIsland, 0, none, 0⟩)))

/-! ## Events -/

/-- 05/R110, R112, R115, R119, R120, 01/R17: a streamer moves elements of the queue that it picks, once in a cycle, ends an
entry whose elements have all been copied, or whose queue storage holds an error (17/R403), and begins the next entry of a
schedule when its ring has a free slot. 06/R146-R150, 07/R163: the page engine: a page comes in from its backing slot, goes
out to it, and is moved between frames; a curd request that waits is granted in a cycle that steps its node's context
(09/R214). 05/R126: the entry at a schedule's head is read and checked once, and waits for its ring's slot. 13/R318: the page
copy of an APPEND moves by beats of its island, where the island chooses it (after queue 7: log 43, DEDUCED). -/
def Obligations.CopyAndPageEvents : Prop :=
  (∀ (s s' : State) (c i q pa : Nat) (e : CopyEntry) (r : List CopyEntry) (d : Sched) (sh : Shape) (roff : Word),
    let x := s.squeue c i q
    let moved := fun (y : State) => ({ y with beats := y.beats ++ [4 * c + i] } : State)
    (4 * c + i ∈ s.beats → exec (.streamerBeat c i q) s = .next s) ∧
    (q < 8 → readyHead s c i q = some e → 4 * c + i ∉ s.beats → chooseQueue s c i = some q → x.bad = true →
      exec (.streamerBeat c i q) s = .next (moved (showProgress ((updHead s c i q fun e => { e with
        begun := true, err := true, since := s.cycle }).updStreamer c i fun x => { x with lastq := q }) e e.done))) ∧
    (q < 8 → readyHead s c i q = some e → 4 * c + i ∉ s.beats → chooseQueue s c i = some q → x.bad = false →
      ∀ z k stop, moveElems c e (256 / e.shape.esz) s e.done = (z, k, stop) → (∀ ex, stop ≠ .halts ex) →
        (∀ keep, moveElem s c e e.done ≠ .error (.stall keep)) →
        exec (.streamerBeat c i q) s = .next (moved (showProgress ((updHead z c i q fun e => { e with
          begun := true, done := k, err := stop = .failed, since := z.cycle }).updStreamer c i fun x => { x with lastq := q })
          e k))) ∧
    (q < 8 → readyHead s c i q = none → exec (.streamerBeat c i q) s = .next s) ∧
    (∀ id y src dst rows b who reg, pageCopy s c i = some (id, .append y src dst rows b who reg) → 4 * c + i ∉ s.beats →
      chooseQueue s c i = some 8 →
      let n := Nat.min 256 (pageBytes s y rows - b.done)
      let z := kvCopyBytes s y.q (rowOff s y.q.poolRef src 0 + b.done) (rowOff s y.q.poolRef dst 0 + b.done) n
      exec (.streamerBeat c i 8) s = .next (moved { z.updStreamer c i fun x => { x with lastq := 8 } with
        kvCopies := tabPut z.kvCopies id (.append y src dst rows { b with done := b.done + n } who reg) })) ∧
    (x.entries = e :: r → x.halt = none → (e.err = true ∨ copyTotal e.shape ≤ e.done) →
      ringAt s e.asid e.hr e.roff.toInt = .ok pa → ringWf (ringGet s pa) = true →
      exec (.copyCompletion c i q) s = .next (settleLaunches (ringComplete
        (touchRing (finishEntry s c i q e) e.asid e.hr e.roff.toInt pa) pa e.slot.toNat e.err))) ∧
    (x.entries = e :: r → x.halt = none → (e.err = true ∨ copyTotal e.shape ≤ e.done) →
      ringAt s e.asid e.hr e.roff.toInt = .ok pa → ringWf (ringGet s pa) = false → (launchOf s e.owner.l).isSome = true →
      exec (.copyCompletion c i q) s = .next (haltQueue s c i q e.owner ⟨cRing, 0, some e.roff, 0⟩)) ∧
    (∀ y, x.sched = some d → x.halt = none → x.entries = [] → d.comp < d.sc → headEntry s c d = .ok (y, pa, s') →
      let z := s'.updSqueue c i q fun x => { x with sched := x.sched.map fun d => { d with head := some y } }
      (sub32 (rgIp (ringGet s' pa)) (rgRp (ringGet s' pa)) = rgN (ringGet s' pa) →
        exec (.scheduleEntryBegin c i q) s = .next z) ∧
      (sub32 (rgIp (ringGet s' pa)) (rgRp (ringGet s' pa)) ≠ rgN (ringGet s' pa) →
        exec (.scheduleEntryBegin c i q) s = .next (acceptEntry z c i q y.shape (tabGet d.hs y.shape.sh {})
          (tabGet d.hs y.shape.dh {}) d.hk y.roff pa d.asid d.cls d.owner d.core (gateOf d d.comp) y.share))) ∧
    (d.head = none → schedEntry s c d = .ok (sh, roff, pa, s') → headEntry s c d =
      .ok (⟨sh, roff, decide (sh.skind = .curd)⟩, pa, if sh.skind = .curd then takeShare s' c (chIndex sh.scurd.toNat) else s')) ∧
    (∀ y, d.head = some y → ringAt s d.asid d.hk y.roff.toInt = .ok pa → ringWf (ringGet s pa) = true →
      headEntry s c d = .ok (y, pa, touchRing s d.asid d.hk y.roff.toInt pa)) ∧
    (x.sched = some d → d.sc ≤ d.comp → exec (.scheduleEntryBegin c i q) s = .next s)) ∧
  (∀ (s : State) (c k core f src dst : Nat),
    let e := sttEntry s c k
    let moves := (s.cluster c).moves
    (MemoryForm s → f < 6144 → UnitRef.scratchFrame c f ∉ s.rel.retired → tabFind moves k = some (.pageIn f) →
      ∃ t, exec (.pageIn c k) s = .next t ∧
      frameBytes t c f 0 2048 = memBytes s.mem (slotAddr c (eSlot e)) 2048 ∧
      eSt (sttEntry t c k) = 1 ∧ eFrame (sttEntry t c k) = f ∧ (t.cluster c).moves = tabDel moves k) ∧
    (tabFind moves k = some (.pageOut f) → exec (.pageOut c k) s = .next (endPageOut s c k f)) ∧
    (tabFind moves k = none → exec (.pageOut c k) s = .next s) ∧
    (tabFind moves k = some (.reloc src dst) → exec (.relocation c k core) s = .next (endReloc s c k src dst)) ∧
    (tabFind moves k = none → tabFind (s.cluster c).wants k = some core → eSt e = 2 →
      ∀ z, frameOrEvict s c core = some (z, f) → exec (.pageIn c k) s = .next (beginPageIn z c k f)) ∧
    (tabFind moves k = none → eSt e = 1 → eProt e ≠ 2 → eFrame e / 128 ≠ core → freeOfCore (s.cluster c) core = some f →
      exec (.relocation c k core) s = .next (beginReloc s c k f)) ∧
    (∀ n cl g a, (castSlot s n.cast).live = some cl → nodeInstr s n = some (.cAlloc g) →
      (steppedNow s cl n = true → nodeActs cl n = true → headA cl n = some a → isData a = true → pmHolds g a.tag = true →
        exec (.curdGrant n) s = .next (allocTurn s g n cl)) ∧
      (steppedNow s cl n = false → exec (.curdGrant n) s = .next s)))

/-- 09/R214, 16/R380, R381, 17/R397-R400: a casting's configuration loads, it moves to other pages, it parks, it returns with what
it is owed, a demand expires, and a class-0 launch forces a casting off its pages. What class 0 wants, the order of return, and
which demands stand are log 56 (DEDUCED); that a casting that drains is never forced for its pages is log 54 (DEDUCED). -/
def Obligations.CastingEvents : Prop :=
  ∀ (s : State) (cid : Nat) (k : CastLive), movable s cid = some k →
    (∀ own, k.place = .placed own →
      exec (.castingConfigurationLoaded cid) s = .next (updCast s cid fun k => { k with loaded := true }) ∧
      (∀ pages, mayMove s cid k own pages = true → exec (.castingMove cid pages) s =
        .next (updCast s cid fun k => { k with place := .placed pages, moved := some s.cycle })) ∧
      (∀ pages, mayMove s cid k own pages = false → exec (.castingMove cid pages) s = .next s) ∧
      (atBoundary k = true → toPark s cid k own = true → exec (.castingSlice cid) s =
        .next (updCast s cid fun k => { k with place := .parked s.cycle, loaded := false })) ∧
      (atBoundary k = false → exec (.castingSlice cid) s = .next s) ∧
      exec (.castingReturn cid) s = .next s ∧
      (inTheWay s cid k own = true → isDraining k.blocks = false → atBoundary k = false →
        (∃ t ∈ class0Wants s (cid / 256), us6 ≤ s.cycle - t) →
        exec (.forcedPreemption cid) s = .next (forceCasting s cid)) ∧
      (isDraining k.blocks = true → exec (.forcedPreemption cid) s = .next s)) ∧
    (∀ t, k.place = .parked t →
      (firstParked s (cid / 256) k.cls t = true →
        ∀ pages, choosePages s (cid / 256) k.core k.cls k.blocks = some pages → exec (.castingReturn cid) s =
          .next (updCast s cid fun k => giveTokens { k with place := .placed pages, since := s.cycle })) ∧
      exec (.castingSlice cid) s = .next s ∧ exec (.castingConfigurationLoaded cid) s = .next s) ∧
    ∀ key, ∃ u, exec (.demandExpiry key) s = .next u ∧ u.mem = s.mem ∧ u.threads = s.threads ∧
      (u.cluster (keyCluster key)).demands =
        (s.cluster (keyCluster key)).demands.filter fun d => decide (d.key ≠ key ∨ s.cycle - d.last < us100)

/-- 12/R293-R298, R303, R304, R306, R309: an island that is not halted performs the item at the head of its order, the markers
before it passed over; a halted island performs none. 01/R17: a row fires once the rate of its mode allows it. 17/R403: an
item that reads an accumulator row with an uncorrectable error raises the data error, and is discarded as 12 Table 12.7
discards the items of a fault (the table has no such row: log 19, DEDUCED); one that writes the row clears it (log 19). -/
def Obligations.IslandEvents : Prop :=
  ∀ (s : State) (c i : Nat) (y : ItemIn) (r : List ItemIn),
    let x := s.island c i
    let z := s.updIsland c i fun x => { x with order := y :: r }
    let pop := fun (f : Island → Island) => popHead (z.updIsland c i f) c i
    let all := ([.rowFire c i, .readoutPerform c i, .bindPerform c i, .modeItemPerform c i, .scaleItemPerform c i,
      .accItemPerform c i, .unpinItemPerform c i, .configTokenPerform c i] : List Instr)
    (x.halt = true ∨ 8 ≤ x.link.length → ∀ e ∈ all, exec e s = .next s) ∧
    (x.halt = false → x.link.length < 8 → dropMarkers x.order = y :: r →
      (∀ w, y.it = .mode w →
        (mdRel w.toNat = false → exec (.modeItemPerform c i) s = .next (pop fun x => { x with mode := some w })) ∧
        (mdRel w.toNat = true → exec (.modeItemPerform c i) s = .next (resetIsland z c i .free))) ∧
      (∀ b, y.it = .scale b → exec (.scaleItemPerform c i) s = .next (pop fun x => setScales x 0 b)) ∧
      (y.it = .unpin → exec (.unpinItemPerform c i) s = .next (match x.cur with
        | some t => unpinTile (pop fun x => { x with cur := none }) t
        | none => pop fun x => { x with cur := none })) ∧
      (∀ op sel n fill, y.it = .acc op sel n fill →
        let rows := (List.range n).map (sel.toNat + ·)
        (2 ≤ op → (∃ r ∈ rows, r ∈ x.badRows) →
          exec (.accItemPerform c i) s = .next (islandFault z c i y.src ⟨cData, 0, none, 0⟩ true)) ∧
        ((op < 2 ∨ ∀ r ∈ rows, r ∉ x.badRows) → ∃ a f,
        (a, f) = ((List.range (128 * n)).map (128 * sel.toNat + ·)).foldl (fun (st : Tab W32 × Flags) key =>
          (tabPut st.1 key (accWord op fill (tabGet st.1 key 0)).1, st.2 ||| (accWord op fill (tabGet st.1 key 0)).2))
          (x.acc, 0) ∧
        exec (.accItemPerform c i) s =
          .next (popHead (flagItem (z.updIsland c i fun x => { x with
            acc := a, badRows := x.badRows.filter fun b => !rows.contains b }) y.src f) c i))) ∧
      (∀ b sel, y.it = .row b sel →
        (∀ e, rowFault x = some e → exec (.rowFire c i) s = .next (islandFault z c i y.src e true)) ∧
        (∀ w t, x.mode = some w → x.cur = some t → rowFault x = none → slotFree w.toNat s.cycle x.slot = false →
          exec (.rowFire c i) s = .next z) ∧
        (∀ w t, x.mode = some w → x.cur = some t → rowFault x = none → slotFree w.toNat s.cycle x.slot = true →
          sel.toNat ∈ x.badRows → exec (.rowFire c i) s = .next (islandFault z c i y.src ⟨cData, 0, none, 0⟩ true)) ∧
        (∀ w t, x.mode = some w → x.cur = some t → rowFault x = none → slotFree w.toNat s.cycle x.slot = true →
          sel.toNat ∉ x.badRows →
          let p := fireRow { x with order := y :: r } w.toNat t b sel.toNat
          exec (.rowFire c i) s = .next (popHead (flagItem (z.updIsland c i fun _ =>
            { p.1 with slot := nextSlot w.toNat s.cycle x.slot }) y.src p.2) c i))) ∧
      (∀ sel num n g l inv k, y.it = .readout sel num → y.src = .node n g l inv → (castSlot s n.cast).live = some k →
        (sel.toNat ∈ x.badRows →
          exec (.readoutPerform c i) s = .next (islandFault z c i y.src ⟨cData, 0, none, 0⟩ true)) ∧
        (sel.toNat ∉ x.badRows → (castSlot s n.cast).gen = g → (nodeAt k n).req.isSome = true →
          (nodeAt k n).nreq = num + 1 →
          exec (.readoutPerform c i) s = .next ((popHead z c i).updIsland c i fun q => { q with link := q.link ++
            [⟨n, (List.range 128).map fun j => tabGet x.acc (128 * sel.toNat + j) 0⟩] })) ∧
        (sel.toNat ∉ x.badRows →
          ((castSlot s n.cast).gen ≠ g ∨ (nodeAt k n).req = none ∨ (nodeAt k n).nreq ≠ num + 1) →
          exec (.readoutPerform c i) s = .next (popHead z c i))) ∧
      (∀ d t, y.it = .bind d → x.pending = some t →
        (t.refused = true → exec (.bindPerform c i) s = .next (islandFault z c i y.src ⟨cIsland, 4, none, 0⟩ true)) ∧
        (t.refused = false → t.mapped = false → exec (.bindPerform c i) s =
          .next (match fetchTile z c i (islandAgent z c { x with order := y :: r }).asid d with
            | (u, none) => u
            | (u, some e) => islandFault u c i y.src e false)) ∧
        (t.refused = false → t.mapped = true → tileUnscaled z t = false → t.granted = true → t.loaded = true →
          exec (.bindPerform c i) s = .next (makeCurrent z c i { x with order := y :: r } t)) ∧
        (t.refused = false → t.mapped = true → tileUnscaled z t = true → exec (.bindPerform c i) s =
          .next (islandFault z c i y.src ⟨cIsland, 2, none, 0⟩ true))) ∧
      (∀ csel b, y.it = .token csel b →
        let w := fieldOf b.data 0
        (bits csel.toNat 10 9 = 0 → exec (.configTokenPerform c i) s = .next (pop fun x => setScales x
          (16 * bits csel.toNat 2 0) ((List.range 16).map fun m => BitVec.ofNat 8 (fieldOf b.data (m / 4) / 256 ^ (m % 4))))) ∧
        (bits csel.toNat 10 9 ≠ 0 → modeOk w = true → mdRel w = false → exec (.configTokenPerform c i) s =
          .next (pop fun x => { x with mode := some (BitVec.ofNat 64 w) })) ∧
        (bits csel.toNat 10 9 ≠ 0 → (modeOk w = false ∨ mdRel w = true) → exec (.configTokenPerform c i) s =
          .next (islandFault z c i y.src ⟨cIsland, 1, none, 0⟩ true)))) ∧
    (∀ t, x.pending = some t → t.granted = true → t.loaded = false →
      tileBadLine s (islandAgent s c x) t = false →
      tileUnscaled s t = false → ∃ u, exec (.tileLoadComplete c i) s = .next u ∧
        (u.island c i).pending = some { t with
          loaded := true, cols := (List.range 128).map (loadColumn s (islandAgent s c x) t) })

/-- 13/R317, R319, R320, R325: the copies of key-value pages end, and a closed window that is its sequence's oldest
commits, once its release waits for nothing. That an append's copy is moved by a streamer island's beats, whose bytes it
counts, is 13/R318; that a demotion on a sequence no longer open only fills the register, and that a promotion of a closed
sequence frees its page, is the model's reading (log 58); so are the reads and writes of the tables as uses of the L2 cache
(log 58) and the wait of a window's release at its commit point (log 75). -/
def Obligations.KeyValueEvents : Prop :=
  ∀ (s : State) (id : Nat) (r : SeqRef) (i src dst rows page slot ring : Nat) (b : Bool) (pb : PageBeats) (who : ThreadRef)
    (reg : RegLoc) (w : Window),
    let p := r.q.poolRef
    (tabFind s.kvCopies id = some (.append r src dst rows pb who reg) →
      (pb.done < pageBytes s r rows → exec (.appendPageCopyComplete id) s = .next s) ∧
      (pageBytes s r rows ≤ pb.done → exec (.appendPageCopyComplete id) s = .next (readyResult (dropCopy s id) who reg))) ∧
    (tabFind s.kvCopies id = some (.demote r i page slot who reg) →
      let z := noteSpans (kvCopyBytes s r.q (pageOff s p page) (slotOff s p slot) (pageLen s p))
        [recordSpan r.q, entrySpan r.q i, descSpan s p page]
      ((stillOpen s r && leSt (listEntry s r.q i) == 0 && lePage (listEntry s r.q i) == page) = true →
        exec (.demoteComplete id) s = .next (readyResult (dropCopy
          (setEntry4 (freePage z p page) r.q i (mkList slot 0 2)) id) who reg)) ∧
      (stillOpen s r = false → exec (.demoteComplete id) s = .next (readyResult (dropCopy z id) who reg))) ∧
    (tabFind s.kvCopies id = some (.promote r i page slot ring b who) → exec (.promotionCopyBegin id) s =
      .next { s with kvCopies := tabPut s.kvCopies id (.promote r i page slot ring true who) }) ∧
    (tabFind s.kvCopies id = some (.promote r i page slot ring false who) →
      exec (.promotionComplete id) s = .next s) ∧
    (tabFind s.kvCopies id = some (.promote r i page slot ring true who) →
      let z := kvCopyBytes s r.q (slotOff s p slot) (pageOff s p page) (pageLen s p)
      exec (.promotionComplete id) s = .next (promotionSlot (dropCopy
        (if stillOpen s r then setEntry4 z r.q i (mkList page 0 0) else freePage z p page) id) r ring false who)) ∧
    ((tabGet s.wins id {}).live = some w →
      (w.st = .closing → w.waits = false → (∀ x ∈ seqWindows s w.seq, w.ord ≤ x.2.ord) →
        exec (.commitPoint id) s = .next (retireWindow s id w.keep)) ∧
      (w.st ≠ .closing ∨ w.waits = true → exec (.commitPoint id) s = .next s) ∧
      ((∃ x ∈ seqWindows s w.seq, x.2.ord < w.ord) → exec (.commitPoint id) s = .next s))

/-- 16/R372-R374, R377-R379, R381, R384, 17/R402: the dispatcher reads its queues, checks the record at HEAD, starts the
launch that its priorities pick, steals, and kills a launch past its limit. The model's readings: the home is kept from the
check (log 29); a steal is taken only for the queue that weighted round robin would pick, and a launch that it picks is rejected
for cause 7 (log 61); and the watchdog's limit is compared at 800 cycles a microsecond, and its kill record written with the free
words of log 40. -/
def Obligations.DispatcherEvents : Prop :=
  ∀ (s s' s1 z1 : State) (q x : Nat) (r : Record) (pl : List (List Nat × Nat)) (b tb vb : List Byte),
    let l := s.lq q
    (lqEn s q = false → exec (.dispatcherPoll q) s = .next s ∧ exec (.recordCheck q) s = .next s) ∧
    (q < 64 → lqEn s q = true → l.opened = true → l.record = none → lqRead s q 0 8 = .ok (tb, s1) →
      let z := s1.updLq q fun l => { l with tail := BitVec.ofNat 64 (leNat tb), posted := false }
      (leNat tb ≤ l.head.toNat → leNat tb < 2 ^ 64 → exec (.dispatcherPoll q) s =
        .next (z.updLq q fun l => { l with ready := false })) ∧
      (l.head.toNat < leNat tb → leNat tb < 2 ^ 64 → lqRead z q (slotAt z q l.head + 60) 4 = .ok (vb, z1) →
        exec (.dispatcherPoll q) s = .next (z1.updLq q fun l =>
          { l with ready := decide (leNat vb = (l.head.toNat + 1) % 2 ^ 32) }))) ∧
    (q < 64 → lqEn s q = true → l.opened = true → l.ready = true → l.record = none →
      lqRead s q (slotAt s q l.head) 256 = .ok (b, s1) →
      let z := s1.updLq q fun l => { l with posted := false }
      (recordCause s1 q (leNat b) ≠ 0 →
        exec (.recordCheck q) s = .next (consume z q (2 + recordCause s1 q (leNat b) * 256))) ∧
      (recordCause s1 q (leNat b) = 0 → ∃ u, exec (.recordCheck q) s = .next u ∧
        (u.lq q).record.map (fun r => { r with shdr := 0 }) = some (recordOfBits (leNat b)) ∧
        (u.lq q).head = l.head ∧ (u.lq q).admitted = s.cycle)) ∧
    (l.record = some r → pickQueue s (startableQueues s) = some (x, s') →
      (x ≠ q → exec (.launchStart q) s = .next s) ∧
      (x = q → startable s' r (s'.lq q).home = some pl →
        let z := afterDep s' r
        (partsOk z r pl = true → exec (.launchStart q) s = .next (startLaunch (countStart z q r.cls.toNat) q r pl)) ∧
        (partsOk z r pl = false → exec (.launchStart q) s = .next (consume z q (2 + 7 * 256))))) ∧
    (∀ t, l.record = some r → l.heldAt = some t →
      (s.cycle < t + s.regs.stealt.toNat → exec (.steal q) s = .next s) ∧
      (∀ g, t + s.regs.stealt.toNat ≤ s.cycle → wantsPlace s r l.home = true → lqEn s q = true →
        ((List.range 31).map fun i => (l.home + 1 + i) % 32).find? (fun g => (placeThreads s r g).isSome) = some g →
        startable s r g = some pl → pickQueue s (startableQueues s ++ [q]) = some (q, s') →
        exec (.steal q) s = .next (placeLaunch (afterDep s' r) q r pl))) ∧
    (∀ n v, launchOf s n = some v → exec (.watchdogExpiry n) s =
      (if v.limit ≠ 0 ∧ v.limit * 800 < v.counted then .next (postFree (killLaunch s n) .kill) else .next s))

/-- 04/R92, R100, 16/R370, R371, 17/R403-R405, 18/R408-R410, R414, R423: the host's accesses, the registers, the errors.
19/R434, R435: before bring-up has ended, and after a failed verification, BAR 0 and BAR 2 read all ones and discard
writes; that D3hot does the same is the model's choice (log 69). A read of a line that holds an uncorrectable error
answers nothing (17/R403). That the TAIL of a queue is found by a translation of its base is the model's choice (log
62). -/
def Obligations.HostEvents : Prop :=
  ∀ (s z : State) (q n m pa off size key idx : Nat) (v : Word) (bytes h : List Byte) (op : HostAtomic) (t : Thread)
    (p : Producer),
    let r := s.regs
    let tells := fun (b : List Byte) => (.next { s with answer := b } : Answer)
    let weight := fun (hi lo : Nat) => if bits v.toNat hi lo = 0 then 1 else bits v.toNat hi lo
    (s.phase ≠ .up ∨ s.pci.d3hot = true →
      exec (.hostTailWrite q size v) s = .next s ∧ exec (.hostMemoryWrite pa bytes) s = .next s ∧
      exec (.hostMemoryRead pa n) s = tells (List.replicate n 0xFF) ∧
      exec (.hostAtomicopRequest op pa) s = tells (List.replicate 8 0xFF) ∧
      stepMove s (.hostRead 0 off n) = tells (List.replicate n 0xFF)) ∧
    (s.phase = .up → s.pci.d3hot = false →
    (size = 8 → q < 64 → lqEn s q = true → translate s (lqAsid s q) (lqBase s q) .load = .ok (.dev pa) → MemoryForm s →
      ∃ u, exec (.hostTailWrite q size v) s = .next u ∧ memLe u.mem pa 8 = max (memLe s.mem pa 8) v.toNat) ∧
    (q < 64 → translate s (lqAsid s q) (lqBase s q) .load = .ok (.dev pa) →
      stepMove s (.hostRead 0 (4096 * q) 8) = tells (natLe 8 (memWord s.mem pa).toNat)) ∧
    (size ≠ 8 → exec (.hostTailWrite q size v) s = .next s) ∧
    ((∀ i < n, inBar2 s (pa + i) = true) → (∀ q ∈ linesOf pa n, badLine s q.1 = false) →
      ∃ u, exec (.hostMemoryRead pa n) s = .next u ∧ u.answer = (List.range n).map (fun i => viewByte s (pa + i)) ∧
        u.mem = s.mem ∧ u.threads = s.threads) ∧
    ((∀ i < n, inBar2 s (pa + i) = false) → (∀ q ∈ linesOf pa n, inBar2 s q.1 = false) →
      exec (.hostMemoryRead pa n) s = tells (List.replicate n 0xFF)) ∧
    ((∃ q ∈ linesOf pa n, inBar2 s q.1 = true ∧ badLine s q.1 = true) → exec (.hostMemoryRead pa n) s = tells []) ∧
    (∀ d, pa % 64 + bytes.length ≤ 64 → bytes ≠ [] → inBar2 s pa = true →
      devWrite s hostAgent pa (allBytes bytes) false 0 = .ok d →
      exec (.hostMemoryWrite pa bytes) s = .next d) ∧
    (pa % 64 + bytes.length ≤ 64 → bytes ≠ [] → inBar2 s pa = false → exec (.hostMemoryWrite pa bytes) s = .next s) ∧
    (∀ g, inBar2 s pa = true → pa % 8 = 0 → accAtomic s hostAgent (.dev pa) 8 (hostAtomicOf op).1
      (fun old => amoNew (hostAtomicOf op).1 64 old (hostAtomicOf op).2.1 (hostAtomicOf op).2.2) 0 = .ok g →
      exec (.hostAtomicopRequest op pa) s = .next { g.st with answer := g.bytes }) ∧
    (s.threadAt key = some t → t.prods[idx]? = some p → p.wait = some .host →
      exec (.hostWindowCompletion (.producer key idx)) s =
        .next (s.setThread key { t with prods := t.prods.set idx { p with wait := none, err := none } }) ∧
      exec (.hostCompletionTimeout (.producer key idx)) s = .next (s.setThread key
        { t with prods := t.prods.set idx { p with wait := none, err := some (BitVec.ofNat 8 cData) } })) ∧
    stepMove s (.hostRead 4 (0x400000 + off) n) = tells (natLe n (readReg s off n)) ∧
    (q < 64 → lqEn s q = false → bit v.toNat 63 = true →
      z = { s with regs := { r with lqctl := tabPut r.lqctl q (v &&& 0xFFFFF80000000000) } }.updLq q (fun _ => {}) →
      exec (.lqctlWrite q v) s = .next (openQueue z q) ∧
      ∀ z', readLocal z (lqAsid z q) (lqBase z q) 16 = .ok (h, z') →
        exec (.lqctlWrite q v) s = .next (z'.updLq q fun l => { l with
          opened := true, posted := false
          tail := BitVec.ofNat 64 (leNat (h.take 8)), head := BitVec.ofNat 64 (leNat (h.drop 8)) })) ∧
    (q < 64 → lqEn s q = true → exec (.registerWrite (0x10008 + 16 * q) 8 v) s = .next s) ∧
    (q < 64 → lqEn s q = false → exec (.registerWrite (0x10008 + 16 * q) 8 v) s = .next { s with regs := { r with
      lqbase := tabPut r.lqbase q (v &&& 0x00FFFFFFFFFFFF00) } }) ∧
    exec (.registerWrite 0x10400 8 v) s = .next { s with regs := { r with
      schwt := BitVec.ofNat 64 (weight 23 16 * 2 ^ 16 + weight 15 8 * 2 ^ 8 + weight 7 0) } } ∧
    (size ≠ 8 ∨ off % 8 ≠ 0 → exec (.registerWrite off size v) s = .next s) ∧
    exec (.registerWrite 0 8 v) s = .next { s with regs := { r with asidt := v &&& 0x0000FFFFFFFE0001 } } ∧
    exec (.registerWrite 0x10 8 v) s = .next { s with regs := { r with dwshad := v &&& 0x0000FFFFFFFFFFFF } } ∧
    exec (.registerWrite 0x10408 8 v) s = .next { s with regs := { r with q0res := v &&& 0xFFFFFF00 } } ∧
    exec (.registerWrite 0x10410 8 v) s = .next { s with regs := { r with stealt := v &&& 0xFFFF } } ∧
    exec (.registerWrite 0x32000 8 v) s = .next { s with regs := { r with hostoff := v } } ∧
    (bit r.tinv.toNat 63 = false →
      exec (.tinvWrite v) s = .next { s with regs := { r with tinv := v &&& 0xFFFF01FFFFFFFFFF } }) ∧
    (bit r.tinv.toNat 63 = true → exec (.tinvWrite v) s = .next s) ∧
    (bit r.tinv.toNat 63 = false → exec .tinvComplete s = .next s) ∧
    (bit r.tinv.toNat 63 = true → (∀ q < 64, (s.lq q).posted = false) → ∃ u, exec .tinvComplete s = .next u ∧
      u.tlb = s.tlb.filter (fun e => !tinvHits r.tinv.toNat e) ∧
      (∀ c ∈ u.clusters, ∀ e ∈ c.2.edge, tinvHits r.tinv.toNat e = false) ∧ bit u.regs.tinv.toNat 63 = false) ∧
    (q < 64 → lqEn s q = true → bit v.toNat 63 = true → exec (.lqctlWrite q v) s = .next s) ∧
    (q < 64 → bit v.toNat 63 = false → exec (.lqctlWrite q v) s = .next { s with regs := { r with
      lqctl := tabPut r.lqctl q (v &&& 0xFFFFF80000000000) } }) ∧
    (n < 2 → exec (.errorCounterWrite (0x20000 + 8 * n)) s =
      .next { s with regs := { r with invcode := tabPut r.invcode n 0 } }) ∧
    (n < 512 → exec (.errorCounterWrite (0x20100 + 8 * n)) s =
      .next { s with regs := { r with underrd := tabPut r.underrd n 0 } }) ∧
    exec (.errorCounterWrite 0x21100) s = .next { s with regs := { r with retired := 0 } } ∧
    (r.podidSet = false → exec (.podidWrite v) s =
      .next { s with regs := { r with podid := v &&& 0x103FF, podidSet := true } }) ∧
    (r.podidSet = true → exec (.podidWrite v) s = .next s) ∧
    (m < 1024 → podState s m = 0 → bits v.toNat 1 0 = 1 → exec (.podwinWrite m v) s = .next (setPodState s m 1)) ∧
    (m < 1024 → podState s m = 2 → bits v.toNat 1 0 = 0 → exec (.podwinWrite m v) s = .next (setPodState s m 0)) ∧
    (m < 1024 → podState s m = 1 → exec (.podwinWrite m v) s = .next s) ∧
    exec .linkCrcRetry s = .next s ∧
    ∀ u, (∀ e ∈ s.rel.events, e.1 ≠ u) → exec (.correctedError u) s =
      .next { s with rel := { s.rel with events := (u, [s.cycle]) :: s.rel.events } })

/-- 17/R396, R401, R402, 18/R411, R412, R427-R429, 19/R432-R437: the mailbox, reset and heat. The host writes `REQ`, then
`DOORBELL`; while a command runs another is discarded; its answer is shown when it ends. A failed verification of the boot
image leaves the recovery state, in which two commands are accepted. The model's readings: the kill and the limit of a launch
admitted but not started (log 40); what a reset keeps, and its two moments (log 9); `THERM` from the readings of the sensor (log
63); and power removed at once at 110 degrees, where R432 says within 1 ms (log 3). -/
def Obligations.ManagementEvents : Prop :=
  ∀ (s : State) (req : List Word) (code : Word) (l : LaunchRef) (k : CastLive) (cid key : Nat) (t : Thread) (h : BitVec 8)
    (r : Record),
    let all := reqAfter s req
    let m := { s with mbox := { s.mbox with req := all } }
    let runs := fun (code : Word) (r : Reply) => (.next { r.st with mbox := { r.st.mbox with
      busy := true, code := code, next := (r.rstat, r.resp) } } : Answer)
    let gated : List (Word × Instr) := [(1, .killLaunch req), (2, .haltCasting req), (3, .releaseCasting req),
      (4, .haltThread req), (5, .releaseThread req), (6, .watchdogLimit req), (7, .readContextStore req),
      (9, .attestationReport req)]
    let commands := gated ++ [(8, .identityPublicKey req), (10, .loadFirmware req)]
    (∀ i < 32, i < req.length → all[i]? = req[i]?) ∧
    (reachable s = false → ∀ i ∈ commands, exec i.2 s = .next s) ∧
    (reachable s = true → s.mbox.busy = true → ∀ i ∈ commands, exec i.2 s = .next m) ∧
    (reachable s = true → s.phase = .recovery → s.mbox.busy = false →
      (∀ i ∈ gated, exec i.2 s = runs i.1 ⟨m, 1, []⟩) ∧
      (code ≠ 8 → code ≠ 10 → exec (.unknownMailboxCommand code req) s = runs code ⟨m, 1, []⟩)) ∧
    (reachable s = true → s.mbox.busy = false → exec (.identityPublicKey req) s =
      runs 0x08 ⟨m, 0, natLe 64 Config.publicKey.toNat⟩) ∧
    (reachable s = true → s.phase = .up → s.mbox.busy = false →
      (reqAt all 0 < 64 → l = ⟨reqAt all 0, reqAt all 1⟩ →
        ((launchOf s l).isSome = true → exec (.killLaunch req) s = runs 0x01 (success (killLaunch m l)) ∧
          exec (.watchdogLimit req) s = runs 0x06 (success { m with launches := s.launches.map fun x =>
            if x.ref = l then { x with limit := reqAt all 2 } else x })) ∧
        (launchOf s l = none → (s.lq l.q).record = some r → (s.lq l.q).head.toNat = l.n →
          exec (.killLaunch req) s = runs 0x01 (success (killHeld m l.q r)) ∧
          exec (.watchdogLimit req) s = runs 0x06 (success (m.updLq l.q fun x => { x with limit := reqAt all 2 }))) ∧
        (launchOf s l = none → (s.lq l.q).record = none → exec (.killLaunch req) s = runs 0x01 (noTarget m) ∧
          exec (.watchdogLimit req) s = runs 0x06 (noTarget m))) ∧
      (64 ≤ reqAt all 0 → exec (.killLaunch req) s = runs 0x01 (badOperand m) ∧
        exec (.watchdogLimit req) s = runs 0x06 (badOperand m)) ∧
      (bits (reqAt all 0) 63 32 = 0 → bits (reqAt all 0) 26 19 < 192 →
        cid = 256 * bits (reqAt all 0) 31 27 + bits (reqAt all 0) 26 19 → (castSlot s cid).live = some k →
        (castSlot s cid).gen = bits (reqAt all 0) 18 0 →
        exec (.haltCasting req) s = runs 0x02 (success (updCast m cid fun k => { k with halted := true })) ∧
        exec (.releaseCasting req) s = runs 0x03 (success (updCast m cid fun k => { k with halted := false }))) ∧
      (reqAt all 0 < 32 → reqAt all 1 < 48 → key = 64 * reqAt all 0 + reqAt all 1 →
        (s.threadAt key = some t → exec (.haltThread req) s =
          runs 0x04 (success (m.setThread key { t with halted := true }))) ∧
        (s.threadAt key = some t → tabFind s.saved key = none → exec (.releaseThread req) s =
          runs 0x05 (success (m.setThread key { t with halted := false }))) ∧
        (s.threadAt key = none → exec (.haltThread req) s = runs 0x04 (noTarget m)) ∧
        (reqAt all 2 % 256 = 0 → reqAt all 2 < 0x1C00 →
          ∀ u tab, storedThread m key = some (u, tab) → exec (.readContextStore req) s = runs 0x07
            ⟨{ m with free := s.free + 16 }, 0,
              ((((contextWords u tab s.free).drop (reqAt all 2 / 8)).take 32).map (natLe 8)).flatten⟩)) ∧
      (let b := reportBody m (((List.range 4).map fun i => natLe 8 (reqAt all i)).flatten)
       exec (.attestationReport req) s = runs 0x09 ⟨m, 0, b ++ natLe 64 (Config.sm2Sign b).toNat⟩) ∧
      (∀ b, imageBytes m (reqAt all 0) (reqAt all 1) = some b → ∃ u,
        exec (.loadFirmware req) s = runs 0x0A ⟨u, 0, loadResp m (Config.sm2Verify b)⟩ ∧
        u.mbox.fwLoads = s.mbox.fwLoads + (if Config.sm2Verify b then 1 else 0) ∧
        u.mbox.staged = if Config.sm2Verify b then some b else s.mbox.staged) ∧
      (code.toNat = 0 ∨ 10 < code.toNat → exec (.unknownMailboxCommand code req) s = runs code ⟨m, 1, []⟩)) ∧
    (s.mbox.busy = true → reachable s = true → exec .mailboxCommandEnd s = .next { s with mbox := { s.mbox with
      busy := false, rstat := s.mbox.next.1, resp := s.mbox.next.2, msix0 := s.mbox.msix0 + 1 } }) ∧
    (s.mbox.busy = false → exec .mailboxCommandEnd s = .next s) ∧
    (∃ u, exec (.moduleReset .start) s = .next u ∧ u.phase = .bringUp ∧ u.mem = State.reset.mem ∧
      u.sram = State.reset.sram ∧ u.threads = State.reset.threads ∧ u.clusters = State.reset.clusters ∧
      u.regs = State.reset.regs ∧ u.outside = s.outside ∧ u.mbox.busy = true) ∧
    (s.phase = .bringUp →
      (Config.sm2Verify (bootOf s) = true → exec (.moduleReset .finish) s = .next { s with
        phase := .up, mem := [], sram := [], rel := { s.rel with badLines := [], badSram := [] }
        mbox := { s.mbox with busy := false } }) ∧
      (Config.sm2Verify (bootOf s) = false → exec (.moduleReset .finish) s = .next { s with
        phase := .recovery, mbox := { s.mbox with busy := false } })) ∧
    (s.phase ≠ .bringUp → exec (.moduleReset .finish) s = .next s) ∧
    (∃ u, exec .thermalTrip s = .next u ∧ u.phase = .off ∧ u.mem = State.reset.mem ∧ u.threads = State.reset.threads ∧
      (s.phase ≠ .off → 110 ≤ h.toNat → exec (.thermalWarning h) s = .next u)) ∧
    (s.phase ≠ .off → 95 ≤ h.toNat → h.toNat < 110 → exec (.thermalWarning h) s =
      .next { s with regs := { s.regs with therm := BitVec.ofNat 64 (2 ^ 16 + h.toNat) } }) ∧
    (s.phase ≠ .off → h.toNat < 95 → stepMove s (.sensor h) = .next { s with regs := { s.regs with
      therm := BitVec.ofNat 64 (b2n (bit s.regs.therm.toNat 16) * 2 ^ 16 + h.toNat) } }) ∧
    (h.toNat < 95 → exec (.thermalWarning h) s = .next s)

/-- 18/R413-R425: the pod: requests of other members, lost members, and the ends of pod operations. A multicast waits while
a port that one of its parts would leave by drains (R413). A combine's result comes from the contributions of its set with a
combining switch (R423), and without one from the tree that the participants run, whose values and result come as requests
(R424). Whether a multicast's part at
another member that is up failed there is a free value (log 31). -/
def Obligations.PodEvents : Prop :=
  ∀ (s : State) (m id p : Nat) (r : PodReq) (x : PodOp) (parts : List Contrib),
    (s.phase ≠ .up ∨ podState s m = 2 ∨ m = s.member → exec (.podRequest m r) s = .next s) ∧
    (s.phase = .up → podState s m ≠ 2 → m ≠ s.member →
      (∀ a n, r = .read a n → exec (.podRequest m r) s = .next (podRead s a n)) ∧
      (∀ a b, r = .write a b → exec (.podRequest m r) s = .next (podStore s a b)) ∧
      (∀ o a v c, r = .atomic o a v c → exec (.podRequest m r) s = .next (podAtomic s o.toNat a v.toNat c.toNat)) ∧
      (∀ a d f b, r = .multicast a d f b → exec (.podRequest m r) s = .next (podPart s a d f b)) ∧
      (∀ i a n, r = .barrier i a n → ∃ b w, podBarrier (tabGet s.podBars i.toNat {}) n.toNat a = (b, w) ∧
        exec (.podRequest m r) s = .next { s with podBars := tabPut s.podBars i.toNat b, answer := natLe 8 w.toNat }) ∧
      (∀ a l c f, r = .treeValue a l c f →
        exec (.podRequest m r) s = .next (if podSwitch s then s else takeTreeValue s a l c f)) ∧
      (∀ a k w f, r = .result a k w f →
        exec (.podRequest m r) s = .next (if podSwitch s then s else takeResult s a k w f))) ∧
    (m ≠ s.member → memberUp s m = true →
      exec (.linkDown m) s = .next (noticeFence (fenceMember s m) m) ∧
      (s.phase = .up → exec (.fenceNotice m) s = .next (fenceMember s m)) ∧
      ((∃ n ∈ requestsTo s m, n + 1200000 ≤ s.cycle) →
        exec (.responseTimeout m) s = .next (noticeFence (fenceMember s m) m)) ∧
      ((∀ n ∈ requestsTo s m, s.cycle < n + 1200000) → exec (.responseTimeout m) s = .next s)) ∧
    (s.phase ≠ .up ∨ podState s m = 2 → exec (.fenceNotice m) s = .next s) ∧
    (podState s m = 2 → exec (.linkDown m) s = .next s) ∧
    (podOp s id = some x → x.op = none →
      let others := (podMembers x.set).any fun m => m ≠ s.member && memberUp s m
      let sends := fun (z : State) => sendEach z (podMembers x.set) x.dst.toNat (.multicast x.asid x.dst x.flag x.data)
      (x.data = [] → exec (.podOpComplete id) s = .next (podFinish s x true)) ∧
      let waits := (podMembers x.set).any fun m => m ≠ s.member && memberUp s m && portWaits s m x.dst.toNat
      (x.data ≠ [] → waits = true → exec (.podOpComplete id) s = .next s) ∧
      (∀ d, x.data ≠ [] → waits = false → ownPart s x = .ok d →
        (others = false → exec (.podOpComplete id) s = .next (podFinish (sends d.1) x (x.err || d.2))) ∧
        (others = true → exec (.podOpComplete id) s = .next (podFinish { sends d.1 with free := d.1.free + 1 } x
          (x.err || d.2 || (Config.freeWord d.1.free).getLsbD 0)))) ∧
      ((podMembers x.set).contains s.member = true → ownPart s x = podDeliver s x.agent true x.dst x.flag x.data) ∧
      ((podMembers x.set).contains s.member = false → ownPart s x = .ok (s, false))) ∧
    (∀ o, podOp s id = some x → x.op = some o →
      exec (.combineFailureNotice id) s = .next (if x.err then podFail s x else podFinish s x true) ∧
      let all := ((podMembers x.set).zip parts).map fun y => if y.1 = s.member then x.part else y.2
      let lands := fun (words : List W32) (fl : Flags) => ∀ w,
        podWrite s x.agent true x.dst.toNat ((words.map fun v => natLe 4 v.toNat).flatten) = .ok w →
        exec (.combineResult id parts) s =
          .next (podFinish (updByRef w.1 x.owner fun t => { t with flags := t.flags ||| fl }) x w.2)
      (podSwitch s = true → (podMembers x.set).length ≠ parts.length ∨ (∃ c ∈ all, c.nth ≠ x.nth) →
        exec (.combineResult id parts) s = .next s) ∧
      (podSwitch s = true → (podMembers x.set).length = parts.length → (∀ c ∈ all, c.nth = x.nth) →
        (x.err = true ∨ (∃ c ∈ all, c.op ≠ o ∨ c.tag ≠ x.tag ∨ c.words.length ≠ x.part.words.length) →
          exec (.combineResult id parts) s = .next (podFail s x)) ∧
        (x.err = false → (∀ c ∈ all, c.op = o ∧ c.tag = x.tag ∧ c.words.length = x.part.words.length) →
          let c := combineTree o.toNat 10 (all.map (·.words)) 0
          lands c.1 c.2)) ∧
      (podSwitch s = false →
        (x.err = true → exec (.combineResult id parts) s = .next (podFail s x)) ∧
        (x.err = false → x.res = none → exec (.combineResult id parts) s = .next s) ∧
        (∀ c, x.err = false → x.res = some c → lands c.1 c.2))) ∧
    (s.ports.contains p = true → exec (.portGoesDown p) s = .next s) ∧
    (s.ports.contains p = false →
      let z := { s with ports := s.ports ++ [p] }
      (podSwitch s = false → exec (.portGoesDown p) s = .next z) ∧
      (podSwitch s = true → exec (.portGoesDown p) s =
        .next ((s.podOps.filter fun x => x.op.isSome && x.port = p).foldl (fun s x => podFinish s x true) z)))

/-! ## The machine as a whole -/

/-- 15/R343, 02/R31, 08/R207, 11/R276 and the model's logs 2 and 12: with no turn left in a cycle the next begins, and a cycle
is one of `CYCLE`; the next turn is taken otherwise. A running thread with nothing to be delivered runs the instruction that
its bytes decode to, and takes the illegal-instruction trap for bytes that are none, but an access of a kind that a `fence`
before it holds back waits, and an acquire waits for the thread's releases (14/R336, log 75); a fabric instruction runs as its
doubleword decodes; an event that stands by itself takes place. What has used a sub-bank stands when that bank was free for
it, by the cycle in which it arrived there, and waits otherwise. -/
def Obligations.StepRunsDecoded : Prop :=
  ∀ (s : State) (rest : List Move),
    let u := { s with turns := rest }
    let since := fun (who : Waiter) => ((s.banked.find? fun w => w.who = who).map (·.since)).getD s.cycle
    (s.turns = [] → step s = .next (beginCycle s) ∧ (beginCycle s).cycle = s.cycle + 1 ∧
      (s.agenda = [] → .thread s.core ∈ (beginCycle s).turns) ∧
      (∀ i r, s.agenda = (1, .event i) :: r → .event i ∈ (beginCycle s).turns)) ∧
    (∀ key, s.turns = .thread key :: rest → ∀ (t : Thread) (b b2 : List Byte) (u1 u2 : State), s.phase = .up →
      s.threadAt key = some t → t.halted = false → t.running = true → lateDue t = false → asyncDue t = false →
      fetchWord u key t t.pc = .ok (b, u1) → (isLong (wordOfBytes b) = false → b2 = [] ∧ u2 = u1) →
      (isLong (wordOfBytes b) = true → fetchWord u1 key t (t.pc + 4) = .ok (b2, u2)) →
      let c := keyCluster key
      let who := Waiter.thread key
      let left := t.barred.filter fun w => !waitOver u2 c t.ref w
      let v := if t.barred = [] then u2 else u2.setThread key { t with barred := left }
      let answers := fun (z : State) =>
        let used := z.busy.drop s.busy.length
        let free := bankFree (unwait who u) c (bankRank (since who) 0 (keyCore key) 0) used
        (free = true → step s = .next (unwait who z)) ∧
        (free = false → step s = .next { u with
          banked := (s.banked.filter fun w => w.who ≠ who) ++ [⟨who, since who, used⟩] })
      let runs := fun (i : Instr) =>
        ((heldBy v c t.ref (accessKinds v key t i) left || acquireWaits t i) = true → answers v) ∧
        ((heldBy v c t.ref (accessKinds v key t i) left || acquireWaits t i) = false →
          ∀ z, exec i { v with core := key } = .next z → answers (noteAsked key t.asks z))
      (∀ i r, decodeBytes (b ++ b2) = .ok (i, r) → runs (selectRow t i)) ∧
      (∀ e, decodeBytes (b ++ b2) = .error e → runs (.illegalInstruction (wordOfBytes b)))) ∧
    (∀ n, s.turns = .node n :: rest → ∀ (k : CastLive) (w : Word) (i : Instr) (z : State), s.phase = .up →
      (castSlot s n.cast).live = some k → nodeWord s n = some w → decodeFabric w = .ok i → headBad k n = false →
      exec i { u with node := n } = .next z →
      let who := Waiter.node n
      let v := tryRetire z n.cast
      let used := v.busy.drop s.busy.length
      bankFree (unwait who u) (n.cast / 256) (nodeBankRank k n used (since who)) used = true →
      step s = .next (unwait who v)) ∧
    (∀ i, s.turns = .event i :: rest → freeEvent i = true →
      (match i with
       | .streamerBeat c l q => ∀ z, exec i u = .next z →
         let who := Waiter.queue c l q
         bankFree (unwait who u) c (bankRank (since who) 1 0 l) (z.busy.drop s.busy.length) = true →
         step s = .next (unwait who z)
       | .rowFire c l => ∀ z, exec i u = .next z →
         let who := Waiter.island c l
         bankFree (unwait who u) c (bankRank (since who) 1 0 (4 + l)) (z.busy.drop s.busy.length) = true →
         step s = .next (unwait who z)
       | .nodeAccessPerformed n _ => ∀ z, exec i u = .next z → step s = .next (tryRetire z n.cast)
       | _ => step s = exec i u))

/-- Words that the spec's own examples spell out (02 Tables 2.3-2.10, 08, 09, 10, 11, 12, 15, 18) decode to the
instructions that it writes beside them. -/
def Obligations.DecodeSamples : Prop :=
  let word := fun (w : W32) => decodeWords w 0
  word 0x009A9540 = .ok (.add 19 ⟨20, true⟩ ⟨21, false⟩) ∧
  word 0x02B05FFC = .ok (.addi 22 ⟨2, true⟩ 0xFFC) ∧
  word 0x70FFFFFA = .ok (.br 3 true 0x1FFFFA) ∧
  word 0x3892F503 = .ok (.ldW 18 ⟨23, true⟩ 5 3) ∧
  word 0x5E000098 = .ok (.fence 4 12) ∧
  word 0x50C80140 = .ok (.amoAdd 25 ⟨0, false⟩ 1 2) ∧
  decodeWords 0x7A000000 0x030003E8 = .ok (.loop 1000 3) ∧
  word 0x78000018 = .ok (.enter 24) ∧
  word 0xD0AB7220 = .ok (.castLoad 21 ⟨27, true⟩ 2 1) ∧
  word 0xC6E3B082 = .ok (.mxFire 28 ⟨29, true⟩ 4 2) ∧
  word 0xFA02D300 = .ok (.swr ⟨22, true⟩ 0) ∧
  word 0xF2A2B246 = .ok (.xcomb 20 ⟨21, true⟩ 2 2 6) ∧
  decodeFabric 0x002828853DE00000 = .ok (.iAdd ⟨1, 1, 0, 1, 2, 1, 0x014, 0x1EF, 0⟩) ∧
  decodeFabric 0xA00108043FE00812 = .ok (.ldS ⟨0, 0, 1, 0, 2, 0, 0x010, 0x1FF, 0x812⟩)

/-- 02/R19-R36: decoding the words of any well-formed instruction gives it back, with every operand at every value that
the encoding admits; the seven operations of `kv.add` share a word and decode to the first of them (the model's log
15). -/
def Obligations.EveryInstructionRoundTrips : Prop :=
 ∀ i : Instr, i.wf = true → RoundTrips i

/-- 02/R30-R33: a word decodes to one instruction only, and nothing of it is dropped: the words of the instruction that
it decodes to are the word itself, with the one after it for an L form; and those of a fabric instruction are the halves of its
doubleword. -/
def Obligations.NothingDroppedInDecoding : Prop :=
  (∀ (w next : W32) (i : Instr), decodeWords w next = .ok i →
    i.wf = true ∧ encode i = if isLong w then [w, next] else [w]) ∧
  ∀ (w : Word) (i : Instr), decodeFabric w = .ok i →
    i.wf = true ∧ encode i = [w.extractLsb' 0 32, w.extractLsb' 32 32]

/-- The memories keep their canonical form in every step, whatever acts. -/
def Obligations.StepKeepsMemoryForm : Prop :=
 ∀ s t : State, MemoryForm s → step s = .next t → MemoryForm t

/-- The memories that module reset leaves have their canonical form. -/
def Obligations.ResetMemoryForm : Prop :=
 MemoryForm State.reset

/-- 00/R12, 04/R100, 16 Table 16.3, 18/R423, 19/R433: what module reset leaves, where the spec gives a value; that
`State.reset` is the machine as bring-up ends, 19/R436, is the model's choice (log 9). -/
def Obligations.ResetValues : Prop :=
  State.reset.cycle = 0 ∧ State.reset.phase = .up ∧ State.reset.threads = [] ∧
  State.reset.launches = [] ∧ State.reset.regs.asidt = 0 ∧ State.reset.regs.schwt = 0x010204 ∧
  State.reset.regs.stealt = 8000 ∧ State.reset.regs.podidSet = false ∧
  (∀ q, lqEn State.reset q = false) ∧ (∀ m, podState State.reset m = 0) ∧ ∀ c i, (State.reset.island c i).hold = .free
end

