-- ==== Sys2Proof/Laws/Memory.lean ====
section
/-! SUPPORT. Memory and tables as lists: a read after a write, and the canonical form, which every memory operation
keeps. -/

namespace Sys2Proof.Machine

/-! ## Tables -/

theorem tabFind_tabPut_self {α : Type} (t : Tab α) (k : Nat) (v : α) : tabFind (tabPut t k v) k = some v := by
  induction t with
  | nil => simp [tabPut, tabFind]
  | cons e r ih => simp only [tabPut]; split <;> (try split) <;> simp_all [tabFind]

theorem tabFind_tabPut_ne {α : Type} (t : Tab α) (k j : Nat) (v : α) (h : j ≠ k) :
    tabFind (tabPut t k v) j = tabFind t j := by
  induction t with
  | nil => simp [tabPut, tabFind]; omega
  | cons e r ih =>
    simp only [tabPut]
    split
    · next g => subst g; grind [tabFind]
    · split <;> grind [tabFind]

theorem tabGet_tabPut_self {α : Type} (t : Tab α) (k : Nat) (v d : α) : tabGet (tabPut t k v) k d = v := by
  simp [tabGet, tabFind_tabPut_self]

theorem tabGet_tabPut_ne {α : Type} (t : Tab α) (k j : Nat) (v d : α) (h : j ≠ k) :
    tabGet (tabPut t k v) j d = tabGet t j d := by
  simp [tabGet, tabFind_tabPut_ne t k j v h]

/-! ## The canonical form -/

theorem Memory.wfFrom_mono (m : Memory) (lo hi : Nat) (h : lo ≤ hi) : Memory.wfFrom hi m → Memory.wfFrom lo m := by
  cases m with
  | nil => simp [Memory.wfFrom]
  | cons c r =>
    obtain ⟨a, b⟩ := c
    simp only [Memory.wfFrom, Bool.and_eq_true, decide_eq_true_eq]
    rintro ⟨⟨h1, h2⟩, h3⟩
    exact ⟨⟨by omega, h2⟩, h3⟩

theorem memPut_wfFrom (m : Memory) (a : Nat) (v : Byte) (lo : Nat) (hlo : lo ≤ a) (h : Memory.wfFrom lo m) :
    Memory.wfFrom lo (memPut m a v) := by
  induction m generalizing lo with
  | nil =>
    simp only [memPut]
    split
    · rfl
    · next g => simp_all [Memory.wfFrom, memDefault]
  | cons c r ih =>
    obtain ⟨j, w⟩ := c
    simp only [Memory.wfFrom, Bool.and_eq_true, decide_eq_true_eq, Bool.not_eq_true', beq_eq_false_iff_ne] at h
    obtain ⟨⟨h1, h2⟩, h3⟩ := h
    simp only [memPut]
    split
    · next g =>
      subst g
      split
      · exact Memory.wfFrom_mono r lo (j + 1) (by omega) h3
      · next g => simp_all [Memory.wfFrom, memDefault]
    · split
      · split
        · simp_all [Memory.wfFrom]
        · next g1 g2 g => simp_all [Memory.wfFrom, memDefault]
      · next g1 g2 =>
        simp only [Memory.wfFrom, Bool.and_eq_true, decide_eq_true_eq, Bool.not_eq_true', beq_eq_false_iff_ne]
        exact ⟨⟨h1, h2⟩, ih (j + 1) (by omega) h3⟩

/-- A write of one byte keeps the canonical form. -/
theorem memPut_wf (m : Memory) (a : Nat) (v : Byte) (h : m.wf = true) : (memPut m a v).wf = true :=
  memPut_wfFrom m a v 0 (by omega) h

/-- A write of bytes keeps it. -/
theorem memWrite_wf (m : Memory) (a : Nat) (l : List Byte) (h : m.wf = true) : (memWrite m a l).wf = true := by
  induction l generalizing m a with
  | nil => exact h
  | cons b r ih => exact ih _ _ (memPut_wf m a b h)

/-- A masked write keeps it. -/
theorem memWriteMask_wf (m : Memory) (a : Nat) (l : List (Byte × Bool)) (h : m.wf = true) :
    (memWriteMask m a l).wf = true := by
  induction l generalizing m a with
  | nil => exact h
  | cons c r ih =>
    obtain ⟨b, w⟩ := c
    refine ih _ _ ?_
    split
    · exact memPut_wf m a b h
    · exact h

theorem filter_wfFrom (m : Memory) (p : Host.Cell → Bool) (lo : Nat) (h : Memory.wfFrom lo m = true) :
    Memory.wfFrom lo (m.filter p) = true := by
  induction m generalizing lo with
  | nil => rfl
  | cons c r ih =>
    obtain ⟨a, b⟩ := c
    simp only [Memory.wfFrom, Bool.and_eq_true, decide_eq_true_eq] at h
    obtain ⟨⟨h1, h2⟩, h3⟩ := h
    simp only [List.filter_cons]
    split
    · simp only [Memory.wfFrom, Bool.and_eq_true, decide_eq_true_eq]
      exact ⟨⟨h1, h2⟩, ih (a + 1) h3⟩
    · exact Memory.wfFrom_mono _ lo (a + 1) (by omega) (ih (a + 1) h3)

/-- Clearing bytes keeps it. -/
theorem memClear_wf (m : Memory) (a n : Nat) (h : m.wf = true) : (memClear m a n).wf = true :=
  filter_wfFrom m _ 0 h

/-! ## Reading after writing -/

theorem memGet_memPut_self (m : Memory) (a : Nat) (v : Byte) (h : m.wf = true) : memGet (memPut m a v) a = v := by
  have key : ∀ (m : Memory) (lo : Nat), Memory.wfFrom lo m = true → memGet (memPut m a v) a = v := by
    intro m
    induction m with
    | nil => intro lo _; simp only [memPut]; split <;> simp_all [memGet]
    | cons c r ih =>
      intro lo h
      obtain ⟨j, w⟩ := c
      simp only [Memory.wfFrom, Bool.and_eq_true, decide_eq_true_eq] at h
      obtain ⟨⟨h1, h2⟩, h3⟩ := h
      simp only [memPut]
      split
      · next g =>
        subst g
        split
        · next g =>
          subst g
          cases r with
          | nil => rfl
          | cons c2 r2 =>
            obtain ⟨j2, w2⟩ := c2
            simp only [Memory.wfFrom, Bool.and_eq_true, decide_eq_true_eq] at h3
            simp only [memGet]
            grind
        · simp [memGet]
      · split
        · split <;> simp_all [memGet]
        · next g1 g2 => simp [memGet, g1, g2, ih (j + 1) h3]
  exact key m 0 h

theorem memGet_memPut_ne (m : Memory) (a b : Nat) (v : Byte) (hb : b ≠ a) (h : m.wf = true) :
    memGet (memPut m a v) b = memGet m b := by
  have key : ∀ (m : Memory) (lo : Nat), Memory.wfFrom lo m = true → memGet (memPut m a v) b = memGet m b := by
    intro m
    induction m with
    | nil => intro lo _; simp only [memPut]; split <;> simp_all [memGet] <;> omega
    | cons c r ih =>
      intro lo h
      obtain ⟨j, w⟩ := c
      simp only [Memory.wfFrom, Bool.and_eq_true, decide_eq_true_eq] at h
      obtain ⟨⟨h1, h2⟩, h3⟩ := h
      have low : ∀ (r : Memory) (k : Nat), Memory.wfFrom k r = true → b < k → memGet r b = memDefault := by
        intro r k hr hk
        cases r with
        | nil => rfl
        | cons c r =>
          obtain ⟨i, u⟩ := c
          simp only [Memory.wfFrom, Bool.and_eq_true, decide_eq_true_eq] at hr
          simp only [memGet]
          grind
      simp only [memPut]
      split
      · next g =>
        subst g
        split
        · simp only [memGet]
          split
          · omega
          · split
            · exact low r (j + 1) h3 (by omega)
            · rfl
        · simp only [memGet]; grind
      · split
        · split
          · rfl
          · simp only [memGet]; grind
        · next g1 g2 => simp only [memGet]; rw [ih (j + 1) h3]
  exact key m 0 h

/-- A write leaves every byte outside it as it was. -/
theorem memGet_memWrite_out (m : Memory) (a b : Nat) (l : List Byte) (hb : b < a ∨ a + l.length ≤ b)
    (h : m.wf = true) : memGet (memWrite m a l) b = memGet m b := by
  induction l generalizing m a with
  | nil => rfl
  | cons x r ih =>
    simp only [List.length_cons] at hb
    simp only [memWrite]
    rw [ih _ _ (by omega) (memPut_wf m a x h), memGet_memPut_ne m a b x (by omega) h]

/-- Reading the bytes just written gives them. -/
theorem memBytes_memWrite (m : Memory) (a : Nat) (l : List Byte) (h : m.wf = true) :
    memBytes (memWrite m a l) a l.length = l := by
  induction l generalizing m a with
  | nil => rfl
  | cons x r ih =>
    simp only [memWrite, List.length_cons, memBytes, List.cons.injEq]
    refine ⟨?_, ih _ _ (memPut_wf m a x h)⟩
    rw [memGet_memWrite_out _ _ _ _ (by omega) (memPut_wf m a x h), memGet_memPut_self m a x h]

/-! ## Little-endian bytes -/

theorem natLe_length (n v : Nat) : (natLe n v).length = n := by induction n generalizing v <;> simp_all [natLe]

theorem memBytes_length (m : Memory) (a n : Nat) : (memBytes m a n).length = n := by
  induction n generalizing a <;> simp_all [memBytes]

theorem natLe_getElem? (n v k : Nat) (h : k < n) : (natLe n v)[k]? = some (BitVec.ofNat 8 (v / 256 ^ k)) := by
  induction n generalizing v k with
  | zero => omega
  | succ n ih =>
    cases k with
    | zero => simp [natLe]
    | succ k =>
      simp only [natLe, List.getElem?_cons_succ]
      rw [ih _ _ (by omega), Nat.div_div_eq_div_mul, Nat.pow_succ']

theorem memBytes_getElem? (m : Memory) (a n k : Nat) (h : k < n) : (memBytes m a n)[k]? = some (memGet m (a + k)) := by
  induction n generalizing a k with
  | zero => omega
  | succ n ih =>
    cases k with
    | zero => simp [memBytes]
    | succ k =>
      simp only [memBytes, List.getElem?_cons_succ]
      rw [ih _ _ (by omega)]; congr 2; omega

/-- The value of a value's bytes. -/
theorem leNat_natLe (n v : Nat) : leNat (natLe n v) = v % 256 ^ n := by
  induction n generalizing v with
  | zero => simp [natLe, leNat, Nat.mod_one]
  | succ n ih =>
    simp only [natLe, leNat, ih]
    rw [Nat.pow_succ, Nat.mul_comm (256 ^ n), Nat.mod_mul]; simp

/-- A byte inside a value just written. -/
theorem memGet_memWrite_natLe (m : Memory) (h : m.wf = true) (a n v k : Nat) (hk : k < n) :
    memGet (memWrite m a (natLe n v)) (a + k) = BitVec.ofNat 8 (v / 256 ^ k) := by
  have e := memBytes_memWrite m a (natLe n v) h
  have := memBytes_getElem? (memWrite m a (natLe n v)) a n k hk
  rw [natLe_length] at e; rw [e, natLe_getElem? n v k hk] at this; simpa using this.symm

end Sys2Proof.Machine
end

