-- ==== Sys2Proof/Laws/Access.lean ====
section
/-! SUPPORT. A write that hides nothing: the masks of a plain write to device memory. -/

namespace Sys2Proof.Machine

/-- Bytes that lie in no `TAIL` doubleword stay as they are (16/R371). -/
theorem maskTails_allBytes (tails : List Nat) (l : List Byte) (pa : Nat)
    (h : ∀ q ∈ tails, q + 8 ≤ pa ∨ pa + l.length ≤ q) : maskTails tails pa (allBytes l) = allBytes l := by
  induction l generalizing pa with
  | nil => rfl
  | cons b r ih =>
    simp only [allBytes, List.map_cons, maskTails, List.cons.injEq, Prod.mk.injEq, true_and, Bool.true_and]
    refine ⟨?_, ih (pa + 1) ?_⟩
    · simp only [Bool.not_eq_true', List.any_eq_false]
      intro q hq; have := h q hq; simp at this ⊢; omega
    · intro q hq; have := h q hq; simp at this; omega

/-- A masked write of every byte is the write. -/
theorem memWriteMask_allBytes (m : Memory) (a : Nat) (l : List Byte) :
    memWriteMask m a (allBytes l) = memWrite m a l := by
  induction l generalizing m a with
  | nil => rfl
  | cons b r ih => simp only [allBytes, List.map_cons, memWriteMask, memWrite, if_true]; exact ih _ _

end Sys2Proof.Machine
end

