-- ==== Sys2Proof/Laws/Device.lean ====
section
/-! SUPPORT. What an access to device memory can do: a read at a line's home slice changes the L2 and the decode counts
alone, and a write those and the bytes it writes. -/

namespace Sys2Proof.Machine

/-- The states that differ in the dies and the decode counts alone. -/
def SameButLines (s u : State) : Prop := ∃ d v, u = { s with dies := d, regs := { s.regs with invcode := v } }

theorem SameButLines.refl (s : State) : SameButLines s s := ⟨s.dies, s.regs.invcode, rfl⟩

theorem SameButLines.trans {s u z : State} (h : SameButLines s u) (g : SameButLines u z) : SameButLines s z := by
  obtain ⟨d, v, rfl⟩ := h
  obtain ⟨e, w, rfl⟩ := g
  exact ⟨e, w, rfl⟩

/-- A fold of such changes is one. -/
theorem SameButLines.foldl {α : Type} (f : State → α → State) (hf : ∀ s x, SameButLines s (f s x)) (l : List α)
    (s : State) : SameButLines s (l.foldl f s) := by
  induction l generalizing s with
  | nil => exact .refl s
  | cons x r ih => exact (hf s x).trans (ih _)

theorem updDie_lines (s : State) (die : Nat) (g : Die → Die) : SameButLines s (s.updDie die g) := ⟨_, _, rfl⟩

theorem countInvalid_lines (s : State) (die n : Nat) : SameButLines s (countInvalid s die n) := by
  unfold countInvalid
  split
  · exact .refl s
  · exact ⟨_, _, rfl⟩

theorem touchLine_lines (s : State) (line : Nat) : SameButLines s (touchLine s line) := by
  simp only [touchLine]
  split
  · exact updDie_lines s _ _
  · exact (countInvalid_lines s _ _).trans (updDie_lines _ _ _)

/-- What a read of device memory can change. -/
theorem touch_lines (s : State) (pa n : Nat) : SameButLines s (touch s pa n) :=
  .foldl touchLine touchLine_lines _ s

theorem invalidate_lines (s : State) (ls : List Nat) : SameButLines s (invalidate s ls) :=
  .foldl _ (fun s _ => updDie_lines s _ _) ls s

theorem patchKept_lines (s : State) (pa : Nat) (data : List (Byte × Bool)) : SameButLines s (patchKept s pa data) := by
  unfold patchKept
  split
  · exact .refl s
  · exact updDie_lines s _ _

/-- What a masked write of device memory can change. -/
theorem putMasked_lines (s : State) (pa : Nat) (data : List (Byte × Bool)) :
    SameButLines { s with mem := memWriteMask s.mem pa data } (putMasked s pa data) :=
  ((patchKept_lines _ _ _).trans (invalidate_lines _ _)).trans (touch_lines _ _ _)

/-- What a write of device memory can change. -/
theorem putBytes_lines (s : State) (pa : Nat) (b : List Byte) :
    SameButLines { s with mem := memWrite s.mem pa b } (putBytes s pa b) :=
  ((patchKept_lines _ _ _).trans (invalidate_lines _ _)).trans (touch_lines _ _ _)

@[simp] theorem touch_mem (s : State) (pa n : Nat) : (touch s pa n).mem = s.mem := by
  obtain ⟨d, v, h⟩ := touch_lines s pa n
  rw [h]

@[simp] theorem putBytes_mem (s : State) (pa : Nat) (b : List Byte) : (putBytes s pa b).mem = memWrite s.mem pa b := by
  obtain ⟨d, v, h⟩ := putBytes_lines s pa b
  rw [h]

@[simp] theorem putMasked_mem (s : State) (pa : Nat) (data : List (Byte × Bool)) :
    (putMasked s pa data).mem = memWriteMask s.mem pa data := by
  obtain ⟨d, v, h⟩ := putMasked_lines s pa data
  rw [h]

/-- Writes of device memory keep its canonical form. -/
theorem putBytes_wf (s : State) (pa : Nat) (b : List Byte) (h : s.mem.wf = true) : (putBytes s pa b).mem.wf = true := by
  rw [putBytes_mem]
  exact memWrite_wf s.mem pa b h

theorem putMasked_wf (s : State) (pa : Nat) (data : List (Byte × Bool)) (h : s.mem.wf = true) :
    (putMasked s pa data).mem.wf = true := by
  rw [putMasked_mem]
  exact memWriteMask_wf s.mem pa data h

end Sys2Proof.Machine
end

