-- ==== Sys2Proof/Laws/Forms.lean ====
section
/-! SUPPORT. The forms of 02 Tables 2.2 and 2.15: taking a word apart undoes putting it together, and gives its major
opcode or OPC. -/

namespace Sys2Proof

theorem FormR.ofWord_toWord (f : FormR) : FormR.ofWord f.toWord = f := by
  obtain ⟨maj, d, a, wa, b, wb, min⟩ := f
  simp only [FormR.ofWord, FormR.toWord, FormR.mk.injEq]
  refine ⟨?_, ?_, ?_, ?_, ?_, ?_, ?_⟩ <;>
    (ext i hi; simp only [BitVec.getElem_extractLsb', BitVec.getLsbD_append]; simp; grind)

theorem FormR.maj_toWord (f : FormR) : f.toWord.extractLsb' 25 7 = f.maj :=
  congrArg FormR.maj f.ofWord_toWord

theorem FormI.ofWord_toWord (f : FormI) : FormI.ofWord f.toWord = f := by
  obtain ⟨maj, d, a, wa, imm⟩ := f
  simp only [FormI.ofWord, FormI.toWord, FormI.mk.injEq]
  refine ⟨?_, ?_, ?_, ?_, ?_⟩ <;>
    (ext i hi; simp only [BitVec.getElem_extractLsb', BitVec.getLsbD_append]; simp; grind)

theorem FormI.maj_toWord (f : FormI) : f.toWord.extractLsb' 25 7 = f.maj :=
  congrArg FormI.maj f.ofWord_toWord

theorem FormB.ofWord_toWord (f : FormB) : FormB.ofWord f.toWord = f := by
  obtain ⟨maj, p, n, off⟩ := f
  simp only [FormB.ofWord, FormB.toWord, FormB.mk.injEq]
  refine ⟨?_, ?_, ?_, ?_⟩ <;>
    (ext i hi; simp only [BitVec.getElem_extractLsb', BitVec.getLsbD_append]; simp; grind)

theorem FormB.maj_toWord (f : FormB) : f.toWord.extractLsb' 25 7 = f.maj :=
  congrArg FormB.maj f.ofWord_toWord

theorem FormM.ofWord_toWord (f : FormM) : FormM.ofWord f.toWord = f := by
  obtain ⟨maj, d, a, wa, h, off⟩ := f
  simp only [FormM.ofWord, FormM.toWord, FormM.mk.injEq]
  refine ⟨?_, ?_, ?_, ?_, ?_, ?_⟩ <;>
    (ext i hi; simp only [BitVec.getElem_extractLsb', BitVec.getLsbD_append]; simp; grind)

theorem FormM.maj_toWord (f : FormM) : f.toWord.extractLsb' 25 7 = f.maj :=
  congrArg FormM.maj f.ofWord_toWord

theorem FormA.ofWord_toWord (f : FormA) : FormA.ofWord f.toWord = f := by
  obtain ⟨maj, d, a, wa, h, as, ss, z⟩ := f
  simp only [FormA.ofWord, FormA.toWord, FormA.mk.injEq]
  refine ⟨?_, ?_, ?_, ?_, ?_, ?_, ?_, ?_⟩ <;>
    (ext i hi; simp only [BitVec.getElem_extractLsb', BitVec.getLsbD_append]; simp; grind)

theorem FormA.maj_toWord (f : FormA) : f.toWord.extractLsb' 25 7 = f.maj :=
  congrArg FormA.maj f.ofWord_toWord

theorem FormQ.ofWord_toWord (f : FormQ) : FormQ.ofWord f.toWord = f := by
  obtain ⟨maj, d, a, wa, h, p, min⟩ := f
  simp only [FormQ.ofWord, FormQ.toWord, FormQ.mk.injEq]
  refine ⟨?_, ?_, ?_, ?_, ?_, ?_, ?_⟩ <;>
    (ext i hi; simp only [BitVec.getElem_extractLsb', BitVec.getLsbD_append]; simp; grind)

theorem FormQ.maj_toWord (f : FormQ) : f.toWord.extractLsb' 25 7 = f.maj :=
  congrArg FormQ.maj f.ofWord_toWord

theorem FWord.ofBits_toBits (opc : BitVec 8) (f : FWord) : FWord.ofBits (FWord.toBits opc f) = f := by
  obtain ⟨pm, pk, fa, fb, fd, sh, t0, t1, imm⟩ := f
  simp only [FWord.ofBits, FWord.toBits, FWord.mk.injEq]
  refine ⟨?_, ?_, ?_, ?_, ?_, ?_, ?_, ?_, ?_⟩ <;>
    (ext i hi; simp only [BitVec.getElem_extractLsb', BitVec.getLsbD_append]; simp; grind)

theorem FWord.opc_toBits (opc : BitVec 8) (f : FWord) : (FWord.toBits opc f).extractLsb' 56 8 = opc := by
  obtain ⟨pm, pk, fa, fb, fd, sh, t0, t1, imm⟩ := f
  simp only [FWord.toBits]
  ext i hi; simp only [BitVec.getElem_extractLsb', BitVec.getLsbD_append]; simp; grind

/-- A doubleword is its high word above its low one. -/
theorem join_halves (w : Word) : w.extractLsb' 32 32 ++ w.extractLsb' 0 32 = w := by
  ext i hi
  simp only [BitVec.getElem_append, BitVec.getElem_extractLsb']
  split
  · simp [BitVec.getLsbD_eq_getElem, hi]
  · next h => simp [show 32 + (i - 32) = i by omega, BitVec.getLsbD_eq_getElem, hi]

/-- A word is laid out and read back. -/
theorem wordOfBytes_bytesOfWord (w : W32) (r : List Byte) : wordOfBytes (bytesOfWord w ++ r) = w := by
  simp only [wordOfBytes, bytesOfWord, List.cons_append, List.nil_append, List.getD_cons_succ, List.getD_cons_zero]
  ext i hi
  simp only [BitVec.getElem_append, BitVec.getElem_extractLsb']
  simp; grind

end Sys2Proof
end

