-- ==== Sys2Proof/Laws/Issue.lean ====
section
/-! SUPPORT. What issuing an instruction comes to: the register names follow from the operands' being readable, a body that
answers completes, one that traps is delivered, one that waits leaves the state; and what the shapes of the register
instructions do. -/

namespace Sys2Proof.Machine

/-! ## Tables and threads -/

theorem tabPut_tabPut {α : Type} (t : Tab α) (k : Nat) (v w : α) : tabPut (tabPut t k v) k w = tabPut t k w := by
  induction t with
  | nil => simp [tabPut]
  | cons e r ih =>
    obtain ⟨j, x⟩ := e
    simp only [tabPut]
    split
    · simp [tabPut]
    · split <;> simp_all [tabPut]

theorem threadAt_setThread (s : State) (k : Nat) (t : Thread) : (s.setThread k t).threadAt k = some t := by
  simp [State.threadAt, State.setThread, tabFind_tabPut_self]

theorem threadAt_setThread_ne (s : State) (k j : Nat) (t : Thread) (h : j ≠ k) :
    (s.setThread k t).threadAt j = s.threadAt j := by
  simp [State.threadAt, State.setThread, tabFind_tabPut_ne _ _ _ _ h]

theorem setThread_setThread (s : State) (k : Nat) (t u : Thread) : (s.setThread k t).setThread k u = s.setThread k u := by
  simp [State.setThread, tabPut_tabPut]

theorem complete_setThread (s : State) (k : Nat) (t : Thread) (x : Word) :
    complete (s.setThread k t) k x = s.setThread k (endTest t x) := by
  simp [complete, State.updThread, threadAt_setThread, setThread_setThread]

theorem endsIn_setThread (s s' : State) (t u : Thread) :
    endsIn s t (s'.setThread s.core u) = .next (s'.setThread s.core (endTest u t.pc)) := by
  simp [endsIn, complete_setThread]

theorem endsIn_eq (s s' : State) (t u : Thread) : endsIn s t (s'.setThread s.core u) = endsWith s t s' u :=
  endsIn_setThread s s' t u

/-! ## Register names -/

theorem regLoc_of_read {t : Thread} {r : Reg} {w : Bool} {x : Word} (h : readReg64 t r w = .ok x) :
    ∃ l, regLoc t r = .ok l := by
  simp only [readReg64] at h
  split at h <;> simp_all

theorem regLoc_of_reads {t : Thread} {a : Src} {x : Word} (h : Reads t a x) : ∃ l, regLoc t a.reg = .ok l :=
  regLoc_of_read h

theorem regLoc_of_holds {t : Thread} {r : Reg} {x : Word} (h : Holds t r x) : ∃ l, regLoc t r = .ok l :=
  regLoc_of_read h

theorem regLoc_of_ready {t : Thread} {r : Reg} (h : Ready t r) : ∃ l, regLoc t r = .ok l := by
  simp only [Ready, destReady] at h
  split at h <;> simp_all

theorem namesOk_of_locs {t : Thread} (rs : List Reg) (h : ∀ r ∈ rs, ∃ l, regLoc t r = .ok l) : namesOk t rs = .ok () := by
  induction rs with
  | nil => rfl
  | cons r rest ih =>
    obtain ⟨l, hl⟩ := h r (by simp)
    simp only [namesOk, hl]
    exact ih fun q hq => h q (by simp [hq])

theorem producerSlot_of_room {t : Thread} (h : HasRoom t) : producerSlot t = .ok () := by
  simp only [HasRoom] at h
  simp only [producerSlot]
  rw [if_neg (by omega)]

/-! ## Issuing -/

theorem attempt_acts {s : State} {t : Thread} (ha : Acts s t) (e : Bool) (rs : List Reg)
    (body : Nat → Thread → Except Exc State) (hn : namesOk t rs = .ok ()) :
    attempt s e rs body = .next (settle s s.core t (body s.core t)) := by
  simp [attempt, ha.1, ha.2, hn]

theorem issueOwnWith_acts {s : State} {t u : Thread} (ha : Acts s t) (more : Word) (rs : List Reg)
    (body : Thread → Except Exc Thread) (hn : namesOk t rs = .ok ()) (hb : body t = .ok u) :
    issueOwnWith more s rs body = .next (s.setThread s.core (endTest u (t.pc + more))) := by
  simp [issueOwnWith, attempt_acts ha _ _ _ hn, hb, settle]

theorem issueOwn_acts {s : State} {t u : Thread} (ha : Acts s t) (rs : List Reg)
    (body : Thread → Except Exc Thread) (hn : namesOk t rs = .ok ()) (hb : body t = .ok u) :
    issueOwn s rs body = ends s t u := by
  simpa [issueOwn, ends] using issueOwnWith_acts ha 0 rs body hn hb

theorem issue_acts {s s' : State} {t : Thread} (ha : Acts s t) (rs : List Reg)
    (body : Nat → Thread → Except Exc State) (hn : namesOk t rs = .ok ()) (hb : body s.core t = .ok s') :
    issue s rs body = endsIn s t s' := by
  simp [issue, issueWith, attempt_acts ha _ _ _ hn, hb, settle, endsIn]

theorem issue_acts_own {s s' : State} {t u : Thread} (ha : Acts s t) (rs : List Reg)
    (body : Nat → Thread → Except Exc State) (hn : namesOk t rs = .ok ())
    (hb : body s.core t = .ok (s'.setThread s.core u)) : issue s rs body = endsWith s t s' u :=
  (issue_acts ha rs body hn hb).trans (endsIn_eq ..)

theorem issue_traps {s : State} {t : Thread} (ha : Acts s t) (rs : List Reg) (e : Exn)
    (body : Nat → Thread → Except Exc State) (hn : namesOk t rs = .ok ())
    (hb : body s.core t = .error (.trap e none)) : issue s rs body = traps s t e := by
  simp [issue, issueWith, attempt_acts ha _ _ _ hn, hb, settle, traps]

theorem issueOwn_traps {s : State} {t : Thread} (ha : Acts s t) (rs : List Reg) (e : Exn)
    (body : Thread → Except Exc Thread) (hn : namesOk t rs = .ok ())
    (hb : body t = .error (.trap e none)) : issueOwn s rs body = traps s t e := by
  simp [issueOwn, issueOwnWith, attempt_acts ha _ _ _ hn, hb, settle, traps]

/-! ## Shapes of register instructions -/

theorem opRR_acts {s : State} {t : Thread} {d : Reg} {a b : Src} {x y : Word} (ha : Acts s t) (hx : Reads t a x)
    (hy : Reads t b y) (hd : Ready t d) (f : Word → Word → Word) : opRR s d a b f = ends s t (writeR t d (f x y)) := by
  refine issueOwn_acts ha _ _ (namesOk_of_locs _ ?_) ?_
  · simp [regLoc_of_reads hx, regLoc_of_reads hy, regLoc_of_ready hd]
  · simp only [Reads, Ready] at hx hy hd
    simp [hx, hy, writeDest, hd, bind, Except.bind]

theorem opR_acts {s : State} {t : Thread} {d : Reg} {a : Src} {x : Word} (ha : Acts s t) (hx : Reads t a x)
    (hd : Ready t d) (f : Word → Word) (more : Word) :
    opR more s d a f = .next (s.setThread s.core (endTest (writeR t d (f x)) (t.pc + more))) := by
  refine issueOwnWith_acts ha _ _ _ (namesOk_of_locs _ ?_) ?_
  · simp [regLoc_of_reads hx, regLoc_of_ready hd]
  · simp only [Reads, Ready] at hx hd
    simp [hx, writeDest, hd, bind, Except.bind]

theorem opD_acts {s : State} {t : Thread} {d : Reg} (ha : Acts s t) (hd : Ready t d) (f : Thread → Word) (more : Word) :
    opD more s d f = .next (s.setThread s.core (endTest (writeR t d (f t)) (t.pc + more))) := by
  refine issueOwnWith_acts ha _ _ _ (namesOk_of_locs _ ?_) ?_
  · simp [regLoc_of_ready hd]
  · simp only [Ready] at hd
    simp [writeDest, hd]

end Sys2Proof.Machine
end

