-- ==== Sys2Proof/Laws/PerInstr.lean ====
section
/-! SUPPORT. Decoding the words of an instruction gives it back, constructor by constructor. -/

set_option Elab.async false
set_option linter.unusedSimpArgs false

namespace Sys2Proof.Laws.Encoding

open Sys2Proof.Machine

/-- A well-formed instruction comes back from its words. -/
def Statement (i : Instr) : Prop := i.wf = true → RoundTrips i

/-- An event has no words. -/
theorem no_words {i : Instr} (hf : i.fabricOpc = none) (he : encode i = []) : Statement i := by
  intro _; simp [RoundTrips, hf, he]

/-- The decoder's answer for one word of another form than L is the instruction, and what follows the word is left. -/
theorem one_word {i : Instr} {w : W32} (hf : i.fabricOpc = none) (he : encode i = [w]) (hl : isLong w = false)
    (hd : i.wf = true → ∀ next, decodeWords w next = .ok (wordRow i)) : Statement i := by
  intro hw
  simp only [RoundTrips, hf]
  refine .inr fun rest => ?_
  have hb : bytesOf i ++ rest = bytesOfWord w ++ rest := by simp [bytesOf, he]
  rw [hb, decodeBytes, wordOfBytes_bytesOfWord]
  simp [hd hw, hl, bytesOfWord]

/-- The same for the two words of an L form. -/
theorem two_words {i : Instr} {w v : W32} (hf : i.fabricOpc = none) (he : encode i = [w, v]) (hl : isLong w = true)
    (hd : i.wf = true → decodeWords w v = .ok (wordRow i)) : Statement i := by
  intro hw
  simp only [RoundTrips, hf]
  refine .inr fun rest => ?_
  have hb : bytesOf i ++ rest = bytesOfWord w ++ (bytesOfWord v ++ rest) := by simp [bytesOf, he]
  have hv : (bytesOfWord w ++ (bytesOfWord v ++ rest)).drop 4 = bytesOfWord v ++ rest := by simp [bytesOfWord]
  rw [hb, decodeBytes, wordOfBytes_bytesOfWord, hv, wordOfBytes_bytesOfWord]
  simp [hd hw, hl, bytesOfWord]

/-- A fabric doubleword comes back from its fields. -/
theorem doubleword {i : Instr} {op : BitVec 8} {f : FWord} (hf : i.fabricOpc = some (op, f))
    (he : encode i = [(f.toBits op).extractLsb' 0 32, (f.toBits op).extractLsb' 32 32])
    (hi : fabricOf op f = some i) : Statement i := by
  intro hw
  simp only [RoundTrips, hf]
  refine ⟨_, _, he, ?_⟩
  simp [join_halves, decodeFabric, FWord.opc_toBits, FWord.ofBits_toBits, hi, hw]

/-- A port number is its upper bit and its five lower ones. -/
theorem port_join (p : BitVec 6) : (0#3 ++ p.extractLsb' 5 1).extractLsb' 0 1 ++ p.extractLsb' 0 5 = p := by
  revert p; decide
theorem port_high (p : BitVec 6) : (0#3 ++ p.extractLsb' 5 1).extractLsb' 1 3 = 0#3 := by
  revert p; decide

/-- A source field and its wait bit. -/
theorem src_eq (a : Src) : (⟨a.reg, BitVec.ofBool a.wait == 1#1⟩ : Src) = a := by
  obtain ⟨r, w⟩ := a; cases w <;> rfl

theorem low_6_6 (x : BitVec 6) (y : BitVec 6) : @BitVec.extractLsb' 12 0 6 (x ++ y) = y :=
  BitVec.extractLsb'_append_eq_right
theorem high_6_6 (x : BitVec 6) (y : BitVec 6) : @BitVec.extractLsb' 12 6 6 (x ++ y) = x :=
  BitVec.extractLsb'_append_eq_left
theorem low_3_3 (x : BitVec 3) (y : BitVec 3) : @BitVec.extractLsb' 6 0 3 (x ++ y) = y :=
  BitVec.extractLsb'_append_eq_right
theorem high_3_3 (x : BitVec 3) (y : BitVec 3) : @BitVec.extractLsb' 6 3 3 (x ++ y) = x :=
  BitVec.extractLsb'_append_eq_left
theorem low_2_4 (x : BitVec 2) (y : BitVec 4) : @BitVec.extractLsb' 6 0 4 (x ++ y) = y :=
  BitVec.extractLsb'_append_eq_right
theorem high_2_4 (x : BitVec 2) (y : BitVec 4) : @BitVec.extractLsb' 6 4 2 (x ++ y) = x :=
  BitVec.extractLsb'_append_eq_left
theorem low_2_3 (x : BitVec 2) (y : BitVec 3) : @BitVec.extractLsb' 5 0 3 (x ++ y) = y :=
  BitVec.extractLsb'_append_eq_right
theorem high_2_3 (x : BitVec 2) (y : BitVec 3) : @BitVec.extractLsb' 5 3 2 (x ++ y) = x :=
  BitVec.extractLsb'_append_eq_left
theorem low_1_4 (x : BitVec 1) (y : BitVec 4) : @BitVec.extractLsb' 5 0 4 (x ++ y) = y :=
  BitVec.extractLsb'_append_eq_right
theorem high_1_4 (x : BitVec 1) (y : BitVec 4) : @BitVec.extractLsb' 5 4 1 (x ++ y) = x :=
  BitVec.extractLsb'_append_eq_left
theorem low_3_2 (x : BitVec 3) (y : BitVec 2) : @BitVec.extractLsb' 5 0 2 (x ++ y) = y :=
  BitVec.extractLsb'_append_eq_right
theorem high_3_2 (x : BitVec 3) (y : BitVec 2) : @BitVec.extractLsb' 5 2 3 (x ++ y) = x :=
  BitVec.extractLsb'_append_eq_left
theorem low_4_8 (x : BitVec 4) (y : BitVec 8) : @BitVec.extractLsb' 12 0 8 (x ++ y) = y :=
  BitVec.extractLsb'_append_eq_right
theorem high_4_8 (x : BitVec 4) (y : BitVec 8) : @BitVec.extractLsb' 12 8 4 (x ++ y) = x :=
  BitVec.extractLsb'_append_eq_left
theorem low_8_4 (x : BitVec 8) (y : BitVec 4) : @BitVec.extractLsb' 12 0 4 (x ++ y) = y :=
  BitVec.extractLsb'_append_eq_right
theorem high_8_4 (x : BitVec 8) (y : BitVec 4) : @BitVec.extractLsb' 12 4 8 (x ++ y) = x :=
  BitVec.extractLsb'_append_eq_left
theorem low_7_5 (x : BitVec 7) (y : BitVec 5) : @BitVec.extractLsb' 12 0 5 (x ++ y) = y :=
  BitVec.extractLsb'_append_eq_right
theorem high_7_5 (x : BitVec 7) (y : BitVec 5) : @BitVec.extractLsb' 12 5 7 (x ++ y) = x :=
  BitVec.extractLsb'_append_eq_left
theorem low_8_24 (x : BitVec 8) (y : BitVec 24) : @BitVec.extractLsb' 32 0 24 (x ++ y) = y :=
  BitVec.extractLsb'_append_eq_right
theorem high_8_24 (x : BitVec 8) (y : BitVec 24) : @BitVec.extractLsb' 32 24 8 (x ++ y) = x :=
  BitVec.extractLsb'_append_eq_left
theorem low_2_2 (x : BitVec 2) (y : BitVec 2) : @BitVec.extractLsb' 4 0 2 (x ++ y) = y :=
  BitVec.extractLsb'_append_eq_right
theorem high_2_2 (x : BitVec 2) (y : BitVec 2) : @BitVec.extractLsb' 4 2 2 (x ++ y) = x :=
  BitVec.extractLsb'_append_eq_left
theorem low_4_2 (x : BitVec 4) (y : BitVec 2) : @BitVec.extractLsb' 6 0 2 (x ++ y) = y :=
  BitVec.extractLsb'_append_eq_right
theorem high_4_2 (x : BitVec 4) (y : BitVec 2) : @BitVec.extractLsb' 6 2 4 (x ++ y) = x :=
  BitVec.extractLsb'_append_eq_left
/-- A one-bit field. -/
theorem bool_eq (n : Bool) : (BitVec.ofBool n == 1#1) = n := by cases n <;> rfl
theorem qfence_low (s : BitVec 2) (m : BitVec 8) : @BitVec.extractLsb' 12 0 8 (0#2 ++ s ++ m) = m :=
  BitVec.extractLsb'_append_eq_right
theorem qfence_mid (s : BitVec 2) (m : BitVec 8) : @BitVec.extractLsb' 12 8 2 (0#2 ++ s ++ m) = s := by
  ext i hi; simp only [BitVec.getElem_extractLsb', BitVec.getLsbD_append]; simp; grind
theorem qfence_high (s : BitVec 2) (m : BitVec 8) : @BitVec.extractLsb' 12 10 2 (0#2 ++ s ++ m) = 0#2 := by
  ext i hi; simp only [BitVec.getElem_extractLsb', BitVec.getLsbD_append]; simp; grind

theorem sys_2 (r : BitVec 8) : ¬ ((2#4 ++ r : BitVec 12) = 256#12) := by
  revert r; decide
theorem sys_3 (r : BitVec 8) : ¬ ((3#4 ++ r : BitVec 12) = 256#12) := by
  revert r; decide
theorem sys_4 (r : BitVec 8) : ¬ ((4#4 ++ r : BitVec 12) = 256#12) := by
  revert r; decide
theorem word_00 (f : FormR) (next : W32) (h : f.maj = 0x00#7) : decodeWords f.toWord next = decodeMaj00 f := by
  unfold decodeWords; rw [FormR.maj_toWord, h, FormR.ofWord_toWord]; rfl

theorem word_01 (f : FormI) (next : W32) (h : f.maj = 0x01#7) : decodeWords f.toWord next = decodeMaj01 f := by
  unfold decodeWords; rw [FormI.maj_toWord, h, FormI.ofWord_toWord]; rfl

theorem word_02 (f : FormI) (next : W32) (h : f.maj = 0x02#7) : decodeWords f.toWord next = decodeMaj02 f := by
  unfold decodeWords; rw [FormI.maj_toWord, h, FormI.ofWord_toWord]; rfl

theorem word_03 (f : FormI) (next : W32) (h : f.maj = 0x03#7) : decodeWords f.toWord next = decodeMaj03 f := by
  unfold decodeWords; rw [FormI.maj_toWord, h, FormI.ofWord_toWord]; rfl

theorem word_04 (f : FormI) (next : W32) (h : f.maj = 0x04#7) : decodeWords f.toWord next = decodeMaj04 f := by
  unfold decodeWords; rw [FormI.maj_toWord, h, FormI.ofWord_toWord]; rfl

theorem word_05 (f : FormI) (next : W32) (h : f.maj = 0x05#7) : decodeWords f.toWord next = decodeMaj05 f := by
  unfold decodeWords; rw [FormI.maj_toWord, h, FormI.ofWord_toWord]; rfl

theorem word_06 (f : FormI) (next : W32) (h : f.maj = 0x06#7) : decodeWords f.toWord next = decodeMaj06 f := by
  unfold decodeWords; rw [FormI.maj_toWord, h, FormI.ofWord_toWord]; rfl

theorem word_07 (f : FormI) (next : W32) (h : f.maj = 0x07#7) : decodeWords f.toWord next = decodeMaj07 f := by
  unfold decodeWords; rw [FormI.maj_toWord, h, FormI.ofWord_toWord]; rfl

theorem word_08 (f : FormI) (next : W32) (h : f.maj = 0x08#7) : decodeWords f.toWord next = decodeMaj08 f := by
  unfold decodeWords; rw [FormI.maj_toWord, h, FormI.ofWord_toWord]; rfl

theorem word_09 (f : FormI) (next : W32) (h : f.maj = 0x09#7) : decodeWords f.toWord next = decodeMaj09 f := by
  unfold decodeWords; rw [FormI.maj_toWord, h, FormI.ofWord_toWord]; rfl

theorem word_0A (f : FormI) (next : W32) (h : f.maj = 0x0A#7) : decodeWords f.toWord next = decodeMaj0A f := by
  unfold decodeWords; rw [FormI.maj_toWord, h, FormI.ofWord_toWord]; rfl

theorem word_0B (f : FormI) (next : W32) (h : f.maj = 0x0B#7) : decodeWords f.toWord next = decodeMaj0B f := by
  unfold decodeWords; rw [FormI.maj_toWord, h, FormI.ofWord_toWord]; rfl

theorem word_0C (f : FormI) (next : W32) (h : f.maj = 0x0C#7) : decodeWords f.toWord next = decodeMaj0C f := by
  unfold decodeWords; rw [FormI.maj_toWord, h, FormI.ofWord_toWord]; rfl

theorem word_0D (f : FormI) (next : W32) (h : f.maj = 0x0D#7) : decodeWords f.toWord next = decodeMaj0D f next := by
  unfold decodeWords; rw [FormI.maj_toWord, h, FormI.ofWord_toWord]; rfl

theorem word_10 (f : FormR) (next : W32) (h : f.maj = 0x10#7) : decodeWords f.toWord next = decodeMaj10 f := by
  unfold decodeWords; rw [FormR.maj_toWord, h, FormR.ofWord_toWord]; rfl

theorem word_11 (f : FormR) (next : W32) (h : f.maj = 0x11#7) : decodeWords f.toWord next = decodeMaj11 f := by
  unfold decodeWords; rw [FormR.maj_toWord, h, FormR.ofWord_toWord]; rfl

theorem word_12 (f : FormR) (next : W32) (h : f.maj = 0x12#7) : decodeWords f.toWord next = decodeMaj12 f := by
  unfold decodeWords; rw [FormR.maj_toWord, h, FormR.ofWord_toWord]; rfl

theorem word_18 (f : FormM) (next : W32) (h : f.maj = 0x18#7) : decodeWords f.toWord next = decodeMaj18 f := by
  unfold decodeWords; rw [FormM.maj_toWord, h, FormM.ofWord_toWord]; rfl

theorem word_19 (f : FormM) (next : W32) (h : f.maj = 0x19#7) : decodeWords f.toWord next = decodeMaj19 f := by
  unfold decodeWords; rw [FormM.maj_toWord, h, FormM.ofWord_toWord]; rfl

theorem word_1A (f : FormM) (next : W32) (h : f.maj = 0x1A#7) : decodeWords f.toWord next = decodeMaj1A f := by
  unfold decodeWords; rw [FormM.maj_toWord, h, FormM.ofWord_toWord]; rfl

theorem word_1B (f : FormM) (next : W32) (h : f.maj = 0x1B#7) : decodeWords f.toWord next = decodeMaj1B f := by
  unfold decodeWords; rw [FormM.maj_toWord, h, FormM.ofWord_toWord]; rfl

theorem word_1C (f : FormM) (next : W32) (h : f.maj = 0x1C#7) : decodeWords f.toWord next = decodeMaj1C f := by
  unfold decodeWords; rw [FormM.maj_toWord, h, FormM.ofWord_toWord]; rfl

theorem word_1D (f : FormM) (next : W32) (h : f.maj = 0x1D#7) : decodeWords f.toWord next = decodeMaj1D f := by
  unfold decodeWords; rw [FormM.maj_toWord, h, FormM.ofWord_toWord]; rfl

theorem word_1E (f : FormM) (next : W32) (h : f.maj = 0x1E#7) : decodeWords f.toWord next = decodeMaj1E f := by
  unfold decodeWords; rw [FormM.maj_toWord, h, FormM.ofWord_toWord]; rfl

theorem word_20 (f : FormM) (next : W32) (h : f.maj = 0x20#7) : decodeWords f.toWord next = decodeMaj20 f := by
  unfold decodeWords; rw [FormM.maj_toWord, h, FormM.ofWord_toWord]; rfl

theorem word_21 (f : FormM) (next : W32) (h : f.maj = 0x21#7) : decodeWords f.toWord next = decodeMaj21 f := by
  unfold decodeWords; rw [FormM.maj_toWord, h, FormM.ofWord_toWord]; rfl

theorem word_22 (f : FormM) (next : W32) (h : f.maj = 0x22#7) : decodeWords f.toWord next = decodeMaj22 f := by
  unfold decodeWords; rw [FormM.maj_toWord, h, FormM.ofWord_toWord]; rfl

theorem word_23 (f : FormM) (next : W32) (h : f.maj = 0x23#7) : decodeWords f.toWord next = decodeMaj23 f := by
  unfold decodeWords; rw [FormM.maj_toWord, h, FormM.ofWord_toWord]; rfl

theorem word_24 (f : FormM) (next : W32) (h : f.maj = 0x24#7) : decodeWords f.toWord next = decodeMaj24 f := by
  unfold decodeWords; rw [FormM.maj_toWord, h, FormM.ofWord_toWord]; rfl

theorem word_28 (f : FormQ) (next : W32) (h : f.maj = 0x28#7) : decodeWords f.toWord next = decodeMaj28 f := by
  unfold decodeWords; rw [FormQ.maj_toWord, h, FormQ.ofWord_toWord]; rfl

theorem word_2F (f : FormA) (next : W32) (h : f.maj = 0x2F#7) : decodeWords f.toWord next = decodeMaj2F f := by
  unfold decodeWords; rw [FormA.maj_toWord, h, FormA.ofWord_toWord]; rfl

theorem word_30 (f : FormR) (next : W32) (h : f.maj = 0x30#7) : decodeWords f.toWord next = decodeMaj30 f := by
  unfold decodeWords; rw [FormR.maj_toWord, h, FormR.ofWord_toWord]; rfl

theorem word_31 (f : FormI) (next : W32) (h : f.maj = 0x31#7) : decodeWords f.toWord next = decodeMaj31 f := by
  unfold decodeWords; rw [FormI.maj_toWord, h, FormI.ofWord_toWord]; rfl

theorem word_32 (f : FormR) (next : W32) (h : f.maj = 0x32#7) : decodeWords f.toWord next = decodeMaj32 f := by
  unfold decodeWords; rw [FormR.maj_toWord, h, FormR.ofWord_toWord]; rfl

theorem word_33 (f : FormR) (next : W32) (h : f.maj = 0x33#7) : decodeWords f.toWord next = decodeMaj33 f := by
  unfold decodeWords; rw [FormR.maj_toWord, h, FormR.ofWord_toWord]; rfl

theorem word_34 (f : FormR) (next : W32) (h : f.maj = 0x34#7) : decodeWords f.toWord next = decodeMaj34 f := by
  unfold decodeWords; rw [FormR.maj_toWord, h, FormR.ofWord_toWord]; rfl

theorem word_35 (f : FormQ) (next : W32) (h : f.maj = 0x35#7) : decodeWords f.toWord next = decodeMaj35 f := by
  unfold decodeWords; rw [FormQ.maj_toWord, h, FormQ.ofWord_toWord]; rfl

theorem word_36 (f : FormM) (next : W32) (h : f.maj = 0x36#7) : decodeWords f.toWord next = decodeMaj36 f := by
  unfold decodeWords; rw [FormM.maj_toWord, h, FormM.ofWord_toWord]; rfl

theorem word_38 (f : FormB) (next : W32) (h : f.maj = 0x38#7) : decodeWords f.toWord next = decodeMaj38 f := by
  unfold decodeWords; rw [FormB.maj_toWord, h, FormB.ofWord_toWord]; rfl

theorem word_39 (f : FormB) (next : W32) (h : f.maj = 0x39#7) : decodeWords f.toWord next = decodeMaj39 f := by
  unfold decodeWords; rw [FormB.maj_toWord, h, FormB.ofWord_toWord]; rfl

theorem word_3A (f : FormB) (next : W32) (h : f.maj = 0x3A#7) : decodeWords f.toWord next = decodeMaj3A f := by
  unfold decodeWords; rw [FormB.maj_toWord, h, FormB.ofWord_toWord]; rfl

theorem word_3B (f : FormR) (next : W32) (h : f.maj = 0x3B#7) : decodeWords f.toWord next = decodeMaj3B f := by
  unfold decodeWords; rw [FormR.maj_toWord, h, FormR.ofWord_toWord]; rfl

theorem word_3C (f : FormI) (next : W32) (h : f.maj = 0x3C#7) : decodeWords f.toWord next = decodeMaj3C f := by
  unfold decodeWords; rw [FormI.maj_toWord, h, FormI.ofWord_toWord]; rfl

theorem word_3D (f : FormI) (next : W32) (h : f.maj = 0x3D#7) : decodeWords f.toWord next = decodeMaj3D f next := by
  unfold decodeWords; rw [FormI.maj_toWord, h, FormI.ofWord_toWord]; rfl

theorem word_3E (f : FormI) (next : W32) (h : f.maj = 0x3E#7) : decodeWords f.toWord next = decodeMaj3E f := by
  unfold decodeWords; rw [FormI.maj_toWord, h, FormI.ofWord_toWord]; rfl

theorem word_40 (f : FormQ) (next : W32) (h : f.maj = 0x40#7) : decodeWords f.toWord next = decodeMaj40 f := by
  unfold decodeWords; rw [FormQ.maj_toWord, h, FormQ.ofWord_toWord]; rfl

theorem word_41 (f : FormQ) (next : W32) (h : f.maj = 0x41#7) : decodeWords f.toWord next = decodeMaj41 f := by
  unfold decodeWords; rw [FormQ.maj_toWord, h, FormQ.ofWord_toWord]; rfl

theorem word_42 (f : FormQ) (next : W32) (h : f.maj = 0x42#7) : decodeWords f.toWord next = decodeMaj42 f := by
  unfold decodeWords; rw [FormQ.maj_toWord, h, FormQ.ofWord_toWord]; rfl

theorem word_43 (f : FormQ) (next : W32) (h : f.maj = 0x43#7) : decodeWords f.toWord next = decodeMaj43 f := by
  unfold decodeWords; rw [FormQ.maj_toWord, h, FormQ.ofWord_toWord]; rfl

theorem word_44 (f : FormQ) (next : W32) (h : f.maj = 0x44#7) : decodeWords f.toWord next = decodeMaj44 f := by
  unfold decodeWords; rw [FormQ.maj_toWord, h, FormQ.ofWord_toWord]; rfl

theorem word_45 (f : FormQ) (next : W32) (h : f.maj = 0x45#7) : decodeWords f.toWord next = decodeMaj45 f := by
  unfold decodeWords; rw [FormQ.maj_toWord, h, FormQ.ofWord_toWord]; rfl

theorem word_46 (f : FormQ) (next : W32) (h : f.maj = 0x46#7) : decodeWords f.toWord next = decodeMaj46 f := by
  unfold decodeWords; rw [FormQ.maj_toWord, h, FormQ.ofWord_toWord]; rfl

theorem word_47 (f : FormQ) (next : W32) (h : f.maj = 0x47#7) : decodeWords f.toWord next = decodeMaj47 f := by
  unfold decodeWords; rw [FormQ.maj_toWord, h, FormQ.ofWord_toWord]; rfl

theorem word_48 (f : FormI) (next : W32) (h : f.maj = 0x48#7) : decodeWords f.toWord next = decodeMaj48 f := by
  unfold decodeWords; rw [FormI.maj_toWord, h, FormI.ofWord_toWord]; rfl

theorem word_50 (f : FormQ) (next : W32) (h : f.maj = 0x50#7) : decodeWords f.toWord next = decodeMaj50 f := by
  unfold decodeWords; rw [FormQ.maj_toWord, h, FormQ.ofWord_toWord]; rfl

theorem word_51 (f : FormQ) (next : W32) (h : f.maj = 0x51#7) : decodeWords f.toWord next = decodeMaj51 f := by
  unfold decodeWords; rw [FormQ.maj_toWord, h, FormQ.ofWord_toWord]; rfl

theorem word_52 (f : FormQ) (next : W32) (h : f.maj = 0x52#7) : decodeWords f.toWord next = decodeMaj52 f := by
  unfold decodeWords; rw [FormQ.maj_toWord, h, FormQ.ofWord_toWord]; rfl

theorem word_53 (f : FormQ) (next : W32) (h : f.maj = 0x53#7) : decodeWords f.toWord next = decodeMaj53 f := by
  unfold decodeWords; rw [FormQ.maj_toWord, h, FormQ.ofWord_toWord]; rfl

theorem word_54 (f : FormQ) (next : W32) (h : f.maj = 0x54#7) : decodeWords f.toWord next = decodeMaj54 f := by
  unfold decodeWords; rw [FormQ.maj_toWord, h, FormQ.ofWord_toWord]; rfl

theorem word_55 (f : FormR) (next : W32) (h : f.maj = 0x55#7) : decodeWords f.toWord next = decodeMaj55 f := by
  unfold decodeWords; rw [FormR.maj_toWord, h, FormR.ofWord_toWord]; rfl

theorem word_56 (f : FormR) (next : W32) (h : f.maj = 0x56#7) : decodeWords f.toWord next = decodeMaj56 f := by
  unfold decodeWords; rw [FormR.maj_toWord, h, FormR.ofWord_toWord]; rfl

theorem word_58 (f : FormQ) (next : W32) (h : f.maj = 0x58#7) : decodeWords f.toWord next = decodeMaj58 f := by
  unfold decodeWords; rw [FormQ.maj_toWord, h, FormQ.ofWord_toWord]; rfl

theorem word_59 (f : FormA) (next : W32) (h : f.maj = 0x59#7) : decodeWords f.toWord next = decodeMaj59 f := by
  unfold decodeWords; rw [FormA.maj_toWord, h, FormA.ofWord_toWord]; rfl

theorem word_5A (f : FormR) (next : W32) (h : f.maj = 0x5A#7) : decodeWords f.toWord next = decodeMaj5A f := by
  unfold decodeWords; rw [FormR.maj_toWord, h, FormR.ofWord_toWord]; rfl

theorem word_5B (f : FormR) (next : W32) (h : f.maj = 0x5B#7) : decodeWords f.toWord next = decodeMaj5B f := by
  unfold decodeWords; rw [FormR.maj_toWord, h, FormR.ofWord_toWord]; rfl

theorem word_5C (f : FormI) (next : W32) (h : f.maj = 0x5C#7) : decodeWords f.toWord next = decodeMaj5C f := by
  unfold decodeWords; rw [FormI.maj_toWord, h, FormI.ofWord_toWord]; rfl

theorem word_5D (f : FormR) (next : W32) (h : f.maj = 0x5D#7) : decodeWords f.toWord next = decodeMaj5D f := by
  unfold decodeWords; rw [FormR.maj_toWord, h, FormR.ofWord_toWord]; rfl

theorem word_5E (f : FormI) (next : W32) (h : f.maj = 0x5E#7) : decodeWords f.toWord next = decodeMaj5E f := by
  unfold decodeWords; rw [FormI.maj_toWord, h, FormI.ofWord_toWord]; rfl

theorem word_60 (f : FormQ) (next : W32) (h : f.maj = 0x60#7) : decodeWords f.toWord next = decodeMaj60 f := by
  unfold decodeWords; rw [FormQ.maj_toWord, h, FormQ.ofWord_toWord]; rfl

theorem word_61 (f : FormQ) (next : W32) (h : f.maj = 0x61#7) : decodeWords f.toWord next = decodeMaj61 f := by
  unfold decodeWords; rw [FormQ.maj_toWord, h, FormQ.ofWord_toWord]; rfl

theorem word_62 (f : FormQ) (next : W32) (h : f.maj = 0x62#7) : decodeWords f.toWord next = decodeMaj62 f := by
  unfold decodeWords; rw [FormQ.maj_toWord, h, FormQ.ofWord_toWord]; rfl

theorem word_63 (f : FormQ) (next : W32) (h : f.maj = 0x63#7) : decodeWords f.toWord next = decodeMaj63 f := by
  unfold decodeWords; rw [FormQ.maj_toWord, h, FormQ.ofWord_toWord]; rfl

theorem word_64 (f : FormQ) (next : W32) (h : f.maj = 0x64#7) : decodeWords f.toWord next = decodeMaj64 f := by
  unfold decodeWords; rw [FormQ.maj_toWord, h, FormQ.ofWord_toWord]; rfl

theorem word_65 (f : FormB) (next : W32) (h : f.maj = 0x65#7) : decodeWords f.toWord next = decodeMaj65 f := by
  unfold decodeWords; rw [FormB.maj_toWord, h, FormB.ofWord_toWord]; rfl

theorem word_66 (f : FormQ) (next : W32) (h : f.maj = 0x66#7) : decodeWords f.toWord next = decodeMaj66 f := by
  unfold decodeWords; rw [FormQ.maj_toWord, h, FormQ.ofWord_toWord]; rfl

theorem word_67 (f : FormQ) (next : W32) (h : f.maj = 0x67#7) : decodeWords f.toWord next = decodeMaj67 f := by
  unfold decodeWords; rw [FormQ.maj_toWord, h, FormQ.ofWord_toWord]; rfl

theorem word_68 (f : FormQ) (next : W32) (h : f.maj = 0x68#7) : decodeWords f.toWord next = decodeMaj68 f := by
  unfold decodeWords; rw [FormQ.maj_toWord, h, FormQ.ofWord_toWord]; rfl

theorem word_69 (f : FormQ) (next : W32) (h : f.maj = 0x69#7) : decodeWords f.toWord next = decodeMaj69 f := by
  unfold decodeWords; rw [FormQ.maj_toWord, h, FormQ.ofWord_toWord]; rfl

theorem word_6A (f : FormQ) (next : W32) (h : f.maj = 0x6A#7) : decodeWords f.toWord next = decodeMaj6A f := by
  unfold decodeWords; rw [FormQ.maj_toWord, h, FormQ.ofWord_toWord]; rfl

theorem word_6B (f : FormQ) (next : W32) (h : f.maj = 0x6B#7) : decodeWords f.toWord next = decodeMaj6B f := by
  unfold decodeWords; rw [FormQ.maj_toWord, h, FormQ.ofWord_toWord]; rfl

theorem word_6C (f : FormQ) (next : W32) (h : f.maj = 0x6C#7) : decodeWords f.toWord next = decodeMaj6C f := by
  unfold decodeWords; rw [FormQ.maj_toWord, h, FormQ.ofWord_toWord]; rfl

theorem word_6D (f : FormQ) (next : W32) (h : f.maj = 0x6D#7) : decodeWords f.toWord next = decodeMaj6D f := by
  unfold decodeWords; rw [FormQ.maj_toWord, h, FormQ.ofWord_toWord]; rfl

theorem word_6E (f : FormQ) (next : W32) (h : f.maj = 0x6E#7) : decodeWords f.toWord next = decodeMaj6E f := by
  unfold decodeWords; rw [FormQ.maj_toWord, h, FormQ.ofWord_toWord]; rfl

theorem word_70 (f : FormQ) (next : W32) (h : f.maj = 0x70#7) : decodeWords f.toWord next = decodeMaj70 f := by
  unfold decodeWords; rw [FormQ.maj_toWord, h, FormQ.ofWord_toWord]; rfl

theorem word_71 (f : FormQ) (next : W32) (h : f.maj = 0x71#7) : decodeWords f.toWord next = decodeMaj71 f := by
  unfold decodeWords; rw [FormQ.maj_toWord, h, FormQ.ofWord_toWord]; rfl

theorem word_72 (f : FormQ) (next : W32) (h : f.maj = 0x72#7) : decodeWords f.toWord next = decodeMaj72 f := by
  unfold decodeWords; rw [FormQ.maj_toWord, h, FormQ.ofWord_toWord]; rfl

theorem word_73 (f : FormQ) (next : W32) (h : f.maj = 0x73#7) : decodeWords f.toWord next = decodeMaj73 f := by
  unfold decodeWords; rw [FormQ.maj_toWord, h, FormQ.ofWord_toWord]; rfl

theorem word_74 (f : FormQ) (next : W32) (h : f.maj = 0x74#7) : decodeWords f.toWord next = decodeMaj74 f := by
  unfold decodeWords; rw [FormQ.maj_toWord, h, FormQ.ofWord_toWord]; rfl

theorem word_75 (f : FormA) (next : W32) (h : f.maj = 0x75#7) : decodeWords f.toWord next = decodeMaj75 f := by
  unfold decodeWords; rw [FormA.maj_toWord, h, FormA.ofWord_toWord]; rfl

theorem word_76 (f : FormA) (next : W32) (h : f.maj = 0x76#7) : decodeWords f.toWord next = decodeMaj76 f := by
  unfold decodeWords; rw [FormA.maj_toWord, h, FormA.ofWord_toWord]; rfl

theorem word_77 (f : FormR) (next : W32) (h : f.maj = 0x77#7) : decodeWords f.toWord next = decodeMaj77 f := by
  unfold decodeWords; rw [FormR.maj_toWord, h, FormR.ofWord_toWord]; rfl

theorem word_78 (f : FormQ) (next : W32) (h : f.maj = 0x78#7) : decodeWords f.toWord next = decodeMaj78 f := by
  unfold decodeWords; rw [FormQ.maj_toWord, h, FormQ.ofWord_toWord]; rfl

theorem word_79 (f : FormQ) (next : W32) (h : f.maj = 0x79#7) : decodeWords f.toWord next = decodeMaj79 f := by
  unfold decodeWords; rw [FormQ.maj_toWord, h, FormQ.ofWord_toWord]; rfl

theorem word_7A (f : FormA) (next : W32) (h : f.maj = 0x7A#7) : decodeWords f.toWord next = decodeMaj7A f := by
  unfold decodeWords; rw [FormA.maj_toWord, h, FormA.ofWord_toWord]; rfl

theorem word_7B (f : FormR) (next : W32) (h : f.maj = 0x7B#7) : decodeWords f.toWord next = decodeMaj7B f := by
  unfold decodeWords; rw [FormR.maj_toWord, h, FormR.ofWord_toWord]; rfl

theorem word_7C (f : FormQ) (next : W32) (h : f.maj = 0x7C#7) : decodeWords f.toWord next = decodeMaj7C f := by
  unfold decodeWords; rw [FormQ.maj_toWord, h, FormQ.ofWord_toWord]; rfl

theorem word_7D (f : FormI) (next : W32) (h : f.maj = 0x7D#7) : decodeWords f.toWord next = decodeMaj7D f := by
  unfold decodeWords; rw [FormI.maj_toWord, h, FormI.ofWord_toWord]; rfl

theorem add (d : Reg) (a : Src) (b : Src) : Statement (.add d a b) := by
  refine one_word rfl rfl ?_ fun h => ?_
  · simp [isLong, FormR.maj_toWord]
  · intro next
    rw [word_00 _ _ rfl]
    simp [decodeMaj00, checked, wordRow, src_eq, bool_eq, h]

theorem sub (d : Reg) (a : Src) (b : Src) : Statement (.sub d a b) := by
  refine one_word rfl rfl ?_ fun h => ?_
  · simp [isLong, FormR.maj_toWord]
  · intro next
    rw [word_00 _ _ rfl]
    simp [decodeMaj00, checked, wordRow, src_eq, bool_eq, h]

theorem mul (d : Reg) (a : Src) (b : Src) : Statement (.mul d a b) := by
  refine one_word rfl rfl ?_ fun h => ?_
  · simp [isLong, FormR.maj_toWord]
  · intro next
    rw [word_00 _ _ rfl]
    simp [decodeMaj00, checked, wordRow, src_eq, bool_eq, h]

theorem mulh (d : Reg) (a : Src) (b : Src) : Statement (.mulh d a b) := by
  refine one_word rfl rfl ?_ fun h => ?_
  · simp [isLong, FormR.maj_toWord]
  · intro next
    rw [word_00 _ _ rfl]
    simp [decodeMaj00, checked, wordRow, src_eq, bool_eq, h]

theorem mulhu (d : Reg) (a : Src) (b : Src) : Statement (.mulhu d a b) := by
  refine one_word rfl rfl ?_ fun h => ?_
  · simp [isLong, FormR.maj_toWord]
  · intro next
    rw [word_00 _ _ rfl]
    simp [decodeMaj00, checked, wordRow, src_eq, bool_eq, h]

theorem div (d : Reg) (a : Src) (b : Src) : Statement (.div d a b) := by
  refine one_word rfl rfl ?_ fun h => ?_
  · simp [isLong, FormR.maj_toWord]
  · intro next
    rw [word_00 _ _ rfl]
    simp [decodeMaj00, checked, wordRow, src_eq, bool_eq, h]

theorem divu (d : Reg) (a : Src) (b : Src) : Statement (.divu d a b) := by
  refine one_word rfl rfl ?_ fun h => ?_
  · simp [isLong, FormR.maj_toWord]
  · intro next
    rw [word_00 _ _ rfl]
    simp [decodeMaj00, checked, wordRow, src_eq, bool_eq, h]

theorem rem (d : Reg) (a : Src) (b : Src) : Statement (.rem d a b) := by
  refine one_word rfl rfl ?_ fun h => ?_
  · simp [isLong, FormR.maj_toWord]
  · intro next
    rw [word_00 _ _ rfl]
    simp [decodeMaj00, checked, wordRow, src_eq, bool_eq, h]

theorem remu (d : Reg) (a : Src) (b : Src) : Statement (.remu d a b) := by
  refine one_word rfl rfl ?_ fun h => ?_
  · simp [isLong, FormR.maj_toWord]
  · intro next
    rw [word_00 _ _ rfl]
    simp [decodeMaj00, checked, wordRow, src_eq, bool_eq, h]

theorem and (d : Reg) (a : Src) (b : Src) : Statement (.and d a b) := by
  refine one_word rfl rfl ?_ fun h => ?_
  · simp [isLong, FormR.maj_toWord]
  · intro next
    rw [word_00 _ _ rfl]
    simp [decodeMaj00, checked, wordRow, src_eq, bool_eq, h]

theorem or (d : Reg) (a : Src) (b : Src) : Statement (.or d a b) := by
  refine one_word rfl rfl ?_ fun h => ?_
  · simp [isLong, FormR.maj_toWord]
  · intro next
    rw [word_00 _ _ rfl]
    simp [decodeMaj00, checked, wordRow, src_eq, bool_eq, h]

theorem xor (d : Reg) (a : Src) (b : Src) : Statement (.xor d a b) := by
  refine one_word rfl rfl ?_ fun h => ?_
  · simp [isLong, FormR.maj_toWord]
  · intro next
    rw [word_00 _ _ rfl]
    simp [decodeMaj00, checked, wordRow, src_eq, bool_eq, h]

theorem andn (d : Reg) (a : Src) (b : Src) : Statement (.andn d a b) := by
  refine one_word rfl rfl ?_ fun h => ?_
  · simp [isLong, FormR.maj_toWord]
  · intro next
    rw [word_00 _ _ rfl]
    simp [decodeMaj00, checked, wordRow, src_eq, bool_eq, h]

theorem shl (d : Reg) (a : Src) (b : Src) : Statement (.shl d a b) := by
  refine one_word rfl rfl ?_ fun h => ?_
  · simp [isLong, FormR.maj_toWord]
  · intro next
    rw [word_00 _ _ rfl]
    simp [decodeMaj00, checked, wordRow, src_eq, bool_eq, h]

theorem shr (d : Reg) (a : Src) (b : Src) : Statement (.shr d a b) := by
  refine one_word rfl rfl ?_ fun h => ?_
  · simp [isLong, FormR.maj_toWord]
  · intro next
    rw [word_00 _ _ rfl]
    simp [decodeMaj00, checked, wordRow, src_eq, bool_eq, h]

theorem sra (d : Reg) (a : Src) (b : Src) : Statement (.sra d a b) := by
  refine one_word rfl rfl ?_ fun h => ?_
  · simp [isLong, FormR.maj_toWord]
  · intro next
    rw [word_00 _ _ rfl]
    simp [decodeMaj00, checked, wordRow, src_eq, bool_eq, h]

theorem rot (d : Reg) (a : Src) (b : Src) : Statement (.rot d a b) := by
  refine one_word rfl rfl ?_ fun h => ?_
  · simp [isLong, FormR.maj_toWord]
  · intro next
    rw [word_00 _ _ rfl]
    simp [decodeMaj00, checked, wordRow, src_eq, bool_eq, h]

theorem min (d : Reg) (a : Src) (b : Src) : Statement (.min d a b) := by
  refine one_word rfl rfl ?_ fun h => ?_
  · simp [isLong, FormR.maj_toWord]
  · intro next
    rw [word_00 _ _ rfl]
    simp [decodeMaj00, checked, wordRow, src_eq, bool_eq, h]

theorem minu (d : Reg) (a : Src) (b : Src) : Statement (.minu d a b) := by
  refine one_word rfl rfl ?_ fun h => ?_
  · simp [isLong, FormR.maj_toWord]
  · intro next
    rw [word_00 _ _ rfl]
    simp [decodeMaj00, checked, wordRow, src_eq, bool_eq, h]

theorem max (d : Reg) (a : Src) (b : Src) : Statement (.max d a b) := by
  refine one_word rfl rfl ?_ fun h => ?_
  · simp [isLong, FormR.maj_toWord]
  · intro next
    rw [word_00 _ _ rfl]
    simp [decodeMaj00, checked, wordRow, src_eq, bool_eq, h]

theorem maxu (d : Reg) (a : Src) (b : Src) : Statement (.maxu d a b) := by
  refine one_word rfl rfl ?_ fun h => ?_
  · simp [isLong, FormR.maj_toWord]
  · intro next
    rw [word_00 _ _ rfl]
    simp [decodeMaj00, checked, wordRow, src_eq, bool_eq, h]

theorem mov (d : Reg) (a : Src) : Statement (.mov d a) := by
  refine one_word rfl rfl ?_ fun h => ?_
  · simp [isLong, FormR.maj_toWord]
  · intro next
    rw [word_00 _ _ rfl]
    simp [decodeMaj00, checked, wordRow, src_eq, bool_eq, h]

theorem clz (d : Reg) (a : Src) : Statement (.clz d a) := by
  refine one_word rfl rfl ?_ fun h => ?_
  · simp [isLong, FormR.maj_toWord]
  · intro next
    rw [word_00 _ _ rfl]
    simp [decodeMaj00, checked, wordRow, src_eq, bool_eq, h]

theorem popc (d : Reg) (a : Src) : Statement (.popc d a) := by
  refine one_word rfl rfl ?_ fun h => ?_
  · simp [isLong, FormR.maj_toWord]
  · intro next
    rw [word_00 _ _ rfl]
    simp [decodeMaj00, checked, wordRow, src_eq, bool_eq, h]

theorem addi (d : Reg) (a : Src) (i : BitVec 12) : Statement (.addi d a i) := by
  refine one_word rfl rfl ?_ fun h => ?_
  · simp [isLong, FormI.maj_toWord]
  · intro next
    rw [word_01 _ _ rfl]
    simp [decodeMaj01, checked, wordRow, src_eq, bool_eq, h]

theorem andi (d : Reg) (a : Src) (i : BitVec 12) : Statement (.andi d a i) := by
  refine one_word rfl rfl ?_ fun h => ?_
  · simp [isLong, FormI.maj_toWord]
  · intro next
    rw [word_02 _ _ rfl]
    simp [decodeMaj02, checked, wordRow, src_eq, bool_eq, h]

theorem ori (d : Reg) (a : Src) (i : BitVec 12) : Statement (.ori d a i) := by
  refine one_word rfl rfl ?_ fun h => ?_
  · simp [isLong, FormI.maj_toWord]
  · intro next
    rw [word_03 _ _ rfl]
    simp [decodeMaj03, checked, wordRow, src_eq, bool_eq, h]

theorem xori (d : Reg) (a : Src) (i : BitVec 12) : Statement (.xori d a i) := by
  refine one_word rfl rfl ?_ fun h => ?_
  · simp [isLong, FormI.maj_toWord]
  · intro next
    rw [word_04 _ _ rfl]
    simp [decodeMaj04, checked, wordRow, src_eq, bool_eq, h]

theorem shli (d : Reg) (a : Src) (n : BitVec 6) : Statement (.shli d a n) := by
  refine one_word rfl rfl ?_ fun h => ?_
  · simp [isLong, FormI.maj_toWord]
  · intro next
    rw [word_05 _ _ rfl]
    simp [decodeMaj05, checked, wordRow, src_eq, bool_eq, h, low_6_6, high_6_6, low_3_3, high_3_3, low_2_4, high_2_4, low_2_3, high_2_3, low_1_4, high_1_4, low_3_2, high_3_2, low_4_8, high_4_8, low_8_4, high_8_4, low_7_5, high_7_5, low_8_24, high_8_24, low_2_2, high_2_2, low_4_2, high_4_2]

theorem shri (d : Reg) (a : Src) (n : BitVec 6) : Statement (.shri d a n) := by
  refine one_word rfl rfl ?_ fun h => ?_
  · simp [isLong, FormI.maj_toWord]
  · intro next
    rw [word_06 _ _ rfl]
    simp [decodeMaj06, checked, wordRow, src_eq, bool_eq, h, low_6_6, high_6_6, low_3_3, high_3_3, low_2_4, high_2_4, low_2_3, high_2_3, low_1_4, high_1_4, low_3_2, high_3_2, low_4_8, high_4_8, low_8_4, high_8_4, low_7_5, high_7_5, low_8_24, high_8_24, low_2_2, high_2_2, low_4_2, high_4_2]

theorem srai (d : Reg) (a : Src) (n : BitVec 6) : Statement (.srai d a n) := by
  refine one_word rfl rfl ?_ fun h => ?_
  · simp [isLong, FormI.maj_toWord]
  · intro next
    rw [word_07 _ _ rfl]
    simp [decodeMaj07, checked, wordRow, src_eq, bool_eq, h, low_6_6, high_6_6, low_3_3, high_3_3, low_2_4, high_2_4, low_2_3, high_2_3, low_1_4, high_1_4, low_3_2, high_3_2, low_4_8, high_4_8, low_8_4, high_8_4, low_7_5, high_7_5, low_8_24, high_8_24, low_2_2, high_2_2, low_4_2, high_4_2]

theorem bfx (d : Reg) (a : Src) (p : BitVec 6) (l : BitVec 6) : Statement (.bfx d a p l) := by
  refine one_word rfl rfl ?_ fun h => ?_
  · simp [isLong, FormI.maj_toWord]
  · intro next
    rw [word_08 _ _ rfl]
    simp [decodeMaj08, checked, wordRow, src_eq, bool_eq, h, low_6_6, high_6_6, low_3_3, high_3_3, low_2_4, high_2_4, low_2_3, high_2_3, low_1_4, high_1_4, low_3_2, high_3_2, low_4_8, high_4_8, low_8_4, high_8_4, low_7_5, high_7_5, low_8_24, high_8_24, low_2_2, high_2_2, low_4_2, high_4_2]

theorem bfxu (d : Reg) (a : Src) (p : BitVec 6) (l : BitVec 6) : Statement (.bfxu d a p l) := by
  refine one_word rfl rfl ?_ fun h => ?_
  · simp [isLong, FormI.maj_toWord]
  · intro next
    rw [word_09 _ _ rfl]
    simp [decodeMaj09, checked, wordRow, src_eq, bool_eq, h, low_6_6, high_6_6, low_3_3, high_3_3, low_2_4, high_2_4, low_2_3, high_2_3, low_1_4, high_1_4, low_3_2, high_3_2, low_4_8, high_4_8, low_8_4, high_8_4, low_7_5, high_7_5, low_8_24, high_8_24, low_2_2, high_2_2, low_4_2, high_4_2]

theorem bfi (d : Reg) (a : Src) (p : BitVec 6) (l : BitVec 6) : Statement (.bfi d a p l) := by
  refine one_word rfl rfl ?_ fun h => ?_
  · simp [isLong, FormI.maj_toWord]
  · intro next
    rw [word_0A _ _ rfl]
    simp [decodeMaj0A, checked, wordRow, src_eq, bool_eq, h, low_6_6, high_6_6, low_3_3, high_3_3, low_2_4, high_2_4, low_2_3, high_2_3, low_1_4, high_1_4, low_3_2, high_3_2, low_4_8, high_4_8, low_8_4, high_8_4, low_7_5, high_7_5, low_8_24, high_8_24, low_2_2, high_2_2, low_4_2, high_4_2]

theorem sext (d : Reg) (a : Src) (i : BitVec 12) : Statement (.sext d a i) := by
  refine one_word rfl rfl ?_ fun h => ?_
  · simp [isLong, FormI.maj_toWord]
  · intro next
    rw [word_0B _ _ rfl]
    simp [decodeMaj0B, checked, wordRow, src_eq, bool_eq, h]

theorem movi (d : Reg) (i : BitVec 12) : Statement (.movi d i) := by
  refine one_word rfl rfl ?_ fun h => ?_
  · simp [isLong, FormI.maj_toWord]
  · intro next
    rw [word_0C _ _ rfl]
    simp [decodeMaj0C, checked, wordRow, src_eq, bool_eq, h]

theorem movl (d : Reg) (imm : BitVec 32) : Statement (.movl d imm) := by
  refine two_words rfl rfl ?_ fun h => ?_
  · simp [isLong, FormI.maj_toWord]
  · skip
    rw [word_0D _ _ rfl]
    simp [decodeMaj0D, checked, wordRow, src_eq, bool_eq, h]

theorem movhi (d : Reg) (a : Src) (imm : BitVec 32) : Statement (.movhi d a imm) := by
  refine two_words rfl rfl ?_ fun h => ?_
  · simp [isLong, FormI.maj_toWord]
  · skip
    rw [word_0D _ _ rfl]
    simp [decodeMaj0D, checked, wordRow, src_eq, bool_eq, h]

theorem cmpEq (d : BitVec 3) (a : Src) (b : Src) : Statement (.cmpEq d a b) := by
  refine one_word rfl rfl ?_ fun h => ?_
  · simp [isLong, FormR.maj_toWord]
  · intro next
    rw [word_10 _ _ rfl]
    simp [decodeMaj10, checked, wordRow, src_eq, bool_eq, h, low_6_6, high_6_6, low_3_3, high_3_3, low_2_4, high_2_4, low_2_3, high_2_3, low_1_4, high_1_4, low_3_2, high_3_2, low_4_8, high_4_8, low_8_4, high_8_4, low_7_5, high_7_5, low_8_24, high_8_24, low_2_2, high_2_2, low_4_2, high_4_2]

theorem cmpNe (d : BitVec 3) (a : Src) (b : Src) : Statement (.cmpNe d a b) := by
  refine one_word rfl rfl ?_ fun h => ?_
  · simp [isLong, FormR.maj_toWord]
  · intro next
    rw [word_10 _ _ rfl]
    simp [decodeMaj10, checked, wordRow, src_eq, bool_eq, h, low_6_6, high_6_6, low_3_3, high_3_3, low_2_4, high_2_4, low_2_3, high_2_3, low_1_4, high_1_4, low_3_2, high_3_2, low_4_8, high_4_8, low_8_4, high_8_4, low_7_5, high_7_5, low_8_24, high_8_24, low_2_2, high_2_2, low_4_2, high_4_2]

theorem cmpLt (d : BitVec 3) (a : Src) (b : Src) : Statement (.cmpLt d a b) := by
  refine one_word rfl rfl ?_ fun h => ?_
  · simp [isLong, FormR.maj_toWord]
  · intro next
    rw [word_10 _ _ rfl]
    simp [decodeMaj10, checked, wordRow, src_eq, bool_eq, h, low_6_6, high_6_6, low_3_3, high_3_3, low_2_4, high_2_4, low_2_3, high_2_3, low_1_4, high_1_4, low_3_2, high_3_2, low_4_8, high_4_8, low_8_4, high_8_4, low_7_5, high_7_5, low_8_24, high_8_24, low_2_2, high_2_2, low_4_2, high_4_2]

theorem cmpLtu (d : BitVec 3) (a : Src) (b : Src) : Statement (.cmpLtu d a b) := by
  refine one_word rfl rfl ?_ fun h => ?_
  · simp [isLong, FormR.maj_toWord]
  · intro next
    rw [word_10 _ _ rfl]
    simp [decodeMaj10, checked, wordRow, src_eq, bool_eq, h, low_6_6, high_6_6, low_3_3, high_3_3, low_2_4, high_2_4, low_2_3, high_2_3, low_1_4, high_1_4, low_3_2, high_3_2, low_4_8, high_4_8, low_8_4, high_8_4, low_7_5, high_7_5, low_8_24, high_8_24, low_2_2, high_2_2, low_4_2, high_4_2]

theorem cmpLe (d : BitVec 3) (a : Src) (b : Src) : Statement (.cmpLe d a b) := by
  refine one_word rfl rfl ?_ fun h => ?_
  · simp [isLong, FormR.maj_toWord]
  · intro next
    rw [word_10 _ _ rfl]
    simp [decodeMaj10, checked, wordRow, src_eq, bool_eq, h, low_6_6, high_6_6, low_3_3, high_3_3, low_2_4, high_2_4, low_2_3, high_2_3, low_1_4, high_1_4, low_3_2, high_3_2, low_4_8, high_4_8, low_8_4, high_8_4, low_7_5, high_7_5, low_8_24, high_8_24, low_2_2, high_2_2, low_4_2, high_4_2]

theorem cmpLeu (d : BitVec 3) (a : Src) (b : Src) : Statement (.cmpLeu d a b) := by
  refine one_word rfl rfl ?_ fun h => ?_
  · simp [isLong, FormR.maj_toWord]
  · intro next
    rw [word_10 _ _ rfl]
    simp [decodeMaj10, checked, wordRow, src_eq, bool_eq, h, low_6_6, high_6_6, low_3_3, high_3_3, low_2_4, high_2_4, low_2_3, high_2_3, low_1_4, high_1_4, low_3_2, high_3_2, low_4_8, high_4_8, low_8_4, high_8_4, low_7_5, high_7_5, low_8_24, high_8_24, low_2_2, high_2_2, low_4_2, high_4_2]

theorem pand (d : BitVec 3) (a : BitVec 3) (b : BitVec 3) : Statement (.pand d a b) := by
  refine one_word rfl rfl ?_ fun h => ?_
  · simp [isLong, FormR.maj_toWord]
  · intro next
    rw [word_11 _ _ rfl]
    simp [decodeMaj11, checked, wordRow, src_eq, bool_eq, h, low_6_6, high_6_6, low_3_3, high_3_3, low_2_4, high_2_4, low_2_3, high_2_3, low_1_4, high_1_4, low_3_2, high_3_2, low_4_8, high_4_8, low_8_4, high_8_4, low_7_5, high_7_5, low_8_24, high_8_24, low_2_2, high_2_2, low_4_2, high_4_2]

theorem por (d : BitVec 3) (a : BitVec 3) (b : BitVec 3) : Statement (.por d a b) := by
  refine one_word rfl rfl ?_ fun h => ?_
  · simp [isLong, FormR.maj_toWord]
  · intro next
    rw [word_11 _ _ rfl]
    simp [decodeMaj11, checked, wordRow, src_eq, bool_eq, h, low_6_6, high_6_6, low_3_3, high_3_3, low_2_4, high_2_4, low_2_3, high_2_3, low_1_4, high_1_4, low_3_2, high_3_2, low_4_8, high_4_8, low_8_4, high_8_4, low_7_5, high_7_5, low_8_24, high_8_24, low_2_2, high_2_2, low_4_2, high_4_2]

theorem pxor (d : BitVec 3) (a : BitVec 3) (b : BitVec 3) : Statement (.pxor d a b) := by
  refine one_word rfl rfl ?_ fun h => ?_
  · simp [isLong, FormR.maj_toWord]
  · intro next
    rw [word_11 _ _ rfl]
    simp [decodeMaj11, checked, wordRow, src_eq, bool_eq, h, low_6_6, high_6_6, low_3_3, high_3_3, low_2_4, high_2_4, low_2_3, high_2_3, low_1_4, high_1_4, low_3_2, high_3_2, low_4_8, high_4_8, low_8_4, high_8_4, low_7_5, high_7_5, low_8_24, high_8_24, low_2_2, high_2_2, low_4_2, high_4_2]

theorem pnot (d : BitVec 3) (a : BitVec 3) : Statement (.pnot d a) := by
  refine one_word rfl rfl ?_ fun h => ?_
  · simp [isLong, FormR.maj_toWord]
  · intro next
    rw [word_11 _ _ rfl]
    simp [decodeMaj11, checked, wordRow, src_eq, bool_eq, h, low_6_6, high_6_6, low_3_3, high_3_3, low_2_4, high_2_4, low_2_3, high_2_3, low_1_4, high_1_4, low_3_2, high_3_2, low_4_8, high_4_8, low_8_4, high_8_4, low_7_5, high_7_5, low_8_24, high_8_24, low_2_2, high_2_2, low_4_2, high_4_2]

theorem psel (d : Reg) (a : Src) (b : Src) (k : BitVec 3) : Statement (.psel d a b k) := by
  refine one_word rfl rfl ?_ fun h => ?_
  · simp [isLong, FormR.maj_toWord]
  · intro next
    rw [word_12 _ _ rfl]
    simp [decodeMaj12, checked, wordRow, src_eq, bool_eq, h, low_6_6, high_6_6, low_3_3, high_3_3, low_2_4, high_2_4, low_2_3, high_2_3, low_1_4, high_1_4, low_3_2, high_3_2, low_4_8, high_4_8, low_8_4, high_8_4, low_7_5, high_7_5, low_8_24, high_8_24, low_2_2, high_2_2, low_4_2, high_4_2]

theorem ldB (d : Reg) (a : Src) (h : BitVec 4) (o : BitVec 8) : Statement (.ldB d a h o) := by
  refine one_word rfl rfl ?_ fun h => ?_
  · simp [isLong, FormM.maj_toWord]
  · intro next
    rw [word_18 _ _ rfl]
    simp [decodeMaj18, checked, wordRow, src_eq, bool_eq, h]

theorem ldBu (d : Reg) (a : Src) (h : BitVec 4) (o : BitVec 8) : Statement (.ldBu d a h o) := by
  refine one_word rfl rfl ?_ fun h => ?_
  · simp [isLong, FormM.maj_toWord]
  · intro next
    rw [word_19 _ _ rfl]
    simp [decodeMaj19, checked, wordRow, src_eq, bool_eq, h]

theorem ldH (d : Reg) (a : Src) (h : BitVec 4) (o : BitVec 8) : Statement (.ldH d a h o) := by
  refine one_word rfl rfl ?_ fun h => ?_
  · simp [isLong, FormM.maj_toWord]
  · intro next
    rw [word_1A _ _ rfl]
    simp [decodeMaj1A, checked, wordRow, src_eq, bool_eq, h]

theorem ldHu (d : Reg) (a : Src) (h : BitVec 4) (o : BitVec 8) : Statement (.ldHu d a h o) := by
  refine one_word rfl rfl ?_ fun h => ?_
  · simp [isLong, FormM.maj_toWord]
  · intro next
    rw [word_1B _ _ rfl]
    simp [decodeMaj1B, checked, wordRow, src_eq, bool_eq, h]

theorem ldW (d : Reg) (a : Src) (h : BitVec 4) (o : BitVec 8) : Statement (.ldW d a h o) := by
  refine one_word rfl rfl ?_ fun h => ?_
  · simp [isLong, FormM.maj_toWord]
  · intro next
    rw [word_1C _ _ rfl]
    simp [decodeMaj1C, checked, wordRow, src_eq, bool_eq, h]

theorem ldWu (d : Reg) (a : Src) (h : BitVec 4) (o : BitVec 8) : Statement (.ldWu d a h o) := by
  refine one_word rfl rfl ?_ fun h => ?_
  · simp [isLong, FormM.maj_toWord]
  · intro next
    rw [word_1D _ _ rfl]
    simp [decodeMaj1D, checked, wordRow, src_eq, bool_eq, h]

theorem ldD (d : Reg) (a : Src) (h : BitVec 4) (o : BitVec 8) : Statement (.ldD d a h o) := by
  refine one_word rfl rfl ?_ fun h => ?_
  · simp [isLong, FormM.maj_toWord]
  · intro next
    rw [word_1E _ _ rfl]
    simp [decodeMaj1E, checked, wordRow, src_eq, bool_eq, h]

theorem stB (s : Reg) (a : Src) (h : BitVec 4) (o : BitVec 8) : Statement (.stB s a h o) := by
  refine one_word rfl rfl ?_ fun h => ?_
  · simp [isLong, FormM.maj_toWord]
  · intro next
    rw [word_20 _ _ rfl]
    simp [decodeMaj20, checked, wordRow, src_eq, bool_eq, h]

theorem stH (s : Reg) (a : Src) (h : BitVec 4) (o : BitVec 8) : Statement (.stH s a h o) := by
  refine one_word rfl rfl ?_ fun h => ?_
  · simp [isLong, FormM.maj_toWord]
  · intro next
    rw [word_21 _ _ rfl]
    simp [decodeMaj21, checked, wordRow, src_eq, bool_eq, h]

theorem stW (s : Reg) (a : Src) (h : BitVec 4) (o : BitVec 8) : Statement (.stW s a h o) := by
  refine one_word rfl rfl ?_ fun h => ?_
  · simp [isLong, FormM.maj_toWord]
  · intro next
    rw [word_22 _ _ rfl]
    simp [decodeMaj22, checked, wordRow, src_eq, bool_eq, h]

theorem stD (s : Reg) (a : Src) (h : BitVec 4) (o : BitVec 8) : Statement (.stD s a h o) := by
  refine one_word rfl rfl ?_ fun h => ?_
  · simp [isLong, FormM.maj_toWord]
  · intro next
    rw [word_23 _ _ rfl]
    simp [decodeMaj23, checked, wordRow, src_eq, bool_eq, h]

theorem pfetch (a : Src) (h : BitVec 4) (o : BitVec 8) : Statement (.pfetch a h o) := by
  refine one_word rfl rfl ?_ fun h => ?_
  · simp [isLong, FormM.maj_toWord]
  · intro next
    rw [word_24 _ _ rfl]
    simp [decodeMaj24, checked, wordRow, src_eq, bool_eq, h]

theorem amoAdd (d : Reg) (a : Src) (h : BitVec 4) (p : BitVec 3) : Statement (.amoAdd d a h p) := by
  refine one_word rfl rfl ?_ fun h => ?_
  · simp [isLong, FormQ.maj_toWord]
  · intro next
    rw [word_28 _ _ rfl]
    simp [decodeMaj28, checked, wordRow, src_eq, bool_eq, h]

theorem amoAnd (d : Reg) (a : Src) (h : BitVec 4) (p : BitVec 3) : Statement (.amoAnd d a h p) := by
  refine one_word rfl rfl ?_ fun h => ?_
  · simp [isLong, FormQ.maj_toWord]
  · intro next
    rw [word_28 _ _ rfl]
    simp [decodeMaj28, checked, wordRow, src_eq, bool_eq, h]

theorem amoOr (d : Reg) (a : Src) (h : BitVec 4) (p : BitVec 3) : Statement (.amoOr d a h p) := by
  refine one_word rfl rfl ?_ fun h => ?_
  · simp [isLong, FormQ.maj_toWord]
  · intro next
    rw [word_28 _ _ rfl]
    simp [decodeMaj28, checked, wordRow, src_eq, bool_eq, h]

theorem amoXor (d : Reg) (a : Src) (h : BitVec 4) (p : BitVec 3) : Statement (.amoXor d a h p) := by
  refine one_word rfl rfl ?_ fun h => ?_
  · simp [isLong, FormQ.maj_toWord]
  · intro next
    rw [word_28 _ _ rfl]
    simp [decodeMaj28, checked, wordRow, src_eq, bool_eq, h]

theorem amoMin (d : Reg) (a : Src) (h : BitVec 4) (p : BitVec 3) : Statement (.amoMin d a h p) := by
  refine one_word rfl rfl ?_ fun h => ?_
  · simp [isLong, FormQ.maj_toWord]
  · intro next
    rw [word_28 _ _ rfl]
    simp [decodeMaj28, checked, wordRow, src_eq, bool_eq, h]

theorem amoMinu (d : Reg) (a : Src) (h : BitVec 4) (p : BitVec 3) : Statement (.amoMinu d a h p) := by
  refine one_word rfl rfl ?_ fun h => ?_
  · simp [isLong, FormQ.maj_toWord]
  · intro next
    rw [word_28 _ _ rfl]
    simp [decodeMaj28, checked, wordRow, src_eq, bool_eq, h]

theorem amoMax (d : Reg) (a : Src) (h : BitVec 4) (p : BitVec 3) : Statement (.amoMax d a h p) := by
  refine one_word rfl rfl ?_ fun h => ?_
  · simp [isLong, FormQ.maj_toWord]
  · intro next
    rw [word_28 _ _ rfl]
    simp [decodeMaj28, checked, wordRow, src_eq, bool_eq, h]

theorem amoMaxu (d : Reg) (a : Src) (h : BitVec 4) (p : BitVec 3) : Statement (.amoMaxu d a h p) := by
  refine one_word rfl rfl ?_ fun h => ?_
  · simp [isLong, FormQ.maj_toWord]
  · intro next
    rw [word_28 _ _ rfl]
    simp [decodeMaj28, checked, wordRow, src_eq, bool_eq, h]

theorem amoSwap (d : Reg) (a : Src) (h : BitVec 4) (p : BitVec 3) : Statement (.amoSwap d a h p) := by
  refine one_word rfl rfl ?_ fun h => ?_
  · simp [isLong, FormQ.maj_toWord]
  · intro next
    rw [word_28 _ _ rfl]
    simp [decodeMaj28, checked, wordRow, src_eq, bool_eq, h]

theorem amoCas (d : Reg) (a : Src) (h : BitVec 4) (p : BitVec 3) : Statement (.amoCas d a h p) := by
  refine one_word rfl rfl ?_ fun h => ?_
  · simp [isLong, FormQ.maj_toWord]
  · intro next
    rw [word_28 _ _ rfl]
    simp [decodeMaj28, checked, wordRow, src_eq, bool_eq, h]

theorem fence (s : BitVec 3) (g : BitVec 4) : Statement (.fence s g) := by
  refine one_word rfl rfl ?_ fun h => ?_
  · simp [isLong, FormA.maj_toWord]
  · intro next
    rw [word_2F _ _ rfl]
    simp [decodeMaj2F, checked, wordRow, src_eq, bool_eq, h]

theorem hsub (d : BitVec 4) (a : Src) (b : Src) (s : BitVec 4) : Statement (.hsub d a b s) := by
  refine one_word rfl rfl ?_ fun h => ?_
  · simp [isLong, FormR.maj_toWord]
  · intro next
    rw [word_30 _ _ rfl]
    simp [decodeMaj30, checked, wordRow, src_eq, bool_eq, h, low_6_6, high_6_6, low_3_3, high_3_3, low_2_4, high_2_4, low_2_3, high_2_3, low_1_4, high_1_4, low_3_2, high_3_2, low_4_8, high_4_8, low_8_4, high_8_4, low_7_5, high_7_5, low_8_24, high_8_24, low_2_2, high_2_2, low_4_2, high_4_2]

theorem hrights (d : BitVec 4) (s : BitVec 4) (m : BitVec 5) : Statement (.hrights d s m) := by
  refine one_word rfl rfl ?_ fun h => ?_
  · simp [isLong, FormI.maj_toWord]
  · intro next
    rw [word_31 _ _ rfl]
    simp [decodeMaj31, checked, wordRow, src_eq, bool_eq, h, low_6_6, high_6_6, low_3_3, high_3_3, low_2_4, high_2_4, low_2_3, high_2_3, low_1_4, high_1_4, low_3_2, high_3_2, low_4_8, high_4_8, low_8_4, high_8_4, low_7_5, high_7_5, low_8_24, high_8_24, low_2_2, high_2_2, low_4_2, high_4_2]

theorem hbase (d : Reg) (s : BitVec 4) : Statement (.hbase d s) := by
  refine one_word rfl rfl ?_ fun h => ?_
  · simp [isLong, FormR.maj_toWord]
  · intro next
    rw [word_32 _ _ rfl]
    simp [decodeMaj32, checked, wordRow, src_eq, bool_eq, h, low_6_6, high_6_6, low_3_3, high_3_3, low_2_4, high_2_4, low_2_3, high_2_3, low_1_4, high_1_4, low_3_2, high_3_2, low_4_8, high_4_8, low_8_4, high_8_4, low_7_5, high_7_5, low_8_24, high_8_24, low_2_2, high_2_2, low_4_2, high_4_2]

theorem hlen (d : Reg) (s : BitVec 4) : Statement (.hlen d s) := by
  refine one_word rfl rfl ?_ fun h => ?_
  · simp [isLong, FormR.maj_toWord]
  · intro next
    rw [word_33 _ _ rfl]
    simp [decodeMaj33, checked, wordRow, src_eq, bool_eq, h, low_6_6, high_6_6, low_3_3, high_3_3, low_2_4, high_2_4, low_2_3, high_2_3, low_1_4, high_1_4, low_3_2, high_3_2, low_4_8, high_4_8, low_8_4, high_8_4, low_7_5, high_7_5, low_8_24, high_8_24, low_2_2, high_2_2, low_4_2, high_4_2]

theorem hmov (d : BitVec 4) (s : BitVec 4) : Statement (.hmov d s) := by
  refine one_word rfl rfl ?_ fun h => ?_
  · simp [isLong, FormR.maj_toWord]
  · intro next
    rw [word_34 _ _ rfl]
    simp [decodeMaj34, checked, wordRow, src_eq, bool_eq, h, low_6_6, high_6_6, low_3_3, high_3_3, low_2_4, high_2_4, low_2_3, high_2_3, low_1_4, high_1_4, low_3_2, high_3_2, low_4_8, high_4_8, low_8_4, high_8_4, low_7_5, high_7_5, low_8_24, high_8_24, low_2_2, high_2_2, low_4_2, high_4_2]

theorem hcheck (d : Reg) (a : Src) (h : BitVec 4) (p : BitVec 3) (m : BitVec 5) : Statement (.hcheck d a h p m) := by
  refine one_word rfl rfl ?_ fun h => ?_
  · simp [isLong, FormQ.maj_toWord]
  · intro next
    rw [word_35 _ _ rfl]
    simp [decodeMaj35, checked, wordRow, src_eq, bool_eq, h]

theorem fmtWin (s : Reg) (a : Src) (h : BitVec 4) (o : BitVec 8) : Statement (.fmtWin s a h o) := by
  refine one_word rfl rfl ?_ fun h => ?_
  · simp [isLong, FormM.maj_toWord]
  · intro next
    rw [word_36 _ _ rfl]
    simp [decodeMaj36, checked, wordRow, src_eq, bool_eq, h]

theorem br (p : BitVec 3) (n : Bool) (o : BitVec 21) : Statement (.br p n o) := by
  refine one_word rfl rfl ?_ fun h => ?_
  · simp [isLong, FormB.maj_toWord]
  · intro next
    rw [word_38 _ _ rfl]
    simp [decodeMaj38, checked, wordRow, src_eq, bool_eq, h]

theorem jmp (o : BitVec 21) : Statement (.jmp o) := by
  refine one_word rfl rfl ?_ fun h => ?_
  · simp [isLong, FormB.maj_toWord]
  · intro next
    rw [word_39 _ _ rfl]
    simp [decodeMaj39, checked, wordRow, src_eq, bool_eq, h]

theorem call (o : BitVec 21) : Statement (.call o) := by
  refine one_word rfl rfl ?_ fun h => ?_
  · simp [isLong, FormB.maj_toWord]
  · intro next
    rw [word_3A _ _ rfl]
    simp [decodeMaj3A, checked, wordRow, src_eq, bool_eq, h]

theorem jr (a : Src) : Statement (.jr a) := by
  refine one_word rfl rfl ?_ fun h => ?_
  · simp [isLong, FormR.maj_toWord]
  · intro next
    rw [word_3B _ _ rfl]
    simp [decodeMaj3B, checked, wordRow, src_eq, bool_eq, h]

theorem callr (a : Src) : Statement (.callr a) := by
  refine one_word rfl rfl ?_ fun h => ?_
  · simp [isLong, FormR.maj_toWord]
  · intro next
    rw [word_3B _ _ rfl]
    simp [decodeMaj3B, checked, wordRow, src_eq, bool_eq, h]

theorem ret : Statement (.ret) := by
  refine one_word rfl rfl ?_ fun h => ?_
  · simp [isLong, FormR.maj_toWord]
  · intro next
    rw [word_3B _ _ rfl]
    simp [decodeMaj3B, checked, wordRow, src_eq, bool_eq, h]

theorem enter (n : BitVec 12) : Statement (.enter n) := by
  refine one_word rfl rfl ?_ fun h => ?_
  · simp [isLong, FormI.maj_toWord]
  · intro next
    rw [word_3C _ _ rfl]
    simp [decodeMaj3C, checked, wordRow, src_eq, bool_eq, h]

theorem loop (count : BitVec 24) (e : BitVec 8) : Statement (.loop count e) := by
  refine two_words rfl rfl ?_ fun h => ?_
  · simp [isLong, FormI.maj_toWord]
  · skip
    rw [word_3D _ _ rfl]
    simp [decodeMaj3D, checked, wordRow, src_eq, bool_eq, h, low_6_6, high_6_6, low_3_3, high_3_3, low_2_4, high_2_4, low_2_3, high_2_3, low_1_4, high_1_4, low_3_2, high_3_2, low_4_8, high_4_8, low_8_4, high_8_4, low_7_5, high_7_5, low_8_24, high_8_24, low_2_2, high_2_2, low_4_2, high_4_2]

theorem loopr (a : Src) (e : BitVec 8) : Statement (.loopr a e) := by
  refine one_word rfl rfl ?_ fun h => ?_
  · simp [isLong, FormI.maj_toWord]
  · intro next
    rw [word_3E _ _ rfl]
    simp [decodeMaj3E, checked, wordRow, src_eq, bool_eq, h, low_6_6, high_6_6, low_3_3, high_3_3, low_2_4, high_2_4, low_2_3, high_2_3, low_1_4, high_1_4, low_3_2, high_3_2, low_4_8, high_4_8, low_8_4, high_8_4, low_7_5, high_7_5, low_8_24, high_8_24, low_2_2, high_2_2, low_4_2, high_4_2]

theorem cpIssue (d : Reg) (a : Src) (h : BitVec 4) (p : BitVec 3) (s : BitVec 2) (q : BitVec 3) : Statement (.cpIssue d a h p s q) := by
  refine one_word rfl rfl ?_ fun h => ?_
  · simp [isLong, FormQ.maj_toWord]
  · intro next
    rw [word_40 _ _ rfl]
    simp [decodeMaj40, checked, wordRow, src_eq, bool_eq, h, low_6_6, high_6_6, low_3_3, high_3_3, low_2_4, high_2_4, low_2_3, high_2_3, low_1_4, high_1_4, low_3_2, high_3_2, low_4_8, high_4_8, low_8_4, high_8_4, low_7_5, high_7_5, low_8_24, high_8_24, low_2_2, high_2_2, low_4_2, high_4_2]

theorem cpSched (a : Src) (h : BitVec 4) (p : BitVec 3) (s : BitVec 2) (q : BitVec 3) : Statement (.cpSched a h p s q) := by
  refine one_word rfl rfl ?_ fun h => ?_
  · simp [isLong, FormQ.maj_toWord]
  · intro next
    rw [word_41 _ _ rfl]
    simp [decodeMaj41, checked, wordRow, src_eq, bool_eq, h, low_6_6, high_6_6, low_3_3, high_3_3, low_2_4, high_2_4, low_2_3, high_2_3, low_1_4, high_1_4, low_3_2, high_3_2, low_4_8, high_4_8, low_8_4, high_8_4, low_7_5, high_7_5, low_8_24, high_8_24, low_2_2, high_2_2, low_4_2, high_4_2]

theorem cpAdv (d : Reg) (a : Src) (p : BitVec 3) (s : BitVec 2) (q : BitVec 3) : Statement (.cpAdv d a p s q) := by
  refine one_word rfl rfl ?_ fun h => ?_
  · simp [isLong, FormQ.maj_toWord]
  · intro next
    rw [word_42 _ _ rfl]
    simp [decodeMaj42, checked, wordRow, src_eq, bool_eq, h, low_6_6, high_6_6, low_3_3, high_3_3, low_2_4, high_2_4, low_2_3, high_2_3, low_1_4, high_1_4, low_3_2, high_3_2, low_4_8, high_4_8, low_8_4, high_8_4, low_7_5, high_7_5, low_8_24, high_8_24, low_2_2, high_2_2, low_4_2, high_4_2]

theorem cpStatus (d : Reg) (p : BitVec 3) (s : BitVec 2) (q : BitVec 3) : Statement (.cpStatus d p s q) := by
  refine one_word rfl rfl ?_ fun h => ?_
  · simp [isLong, FormQ.maj_toWord]
  · intro next
    rw [word_43 _ _ rfl]
    simp [decodeMaj43, checked, wordRow, src_eq, bool_eq, h, low_6_6, high_6_6, low_3_3, high_3_3, low_2_4, high_2_4, low_2_3, high_2_3, low_1_4, high_1_4, low_3_2, high_3_2, low_4_8, high_4_8, low_8_4, high_8_4, low_7_5, high_7_5, low_8_24, high_8_24, low_2_2, high_2_2, low_4_2, high_4_2]

theorem ringInit (d : Reg) (a : Src) (h : BitVec 4) (p : BitVec 3) : Statement (.ringInit d a h p) := by
  refine one_word rfl rfl ?_ fun h => ?_
  · simp [isLong, FormQ.maj_toWord]
  · intro next
    rw [word_44 _ _ rfl]
    simp [decodeMaj44, checked, wordRow, src_eq, bool_eq, h]

theorem ringWait (d : Reg) (a : Src) (h : BitVec 4) (p : BitVec 3) : Statement (.ringWait d a h p) := by
  refine one_word rfl rfl ?_ fun h => ?_
  · simp [isLong, FormQ.maj_toWord]
  · intro next
    rw [word_45 _ _ rfl]
    simp [decodeMaj45, checked, wordRow, src_eq, bool_eq, h]

theorem ringRel (a : Src) (h : BitVec 4) (p : BitVec 3) : Statement (.ringRel a h p) := by
  refine one_word rfl rfl ?_ fun h => ?_
  · simp [isLong, FormQ.maj_toWord]
  · intro next
    rw [word_46 _ _ rfl]
    simp [decodeMaj46, checked, wordRow, src_eq, bool_eq, h]

theorem ringWptr (d : Reg) (a : Src) (h : BitVec 4) (p : BitVec 3) : Statement (.ringWptr d a h p) := by
  refine one_word rfl rfl ?_ fun h => ?_
  · simp [isLong, FormQ.maj_toWord]
  · intro next
    rw [word_47 _ _ rfl]
    simp [decodeMaj47, checked, wordRow, src_eq, bool_eq, h]

theorem qfence (s : BitVec 2) (m : BitVec 8) : Statement (.qfence s m) := by
  refine one_word rfl rfl ?_ fun h => ?_
  · simp [isLong, FormI.maj_toWord]
  · intro next
    rw [word_48 _ _ rfl]
    simp [decodeMaj48, checked, wordRow, src_eq, bool_eq, h, low_6_6, high_6_6, low_3_3, high_3_3, low_2_4, high_2_4, low_2_3, high_2_3, low_1_4, high_1_4, low_3_2, high_3_2, low_4_8, high_4_8, low_8_4, high_8_4, low_7_5, high_7_5, low_8_24, high_8_24, low_2_2, high_2_2, low_4_2, high_4_2, qfence_high, qfence_mid, qfence_low]

theorem smap (d : Reg) (a : Src) (p : BitVec 3) : Statement (.smap d a p) := by
  refine one_word rfl rfl ?_ fun h => ?_
  · simp [isLong, FormQ.maj_toWord]
  · intro next
    rw [word_50 _ _ rfl]
    simp [decodeMaj50, checked, wordRow, src_eq, bool_eq, h]

theorem sunmap (d : Reg) (p : BitVec 3) : Statement (.sunmap d p) := by
  refine one_word rfl rfl ?_ fun h => ?_
  · simp [isLong, FormQ.maj_toWord]
  · intro next
    rw [word_51 _ _ rfl]
    simp [decodeMaj51, checked, wordRow, src_eq, bool_eq, h]

theorem sprot (d : Reg) (p : BitVec 3) (m : BitVec 2) : Statement (.sprot d p m) := by
  refine one_word rfl rfl ?_ fun h => ?_
  · simp [isLong, FormQ.maj_toWord]
  · intro next
    rw [word_52 _ _ rfl]
    simp [decodeMaj52, checked, wordRow, src_eq, bool_eq, h, low_6_6, high_6_6, low_3_3, high_3_3, low_2_4, high_2_4, low_2_3, high_2_3, low_1_4, high_1_4, low_3_2, high_3_2, low_4_8, high_4_8, low_8_4, high_8_4, low_7_5, high_7_5, low_8_24, high_8_24, low_2_2, high_2_2, low_4_2, high_4_2]

theorem sevict (d : Reg) (p : BitVec 3) : Statement (.sevict d p) := by
  refine one_word rfl rfl ?_ fun h => ?_
  · simp [isLong, FormQ.maj_toWord]
  · intro next
    rw [word_53 _ _ rfl]
    simp [decodeMaj53, checked, wordRow, src_eq, bool_eq, h]

theorem smig (d : Reg) (a : Src) (p : BitVec 3) : Statement (.smig d a p) := by
  refine one_word rfl rfl ?_ fun h => ?_
  · simp [isLong, FormQ.maj_toWord]
  · intro next
    rw [word_54 _ _ rfl]
    simp [decodeMaj54, checked, wordRow, src_eq, bool_eq, h]

theorem squery (d : Reg) (a : Src) : Statement (.squery d a) := by
  refine one_word rfl rfl ?_ fun h => ?_
  · simp [isLong, FormR.maj_toWord]
  · intro next
    rw [word_55 _ _ rfl]
    simp [decodeMaj55, checked, wordRow, src_eq, bool_eq, h]

theorem sfix (a : Src) : Statement (.sfix a) := by
  refine one_word rfl rfl ?_ fun h => ?_
  · simp [isLong, FormR.maj_toWord]
  · intro next
    rw [word_56 _ _ rfl]
    simp [decodeMaj56, checked, wordRow, src_eq, bool_eq, h]

theorem calloc (d : Reg) (a : Src) (p : BitVec 3) (t : BitVec 4) : Statement (.calloc d a p t) := by
  refine one_word rfl rfl ?_ fun h => ?_
  · simp [isLong, FormQ.maj_toWord]
  · intro next
    rw [word_58 _ _ rfl]
    simp [decodeMaj58, checked, wordRow, src_eq, bool_eq, h, low_6_6, high_6_6, low_3_3, high_3_3, low_2_4, high_2_4, low_2_3, high_2_3, low_1_4, high_1_4, low_3_2, high_3_2, low_4_8, high_4_8, low_8_4, high_8_4, low_7_5, high_7_5, low_8_24, high_8_24, low_2_2, high_2_2, low_4_2, high_4_2]

theorem cseal (a : Src) (s : BitVec 3) (g : BitVec 4) : Statement (.cseal a s g) := by
  refine one_word rfl rfl ?_ fun h => ?_
  · simp [isLong, FormA.maj_toWord]
  · intro next
    rw [word_59 _ _ rfl]
    simp [decodeMaj59, checked, wordRow, src_eq, bool_eq, h]

theorem cldR (d : Reg) (a : Src) (b : Src) (z : BitVec 2) : Statement (.cldR d a b z) := by
  refine one_word rfl rfl ?_ fun h => ?_
  · simp [isLong, FormR.maj_toWord]
  · intro next
    rw [word_5A _ _ rfl]
    simp [decodeMaj5A, checked, wordRow, src_eq, bool_eq, h, low_6_6, high_6_6, low_3_3, high_3_3, low_2_4, high_2_4, low_2_3, high_2_3, low_1_4, high_1_4, low_3_2, high_3_2, low_4_8, high_4_8, low_8_4, high_8_4, low_7_5, high_7_5, low_8_24, high_8_24, low_2_2, high_2_2, low_4_2, high_4_2]

theorem cfin : Statement (.cfin) := by
  refine one_word rfl rfl ?_ fun h => ?_
  · simp [isLong, FormR.maj_toWord]
  · intro next
    rw [word_5B _ _ rfl]
    simp [decodeMaj5B, checked, wordRow, src_eq, bool_eq, h]

theorem cdrop (a : Src) (n : BitVec 12) : Statement (.cdrop a n) := by
  refine one_word rfl rfl ?_ fun h => ?_
  · simp [isLong, FormI.maj_toWord]
  · intro next
    rw [word_5C _ _ rfl]
    simp [decodeMaj5C, checked, wordRow, src_eq, bool_eq, h]

theorem cinfo (d : Reg) (a : Src) : Statement (.cinfo d a) := by
  refine one_word rfl rfl ?_ fun h => ?_
  · simp [isLong, FormR.maj_toWord]
  · intro next
    rw [word_5D _ _ rfl]
    simp [decodeMaj5D, checked, wordRow, src_eq, bool_eq, h]

theorem cpart (a : Src) (t : BitVec 4) : Statement (.cpart a t) := by
  refine one_word rfl rfl ?_ fun h => ?_
  · simp [isLong, FormI.maj_toWord]
  · intro next
    rw [word_5E _ _ rfl]
    simp [decodeMaj5E, checked, wordRow, src_eq, bool_eq, h, low_6_6, high_6_6, low_3_3, high_3_3, low_2_4, high_2_4, low_2_3, high_2_3, low_1_4, high_1_4, low_3_2, high_3_2, low_4_8, high_4_8, low_8_4, high_8_4, low_7_5, high_7_5, low_8_24, high_8_24, low_2_2, high_2_2, low_4_2, high_4_2]

theorem mxBind (a : Src) (h : BitVec 4) (p : BitVec 3) (i : BitVec 3) : Statement (.mxBind a h p i) := by
  refine one_word rfl rfl ?_ fun h => ?_
  · simp [isLong, FormQ.maj_toWord]
  · intro next
    rw [word_60 _ _ rfl]
    simp [decodeMaj60, checked, wordRow, src_eq, bool_eq, h, low_6_6, high_6_6, low_3_3, high_3_3, low_2_4, high_2_4, low_2_3, high_2_3, low_1_4, high_1_4, low_3_2, high_3_2, low_4_8, high_4_8, low_8_4, high_8_4, low_7_5, high_7_5, low_8_24, high_8_24, low_2_2, high_2_2, low_4_2, high_4_2]

theorem mxScale (a : Src) (h : BitVec 4) (p : BitVec 3) (i : BitVec 3) : Statement (.mxScale a h p i) := by
  refine one_word rfl rfl ?_ fun h => ?_
  · simp [isLong, FormQ.maj_toWord]
  · intro next
    rw [word_61 _ _ rfl]
    simp [decodeMaj61, checked, wordRow, src_eq, bool_eq, h, low_6_6, high_6_6, low_3_3, high_3_3, low_2_4, high_2_4, low_2_3, high_2_3, low_1_4, high_1_4, low_3_2, high_3_2, low_4_8, high_4_8, low_8_4, high_8_4, low_7_5, high_7_5, low_8_24, high_8_24, low_2_2, high_2_2, low_4_2, high_4_2]

theorem mxMode (a : Src) (p : BitVec 3) (i : BitVec 3) : Statement (.mxMode a p i) := by
  refine one_word rfl rfl ?_ fun h => ?_
  · simp [isLong, FormQ.maj_toWord]
  · intro next
    rw [word_62 _ _ rfl]
    simp [decodeMaj62, checked, wordRow, src_eq, bool_eq, h, low_6_6, high_6_6, low_3_3, high_3_3, low_2_4, high_2_4, low_2_3, high_2_3, low_1_4, high_1_4, low_3_2, high_3_2, low_4_8, high_4_8, low_8_4, high_8_4, low_7_5, high_7_5, low_8_24, high_8_24, low_2_2, high_2_2, low_4_2, high_4_2]

theorem mxFire (d : Reg) (a : Src) (p : BitVec 3) (i : BitVec 3) : Statement (.mxFire d a p i) := by
  refine one_word rfl rfl ?_ fun h => ?_
  · simp [isLong, FormQ.maj_toWord]
  · intro next
    rw [word_63 _ _ rfl]
    simp [decodeMaj63, checked, wordRow, src_eq, bool_eq, h, low_6_6, high_6_6, low_3_3, high_3_3, low_2_4, high_2_4, low_2_3, high_2_3, low_1_4, high_1_4, low_3_2, high_3_2, low_4_8, high_4_8, low_8_4, high_8_4, low_7_5, high_7_5, low_8_24, high_8_24, low_2_2, high_2_2, low_4_2, high_4_2]

theorem mxAcc (d : Reg) (a : Src) (p : BitVec 3) (i : BitVec 3) : Statement (.mxAcc d a p i) := by
  refine one_word rfl rfl ?_ fun h => ?_
  · simp [isLong, FormQ.maj_toWord]
  · intro next
    rw [word_64 _ _ rfl]
    simp [decodeMaj64, checked, wordRow, src_eq, bool_eq, h, low_6_6, high_6_6, low_3_3, high_3_3, low_2_4, high_2_4, low_2_3, high_2_3, low_1_4, high_1_4, low_3_2, high_3_2, low_4_8, high_4_8, low_8_4, high_8_4, low_7_5, high_7_5, low_8_24, high_8_24, low_2_2, high_2_2, low_4_2, high_4_2]

theorem mxRlbl (i : BitVec 3) (o : BitVec 21) : Statement (.mxRlbl i o) := by
  refine one_word rfl rfl ?_ fun h => ?_
  · simp [isLong, FormB.maj_toWord]
  · intro next
    rw [word_65 _ _ rfl]
    simp [decodeMaj65, checked, wordRow, src_eq, bool_eq, h]

theorem mxDrain (p : BitVec 3) (i : BitVec 3) : Statement (.mxDrain p i) := by
  refine one_word rfl rfl ?_ fun h => ?_
  · simp [isLong, FormQ.maj_toWord]
  · intro next
    rw [word_66 _ _ rfl]
    simp [decodeMaj66, checked, wordRow, src_eq, bool_eq, h, low_6_6, high_6_6, low_3_3, high_3_3, low_2_4, high_2_4, low_2_3, high_2_3, low_1_4, high_1_4, low_3_2, high_3_2, low_4_8, high_4_8, low_8_4, high_8_4, low_7_5, high_7_5, low_8_24, high_8_24, low_2_2, high_2_2, low_4_2, high_4_2]

theorem mxUnpin (p : BitVec 3) (i : BitVec 3) : Statement (.mxUnpin p i) := by
  refine one_word rfl rfl ?_ fun h => ?_
  · simp [isLong, FormQ.maj_toWord]
  · intro next
    rw [word_67 _ _ rfl]
    simp [decodeMaj67, checked, wordRow, src_eq, bool_eq, h, low_6_6, high_6_6, low_3_3, high_3_3, low_2_4, high_2_4, low_2_3, high_2_3, low_1_4, high_1_4, low_3_2, high_3_2, low_4_8, high_4_8, low_8_4, high_8_4, low_7_5, high_7_5, low_8_24, high_8_24, low_2_2, high_2_2, low_4_2, high_4_2]

theorem castLoad (d : Reg) (a : Src) (h : BitVec 4) (p : BitVec 3) : Statement (.castLoad d a h p) := by
  refine one_word rfl rfl ?_ fun h => ?_
  · simp [isLong, FormQ.maj_toWord]
  · intro next
    rw [word_68 _ _ rfl]
    simp [decodeMaj68, checked, wordRow, src_eq, bool_eq, h]

theorem castBind (d : Reg) (h : BitVec 4) (p : BitVec 3) (n : BitVec 5) : Statement (.castBind d h p n) := by
  refine one_word rfl rfl ?_ fun h => ?_
  · simp [isLong, FormQ.maj_toWord]
  · intro next
    rw [word_69 _ _ rfl]
    simp [decodeMaj69, checked, wordRow, src_eq, bool_eq, h]

theorem castKill (d : Reg) (p : BitVec 3) : Statement (.castKill d p) := by
  refine one_word rfl rfl ?_ fun h => ?_
  · simp [isLong, FormQ.maj_toWord]
  · intro next
    rw [word_6A _ _ rfl]
    simp [decodeMaj6A, checked, wordRow, src_eq, bool_eq, h]

theorem castEnd (d : Reg) (p : BitVec 3) : Statement (.castEnd d p) := by
  refine one_word rfl rfl ?_ fun h => ?_
  · simp [isLong, FormQ.maj_toWord]
  · intro next
    rw [word_6B _ _ rfl]
    simp [decodeMaj6B, checked, wordRow, src_eq, bool_eq, h]

theorem bpush (d : Reg) (a : Src) (port : BitVec 6) (p : BitVec 3) : Statement (.bpush d a port p) := by
  refine one_word rfl rfl ?_ fun h => ?_
  · simp [isLong, FormQ.maj_toWord]
  · intro next
    rw [word_6C _ _ rfl]
    simp [decodeMaj6C, checked, wordRow, src_eq, bool_eq, h, port_join, port_high, low_6_6, high_6_6, low_3_3, high_3_3, low_2_4, high_2_4, low_2_3, high_2_3, low_1_4, high_1_4, low_3_2, high_3_2, low_4_8, high_4_8, low_8_4, high_8_4, low_7_5, high_7_5, low_8_24, high_8_24, low_2_2, high_2_2, low_4_2, high_4_2]

theorem bpull (d : Reg) (a : Src) (port : BitVec 6) (p : BitVec 3) : Statement (.bpull d a port p) := by
  refine one_word rfl rfl ?_ fun h => ?_
  · simp [isLong, FormQ.maj_toWord]
  · intro next
    rw [word_6D _ _ rfl]
    simp [decodeMaj6D, checked, wordRow, src_eq, bool_eq, h, port_join, port_high, low_6_6, high_6_6, low_3_3, high_3_3, low_2_4, high_2_4, low_2_3, high_2_3, low_1_4, high_1_4, low_3_2, high_3_2, low_4_8, high_4_8, low_8_4, high_8_4, low_7_5, high_7_5, low_8_24, high_8_24, low_2_2, high_2_2, low_4_2, high_4_2]

theorem bmark (d : Reg) (port : BitVec 6) (p : BitVec 3) : Statement (.bmark d port p) := by
  refine one_word rfl rfl ?_ fun h => ?_
  · simp [isLong, FormQ.maj_toWord]
  · intro next
    rw [word_6E _ _ rfl]
    simp [decodeMaj6E, checked, wordRow, src_eq, bool_eq, h, port_join, port_high, low_6_6, high_6_6, low_3_3, high_3_3, low_2_4, high_2_4, low_2_3, high_2_3, low_1_4, high_1_4, low_3_2, high_3_2, low_4_8, high_4_8, low_8_4, high_8_4, low_7_5, high_7_5, low_8_24, high_8_24, low_2_2, high_2_2, low_4_2, high_4_2]

theorem kvFind (d : Reg) (a : Src) (h : BitVec 4) (p : BitVec 3) : Statement (.kvFind d a h p) := by
  refine one_word rfl rfl ?_ fun h => ?_
  · simp [isLong, FormQ.maj_toWord]
  · intro next
    rw [word_70 _ _ rfl]
    simp [decodeMaj70, checked, wordRow, src_eq, bool_eq, h]

theorem kvAddPool (d : Reg) (a : Src) (h : BitVec 4) (p : BitVec 3) : Statement (.kvAddPool d a h p) := by
  refine one_word rfl rfl ?_ fun h => ?_
  · simp [isLong, FormQ.maj_toWord]
  · intro next
    rw [word_71 _ _ rfl]
    simp [decodeMaj71, checked, wordRow, src_eq, bool_eq, h]

theorem kvAddOpen (d : Reg) (a : Src) (h : BitVec 4) (p : BitVec 3) : Statement (.kvAddOpen d a h p) := by
  refine one_word rfl rfl ?_ fun h => ?_
  · simp [isLong, FormQ.maj_toWord]
  · intro next
    rw [word_71 _ _ rfl]
    simp [decodeMaj71, checked, wordRow, src_eq, bool_eq]
    exact h

theorem kvAddAppend (d : Reg) (a : Src) (h : BitVec 4) (p : BitVec 3) : Statement (.kvAddAppend d a h p) := by
  refine one_word rfl rfl ?_ fun h => ?_
  · simp [isLong, FormQ.maj_toWord]
  · intro next
    rw [word_71 _ _ rfl]
    simp [decodeMaj71, checked, wordRow, src_eq, bool_eq]
    exact h

theorem kvAddAttach (d : Reg) (a : Src) (h : BitVec 4) (p : BitVec 3) : Statement (.kvAddAttach d a h p) := by
  refine one_word rfl rfl ?_ fun h => ?_
  · simp [isLong, FormQ.maj_toWord]
  · intro next
    rw [word_71 _ _ rfl]
    simp [decodeMaj71, checked, wordRow, src_eq, bool_eq]
    exact h

theorem kvAddPublish (d : Reg) (a : Src) (h : BitVec 4) (p : BitVec 3) : Statement (.kvAddPublish d a h p) := by
  refine one_word rfl rfl ?_ fun h => ?_
  · simp [isLong, FormQ.maj_toWord]
  · intro next
    rw [word_71 _ _ rfl]
    simp [decodeMaj71, checked, wordRow, src_eq, bool_eq]
    exact h

theorem kvAddClose (d : Reg) (a : Src) (h : BitVec 4) (p : BitVec 3) : Statement (.kvAddClose d a h p) := by
  refine one_word rfl rfl ?_ fun h => ?_
  · simp [isLong, FormQ.maj_toWord]
  · intro next
    rw [word_71 _ _ rfl]
    simp [decodeMaj71, checked, wordRow, src_eq, bool_eq]
    exact h

theorem kvAddDemote (d : Reg) (a : Src) (h : BitVec 4) (p : BitVec 3) : Statement (.kvAddDemote d a h p) := by
  refine one_word rfl rfl ?_ fun h => ?_
  · simp [isLong, FormQ.maj_toWord]
  · intro next
    rw [word_71 _ _ rfl]
    simp [decodeMaj71, checked, wordRow, src_eq, bool_eq]
    exact h

theorem kvPromote (d : Reg) (a : Src) (p : BitVec 3) : Statement (.kvPromote d a p) := by
  refine one_word rfl rfl ?_ fun h => ?_
  · simp [isLong, FormQ.maj_toWord]
  · intro next
    rw [word_72 _ _ rfl]
    simp [decodeMaj72, checked, wordRow, src_eq, bool_eq, h]

theorem kvPromoteCancel (d : Reg) (a : Src) (p : BitVec 3) : Statement (.kvPromoteCancel d a p) := by
  refine one_word rfl rfl ?_ fun h => ?_
  · simp [isLong, FormQ.maj_toWord]
  · intro next
    rw [word_72 _ _ rfl]
    simp [decodeMaj72, checked, wordRow, src_eq, bool_eq, h]

theorem dwOpen (d : Reg) (a : Src) (p : BitVec 3) (n : BitVec 4) : Statement (.dwOpen d a p n) := by
  refine one_word rfl rfl ?_ fun h => ?_
  · simp [isLong, FormQ.maj_toWord]
  · intro next
    rw [word_73 _ _ rfl]
    simp [decodeMaj73, checked, wordRow, src_eq, bool_eq, h, low_6_6, high_6_6, low_3_3, high_3_3, low_2_4, high_2_4, low_2_3, high_2_3, low_1_4, high_1_4, low_3_2, high_3_2, low_4_8, high_4_8, low_8_4, high_8_4, low_7_5, high_7_5, low_8_24, high_8_24, low_2_2, high_2_2, low_4_2, high_4_2]

theorem dwSnap (d : Reg) (a : Src) (p : BitVec 3) : Statement (.dwSnap d a p) := by
  refine one_word rfl rfl ?_ fun h => ?_
  · simp [isLong, FormQ.maj_toWord]
  · intro next
    rw [word_74 _ _ rfl]
    simp [decodeMaj74, checked, wordRow, src_eq, bool_eq, h]

theorem dwCommit (d : Reg) (a : Src) (s : BitVec 3) (g : BitVec 4) : Statement (.dwCommit d a s g) := by
  refine one_word rfl rfl ?_ fun h => ?_
  · simp [isLong, FormA.maj_toWord]
  · intro next
    rw [word_75 _ _ rfl]
    simp [decodeMaj75, checked, wordRow, src_eq, bool_eq, h]

theorem dwAbort (a : Src) (s : BitVec 3) (g : BitVec 4) : Statement (.dwAbort a s g) := by
  refine one_word rfl rfl ?_ fun h => ?_
  · simp [isLong, FormA.maj_toWord]
  · intro next
    rw [word_76 _ _ rfl]
    simp [decodeMaj76, checked, wordRow, src_eq, bool_eq, h]

theorem dwStat (d : Reg) (a : Src) : Statement (.dwStat d a) := by
  refine one_word rfl rfl ?_ fun h => ?_
  · simp [isLong, FormR.maj_toWord]
  · intro next
    rw [word_77 _ _ rfl]
    simp [decodeMaj77, checked, wordRow, src_eq, bool_eq, h]

theorem xmcast (d : Reg) (a : Src) (h : BitVec 4) (p : BitVec 3) : Statement (.xmcast d a h p) := by
  refine one_word rfl rfl ?_ fun h => ?_
  · simp [isLong, FormQ.maj_toWord]
  · intro next
    rw [word_78 _ _ rfl]
    simp [decodeMaj78, checked, wordRow, src_eq, bool_eq, h]

theorem xcomb (d : Reg) (a : Src) (h : BitVec 4) (p : BitVec 3) (o : BitVec 3) : Statement (.xcomb d a h p o) := by
  refine one_word rfl rfl ?_ fun h => ?_
  · simp [isLong, FormQ.maj_toWord]
  · intro next
    rw [word_79 _ _ rfl]
    simp [decodeMaj79, checked, wordRow, src_eq, bool_eq, h, low_6_6, high_6_6, low_3_3, high_3_3, low_2_4, high_2_4, low_2_3, high_2_3, low_1_4, high_1_4, low_3_2, high_3_2, low_4_8, high_4_8, low_8_4, high_8_4, low_7_5, high_7_5, low_8_24, high_8_24, low_2_2, high_2_2, low_4_2, high_4_2]

theorem xbar (d : Reg) (a : Src) (s : BitVec 3) (g : BitVec 4) : Statement (.xbar d a s g) := by
  refine one_word rfl rfl ?_ fun h => ?_
  · simp [isLong, FormA.maj_toWord]
  · intro next
    rw [word_7A _ _ rfl]
    simp [decodeMaj7A, checked, wordRow, src_eq, bool_eq, h]

theorem xid (d : Reg) : Statement (.xid d) := by
  refine one_word rfl rfl ?_ fun h => ?_
  · simp [isLong, FormR.maj_toWord]
  · intro next
    rw [word_7B _ _ rfl]
    simp [decodeMaj7B, checked, wordRow, src_eq, bool_eq, h]

theorem chanBind (d : Reg) (a : Src) (p : BitVec 3) : Statement (.chanBind d a p) := by
  refine one_word rfl rfl ?_ fun h => ?_
  · simp [isLong, FormQ.maj_toWord]
  · intro next
    rw [word_7C _ _ rfl]
    simp [decodeMaj7C, checked, wordRow, src_eq, bool_eq, h]

theorem chanYield : Statement (.chanYield) := by
  refine one_word rfl rfl ?_ fun h => ?_
  · simp [isLong, FormQ.maj_toWord]
  · intro next
    rw [word_7C _ _ rfl]
    simp [decodeMaj7C, checked, wordRow, src_eq, bool_eq, h]

theorem chanRaise (d : Reg) (a : Src) (p : BitVec 3) : Statement (.chanRaise d a p) := by
  refine one_word rfl rfl ?_ fun h => ?_
  · simp [isLong, FormQ.maj_toWord]
  · intro next
    rw [word_7C _ _ rfl]
    simp [decodeMaj7C, checked, wordRow, src_eq, bool_eq, h]

theorem qput (d : Reg) (a : Src) (h : BitVec 4) (p : BitVec 3) : Statement (.qput d a h p) := by
  refine one_word rfl rfl ?_ fun h => ?_
  · simp [isLong, FormQ.maj_toWord]
  · intro next
    rw [word_7C _ _ rfl]
    simp [decodeMaj7C, checked, wordRow, src_eq, bool_eq, h]

theorem qget (d : Reg) (a : Src) (h : BitVec 4) (p : BitVec 3) : Statement (.qget d a h p) := by
  refine one_word rfl rfl ?_ fun h => ?_
  · simp [isLong, FormQ.maj_toWord]
  · intro next
    rw [word_7C _ _ rfl]
    simp [decodeMaj7C, checked, wordRow, src_eq, bool_eq, h]

theorem barArrive (d : Reg) (a : Src) (p : BitVec 3) : Statement (.barArrive d a p) := by
  refine one_word rfl rfl ?_ fun h => ?_
  · simp [isLong, FormQ.maj_toWord]
  · intro next
    rw [word_7C _ _ rfl]
    simp [decodeMaj7C, checked, wordRow, src_eq, bool_eq, h]

theorem barWait (d : Reg) (a : Src) (p : BitVec 3) : Statement (.barWait d a p) := by
  refine one_word rfl rfl ?_ fun h => ?_
  · simp [isLong, FormQ.maj_toWord]
  · intro next
    rw [word_7C _ _ rfl]
    simp [decodeMaj7C, checked, wordRow, src_eq, bool_eq, h]

theorem barTest (d : Reg) (a : Src) (p : BitVec 3) : Statement (.barTest d a p) := by
  refine one_word rfl rfl ?_ fun h => ?_
  · simp [isLong, FormQ.maj_toWord]
  · intro next
    rw [word_7C _ _ rfl]
    simp [decodeMaj7C, checked, wordRow, src_eq, bool_eq, h]

theorem trap (c : BitVec 8) : Statement (.trap c) := by
  refine one_word rfl rfl ?_ fun h => ?_
  · simp [isLong, FormI.maj_toWord]
  · intro next
    rw [word_7D _ _ rfl]
    simp [decodeMaj7D, checked, wordRow, sys_2, sys_3, sys_4, src_eq, bool_eq, h, low_6_6, high_6_6, low_3_3, high_3_3, low_2_4, high_2_4, low_2_3, high_2_3, low_1_4, high_1_4, low_3_2, high_3_2, low_4_8, high_4_8, low_8_4, high_8_4, low_7_5, high_7_5, low_8_24, high_8_24, low_2_2, high_2_2, low_4_2, high_4_2]

theorem eret : Statement (.eret) := by
  refine one_word rfl rfl ?_ fun h => ?_
  · simp [isLong, FormI.maj_toWord]
  · intro next
    rw [word_7D _ _ rfl]
    simp [decodeMaj7D, checked, wordRow, src_eq, bool_eq, h]

theorem srd (d : Reg) (r : BitVec 8) : Statement (.srd d r) := by
  refine one_word rfl rfl ?_ fun h => ?_
  · simp [isLong, FormI.maj_toWord]
  · intro next
    rw [word_7D _ _ rfl]
    simp [decodeMaj7D, checked, wordRow, sys_2, sys_3, sys_4, src_eq, bool_eq, h, low_6_6, high_6_6, low_3_3, high_3_3, low_2_4, high_2_4, low_2_3, high_2_3, low_1_4, high_1_4, low_3_2, high_3_2, low_4_8, high_4_8, low_8_4, high_8_4, low_7_5, high_7_5, low_8_24, high_8_24, low_2_2, high_2_2, low_4_2, high_4_2]

theorem swr (a : Src) (r : BitVec 8) : Statement (.swr a r) := by
  refine one_word rfl rfl ?_ fun h => ?_
  · simp [isLong, FormI.maj_toWord]
  · intro next
    rw [word_7D _ _ rfl]
    simp [decodeMaj7D, checked, wordRow, sys_2, sys_3, sys_4, src_eq, bool_eq, h, low_6_6, high_6_6, low_3_3, high_3_3, low_2_4, high_2_4, low_2_3, high_2_3, low_1_4, high_1_4, low_3_2, high_3_2, low_4_8, high_4_8, low_8_4, high_8_4, low_7_5, high_7_5, low_8_24, high_8_24, low_2_2, high_2_2, low_4_2, high_4_2]

theorem brk (c : BitVec 8) : Statement (.brk c) := by
  refine one_word rfl rfl ?_ fun h => ?_
  · simp [isLong, FormI.maj_toWord]
  · intro next
    rw [word_7D _ _ rfl]
    simp [decodeMaj7D, checked, wordRow, sys_2, sys_3, sys_4, src_eq, bool_eq, h, low_6_6, high_6_6, low_3_3, high_3_3, low_2_4, high_2_4, low_2_3, high_2_3, low_1_4, high_1_4, low_3_2, high_3_2, low_4_8, high_4_8, low_8_4, high_8_4, low_7_5, high_7_5, low_8_24, high_8_24, low_2_2, high_2_2, low_4_2, high_4_2]

theorem nop : Statement (.nop) := by
  refine one_word rfl rfl ?_ fun h => ?_
  · simp [isLong, FormI.maj_toWord]
  · intro next
    rw [word_7D _ _ rfl]
    simp [decodeMaj7D, checked, wordRow, src_eq, bool_eq, h]

theorem iAdd (f : FWord) : Statement (.iAdd f) :=
  doubleword rfl rfl rfl

theorem iSub (f : FWord) : Statement (.iSub f) :=
  doubleword rfl rfl rfl

theorem iMul (f : FWord) : Statement (.iMul f) :=
  doubleword rfl rfl rfl

theorem iMad (f : FWord) : Statement (.iMad f) :=
  doubleword rfl rfl rfl

theorem iMin (f : FWord) : Statement (.iMin f) :=
  doubleword rfl rfl rfl

theorem iMax (f : FWord) : Statement (.iMax f) :=
  doubleword rfl rfl rfl

theorem iAbs (f : FWord) : Statement (.iAbs f) :=
  doubleword rfl rfl rfl

theorem iClamp (f : FWord) : Statement (.iClamp f) :=
  doubleword rfl rfl rfl

theorem iAnd (f : FWord) : Statement (.iAnd f) :=
  doubleword rfl rfl rfl

theorem iOr (f : FWord) : Statement (.iOr f) :=
  doubleword rfl rfl rfl

theorem iXor (f : FWord) : Statement (.iXor f) :=
  doubleword rfl rfl rfl

theorem iShl (f : FWord) : Statement (.iShl f) :=
  doubleword rfl rfl rfl

theorem iShr (f : FWord) : Statement (.iShr f) :=
  doubleword rfl rfl rfl

theorem iSra (f : FWord) : Statement (.iSra f) :=
  doubleword rfl rfl rfl

theorem iCmp (f : FWord) : Statement (.iCmp f) :=
  doubleword rfl rfl rfl

theorem sel (f : FWord) : Statement (.sel f) :=
  doubleword rfl rfl rfl

theorem fabricMov (f : FWord) : Statement (.fabricMov f) :=
  doubleword rfl rfl rfl

theorem const (f : FWord) : Statement (.const f) :=
  doubleword rfl rfl rfl

theorem mix (f : FWord) : Statement (.mix f) :=
  doubleword rfl rfl rfl

theorem fAdd (f : FWord) : Statement (.fAdd f) :=
  doubleword rfl rfl rfl

theorem fSub (f : FWord) : Statement (.fSub f) :=
  doubleword rfl rfl rfl

theorem fMul (f : FWord) : Statement (.fMul f) :=
  doubleword rfl rfl rfl

theorem fFma (f : FWord) : Statement (.fFma f) :=
  doubleword rfl rfl rfl

theorem fMin (f : FWord) : Statement (.fMin f) :=
  doubleword rfl rfl rfl

theorem fMax (f : FWord) : Statement (.fMax f) :=
  doubleword rfl rfl rfl

theorem fAbs (f : FWord) : Statement (.fAbs f) :=
  doubleword rfl rfl rfl

theorem fNeg (f : FWord) : Statement (.fNeg f) :=
  doubleword rfl rfl rfl

theorem fCmp (f : FWord) : Statement (.fCmp f) :=
  doubleword rfl rfl rfl

theorem fRcp (f : FWord) : Statement (.fRcp f) :=
  doubleword rfl rfl rfl

theorem fRsq (f : FWord) : Statement (.fRsq f) :=
  doubleword rfl rfl rfl

theorem fExp2 (f : FWord) : Statement (.fExp2 f) :=
  doubleword rfl rfl rfl

theorem fLog2 (f : FWord) : Statement (.fLog2 f) :=
  doubleword rfl rfl rfl

theorem fSig (f : FWord) : Statement (.fSig f) :=
  doubleword rfl rfl rfl

theorem fTanh (f : FWord) : Statement (.fTanh f) :=
  doubleword rfl rfl rfl

theorem cvt (f : FWord) : Statement (.cvt f) :=
  doubleword rfl rfl rfl

theorem pack (f : FWord) : Statement (.pack f) :=
  doubleword rfl rfl rfl

theorem unpack (f : FWord) : Statement (.unpack f) :=
  doubleword rfl rfl rfl

theorem rEnc (f : FWord) : Statement (.rEnc f) :=
  doubleword rfl rfl rfl

theorem rDec (f : FWord) : Statement (.rDec f) :=
  doubleword rfl rfl rfl

theorem rMac (f : FWord) : Statement (.rMac f) :=
  doubleword rfl rfl rfl

theorem xl (f : FWord) : Statement (.xl f) :=
  doubleword rfl rfl rfl

theorem red (f : FWord) : Statement (.red f) :=
  doubleword rfl rfl rfl

theorem fork (f : FWord) : Statement (.fork f) :=
  doubleword rfl rfl rfl

theorem steer (f : FWord) : Statement (.steer f) :=
  doubleword rfl rfl rfl

theorem merge (f : FWord) : Statement (.merge f) :=
  doubleword rfl rfl rfl

theorem mergeU (f : FWord) : Statement (.mergeU f) :=
  doubleword rfl rfl rfl

theorem filter (f : FWord) : Statement (.filter f) :=
  doubleword rfl rfl rfl

theorem recirc (f : FWord) : Statement (.recirc f) :=
  doubleword rfl rfl rfl

theorem gate (f : FWord) : Statement (.gate f) :=
  doubleword rfl rfl rfl

theorem seq (f : FWord) : Statement (.seq f) :=
  doubleword rfl rfl rfl

theorem mark (f : FWord) : Statement (.mark f) :=
  doubleword rfl rfl rfl

theorem ldS (f : FWord) : Statement (.ldS f) :=
  doubleword rfl rfl rfl

theorem stS (f : FWord) : Statement (.stS f) :=
  doubleword rfl rfl rfl

theorem amoS (f : FWord) : Statement (.amoS f) :=
  doubleword rfl rfl rfl

theorem ldG (f : FWord) : Statement (.ldG f) :=
  doubleword rfl rfl rfl

theorem stG (f : FWord) : Statement (.stG f) :=
  doubleword rfl rfl rfl

theorem ag (f : FWord) : Statement (.ag f) :=
  doubleword rfl rfl rfl

theorem ldC (f : FWord) : Statement (.ldC f) :=
  doubleword rfl rfl rfl

theorem stC (f : FWord) : Statement (.stC f) :=
  doubleword rfl rfl rfl

theorem cAlloc (f : FWord) : Statement (.cAlloc f) :=
  doubleword rfl rfl rfl

theorem cSeal (f : FWord) : Statement (.cSeal f) :=
  doubleword rfl rfl rfl

theorem accRd (f : FWord) : Statement (.accRd f) :=
  doubleword rfl rfl rfl

theorem aRow (f : FWord) : Statement (.aRow f) :=
  doubleword rfl rfl rfl

theorem cfgTok (f : FWord) : Statement (.cfgTok f) :=
  doubleword rfl rfl rfl

theorem illegalInstruction (w : BitVec 32) : Statement (.illegalInstruction w) :=
  no_words rfl rfl

theorem longLatencyProducerComplete (key : Nat) (idx : Nat) : Statement (.longLatencyProducerComplete key idx) :=
  no_words rfl rfl

theorem faultDelivery : Statement (.faultDelivery) :=
  no_words rfl rfl

theorem channelEntry : Statement (.channelEntry) :=
  no_words rfl rfl

theorem streamerBeat (cl : Nat) (isl : Nat) (q : Nat) : Statement (.streamerBeat cl isl q) :=
  no_words rfl rfl

theorem copyCompletion (cl : Nat) (isl : Nat) (q : Nat) : Statement (.copyCompletion cl isl q) :=
  no_words rfl rfl

theorem scheduleEntryBegin (cl : Nat) (isl : Nat) (q : Nat) : Statement (.scheduleEntryBegin cl isl q) :=
  no_words rfl rfl

theorem pageIn (cl : Nat) (page : Nat) : Statement (.pageIn cl page) :=
  no_words rfl rfl

theorem pageOut (cl : Nat) (page : Nat) : Statement (.pageOut cl page) :=
  no_words rfl rfl

theorem relocation (cl : Nat) (page : Nat) (core : Nat) : Statement (.relocation cl page core) :=
  no_words rfl rfl

theorem curdGrant (n : NodeRef) : Statement (.curdGrant n) :=
  no_words rfl rfl

theorem nodeAccessPerformed (n : NodeRef) (idx : Nat) : Statement (.nodeAccessPerformed n idx) :=
  no_words rfl rfl

theorem castingMove (cid : Nat) (pages : List Nat) : Statement (.castingMove cid pages) :=
  no_words rfl rfl

theorem castingSlice (cid : Nat) : Statement (.castingSlice cid) :=
  no_words rfl rfl

theorem castingReturn (cid : Nat) : Statement (.castingReturn cid) :=
  no_words rfl rfl

theorem demandExpiry (key : Nat) : Statement (.demandExpiry key) :=
  no_words rfl rfl

theorem forcedPreemption (cid : Nat) : Statement (.forcedPreemption cid) :=
  no_words rfl rfl

theorem rowFire (cl : Nat) (i : Nat) : Statement (.rowFire cl i) :=
  no_words rfl rfl

theorem readoutPerform (cl : Nat) (i : Nat) : Statement (.readoutPerform cl i) :=
  no_words rfl rfl

theorem bindPerform (cl : Nat) (i : Nat) : Statement (.bindPerform cl i) :=
  no_words rfl rfl

theorem tileLoadComplete (cl : Nat) (i : Nat) : Statement (.tileLoadComplete cl i) :=
  no_words rfl rfl

theorem modeItemPerform (cl : Nat) (i : Nat) : Statement (.modeItemPerform cl i) :=
  no_words rfl rfl

theorem scaleItemPerform (cl : Nat) (i : Nat) : Statement (.scaleItemPerform cl i) :=
  no_words rfl rfl

theorem accItemPerform (cl : Nat) (i : Nat) : Statement (.accItemPerform cl i) :=
  no_words rfl rfl

theorem unpinItemPerform (cl : Nat) (i : Nat) : Statement (.unpinItemPerform cl i) :=
  no_words rfl rfl

theorem configTokenPerform (cl : Nat) (i : Nat) : Statement (.configTokenPerform cl i) :=
  no_words rfl rfl

theorem appendPageCopyComplete (id : Nat) : Statement (.appendPageCopyComplete id) :=
  no_words rfl rfl

theorem demoteComplete (id : Nat) : Statement (.demoteComplete id) :=
  no_words rfl rfl

theorem promotionComplete (id : Nat) : Statement (.promotionComplete id) :=
  no_words rfl rfl

theorem commitPoint (win : Nat) : Statement (.commitPoint win) :=
  no_words rfl rfl

theorem dispatcherPoll (q : Nat) : Statement (.dispatcherPoll q) :=
  no_words rfl rfl

theorem recordCheck (q : Nat) : Statement (.recordCheck q) :=
  no_words rfl rfl

theorem launchStart (q : Nat) : Statement (.launchStart q) :=
  no_words rfl rfl

theorem steal (q : Nat) : Statement (.steal q) :=
  no_words rfl rfl

theorem watchdogExpiry (l : LaunchRef) : Statement (.watchdogExpiry l) :=
  no_words rfl rfl

theorem correctedError (u : UnitRef) : Statement (.correctedError u) :=
  no_words rfl rfl

theorem linkCrcRetry : Statement (.linkCrcRetry) :=
  no_words rfl rfl

theorem hostTailWrite (q : Nat) (size : Nat) (v : BitVec 64) : Statement (.hostTailWrite q size v) :=
  no_words rfl rfl

theorem hostMemoryWrite (x : Nat) (bytes : List (BitVec 8)) : Statement (.hostMemoryWrite x bytes) :=
  no_words rfl rfl

theorem hostMemoryRead (x : Nat) (n : Nat) : Statement (.hostMemoryRead x n) :=
  no_words rfl rfl

theorem hostWindowCompletion (who : Requester) : Statement (.hostWindowCompletion who) :=
  no_words rfl rfl

theorem hostCompletionTimeout (who : Requester) : Statement (.hostCompletionTimeout who) :=
  no_words rfl rfl

theorem registerWrite (off : Nat) (size : Nat) (v : BitVec 64) : Statement (.registerWrite off size v) :=
  no_words rfl rfl

theorem tinvWrite (v : BitVec 64) : Statement (.tinvWrite v) :=
  no_words rfl rfl

theorem tinvComplete : Statement (.tinvComplete) :=
  no_words rfl rfl

theorem lqctlWrite (q : Nat) (v : BitVec 64) : Statement (.lqctlWrite q v) :=
  no_words rfl rfl

theorem errorCounterWrite (off : Nat) : Statement (.errorCounterWrite off) :=
  no_words rfl rfl

theorem podidWrite (v : BitVec 64) : Statement (.podidWrite v) :=
  no_words rfl rfl

theorem podwinWrite (m : Nat) (v : BitVec 64) : Statement (.podwinWrite m v) :=
  no_words rfl rfl

theorem killLaunch (req : List (BitVec 64)) : Statement (.killLaunch req) :=
  no_words rfl rfl

theorem haltCasting (req : List (BitVec 64)) : Statement (.haltCasting req) :=
  no_words rfl rfl

theorem releaseCasting (req : List (BitVec 64)) : Statement (.releaseCasting req) :=
  no_words rfl rfl

theorem haltThread (req : List (BitVec 64)) : Statement (.haltThread req) :=
  no_words rfl rfl

theorem releaseThread (req : List (BitVec 64)) : Statement (.releaseThread req) :=
  no_words rfl rfl

theorem watchdogLimit (req : List (BitVec 64)) : Statement (.watchdogLimit req) :=
  no_words rfl rfl

theorem readContextStore (req : List (BitVec 64)) : Statement (.readContextStore req) :=
  no_words rfl rfl

theorem identityPublicKey (req : List (BitVec 64)) : Statement (.identityPublicKey req) :=
  no_words rfl rfl

theorem attestationReport (req : List (BitVec 64)) : Statement (.attestationReport req) :=
  no_words rfl rfl

theorem loadFirmware (req : List (BitVec 64)) : Statement (.loadFirmware req) :=
  no_words rfl rfl

theorem mailboxCommandEnd : Statement (.mailboxCommandEnd) :=
  no_words rfl rfl

theorem moduleReset (ph : ResetPhase) : Statement (.moduleReset ph) :=
  no_words rfl rfl

theorem thermalWarning (t : BitVec 8) : Statement (.thermalWarning t) :=
  no_words rfl rfl

theorem thermalTrip : Statement (.thermalTrip) :=
  no_words rfl rfl

theorem podRequest (m : Nat) (r : PodReq) : Statement (.podRequest m r) :=
  no_words rfl rfl

theorem linkDown (m : Nat) : Statement (.linkDown m) :=
  no_words rfl rfl

theorem responseTimeout (m : Nat) : Statement (.responseTimeout m) :=
  no_words rfl rfl

theorem fenceNotice (m : Nat) : Statement (.fenceNotice m) :=
  no_words rfl rfl

theorem podOpComplete (id : Nat) : Statement (.podOpComplete id) :=
  no_words rfl rfl

theorem combineResult (id : Nat) (parts : List Contrib) : Statement (.combineResult id parts) :=
  no_words rfl rfl

theorem combineFailureNotice (id : Nat) : Statement (.combineFailureNotice id) :=
  no_words rfl rfl

theorem portGoesDown (p : Nat) : Statement (.portGoesDown p) :=
  no_words rfl rfl

theorem promotionCopyBegin (id : Nat) : Statement (.promotionCopyBegin id) :=
  no_words rfl rfl

theorem castingConfigurationLoaded (cid : Nat) : Statement (.castingConfigurationLoaded cid) :=
  no_words rfl rfl

theorem hostAtomicopRequest (op : HostAtomic) (x : Nat) : Statement (.hostAtomicopRequest op x) :=
  no_words rfl rfl

theorem unknownMailboxCommand (code : BitVec 64) (req : List (BitVec 64)) : Statement (.unknownMailboxCommand code req) :=
  no_words rfl rfl

end Sys2Proof.Laws.Encoding
end

