-- ==== Sys2Proof/Laws/State.lean ====
section
/-! SUPPORT. What each update of the state leaves: one lemma for each field and update, true by definition, and the
read-back laws of the updates through a table. -/

namespace Sys2Proof.Machine

/-! ## The thread on a core -/

@[simp] theorem State.setThread_phase (s : State) (k : Nat) (t : Thread) : (s.setThread k t).phase = s.phase := rfl
@[simp] theorem State.setThread_cycle (s : State) (k : Nat) (t : Thread) : (s.setThread k t).cycle = s.cycle := rfl
@[simp] theorem State.setThread_agenda (s : State) (k : Nat) (t : Thread) : (s.setThread k t).agenda = s.agenda := rfl
@[simp] theorem State.setThread_turns (s : State) (k : Nat) (t : Thread) : (s.setThread k t).turns = s.turns := rfl
@[simp] theorem State.setThread_ctxs (s : State) (k : Nat) (t : Thread) : (s.setThread k t).ctxs = s.ctxs := rfl
@[simp] theorem State.setThread_fired (s : State) (k : Nat) (t : Thread) : (s.setThread k t).fired = s.fired := rfl
@[simp] theorem State.setThread_beats (s : State) (k : Nat) (t : Thread) : (s.setThread k t).beats = s.beats := rfl
@[simp] theorem State.setThread_busy (s : State) (k : Nat) (t : Thread) : (s.setThread k t).busy = s.busy := rfl
@[simp] theorem State.setThread_banked (s : State) (k : Nat) (t : Thread) : (s.setThread k t).banked = s.banked := rfl
@[simp] theorem State.setThread_core (s : State) (k : Nat) (t : Thread) : (s.setThread k t).core = s.core := rfl
@[simp] theorem State.setThread_node (s : State) (k : Nat) (t : Thread) : (s.setThread k t).node = s.node := rfl
@[simp] theorem State.setThread_mem (s : State) (k : Nat) (t : Thread) : (s.setThread k t).mem = s.mem := rfl
@[simp] theorem State.setThread_sram (s : State) (k : Nat) (t : Thread) : (s.setThread k t).sram = s.sram := rfl
@[simp] theorem State.setThread_outside (s : State) (k : Nat) (t : Thread) :
    (s.setThread k t).outside = s.outside := rfl
@[simp] theorem State.setThread_outBars (s : State) (k : Nat) (t : Thread) :
    (s.setThread k t).outBars = s.outBars := rfl
@[simp] theorem State.setThread_regs (s : State) (k : Nat) (t : Thread) : (s.setThread k t).regs = s.regs := rfl
@[simp] theorem State.setThread_saved (s : State) (k : Nat) (t : Thread) : (s.setThread k t).saved = s.saved := rfl
@[simp] theorem State.setThread_savedTab (s : State) (k : Nat) (t : Thread) :
    (s.setThread k t).savedTab = s.savedTab := rfl
@[simp] theorem State.setThread_clusters (s : State) (k : Nat) (t : Thread) :
    (s.setThread k t).clusters = s.clusters := rfl
@[simp] theorem State.setThread_dies (s : State) (k : Nat) (t : Thread) : (s.setThread k t).dies = s.dies := rfl
@[simp] theorem State.setThread_waiting (s : State) (k : Nat) (t : Thread) :
    (s.setThread k t).waiting = s.waiting := rfl
@[simp] theorem State.setThread_tlb (s : State) (k : Nat) (t : Thread) : (s.setThread k t).tlb = s.tlb := rfl
@[simp] theorem State.setThread_lqs (s : State) (k : Nat) (t : Thread) : (s.setThread k t).lqs = s.lqs := rfl
@[simp] theorem State.setThread_launches (s : State) (k : Nat) (t : Thread) :
    (s.setThread k t).launches = s.launches := rfl
@[simp] theorem State.setThread_closing (s : State) (k : Nat) (t : Thread) :
    (s.setThread k t).closing = s.closing := rfl
@[simp] theorem State.setThread_left (s : State) (k : Nat) (t : Thread) : (s.setThread k t).left = s.left := rfl
@[simp] theorem State.setThread_credits (s : State) (k : Nat) (t : Thread) :
    (s.setThread k t).credits = s.credits := rfl
@[simp] theorem State.setThread_lastQ (s : State) (k : Nat) (t : Thread) : (s.setThread k t).lastQ = s.lastQ := rfl
@[simp] theorem State.setThread_seqs (s : State) (k : Nat) (t : Thread) : (s.setThread k t).seqs = s.seqs := rfl
@[simp] theorem State.setThread_wins (s : State) (k : Nat) (t : Thread) : (s.setThread k t).wins = s.wins := rfl
@[simp] theorem State.setThread_kvCopies (s : State) (k : Nat) (t : Thread) :
    (s.setThread k t).kvCopies = s.kvCopies := rfl
@[simp] theorem State.setThread_kvNext (s : State) (k : Nat) (t : Thread) : (s.setThread k t).kvNext = s.kvNext := rfl
@[simp] theorem State.setThread_podBars (s : State) (k : Nat) (t : Thread) :
    (s.setThread k t).podBars = s.podBars := rfl
@[simp] theorem State.setThread_podOps (s : State) (k : Nat) (t : Thread) : (s.setThread k t).podOps = s.podOps := rfl
@[simp] theorem State.setThread_podNext (s : State) (k : Nat) (t : Thread) :
    (s.setThread k t).podNext = s.podNext := rfl
@[simp] theorem State.setThread_ports (s : State) (k : Nat) (t : Thread) : (s.setThread k t).ports = s.ports := rfl
@[simp] theorem State.setThread_early (s : State) (k : Nat) (t : Thread) : (s.setThread k t).early = s.early := rfl
@[simp] theorem State.setThread_combs (s : State) (k : Nat) (t : Thread) : (s.setThread k t).combs = s.combs := rfl
@[simp] theorem State.setThread_sent (s : State) (k : Nat) (t : Thread) : (s.setThread k t).sent = s.sent := rfl
@[simp] theorem State.setThread_treeOut (s : State) (k : Nat) (t : Thread) :
    (s.setThread k t).treeOut = s.treeOut := rfl
@[simp] theorem State.setThread_unsent (s : State) (k : Nat) (t : Thread) : (s.setThread k t).unsent = s.unsent := rfl
@[simp] theorem State.setThread_pci (s : State) (k : Nat) (t : Thread) : (s.setThread k t).pci = s.pci := rfl
@[simp] theorem State.setThread_timedOut (s : State) (k : Nat) (t : Thread) :
    (s.setThread k t).timedOut = s.timedOut := rfl
@[simp] theorem State.setThread_mbox (s : State) (k : Nat) (t : Thread) : (s.setThread k t).mbox = s.mbox := rfl
@[simp] theorem State.setThread_rel (s : State) (k : Nat) (t : Thread) : (s.setThread k t).rel = s.rel := rfl
@[simp] theorem State.setThread_asked (s : State) (k : Nat) (t : Thread) : (s.setThread k t).asked = s.asked := rfl
@[simp] theorem State.setThread_free (s : State) (k : Nat) (t : Thread) : (s.setThread k t).free = s.free := rfl
@[simp] theorem State.setThread_answer (s : State) (k : Nat) (t : Thread) : (s.setThread k t).answer = s.answer := rfl

@[simp] theorem State.updThread_phase (s : State) (k : Nat) (g : Thread → Thread) :
    (s.updThread k g).phase = s.phase := by
  unfold State.updThread; split <;> rfl
@[simp] theorem State.updThread_cycle (s : State) (k : Nat) (g : Thread → Thread) :
    (s.updThread k g).cycle = s.cycle := by
  unfold State.updThread; split <;> rfl
@[simp] theorem State.updThread_agenda (s : State) (k : Nat) (g : Thread → Thread) :
    (s.updThread k g).agenda = s.agenda := by
  unfold State.updThread; split <;> rfl
@[simp] theorem State.updThread_turns (s : State) (k : Nat) (g : Thread → Thread) :
    (s.updThread k g).turns = s.turns := by
  unfold State.updThread; split <;> rfl
@[simp] theorem State.updThread_ctxs (s : State) (k : Nat) (g : Thread → Thread) :
    (s.updThread k g).ctxs = s.ctxs := by
  unfold State.updThread; split <;> rfl
@[simp] theorem State.updThread_fired (s : State) (k : Nat) (g : Thread → Thread) :
    (s.updThread k g).fired = s.fired := by
  unfold State.updThread; split <;> rfl
@[simp] theorem State.updThread_beats (s : State) (k : Nat) (g : Thread → Thread) :
    (s.updThread k g).beats = s.beats := by
  unfold State.updThread; split <;> rfl
@[simp] theorem State.updThread_busy (s : State) (k : Nat) (g : Thread → Thread) :
    (s.updThread k g).busy = s.busy := by
  unfold State.updThread; split <;> rfl
@[simp] theorem State.updThread_banked (s : State) (k : Nat) (g : Thread → Thread) :
    (s.updThread k g).banked = s.banked := by
  unfold State.updThread; split <;> rfl
@[simp] theorem State.updThread_core (s : State) (k : Nat) (g : Thread → Thread) :
    (s.updThread k g).core = s.core := by
  unfold State.updThread; split <;> rfl
@[simp] theorem State.updThread_node (s : State) (k : Nat) (g : Thread → Thread) :
    (s.updThread k g).node = s.node := by
  unfold State.updThread; split <;> rfl
@[simp] theorem State.updThread_mem (s : State) (k : Nat) (g : Thread → Thread) :
    (s.updThread k g).mem = s.mem := by
  unfold State.updThread; split <;> rfl
@[simp] theorem State.updThread_sram (s : State) (k : Nat) (g : Thread → Thread) :
    (s.updThread k g).sram = s.sram := by
  unfold State.updThread; split <;> rfl
@[simp] theorem State.updThread_outside (s : State) (k : Nat) (g : Thread → Thread) :
    (s.updThread k g).outside = s.outside := by
  unfold State.updThread; split <;> rfl
@[simp] theorem State.updThread_outBars (s : State) (k : Nat) (g : Thread → Thread) :
    (s.updThread k g).outBars = s.outBars := by
  unfold State.updThread; split <;> rfl
@[simp] theorem State.updThread_regs (s : State) (k : Nat) (g : Thread → Thread) :
    (s.updThread k g).regs = s.regs := by
  unfold State.updThread; split <;> rfl
@[simp] theorem State.updThread_saved (s : State) (k : Nat) (g : Thread → Thread) :
    (s.updThread k g).saved = s.saved := by
  unfold State.updThread; split <;> rfl
@[simp] theorem State.updThread_savedTab (s : State) (k : Nat) (g : Thread → Thread) :
    (s.updThread k g).savedTab = s.savedTab := by
  unfold State.updThread; split <;> rfl
@[simp] theorem State.updThread_clusters (s : State) (k : Nat) (g : Thread → Thread) :
    (s.updThread k g).clusters = s.clusters := by
  unfold State.updThread; split <;> rfl
@[simp] theorem State.updThread_dies (s : State) (k : Nat) (g : Thread → Thread) :
    (s.updThread k g).dies = s.dies := by
  unfold State.updThread; split <;> rfl
@[simp] theorem State.updThread_waiting (s : State) (k : Nat) (g : Thread → Thread) :
    (s.updThread k g).waiting = s.waiting := by
  unfold State.updThread; split <;> rfl
@[simp] theorem State.updThread_tlb (s : State) (k : Nat) (g : Thread → Thread) :
    (s.updThread k g).tlb = s.tlb := by
  unfold State.updThread; split <;> rfl
@[simp] theorem State.updThread_lqs (s : State) (k : Nat) (g : Thread → Thread) :
    (s.updThread k g).lqs = s.lqs := by
  unfold State.updThread; split <;> rfl
@[simp] theorem State.updThread_launches (s : State) (k : Nat) (g : Thread → Thread) :
    (s.updThread k g).launches = s.launches := by
  unfold State.updThread; split <;> rfl
@[simp] theorem State.updThread_closing (s : State) (k : Nat) (g : Thread → Thread) :
    (s.updThread k g).closing = s.closing := by
  unfold State.updThread; split <;> rfl
@[simp] theorem State.updThread_left (s : State) (k : Nat) (g : Thread → Thread) :
    (s.updThread k g).left = s.left := by
  unfold State.updThread; split <;> rfl
@[simp] theorem State.updThread_credits (s : State) (k : Nat) (g : Thread → Thread) :
    (s.updThread k g).credits = s.credits := by
  unfold State.updThread; split <;> rfl
@[simp] theorem State.updThread_lastQ (s : State) (k : Nat) (g : Thread → Thread) :
    (s.updThread k g).lastQ = s.lastQ := by
  unfold State.updThread; split <;> rfl
@[simp] theorem State.updThread_seqs (s : State) (k : Nat) (g : Thread → Thread) :
    (s.updThread k g).seqs = s.seqs := by
  unfold State.updThread; split <;> rfl
@[simp] theorem State.updThread_wins (s : State) (k : Nat) (g : Thread → Thread) :
    (s.updThread k g).wins = s.wins := by
  unfold State.updThread; split <;> rfl
@[simp] theorem State.updThread_kvCopies (s : State) (k : Nat) (g : Thread → Thread) :
    (s.updThread k g).kvCopies = s.kvCopies := by
  unfold State.updThread; split <;> rfl
@[simp] theorem State.updThread_kvNext (s : State) (k : Nat) (g : Thread → Thread) :
    (s.updThread k g).kvNext = s.kvNext := by
  unfold State.updThread; split <;> rfl
@[simp] theorem State.updThread_podBars (s : State) (k : Nat) (g : Thread → Thread) :
    (s.updThread k g).podBars = s.podBars := by
  unfold State.updThread; split <;> rfl
@[simp] theorem State.updThread_podOps (s : State) (k : Nat) (g : Thread → Thread) :
    (s.updThread k g).podOps = s.podOps := by
  unfold State.updThread; split <;> rfl
@[simp] theorem State.updThread_podNext (s : State) (k : Nat) (g : Thread → Thread) :
    (s.updThread k g).podNext = s.podNext := by
  unfold State.updThread; split <;> rfl
@[simp] theorem State.updThread_ports (s : State) (k : Nat) (g : Thread → Thread) :
    (s.updThread k g).ports = s.ports := by
  unfold State.updThread; split <;> rfl
@[simp] theorem State.updThread_early (s : State) (k : Nat) (g : Thread → Thread) :
    (s.updThread k g).early = s.early := by
  unfold State.updThread; split <;> rfl
@[simp] theorem State.updThread_combs (s : State) (k : Nat) (g : Thread → Thread) :
    (s.updThread k g).combs = s.combs := by
  unfold State.updThread; split <;> rfl
@[simp] theorem State.updThread_sent (s : State) (k : Nat) (g : Thread → Thread) :
    (s.updThread k g).sent = s.sent := by
  unfold State.updThread; split <;> rfl
@[simp] theorem State.updThread_treeOut (s : State) (k : Nat) (g : Thread → Thread) :
    (s.updThread k g).treeOut = s.treeOut := by
  unfold State.updThread; split <;> rfl
@[simp] theorem State.updThread_unsent (s : State) (k : Nat) (g : Thread → Thread) :
    (s.updThread k g).unsent = s.unsent := by
  unfold State.updThread; split <;> rfl
@[simp] theorem State.updThread_pci (s : State) (k : Nat) (g : Thread → Thread) :
    (s.updThread k g).pci = s.pci := by
  unfold State.updThread; split <;> rfl
@[simp] theorem State.updThread_timedOut (s : State) (k : Nat) (g : Thread → Thread) :
    (s.updThread k g).timedOut = s.timedOut := by
  unfold State.updThread; split <;> rfl
@[simp] theorem State.updThread_mbox (s : State) (k : Nat) (g : Thread → Thread) :
    (s.updThread k g).mbox = s.mbox := by
  unfold State.updThread; split <;> rfl
@[simp] theorem State.updThread_rel (s : State) (k : Nat) (g : Thread → Thread) :
    (s.updThread k g).rel = s.rel := by
  unfold State.updThread; split <;> rfl
@[simp] theorem State.updThread_asked (s : State) (k : Nat) (g : Thread → Thread) :
    (s.updThread k g).asked = s.asked := by
  unfold State.updThread; split <;> rfl
@[simp] theorem State.updThread_free (s : State) (k : Nat) (g : Thread → Thread) :
    (s.updThread k g).free = s.free := by
  unfold State.updThread; split <;> rfl
@[simp] theorem State.updThread_answer (s : State) (k : Nat) (g : Thread → Thread) :
    (s.updThread k g).answer = s.answer := by
  unfold State.updThread; split <;> rfl

/-! ## The parts of a cluster -/

@[simp] theorem State.updCluster_phase (s : State) (c : Nat) (g : Cluster → Cluster) :
    (s.updCluster c g).phase = s.phase := rfl
@[simp] theorem State.updCluster_cycle (s : State) (c : Nat) (g : Cluster → Cluster) :
    (s.updCluster c g).cycle = s.cycle := rfl
@[simp] theorem State.updCluster_agenda (s : State) (c : Nat) (g : Cluster → Cluster) :
    (s.updCluster c g).agenda = s.agenda := rfl
@[simp] theorem State.updCluster_turns (s : State) (c : Nat) (g : Cluster → Cluster) :
    (s.updCluster c g).turns = s.turns := rfl
@[simp] theorem State.updCluster_ctxs (s : State) (c : Nat) (g : Cluster → Cluster) :
    (s.updCluster c g).ctxs = s.ctxs := rfl
@[simp] theorem State.updCluster_fired (s : State) (c : Nat) (g : Cluster → Cluster) :
    (s.updCluster c g).fired = s.fired := rfl
@[simp] theorem State.updCluster_beats (s : State) (c : Nat) (g : Cluster → Cluster) :
    (s.updCluster c g).beats = s.beats := rfl
@[simp] theorem State.updCluster_busy (s : State) (c : Nat) (g : Cluster → Cluster) :
    (s.updCluster c g).busy = s.busy := rfl
@[simp] theorem State.updCluster_banked (s : State) (c : Nat) (g : Cluster → Cluster) :
    (s.updCluster c g).banked = s.banked := rfl
@[simp] theorem State.updCluster_core (s : State) (c : Nat) (g : Cluster → Cluster) :
    (s.updCluster c g).core = s.core := rfl
@[simp] theorem State.updCluster_node (s : State) (c : Nat) (g : Cluster → Cluster) :
    (s.updCluster c g).node = s.node := rfl
@[simp] theorem State.updCluster_mem (s : State) (c : Nat) (g : Cluster → Cluster) :
    (s.updCluster c g).mem = s.mem := rfl
@[simp] theorem State.updCluster_sram (s : State) (c : Nat) (g : Cluster → Cluster) :
    (s.updCluster c g).sram = s.sram := rfl
@[simp] theorem State.updCluster_outside (s : State) (c : Nat) (g : Cluster → Cluster) :
    (s.updCluster c g).outside = s.outside := rfl
@[simp] theorem State.updCluster_outBars (s : State) (c : Nat) (g : Cluster → Cluster) :
    (s.updCluster c g).outBars = s.outBars := rfl
@[simp] theorem State.updCluster_regs (s : State) (c : Nat) (g : Cluster → Cluster) :
    (s.updCluster c g).regs = s.regs := rfl
@[simp] theorem State.updCluster_threads (s : State) (c : Nat) (g : Cluster → Cluster) :
    (s.updCluster c g).threads = s.threads := rfl
@[simp] theorem State.updCluster_saved (s : State) (c : Nat) (g : Cluster → Cluster) :
    (s.updCluster c g).saved = s.saved := rfl
@[simp] theorem State.updCluster_savedTab (s : State) (c : Nat) (g : Cluster → Cluster) :
    (s.updCluster c g).savedTab = s.savedTab := rfl
@[simp] theorem State.updCluster_dies (s : State) (c : Nat) (g : Cluster → Cluster) :
    (s.updCluster c g).dies = s.dies := rfl
@[simp] theorem State.updCluster_waiting (s : State) (c : Nat) (g : Cluster → Cluster) :
    (s.updCluster c g).waiting = s.waiting := rfl
@[simp] theorem State.updCluster_tlb (s : State) (c : Nat) (g : Cluster → Cluster) :
    (s.updCluster c g).tlb = s.tlb := rfl
@[simp] theorem State.updCluster_lqs (s : State) (c : Nat) (g : Cluster → Cluster) :
    (s.updCluster c g).lqs = s.lqs := rfl
@[simp] theorem State.updCluster_launches (s : State) (c : Nat) (g : Cluster → Cluster) :
    (s.updCluster c g).launches = s.launches := rfl
@[simp] theorem State.updCluster_closing (s : State) (c : Nat) (g : Cluster → Cluster) :
    (s.updCluster c g).closing = s.closing := rfl
@[simp] theorem State.updCluster_left (s : State) (c : Nat) (g : Cluster → Cluster) :
    (s.updCluster c g).left = s.left := rfl
@[simp] theorem State.updCluster_credits (s : State) (c : Nat) (g : Cluster → Cluster) :
    (s.updCluster c g).credits = s.credits := rfl
@[simp] theorem State.updCluster_lastQ (s : State) (c : Nat) (g : Cluster → Cluster) :
    (s.updCluster c g).lastQ = s.lastQ := rfl
@[simp] theorem State.updCluster_seqs (s : State) (c : Nat) (g : Cluster → Cluster) :
    (s.updCluster c g).seqs = s.seqs := rfl
@[simp] theorem State.updCluster_wins (s : State) (c : Nat) (g : Cluster → Cluster) :
    (s.updCluster c g).wins = s.wins := rfl
@[simp] theorem State.updCluster_kvCopies (s : State) (c : Nat) (g : Cluster → Cluster) :
    (s.updCluster c g).kvCopies = s.kvCopies := rfl
@[simp] theorem State.updCluster_kvNext (s : State) (c : Nat) (g : Cluster → Cluster) :
    (s.updCluster c g).kvNext = s.kvNext := rfl
@[simp] theorem State.updCluster_podBars (s : State) (c : Nat) (g : Cluster → Cluster) :
    (s.updCluster c g).podBars = s.podBars := rfl
@[simp] theorem State.updCluster_podOps (s : State) (c : Nat) (g : Cluster → Cluster) :
    (s.updCluster c g).podOps = s.podOps := rfl
@[simp] theorem State.updCluster_podNext (s : State) (c : Nat) (g : Cluster → Cluster) :
    (s.updCluster c g).podNext = s.podNext := rfl
@[simp] theorem State.updCluster_ports (s : State) (c : Nat) (g : Cluster → Cluster) :
    (s.updCluster c g).ports = s.ports := rfl
@[simp] theorem State.updCluster_early (s : State) (c : Nat) (g : Cluster → Cluster) :
    (s.updCluster c g).early = s.early := rfl
@[simp] theorem State.updCluster_combs (s : State) (c : Nat) (g : Cluster → Cluster) :
    (s.updCluster c g).combs = s.combs := rfl
@[simp] theorem State.updCluster_sent (s : State) (c : Nat) (g : Cluster → Cluster) :
    (s.updCluster c g).sent = s.sent := rfl
@[simp] theorem State.updCluster_treeOut (s : State) (c : Nat) (g : Cluster → Cluster) :
    (s.updCluster c g).treeOut = s.treeOut := rfl
@[simp] theorem State.updCluster_unsent (s : State) (c : Nat) (g : Cluster → Cluster) :
    (s.updCluster c g).unsent = s.unsent := rfl
@[simp] theorem State.updCluster_pci (s : State) (c : Nat) (g : Cluster → Cluster) :
    (s.updCluster c g).pci = s.pci := rfl
@[simp] theorem State.updCluster_timedOut (s : State) (c : Nat) (g : Cluster → Cluster) :
    (s.updCluster c g).timedOut = s.timedOut := rfl
@[simp] theorem State.updCluster_mbox (s : State) (c : Nat) (g : Cluster → Cluster) :
    (s.updCluster c g).mbox = s.mbox := rfl
@[simp] theorem State.updCluster_rel (s : State) (c : Nat) (g : Cluster → Cluster) :
    (s.updCluster c g).rel = s.rel := rfl
@[simp] theorem State.updCluster_asked (s : State) (c : Nat) (g : Cluster → Cluster) :
    (s.updCluster c g).asked = s.asked := rfl
@[simp] theorem State.updCluster_free (s : State) (c : Nat) (g : Cluster → Cluster) :
    (s.updCluster c g).free = s.free := rfl
@[simp] theorem State.updCluster_answer (s : State) (c : Nat) (g : Cluster → Cluster) :
    (s.updCluster c g).answer = s.answer := rfl

theorem State.cluster_updCluster (s : State) (c : Nat) (g : Cluster → Cluster) :
    (s.updCluster c g).cluster c = g (s.cluster c) := by
  simp [State.updCluster, State.cluster, tabUpd, tabGet_tabPut_self]
theorem State.cluster_updCluster_ne (s : State) (c e : Nat) (g : Cluster → Cluster) (h : e ≠ c) :
    (s.updCluster c g).cluster e = s.cluster e := by
  simp [State.updCluster, State.cluster, tabUpd, tabGet_tabPut_ne _ _ _ _ _ h]

@[simp] theorem State.updIsland_phase (s : State) (c i : Nat) (g : Island → Island) :
    (s.updIsland c i g).phase = s.phase := rfl
@[simp] theorem State.updIsland_cycle (s : State) (c i : Nat) (g : Island → Island) :
    (s.updIsland c i g).cycle = s.cycle := rfl
@[simp] theorem State.updIsland_agenda (s : State) (c i : Nat) (g : Island → Island) :
    (s.updIsland c i g).agenda = s.agenda := rfl
@[simp] theorem State.updIsland_turns (s : State) (c i : Nat) (g : Island → Island) :
    (s.updIsland c i g).turns = s.turns := rfl
@[simp] theorem State.updIsland_ctxs (s : State) (c i : Nat) (g : Island → Island) :
    (s.updIsland c i g).ctxs = s.ctxs := rfl
@[simp] theorem State.updIsland_fired (s : State) (c i : Nat) (g : Island → Island) :
    (s.updIsland c i g).fired = s.fired := rfl
@[simp] theorem State.updIsland_beats (s : State) (c i : Nat) (g : Island → Island) :
    (s.updIsland c i g).beats = s.beats := rfl
@[simp] theorem State.updIsland_busy (s : State) (c i : Nat) (g : Island → Island) :
    (s.updIsland c i g).busy = s.busy := rfl
@[simp] theorem State.updIsland_banked (s : State) (c i : Nat) (g : Island → Island) :
    (s.updIsland c i g).banked = s.banked := rfl
@[simp] theorem State.updIsland_core (s : State) (c i : Nat) (g : Island → Island) :
    (s.updIsland c i g).core = s.core := rfl
@[simp] theorem State.updIsland_node (s : State) (c i : Nat) (g : Island → Island) :
    (s.updIsland c i g).node = s.node := rfl
@[simp] theorem State.updIsland_mem (s : State) (c i : Nat) (g : Island → Island) :
    (s.updIsland c i g).mem = s.mem := rfl
@[simp] theorem State.updIsland_sram (s : State) (c i : Nat) (g : Island → Island) :
    (s.updIsland c i g).sram = s.sram := rfl
@[simp] theorem State.updIsland_outside (s : State) (c i : Nat) (g : Island → Island) :
    (s.updIsland c i g).outside = s.outside := rfl
@[simp] theorem State.updIsland_outBars (s : State) (c i : Nat) (g : Island → Island) :
    (s.updIsland c i g).outBars = s.outBars := rfl
@[simp] theorem State.updIsland_regs (s : State) (c i : Nat) (g : Island → Island) :
    (s.updIsland c i g).regs = s.regs := rfl
@[simp] theorem State.updIsland_threads (s : State) (c i : Nat) (g : Island → Island) :
    (s.updIsland c i g).threads = s.threads := rfl
@[simp] theorem State.updIsland_saved (s : State) (c i : Nat) (g : Island → Island) :
    (s.updIsland c i g).saved = s.saved := rfl
@[simp] theorem State.updIsland_savedTab (s : State) (c i : Nat) (g : Island → Island) :
    (s.updIsland c i g).savedTab = s.savedTab := rfl
@[simp] theorem State.updIsland_dies (s : State) (c i : Nat) (g : Island → Island) :
    (s.updIsland c i g).dies = s.dies := rfl
@[simp] theorem State.updIsland_waiting (s : State) (c i : Nat) (g : Island → Island) :
    (s.updIsland c i g).waiting = s.waiting := rfl
@[simp] theorem State.updIsland_tlb (s : State) (c i : Nat) (g : Island → Island) :
    (s.updIsland c i g).tlb = s.tlb := rfl
@[simp] theorem State.updIsland_lqs (s : State) (c i : Nat) (g : Island → Island) :
    (s.updIsland c i g).lqs = s.lqs := rfl
@[simp] theorem State.updIsland_launches (s : State) (c i : Nat) (g : Island → Island) :
    (s.updIsland c i g).launches = s.launches := rfl
@[simp] theorem State.updIsland_closing (s : State) (c i : Nat) (g : Island → Island) :
    (s.updIsland c i g).closing = s.closing := rfl
@[simp] theorem State.updIsland_left (s : State) (c i : Nat) (g : Island → Island) :
    (s.updIsland c i g).left = s.left := rfl
@[simp] theorem State.updIsland_credits (s : State) (c i : Nat) (g : Island → Island) :
    (s.updIsland c i g).credits = s.credits := rfl
@[simp] theorem State.updIsland_lastQ (s : State) (c i : Nat) (g : Island → Island) :
    (s.updIsland c i g).lastQ = s.lastQ := rfl
@[simp] theorem State.updIsland_seqs (s : State) (c i : Nat) (g : Island → Island) :
    (s.updIsland c i g).seqs = s.seqs := rfl
@[simp] theorem State.updIsland_wins (s : State) (c i : Nat) (g : Island → Island) :
    (s.updIsland c i g).wins = s.wins := rfl
@[simp] theorem State.updIsland_kvCopies (s : State) (c i : Nat) (g : Island → Island) :
    (s.updIsland c i g).kvCopies = s.kvCopies := rfl
@[simp] theorem State.updIsland_kvNext (s : State) (c i : Nat) (g : Island → Island) :
    (s.updIsland c i g).kvNext = s.kvNext := rfl
@[simp] theorem State.updIsland_podBars (s : State) (c i : Nat) (g : Island → Island) :
    (s.updIsland c i g).podBars = s.podBars := rfl
@[simp] theorem State.updIsland_podOps (s : State) (c i : Nat) (g : Island → Island) :
    (s.updIsland c i g).podOps = s.podOps := rfl
@[simp] theorem State.updIsland_podNext (s : State) (c i : Nat) (g : Island → Island) :
    (s.updIsland c i g).podNext = s.podNext := rfl
@[simp] theorem State.updIsland_ports (s : State) (c i : Nat) (g : Island → Island) :
    (s.updIsland c i g).ports = s.ports := rfl
@[simp] theorem State.updIsland_early (s : State) (c i : Nat) (g : Island → Island) :
    (s.updIsland c i g).early = s.early := rfl
@[simp] theorem State.updIsland_combs (s : State) (c i : Nat) (g : Island → Island) :
    (s.updIsland c i g).combs = s.combs := rfl
@[simp] theorem State.updIsland_sent (s : State) (c i : Nat) (g : Island → Island) :
    (s.updIsland c i g).sent = s.sent := rfl
@[simp] theorem State.updIsland_treeOut (s : State) (c i : Nat) (g : Island → Island) :
    (s.updIsland c i g).treeOut = s.treeOut := rfl
@[simp] theorem State.updIsland_unsent (s : State) (c i : Nat) (g : Island → Island) :
    (s.updIsland c i g).unsent = s.unsent := rfl
@[simp] theorem State.updIsland_pci (s : State) (c i : Nat) (g : Island → Island) :
    (s.updIsland c i g).pci = s.pci := rfl
@[simp] theorem State.updIsland_timedOut (s : State) (c i : Nat) (g : Island → Island) :
    (s.updIsland c i g).timedOut = s.timedOut := rfl
@[simp] theorem State.updIsland_mbox (s : State) (c i : Nat) (g : Island → Island) :
    (s.updIsland c i g).mbox = s.mbox := rfl
@[simp] theorem State.updIsland_rel (s : State) (c i : Nat) (g : Island → Island) :
    (s.updIsland c i g).rel = s.rel := rfl
@[simp] theorem State.updIsland_asked (s : State) (c i : Nat) (g : Island → Island) :
    (s.updIsland c i g).asked = s.asked := rfl
@[simp] theorem State.updIsland_free (s : State) (c i : Nat) (g : Island → Island) :
    (s.updIsland c i g).free = s.free := rfl
@[simp] theorem State.updIsland_answer (s : State) (c i : Nat) (g : Island → Island) :
    (s.updIsland c i g).answer = s.answer := rfl

@[simp] theorem State.updSqueue_phase (s : State) (c l q : Nat) (g : SQueue → SQueue) :
    (s.updSqueue c l q g).phase = s.phase := rfl
@[simp] theorem State.updSqueue_cycle (s : State) (c l q : Nat) (g : SQueue → SQueue) :
    (s.updSqueue c l q g).cycle = s.cycle := rfl
@[simp] theorem State.updSqueue_agenda (s : State) (c l q : Nat) (g : SQueue → SQueue) :
    (s.updSqueue c l q g).agenda = s.agenda := rfl
@[simp] theorem State.updSqueue_turns (s : State) (c l q : Nat) (g : SQueue → SQueue) :
    (s.updSqueue c l q g).turns = s.turns := rfl
@[simp] theorem State.updSqueue_ctxs (s : State) (c l q : Nat) (g : SQueue → SQueue) :
    (s.updSqueue c l q g).ctxs = s.ctxs := rfl
@[simp] theorem State.updSqueue_fired (s : State) (c l q : Nat) (g : SQueue → SQueue) :
    (s.updSqueue c l q g).fired = s.fired := rfl
@[simp] theorem State.updSqueue_beats (s : State) (c l q : Nat) (g : SQueue → SQueue) :
    (s.updSqueue c l q g).beats = s.beats := rfl
@[simp] theorem State.updSqueue_busy (s : State) (c l q : Nat) (g : SQueue → SQueue) :
    (s.updSqueue c l q g).busy = s.busy := rfl
@[simp] theorem State.updSqueue_banked (s : State) (c l q : Nat) (g : SQueue → SQueue) :
    (s.updSqueue c l q g).banked = s.banked := rfl
@[simp] theorem State.updSqueue_core (s : State) (c l q : Nat) (g : SQueue → SQueue) :
    (s.updSqueue c l q g).core = s.core := rfl
@[simp] theorem State.updSqueue_node (s : State) (c l q : Nat) (g : SQueue → SQueue) :
    (s.updSqueue c l q g).node = s.node := rfl
@[simp] theorem State.updSqueue_mem (s : State) (c l q : Nat) (g : SQueue → SQueue) :
    (s.updSqueue c l q g).mem = s.mem := rfl
@[simp] theorem State.updSqueue_sram (s : State) (c l q : Nat) (g : SQueue → SQueue) :
    (s.updSqueue c l q g).sram = s.sram := rfl
@[simp] theorem State.updSqueue_outside (s : State) (c l q : Nat) (g : SQueue → SQueue) :
    (s.updSqueue c l q g).outside = s.outside := rfl
@[simp] theorem State.updSqueue_outBars (s : State) (c l q : Nat) (g : SQueue → SQueue) :
    (s.updSqueue c l q g).outBars = s.outBars := rfl
@[simp] theorem State.updSqueue_regs (s : State) (c l q : Nat) (g : SQueue → SQueue) :
    (s.updSqueue c l q g).regs = s.regs := rfl
@[simp] theorem State.updSqueue_threads (s : State) (c l q : Nat) (g : SQueue → SQueue) :
    (s.updSqueue c l q g).threads = s.threads := rfl
@[simp] theorem State.updSqueue_saved (s : State) (c l q : Nat) (g : SQueue → SQueue) :
    (s.updSqueue c l q g).saved = s.saved := rfl
@[simp] theorem State.updSqueue_savedTab (s : State) (c l q : Nat) (g : SQueue → SQueue) :
    (s.updSqueue c l q g).savedTab = s.savedTab := rfl
@[simp] theorem State.updSqueue_dies (s : State) (c l q : Nat) (g : SQueue → SQueue) :
    (s.updSqueue c l q g).dies = s.dies := rfl
@[simp] theorem State.updSqueue_waiting (s : State) (c l q : Nat) (g : SQueue → SQueue) :
    (s.updSqueue c l q g).waiting = s.waiting := rfl
@[simp] theorem State.updSqueue_tlb (s : State) (c l q : Nat) (g : SQueue → SQueue) :
    (s.updSqueue c l q g).tlb = s.tlb := rfl
@[simp] theorem State.updSqueue_lqs (s : State) (c l q : Nat) (g : SQueue → SQueue) :
    (s.updSqueue c l q g).lqs = s.lqs := rfl
@[simp] theorem State.updSqueue_launches (s : State) (c l q : Nat) (g : SQueue → SQueue) :
    (s.updSqueue c l q g).launches = s.launches := rfl
@[simp] theorem State.updSqueue_closing (s : State) (c l q : Nat) (g : SQueue → SQueue) :
    (s.updSqueue c l q g).closing = s.closing := rfl
@[simp] theorem State.updSqueue_left (s : State) (c l q : Nat) (g : SQueue → SQueue) :
    (s.updSqueue c l q g).left = s.left := rfl
@[simp] theorem State.updSqueue_credits (s : State) (c l q : Nat) (g : SQueue → SQueue) :
    (s.updSqueue c l q g).credits = s.credits := rfl
@[simp] theorem State.updSqueue_lastQ (s : State) (c l q : Nat) (g : SQueue → SQueue) :
    (s.updSqueue c l q g).lastQ = s.lastQ := rfl
@[simp] theorem State.updSqueue_seqs (s : State) (c l q : Nat) (g : SQueue → SQueue) :
    (s.updSqueue c l q g).seqs = s.seqs := rfl
@[simp] theorem State.updSqueue_wins (s : State) (c l q : Nat) (g : SQueue → SQueue) :
    (s.updSqueue c l q g).wins = s.wins := rfl
@[simp] theorem State.updSqueue_kvCopies (s : State) (c l q : Nat) (g : SQueue → SQueue) :
    (s.updSqueue c l q g).kvCopies = s.kvCopies := rfl
@[simp] theorem State.updSqueue_kvNext (s : State) (c l q : Nat) (g : SQueue → SQueue) :
    (s.updSqueue c l q g).kvNext = s.kvNext := rfl
@[simp] theorem State.updSqueue_podBars (s : State) (c l q : Nat) (g : SQueue → SQueue) :
    (s.updSqueue c l q g).podBars = s.podBars := rfl
@[simp] theorem State.updSqueue_podOps (s : State) (c l q : Nat) (g : SQueue → SQueue) :
    (s.updSqueue c l q g).podOps = s.podOps := rfl
@[simp] theorem State.updSqueue_podNext (s : State) (c l q : Nat) (g : SQueue → SQueue) :
    (s.updSqueue c l q g).podNext = s.podNext := rfl
@[simp] theorem State.updSqueue_ports (s : State) (c l q : Nat) (g : SQueue → SQueue) :
    (s.updSqueue c l q g).ports = s.ports := rfl
@[simp] theorem State.updSqueue_early (s : State) (c l q : Nat) (g : SQueue → SQueue) :
    (s.updSqueue c l q g).early = s.early := rfl
@[simp] theorem State.updSqueue_combs (s : State) (c l q : Nat) (g : SQueue → SQueue) :
    (s.updSqueue c l q g).combs = s.combs := rfl
@[simp] theorem State.updSqueue_sent (s : State) (c l q : Nat) (g : SQueue → SQueue) :
    (s.updSqueue c l q g).sent = s.sent := rfl
@[simp] theorem State.updSqueue_treeOut (s : State) (c l q : Nat) (g : SQueue → SQueue) :
    (s.updSqueue c l q g).treeOut = s.treeOut := rfl
@[simp] theorem State.updSqueue_unsent (s : State) (c l q : Nat) (g : SQueue → SQueue) :
    (s.updSqueue c l q g).unsent = s.unsent := rfl
@[simp] theorem State.updSqueue_pci (s : State) (c l q : Nat) (g : SQueue → SQueue) :
    (s.updSqueue c l q g).pci = s.pci := rfl
@[simp] theorem State.updSqueue_timedOut (s : State) (c l q : Nat) (g : SQueue → SQueue) :
    (s.updSqueue c l q g).timedOut = s.timedOut := rfl
@[simp] theorem State.updSqueue_mbox (s : State) (c l q : Nat) (g : SQueue → SQueue) :
    (s.updSqueue c l q g).mbox = s.mbox := rfl
@[simp] theorem State.updSqueue_rel (s : State) (c l q : Nat) (g : SQueue → SQueue) :
    (s.updSqueue c l q g).rel = s.rel := rfl
@[simp] theorem State.updSqueue_asked (s : State) (c l q : Nat) (g : SQueue → SQueue) :
    (s.updSqueue c l q g).asked = s.asked := rfl
@[simp] theorem State.updSqueue_free (s : State) (c l q : Nat) (g : SQueue → SQueue) :
    (s.updSqueue c l q g).free = s.free := rfl
@[simp] theorem State.updSqueue_answer (s : State) (c l q : Nat) (g : SQueue → SQueue) :
    (s.updSqueue c l q g).answer = s.answer := rfl

@[simp] theorem State.updStreamer_phase (s : State) (c l : Nat) (g : Streamer → Streamer) :
    (s.updStreamer c l g).phase = s.phase := rfl
@[simp] theorem State.updStreamer_cycle (s : State) (c l : Nat) (g : Streamer → Streamer) :
    (s.updStreamer c l g).cycle = s.cycle := rfl
@[simp] theorem State.updStreamer_agenda (s : State) (c l : Nat) (g : Streamer → Streamer) :
    (s.updStreamer c l g).agenda = s.agenda := rfl
@[simp] theorem State.updStreamer_turns (s : State) (c l : Nat) (g : Streamer → Streamer) :
    (s.updStreamer c l g).turns = s.turns := rfl
@[simp] theorem State.updStreamer_ctxs (s : State) (c l : Nat) (g : Streamer → Streamer) :
    (s.updStreamer c l g).ctxs = s.ctxs := rfl
@[simp] theorem State.updStreamer_fired (s : State) (c l : Nat) (g : Streamer → Streamer) :
    (s.updStreamer c l g).fired = s.fired := rfl
@[simp] theorem State.updStreamer_beats (s : State) (c l : Nat) (g : Streamer → Streamer) :
    (s.updStreamer c l g).beats = s.beats := rfl
@[simp] theorem State.updStreamer_busy (s : State) (c l : Nat) (g : Streamer → Streamer) :
    (s.updStreamer c l g).busy = s.busy := rfl
@[simp] theorem State.updStreamer_banked (s : State) (c l : Nat) (g : Streamer → Streamer) :
    (s.updStreamer c l g).banked = s.banked := rfl
@[simp] theorem State.updStreamer_core (s : State) (c l : Nat) (g : Streamer → Streamer) :
    (s.updStreamer c l g).core = s.core := rfl
@[simp] theorem State.updStreamer_node (s : State) (c l : Nat) (g : Streamer → Streamer) :
    (s.updStreamer c l g).node = s.node := rfl
@[simp] theorem State.updStreamer_mem (s : State) (c l : Nat) (g : Streamer → Streamer) :
    (s.updStreamer c l g).mem = s.mem := rfl
@[simp] theorem State.updStreamer_sram (s : State) (c l : Nat) (g : Streamer → Streamer) :
    (s.updStreamer c l g).sram = s.sram := rfl
@[simp] theorem State.updStreamer_outside (s : State) (c l : Nat) (g : Streamer → Streamer) :
    (s.updStreamer c l g).outside = s.outside := rfl
@[simp] theorem State.updStreamer_outBars (s : State) (c l : Nat) (g : Streamer → Streamer) :
    (s.updStreamer c l g).outBars = s.outBars := rfl
@[simp] theorem State.updStreamer_regs (s : State) (c l : Nat) (g : Streamer → Streamer) :
    (s.updStreamer c l g).regs = s.regs := rfl
@[simp] theorem State.updStreamer_threads (s : State) (c l : Nat) (g : Streamer → Streamer) :
    (s.updStreamer c l g).threads = s.threads := rfl
@[simp] theorem State.updStreamer_saved (s : State) (c l : Nat) (g : Streamer → Streamer) :
    (s.updStreamer c l g).saved = s.saved := rfl
@[simp] theorem State.updStreamer_savedTab (s : State) (c l : Nat) (g : Streamer → Streamer) :
    (s.updStreamer c l g).savedTab = s.savedTab := rfl
@[simp] theorem State.updStreamer_dies (s : State) (c l : Nat) (g : Streamer → Streamer) :
    (s.updStreamer c l g).dies = s.dies := rfl
@[simp] theorem State.updStreamer_waiting (s : State) (c l : Nat) (g : Streamer → Streamer) :
    (s.updStreamer c l g).waiting = s.waiting := rfl
@[simp] theorem State.updStreamer_tlb (s : State) (c l : Nat) (g : Streamer → Streamer) :
    (s.updStreamer c l g).tlb = s.tlb := rfl
@[simp] theorem State.updStreamer_lqs (s : State) (c l : Nat) (g : Streamer → Streamer) :
    (s.updStreamer c l g).lqs = s.lqs := rfl
@[simp] theorem State.updStreamer_launches (s : State) (c l : Nat) (g : Streamer → Streamer) :
    (s.updStreamer c l g).launches = s.launches := rfl
@[simp] theorem State.updStreamer_closing (s : State) (c l : Nat) (g : Streamer → Streamer) :
    (s.updStreamer c l g).closing = s.closing := rfl
@[simp] theorem State.updStreamer_left (s : State) (c l : Nat) (g : Streamer → Streamer) :
    (s.updStreamer c l g).left = s.left := rfl
@[simp] theorem State.updStreamer_credits (s : State) (c l : Nat) (g : Streamer → Streamer) :
    (s.updStreamer c l g).credits = s.credits := rfl
@[simp] theorem State.updStreamer_lastQ (s : State) (c l : Nat) (g : Streamer → Streamer) :
    (s.updStreamer c l g).lastQ = s.lastQ := rfl
@[simp] theorem State.updStreamer_seqs (s : State) (c l : Nat) (g : Streamer → Streamer) :
    (s.updStreamer c l g).seqs = s.seqs := rfl
@[simp] theorem State.updStreamer_wins (s : State) (c l : Nat) (g : Streamer → Streamer) :
    (s.updStreamer c l g).wins = s.wins := rfl
@[simp] theorem State.updStreamer_kvCopies (s : State) (c l : Nat) (g : Streamer → Streamer) :
    (s.updStreamer c l g).kvCopies = s.kvCopies := rfl
@[simp] theorem State.updStreamer_kvNext (s : State) (c l : Nat) (g : Streamer → Streamer) :
    (s.updStreamer c l g).kvNext = s.kvNext := rfl
@[simp] theorem State.updStreamer_podBars (s : State) (c l : Nat) (g : Streamer → Streamer) :
    (s.updStreamer c l g).podBars = s.podBars := rfl
@[simp] theorem State.updStreamer_podOps (s : State) (c l : Nat) (g : Streamer → Streamer) :
    (s.updStreamer c l g).podOps = s.podOps := rfl
@[simp] theorem State.updStreamer_podNext (s : State) (c l : Nat) (g : Streamer → Streamer) :
    (s.updStreamer c l g).podNext = s.podNext := rfl
@[simp] theorem State.updStreamer_ports (s : State) (c l : Nat) (g : Streamer → Streamer) :
    (s.updStreamer c l g).ports = s.ports := rfl
@[simp] theorem State.updStreamer_early (s : State) (c l : Nat) (g : Streamer → Streamer) :
    (s.updStreamer c l g).early = s.early := rfl
@[simp] theorem State.updStreamer_combs (s : State) (c l : Nat) (g : Streamer → Streamer) :
    (s.updStreamer c l g).combs = s.combs := rfl
@[simp] theorem State.updStreamer_sent (s : State) (c l : Nat) (g : Streamer → Streamer) :
    (s.updStreamer c l g).sent = s.sent := rfl
@[simp] theorem State.updStreamer_treeOut (s : State) (c l : Nat) (g : Streamer → Streamer) :
    (s.updStreamer c l g).treeOut = s.treeOut := rfl
@[simp] theorem State.updStreamer_unsent (s : State) (c l : Nat) (g : Streamer → Streamer) :
    (s.updStreamer c l g).unsent = s.unsent := rfl
@[simp] theorem State.updStreamer_pci (s : State) (c l : Nat) (g : Streamer → Streamer) :
    (s.updStreamer c l g).pci = s.pci := rfl
@[simp] theorem State.updStreamer_timedOut (s : State) (c l : Nat) (g : Streamer → Streamer) :
    (s.updStreamer c l g).timedOut = s.timedOut := rfl
@[simp] theorem State.updStreamer_mbox (s : State) (c l : Nat) (g : Streamer → Streamer) :
    (s.updStreamer c l g).mbox = s.mbox := rfl
@[simp] theorem State.updStreamer_rel (s : State) (c l : Nat) (g : Streamer → Streamer) :
    (s.updStreamer c l g).rel = s.rel := rfl
@[simp] theorem State.updStreamer_asked (s : State) (c l : Nat) (g : Streamer → Streamer) :
    (s.updStreamer c l g).asked = s.asked := rfl
@[simp] theorem State.updStreamer_free (s : State) (c l : Nat) (g : Streamer → Streamer) :
    (s.updStreamer c l g).free = s.free := rfl
@[simp] theorem State.updStreamer_answer (s : State) (c l : Nat) (g : Streamer → Streamer) :
    (s.updStreamer c l g).answer = s.answer := rfl

@[simp] theorem updCurdSlot_phase (s : State) (c i : Nat) (g : CurdSlot → CurdSlot) :
    (updCurdSlot s c i g).phase = s.phase := rfl
@[simp] theorem updCurdSlot_cycle (s : State) (c i : Nat) (g : CurdSlot → CurdSlot) :
    (updCurdSlot s c i g).cycle = s.cycle := rfl
@[simp] theorem updCurdSlot_agenda (s : State) (c i : Nat) (g : CurdSlot → CurdSlot) :
    (updCurdSlot s c i g).agenda = s.agenda := rfl
@[simp] theorem updCurdSlot_turns (s : State) (c i : Nat) (g : CurdSlot → CurdSlot) :
    (updCurdSlot s c i g).turns = s.turns := rfl
@[simp] theorem updCurdSlot_ctxs (s : State) (c i : Nat) (g : CurdSlot → CurdSlot) :
    (updCurdSlot s c i g).ctxs = s.ctxs := rfl
@[simp] theorem updCurdSlot_fired (s : State) (c i : Nat) (g : CurdSlot → CurdSlot) :
    (updCurdSlot s c i g).fired = s.fired := rfl
@[simp] theorem updCurdSlot_beats (s : State) (c i : Nat) (g : CurdSlot → CurdSlot) :
    (updCurdSlot s c i g).beats = s.beats := rfl
@[simp] theorem updCurdSlot_busy (s : State) (c i : Nat) (g : CurdSlot → CurdSlot) :
    (updCurdSlot s c i g).busy = s.busy := rfl
@[simp] theorem updCurdSlot_banked (s : State) (c i : Nat) (g : CurdSlot → CurdSlot) :
    (updCurdSlot s c i g).banked = s.banked := rfl
@[simp] theorem updCurdSlot_core (s : State) (c i : Nat) (g : CurdSlot → CurdSlot) :
    (updCurdSlot s c i g).core = s.core := rfl
@[simp] theorem updCurdSlot_node (s : State) (c i : Nat) (g : CurdSlot → CurdSlot) :
    (updCurdSlot s c i g).node = s.node := rfl
@[simp] theorem updCurdSlot_mem (s : State) (c i : Nat) (g : CurdSlot → CurdSlot) :
    (updCurdSlot s c i g).mem = s.mem := rfl
@[simp] theorem updCurdSlot_sram (s : State) (c i : Nat) (g : CurdSlot → CurdSlot) :
    (updCurdSlot s c i g).sram = s.sram := rfl
@[simp] theorem updCurdSlot_outside (s : State) (c i : Nat) (g : CurdSlot → CurdSlot) :
    (updCurdSlot s c i g).outside = s.outside := rfl
@[simp] theorem updCurdSlot_outBars (s : State) (c i : Nat) (g : CurdSlot → CurdSlot) :
    (updCurdSlot s c i g).outBars = s.outBars := rfl
@[simp] theorem updCurdSlot_regs (s : State) (c i : Nat) (g : CurdSlot → CurdSlot) :
    (updCurdSlot s c i g).regs = s.regs := rfl
@[simp] theorem updCurdSlot_threads (s : State) (c i : Nat) (g : CurdSlot → CurdSlot) :
    (updCurdSlot s c i g).threads = s.threads := rfl
@[simp] theorem updCurdSlot_saved (s : State) (c i : Nat) (g : CurdSlot → CurdSlot) :
    (updCurdSlot s c i g).saved = s.saved := rfl
@[simp] theorem updCurdSlot_savedTab (s : State) (c i : Nat) (g : CurdSlot → CurdSlot) :
    (updCurdSlot s c i g).savedTab = s.savedTab := rfl
@[simp] theorem updCurdSlot_dies (s : State) (c i : Nat) (g : CurdSlot → CurdSlot) :
    (updCurdSlot s c i g).dies = s.dies := rfl
@[simp] theorem updCurdSlot_waiting (s : State) (c i : Nat) (g : CurdSlot → CurdSlot) :
    (updCurdSlot s c i g).waiting = s.waiting := rfl
@[simp] theorem updCurdSlot_tlb (s : State) (c i : Nat) (g : CurdSlot → CurdSlot) :
    (updCurdSlot s c i g).tlb = s.tlb := rfl
@[simp] theorem updCurdSlot_lqs (s : State) (c i : Nat) (g : CurdSlot → CurdSlot) :
    (updCurdSlot s c i g).lqs = s.lqs := rfl
@[simp] theorem updCurdSlot_launches (s : State) (c i : Nat) (g : CurdSlot → CurdSlot) :
    (updCurdSlot s c i g).launches = s.launches := rfl
@[simp] theorem updCurdSlot_closing (s : State) (c i : Nat) (g : CurdSlot → CurdSlot) :
    (updCurdSlot s c i g).closing = s.closing := rfl
@[simp] theorem updCurdSlot_left (s : State) (c i : Nat) (g : CurdSlot → CurdSlot) :
    (updCurdSlot s c i g).left = s.left := rfl
@[simp] theorem updCurdSlot_credits (s : State) (c i : Nat) (g : CurdSlot → CurdSlot) :
    (updCurdSlot s c i g).credits = s.credits := rfl
@[simp] theorem updCurdSlot_lastQ (s : State) (c i : Nat) (g : CurdSlot → CurdSlot) :
    (updCurdSlot s c i g).lastQ = s.lastQ := rfl
@[simp] theorem updCurdSlot_seqs (s : State) (c i : Nat) (g : CurdSlot → CurdSlot) :
    (updCurdSlot s c i g).seqs = s.seqs := rfl
@[simp] theorem updCurdSlot_wins (s : State) (c i : Nat) (g : CurdSlot → CurdSlot) :
    (updCurdSlot s c i g).wins = s.wins := rfl
@[simp] theorem updCurdSlot_kvCopies (s : State) (c i : Nat) (g : CurdSlot → CurdSlot) :
    (updCurdSlot s c i g).kvCopies = s.kvCopies := rfl
@[simp] theorem updCurdSlot_kvNext (s : State) (c i : Nat) (g : CurdSlot → CurdSlot) :
    (updCurdSlot s c i g).kvNext = s.kvNext := rfl
@[simp] theorem updCurdSlot_podBars (s : State) (c i : Nat) (g : CurdSlot → CurdSlot) :
    (updCurdSlot s c i g).podBars = s.podBars := rfl
@[simp] theorem updCurdSlot_podOps (s : State) (c i : Nat) (g : CurdSlot → CurdSlot) :
    (updCurdSlot s c i g).podOps = s.podOps := rfl
@[simp] theorem updCurdSlot_podNext (s : State) (c i : Nat) (g : CurdSlot → CurdSlot) :
    (updCurdSlot s c i g).podNext = s.podNext := rfl
@[simp] theorem updCurdSlot_ports (s : State) (c i : Nat) (g : CurdSlot → CurdSlot) :
    (updCurdSlot s c i g).ports = s.ports := rfl
@[simp] theorem updCurdSlot_early (s : State) (c i : Nat) (g : CurdSlot → CurdSlot) :
    (updCurdSlot s c i g).early = s.early := rfl
@[simp] theorem updCurdSlot_combs (s : State) (c i : Nat) (g : CurdSlot → CurdSlot) :
    (updCurdSlot s c i g).combs = s.combs := rfl
@[simp] theorem updCurdSlot_sent (s : State) (c i : Nat) (g : CurdSlot → CurdSlot) :
    (updCurdSlot s c i g).sent = s.sent := rfl
@[simp] theorem updCurdSlot_treeOut (s : State) (c i : Nat) (g : CurdSlot → CurdSlot) :
    (updCurdSlot s c i g).treeOut = s.treeOut := rfl
@[simp] theorem updCurdSlot_unsent (s : State) (c i : Nat) (g : CurdSlot → CurdSlot) :
    (updCurdSlot s c i g).unsent = s.unsent := rfl
@[simp] theorem updCurdSlot_pci (s : State) (c i : Nat) (g : CurdSlot → CurdSlot) :
    (updCurdSlot s c i g).pci = s.pci := rfl
@[simp] theorem updCurdSlot_timedOut (s : State) (c i : Nat) (g : CurdSlot → CurdSlot) :
    (updCurdSlot s c i g).timedOut = s.timedOut := rfl
@[simp] theorem updCurdSlot_mbox (s : State) (c i : Nat) (g : CurdSlot → CurdSlot) :
    (updCurdSlot s c i g).mbox = s.mbox := rfl
@[simp] theorem updCurdSlot_rel (s : State) (c i : Nat) (g : CurdSlot → CurdSlot) :
    (updCurdSlot s c i g).rel = s.rel := rfl
@[simp] theorem updCurdSlot_asked (s : State) (c i : Nat) (g : CurdSlot → CurdSlot) :
    (updCurdSlot s c i g).asked = s.asked := rfl
@[simp] theorem updCurdSlot_free (s : State) (c i : Nat) (g : CurdSlot → CurdSlot) :
    (updCurdSlot s c i g).free = s.free := rfl
@[simp] theorem updCurdSlot_answer (s : State) (c i : Nat) (g : CurdSlot → CurdSlot) :
    (updCurdSlot s c i g).answer = s.answer := rfl

@[simp] theorem updCastSlot_phase (s : State) (c : Nat) (g : CastSlot → CastSlot) :
    (updCastSlot s c g).phase = s.phase := rfl
@[simp] theorem updCastSlot_cycle (s : State) (c : Nat) (g : CastSlot → CastSlot) :
    (updCastSlot s c g).cycle = s.cycle := rfl
@[simp] theorem updCastSlot_agenda (s : State) (c : Nat) (g : CastSlot → CastSlot) :
    (updCastSlot s c g).agenda = s.agenda := rfl
@[simp] theorem updCastSlot_turns (s : State) (c : Nat) (g : CastSlot → CastSlot) :
    (updCastSlot s c g).turns = s.turns := rfl
@[simp] theorem updCastSlot_ctxs (s : State) (c : Nat) (g : CastSlot → CastSlot) :
    (updCastSlot s c g).ctxs = s.ctxs := rfl
@[simp] theorem updCastSlot_fired (s : State) (c : Nat) (g : CastSlot → CastSlot) :
    (updCastSlot s c g).fired = s.fired := rfl
@[simp] theorem updCastSlot_beats (s : State) (c : Nat) (g : CastSlot → CastSlot) :
    (updCastSlot s c g).beats = s.beats := rfl
@[simp] theorem updCastSlot_busy (s : State) (c : Nat) (g : CastSlot → CastSlot) :
    (updCastSlot s c g).busy = s.busy := rfl
@[simp] theorem updCastSlot_banked (s : State) (c : Nat) (g : CastSlot → CastSlot) :
    (updCastSlot s c g).banked = s.banked := rfl
@[simp] theorem updCastSlot_core (s : State) (c : Nat) (g : CastSlot → CastSlot) :
    (updCastSlot s c g).core = s.core := rfl
@[simp] theorem updCastSlot_node (s : State) (c : Nat) (g : CastSlot → CastSlot) :
    (updCastSlot s c g).node = s.node := rfl
@[simp] theorem updCastSlot_mem (s : State) (c : Nat) (g : CastSlot → CastSlot) :
    (updCastSlot s c g).mem = s.mem := rfl
@[simp] theorem updCastSlot_sram (s : State) (c : Nat) (g : CastSlot → CastSlot) :
    (updCastSlot s c g).sram = s.sram := rfl
@[simp] theorem updCastSlot_outside (s : State) (c : Nat) (g : CastSlot → CastSlot) :
    (updCastSlot s c g).outside = s.outside := rfl
@[simp] theorem updCastSlot_outBars (s : State) (c : Nat) (g : CastSlot → CastSlot) :
    (updCastSlot s c g).outBars = s.outBars := rfl
@[simp] theorem updCastSlot_regs (s : State) (c : Nat) (g : CastSlot → CastSlot) :
    (updCastSlot s c g).regs = s.regs := rfl
@[simp] theorem updCastSlot_threads (s : State) (c : Nat) (g : CastSlot → CastSlot) :
    (updCastSlot s c g).threads = s.threads := rfl
@[simp] theorem updCastSlot_saved (s : State) (c : Nat) (g : CastSlot → CastSlot) :
    (updCastSlot s c g).saved = s.saved := rfl
@[simp] theorem updCastSlot_savedTab (s : State) (c : Nat) (g : CastSlot → CastSlot) :
    (updCastSlot s c g).savedTab = s.savedTab := rfl
@[simp] theorem updCastSlot_dies (s : State) (c : Nat) (g : CastSlot → CastSlot) :
    (updCastSlot s c g).dies = s.dies := rfl
@[simp] theorem updCastSlot_waiting (s : State) (c : Nat) (g : CastSlot → CastSlot) :
    (updCastSlot s c g).waiting = s.waiting := rfl
@[simp] theorem updCastSlot_tlb (s : State) (c : Nat) (g : CastSlot → CastSlot) :
    (updCastSlot s c g).tlb = s.tlb := rfl
@[simp] theorem updCastSlot_lqs (s : State) (c : Nat) (g : CastSlot → CastSlot) :
    (updCastSlot s c g).lqs = s.lqs := rfl
@[simp] theorem updCastSlot_launches (s : State) (c : Nat) (g : CastSlot → CastSlot) :
    (updCastSlot s c g).launches = s.launches := rfl
@[simp] theorem updCastSlot_closing (s : State) (c : Nat) (g : CastSlot → CastSlot) :
    (updCastSlot s c g).closing = s.closing := rfl
@[simp] theorem updCastSlot_left (s : State) (c : Nat) (g : CastSlot → CastSlot) :
    (updCastSlot s c g).left = s.left := rfl
@[simp] theorem updCastSlot_credits (s : State) (c : Nat) (g : CastSlot → CastSlot) :
    (updCastSlot s c g).credits = s.credits := rfl
@[simp] theorem updCastSlot_lastQ (s : State) (c : Nat) (g : CastSlot → CastSlot) :
    (updCastSlot s c g).lastQ = s.lastQ := rfl
@[simp] theorem updCastSlot_seqs (s : State) (c : Nat) (g : CastSlot → CastSlot) :
    (updCastSlot s c g).seqs = s.seqs := rfl
@[simp] theorem updCastSlot_wins (s : State) (c : Nat) (g : CastSlot → CastSlot) :
    (updCastSlot s c g).wins = s.wins := rfl
@[simp] theorem updCastSlot_kvCopies (s : State) (c : Nat) (g : CastSlot → CastSlot) :
    (updCastSlot s c g).kvCopies = s.kvCopies := rfl
@[simp] theorem updCastSlot_kvNext (s : State) (c : Nat) (g : CastSlot → CastSlot) :
    (updCastSlot s c g).kvNext = s.kvNext := rfl
@[simp] theorem updCastSlot_podBars (s : State) (c : Nat) (g : CastSlot → CastSlot) :
    (updCastSlot s c g).podBars = s.podBars := rfl
@[simp] theorem updCastSlot_podOps (s : State) (c : Nat) (g : CastSlot → CastSlot) :
    (updCastSlot s c g).podOps = s.podOps := rfl
@[simp] theorem updCastSlot_podNext (s : State) (c : Nat) (g : CastSlot → CastSlot) :
    (updCastSlot s c g).podNext = s.podNext := rfl
@[simp] theorem updCastSlot_ports (s : State) (c : Nat) (g : CastSlot → CastSlot) :
    (updCastSlot s c g).ports = s.ports := rfl
@[simp] theorem updCastSlot_early (s : State) (c : Nat) (g : CastSlot → CastSlot) :
    (updCastSlot s c g).early = s.early := rfl
@[simp] theorem updCastSlot_combs (s : State) (c : Nat) (g : CastSlot → CastSlot) :
    (updCastSlot s c g).combs = s.combs := rfl
@[simp] theorem updCastSlot_sent (s : State) (c : Nat) (g : CastSlot → CastSlot) :
    (updCastSlot s c g).sent = s.sent := rfl
@[simp] theorem updCastSlot_treeOut (s : State) (c : Nat) (g : CastSlot → CastSlot) :
    (updCastSlot s c g).treeOut = s.treeOut := rfl
@[simp] theorem updCastSlot_unsent (s : State) (c : Nat) (g : CastSlot → CastSlot) :
    (updCastSlot s c g).unsent = s.unsent := rfl
@[simp] theorem updCastSlot_pci (s : State) (c : Nat) (g : CastSlot → CastSlot) :
    (updCastSlot s c g).pci = s.pci := rfl
@[simp] theorem updCastSlot_timedOut (s : State) (c : Nat) (g : CastSlot → CastSlot) :
    (updCastSlot s c g).timedOut = s.timedOut := rfl
@[simp] theorem updCastSlot_mbox (s : State) (c : Nat) (g : CastSlot → CastSlot) :
    (updCastSlot s c g).mbox = s.mbox := rfl
@[simp] theorem updCastSlot_rel (s : State) (c : Nat) (g : CastSlot → CastSlot) :
    (updCastSlot s c g).rel = s.rel := rfl
@[simp] theorem updCastSlot_asked (s : State) (c : Nat) (g : CastSlot → CastSlot) :
    (updCastSlot s c g).asked = s.asked := rfl
@[simp] theorem updCastSlot_free (s : State) (c : Nat) (g : CastSlot → CastSlot) :
    (updCastSlot s c g).free = s.free := rfl
@[simp] theorem updCastSlot_answer (s : State) (c : Nat) (g : CastSlot → CastSlot) :
    (updCastSlot s c g).answer = s.answer := rfl

theorem State.island_updIsland (s : State) (c i : Nat) (g : Island → Island) :
    (s.updIsland c i g).island c i = g (s.island c i) := by
  simp [State.updIsland, State.island, State.cluster_updCluster, tabUpd, tabGet_tabPut_self]
theorem State.squeue_updSqueue (s : State) (c l q : Nat) (g : SQueue → SQueue) :
    (s.updSqueue c l q g).squeue c l q = g (s.squeue c l q) := by
  simp [State.updSqueue, State.squeue, State.cluster_updCluster, tabUpd, tabGet_tabPut_self]
theorem State.streamer_updStreamer (s : State) (c l : Nat) (g : Streamer → Streamer) :
    (s.updStreamer c l g).streamer c l = g (s.streamer c l) := by
  simp [State.updStreamer, State.streamer, State.cluster_updCluster, tabUpd, tabGet_tabPut_self]
theorem curdSlot_updCurdSlot (s : State) (c i : Nat) (g : CurdSlot → CurdSlot) :
    curdSlot (updCurdSlot s c i g) c i = g (curdSlot s c i) := by
  simp [updCurdSlot, curdSlot, State.cluster_updCluster, tabUpd, tabGet_tabPut_self]
theorem castSlot_updCastSlot (s : State) (c : Nat) (g : CastSlot → CastSlot) :
    castSlot (updCastSlot s c g) c = g (castSlot s c) := by
  simp [updCastSlot, castSlot, State.cluster_updCluster, tabUpd, tabGet_tabPut_self]

/-! ## Dies, queues, entries in memory -/

@[simp] theorem State.updDie_phase (s : State) (d : Nat) (g : Die → Die) : (s.updDie d g).phase = s.phase := rfl
@[simp] theorem State.updDie_cycle (s : State) (d : Nat) (g : Die → Die) : (s.updDie d g).cycle = s.cycle := rfl
@[simp] theorem State.updDie_agenda (s : State) (d : Nat) (g : Die → Die) : (s.updDie d g).agenda = s.agenda := rfl
@[simp] theorem State.updDie_turns (s : State) (d : Nat) (g : Die → Die) : (s.updDie d g).turns = s.turns := rfl
@[simp] theorem State.updDie_ctxs (s : State) (d : Nat) (g : Die → Die) : (s.updDie d g).ctxs = s.ctxs := rfl
@[simp] theorem State.updDie_fired (s : State) (d : Nat) (g : Die → Die) : (s.updDie d g).fired = s.fired := rfl
@[simp] theorem State.updDie_beats (s : State) (d : Nat) (g : Die → Die) : (s.updDie d g).beats = s.beats := rfl
@[simp] theorem State.updDie_busy (s : State) (d : Nat) (g : Die → Die) : (s.updDie d g).busy = s.busy := rfl
@[simp] theorem State.updDie_banked (s : State) (d : Nat) (g : Die → Die) : (s.updDie d g).banked = s.banked := rfl
@[simp] theorem State.updDie_core (s : State) (d : Nat) (g : Die → Die) : (s.updDie d g).core = s.core := rfl
@[simp] theorem State.updDie_node (s : State) (d : Nat) (g : Die → Die) : (s.updDie d g).node = s.node := rfl
@[simp] theorem State.updDie_mem (s : State) (d : Nat) (g : Die → Die) : (s.updDie d g).mem = s.mem := rfl
@[simp] theorem State.updDie_sram (s : State) (d : Nat) (g : Die → Die) : (s.updDie d g).sram = s.sram := rfl
@[simp] theorem State.updDie_outside (s : State) (d : Nat) (g : Die → Die) : (s.updDie d g).outside = s.outside := rfl
@[simp] theorem State.updDie_outBars (s : State) (d : Nat) (g : Die → Die) : (s.updDie d g).outBars = s.outBars := rfl
@[simp] theorem State.updDie_regs (s : State) (d : Nat) (g : Die → Die) : (s.updDie d g).regs = s.regs := rfl
@[simp] theorem State.updDie_threads (s : State) (d : Nat) (g : Die → Die) : (s.updDie d g).threads = s.threads := rfl
@[simp] theorem State.updDie_saved (s : State) (d : Nat) (g : Die → Die) : (s.updDie d g).saved = s.saved := rfl
@[simp] theorem State.updDie_savedTab (s : State) (d : Nat) (g : Die → Die) :
    (s.updDie d g).savedTab = s.savedTab := rfl
@[simp] theorem State.updDie_clusters (s : State) (d : Nat) (g : Die → Die) :
    (s.updDie d g).clusters = s.clusters := rfl
@[simp] theorem State.updDie_waiting (s : State) (d : Nat) (g : Die → Die) : (s.updDie d g).waiting = s.waiting := rfl
@[simp] theorem State.updDie_tlb (s : State) (d : Nat) (g : Die → Die) : (s.updDie d g).tlb = s.tlb := rfl
@[simp] theorem State.updDie_lqs (s : State) (d : Nat) (g : Die → Die) : (s.updDie d g).lqs = s.lqs := rfl
@[simp] theorem State.updDie_launches (s : State) (d : Nat) (g : Die → Die) :
    (s.updDie d g).launches = s.launches := rfl
@[simp] theorem State.updDie_closing (s : State) (d : Nat) (g : Die → Die) : (s.updDie d g).closing = s.closing := rfl
@[simp] theorem State.updDie_left (s : State) (d : Nat) (g : Die → Die) : (s.updDie d g).left = s.left := rfl
@[simp] theorem State.updDie_credits (s : State) (d : Nat) (g : Die → Die) : (s.updDie d g).credits = s.credits := rfl
@[simp] theorem State.updDie_lastQ (s : State) (d : Nat) (g : Die → Die) : (s.updDie d g).lastQ = s.lastQ := rfl
@[simp] theorem State.updDie_seqs (s : State) (d : Nat) (g : Die → Die) : (s.updDie d g).seqs = s.seqs := rfl
@[simp] theorem State.updDie_wins (s : State) (d : Nat) (g : Die → Die) : (s.updDie d g).wins = s.wins := rfl
@[simp] theorem State.updDie_kvCopies (s : State) (d : Nat) (g : Die → Die) :
    (s.updDie d g).kvCopies = s.kvCopies := rfl
@[simp] theorem State.updDie_kvNext (s : State) (d : Nat) (g : Die → Die) : (s.updDie d g).kvNext = s.kvNext := rfl
@[simp] theorem State.updDie_podBars (s : State) (d : Nat) (g : Die → Die) : (s.updDie d g).podBars = s.podBars := rfl
@[simp] theorem State.updDie_podOps (s : State) (d : Nat) (g : Die → Die) : (s.updDie d g).podOps = s.podOps := rfl
@[simp] theorem State.updDie_podNext (s : State) (d : Nat) (g : Die → Die) : (s.updDie d g).podNext = s.podNext := rfl
@[simp] theorem State.updDie_ports (s : State) (d : Nat) (g : Die → Die) : (s.updDie d g).ports = s.ports := rfl
@[simp] theorem State.updDie_early (s : State) (d : Nat) (g : Die → Die) : (s.updDie d g).early = s.early := rfl
@[simp] theorem State.updDie_combs (s : State) (d : Nat) (g : Die → Die) : (s.updDie d g).combs = s.combs := rfl
@[simp] theorem State.updDie_sent (s : State) (d : Nat) (g : Die → Die) : (s.updDie d g).sent = s.sent := rfl
@[simp] theorem State.updDie_treeOut (s : State) (d : Nat) (g : Die → Die) : (s.updDie d g).treeOut = s.treeOut := rfl
@[simp] theorem State.updDie_unsent (s : State) (d : Nat) (g : Die → Die) : (s.updDie d g).unsent = s.unsent := rfl
@[simp] theorem State.updDie_pci (s : State) (d : Nat) (g : Die → Die) : (s.updDie d g).pci = s.pci := rfl
@[simp] theorem State.updDie_timedOut (s : State) (d : Nat) (g : Die → Die) :
    (s.updDie d g).timedOut = s.timedOut := rfl
@[simp] theorem State.updDie_mbox (s : State) (d : Nat) (g : Die → Die) : (s.updDie d g).mbox = s.mbox := rfl
@[simp] theorem State.updDie_rel (s : State) (d : Nat) (g : Die → Die) : (s.updDie d g).rel = s.rel := rfl
@[simp] theorem State.updDie_asked (s : State) (d : Nat) (g : Die → Die) : (s.updDie d g).asked = s.asked := rfl
@[simp] theorem State.updDie_free (s : State) (d : Nat) (g : Die → Die) : (s.updDie d g).free = s.free := rfl
@[simp] theorem State.updDie_answer (s : State) (d : Nat) (g : Die → Die) : (s.updDie d g).answer = s.answer := rfl

@[simp] theorem State.updLq_phase (s : State) (q : Nat) (g : LQueue → LQueue) : (s.updLq q g).phase = s.phase := rfl
@[simp] theorem State.updLq_cycle (s : State) (q : Nat) (g : LQueue → LQueue) : (s.updLq q g).cycle = s.cycle := rfl
@[simp] theorem State.updLq_agenda (s : State) (q : Nat) (g : LQueue → LQueue) :
    (s.updLq q g).agenda = s.agenda := rfl
@[simp] theorem State.updLq_turns (s : State) (q : Nat) (g : LQueue → LQueue) : (s.updLq q g).turns = s.turns := rfl
@[simp] theorem State.updLq_ctxs (s : State) (q : Nat) (g : LQueue → LQueue) : (s.updLq q g).ctxs = s.ctxs := rfl
@[simp] theorem State.updLq_fired (s : State) (q : Nat) (g : LQueue → LQueue) : (s.updLq q g).fired = s.fired := rfl
@[simp] theorem State.updLq_beats (s : State) (q : Nat) (g : LQueue → LQueue) : (s.updLq q g).beats = s.beats := rfl
@[simp] theorem State.updLq_busy (s : State) (q : Nat) (g : LQueue → LQueue) : (s.updLq q g).busy = s.busy := rfl
@[simp] theorem State.updLq_banked (s : State) (q : Nat) (g : LQueue → LQueue) :
    (s.updLq q g).banked = s.banked := rfl
@[simp] theorem State.updLq_core (s : State) (q : Nat) (g : LQueue → LQueue) : (s.updLq q g).core = s.core := rfl
@[simp] theorem State.updLq_node (s : State) (q : Nat) (g : LQueue → LQueue) : (s.updLq q g).node = s.node := rfl
@[simp] theorem State.updLq_mem (s : State) (q : Nat) (g : LQueue → LQueue) : (s.updLq q g).mem = s.mem := rfl
@[simp] theorem State.updLq_sram (s : State) (q : Nat) (g : LQueue → LQueue) : (s.updLq q g).sram = s.sram := rfl
@[simp] theorem State.updLq_outside (s : State) (q : Nat) (g : LQueue → LQueue) :
    (s.updLq q g).outside = s.outside := rfl
@[simp] theorem State.updLq_outBars (s : State) (q : Nat) (g : LQueue → LQueue) :
    (s.updLq q g).outBars = s.outBars := rfl
@[simp] theorem State.updLq_regs (s : State) (q : Nat) (g : LQueue → LQueue) : (s.updLq q g).regs = s.regs := rfl
@[simp] theorem State.updLq_threads (s : State) (q : Nat) (g : LQueue → LQueue) :
    (s.updLq q g).threads = s.threads := rfl
@[simp] theorem State.updLq_saved (s : State) (q : Nat) (g : LQueue → LQueue) : (s.updLq q g).saved = s.saved := rfl
@[simp] theorem State.updLq_savedTab (s : State) (q : Nat) (g : LQueue → LQueue) :
    (s.updLq q g).savedTab = s.savedTab := rfl
@[simp] theorem State.updLq_clusters (s : State) (q : Nat) (g : LQueue → LQueue) :
    (s.updLq q g).clusters = s.clusters := rfl
@[simp] theorem State.updLq_dies (s : State) (q : Nat) (g : LQueue → LQueue) : (s.updLq q g).dies = s.dies := rfl
@[simp] theorem State.updLq_waiting (s : State) (q : Nat) (g : LQueue → LQueue) :
    (s.updLq q g).waiting = s.waiting := rfl
@[simp] theorem State.updLq_tlb (s : State) (q : Nat) (g : LQueue → LQueue) : (s.updLq q g).tlb = s.tlb := rfl
@[simp] theorem State.updLq_launches (s : State) (q : Nat) (g : LQueue → LQueue) :
    (s.updLq q g).launches = s.launches := rfl
@[simp] theorem State.updLq_closing (s : State) (q : Nat) (g : LQueue → LQueue) :
    (s.updLq q g).closing = s.closing := rfl
@[simp] theorem State.updLq_left (s : State) (q : Nat) (g : LQueue → LQueue) : (s.updLq q g).left = s.left := rfl
@[simp] theorem State.updLq_credits (s : State) (q : Nat) (g : LQueue → LQueue) :
    (s.updLq q g).credits = s.credits := rfl
@[simp] theorem State.updLq_lastQ (s : State) (q : Nat) (g : LQueue → LQueue) : (s.updLq q g).lastQ = s.lastQ := rfl
@[simp] theorem State.updLq_seqs (s : State) (q : Nat) (g : LQueue → LQueue) : (s.updLq q g).seqs = s.seqs := rfl
@[simp] theorem State.updLq_wins (s : State) (q : Nat) (g : LQueue → LQueue) : (s.updLq q g).wins = s.wins := rfl
@[simp] theorem State.updLq_kvCopies (s : State) (q : Nat) (g : LQueue → LQueue) :
    (s.updLq q g).kvCopies = s.kvCopies := rfl
@[simp] theorem State.updLq_kvNext (s : State) (q : Nat) (g : LQueue → LQueue) :
    (s.updLq q g).kvNext = s.kvNext := rfl
@[simp] theorem State.updLq_podBars (s : State) (q : Nat) (g : LQueue → LQueue) :
    (s.updLq q g).podBars = s.podBars := rfl
@[simp] theorem State.updLq_podOps (s : State) (q : Nat) (g : LQueue → LQueue) :
    (s.updLq q g).podOps = s.podOps := rfl
@[simp] theorem State.updLq_podNext (s : State) (q : Nat) (g : LQueue → LQueue) :
    (s.updLq q g).podNext = s.podNext := rfl
@[simp] theorem State.updLq_ports (s : State) (q : Nat) (g : LQueue → LQueue) : (s.updLq q g).ports = s.ports := rfl
@[simp] theorem State.updLq_early (s : State) (q : Nat) (g : LQueue → LQueue) : (s.updLq q g).early = s.early := rfl
@[simp] theorem State.updLq_combs (s : State) (q : Nat) (g : LQueue → LQueue) : (s.updLq q g).combs = s.combs := rfl
@[simp] theorem State.updLq_sent (s : State) (q : Nat) (g : LQueue → LQueue) : (s.updLq q g).sent = s.sent := rfl
@[simp] theorem State.updLq_treeOut (s : State) (q : Nat) (g : LQueue → LQueue) :
    (s.updLq q g).treeOut = s.treeOut := rfl
@[simp] theorem State.updLq_unsent (s : State) (q : Nat) (g : LQueue → LQueue) :
    (s.updLq q g).unsent = s.unsent := rfl
@[simp] theorem State.updLq_pci (s : State) (q : Nat) (g : LQueue → LQueue) : (s.updLq q g).pci = s.pci := rfl
@[simp] theorem State.updLq_timedOut (s : State) (q : Nat) (g : LQueue → LQueue) :
    (s.updLq q g).timedOut = s.timedOut := rfl
@[simp] theorem State.updLq_mbox (s : State) (q : Nat) (g : LQueue → LQueue) : (s.updLq q g).mbox = s.mbox := rfl
@[simp] theorem State.updLq_rel (s : State) (q : Nat) (g : LQueue → LQueue) : (s.updLq q g).rel = s.rel := rfl
@[simp] theorem State.updLq_asked (s : State) (q : Nat) (g : LQueue → LQueue) : (s.updLq q g).asked = s.asked := rfl
@[simp] theorem State.updLq_free (s : State) (q : Nat) (g : LQueue → LQueue) : (s.updLq q g).free = s.free := rfl
@[simp] theorem State.updLq_answer (s : State) (q : Nat) (g : LQueue → LQueue) :
    (s.updLq q g).answer = s.answer := rfl

@[simp] theorem putBytes_phase (s : State) (pa : Nat) (b : List Byte) :
    (putBytes s pa b).phase = s.phase := by
  obtain ⟨d, v, h⟩ := putBytes_lines s pa b; rw [h]
@[simp] theorem putBytes_cycle (s : State) (pa : Nat) (b : List Byte) :
    (putBytes s pa b).cycle = s.cycle := by
  obtain ⟨d, v, h⟩ := putBytes_lines s pa b; rw [h]
@[simp] theorem putBytes_agenda (s : State) (pa : Nat) (b : List Byte) :
    (putBytes s pa b).agenda = s.agenda := by
  obtain ⟨d, v, h⟩ := putBytes_lines s pa b; rw [h]
@[simp] theorem putBytes_turns (s : State) (pa : Nat) (b : List Byte) :
    (putBytes s pa b).turns = s.turns := by
  obtain ⟨d, v, h⟩ := putBytes_lines s pa b; rw [h]
@[simp] theorem putBytes_ctxs (s : State) (pa : Nat) (b : List Byte) :
    (putBytes s pa b).ctxs = s.ctxs := by
  obtain ⟨d, v, h⟩ := putBytes_lines s pa b; rw [h]
@[simp] theorem putBytes_fired (s : State) (pa : Nat) (b : List Byte) :
    (putBytes s pa b).fired = s.fired := by
  obtain ⟨d, v, h⟩ := putBytes_lines s pa b; rw [h]
@[simp] theorem putBytes_beats (s : State) (pa : Nat) (b : List Byte) :
    (putBytes s pa b).beats = s.beats := by
  obtain ⟨d, v, h⟩ := putBytes_lines s pa b; rw [h]
@[simp] theorem putBytes_busy (s : State) (pa : Nat) (b : List Byte) :
    (putBytes s pa b).busy = s.busy := by
  obtain ⟨d, v, h⟩ := putBytes_lines s pa b; rw [h]
@[simp] theorem putBytes_banked (s : State) (pa : Nat) (b : List Byte) :
    (putBytes s pa b).banked = s.banked := by
  obtain ⟨d, v, h⟩ := putBytes_lines s pa b; rw [h]
@[simp] theorem putBytes_core (s : State) (pa : Nat) (b : List Byte) :
    (putBytes s pa b).core = s.core := by
  obtain ⟨d, v, h⟩ := putBytes_lines s pa b; rw [h]
@[simp] theorem putBytes_node (s : State) (pa : Nat) (b : List Byte) :
    (putBytes s pa b).node = s.node := by
  obtain ⟨d, v, h⟩ := putBytes_lines s pa b; rw [h]
@[simp] theorem putBytes_sram (s : State) (pa : Nat) (b : List Byte) :
    (putBytes s pa b).sram = s.sram := by
  obtain ⟨d, v, h⟩ := putBytes_lines s pa b; rw [h]
@[simp] theorem putBytes_outside (s : State) (pa : Nat) (b : List Byte) :
    (putBytes s pa b).outside = s.outside := by
  obtain ⟨d, v, h⟩ := putBytes_lines s pa b; rw [h]
@[simp] theorem putBytes_outBars (s : State) (pa : Nat) (b : List Byte) :
    (putBytes s pa b).outBars = s.outBars := by
  obtain ⟨d, v, h⟩ := putBytes_lines s pa b; rw [h]
@[simp] theorem putBytes_threads (s : State) (pa : Nat) (b : List Byte) :
    (putBytes s pa b).threads = s.threads := by
  obtain ⟨d, v, h⟩ := putBytes_lines s pa b; rw [h]
@[simp] theorem putBytes_saved (s : State) (pa : Nat) (b : List Byte) :
    (putBytes s pa b).saved = s.saved := by
  obtain ⟨d, v, h⟩ := putBytes_lines s pa b; rw [h]
@[simp] theorem putBytes_savedTab (s : State) (pa : Nat) (b : List Byte) :
    (putBytes s pa b).savedTab = s.savedTab := by
  obtain ⟨d, v, h⟩ := putBytes_lines s pa b; rw [h]
@[simp] theorem putBytes_clusters (s : State) (pa : Nat) (b : List Byte) :
    (putBytes s pa b).clusters = s.clusters := by
  obtain ⟨d, v, h⟩ := putBytes_lines s pa b; rw [h]
@[simp] theorem putBytes_waiting (s : State) (pa : Nat) (b : List Byte) :
    (putBytes s pa b).waiting = s.waiting := by
  obtain ⟨d, v, h⟩ := putBytes_lines s pa b; rw [h]
@[simp] theorem putBytes_tlb (s : State) (pa : Nat) (b : List Byte) :
    (putBytes s pa b).tlb = s.tlb := by
  obtain ⟨d, v, h⟩ := putBytes_lines s pa b; rw [h]
@[simp] theorem putBytes_lqs (s : State) (pa : Nat) (b : List Byte) :
    (putBytes s pa b).lqs = s.lqs := by
  obtain ⟨d, v, h⟩ := putBytes_lines s pa b; rw [h]
@[simp] theorem putBytes_launches (s : State) (pa : Nat) (b : List Byte) :
    (putBytes s pa b).launches = s.launches := by
  obtain ⟨d, v, h⟩ := putBytes_lines s pa b; rw [h]
@[simp] theorem putBytes_closing (s : State) (pa : Nat) (b : List Byte) :
    (putBytes s pa b).closing = s.closing := by
  obtain ⟨d, v, h⟩ := putBytes_lines s pa b; rw [h]
@[simp] theorem putBytes_left (s : State) (pa : Nat) (b : List Byte) :
    (putBytes s pa b).left = s.left := by
  obtain ⟨d, v, h⟩ := putBytes_lines s pa b; rw [h]
@[simp] theorem putBytes_credits (s : State) (pa : Nat) (b : List Byte) :
    (putBytes s pa b).credits = s.credits := by
  obtain ⟨d, v, h⟩ := putBytes_lines s pa b; rw [h]
@[simp] theorem putBytes_lastQ (s : State) (pa : Nat) (b : List Byte) :
    (putBytes s pa b).lastQ = s.lastQ := by
  obtain ⟨d, v, h⟩ := putBytes_lines s pa b; rw [h]
@[simp] theorem putBytes_seqs (s : State) (pa : Nat) (b : List Byte) :
    (putBytes s pa b).seqs = s.seqs := by
  obtain ⟨d, v, h⟩ := putBytes_lines s pa b; rw [h]
@[simp] theorem putBytes_wins (s : State) (pa : Nat) (b : List Byte) :
    (putBytes s pa b).wins = s.wins := by
  obtain ⟨d, v, h⟩ := putBytes_lines s pa b; rw [h]
@[simp] theorem putBytes_kvCopies (s : State) (pa : Nat) (b : List Byte) :
    (putBytes s pa b).kvCopies = s.kvCopies := by
  obtain ⟨d, v, h⟩ := putBytes_lines s pa b; rw [h]
@[simp] theorem putBytes_kvNext (s : State) (pa : Nat) (b : List Byte) :
    (putBytes s pa b).kvNext = s.kvNext := by
  obtain ⟨d, v, h⟩ := putBytes_lines s pa b; rw [h]
@[simp] theorem putBytes_podBars (s : State) (pa : Nat) (b : List Byte) :
    (putBytes s pa b).podBars = s.podBars := by
  obtain ⟨d, v, h⟩ := putBytes_lines s pa b; rw [h]
@[simp] theorem putBytes_podOps (s : State) (pa : Nat) (b : List Byte) :
    (putBytes s pa b).podOps = s.podOps := by
  obtain ⟨d, v, h⟩ := putBytes_lines s pa b; rw [h]
@[simp] theorem putBytes_podNext (s : State) (pa : Nat) (b : List Byte) :
    (putBytes s pa b).podNext = s.podNext := by
  obtain ⟨d, v, h⟩ := putBytes_lines s pa b; rw [h]
@[simp] theorem putBytes_ports (s : State) (pa : Nat) (b : List Byte) :
    (putBytes s pa b).ports = s.ports := by
  obtain ⟨d, v, h⟩ := putBytes_lines s pa b; rw [h]
@[simp] theorem putBytes_early (s : State) (pa : Nat) (b : List Byte) :
    (putBytes s pa b).early = s.early := by
  obtain ⟨d, v, h⟩ := putBytes_lines s pa b; rw [h]
@[simp] theorem putBytes_combs (s : State) (pa : Nat) (b : List Byte) :
    (putBytes s pa b).combs = s.combs := by
  obtain ⟨d, v, h⟩ := putBytes_lines s pa b; rw [h]
@[simp] theorem putBytes_sent (s : State) (pa : Nat) (b : List Byte) :
    (putBytes s pa b).sent = s.sent := by
  obtain ⟨d, v, h⟩ := putBytes_lines s pa b; rw [h]
@[simp] theorem putBytes_treeOut (s : State) (pa : Nat) (b : List Byte) :
    (putBytes s pa b).treeOut = s.treeOut := by
  obtain ⟨d, v, h⟩ := putBytes_lines s pa b; rw [h]
@[simp] theorem putBytes_unsent (s : State) (pa : Nat) (b : List Byte) :
    (putBytes s pa b).unsent = s.unsent := by
  obtain ⟨d, v, h⟩ := putBytes_lines s pa b; rw [h]
@[simp] theorem putBytes_pci (s : State) (pa : Nat) (b : List Byte) :
    (putBytes s pa b).pci = s.pci := by
  obtain ⟨d, v, h⟩ := putBytes_lines s pa b; rw [h]
@[simp] theorem putBytes_timedOut (s : State) (pa : Nat) (b : List Byte) :
    (putBytes s pa b).timedOut = s.timedOut := by
  obtain ⟨d, v, h⟩ := putBytes_lines s pa b; rw [h]
@[simp] theorem putBytes_mbox (s : State) (pa : Nat) (b : List Byte) :
    (putBytes s pa b).mbox = s.mbox := by
  obtain ⟨d, v, h⟩ := putBytes_lines s pa b; rw [h]
@[simp] theorem putBytes_rel (s : State) (pa : Nat) (b : List Byte) :
    (putBytes s pa b).rel = s.rel := by
  obtain ⟨d, v, h⟩ := putBytes_lines s pa b; rw [h]
@[simp] theorem putBytes_asked (s : State) (pa : Nat) (b : List Byte) :
    (putBytes s pa b).asked = s.asked := by
  obtain ⟨d, v, h⟩ := putBytes_lines s pa b; rw [h]
@[simp] theorem putBytes_free (s : State) (pa : Nat) (b : List Byte) :
    (putBytes s pa b).free = s.free := by
  obtain ⟨d, v, h⟩ := putBytes_lines s pa b; rw [h]
@[simp] theorem putBytes_answer (s : State) (pa : Nat) (b : List Byte) :
    (putBytes s pa b).answer = s.answer := by
  obtain ⟨d, v, h⟩ := putBytes_lines s pa b; rw [h]

@[simp] theorem setEntry_phase (s : State) (c k v : Nat) : (setEntry s c k v).phase = s.phase := putBytes_phase ..
@[simp] theorem setEntry_cycle (s : State) (c k v : Nat) : (setEntry s c k v).cycle = s.cycle := putBytes_cycle ..
@[simp] theorem setEntry_agenda (s : State) (c k v : Nat) : (setEntry s c k v).agenda = s.agenda := putBytes_agenda ..
@[simp] theorem setEntry_turns (s : State) (c k v : Nat) : (setEntry s c k v).turns = s.turns := putBytes_turns ..
@[simp] theorem setEntry_ctxs (s : State) (c k v : Nat) : (setEntry s c k v).ctxs = s.ctxs := putBytes_ctxs ..
@[simp] theorem setEntry_fired (s : State) (c k v : Nat) : (setEntry s c k v).fired = s.fired := putBytes_fired ..
@[simp] theorem setEntry_beats (s : State) (c k v : Nat) : (setEntry s c k v).beats = s.beats := putBytes_beats ..
@[simp] theorem setEntry_busy (s : State) (c k v : Nat) : (setEntry s c k v).busy = s.busy := putBytes_busy ..
@[simp] theorem setEntry_banked (s : State) (c k v : Nat) : (setEntry s c k v).banked = s.banked := putBytes_banked ..
@[simp] theorem setEntry_core (s : State) (c k v : Nat) : (setEntry s c k v).core = s.core := putBytes_core ..
@[simp] theorem setEntry_node (s : State) (c k v : Nat) : (setEntry s c k v).node = s.node := putBytes_node ..
@[simp] theorem setEntry_sram (s : State) (c k v : Nat) : (setEntry s c k v).sram = s.sram := putBytes_sram ..
@[simp] theorem setEntry_outside (s : State) (c k v : Nat) :
    (setEntry s c k v).outside = s.outside := putBytes_outside ..
@[simp] theorem setEntry_outBars (s : State) (c k v : Nat) :
    (setEntry s c k v).outBars = s.outBars := putBytes_outBars ..
@[simp] theorem setEntry_threads (s : State) (c k v : Nat) :
    (setEntry s c k v).threads = s.threads := putBytes_threads ..
@[simp] theorem setEntry_saved (s : State) (c k v : Nat) : (setEntry s c k v).saved = s.saved := putBytes_saved ..
@[simp] theorem setEntry_savedTab (s : State) (c k v : Nat) :
    (setEntry s c k v).savedTab = s.savedTab := putBytes_savedTab ..
@[simp] theorem setEntry_clusters (s : State) (c k v : Nat) :
    (setEntry s c k v).clusters = s.clusters := putBytes_clusters ..
@[simp] theorem setEntry_waiting (s : State) (c k v : Nat) :
    (setEntry s c k v).waiting = s.waiting := putBytes_waiting ..
@[simp] theorem setEntry_tlb (s : State) (c k v : Nat) : (setEntry s c k v).tlb = s.tlb := putBytes_tlb ..
@[simp] theorem setEntry_lqs (s : State) (c k v : Nat) : (setEntry s c k v).lqs = s.lqs := putBytes_lqs ..
@[simp] theorem setEntry_launches (s : State) (c k v : Nat) :
    (setEntry s c k v).launches = s.launches := putBytes_launches ..
@[simp] theorem setEntry_closing (s : State) (c k v : Nat) :
    (setEntry s c k v).closing = s.closing := putBytes_closing ..
@[simp] theorem setEntry_left (s : State) (c k v : Nat) : (setEntry s c k v).left = s.left := putBytes_left ..
@[simp] theorem setEntry_credits (s : State) (c k v : Nat) :
    (setEntry s c k v).credits = s.credits := putBytes_credits ..
@[simp] theorem setEntry_lastQ (s : State) (c k v : Nat) : (setEntry s c k v).lastQ = s.lastQ := putBytes_lastQ ..
@[simp] theorem setEntry_seqs (s : State) (c k v : Nat) : (setEntry s c k v).seqs = s.seqs := putBytes_seqs ..
@[simp] theorem setEntry_wins (s : State) (c k v : Nat) : (setEntry s c k v).wins = s.wins := putBytes_wins ..
@[simp] theorem setEntry_kvCopies (s : State) (c k v : Nat) :
    (setEntry s c k v).kvCopies = s.kvCopies := putBytes_kvCopies ..
@[simp] theorem setEntry_kvNext (s : State) (c k v : Nat) : (setEntry s c k v).kvNext = s.kvNext := putBytes_kvNext ..
@[simp] theorem setEntry_podBars (s : State) (c k v : Nat) :
    (setEntry s c k v).podBars = s.podBars := putBytes_podBars ..
@[simp] theorem setEntry_podOps (s : State) (c k v : Nat) : (setEntry s c k v).podOps = s.podOps := putBytes_podOps ..
@[simp] theorem setEntry_podNext (s : State) (c k v : Nat) :
    (setEntry s c k v).podNext = s.podNext := putBytes_podNext ..
@[simp] theorem setEntry_ports (s : State) (c k v : Nat) : (setEntry s c k v).ports = s.ports := putBytes_ports ..
@[simp] theorem setEntry_early (s : State) (c k v : Nat) : (setEntry s c k v).early = s.early := putBytes_early ..
@[simp] theorem setEntry_combs (s : State) (c k v : Nat) : (setEntry s c k v).combs = s.combs := putBytes_combs ..
@[simp] theorem setEntry_sent (s : State) (c k v : Nat) : (setEntry s c k v).sent = s.sent := putBytes_sent ..
@[simp] theorem setEntry_treeOut (s : State) (c k v : Nat) :
    (setEntry s c k v).treeOut = s.treeOut := putBytes_treeOut ..
@[simp] theorem setEntry_unsent (s : State) (c k v : Nat) : (setEntry s c k v).unsent = s.unsent := putBytes_unsent ..
@[simp] theorem setEntry_pci (s : State) (c k v : Nat) : (setEntry s c k v).pci = s.pci := putBytes_pci ..
@[simp] theorem setEntry_timedOut (s : State) (c k v : Nat) :
    (setEntry s c k v).timedOut = s.timedOut := putBytes_timedOut ..
@[simp] theorem setEntry_mbox (s : State) (c k v : Nat) : (setEntry s c k v).mbox = s.mbox := putBytes_mbox ..
@[simp] theorem setEntry_rel (s : State) (c k v : Nat) : (setEntry s c k v).rel = s.rel := putBytes_rel ..
@[simp] theorem setEntry_asked (s : State) (c k v : Nat) : (setEntry s c k v).asked = s.asked := putBytes_asked ..
@[simp] theorem setEntry_free (s : State) (c k v : Nat) : (setEntry s c k v).free = s.free := putBytes_free ..
@[simp] theorem setEntry_answer (s : State) (c k v : Nat) : (setEntry s c k v).answer = s.answer := putBytes_answer ..

/-! ## The registers of a thread -/

@[simp] theorem writeP_ref (t : Thread) (k : BitVec 3) (v : Bool) :
    (writeP t k v).ref = t.ref := by
  unfold writeP; split <;> rfl
@[simp] theorem writeP_asid (t : Thread) (k : BitVec 3) (v : Bool) :
    (writeP t k v).asid = t.asid := by
  unfold writeP; split <;> rfl
@[simp] theorem writeP_cls (t : Thread) (k : BitVec 3) (v : Bool) :
    (writeP t k v).cls = t.cls := by
  unfold writeP; split <;> rfl
@[simp] theorem writeP_part (t : Thread) (k : BitVec 3) (v : Bool) :
    (writeP t k v).part = t.part := by
  unfold writeP; split <;> rfl
@[simp] theorem writeP_carve (t : Thread) (k : BitVec 3) (v : Bool) :
    (writeP t k v).carve = t.carve := by
  unfold writeP; split <;> rfl
@[simp] theorem writeP_g (t : Thread) (k : BitVec 3) (v : Bool) :
    (writeP t k v).g = t.g := by
  unfold writeP; split <;> rfl
@[simp] theorem writeP_win (t : Thread) (k : BitVec 3) (v : Bool) :
    (writeP t k v).win = t.win := by
  unfold writeP; split <;> rfl
@[simp] theorem writeP_h (t : Thread) (k : BitVec 3) (v : Bool) :
    (writeP t k v).h = t.h := by
  unfold writeP; split <;> rfl
@[simp] theorem writeP_code (t : Thread) (k : BitVec 3) (v : Bool) :
    (writeP t k v).code = t.code := by
  unfold writeP; split <;> rfl
@[simp] theorem writeP_pc (t : Thread) (k : BitVec 3) (v : Bool) :
    (writeP t k v).pc = t.pc := by
  unfold writeP; split <;> rfl
@[simp] theorem writeP_base (t : Thread) (k : BitVec 3) (v : Bool) :
    (writeP t k v).base = t.base := by
  unfold writeP; split <;> rfl
@[simp] theorem writeP_fsize (t : Thread) (k : BitVec 3) (v : Bool) :
    (writeP t k v).fsize = t.fsize := by
  unfold writeP; split <;> rfl
@[simp] theorem writeP_entered (t : Thread) (k : BitVec 3) (v : Bool) :
    (writeP t k v).entered = t.entered := by
  unfold writeP; split <;> rfl
@[simp] theorem writeP_ret (t : Thread) (k : BitVec 3) (v : Bool) :
    (writeP t k v).ret = t.ret := by
  unfold writeP; split <;> rfl
@[simp] theorem writeP_depth (t : Thread) (k : BitVec 3) (v : Bool) :
    (writeP t k v).depth = t.depth := by
  unfold writeP; split <;> rfl
@[simp] theorem writeP_callers (t : Thread) (k : BitVec 3) (v : Bool) :
    (writeP t k v).callers = t.callers := by
  unfold writeP; split <;> rfl
@[simp] theorem writeP_nres (t : Thread) (k : BitVec 3) (v : Bool) :
    (writeP t k v).nres = t.nres := by
  unfold writeP; split <;> rfl
@[simp] theorem writeP_csp (t : Thread) (k : BitVec 3) (v : Bool) :
    (writeP t k v).csp = t.csp := by
  unfold writeP; split <;> rfl
@[simp] theorem writeP_osp (t : Thread) (k : BitVec 3) (v : Bool) :
    (writeP t k v).osp = t.osp := by
  unfold writeP; split <;> rfl
@[simp] theorem writeP_ovbase (t : Thread) (k : BitVec 3) (v : Bool) :
    (writeP t k v).ovbase = t.ovbase := by
  unfold writeP; split <;> rfl
@[simp] theorem writeP_ovlen (t : Thread) (k : BitVec 3) (v : Bool) :
    (writeP t k v).ovlen = t.ovlen := by
  unfold writeP; split <;> rfl
@[simp] theorem writeP_flags (t : Thread) (k : BitVec 3) (v : Bool) :
    (writeP t k v).flags = t.flags := by
  unfold writeP; split <;> rfl
@[simp] theorem writeP_loops (t : Thread) (k : BitVec 3) (v : Bool) :
    (writeP t k v).loops = t.loops := by
  unfold writeP; split <;> rfl
@[simp] theorem writeP_chans (t : Thread) (k : BitVec 3) (v : Bool) :
    (writeP t k v).chans = t.chans := by
  unfold writeP; split <;> rfl
@[simp] theorem writeP_chrun (t : Thread) (k : BitVec 3) (v : Bool) :
    (writeP t k v).chrun = t.chrun := by
  unfold writeP; split <;> rfl
@[simp] theorem writeP_priv (t : Thread) (k : BitVec 3) (v : Bool) :
    (writeP t k v).priv = t.priv := by
  unfold writeP; split <;> rfl
@[simp] theorem writeP_lastPri (t : Thread) (k : BitVec 3) (v : Bool) :
    (writeP t k v).lastPri = t.lastPri := by
  unfold writeP; split <;> rfl
@[simp] theorem writeP_running (t : Thread) (k : BitVec 3) (v : Bool) :
    (writeP t k v).running = t.running := by
  unfold writeP; split <;> rfl
@[simp] theorem writeP_relabel (t : Thread) (k : BitVec 3) (v : Bool) :
    (writeP t k v).relabel = t.relabel := by
  unfold writeP; split <;> rfl
@[simp] theorem writeP_prods (t : Thread) (k : BitVec 3) (v : Bool) :
    (writeP t k v).prods = t.prods := by
  unfold writeP; split <;> rfl
@[simp] theorem writeP_rels (t : Thread) (k : BitVec 3) (v : Bool) :
    (writeP t k v).rels = t.rels := by
  unfold writeP; split <;> rfl
@[simp] theorem writeP_nprod (t : Thread) (k : BitVec 3) (v : Bool) :
    (writeP t k v).nprod = t.nprod := by
  unfold writeP; split <;> rfl
@[simp] theorem writeP_ecause (t : Thread) (k : BitVec 3) (v : Bool) :
    (writeP t k v).ecause = t.ecause := by
  unfold writeP; split <;> rfl
@[simp] theorem writeP_epc (t : Thread) (k : BitVec 3) (v : Bool) :
    (writeP t k v).epc = t.epc := by
  unfold writeP; split <;> rfl
@[simp] theorem writeP_eaddr (t : Thread) (k : BitVec 3) (v : Bool) :
    (writeP t k v).eaddr = t.eaddr := by
  unfold writeP; split <;> rfl
@[simp] theorem writeP_ewho (t : Thread) (k : BitVec 3) (v : Bool) :
    (writeP t k v).ewho = t.ewho := by
  unfold writeP; split <;> rfl
@[simp] theorem writeP_efrom (t : Thread) (k : BitVec 3) (v : Bool) :
    (writeP t k v).efrom = t.efrom := by
  unfold writeP; split <;> rfl
@[simp] theorem writeP_esave (t : Thread) (k : BitVec 3) (v : Bool) :
    (writeP t k v).esave = t.esave := by
  unfold writeP; split <;> rfl
@[simp] theorem writeP_estream (t : Thread) (k : BitVec 3) (v : Bool) :
    (writeP t k v).estream = t.estream := by
  unfold writeP; split <;> rfl
@[simp] theorem writeP_fvec (t : Thread) (k : BitVec 3) (v : Bool) :
    (writeP t k v).fvec = t.fvec := by
  unfold writeP; split <;> rfl
@[simp] theorem writeP_saved (t : Thread) (k : BitVec 3) (v : Bool) :
    (writeP t k v).saved = t.saved := by
  unfold writeP; split <;> rfl
@[simp] theorem writeP_late (t : Thread) (k : BitVec 3) (v : Bool) :
    (writeP t k v).late = t.late := by
  unfold writeP; split <;> rfl
@[simp] theorem writeP_fq (t : Thread) (k : BitVec 3) (v : Bool) :
    (writeP t k v).fq = t.fq := by
  unfold writeP; split <;> rfl
@[simp] theorem writeP_shares (t : Thread) (k : BitVec 3) (v : Bool) :
    (writeP t k v).shares = t.shares := by
  unfold writeP; split <;> rfl
@[simp] theorem writeP_nfin (t : Thread) (k : BitVec 3) (v : Bool) :
    (writeP t k v).nfin = t.nfin := by
  unfold writeP; split <;> rfl
@[simp] theorem writeP_finals (t : Thread) (k : BitVec 3) (v : Bool) :
    (writeP t k v).finals = t.finals := by
  unfold writeP; split <;> rfl
@[simp] theorem writeP_bad (t : Thread) (k : BitVec 3) (v : Bool) :
    (writeP t k v).bad = t.bad := by
  unfold writeP; split <;> rfl
@[simp] theorem writeP_barred (t : Thread) (k : BitVec 3) (v : Bool) :
    (writeP t k v).barred = t.barred := by
  unfold writeP; split <;> rfl
@[simp] theorem writeP_asks (t : Thread) (k : BitVec 3) (v : Bool) :
    (writeP t k v).asks = t.asks := by
  unfold writeP; split <;> rfl
@[simp] theorem writeP_halted (t : Thread) (k : BitVec 3) (v : Bool) :
    (writeP t k v).halted = t.halted := by
  unfold writeP; split <;> rfl

@[simp] theorem writeH_ref (t : Thread) (k : BitVec 4) (h : Handle) : (writeH t k h).ref = t.ref := rfl
@[simp] theorem writeH_asid (t : Thread) (k : BitVec 4) (h : Handle) : (writeH t k h).asid = t.asid := rfl
@[simp] theorem writeH_cls (t : Thread) (k : BitVec 4) (h : Handle) : (writeH t k h).cls = t.cls := rfl
@[simp] theorem writeH_part (t : Thread) (k : BitVec 4) (h : Handle) : (writeH t k h).part = t.part := rfl
@[simp] theorem writeH_carve (t : Thread) (k : BitVec 4) (h : Handle) : (writeH t k h).carve = t.carve := rfl
@[simp] theorem writeH_g (t : Thread) (k : BitVec 4) (h : Handle) : (writeH t k h).g = t.g := rfl
@[simp] theorem writeH_win (t : Thread) (k : BitVec 4) (h : Handle) : (writeH t k h).win = t.win := rfl
@[simp] theorem writeH_p (t : Thread) (k : BitVec 4) (h : Handle) : (writeH t k h).p = t.p := rfl
@[simp] theorem writeH_code (t : Thread) (k : BitVec 4) (h : Handle) : (writeH t k h).code = t.code := rfl
@[simp] theorem writeH_pc (t : Thread) (k : BitVec 4) (h : Handle) : (writeH t k h).pc = t.pc := rfl
@[simp] theorem writeH_base (t : Thread) (k : BitVec 4) (h : Handle) : (writeH t k h).base = t.base := rfl
@[simp] theorem writeH_fsize (t : Thread) (k : BitVec 4) (h : Handle) : (writeH t k h).fsize = t.fsize := rfl
@[simp] theorem writeH_entered (t : Thread) (k : BitVec 4) (h : Handle) : (writeH t k h).entered = t.entered := rfl
@[simp] theorem writeH_ret (t : Thread) (k : BitVec 4) (h : Handle) : (writeH t k h).ret = t.ret := rfl
@[simp] theorem writeH_depth (t : Thread) (k : BitVec 4) (h : Handle) : (writeH t k h).depth = t.depth := rfl
@[simp] theorem writeH_callers (t : Thread) (k : BitVec 4) (h : Handle) : (writeH t k h).callers = t.callers := rfl
@[simp] theorem writeH_nres (t : Thread) (k : BitVec 4) (h : Handle) : (writeH t k h).nres = t.nres := rfl
@[simp] theorem writeH_csp (t : Thread) (k : BitVec 4) (h : Handle) : (writeH t k h).csp = t.csp := rfl
@[simp] theorem writeH_osp (t : Thread) (k : BitVec 4) (h : Handle) : (writeH t k h).osp = t.osp := rfl
@[simp] theorem writeH_ovbase (t : Thread) (k : BitVec 4) (h : Handle) : (writeH t k h).ovbase = t.ovbase := rfl
@[simp] theorem writeH_ovlen (t : Thread) (k : BitVec 4) (h : Handle) : (writeH t k h).ovlen = t.ovlen := rfl
@[simp] theorem writeH_flags (t : Thread) (k : BitVec 4) (h : Handle) : (writeH t k h).flags = t.flags := rfl
@[simp] theorem writeH_loops (t : Thread) (k : BitVec 4) (h : Handle) : (writeH t k h).loops = t.loops := rfl
@[simp] theorem writeH_chans (t : Thread) (k : BitVec 4) (h : Handle) : (writeH t k h).chans = t.chans := rfl
@[simp] theorem writeH_chrun (t : Thread) (k : BitVec 4) (h : Handle) : (writeH t k h).chrun = t.chrun := rfl
@[simp] theorem writeH_priv (t : Thread) (k : BitVec 4) (h : Handle) : (writeH t k h).priv = t.priv := rfl
@[simp] theorem writeH_lastPri (t : Thread) (k : BitVec 4) (h : Handle) : (writeH t k h).lastPri = t.lastPri := rfl
@[simp] theorem writeH_running (t : Thread) (k : BitVec 4) (h : Handle) : (writeH t k h).running = t.running := rfl
@[simp] theorem writeH_relabel (t : Thread) (k : BitVec 4) (h : Handle) : (writeH t k h).relabel = t.relabel := rfl
@[simp] theorem writeH_prods (t : Thread) (k : BitVec 4) (h : Handle) : (writeH t k h).prods = t.prods := rfl
@[simp] theorem writeH_rels (t : Thread) (k : BitVec 4) (h : Handle) : (writeH t k h).rels = t.rels := rfl
@[simp] theorem writeH_nprod (t : Thread) (k : BitVec 4) (h : Handle) : (writeH t k h).nprod = t.nprod := rfl
@[simp] theorem writeH_ecause (t : Thread) (k : BitVec 4) (h : Handle) : (writeH t k h).ecause = t.ecause := rfl
@[simp] theorem writeH_epc (t : Thread) (k : BitVec 4) (h : Handle) : (writeH t k h).epc = t.epc := rfl
@[simp] theorem writeH_eaddr (t : Thread) (k : BitVec 4) (h : Handle) : (writeH t k h).eaddr = t.eaddr := rfl
@[simp] theorem writeH_ewho (t : Thread) (k : BitVec 4) (h : Handle) : (writeH t k h).ewho = t.ewho := rfl
@[simp] theorem writeH_efrom (t : Thread) (k : BitVec 4) (h : Handle) : (writeH t k h).efrom = t.efrom := rfl
@[simp] theorem writeH_esave (t : Thread) (k : BitVec 4) (h : Handle) : (writeH t k h).esave = t.esave := rfl
@[simp] theorem writeH_estream (t : Thread) (k : BitVec 4) (h : Handle) : (writeH t k h).estream = t.estream := rfl
@[simp] theorem writeH_fvec (t : Thread) (k : BitVec 4) (h : Handle) : (writeH t k h).fvec = t.fvec := rfl
@[simp] theorem writeH_saved (t : Thread) (k : BitVec 4) (h : Handle) : (writeH t k h).saved = t.saved := rfl
@[simp] theorem writeH_late (t : Thread) (k : BitVec 4) (h : Handle) : (writeH t k h).late = t.late := rfl
@[simp] theorem writeH_fq (t : Thread) (k : BitVec 4) (h : Handle) : (writeH t k h).fq = t.fq := rfl
@[simp] theorem writeH_shares (t : Thread) (k : BitVec 4) (h : Handle) : (writeH t k h).shares = t.shares := rfl
@[simp] theorem writeH_nfin (t : Thread) (k : BitVec 4) (h : Handle) : (writeH t k h).nfin = t.nfin := rfl
@[simp] theorem writeH_finals (t : Thread) (k : BitVec 4) (h : Handle) : (writeH t k h).finals = t.finals := rfl
@[simp] theorem writeH_bad (t : Thread) (k : BitVec 4) (h : Handle) : (writeH t k h).bad = t.bad := rfl
@[simp] theorem writeH_barred (t : Thread) (k : BitVec 4) (h : Handle) : (writeH t k h).barred = t.barred := rfl
@[simp] theorem writeH_asks (t : Thread) (k : BitVec 4) (h : Handle) : (writeH t k h).asks = t.asks := rfl
@[simp] theorem writeH_halted (t : Thread) (k : BitVec 4) (h : Handle) : (writeH t k h).halted = t.halted := rfl

@[simp] theorem writeR_ref (t : Thread) (r : Reg) (v : Word) :
    (writeR t r v).ref = t.ref := by
  unfold writeR setCell; repeat' split
  all_goals rfl
@[simp] theorem writeR_asid (t : Thread) (r : Reg) (v : Word) :
    (writeR t r v).asid = t.asid := by
  unfold writeR setCell; repeat' split
  all_goals rfl
@[simp] theorem writeR_cls (t : Thread) (r : Reg) (v : Word) :
    (writeR t r v).cls = t.cls := by
  unfold writeR setCell; repeat' split
  all_goals rfl
@[simp] theorem writeR_part (t : Thread) (r : Reg) (v : Word) :
    (writeR t r v).part = t.part := by
  unfold writeR setCell; repeat' split
  all_goals rfl
@[simp] theorem writeR_carve (t : Thread) (r : Reg) (v : Word) :
    (writeR t r v).carve = t.carve := by
  unfold writeR setCell; repeat' split
  all_goals rfl
@[simp] theorem writeR_p (t : Thread) (r : Reg) (v : Word) :
    (writeR t r v).p = t.p := by
  unfold writeR setCell; repeat' split
  all_goals rfl
@[simp] theorem writeR_h (t : Thread) (r : Reg) (v : Word) :
    (writeR t r v).h = t.h := by
  unfold writeR setCell; repeat' split
  all_goals rfl
@[simp] theorem writeR_code (t : Thread) (r : Reg) (v : Word) :
    (writeR t r v).code = t.code := by
  unfold writeR setCell; repeat' split
  all_goals rfl
@[simp] theorem writeR_pc (t : Thread) (r : Reg) (v : Word) :
    (writeR t r v).pc = t.pc := by
  unfold writeR setCell; repeat' split
  all_goals rfl
@[simp] theorem writeR_base (t : Thread) (r : Reg) (v : Word) :
    (writeR t r v).base = t.base := by
  unfold writeR setCell; repeat' split
  all_goals rfl
@[simp] theorem writeR_fsize (t : Thread) (r : Reg) (v : Word) :
    (writeR t r v).fsize = t.fsize := by
  unfold writeR setCell; repeat' split
  all_goals rfl
@[simp] theorem writeR_entered (t : Thread) (r : Reg) (v : Word) :
    (writeR t r v).entered = t.entered := by
  unfold writeR setCell; repeat' split
  all_goals rfl
@[simp] theorem writeR_ret (t : Thread) (r : Reg) (v : Word) :
    (writeR t r v).ret = t.ret := by
  unfold writeR setCell; repeat' split
  all_goals rfl
@[simp] theorem writeR_depth (t : Thread) (r : Reg) (v : Word) :
    (writeR t r v).depth = t.depth := by
  unfold writeR setCell; repeat' split
  all_goals rfl
@[simp] theorem writeR_callers (t : Thread) (r : Reg) (v : Word) :
    (writeR t r v).callers = t.callers := by
  unfold writeR setCell; repeat' split
  all_goals rfl
@[simp] theorem writeR_nres (t : Thread) (r : Reg) (v : Word) :
    (writeR t r v).nres = t.nres := by
  unfold writeR setCell; repeat' split
  all_goals rfl
@[simp] theorem writeR_csp (t : Thread) (r : Reg) (v : Word) :
    (writeR t r v).csp = t.csp := by
  unfold writeR setCell; repeat' split
  all_goals rfl
@[simp] theorem writeR_osp (t : Thread) (r : Reg) (v : Word) :
    (writeR t r v).osp = t.osp := by
  unfold writeR setCell; repeat' split
  all_goals rfl
@[simp] theorem writeR_ovbase (t : Thread) (r : Reg) (v : Word) :
    (writeR t r v).ovbase = t.ovbase := by
  unfold writeR setCell; repeat' split
  all_goals rfl
@[simp] theorem writeR_ovlen (t : Thread) (r : Reg) (v : Word) :
    (writeR t r v).ovlen = t.ovlen := by
  unfold writeR setCell; repeat' split
  all_goals rfl
@[simp] theorem writeR_flags (t : Thread) (r : Reg) (v : Word) :
    (writeR t r v).flags = t.flags := by
  unfold writeR setCell; repeat' split
  all_goals rfl
@[simp] theorem writeR_loops (t : Thread) (r : Reg) (v : Word) :
    (writeR t r v).loops = t.loops := by
  unfold writeR setCell; repeat' split
  all_goals rfl
@[simp] theorem writeR_chans (t : Thread) (r : Reg) (v : Word) :
    (writeR t r v).chans = t.chans := by
  unfold writeR setCell; repeat' split
  all_goals rfl
@[simp] theorem writeR_chrun (t : Thread) (r : Reg) (v : Word) :
    (writeR t r v).chrun = t.chrun := by
  unfold writeR setCell; repeat' split
  all_goals rfl
@[simp] theorem writeR_priv (t : Thread) (r : Reg) (v : Word) :
    (writeR t r v).priv = t.priv := by
  unfold writeR setCell; repeat' split
  all_goals rfl
@[simp] theorem writeR_lastPri (t : Thread) (r : Reg) (v : Word) :
    (writeR t r v).lastPri = t.lastPri := by
  unfold writeR setCell; repeat' split
  all_goals rfl
@[simp] theorem writeR_running (t : Thread) (r : Reg) (v : Word) :
    (writeR t r v).running = t.running := by
  unfold writeR setCell; repeat' split
  all_goals rfl
@[simp] theorem writeR_relabel (t : Thread) (r : Reg) (v : Word) :
    (writeR t r v).relabel = t.relabel := by
  unfold writeR setCell; repeat' split
  all_goals rfl
@[simp] theorem writeR_prods (t : Thread) (r : Reg) (v : Word) :
    (writeR t r v).prods = t.prods := by
  unfold writeR setCell; repeat' split
  all_goals rfl
@[simp] theorem writeR_rels (t : Thread) (r : Reg) (v : Word) :
    (writeR t r v).rels = t.rels := by
  unfold writeR setCell; repeat' split
  all_goals rfl
@[simp] theorem writeR_nprod (t : Thread) (r : Reg) (v : Word) :
    (writeR t r v).nprod = t.nprod := by
  unfold writeR setCell; repeat' split
  all_goals rfl
@[simp] theorem writeR_ecause (t : Thread) (r : Reg) (v : Word) :
    (writeR t r v).ecause = t.ecause := by
  unfold writeR setCell; repeat' split
  all_goals rfl
@[simp] theorem writeR_epc (t : Thread) (r : Reg) (v : Word) :
    (writeR t r v).epc = t.epc := by
  unfold writeR setCell; repeat' split
  all_goals rfl
@[simp] theorem writeR_eaddr (t : Thread) (r : Reg) (v : Word) :
    (writeR t r v).eaddr = t.eaddr := by
  unfold writeR setCell; repeat' split
  all_goals rfl
@[simp] theorem writeR_ewho (t : Thread) (r : Reg) (v : Word) :
    (writeR t r v).ewho = t.ewho := by
  unfold writeR setCell; repeat' split
  all_goals rfl
@[simp] theorem writeR_efrom (t : Thread) (r : Reg) (v : Word) :
    (writeR t r v).efrom = t.efrom := by
  unfold writeR setCell; repeat' split
  all_goals rfl
@[simp] theorem writeR_esave (t : Thread) (r : Reg) (v : Word) :
    (writeR t r v).esave = t.esave := by
  unfold writeR setCell; repeat' split
  all_goals rfl
@[simp] theorem writeR_estream (t : Thread) (r : Reg) (v : Word) :
    (writeR t r v).estream = t.estream := by
  unfold writeR setCell; repeat' split
  all_goals rfl
@[simp] theorem writeR_fvec (t : Thread) (r : Reg) (v : Word) :
    (writeR t r v).fvec = t.fvec := by
  unfold writeR setCell; repeat' split
  all_goals rfl
@[simp] theorem writeR_saved (t : Thread) (r : Reg) (v : Word) :
    (writeR t r v).saved = t.saved := by
  unfold writeR setCell; repeat' split
  all_goals rfl
@[simp] theorem writeR_late (t : Thread) (r : Reg) (v : Word) :
    (writeR t r v).late = t.late := by
  unfold writeR setCell; repeat' split
  all_goals rfl
@[simp] theorem writeR_fq (t : Thread) (r : Reg) (v : Word) :
    (writeR t r v).fq = t.fq := by
  unfold writeR setCell; repeat' split
  all_goals rfl
@[simp] theorem writeR_shares (t : Thread) (r : Reg) (v : Word) :
    (writeR t r v).shares = t.shares := by
  unfold writeR setCell; repeat' split
  all_goals rfl
@[simp] theorem writeR_nfin (t : Thread) (r : Reg) (v : Word) :
    (writeR t r v).nfin = t.nfin := by
  unfold writeR setCell; repeat' split
  all_goals rfl
@[simp] theorem writeR_finals (t : Thread) (r : Reg) (v : Word) :
    (writeR t r v).finals = t.finals := by
  unfold writeR setCell; repeat' split
  all_goals rfl
@[simp] theorem writeR_barred (t : Thread) (r : Reg) (v : Word) :
    (writeR t r v).barred = t.barred := by
  unfold writeR setCell; repeat' split
  all_goals rfl
@[simp] theorem writeR_asks (t : Thread) (r : Reg) (v : Word) :
    (writeR t r v).asks = t.asks := by
  unfold writeR setCell; repeat' split
  all_goals rfl
@[simp] theorem writeR_halted (t : Thread) (r : Reg) (v : Word) :
    (writeR t r v).halted = t.halted := by
  unfold writeR setCell; repeat' split
  all_goals rfl

end Sys2Proof.Machine
end

