-- ==== Sys2Proof/Laws/Release.lean ====
section
/-! SUPPORT. What the release writes and the messages that a cycle begins with can do, and what planning a cycle leaves as it
was. -/

namespace Sys2Proof.Machine

/-- A change in which no cycle passes: the turns, the agenda and the scratch banks are as before, and device memory keeps its
canonical form. -/
def WithinCycle (s u : State) : Prop :=
  u.cycle = s.cycle ∧ u.turns = s.turns ∧ u.agenda = s.agenda ∧ u.core = s.core ∧ u.sram = s.sram ∧
  (s.mem.wf = true → u.mem.wf = true)

theorem WithinCycle.refl (s : State) : WithinCycle s s := ⟨rfl, rfl, rfl, rfl, rfl, id⟩

theorem WithinCycle.trans {s u z : State} (h : WithinCycle s u) (g : WithinCycle u z) : WithinCycle s z := by
  obtain ⟨a, b, c, d, e, f⟩ := h
  obtain ⟨a', b', c', d', e', f'⟩ := g
  exact ⟨a'.trans a, b'.trans b, c'.trans c, d'.trans d, e'.trans e, f' ∘ f⟩

/-- A fold of such changes is one. -/
theorem WithinCycle.foldl {α : Type} (f : State → α → State) (hf : ∀ s x, WithinCycle s (f s x)) (l : List α) (s : State) :
    WithinCycle s (l.foldl f s) := by
  induction l generalizing s with
  | nil => exact .refl s
  | cons x r ih => exact (hf s x).trans (ih _)

theorem updThread_within (s : State) (key : Nat) (f : Thread → Thread) : WithinCycle s (s.updThread key f) := by
  unfold State.updThread
  split <;> exact ⟨rfl, rfl, rfl, rfl, rfl, id⟩

theorem updByRef_within (s : State) (r : ThreadRef) (f : Thread → Thread) : WithinCycle s (updByRef s r f) := by
  unfold updByRef
  split
  · exact updThread_within s _ f
  · split
    · split <;> exact ⟨rfl, rfl, rfl, rfl, rfl, id⟩
    · exact .refl s

theorem sealCurd_within (s : State) (c i : Nat) : WithinCycle s (sealCurd s c i) := ⟨rfl, rfl, rfl, rfl, rfl, id⟩

theorem updWindow_within (s : State) (i : Nat) (f : Window → Window) : WithinCycle s (s.updWindow i f) :=
  ⟨rfl, rfl, rfl, rfl, rfl, id⟩

/-- What a write of device memory by no `st.d` and no `amo.maxu` can do. -/
theorem putPlain_within (s : State) (pa : Nat) (b : List Byte) : WithinCycle s (putPlain s pa b) := by
  obtain ⟨d, v, h⟩ := putMasked_lines s pa (maskTails (tailAddrs s) pa (b.map fun x => (x, true)))
  refine ⟨?_, ?_, ?_, ?_, ?_, putMasked_wf s pa _⟩ <;> simp only [putPlain, h]

theorem atHome_within (s : State) (x : Arrival) : WithinCycle s (atHome s x).1 := by
  unfold atHome
  split <;> exact ⟨rfl, rfl, rfl, rfl, rfl, id⟩

theorem askHome_within (s : State) (x : Arrival) : WithinCycle s (askHome s x).st := by
  unfold askHome
  split
  · exact atHome_within s x
  · dsimp only
    split <;> exact ⟨rfl, rfl, rfl, rfl, rfl, id⟩

/-- Everything that performing a release write can do. -/
theorem performRelease_within (c : Nat) (r : ThreadRef) (s : State) (p : Pending) :
    WithinCycle s (performRelease c r s p) := by
  have h := updByRef_within s r fun t => { t with rels := t.rels.filter fun x => x.num ≠ p.num }
  simp only [performRelease]
  split
  · split
    · split
      · exact h.trans (sealCurd_within _ _ _)
      · exact h
    · exact h
  · split
    · exact h.trans (putPlain_within _ _ _)
    · exact h
  · split
    · exact h.trans (updWindow_within _ _ _)
    · exact h
  · exact (h.trans (askHome_within _ _)).trans (updByRef_within _ _ _)

theorem releaseThread_within (c : Nat) (r : ThreadRef) (ps : List Pending) (s : State) :
    WithinCycle s (releaseThread c r ps s) := by
  refine .foldl _ (fun s p => ?_) ps s
  split
  · split
    · exact performRelease_within c r s p
    · exact .refl s
  · exact .refl s

theorem performReleases_within (s : State) : WithinCycle s (performReleases s) :=
  .foldl _ (fun s _ => releaseThread_within _ _ _ s) _ s

theorem sendTo_within (s : State) (x : HeldMsg) : WithinCycle s (sendTo s x) := by
  unfold sendTo
  split <;> exact ⟨rfl, rfl, rfl, rfl, rfl, id⟩

theorem sendHeld_within (s : State) : WithinCycle s (sendHeld s) :=
  (show WithinCycle s { s with unsent := [] } from ⟨rfl, rfl, rfl, rfl, rfl, id⟩).trans
    (.foldl sendTo sendTo_within _ _)

/-- A plan changes nothing but what it counts on: the takes that are still to come and the accesses that arrive. -/
theorem planned_within (s : State) (p : Plan) : WithinCycle s (planned s p) := ⟨rfl, rfl, rfl, rfl, rfl, id⟩

@[simp] theorem planned_threads (s : State) (p : Plan) : (planned s p).threads = s.threads := rfl
@[simp] theorem planned_cycle (s : State) (p : Plan) : (planned s p).cycle = s.cycle := rfl
@[simp] theorem planned_mem (s : State) (p : Plan) : (planned s p).mem = s.mem := rfl
@[simp] theorem planned_sram (s : State) (p : Plan) : (planned s p).sram = s.sram := rfl

theorem settleCredits_within (s : State) : WithinCycle s (settleCredits s) := by
  unfold settleCredits
  split <;> exact ⟨rfl, rfl, rfl, rfl, rfl, id⟩

end Sys2Proof.Machine
end

