-- ==== Sys2Proof/Tests/Slice0.lean ====
section
/-! SUPPORT. Tests: the ill-formed terms that the checks refuse, words written out from the spec's encodings, the
examples that the spec works out, and, for each statement with hypotheses, a state and operands that meet them. -/

set_option Elab.async false

namespace Sys2Proof.Tests

open Sys2Proof Sys2Proof.Machine

/-! ## States to test on -/

/-- A source that waits. -/
def w (r : Reg) : Src := ⟨r, true⟩
/-- A source that does not wait. -/
def nw (r : Reg) : Src := ⟨r, false⟩

/-- An acting thread: `g1` = 5, `g2` = 7, `g3` empty, `g4` = −1, `g5` = 2 MiB, `p1` true; handles over the lowest GiB, a
read-only page, another member's page and the scratch aperture. -/
def thr : Thread :=
  { placedThread false with
    g := [(1, ⟨5, .full⟩), (2, ⟨7, .full⟩), (3, ⟨0, .empty⟩), (4, ⟨-1, .full⟩), (5, ⟨0x200000, .full⟩)]
    p := 2
    h := [(1, ⟨true, 0, 0x1F, 0x40000000, 0⟩), (2, ⟨true, 0, 0x01, 0x1000, 0x100000⟩),
          (3, ⟨true, 0, 0x07, 0x10000, 0x4000000000⟩), (4, ⟨true, 0, 0x07, 0x10000, 0xFFFFFF00000000⟩)] }

/-- The machine with a thread on core 0, and a page of member 3 mapped. -/
def on (t : Thread) : State :=
  { (State.reset.withFetchWord 32 0xFA000500).setThread 0 t with
    tlb := [⟨0, 0x4000000000, 16, 3, 0x10000, 0, true, true⟩] }
/-- The machine with that thread. -/
def ctl : State := on thr
/-- The same with page 0 of scratch space 0 resident in frame 5 of its core. -/
def ctlPage : State := setEntry ctl 0 0 (mkEntry 0 0 1 0 5)

/-- The next state that an instruction answers. -/
def nextOf : Answer → Option State
  | .next s => some s
  | _ => none

/-- What the thread of core 0 is after an instruction. -/
def threadAfter (a : Answer) : Option Thread := (nextOf a).bind (·.threadAt 0)

/-- A test that answers a value. -/
def good {ε α : Type} : Except ε α → Bool
  | .ok _ => true
  | .error _ => false

/-- A producer whose host-window request is outstanding. -/
def hostProd : Producer :=
  { dests := [.g 6], vals := [1], wait := some .host, err := none, addr := 0, field := 6, pc := 0, inFault := false
    counted := true }
/-- A store to the host window that is outstanding. -/
def hostStore : Producer := { hostProd with dests := [], vals := [], writes := true }

/-! ## Witnesses: registers -/

theorem test_witness_IntegerResults_pairs :
    Acts ctl thr ∧ Reads thr (w 1) 5 ∧ Reads thr (nw 4) (-1) ∧ Ready thr 5 := by
  simp only [Acts, Reads, Ready]; decide +kernel

theorem test_witness_IntegerResults_others : Acts ctl thr ∧ Reads thr (w 4) (-1) ∧ Ready thr 0 ∧ Ready thr 47 := by
  simp only [Acts, Reads, Ready]; decide +kernel

theorem test_witness_IntegerResults_bfi :
    Acts ctl thr ∧ Reads thr (w 4) (-1) ∧ Holds thr 1 5 ∧ (1#6).toNat + ((62#6).toNat + 1) ≤ 64 := by
  simp only [Acts, Reads, Holds]; decide +kernel

theorem test_witness_CompareAndPredicate : Acts ctl thr ∧ Reads thr (w 1) 5 ∧ Reads thr (w 4) (-1) ∧ Ready thr 5 ∧
    namesOk thr [5, 3, 1] = .ok () ∧ regLoc thr 3 = .ok (some (.g 3)) ∧ (cellAt thr (.g 3)).fill ≠ .full ∧
    namesOk thr [5, 1, 3] = .ok () := by
  simp only [Acts, Reads, Ready]; decide +kernel

theorem test_witness_RegisterFile : (1#3) ≠ 0 ∧ (2#3) ≠ 1 ∧ regLoc thr 1 = .ok (some (.g 1)) ∧ 31 < thr.fsize ∧
    (placedThread true).fsize ≤ 0 ∧ (48 : Reg).toNat = 48 := by decide +kernel

theorem test_witness_RegisterFile_operands : Acts ctl thr ∧
    namesOk { thr with fsize := 8 } [24, 1, 2] = .error (.trap ⟨cIllegal, 1, none, 0⟩ none) ∧
    Acts (on { thr with fsize := 8 }) { thr with fsize := 8 } ∧
    namesOk thr [5, 3, 3] = .ok () ∧ regLoc thr 3 = .ok (some (.g 3)) ∧ (cellAt thr (.g 3)).fill = .empty ∧
    Reads thr (w 1) 5 ∧ Reads thr (w 2) 7 := by
  simp only [Acts, Reads]; decide +kernel

theorem test_witness_RegisterFrame : ctl.threadAt ctl.core = some thr ∧
    nextOf (exec (.add 5 (w 1) (w 2)) ctl) = some (ctl.setThread 0 (endTest (writeR thr 5 12) 0)) := by decide +kernel

theorem test_witness_RegisterFrame_predicates : ctl.threadAt ctl.core = some thr ∧
    nextOf (exec (.cmpLtu 2 (w 1) (w 2)) ctl) = some (ctl.setThread 0 (endTest (writeP thr 2 true) 0)) := by decide +kernel

/-! ## Witnesses: memory and handles -/

theorem test_witness_HandleCheck :
    checkHandle (readH thr 9) 0 8 rR 0 = exn cHandle 0 (some 0) ∧
    checkHandle (readH thr 1) 0 8 rR 1 = exn cHandle 1 (some 0) ∧
    checkHandle (readH thr 2) 0 8 rW 0 = exn cHandle 2 (some 0x100000) ∧
    checkHandle (readH thr 2) 0xFF9 8 rR 0 = exn cHandle 3 (some 0x100FF9) ∧
    checkHandle (readH thr 2) (-1) 8 rR 0 = exn cHandle 3 (some 0xFFFFF) ∧
    checkHandle (readH thr 2) 0xFF8 8 rR 0 = .ok 0x100FF8 := by decide +kernel

theorem test_witness_AccessFaults : Acts ctl thr ∧ Reads thr (w 1) 5 ∧ regLoc thr 6 = .ok (some (.g 6)) ∧
    checkHandle (readH thr 9) (5 + 2 * 4) 4 1 0 = exn cHandle 0 (some 13) ∧
    checkHandle (readH thr 1) (5 + 2 * 4) 4 1 0 = .ok 13 ∧ 13 % 4 ≠ 0 ∧ Holds thr 4 (-1) ∧
    checkHandle (readH thr 2) (5 + 2 * 4) 4 2 0 = exn cHandle 2 (some 0x10000D) ∧
    checkHandle (readH thr 1) (5 + 2 * 4) 4 2 0 = .ok 13 := by
  simp only [Acts, Reads, Holds]; decide +kernel

theorem test_witness_LoadResults : Acts ctl thr ∧ Reads thr (w 5) 0x200000 ∧ Ready thr 6 ∧ HasRoom thr ∧
    checkHandle (readH thr 1) (0x200000 + 1 * 8) 8 rR 0 = .ok 0x200008 ∧
    place ctl (threadAgent 0 thr) 0x200008 .load = .ok (.dev 0x200008, noteWalk ctl [] 0 0x200008) ∧
    ((accRead (noteWalk ctl [] 0 0x200008) (threadAgent 0 thr) (.dev 0x200008) 8 0x200008).toOption.map (·.atCore)) =
      some false ∧
    Acts ctlPage thr ∧ Reads thr (w 0) 0 ∧ checkHandle (readH thr 4) 8 8 rR 0 = .ok 0xFFFFFF00000008 ∧
    place ctlPage (threadAgent 0 thr) 0xFFFFFF00000008 .load = .ok (.scratch 0 8, ctlPage) ∧
    ((accRead ctlPage (threadAgent 0 thr) (.scratch 0 8) 8 0xFFFFFF00000008).toOption.map (·.atCore)) = some true := by
  simp only [Acts, Reads, Ready, HasRoom]; decide +kernel

theorem test_witness_LoadIsDelivered : Acts ctl thr ∧ runningKey ctl thr.ref = some ctl.core ∧
    Reads thr (w 5) 0x200000 ∧ Ready thr 6 ∧ regLoc thr 6 = .ok (some (.g 6)) ∧ thr.prods = [] ∧
    checkHandle (readH thr 1) (0x200000 + 1 * 8) 8 rR 0 = .ok 0x200008 ∧ 0x200008 % 8 = 0 ∧
    translate ctl 0 0x200008 .load = .ok (.dev 0x200008) ∧ badLine ctl 0x200008 = false ∧
    liveWindows ctl thr.ref.l = [] ∧
    (∀ i < 8, windowAt ctl (0x200008 + i) = none ∧
      tabFind (ctl.die (dieOf (0x200008 + i))).decoded ((0x200008 + i) / 64) = none) ∧
    0x200008 % 8 = 0 ∧ tabFind (ctl.die (dieOf (64 * (0x200008 / 64)))).decoded (0x200008 / 64) = none ∧
    windowAt ctl (64 * (0x200008 / 64)) = none := by
  simp only [Acts, Reads, Ready]; decide +kernel

theorem test_witness_StoreResults : Acts ctl thr ∧ Reads thr (w 5) 0x200000 ∧ Holds thr 4 (-1) ∧
    checkHandle (readH thr 1) (0x200000 - 1 * 2) 2 rW 0 = .ok 0x1FFFFE ∧
    place ctl (threadAgent 0 thr) 0x1FFFFE .store = .ok (.dev 0x1FFFFE, noteWalk ctl [] 0 0x1FFFFE) ∧
    good (accWrite (noteWalk ctl [] 0 0x1FFFFE) (threadAgent 0 thr) (.dev 0x1FFFFE) (allBytes (natLe 2 0xFFFF)) false
      0x1FFFFE) = true := by
  simp only [Acts, Reads, Holds]; decide +kernel

theorem test_witness_MemoryFrame : MemoryForm ctl ∧ Acts ctl thr ∧ Reads thr (w 5) 0x200000 ∧ Holds thr 4 (-1) ∧
    checkHandle (readH thr 1) (0x200000 - 1 * 8) 8 rW 0 = .ok 0x1FFFF8 ∧
    translate ctl 0 0x1FFFF8 .store = .ok (.dev 0x1FFFF8) ∧ inPacked ctl 0x1FFFF8 = false ∧
    covers ctl (some thr.ref.l) 0x1FFFF8 8 = none ∧ tailAddrs ctl = [] ∧ badLine ctl 0x1FFFF8 = false ∧
    liveWindows ctl thr.ref.l = [] := by
  simp only [MemoryForm, Acts, Reads, Holds]; decide +kernel

theorem test_witness_AtomicResults : Acts ctl thr ∧ Reads thr (w 5) 0x200000 ∧ Holds thr 1 5 ∧ Holds thr 2 7 ∧
    HasRoom thr ∧ checkHandle (readH thr 1) 0x200000 8 rRWA 0 = .ok 0x200000 ∧
    place ctl (threadAgent 0 thr) 0x200000 .atomic = .ok (.dev 0x200000, noteWalk ctl [] 0 0x200000) ∧
    lostTarget (noteWalk ctl [] 0 0x200000) (threadAgent 0 thr) (.dev 0x200000) = false ∧
    good (accAtomic (noteWalk ctl [] 0 0x200000) (threadAgent 0 thr) (.dev 0x200000) 8 0 (fun m => (m + 5) % 2 ^ 64)
      0x200000) = true ∧
    Reads thr (w 0) 0 ∧ checkHandle (readH thr 3) 0 8 rRWA 0 = .ok 0x4000000000 ∧
    place ctl (threadAgent 0 thr) 0x4000000000 .atomic = .ok (.peer 3 0x10000, noteWalk ctl [] 0 0x4000000000) ∧
    lostTarget (noteWalk ctl [] 0 0x4000000000) (threadAgent 0 thr) (.peer 3 0x10000) = true := by
  simp only [Acts, Reads, Holds, HasRoom]; decide +kernel

theorem test_witness_NoOtherEffect : Acts ctl thr ∧ Reads thr (w 5) 0x200000 ∧
    thr.rels = [] ∧ checkHandle (readH thr 1) (0x200000 - 1 * 64) 1 rR 0 = .ok 0x1FFFC0 ∧
    translate ctl 0 0x1FFFC0 .load = .ok (.dev 0x1FFFC0) ∧
    (∀ q ∈ (ctl.cluster (keyCluster ctl.core)).queues, q.2.entries = [] ∧ q.2.sched = none) ∧
    (∀ i ∈ (ctl.cluster (keyCluster ctl.core)).islands, i.2.order = []) ∧ (∀ x ∈ ctl.podOps, x.owner ≠ thr.ref) ∧
    (∀ c ∈ ctl.kvCopies, (kvCopyOf ctl c.2).1 ≠ thr.ref) ∧ ∀ q ∈ thr.prods, q.wait ≠ some .host := by
  simp only [Acts, Reads]; decide +kernel

theorem test_witness_HandleInstructions : Acts ctl thr ∧ Reads thr (w 1) 5 ∧ Reads thr (w 2) 7 ∧
    (readH thr 1).v = true ∧ (readH thr 1).asid = thr.asid ∧ (readH thr 1).rights.getLsbD 4 = true ∧
    5 + 7 ≤ (readH thr 1).len.toNat ∧ (readH thr 9).v = false ∧ Ready thr 6 ∧ Holds thr 2 7 ∧ (3#4) ≠ 2 := by
  simp only [Acts, Reads, Ready, Holds]; decide +kernel

/-- The thread as a privileged handler runs it. -/
def thrPriv : Thread := { thr with priv := true }

theorem test_witness_FormatWindow : Acts ctl thr ∧ thr.priv = false ∧ Acts (on thrPriv) thrPriv ∧ thrPriv.priv = true ∧
    Reads thrPriv (w 5) 0x200000 ∧ Holds thrPriv 1 5 ∧ checkHandle (readH thrPriv 1) 0x200000 32 rR 0 = .ok 0x200000 ∧
    ((readIssue (on thrPriv) (threadAgent 0 thrPriv) 0x200000 32).toOption.map fun x =>
      winEn (BitVec.ofNat 256 (leNat x.1))) = some false ∧ Holds thrPriv 4 (-1) ∧ 128 ≤ (-1 : Word).toNat := by
  simp only [Acts, Reads, Holds]; decide +kernel

/-! ## Witnesses: control, channels and faults -/

theorem test_witness_Transfers : Acts ctl thr ∧ Reads thr (w 5) 0x200000 ∧ (0x200000 : Word).toNat % 4 = 0 ∧
    Reads thr (w 1) 5 ∧ (5 : Word).toNat % 4 ≠ 0 := by
  simp only [Acts, Reads]; decide +kernel

/-- A loop of the current frame that ends at address 0x10, with n iterations left. -/
def loopAt (n : BitVec 24) : LoopEntry := ⟨0x8, 0x10, 3, n, 1, 0⟩

theorem test_witness_EndTest :
    loopActive { thr with loops := [loopAt 2] } (loopAt 2) = true ∧ (loopAt 2).stop = 0x10 ∧ (loopAt 2).stop ≠ 0x14 ∧
    1 < (loopAt 2).rem.toNat ∧ (loopAt 1).rem.toNat ≤ 1 ∧
    loopActive { thr with loops := [loopAt 2], depth := 2 } (loopAt 2) = false := by decide +kernel

/-- A thread whose frame is not entered. -/
def thrNew : Thread := { placedThread true with fsize := 8 }

theorem test_witness_FrameEntry : (on thrNew).threadAt (on thrNew).core = some thrNew ∧ thrNew.entered = false ∧
    residWith thrNew 32 ≤ 480 ∧ good (spillFor 0 32 (thrNew.nres + 1) (on thrNew, thrNew)) = true ∧
    Instr.nop.fabricOpc = none ∧ encode .nop ≠ [] ∧
    ctl.threadAt ctl.core = some thr ∧ thr.entered = true := by
  decide +kernel

/-- A thread inside a call; its caller's frame is in the file. -/
def thrIn : Thread :=
  { thr with depth := 2, nres := 2, base := 8, fsize := 16, ret := 0x40, callers := [⟨0, 16, 0, true⟩] }
/-- The same, the caller's frame having been spilled. -/
def thrOut : Thread := { thrIn with nres := 1, h := [] }
/-- The same, its 16-register frame being the newest record of the overflow memory at 2 MiB. -/
def thrOver : Thread := { thrOut with osp := 80, ovbase := 0x200000, ovlen := 4096 }
/-- That record. -/
def spilled (t : Thread) : State := { on t with mem := memWrite (on t).mem (0x200000 + 72) (natLe 8 16) }
/-- A producer into the current frame. -/
def intoFrame : Producer :=
  { dests := [.file 16], vals := [1], wait := none, err := none, addr := 0, field := 16, pc := 0, inFault := false
    counted := true }

theorem test_witness_Return : Acts ctl thr ∧ thr.depth = 1 ∧ Acts (on thrIn) thrIn ∧ thrIn.depth ≠ 1 ∧
    2 ≤ thrIn.nres ∧ prodInto thrIn (framePositions thrIn 8 thrIn.fsize) = false ∧
    prodInto { thrIn with prods := [intoFrame] } (framePositions thrIn 8 thrIn.fsize) = true ∧
    Acts (on thrOut) thrOut ∧ thrOut.nres < 2 ∧
    prodInto thrOut (framePositions thrOut 8 thrOut.fsize) = false ∧
    good (fillFrame (on thrOut) 0 thrOut ⟨0, 16, 0, true⟩) = false ∧
    good (fillFrame (spilled thrOver) 0 thrOver ⟨0, 16, 0, true⟩) = true ∧ Acts (spilled thrOver) thrOver ∧
    thrOver.depth ≠ 1 ∧ thrOver.nres < 2 ∧ prodInto thrOver (framePositions thrOver 8 thrOver.fsize) = false := by
  simp only [Acts]; decide +kernel

/-- A `ret` stands at an offset of the code. -/
def endsBadly (n : Nat) : State := { ctl with mem := memWrite ctl.mem (65536 + n) (natLe 4 0x76000002) }

/-- The words that a loop at 0 would end with are zero in `ctl`, an `add`, which may end a body. -/
theorem test_witness_Loops : Acts ctl thr ∧
    ((fetchWord ctl 0 thr 12).toOption.map fun x => endForbidden (wordOfBytes x.1)) = some false ∧
    ((fetchWord ctl 0 thr 8).toOption.map fun x => endForbidden (wordOfBytes x.1)) = some false ∧
    ((fetchWord (endsBadly 12) 0 thr 12).toOption.map fun x => endForbidden (wordOfBytes x.1)) = some true ∧
    ((fetchWord (endsBadly 8) 0 thr 8).toOption.map fun x => endForbidden (wordOfBytes x.1)) = some true ∧
    4 ≤ ({ thr with loops := List.replicate 4 (loopAt 2) } : Thread).loops.length ∧ thr.loops.length < 4 ∧ Reads thr (w 1) 5 ∧ Reads thr (w 4) (-1) ∧
    2 ^ 24 ≤ (-1 : Word).toNat ∧ Reads thr (w 0) 0 := by
  simp only [Acts, Reads]; decide +kernel

/-- A thread with a handler. -/
def thrVec : Thread := { thr with fvec := 0x800 }

theorem test_witness_FaultEntry : (on thrVec).threadAt 0 = some thrVec ∧ thrVec.saved = none ∧ thrVec.fvec ≠ 0 ∧
    thrVec.base < 512 ∧ thrVec.fsize ≤ 32 := by decide +kernel

theorem test_witness_TrapInstructions : (on thrVec).threadAt (on thrVec).core = some thrVec ∧ thrVec.entered = true ∧
    thrVec.saved = none ∧ thrVec.fvec ≠ 0 := by decide +kernel

/-- What delivery saved of a thread with a handler. -/
def savedOf (t : Thread) : SavedCtx :=
  ⟨8, t.base, t.fsize, t.entered, t.depth, t.loops, t.priv, t.ret, t.callers.length⟩
/-- The thread in its fault handler, the interrupted frame in the file. -/
def thrFault : Thread :=
  { thrVec with saved := some (savedOf thrVec), base := 32, nres := 2, epc := 8, pc := 0x804 }

theorem test_witness_FaultReturn : Acts ctl thr ∧ thr.saved = none ∧ Acts (on thrFault) thrFault ∧
    thrFault.saved = some (savedOf thrVec) ∧ thrFault.depth = 1 ∧ 2 ≤ thrFault.nres ∧
    prodInto thrFault (framePositions thrFault 0 thrFault.fsize) = false ∧
    good (leaveFault (on thrFault) 0 thrFault (savedOf thrVec)) = true ∧
    good (leaveFault (on thrFault) 0 { thrFault with nres := 1, callers := [⟨0, 32, 0, true⟩], h := [] }
      (savedOf thrVec)) = false := by
  simp only [Acts]; decide +kernel

theorem test_witness_FaultReturn_double : (on thrFault).threadAt 0 = some thrFault ∧ thrFault.saved.isSome ∧
    ctl.threadAt 0 = some thr ∧ thr.fvec = 0 := by decide +kernel

theorem test_witness_BoundaryFaults : (on thrVec).threadAt (on thrVec).core = some thrVec ∧ thrVec.saved = none ∧
    ({ thrVec with late := [⟨9, 0, 0, 0, none⟩] } : Thread).late = [⟨9, 0, 0, 0, none⟩] ∧ thrVec.late = [] ∧ thrVec.fq = [] := by
  decide +kernel

theorem test_witness_SpecialRegisters : Acts ctl thr ∧ Ready thr 6 ∧ Reads thr (w 5) 0x200000 ∧
    readSpecial ctl 0 thr 0x00 = some 0 ∧ readSpecial ctl 0 thr 0x33 = none ∧ (0x33 : BitVec 8).toNat = 0x33 ∧
    (0x29 : BitVec 8) ∉ ([0x00, 0x09, 0x0B, 0x0C, 0x0D, 0x2B, 0x2C, 0x30] : List (BitVec 8)) := by
  simp only [Acts, Ready, Reads]; decide +kernel

/-- A thread with channel 0 enabled and a message waiting, `g1` naming channel 0 enabled at priority 0, `g2` channel 0 of
core 1, `g6` channel 0 of its own core, `g7` channel 0 privileged. -/
def thrChan : Thread :=
  { thr with
    g := [(1, ⟨0x80, .full⟩), (2, ⟨0x10, .full⟩), (5, ⟨0x200000, .full⟩), (6, ⟨0x3F0, .full⟩), (7, ⟨0x180, .full⟩)]
    chans := [(0, ⟨0, true, false, 0x100, [9]⟩)] }
/-- Two cores, each with that thread. -/
def two : State := (on thrChan).setThread 1 thrChan

theorem test_witness_ChannelInstructions : Acts two thrChan ∧ Reads thrChan (w 5) 0x200000 ∧
    (0x200000 : Word).toNat % 4 = 0 ∧ Holds thrChan 1 0x80 ∧ bits 0x80 63 9 = 0 ∧ bit 0x80 8 = false ∧ bit 0x80 7 = true ∧
    Holds thrChan 7 0x180 ∧ bit 0x180 8 = true ∧ thrChan.priv = false ∧
    Holds thrChan 2 0x10 ∧ bits 0x10 9 4 = 1 ∧ bits 0x10 63 10 = 0 ∧ two.threadAt 1 = some thrChan ∧
    (channel thrChan 0).en = true ∧ (channel thrChan 0).box.length < 4 ∧ Holds thrChan 6 0x3F0 ∧ bits 0x3F0 9 4 = 63 ∧
    ctl.threadAt 1 = none ∧ thrChan.saved = none ∧ prodIntoFile thrChan = false ∧ thrFault.saved.isSome = true := by
  simp only [Acts, Reads, Holds]; decide +kernel

theorem test_witness_ChannelInstructions_entry :
    chooseChannel { thrChan with running := false } = some 0 ∧ (channel thrChan 0).box = [9] ∧
    chooseChannel { thrChan with running := false, chans := [(0, ⟨0, true, false, 0x100, []⟩)] } = none := by
  decide +kernel

/-- `g5` names a message queue object of 16 places, clear in memory but for its header. -/
def queueState (put get : Nat) : State :=
  { ctl with mem := memWrite ctl.mem 0x200000 (natLe 16 (20 * 2 ^ 64 + get * 2 ^ 32 + put)) }

/-- The queue of `g5` opens and what follows goes well: its header. -/
def queueTaken (s : State) (k : State → Nat → Except Exc State) : Option Nat :=
  match queueOpen s 0 thr (w 5) 1 with
  | .ok (va, _, hd, z) => if good (k z va) then some hd else none
  | .error _ => none

theorem test_witness_QueuesAndBarriers_queue : Acts (queueState 3 2) thr ∧ Reads thr (w 5) 0x200000 ∧
    queueTaken (queueState 3 2) (fun z va => do
      let (spa, z) ← queuePa z 0 thr (va + 64 + 8 * 3)
      let z ← queueWrite z (threadAgent 0 thr) spa 8 7 (va + 64 + 8 * 3)
      queueWrite z (threadAgent 0 thr) 0x200000 4 4 va) = some (20 * 2 ^ 64 + 2 * 2 ^ 32 + 3) ∧
    queueTaken (queueState 3 2) (fun z va => do
      let (spa, z) ← queuePa z 0 thr (va + 64 + 8 * 2)
      let (_, z) ← queueRead z (threadAgent 0 thr) spa 8 (va + 64 + 8 * 2)
      queueWrite z (threadAgent 0 thr) 0x200004 4 3 va) = some (20 * 2 ^ 64 + 2 * 2 ^ 32 + 3) ∧ sub32 3 2 ≠ 16 ∧
    queueTaken (queueState 0 0xFFFFFFF0) (fun z _ => pure z) = some (20 * 2 ^ 64 + 0xFFFFFFF0 * 2 ^ 32) ∧
    sub32 0 0xFFFFFFF0 = 16 ∧ queueTaken (queueState 2 2) (fun z _ => pure z) = some (20 * 2 ^ 64 + 2 * 2 ^ 32 + 2) ∧ Holds thr 1 5 ∧ Ready thr 6 := by
  simp only [Acts, Reads, Holds, Ready]; decide +kernel

theorem test_witness_QueuesAndBarriers_barrier : Acts ctl thr ∧ Reads thr (w 5) 0x200000 ∧ Ready thr 6 ∧
    bits 0x200000 15 8 = 0 ∧ bits 0x200000 63 32 = 0 ∧ bits 0x200000 31 16 = 0x20 ∧ (ctl.barrier 0 0).arr = 0 ∧
    Reads thr (w 1) 5 ∧ bits 5 31 8 = 0 := by
  simp only [Acts, Reads, Ready]; decide +kernel

/-! ## Witnesses: streamers, rings, scratch pages, curds -/

/-- A shape record of 05 Table 5.2: four doublewords from 3 MiB to 4 MiB, both of handle 1. -/
def shapeRec : Nat :=
  0x5A + 2 ^ 8 + 3 * 2 ^ 16 + 2 ^ 22 + 2 ^ 26 + 0x300000 * 2 ^ 64 + 0x400000 * 2 ^ 128 + 4 * 2 ^ 512 + 2 ^ 1024 + 2 ^ 1536
/-- A schedule header of 05 Table 5.3: one entry, once. -/
def schedRec : Nat := 0x5C + 2 ^ 8
/-- A ring of two slots (05 Table 5.4), the counters RP, CP, WP, IP as given. -/
def ringRec (rp cp wp ip : Nat) : Nat :=
  2 ^ 170 + 2 ^ 166 + 2 ^ 160 + rp * 2 ^ 128 + cp * 2 ^ 96 + ip * 2 ^ 64 + wp * 2 ^ 32

/-- The shape record at 2 MiB, a ring at 2 MiB + 0x200, a schedule header at 2 MiB + 0x400 whose entry names both. -/
def copyMem (ring : Nat) : Memory :=
  let m := memWrite ctl.mem 0x200000 (natLe 256 shapeRec)
  let m := memWrite m 0x200200 (natLe 64 ring)
  let m := memWrite m 0x200400 (natLe 64 schedRec)
  memWrite m 0x200440 (natLe 32 (0x200000 + 0x200200 * 2 ^ 64))

/-- `g5` names the shape record, `g6` the ring, `g7` the schedule header. -/
def thrCopy : Thread :=
  { thr with g := [(1, ⟨5, .full⟩), (5, ⟨0x200000, .full⟩), (6, ⟨0x200200, .full⟩), (7, ⟨0x200400, .full⟩)] }
/-- Its machine, with a ring. -/
def copyState (ring : Nat) : State := { on thrCopy with mem := copyMem ring }
/-- The schedule, loaded. -/
def loadedSched : Sched := mkSched schedRec thrCopy.h (readH thrCopy 1) 0x200400 0 0 thrCopy.ref 0

/-- No shape. -/
def noShape : Shape :=
  { esz := 8, skind := .mem, dkind := .mem, sh := 0, dh := 0, soff := 0, doff := 0, scurd := 0, dcurd := 0, sspace := 0
    dspace := 0, ext := [], sstr := [], dstr := [] }
/-- A copy of the shape record, its slot the ring's first, n elements delivered. -/
def copy1 (n : Nat) : CopyEntry :=
  { shape := (parseShape shapeRec 0 0).getD noShape, hs := readH thr 1, hd := readH thr 1, hr := readH thr 1
    roff := 0x200200, slot := 0, asid := 0, cls := 0, owner := thr.ref, core := 0, begun := false, done := n, err := false
    share := false, num := 0, after := [] }
/-- Queue 0's head waits for queue 1's. -/
def fencedState : State :=
  ((copyState 0).updSqueue 0 0 0 fun x => { x with entries := [{ copy1 0 with num := 4, after := [3] }] }).updSqueue 0 0 1
    fun x => { x with entries := [{ copy1 0 with num := 3 }] }

theorem test_witness_StreamerInstructions : Acts (copyState (ringRec 0 0 0 0)) thrCopy ∧
    Reads thrCopy (w 5) 0x200000 ∧ Holds thrCopy 6 0x200200 ∧
    good (readShape (copyState (ringRec 0 0 0 0)) (threadAgent 0 thrCopy) (readH thrCopy 1) 0x200000
      (fun k => readH thrCopy (BitVec.ofNat 4 k)) 0 0) = true ∧
    ringAt (copyState (ringRec 0 0 0 0)) 0 (readH thrCopy 1) 0x200200 = .ok 0x200200 ∧
    ringWf (ringGet (copyState (ringRec 0 0 0 0)) 0x200200) = true ∧
    Reads thrCopy (w 7) 0x200400 ∧ checkHandle (readH thrCopy 1) 0x200400 64 rRX 0 = .ok 0x200400 ∧
    good (readIssue (copyState (ringRec 0 0 0 0)) (threadAgent 0 thrCopy) 0x200400 64) = true ∧
    schedOk schedRec = true ∧ (0x200400 : Word).toNat % 64 = 0 ∧ Ready thrCopy 2 ∧
    ((copyState 0).squeue 0 0 0).sched = none ∧
    heldNums fencedState 0 0 = [4, 3] ∧ (fencedState.squeue 0 0 0).entries = [{ copy1 0 with num := 4, after := [3] }] ∧
    (((copyState 0).updSqueue 0 0 0 fun x => { x with sched := some loadedSched }).squeue 0 0 0).sched =
      some loadedSched := by
  simp only [Acts, Reads, Holds, Ready]; decide +kernel

/-- A ring whose release is at `system` scope over X, one slot taken. -/
def scopedRing (cp : Nat) : Nat := setBits (setBits (ringRec 0 cp cp cp) 165 163 6) 169 166 8
/-- The copying thread with a store to the host window outstanding. -/
def thrStored : Thread := { thrCopy with prods := [hostStore] }

theorem test_witness_RingInstructions : Acts (copyState (ringRec 0 0 1 2)) thrCopy ∧
    Reads thrCopy (w 6) 0x200200 ∧ ringAt (copyState (ringRec 0 0 1 2)) 0 (readH thrCopy 1) 0x200200 = .ok 0x200200 ∧
    ringWf (ringGet (copyState (ringRec 0 0 1 2)) 0x200200) = true ∧ rgCp (ringRec 0 0 1 2) ≠ rgWp (ringRec 0 0 1 2) ∧
    rgRp (ringRec 0 0 1 2) = rgCp (ringRec 0 0 1 2) ∧
    ringAt (copyState (ringRec 0 1 1 1)) 0 (readH thrCopy 1) 0x200200 = .ok 0x200200 ∧
    ringWf (ringGet (copyState (ringRec 0 1 1 1)) 0x200200) = true ∧ rgCp (ringRec 0 1 1 1) = rgWp (ringRec 0 1 1 1) ∧
    rgRp (ringRec 0 1 1 1) ≠ rgCp (ringRec 0 1 1 1) ∧ ringWaits thrCopy (ringRec 0 1 1 1) = false ∧
    ringPending (copyState (ringRec 0 1 1 1)) 0x200200 < sub32 (rgCp (ringRec 0 1 1 1)) (rgRp (ringRec 0 1 1 1)) ∧
    Acts ((copyState (scopedRing 1)).setThread 0 thrStored) thrStored ∧ ringWf (scopedRing 1) = true ∧
    ringWaits thrStored (scopedRing 1) = true ∧
    sub32 (rgCp (scopedRing 1)) (rgRp (scopedRing 1)) = 1 ∧
    ringPending ((copyState (scopedRing 1)).setThread 0 (defer thrStored (.ring 0x200200))) 0x200200 = 1 ∧ rgRp (scopedRing 1) ≠ rgCp (scopedRing 1) ∧
    ringAt (copyState 0) 0 (readH thrCopy 1) 0x200200 = .ok 0x200200 ∧ ringWf 0 = false ∧
    regLoc thrCopy 2 = .ok (some (.g 2)) ∧ Ready thrCopy 2 ∧ ringWordOk 0x41 = true ∧
    Holds { thrCopy with g := [(6, ⟨0x200200, .full⟩), (7, ⟨0x41, .full⟩)] } 7 0x41 := by
  simp only [Acts, Reads, Holds, Ready]; decide +kernel

/-- `g5` names page 1,024 of scratch space 0; entry `e` stands there. -/
def pageState (e : Nat) : State := setEntry ctl 0 1024 e

/-- A queue halted on a page, and a live casting. -/
def waitsForPage (k : Nat) : State :=
  ((on thr).updSqueue 0 0 0 fun _ => { entries := [copy1 0], halt := some .scratch, haltPage := some k }).updCluster 0
    fun y => { y with casts := [(0, ⟨1, some (placedCast 0)⟩)] }

theorem test_witness_ScratchInstructions : Acts (pageState 0) thr ∧ MemoryForm (pageState (mkEntry 0 0 1 0 5)) ∧ 1024 = bits (0x200000 : Word).toNat 31 11 ∧
    bits 0x200000 63 32 = 0 ∧ 1024 / 2048 < 960 ∧ Reads thr (w 1) 5 ∧ Holds thr 5 0x200000 ∧ 0 < (5 : Word).toNat ∧
    1024 % 2048 + 5 ≤ 2048 ∧ eSt (sttEntry (pageState 0) 0 1024) = 0 ∧
    (∀ st ∈ [1, 2], eSt (sttEntry (pageState (mkEntry 0 0 st 0 0)) 0 1024) = st ∧
      eAsid (sttEntry (pageState (mkEntry 0 0 st 0 0)) 0 1024) = thr.asid.toNat ∧
      eProt (sttEntry (pageState (mkEntry 0 0 st 0 0)) 0 1024) ≠ 2) ∧
    eAsid (sttEntry (pageState (mkEntry 7 0 1 0 0)) 0 1024) ≠ thr.asid.toNat ∧
    eSt (sttEntry (pageState (mkEntry 0 0 3 0 0)) 0 1024) = 3 ∧
    eProt (sttEntry (pageState (mkEntry 0 0 1 2 0)) 0 1024) = 2 ∧
    heldBack ((pageState 0).cluster 0) < 4096 ∧ 4096 ≤ heldBack { pinned := List.range 4096 } ∧
    freeOfCore ((pageState 0).cluster 0) 5 = some 640 ∧ Reads thr (w 5) 0x200000 ∧ Ready thr 6 ∧
    (castSlot (waitsForPage 1024) 0).live.isSome = true ∧ (waitsForPage 1024).squeue 0 0 0 =
      { entries := [copy1 0], halt := some .scratch, haltPage := some 1024 } ∧
    queueAsid { entries := [copy1 0], halt := some .scratch, haltPage := some 1024 } = some thr.asid := by
  simp only [Acts, MemoryForm, Reads, Holds, Ready]; decide +kernel

/-- A live curd of partition 1, of 2 pages, final count 3. -/
def curd1 (shut : Bool) (pend : Nat) : CurdLive :=
  { part := 1, frames := [0, 1], strict := false, isSealed := shut, count := 3, fin := 3, pend := pend, launch := ⟨0, 0⟩
    owner := ⟨⟨0, 0⟩, 0⟩, cast := none, reserved := false, raised := false }
/-- A thread whose `g5` holds the handle of curd 0 (partition 1, generation 1), `g1` a request word, `g2` 8. -/
def thrCurd : Thread :=
  { thr with g := [(1, ⟨0x1003, .full⟩), (2, ⟨8, .full⟩), (5, ⟨0x800001, .full⟩), (7, ⟨0x8000000000100000, .full⟩)] }
/-- Cluster 0 with partition 1 enabled for ASID 0 with at most max pages, and curds. -/
def curdState (max : Nat) (l : Tab CurdSlot) : State :=
  (on thrCurd).updCluster 0 fun x => { x with
    parts := [(1, ⟨BitVec.ofNat 64 (2 ^ 63 + max * 2 ^ 16)⟩)], curds := l }

theorem test_witness_CurdInstructions : Acts (curdState 16 []) thrCurd ∧
    runningKey (curdState 16 []) thrCurd.ref = some (curdState 16 []).core ∧ thrCurd.finals = [] ∧
    (∀ q ∈ thrCurd.prods, q.under = none) ∧ (curd1 true 0).leaving = false ∧ Reads thrCurd (w 1) 0x1003 ∧
    Ready thrCurd 6 ∧ bits 0x1003 63 18 = 0 ∧ bits 0x1003 11 0 ≠ 0 ∧ partFor (curdState 16 []) 0 1 0 = true ∧
    testGrant (curdState 16 []) 0 1 (bits 0x1003 16 12 + 1) false = .granted 0 ∧
    testGrant (curdState 1 []) 0 1 (bits 0x1003 16 12 + 1) false = .refused ∧
    Reads thrCurd (w 5) 0x800001 ∧
    (∀ shut ∈ [true, false], ∀ pend ∈ [0, 3],
      openCurd (curdState 16 [(0, { live := some (curd1 shut pend) })]) 0 thrCurd 0x800001 = .ok (0, curd1 shut pend)) ∧
    ¬((6#3) = 6 ∧ (8#4).getLsbD 3 = true ∧ hostWrites thrCurd = true) ∧
    hostWrites { thrCurd with prods := [hostStore] } = true ∧
    Acts ((curdState 16 [(0, { live := some (curd1 false 0) })]).setThread 0 { thrCurd with prods := [hostStore] })
      { thrCurd with prods := [hostStore] } ∧
    openCurd ((curdState 16 [(0, { live := some (curd1 false 0) })]).setThread 0 { thrCurd with prods := [hostStore] }) 0
      { thrCurd with prods := [hostStore] } 0x800001 = .ok (0, curd1 false 0) ∧
    (curd1 true 0).isSealed = true ∧ (2#12).toNat ≤ (curd1 true 0).fin - (curd1 true 0).pend ∧
    (curd1 true 3).fin - (curd1 true 3).pend < (2#12).toNat ∧ Reads thrCurd (w 2) 8 ∧ HasRoom thrCurd ∧
    8 % 2 ^ (3#2).toNat = 0 ∧ 8 + 2 ^ (3#2).toNat ≤ curdSize (curd1 true 0) ∧
    chCluster (bits 0x800001 31 0) = 0 ∧ chPart (bits 0x800001 31 0) = 1 ∧ thrCurd.priv = false ∧
    Acts (on { thrCurd with priv := true }) { thrCurd with priv := true } ∧
    Reads { thrCurd with priv := true } (w 7) 0x8000000000100000 ∧ 2 ^ 63 + 16 * 2 ^ 16 = (0x8000000000100000 : Word).toNat ∧
    partBad (2 ^ 63 + 16 * 2 ^ 16) = false ∧ partBreaks (curdState 16 []) 0 1 (2 ^ 63 + 16 * 2 ^ 16) = false := by
  simp only [Acts, Reads, Ready, HasRoom]; decide +kernel

/-- A cluster whose frames but one are in use is short of pages. -/
theorem test_witness_CurdInstructions_short :
    testGrant ((curdState 16 []).updCluster 0 fun x => { x with
      frames := (List.range 6143).map fun f => (f, .page 0) }) 0 1 2 false = .short 1 := by decide +kernel

theorem test_witness_CurdInstructions_shares :
    (((curdState 16 []).cluster 0).frames.map (·.1)).Pairwise (· < ·) ∧
    (curdSlot (curdState 16 [(0, { live := some (curd1 true 1) })]) 0 0).live = some (curd1 true 1) ∧
    1 < (curd1 true 1).fin ∧ ({ curd1 true 1 with fin := 1 } : CurdLive).fin = 1 := by decide +kernel

/-! ## Witnesses: islands, castings, ports -/

/-- Island 0 held by the thread's launch. -/
def heldState (t : Thread) : State :=
  (on t).updIsland 0 0 fun x => { x with hold := .held ⟨0, 0⟩ ⟨⟨0, 0⟩, 0⟩ }
/-- A tile descriptor of 12 Table 12.5: E4M3, dense, columns of 256 bytes from 3 MiB on. -/
def tileRec : Nat := 0x300000 + 256 * 2 ^ 128 + 11 * 2 ^ 192
/-- `g1` = 5, `g4` = −1, `g5` the place of the descriptor, `g6` a mode word, `g7` the releasing one. -/
def thrTile : Thread :=
  { thr with g := [(1, ⟨5, .full⟩), (4, ⟨-1, .full⟩), (5, ⟨0x200000, .full⟩), (6, ⟨0xBB, .full⟩), (7, ⟨0x8000, .full⟩)] }
/-- The same with the descriptor in memory. -/
def tileState : State :=
  { heldState thrTile with mem := memWrite (heldState thrTile).mem 0x200000 (natLe 64 tileRec) }

theorem test_witness_IslandInstructions : Acts ctl thr ∧ holdsIsland (ctl.island 0 0) thr.ref.l = false ∧
    Acts tileState thrTile ∧ holdsIsland (tileState.island 0 0) thrTile.ref.l = true ∧
    Reads thrTile (w 5) 0x200000 ∧ checkHandle (readH thrTile 1) 0x200000 128 rR 0 = .ok 0x200000 ∧
    good (readIssue tileState (threadAgent 0 thrTile) 0x200000 128) = true ∧
    Holds thrTile 1 5 ∧ bits 5 63 17 = 0 ∧ bits 0x200000 63 32 = 0 ∧ bits 0x200000 21 0 % 32 = 0 ∧
    bits 5 7 0 + (bits 5 16 9 + 1) ≤ 256 ∧
    bits 0x200000 21 0 + (bits 5 16 9 + 1) * acceptedLen (tileState.island 0 0) ≤ 2 ^ 22 ∧
    Reads thrTile (w 1) 5 ∧ bits 5 63 19 = 0 ∧ bits 5 1 0 = 1 ∧ bits 5 63 32 = 0 ∧
    bits 5 9 2 + (bits 5 18 11 + 1) ≤ 256 ∧
    tileBad tileRec (tileDescOf (readH thrTile 1) tileRec) = false ∧
    good (mapE (fun (r : Nat × Nat) => checkHandle (readH thrTile 1) r.1 r.2 rRX 0)
      (tileRanges (tileDescOf (readH thrTile 1) tileRec))) = true ∧
    tileBad (2 ^ 200) (tileDescOf (readH thrTile 1) (2 ^ 200)) = true ∧ 0x200000 % 64 = 0 ∧
    good (readIssue tileState (threadAgent 0 thrTile) 0x200000 64) = true ∧
    bindPending (tileState.island 0 0) = false ∧ (tileState.island 0 0).order.length < 8 ∧
    bindPending { pending := some { desc := tileDescOf {} 0 } } = true := by
  simp only [Acts, Reads, Holds]; decide +kernel

theorem test_witness_IslandInstructions_mode : Reads thrTile (w 5) 0x200000 ∧ modeOk 0x200000 = false ∧
    Reads thrTile (w 6) 0xBB ∧ modeOk 0xBB = true ∧ mdRel 0xBB = false ∧ Reads thrTile (w 7) 0x8000 ∧
    modeOk 0x8000 = true ∧ mdRel 0x8000 = true ∧ (ctl.island 0 0).hold = .free ∧
    (tileState.island 0 0).hold = .held ⟨0, 0⟩ ⟨⟨0, 0⟩, 0⟩ ∧ mayTake tileState 0 0 thrTile 0xBB = false ∧
    (((on thrTile).updIsland 0 0 fun x => { x with hold := .held ⟨1, 0⟩ ⟨⟨1, 0⟩, 0⟩ }).island 0 0).hold =
      .held ⟨1, 0⟩ ⟨⟨1, 0⟩, 0⟩ ∧
    mayTake ((on { thrTile with cls := 1 }).updIsland 0 0 fun x => { x with hold := .held ⟨1, 0⟩ ⟨⟨1, 0⟩, 0⟩ }) 0 0
      { thrTile with cls := 1 } 0xBB = false := by
  simp only [Reads]; decide +kernel

/-- A `mov` from input port 0 to output port 0 (10 Table 10.2, 02 Tables 2.15, 2.16). -/
def movWord : Word := BitVec.ofNat 64 (0x10 * 2 ^ 56 + 0x1E3 * 2 ^ 30 + 0x1FF * 2 ^ 21)
/-- The block that holds it: curd depth 1, one context, one port each way (02 Table 2.17). -/
def blockRec : Nat := 0xB1 * 2 ^ 120 + 2 ^ 116 + 2 ^ 105 + 2 ^ 101 + 0x7F * 2 ^ 92 + 2 ^ 80 + 2 ^ 68 + 0x80
/-- Its image, with one binding slot (02 Table 2.20). -/
def imageBytes1 : List Byte :=
  natLe 16 (0xCA * 2 ^ 120 + 2 ^ 116 + 2 ^ 100 + 40 * 2 ^ 64) ++ natLe 16 blockRec ++ natLe 8 movWord.toNat
/-- The image, read. -/
def image1 : Image := (parseImage imageBytes1).getD ⟨[], [], 0⟩
/-- The casting it makes, its id 1 in cluster 0. -/
def cast1 : CastLive := freshCast ctl 0 thr image1 [0]
/-- `g5` the place of the image, `g6` the casting's id, `g7` another cluster's, `g10`-`g14` a billet. -/
def thrCast : Thread :=
  { thr with g := [(4, ⟨-1, .full⟩), (5, ⟨0x200000, .full⟩), (6, ⟨1, .full⟩), (7, ⟨0x8000001, .full⟩), (10, ⟨9, .full⟩)] }
/-- The image in memory, partition 0 enabled with MIN = min, and castings. -/
def castState (min : Nat) (l : Tab CastSlot) : State :=
  { on thrCast with mem := memWrite (on thrCast).mem 0x200000 imageBytes1 }.updCluster 0 fun x => { x with
    parts := [(0, ⟨BitVec.ofNat 64 (2 ^ 63 + 16 * 2 ^ 16 + min)⟩)], casts := l }
/-- With that casting live. -/
def castOn : State := castState 1 [(0, ⟨1, some cast1⟩)]

theorem test_witness_CastingInstructions : imageOk image1 = true ∧ Acts (castState 1 []) thrCast ∧
    Reads thrCast (w 5) 0x200000 ∧ Ready thrCast 2 ∧
    ((readImage (castState 1 []) 0 thrCast (readH thrCast 1) 0x200000).toOption.map (·.1)) = some image1 ∧
    good (placeImage (castState 1 []) 0 thrCast 2 1 image1) = true ∧
    Holds thrCast 6 1 ∧ (namedCast (castState 1 []) 0 thrCast 1).toOption = some none ∧
    Acts castOn thrCast ∧ (namedCast castOn 0 thrCast 1).toOption = some (some (0, cast1)) ∧
    (0#5).toNat < cast1.ns ∧ cast1.ns ≤ (1#5).toNat ∧ (readH thrCast 1).v = true ∧
    (readH thrCast 1).asid = thrCast.asid ∧ (readH thrCast 1).rights &&& rX = rX ∧
    ((castSlot (tryRetire (updCast castOn 0 fun k => { k with ending := true }) 0) 0).live.map (·.retired)) =
      some true ∧
    ((castSlot (tryRetire (updCast (updCast castOn 0 fun k => { k with ins := [(0, { q := [⟨0, 0⟩] })] }) 0 fun k =>
      { k with ending := true }) 0) 0).live.map (·.retired)) = some false ∧
    Holds thrCast 4 (-1) ∧ bits (-1 : Word).toNat 63 32 ≠ 0 ∧ Holds thrCast 7 0x8000001 ∧ bits 0x8000001 63 32 = 0 ∧
    bits 0x8000001 31 27 ≠ keyCluster castOn.core := by
  simp only [Acts, Reads, Holds, Ready]; decide +kernel

/-- Every fabric page of the cluster is taken. -/
def allPages : State :=
  castState 1 [(255, ⟨1, some { cast1 with depth := 0, place := .placed (List.range 192) }⟩)]

theorem test_witness_CastingInstructions_place :
    partFor (castState 1 []) 0 0 0 = true ∧ curdDepth image1.blocks = 1 ∧ ptMin (partDesc (castState 1 []) 0 0) = 1 ∧
    partDepth ((castState 1 []).cluster 0) 0 + 1 ≤ 1 ∧ heldBack ((castState 1 []).cluster 0) + 1 ≤ 4096 ∧
    freeCast (castState 1 []) 0 = some 0 ∧ choosePages (castState 1 []) 0 0 0 image1.blocks = some [0] ∧
    partFor ctl 0 0 0 = false ∧ choosePages allPages 0 0 0 image1.blocks = none ∧ freeCast allPages 0 = some 0 ∧
    partFor allPages 0 0 0 = true ∧ ptMin (partDesc allPages 0 0) = 1 ∧ partDepth (allPages.cluster 0) 0 + 1 ≤ 1 ∧
    heldBack (allPages.cluster 0) + 1 ≤ 4096 ∧ ptMin (partDesc (castState 0 []) 0 0) < curdDepth image1.blocks ∧
    ptMin (partDesc castOn 0 0) < partDepth (castOn.cluster 0) 0 + 1 := by decide +kernel

/-- The casting with a billet on its output port. -/
def castOut : CastLive := { cast1 with outs := [(0, { q := [⟨7, 0⟩] })] }

theorem test_witness_PortInstructions : Acts castOn thrCast ∧
    (namedCast castOn 0 thrCast 1).toOption = some (some (0, cast1)) ∧ Holds thrCast 6 1 ∧ Reads thrCast (w 6) 1 ∧
    readGroup thrCast 10 true 5 = .ok [9, 0, 0, 0, 0] ∧ cast1.ins.length ≤ (1#6).toNat ∧ (0#6).toNat < cast1.ins.length ∧
    bits ([9, 0, 0, 0, 0].getD 4 (0 : Word)).toNat 63 32 = 0 ∧ bits (billetOf [9, 0, 0, 0, 0]).tag.toNat 7 0 = 0 ∧
    tagKind (billetOf [9, 0, 0, 0, 0]).tag = 0 ∧ portRefuses cast1 0 = false ∧
    (∀ j < 5, destReady thrCast (regAdd 10 j) = .ok ()) ∧ (0#6).toNat < cast1.outs.length ∧ offered cast1 0 = none ∧
    (namedCast (castState 1 [(0, ⟨1, some castOut⟩)]) 0 thrCast 1).toOption = some (some (0, castOut)) ∧
    offered castOut 0 = some ⟨7, 0⟩ ∧ HasRoom thrCast := by
  simp only [Acts, Reads, Holds, HasRoom]; decide +kernel

/-! ## Witnesses: key-value blocks, draft windows, the pod -/

/-- A pool block of 13 Table 13.1: 4 pages of 16 rows of 256 bytes from 3 MiB on, 16 buckets, 2 slots, a ring. -/
def poolRec (fhead fcnt : Nat) : Nat :=
  0x300000 + 0x210000 * 2 ^ 64 + 0x220000 * 2 ^ 128 + 0x400000 * 2 ^ 192 + (4 + 2 ^ 24 + 4 * 2 ^ 32) * 2 ^ 256 +
  (fhead + fcnt * 2 ^ 32) * 2 ^ 320 + 0x230000 * 2 ^ 384 + 2 * 2 ^ 448
/-- A sequence of that pool, its record at 0x240000. -/
def seq1 (ntok npge : Nat) : Seq := ⟨0, readH thr 1, 0x200000, 0x240000, ntok, npge, 8, [], 0⟩
/-- `g5` the pool, `g8`-`g11` the operand registers. -/
def thrKv (ws : List Word) : Thread :=
  { thr with g := [(5, ⟨0x200000, .full⟩), (6, ⟨0x4000, .full⟩)] ++ ws.zipIdx.map fun x => (8 + x.2, ⟨x.1, .full⟩) }
/-- A machine with that pool, its lowest GiB in the translation cache: descriptors of pages 0-3, a first list entry, an entry
of bucket 3, and a sequence. -/
def kvState (t : Thread) (pool : Nat) (descs : List Nat) (entry pfx : Nat) (q : Option Seq) : State :=
  let s := on t
  let m := memWrite s.mem 0x200000 (natLe 128 pool)
  let m := memWrite m 0x210000 (descs.map (natLe 8)).flatten
  let m := memWrite m (0x220000 + 3 * 128) (natLe 32 pfx)
  let m := memWrite m 0x230000 (natLe 64 (ringRec 0 0 0 0))
  { s with
    mem := memWrite m (0x240000 + 128) (natLe 4 entry), tlb := [⟨0, 0, 30, 0, 0, 0, true, true⟩]
    seqs := [(0, ⟨1, q⟩)] }
/-- The pool, as the instructions name it. -/
def poolRef1 : PoolRef := ⟨0, readH thr 1, 0x200000⟩
/-- The prefix entry of tag 3: page 1, 16 rows. -/
def prefix3 : Nat := 3 + (2 ^ 29 + 15 * 2 ^ 24 + 1) * 2 ^ 128

theorem test_witness_KeyValueInstructions_pool :
    let t := thrKv []
    let s := kvState t (poolRec 0 4) [] 0 0 none
    Acts s t ∧ Reads t (w 5) 0x200000 ∧ readGroup t 8 true 4 = .ok [0, 0, 0, 0] ∧
    poolAt s t (readH t 1) 0x200000 true = .ok poolRef1 ∧ HasRoom t := by
  simp only [Acts, Reads, HasRoom]; decide +kernel

theorem test_witness_KeyValueInstructions_open :
    let t := thrKv [0x801, 0x240000]
    let s := kvState t (poolRec 0 4) [] 0 0 none
    Acts s t ∧ readGroup t 8 true 4 = .ok [0x801, 0x240000, 0, 0] ∧
    poolAt s t (readH t 1) 0x200000 false = .ok poolRef1 ∧ 0x801 &&& 0xFFFFFF0F = 0x801 ∧ bits 0x801 31 8 ≠ 0 ∧
    openRecord s t (readH t 1) 0x240000 (bits 0x801 31 8) = .ok [] ∧ freeSeq s = some 0 := by
  simp only [Acts]; decide +kernel

theorem test_witness_KeyValueInstructions_append :
    let t := thrKv [2, 0x4000]
    let s := kvState t (poolRec 0 4) [] 2 0 (some (seq1 1 1))
    let s0 := kvState t (poolRec 0xFFFFFF 0) [] 2 0 (some (seq1 0 0))
    Acts s t ∧ readGroup t 8 true 4 = .ok [2, 0x4000, 0, 0] ∧
    poolAt s t (readH t 1) 0x200000 false = .ok poolRef1 ∧ bits 0x4000 63 32 = 0 ∧
    seqOn s t poolRef1 0x4000 = .ok ⟨0, 1, seq1 1 1⟩ ∧ 2 &&& 0xF = 2 ∧ seqWindows s 0 = [] ∧ HasRoom t ∧
    appendKind s ⟨0, 1, seq1 1 1⟩ 1 = .ok (.same 2) ∧ recordReach s (seq1 1 1) 0 = .ok () ∧
    Acts s0 t ∧ poolAt s0 t (readH t 1) 0x200000 false = .ok poolRef1 ∧
    seqOn s0 t poolRef1 0x4000 = .ok ⟨0, 1, seq1 0 0⟩ ∧ seqWindows s0 0 = [] ∧
    appendKind s0 ⟨0, 1, seq1 0 0⟩ 0 = .ok .fresh ∧ plFcnt s0 poolRef1 = 0 := by
  simp only [Acts, HasRoom]; decide +kernel

theorem test_witness_KeyValueInstructions_attach :
    let t := thrKv [3, 0x4000, 3]
    let s := kvState t (poolRec 0 4) [0, 2 ^ 40, 0, 0] 0 prefix3 (some (seq1 0 0))
    let s0 := kvState t (poolRec 0 4) [] 0 0 (some (seq1 0 0))
    Acts s t ∧ readGroup t 8 true 4 = .ok [3, 0x4000, 3, 0] ∧ seqOn s t poolRef1 0x4000 = .ok ⟨0, 1, seq1 0 0⟩ ∧
    seqWindows s 0 = [] ∧ (seq1 0 0).ntok % 16 = 0 ∧ (seq1 0 0).npge < (seq1 0 0).lcap ∧
    lookup s poolRef1 (tagOf 3 0) = .ok (some (2 ^ 29 + 15 * 2 ^ 24 + 1)) ∧
    checkedDesc s poolRef1 1 = .ok (pageDesc s poolRef1 1) ∧ recordReach s (seq1 0 0) 0 = .ok () ∧
    Acts s0 t ∧ lookup s0 poolRef1 (tagOf 3 0) = .ok none := by
  simp only [Acts]; decide +kernel

theorem test_witness_KeyValueInstructions_publish :
    let t := thrKv [0xF00000004, 0x4000, 3]
    let s := kvState t (poolRec 0 4) [] 2 0 (some (seq1 16 1))
    Acts s t ∧ readGroup t 8 true 4 = .ok [0xF00000004, 0x4000, 3, 0] ∧
    seqOn s t poolRef1 0x4000 = .ok ⟨0, 1, seq1 16 1⟩ ∧ 0xF00000004 &&& 0x1FFFFFFF0F = 0xF00000004 ∧
    namedEntry s ⟨0, 1, seq1 16 1⟩ 0 = .ok 2 ∧ leSt 2 = 0 ∧ pdPub (pageDesc s poolRef1 2) = false ∧
    checkedDesc s poolRef1 2 = .ok (pageDesc s poolRef1 2) ∧
    checkedBucket s poolRef1 (bucketOf s poolRef1 (tagOf 3 0)) = .ok () ∧
    16 * 0 + (bits 0xF00000004 36 32 + 1) ≤ 16 ∧ matchTag s poolRef1 (tagOf 3 0) = none ∧
    firstFrom (fun k => !pfV (prefixHi s poolRef1 (bucketOf s poolRef1 (tagOf 3 0)) k)) 0 4 = some 0 := by
  simp only [Acts]; decide +kernel

theorem test_witness_KeyValueInstructions_close_demote_find :
    let t := thrKv [5, 0x4000]
    let s := kvState t (poolRec 0 4) [0, 0, 2 ^ 40 + 2 ^ 24, 0] 2 0 (some (seq1 16 1))
    let r : SeqRef := ⟨0, 1, seq1 16 1⟩
    Acts s t ∧ readGroup t 8 true 4 = .ok [5, 0x4000, 0, 0] ∧ seqOn s t poolRef1 0x4000 = .ok r ∧
    seqWindows s 0 = [] ∧ mapE (checkedEntry s r.q) (List.range 1) = .ok [2] ∧ HasRoom t ∧
    checkedDesc s poolRef1 2 = .ok (pageDesc s poolRef1 2) ∧
    readGroup (thrKv [6 + 2 ^ 32, 0x4000]) 8 true 4 = .ok [6 + 2 ^ 32, 0x4000, 0, 0] ∧
    bits (6 + 2 ^ 32) 55 32 < plNsl s poolRef1 ∧ namedEntry s r 0 = .ok 2 ∧ leSt 2 = 0 ∧
    pdRef (pageDesc s poolRef1 2) = 1 ∧ readGroup t 8 true 2 = .ok [5, 0x4000] ∧
    lookup s poolRef1 (tagOf 5 0x4000) = .ok none := by
  simp only [Acts, HasRoom]; decide +kernel

theorem test_witness_KeyValueInstructions_promote :
    let t := thrKv []
    let s := kvState t (poolRec 0 4) [0, 0, 0, 0] (2 ^ 30 + 1) 0 (some (seq1 16 1))
    let r : SeqRef := ⟨0, 1, seq1 16 1⟩
    let held := addCopy s (.promote r 0 3 1 0 false t.ref)
    Acts s t ∧ Reads t (w 6) 0x4000 ∧ Ready t 2 ∧ promoteArg s t 0x4000 = .ok (r, 0) ∧
    namedEntry s r 0 = .ok (2 ^ 30 + 1) ∧ leSt (2 ^ 30 + 1) = 2 ∧
    promotionRing s r = .ok (0x230000, ringGet s 0x230000) ∧ promotionOf s r 0 = none ∧ plFcnt s poolRef1 ≠ 0 ∧
    sub32 (rgIp (ringGet s 0x230000)) (rgRp (ringGet s 0x230000)) ≠ rgN (ringGet s 0x230000) ∧
    checkedHead s poolRef1 = .ok () ∧ promotionOf held r 0 = some (0, .promote r 0 3 1 0 false t.ref) ∧
    namedEntry (kvState t (poolRec 0 4) [] 2 0 (some (seq1 16 1))) r 0 = .ok 2 ∧ leSt 2 ≠ 2 := by
  simp only [Acts, Reads, Ready]; decide +kernel

/-- An open window of sequence 0 with two positions, its first with a snapshot. -/
def win1 (ord : Nat) : Window := ⟨0, ⟨0, 0⟩, ord, 4, 2, 16, 0, 1, .opened, 0, 0, false, [[], []], [], [], []⟩
/-- `g5` the window's id, `g6` the sequence's handle, `g1` a position. -/
def thrWin : Thread := { thr with g := [(1, ⟨1, .full⟩), (2, ⟨3, .full⟩), (5, ⟨0x1000, .full⟩), (6, ⟨0x4000, .full⟩)] }
/-- A machine with sequence 0 and n windows. -/
def winState (n : Nat) : State :=
  { on thrWin with
    seqs := [(0, ⟨1, some (seq1 16 1)⟩)], wins := (List.range n).map fun i => (i, ⟨1, some (win1 i)⟩) }

theorem test_witness_DraftInstructions : Acts (winState 1) thrWin ∧ Reads thrWin (w 6) 0x4000 ∧ Ready thrWin 7 ∧
    bits 0x4000 63 32 = 0 ∧ seqNamed (winState 1) thrWin 0x4000 = .ok ⟨0, 1, seq1 16 1⟩ ∧
    firstFrom (fun i => (tabGet (winState 1).wins i {}).live.isNone) 0 4096 = some 1 ∧
    (seqWindows (winState 1) 0).length < 16 ∧ Acts (winState 16) thrWin ∧
    seqNamed (winState 16) thrWin 0x4000 = .ok ⟨0, 1, seq1 16 1⟩ ∧ 16 ≤ (seqWindows (winState 16) 0).length ∧
    Reads thrWin (w 5) 0x1000 ∧ openNamed (winState 1) thrWin 0x1000 = .ok (0, win1 0) ∧ Holds thrWin 1 1 ∧
    ((seqWindows (winState 1) 0).getLast?.map (·.1)) = some 0 ∧ 1 ≤ (win1 0).napp ∧ Holds thrWin 2 3 ∧
    (win1 0).napp < 3 ∧ (win1 0).regions = [] ∧ (win1 0).regions.flatten.any (badPiece (winState 1) (win1 0)) = false ∧
    [[(0x300000, 256)]].any (badPiece { winState 1 with rel := { badLines := [0xC000] } } (win1 0)) = true ∧
    windowNamed (winState 1) thrWin.ref.l 0x1000 = some (0, win1 0) ∧
    windowNamed (winState 0) thrWin.ref.l 0x1000 = none ∧ hostWrites thrWin = false ∧
    Acts ((winState 1).setThread 0 { thrWin with prods := [hostStore] }) { thrWin with prods := [hostStore] } ∧
    hostWrites { thrWin with prods := [hostStore] } = true ∧ (8#4).getLsbD 3 = true ∧
    (tabGet { winState 1 with wins := [(0, ⟨1, some { win1 0 with waits := true }⟩)] }.wins 0 {}).live =
      some { win1 0 with waits := true } := by
  simp only [Acts, Reads, Holds, Ready]; decide +kernel

/-- A pod descriptor of 18 Table 18.7: eight bytes from 3 MiB, to 4 MiB, a ring at 2 MiB + 0x200. -/
def podRec : Nat := 0x300000 + 0x400000 * 2 ^ 64 + 8 * 2 ^ 192 + 0x200200 * 2 ^ 224
/-- The machine with it, and a ring. -/
def podInState (ip : Nat) : State :=
  { on thrCopy with mem := memWrite (memWrite ctl.mem 0x200000 (natLe 64 podRec)) 0x200200 (natLe 64 (ringRec 0 0 0 ip)) }

/-- A request to member 3 that is outstanding on port 5. -/
def peerProd : Producer := { hostProd with wait := some (.peer 3 0 5) }
/-- A thread whose `g2` names a barrier of member 3. -/
def thrFar : Thread := { thrCopy with g := [(1, ⟨5, .full⟩), (2, ⟨3, .full⟩)] }
/-- Member 3 up, every port down, a combining switch, and producers of that thread. -/
def podFar (l : List Producer) : State :=
  { on { thrFar with prods := l } with
    regs := { ctl.regs with podwin := [(3, 1)], podid := 0x10000 }, ports := List.range 24 }

theorem test_witness_PodInstructions : Acts (podInState 0) thrCopy ∧ Reads thrCopy (w 5) 0x200000 ∧ Holds thrCopy 2 0 ∧
    checkHandle (readH thrCopy 1) 0x200000 64 rRX 0 = .ok 0x200000 ∧
    good (readIssue (podInState 0) (threadAgent 0 thrCopy) 0x200000 64) = true ∧ podSet 0 = some [0] ∧
    (podInState 0).member ∈ [0] ∧ podDescBad podRec none = false ∧ podDescBad podRec (some 0) = false ∧
    checkHandle (readH thrCopy 1) 0x300000 8 rR 0 = .ok 0x300000 ∧
    good (podRing (podInState 0) thrCopy (readH thrCopy 1) 0x200200) = true ∧ sub32 0 0 ≠ 2 ∧ sub32 2 0 = 2 ∧
    good (podRing (podInState 2) thrCopy (readH thrCopy 1) 0x200200) = true ∧
    ((podInState 0).podOps.filter fun x => x.owner = thrCopy.ref).length < 16 ∧
    ((podSource (podInState 0) (threadAgent 0 thrCopy) 0x300000 8).toOption.map (·.1)) = some [0, 0, 0, 0, 0, 0, 0, 0] ∧
    (∀ m ∈ podMembers 0, reaches (podInState 0) m = true) ∧ reaches (podInState 0) 3 = false ∧
    ((podSource { podInState 0 with rel := { badLines := [0xC000] } } (threadAgent 0 thrCopy) 0x300000 8).toOption.map
      (·.1)) = some [] ∧
    combineWaits (podInState 0) (some 0) 0 0 = false ∧ (podInState 0).early = [] ∧
    bits 0 63 18 = 0 ∧ Reads thrCopy (w 1) 5 ∧ (5 : Word).toNat ≤ 65535 ∧ HasRoom thrCopy ∧ Ready thrCopy 2 ∧
    bits 0 9 0 = (podInState 0).member ∧ hostWrites thrCopy = false ∧ hostWrites thrStored = true ∧
    thrCopy.rels = [] ∧ (defer thrStored (.ring 0x200200)).rels ≠ [] ∧
    Acts ((podInState 0).setThread 0 thrStored) thrStored ∧
    Acts (podFar []) thrFar ∧ Holds thrFar 2 3 ∧ bits 3 9 0 = 3 ∧ 3 ≠ (podFar []).member ∧ memberUp (podFar []) 3 = true ∧
    portWaits (podFar []) 3 0 = false ∧ Acts (podFar [peerProd]) { thrFar with prods := [peerProd] } := by
  simp only [Acts, Reads, Holds, Ready, HasRoom]; decide +kernel

/-- A port that is down drains, and the only one that the hashes pick: requests that would leave by it wait. -/
theorem test_witness_PodInstructions_drains : portWaits (podFar [peerProd]) 3 0 = true ∧
    combineWaits (podFar [peerProd]) (some 0) 0 0 = true := by
  have h : hashPorts (podFar [peerProd]) = [5] := by decide +kernel
  constructor
  · simp only [portWaits, portFor, portBy, h]
    simp [Nat.mod_one, podFar]
  · simp only [combineWaits, combinePortOf, portBy, h]
    simp [Nat.mod_one, podFar, podSwitch, bit]

/-! ## Witnesses: the fabric -/

/-- The casting of a placed fabric instruction with the state of its one instruction. -/
def castWith (word : Word) (x : NodeSt) : CastLive := { placedCast word with nodes := [(0, x)] }
/-- The machine whose turn is that instruction's. -/
def fab (word : Word) (x : NodeSt) : State :=
  (State.reset.withFetchWord 64 word.toNat).updCluster 0 fun y => { y with
    casts := [(0, ⟨1, some (castWith word x)⟩)], parts := [(0, ⟨0x8000000000100010⟩)] }
/-- An instruction to output port 0, with an immediate. -/
def fOut (imm : BitVec 21) : FWord := ⟨0, 0, 0, 0, 0, 0, 0x1E3, 0x1FF, imm⟩
/-- A data billet whose every field is v. -/
def datum (v : Nat) : Billet := ⟨BitVec.ofNat 256 (v * (2 ^ 256 - 1) / (2 ^ 32 - 1)), 0⟩
/-- A marker. -/
def markB : Billet := ⟨0, mkTag 0 0 1⟩
/-- An instruction with billets at a and b. -/
def ab (a b : List Billet) : NodeSt := { qa := a, qb := b }

theorem test_witness_LaneResults :
    let s := fab movWord (ab [datum 3] [datum 5])
    let k := castWith movWord (ab [datum 3] [datum 5])
    Fires s (fOut 0) k (takeA k ⟨0, 0, 0⟩) (datum 3) (datum 3) ∧ imBsrc (fOut 0) = 0 ∧
    Fires s (fOut 0x80000) k (takeB (takeA k ⟨0, 0, 0⟩) ⟨0, 0, 0⟩) (datum 3) (datum 5) ∧ imBsrc (fOut 0x80000) = 1 ∧
    Fires s (fOut 0x100000) k (takeA k ⟨0, 0, 0⟩) (datum 3) (datum 3) ∧ imBsrc (fOut 0x100000) = 2 ∧
    bit (fOut 0x100000).imm.toNat 18 = false := by
  simp only [Fires, NodeTurn]; decide +kernel

theorem test_witness_LaneResults_others :
    let s := fab movWord (ab [datum 3] [datum 5])
    let k := castWith movWord (ab [datum 3] [datum 5])
    Fires s (fOut 0x140000) k (takeA k ⟨0, 0, 0⟩) (datum 3) (datum 3) ∧ bit (fOut 0x140000).imm.toNat 18 = true ∧
    Fires s (fOut 0x401) k (takeA k ⟨0, 0, 0⟩) (datum 3) (datum 3) ∧ bits (imLow (fOut 0x401)) 10 9 = 2 ∧
    ((viewOf (fOut 0x401) 0 (datum 3) (datum 3)).lanes.any fun i =>
      (xlRead (fOut 0x401) (viewOf (fOut 0x401) 0 (datum 3) (datum 3)) i).isNone) = true := by
  simp only [Fires, NodeTurn]; decide +kernel

theorem test_witness_CompareNodes :
    let k := castWith movWord (ab [datum 3] [datum 5])
    Fires (fab movWord (ab [datum 3] [datum 5])) (fOut 0x80690) k (takeB (takeA k ⟨0, 0, 0⟩) ⟨0, 0, 0⟩) (datum 3)
      (datum 5) ∧ imBsrc (fOut 0x80690) ≠ 2 := by
  simp only [Fires, NodeTurn]; decide +kernel

theorem test_witness_RoundingResults :
    let k := castWith movWord (ab [datum 3] [])
    let f : FWord := { fOut 0x8020 with sh := 3 }
    Fires (fab movWord (ab [datum 3] [])) (fOut 0) k (takeA k ⟨0, 0, 0⟩) (datum 3) (datum 3) ∧
    bits (imLow (fOut 0)) 5 4 ≠ 2 ∧
    Fires (fab movWord (ab [datum 3] [])) f k (takeA k ⟨0, 0, 0⟩) (datum 3) (datum 3) ∧
    bits (imLow f) 5 4 = 2 ∧ (∃ i < (viewOf f 0 (datum 3) (datum 3)).n, (viewOf f 0 (datum 3) (datum 3)).en i = false) := by
  simp only [Fires, NodeTurn]; decide +kernel

theorem test_witness_ReductionSum : redOp (fOut 0) = 0 ∧ redSat (fOut 0) = false ∧ 0 < 8 ∧ 6 ≤ 6 ∧
    (List.replicate 64 255).length = 2 ^ 6 ∧ (∀ x ∈ List.replicate 64 255, x < 2 ^ 8) ∧ [7].length = 2 ^ 0 := by
  decide +kernel

theorem test_witness_ComputePassing :
    let k := fun a b => castWith movWord (ab a b)
    let n : NodeRef := ⟨0, 0, 0⟩
    let o := fOut 0x80000
    (∀ x ∈ [([], []), ([datum 3], []), ([markB], [markB]), ([markB], [⟨0, mkTag 0 1 1⟩]), ([markB], [datum 3]),
      ([⟨0, mkTag 0 0 3⟩], [datum 3]), ([datum 3], [⟨0, mkTag 0 0 3⟩])],
      NodeTurn (fab movWord (ab x.1 x.2)) (k x.1 x.2)) ∧
    headA (k [] []) n = none ∧ headA (k [datum 3] []) n = some (datum 3) ∧ headB (k [datum 3] []) n = none ∧
    imBsrc (fOut 0) ≠ 1 ∧ imBsrc o = 1 ∧ roomFor (takeA (k [datum 3] []) n) n (targetsOf o) = true ∧
    roomFor { k [datum 3] [] with outs := [(0, { q := List.replicate 16 (datum 3) })] } n (targetsOf o) = false ∧
    isMarker markB = true ∧ tagSeq markB.tag ≠ tagSeq (mkTag 0 1 1) ∧ isMarker (datum 3) = false ∧
    isData ⟨0, mkTag 0 0 3⟩ = false ∧ isMarker ⟨0, mkTag 0 0 3⟩ = false ∧
    pmHolds { fOut 0 with pm := 1 } (datum 3).tag = false := by
  simp only [NodeTurn]; decide +kernel

theorem test_witness_FlowNodes :
    let n : NodeRef := ⟨0, 0, 0⟩
    let k := fun x => castWith movWord x
    (∀ x ∈ [ab [datum 3] [], ab [markB] [], ab [] [datum 3], ab [datum 3] [datum 5]],
      NodeTurn (fab movWord x) (k x)) ∧
    headA (k (ab [datum 3] [])) n = some (datum 3) ∧ roomFor (takeA (k (ab [datum 3] [])) n) n (targetsOf (fOut 0)) = true ∧
    isMarker markB = true ∧ isMarker (datum 3) = false ∧ isData (datum 3) = true ∧
    headC (k (ab [datum 3] [])) n = none ∧ 0 < (nodeAt (k { qa := [datum 3], credit := 1 }) n).credit ∧
    (nodeAt (k (ab [datum 3] [])) n).credit = 0 ∧ headC (k { qc := [datum 3] }) n = some (datum 3) ∧
    headA (k { qc := [datum 3] }) n = none ∧ (nodeAt (k { qc := [datum 3], credit := 65534 }) n).credit < 65535 ∧
    headB (k (ab [datum 3] [])) n = none ∧ (nodeAt (k (ab [datum 3] [])) n).out = false ∧
    headB (k (ab [] [datum 3])) n = some (datum 3) ∧ roomFor (takeB (k (ab [] [datum 3])) n) n (targetsOf (fOut 0)) = true ∧
    headA (k (ab [] [datum 3])) n = none ∧ (nodeAt (k { qa := [datum 3], qb := [datum 5], lastB := some false }) n).lastB =
      some false := by
  simp only [NodeTurn]; decide +kernel

theorem test_witness_FlowNodes_merge :
    let n : NodeRef := ⟨0, 0, 0⟩
    let k := fun x => castWith movWord x
    let late : Billet := ⟨0, mkTag 0 65535 0⟩
    let two : Billet := ⟨0, mkTag 0 2 0⟩
    NodeTurn (fab movWord (ab [datum 3] [])) (k (ab [datum 3] [])) ∧ headA (k (ab [datum 3] [])) n = some (datum 3) ∧
    isMarker (datum 3) = false ∧ headB (k (ab [datum 3] [])) n = none ∧ seqAhead 0 (datum 3) < 32768 ∧
    0 < mergeDepth (fOut 8) (blockAt (k (ab [datum 3] [])) 0) ∧ 32768 ≤ seqAhead 0 late ∧ seqAhead 0 two ≠ 0 ∧
    tagSeq two.tag = tagSeq (mkTag 3 2 0) ∧
    (nodeAt (k { qa := [two], buf := [datum 3] }) n).buf.find? (fun b => seqAhead 0 b = 0) = some (datum 3) ∧
    roomFor (k { qa := [two], buf := [datum 3] }) n (targetsOf (fOut 0)) = true := by
  simp only [NodeTurn]; decide +kernel

/-- A held billet, its access performed or waiting. -/
def heldB (st : HeldState) (taken : Nat) : Held := ⟨datum 0, datum 0, st, taken, 0, 0, 0, []⟩
/-- An `ld.s` of 4 bytes at offset 0 that sends to output port 0. -/
def ldWord : Word := BitVec.ofNat 64 (0xA0 * 2 ^ 56 + 0x1E3 * 2 ^ 30 + 0x1FF * 2 ^ 21)

theorem test_witness_MemoryNodes :
    let n : NodeRef := ⟨0, 0, 0⟩
    let k := fun x => castWith ldWord x
    let full : NodeSt := { qa := [datum 0], held := (List.range 8).map (heldB .waiting) }
    let done : NodeSt := { held := [heldB .performed 0] }
    (∀ x ∈ [ab [] [], ab [datum 0] [], ab [markB] [], full, done], NodeTurn (fab ldWord x) (k x)) ∧
    readyHeld false 5 (ab [] []) = none ∧ headA (k (ab [] [])) n = none ∧ headA (k (ab [datum 0] [])) n = some (datum 0) ∧
    isMarker (datum 0) = false ∧ readyHeld false 5 full = none ∧ 8 ≤ full.held.length ∧ isMarker markB = true ∧
    roomFor (takeA (k (ab [markB] [])) n) n (targetsOf (fOut 0)) = true ∧ readyHeld false 5 done = some (heldB .performed 0) ∧
    roomFor (k done) n (targetsOf (fOut 0)) = true ∧ headA (emitTo (k (ab [] [])) n (targetsOf (fOut 0)) (datum 0)) n = none ∧
    nodeActs (emitTo (k (ab [] [])) n (targetsOf (fOut 0)) (datum 0)) n = true ∧
    roomFor { k done with outs := [(0, { q := List.replicate 16 (datum 3) })] } n (targetsOf (fOut 0)) = false := by
  simp only [NodeTurn]; decide +kernel

/-- The `ld.s` with one held access, page 0 of space 0 resident in frame 5. -/
def accessState (b : Billet) : State :=
  setEntry (fab ldWord { held := [{ heldB .waiting 0 with src := b }] }) 0 0 (mkEntry 0 0 1 0 5)

theorem test_witness_MemoryNodes_access :
    let n : NodeRef := ⟨0, 0, 0⟩
    let f := FWord.ofBits ldWord
    let x : NodeSt := { held := [heldB .waiting 0] }
    (castSlot (accessState (datum 0)) 0).live = some (castWith ldWord x) ∧
    (nodeAt (castWith ldWord x) n).held.find? (fun h => h.taken = 0) = some (heldB .waiting 0) ∧
    nodeInstr (accessState (datum 0)) n = some (.ldS f) ∧
    heldFree (accessState (datum 0)) .ldS f (castWith ldWord x) n (heldB .waiting 0) = true ∧
    badBank (accessState (datum 0)) (frameAddr 0 5 0) 4 = false ∧
    spanAligned .ldS (spanOf .ldS f (datum 0)) = true ∧ 0 ≤ (spanOf .ldS f (datum 0)).base ∧
    (spanOf .ldS f (datum 0)).base + (spanOf .ldS f (datum 0)).size ≤ 2 ^ 22 ∧
    resolvePage (accessState (datum 0)) 0 0 0 false = .frame 5 ∧
    spanAligned .ldS (spanOf .ldS f (datum 2)) = false ∧
    spanAligned .ldS (spanOf .ldS { f with imm := 0x3F8 } (datum 0)) = true ∧
    (spanOf .ldS { f with imm := 0x3F8 } (datum 0)).base < 0 := by decide +kernel

/-- The node of a machine whose memory is mapped, with one held access; cluster 0 has curd 0 of partition 1. -/
def memNode (i : Instr) (src : Billet) : CastLive :=
  { castWith (match encode i with | [lo, hi] => hi ++ lo | _ => 0) { held := [{ heldB .waiting 0 with src := src }] } with
    binds := [(0, readH thr 1), (1, readH thr 3)] }
/-- Its machine. -/
def memNodeState (i : Instr) (src : Billet) (shut : Bool) (pend : Nat) : State :=
  ({ curdState 16 [(0, { live := some (curd1 shut pend) })] with tlb := [] }).updCluster 0 fun y => { y with
    casts := [(0, ⟨1, some (memNode i src)⟩)] }
/-- A billet that names that curd, at its offset 0. -/
def curdB : Billet := ⟨0x800001, 0⟩

theorem test_witness_NodeAccesses_global :
    let n : NodeRef := ⟨0, 0, 0⟩
    let g := fOut 0
    let far := fOut 0x10000
    let b := datum 0x200000
    let h : Held := { heldB .waiting 0 with src := b }
    (∀ x ∈ [(MemKind.ldG, Instr.ldG g, rR, Need.load), (.stG, .stG g, rW, .store)],
      let s := memNodeState x.2.1 b true 0
      let k := memNode x.2.1 b
      (castSlot s 0).live = some k ∧ k.dead = false ∧ (nodeAt k n).stop = false ∧ (nodeAt k n).page = none ∧
      (nodeAt k n).held.find? (fun h => h.taken = 0) = some h ∧ nodeInstr s n = some x.2.1 ∧
      heldFree s x.1 g k n h = true ∧ spanAligned x.1 (spanOf x.1 g b) = true ∧ spanAligned x.1 (spanOf x.1 g (datum 2)) = false ∧
      checkHandle (bindingOf k 0 0) 0x200000 4 x.2.2.1 0 = .ok 0x200000 ∧ behindSpill s n 0x200000 = false ∧
      behindSpill (s.updCluster 0 fun y => { y with spill := [⟨n, 9, 0x200000, false⟩] }) n 0x200000 = true ∧
      linesOf 0x200000 4 = [(0x200000, 4)] ∧
      ((streamTranslate s 0 none 0 0x200000 x.2.2.2).toOption.map (·.1)) = some (.dev 0x200000) ∧
      (match streamTranslate s 0 none 0 0x4000000000 x.2.2.2 with | .error e => e.cause == cTrans | .ok _ => false) = true) ∧
    checkHandle (bindingOf (memNode (.ldG far) b) 0 1) 0 4 rR 0 = .ok 0x4000000000 ∧
    good (accRead (noteStream (memNodeState (.ldG g) b true 0) 0 none 0 0x200000) (nodeAgent (memNode (.ldG g) b) n)
      (.dev 0x200000) 4 0x200000) = true ∧
    good (accWrite (noteStream (memNodeState (.stG g) b true 0) 0 none 0 0x200000) (nodeAgent (memNode (.stG g) b) n)
      (.dev 0x200000) (storeWords g b 4) false 0x200000) = true := by decide +kernel

theorem test_witness_NodeAccesses_curd :
    let n : NodeRef := ⟨0, 0, 0⟩
    let g := fOut 0
    let h : Held := { heldB .waiting 0 with src := curdB }
    (∀ x ∈ [(MemKind.ldC, Instr.ldC g), (.stC, .stC g)], ∀ shut ∈ [true, false],
      let s := memNodeState x.2 curdB shut 0
      let k := memNode x.2 curdB
      (castSlot s 0).live = some k ∧ (nodeAt k n).held.find? (fun h => h.taken = 0) = some h ∧ nodeInstr s n = some x.2 ∧
      heldFree s x.1 g k n h = true ∧ spanAligned x.1 (spanOf x.1 g curdB) = true ∧
      curdAt s 0 0 (spanOf x.1 g curdB).key = .ok (curd1 shut 0) ∧ (spanOf x.1 g curdB).base = 0 ∧
      4 ≤ curdSize (curd1 shut 0)) ∧
    (nodeShare (memNodeState (.ldC g) curdB true 0) n 0 0 (curd1 true 0) {}).isSome = true ∧
    nodeShare (memNodeState (.ldC g) curdB true 3) n 0 0 (curd1 true 3) {} = none ∧
    (curd1 true 3).fin - (curd1 true 3).pend = 0 ∧ 0 < (curd1 true 0).fin - (curd1 true 0).pend := by decide +kernel

theorem test_witness_OtherNodes :
    let n : NodeRef := ⟨0, 0, 0⟩
    let k := fun x => castWith movWord x
    let a := ab [datum 3] []
    let nest : Nest := ⟨datum 3, 0, [(4, 1)], 0, 0, 1, 4⟩
    let big : Billet := datum 0x1003
    (∀ x ∈ [a, { nest := some nest }, ab [big] []], NodeTurn (fab movWord x) (k x)) ∧
    (nodeAt (k { nest := some nest }) n).nest = some nest ∧ roomFor (k a) n (targetsOf (fOut 0)) = true ∧
    headA (k a) n = some (datum 3) ∧ roomFor (takeA (k a) n) n (targetsOf (fOut 0)) = true ∧ isMarker (datum 3) = false ∧
    tagKind (datum 3).tag ≠ 4 ∧ pmHolds { fOut 0 with pm := 1 } (datum 3).tag = false ∧ isData (datum 3) = true ∧
    pmHolds (fOut 0) (datum 3).tag = true ∧ (nodeAt (k a) n).held = [] ∧ (nodeAt (k a) n).req = none ∧
    n ∉ (fab movWord a).fired ∧ n ∈ ((fab movWord a).fire n).fired ∧ requestWord (fOut 0x1003) (datum 3) = some 0x1003 ∧ partFor (fab movWord a) 0 0 0 = true ∧
    testGrant (fab movWord a) 0 0 2 false = .granted 0 ∧ (k a).resHeld = 0 ∧ (k a).depth = 0 ∧
    requestWord (fOut 0x40000) (datum 0x1000) = none ∧
    curdAt ((fab movWord a).updCluster 0 fun x => { x with curds := [(0, { live := some { curd1 false 0 with part := 0 } })] }) 0 0
      1 = .ok { curd1 false 0 with part := 0 } ∧
    holdsIsland { hold := .held ⟨0, 0⟩ ⟨⟨0, 0⟩, 0⟩ } (k a).launch = true ∧ islandRoom {} = true ∧
    holdsIsland {} (k a).launch = false ∧
    good (aRowBytes (setEntry (fab movWord a) 0 0 (mkEntry 0 0 1 0 5)) (fOut 8) n (k (ab [datum 0] [])) (datum 0) 256) =
      true := by
  simp only [NodeTurn]; decide +kernel

/-- An instruction with a request for the nest descriptor at 2 MiB, which is of the given bits. -/
def nestCast : CastLive := { castWith movWord (ab [datum 0x200000] []) with binds := [(0, readH thr 1)] }
/-- Its machine. -/
def nestState (d : Nat) : State :=
  { ctl.updCluster 0 fun y => { y with casts := [(0, ⟨1, some nestCast⟩)] } with
    node := ⟨0, 0, 0⟩, mem := memWrite ctl.mem 0x200000 (natLe 64 d) }

theorem test_witness_OtherNodes_nest :
    let n : NodeRef := ⟨0, 0, 0⟩
    let f := fOut 0
    let k := nestCast
    let h : Held := ⟨datum 0x200000, datum 0x200000, .waiting, 0, (nestState 0).cycle, 0, 0, []⟩
    let k2 := nodeUpd (takeA k n) n fun x => { x with held := [h], ntake := x.ntake + 1 }
    (∀ d ∈ [4 * 2 ^ 64 + 2 ^ 192, 2 ^ 400], NodeTurn (nestState d) k ∧
      ((readIssue (putCast (nestState d) n k2) (nodeAgent k2 n) 0x200000 64).toOption.map fun z => leNat z.1) = some d) ∧
    headA k n = some (datum 0x200000) ∧ (nodeAt k n).nest = none ∧ (nodeAt k n).held = [] ∧ isData (datum 0x200000) = true ∧
    pmHolds f (datum 0x200000).tag = true ∧ fieldOf (datum 0x200000).data f.fa.toNat % 64 = 0 ∧
    fieldOf (datum 3).data f.fa.toNat % 64 ≠ 0 ∧
    checkHandle (bindingOf k2 0 0) 0x200000 64 rR k2.asid = .ok 0x200000 := by
  simp only [NodeTurn]; decide +kernel

theorem test_witness_OtherNodes_seal :
    let n : NodeRef := ⟨0, 0, 0⟩
    let k := castWith movWord { qa := [markB], seals := [0x800001] }
    let s := { fab movWord { qa := [markB], seals := [0x800001] } with
      clusters := (curdState 16 [(0, { live := some (curd1 false 0) })]).clusters }
    headA k n = some markB ∧ isMarker markB = true ∧ roomFor (takeA k n) n (targetsOf (fOut 0)) = true ∧
    storeCurdNodes k = [] ∧ sealWaits s (fOut 0) 0 k = false ∧ currentCurd s 0x800001 = some (curd1 false 0) ∧
    (curd1 false 0).isSealed = false ∧ chCluster 0x800001 = 0 ∧
    NodeTurn (fab movWord { qa := [markB], seals := [0x800001] }) k := by
  simp only [NodeTurn]; decide +kernel

/-- A curd that this place has drained, its generation advanced. -/
theorem test_witness_NodeAccesses_spent :
    let n : NodeRef := ⟨0, 0, 0⟩
    let i := Instr.ldC (fOut 0)
    let k := memNode i curdB
    let s := (memNodeState i curdB true 0).updCluster 0 fun y => { y with
      curds := [(0, { gen := 2, past := [(1, [(⟨0, 0⟩, 0)])] })] }
    drainedHere s k n (spanOf .ldC (fOut 0) curdB).key = true ∧
    (match curdAt s 0 k.asid (spanOf .ldC (fOut 0) curdB).key with | .error e => e.sub == 0 | .ok _ => false) = true := by
  decide +kernel

/-! ## Witnesses: events -/

/-- The queue with that copy, or with the schedule loaded. -/
def streamState (ring : Nat) (x : SQueue) : State := (copyState ring).updSqueue 0 0 0 fun _ => x

/-- A launch record of 16 Table 16.1: one thread on a core, of a class, its code in root 0. -/
def launchRec (cls : Nat) : Nat :=
  0x1A + 2 ^ 8 + cls * 2 ^ 15 + 2 ^ 480 + (1 + 3 * 2 ^ 24 + 2 * 2 ^ 27) * 2 ^ 512 +
  (65536 + 0x10000 * 2 ^ 56 + 9 * 2 ^ 104 + 2 ^ 127) * 2 ^ 1024
/-- A launch that its watchdog has counted past 1 µs. -/
def lateLaunch : Launch :=
  { ref := ⟨0, 0⟩, record := recordOfBits (launchRec 1), live := [0], clusters := [0], started := 0, limit := 1
    counted := 801 }

theorem test_witness_CopyAndPageEvents_copy :
    let s := streamState (ringRec 0 0 0 1) { entries := [copy1 0] }
    let e := streamState (ringRec 0 0 0 1) { entries := [copy1 4] }
    let b := streamState 0 { entries := [copy1 4] }
    let q := streamState (ringRec 0 0 0 0) { sched := some { loadedSched with sc := 1 } }
    readyHead s 0 0 0 = some (copy1 0) ∧ 4 * 0 + 0 ∉ s.beats ∧ 4 * 0 + 0 ∈ ({ s with beats := [0] } : State).beats ∧
    (launchOf { b with launches := [lateLaunch] } (copy1 4).owner.l).isSome = true ∧ chooseQueue s 0 0 = some 0 ∧ (s.squeue 0 0 0).bad = false ∧
    ((s.updSqueue 0 0 0 fun x => { x with bad := true }).squeue 0 0 0).bad = true ∧
    (moveElems 0 (copy1 0) (256 / 8) s 0).2 = (4, .ended) ∧ good (moveElem s 0 (copy1 0) 0) = true ∧
    readyHead (copyState 0) 0 0 0 = none ∧ (e.squeue 0 0 0).entries = [copy1 4] ∧ (e.squeue 0 0 0).halt = none ∧
    copyTotal (copy1 4).shape ≤ 4 ∧ ringAt e 0 (readH thr 1) 0x200200 = .ok 0x200200 ∧
    ringWf (ringGet e 0x200200) = true ∧ ringAt b 0 (readH thr 1) 0x200200 = .ok 0x200200 ∧
    ringWf (ringGet b 0x200200) = false ∧ (q.squeue 0 0 0).sched = some { loadedSched with sc := 1 } ∧
    (q.squeue 0 0 0).entries = [] ∧ good (schedEntry q 0 { loadedSched with sc := 1 }) = true ∧
    sub32 (rgIp (ringGet q 0x200200)) (rgRp (ringGet q 0x200200)) ≠ rgN (ringGet q 0x200200) ∧
    loadedSched.sc ≤ loadedSched.comp := by decide +kernel

/-- Page 1,024 with an entry, a move in progress and a page-in asked for. -/
def moveState (e : Nat) (moves : Tab PageMove) (wants : Tab Nat) : State :=
  (pageState e).updCluster 0 fun x => { x with moves := moves, wants := wants }

theorem test_witness_CopyAndPageEvents_page :
    let m := fun x => moveState (mkEntry 0 0 3 0 0) [(1024, x)] []
    MemoryForm (m (.pageIn 5)) ∧ tabFind ((m (.pageIn 5)).cluster 0).moves 1024 = some (.pageIn 5) ∧
    tabFind ((m (.pageOut 5)).cluster 0).moves 1024 = some (.pageOut 5) ∧ tabFind (ctl.cluster 0).moves 1024 = none ∧
    tabFind ((m (.reloc 5 6)).cluster 0).moves 1024 = some (.reloc 5 6) ∧
    tabFind ((moveState (mkEntry 0 0 2 0 0) [] [(1024, 5)]).cluster 0).wants 1024 = some 5 ∧
    eSt (sttEntry (moveState (mkEntry 0 0 2 0 0) [] [(1024, 5)]) 0 1024) = 2 ∧
    ((frameOrEvict (moveState (mkEntry 0 0 2 0 0) [] [(1024, 5)]) 0 5).map (·.2)) = some 640 ∧
    eSt (sttEntry (moveState (mkEntry 0 0 1 0 5) [] []) 0 1024) = 1 ∧
    eProt (sttEntry (moveState (mkEntry 0 0 1 0 5) [] []) 0 1024) ≠ 2 ∧
    eFrame (sttEntry (moveState (mkEntry 0 0 1 0 5) [] []) 0 1024) / 128 ≠ 1 ∧
    freeOfCore ((moveState (mkEntry 0 0 1 0 5) [] []).cluster 0) 1 = some 128 := by
  simp only [MemoryForm]; decide +kernel

/-- A `c.alloc` of two pages that sends to output port 0. -/
def allocWord : Word := BitVec.ofNat 64 (0xAA * 2 ^ 56 + 0x1E3 * 2 ^ 30 + 0x1FF * 2 ^ 21 + 0x1003)

theorem test_witness_CopyAndPageEvents_grant :
    let n : NodeRef := ⟨0, 0, 0⟩
    let s := fab allocWord (ab [datum 3] [])
    let k := castWith allocWord (ab [datum 3] [])
    (castSlot s 0).live = some k ∧ (nodeInstr s n == some (.cAlloc (FWord.ofBits allocWord))) = true ∧
    steppedNow s k n = true ∧ steppedNow { s with ctxs := [(blockKey s n, 1)] } k n = false ∧
    nodeActs k n = true ∧ headA k n = some (datum 3) ∧ isData (datum 3) = true ∧
    pmHolds (FWord.ofBits allocWord) (datum 3).tag = true := by decide +kernel

/-- A live casting in a machine whose thread has a demand of a class, at a cycle. -/
def demandState (k : CastLive) (cls : BitVec 2) : State :=
  { castState 1 [(0, ⟨1, some k⟩)] with cycle := 100000, regs := { ctl.regs with q0res := 0xC000 } }.updCluster 0 fun x =>
    { x with demands := [⟨thrCast.ref, 0, 1, cls, false, 99999, 0⟩] }
/-- A class-1 casting. -/
def cast2 (p : Place) : CastLive := { cast1 with cls := 1, place := p }

theorem test_witness_CastingEvents :
    let k := cast2 (.placed [0])
    let s := demandState k 0
    let busy := { k with nodes := [(0, { qa := [datum 3] })] }
    let drain := { k with blocks := k.blocks.map fun b => { b with imode := 2 } }
    movable s 0 = some k ∧ mayMove s 0 k [0] [1] = true ∧ mayMove s 0 k [0] [0, 1] = false ∧ atBoundary k = true ∧
    toPark s 0 k [0] = true ∧ movable (demandState busy 0) 0 = some busy ∧ atBoundary busy = false ∧
    inTheWay (demandState busy 0) 0 busy [0] = true ∧ isDraining busy.blocks = false ∧
    (class0Wants (demandState busy 0) 0).any (fun t => us6 ≤ 100000 - t) = true ∧ isDraining drain.blocks = true ∧
    movable (demandState drain 0) 0 = some drain ∧
    movable (demandState (cast2 (.parked 5)) 0) 0 = some (cast2 (.parked 5)) ∧
    firstParked (demandState (cast2 (.parked 5)) 0) 0 1 5 = true ∧
    (choosePages (demandState (cast2 (.parked 5)) 0) 0 0 1 cast1.blocks).isSome = true ∧
    (s.cluster 0).demands = [⟨thrCast.ref, 0, 1, 0, false, 99999, 0⟩] := by decide +kernel

/-- Island 0, held by the thread's launch, with items in its order. -/
def orderState (x : Island) : State := (heldState thrTile).updIsland 0 0 fun y => { x with hold := y.hold }
/-- An item of the thread. -/
def item (x : Item) : ItemIn := ⟨.thread thrTile.ref 0, x, 0, 0⟩
/-- A tile bound to the descriptor. -/
def tile1 : Tile :=
  { desc := tileDescOf (readH thr 1) tileRec, vmap := [(0xC000, 0xC000)], mapped := true, granted := true, loaded := true }

theorem test_witness_IslandEvents :
    let row := item (.row [] 0)
    let m : Island := { order := [item .marker, row], mode := some 0xBB, cur := some tile1 }
    ({ halt := true } : Island).halt = true ∧ 8 ≤ ({ link := List.replicate 8 ⟨⟨0, 0, 0⟩, []⟩ } : Island).link.length ∧
    ((orderState m).island 0 0).halt = false ∧ ((orderState m).island 0 0).link.length < 8 ∧
    dropMarkers ((orderState m).island 0 0).order = [row] ∧ rowFault m = none ∧
    slotFree 0xBB 5 m.slot = true ∧ slotFree 0xBB 5 { m with slot := 12 }.slot = false ∧
    rowFault { m with mode := none } = some ⟨cIsland, 1, none, 0⟩ ∧
    (∀ y ∈ [item (.mode 0xBB), item (.mode 0x8000), item (.scale []), item .unpin, item (.acc 0 0 1 0),
      item (.bind tile1.desc), item (.token 0 (datum 0xBB)), item (.token 0x200 (datum 0xBB)),
      item (.token 0x200 (datum 0x8000))], dropMarkers ((orderState { order := [y] }).island 0 0).order = [y]) ∧
    mdRel 0xBB = false ∧ mdRel 0x8000 = true ∧ tile1.refused = false ∧ tile1.mapped = true ∧ { tile1 with mapped := false }.mapped = false ∧
    ((orderState { m with badRows := [0] }).island 0 0).badRows = [0] ∧ (0 : BitVec 9).toNat ∉ m.badRows ∧ m.mode.isSome = true ∧
    m.cur.isSome = true ∧
    tileUnscaled (orderState { order := [item (.bind tile1.desc)], pending := some tile1 }) tile1 = false ∧
    tileBadLine (orderState {}) hostAgent tile1 = false ∧
    tileUnscaled (orderState {}) { tile1 with desc := { tile1.desc with bfmt := 13 } } = true ∧
    bits (0 : BitVec 11).toNat 10 9 = 0 ∧ bits (0x200 : BitVec 11).toNat 10 9 ≠ 0 ∧
    modeOk (fieldOf (datum 0xBB).data 0) = true ∧ mdRel (fieldOf (datum 0x8000).data 0) = true := by decide +kernel

/-- A readout of the casting's node, which waits for its first. -/
theorem test_witness_IslandEvents_readout :
    let k := castWith movWord { req := some (datum 0), nreq := 1 }
    (castSlot (fab movWord { req := some (datum 0), nreq := 1 }) 0).live = some k ∧ (nodeAt k ⟨0, 0, 0⟩).nreq = 0 + 1 ∧
    (castSlot (fab movWord { req := some (datum 0), nreq := 1 }) 0).gen = 1 ∧ (nodeAt k ⟨0, 0, 0⟩).req.isSome = true ∧
    (nodeAt k ⟨0, 0, 0⟩).inv = 0 := by decide +kernel

theorem test_witness_KeyValueEvents :
    let r : SeqRef := ⟨0, 1, seq1 16 1⟩
    let s := fun c => addCopy (kvState thr (poolRec 0 4) [0, 0, 2 ^ 40 + 2 ^ 24, 0] 2 0 (some (seq1 16 1))) c
    let old : SeqRef := ⟨0, 2, seq1 16 1⟩
    let closing := fun i => { win1 i with st := .closing }
    let ws : State := { winState 2 with wins := [(0, ⟨1, some (closing 0)⟩), (1, ⟨1, some (closing 1)⟩)] }
    let pb := fun n => (⟨0, 0, 1, n⟩ : PageBeats)
    (∀ n ∈ [0, 0x10000], tabFind (s (.append r 1 2 3 (pb n) thr.ref (.g 6))).kvCopies 0 =
      some (.append r 1 2 3 (pb n) thr.ref (.g 6))) ∧
    (pb 0).done < pageBytes (s (.append r 1 2 3 (pb 0) thr.ref (.g 6))) r 3 ∧
    pageBytes (s (.append r 1 2 3 (pb 0x10000) thr.ref (.g 6))) r 3 ≤ (pb 0x10000).done ∧
    pageCopy (s (.append r 1 2 3 (pb 0) thr.ref (.g 6))) 0 0 = some (0, .append r 1 2 3 (pb 0) thr.ref (.g 6)) ∧
    chooseQueue (s (.append r 1 2 3 (pb 0) thr.ref (.g 6))) 0 0 = some 8 ∧
    (closing 0).waits = false ∧ { closing 0 with waits := true }.waits = true ∧
    tabFind (s (.demote r 0 2 1 thr.ref (.g 6))).kvCopies 0 = some (.demote r 0 2 1 thr.ref (.g 6)) ∧
    (stillOpen (s (.demote r 0 2 1 thr.ref (.g 6))) r && leSt (listEntry (s (.demote r 0 2 1 thr.ref (.g 6))) r.q 0) == 0 &&
      lePage (listEntry (s (.demote r 0 2 1 thr.ref (.g 6))) r.q 0) == 2) = true ∧
    stillOpen (s (.demote old 0 2 1 thr.ref (.g 6))) old = false ∧
    (∀ b ∈ [true, false], tabFind (s (.promote r 0 2 1 0 b thr.ref)).kvCopies 0 = some (.promote r 0 2 1 0 b thr.ref)) ∧
    (tabGet ws.wins 0 {}).live = some (closing 0) ∧ (∀ x ∈ seqWindows ws 0, 0 ≤ x.2.ord) ∧
    (tabGet (winState 1).wins 0 {}).live = some (win1 0) ∧ (win1 0).st ≠ .closing ∧
    ((seqWindows ws 0).any fun x => x.2.ord < 1) = true := by decide +kernel

/-- Queue 0 enabled at 2 MiB with one slot, its tail and record given. -/
def lqState (tail record : Nat) (l : LQueue) : State :=
  { ctl with
    regs := { ctl.regs with lqctl := [(0, 0x8000000000000000)], lqbase := [(0, 0x200000)] }
    mem := memWrite (memWrite ctl.mem 0x200000 (natLe 8 tail)) 0x200100 (natLe 256 record), lqs := [(0, l)] }
/-- The same with the record admitted, partition 0 enabled. -/
def heldLaunch (cls : Nat) (en : Bool) (busy : Nat) : State :=
  let s := { lqState 1 (launchRec cls) { opened := true, record := some (recordOfBits (launchRec cls)), heldAt := some 0 }
    with cycle := 100, threads := (List.range busy).map fun k => (k, thr) }
  { s with clusters := (List.range 2).map fun c => (c, { parts := [(0, ⟨if en then 0x8000000000100010 else 0⟩)] }) }

/-- The bytes that the dispatcher reads from queue 0. -/
def lqGives (s : State) (off n : Nat) : Option (List Byte) := (lqRead s 0 off n).toOption.map (·.1)

theorem test_witness_DispatcherEvents :
    let fresh := lqState 1 (launchRec 1) { opened := true }
    let ready := lqState 1 (launchRec 1) { opened := true, ready := true }
    lqEn ctl 0 = false ∧ lqEn fresh 0 = true ∧ (fresh.lq 0).opened = true ∧ (fresh.lq 0).record = none ∧
    lqGives fresh 0 8 = some (natLe 8 1) ∧ lqGives (lqState 0 0 { opened := true }) 0 8 = some (natLe 8 0) ∧
    lqGives fresh (slotAt fresh 0 0 + 60) 4 = some (natLe 4 1) ∧ (ready.lq 0).ready = true ∧
    lqGives ready (slotAt ready 0 0) 256 = some (natLe 256 (launchRec 1)) ∧ recordCause ready 0 (launchRec 1) = 0 ∧
    recordCause ready 0 0 = 1 := by decide +kernel

theorem test_witness_DispatcherEvents_start :
    let r := recordOfBits (launchRec 0)
    let s := heldLaunch 0 true 0
    let bad := heldLaunch 0 false 0
    (s.lq 0).record = some r ∧ (pickQueue s (startableQueues s)).map (·.1) = some 0 ∧
    startable s r 0 = some [([0], 0)] ∧ partsOk s r [([0], 0)] = true ∧
    (pickQueue bad (startableQueues bad)).map (·.1) = some 0 ∧ partsOk bad r [([0], 0)] = false := by decide +kernel

theorem test_witness_DispatcherEvents_steal :
    let r := recordOfBits (launchRec 1)
    let s := { heldLaunch 1 true 48 with regs := { (heldLaunch 1 true 48).regs with stealt := 100 } }
    (s.lq 0).record = some r ∧ (s.lq 0).heldAt = some 0 ∧ 0 + s.regs.stealt.toNat ≤ s.cycle ∧
    ({ s with cycle := 99 } : State).cycle < 0 + s.regs.stealt.toNat ∧ wantsPlace s r 0 = true ∧ lqEn s 0 = true ∧
    ((List.range 31).map fun i => (0 + 1 + i) % 32).find? (fun g => (placeThreads s r g).isSome) = some 1 ∧
    startable s r 1 = some [([0], 64)] ∧
    (pickQueue s (startableQueues s ++ [0])).map (·.1) = some 0 := by decide +kernel

theorem test_witness_DispatcherEvents_watchdog : launchOf { ctl with launches := [lateLaunch] } ⟨0, 0⟩ = some lateLaunch ∧
    lateLaunch.limit ≠ 0 ∧ lateLaunch.limit * 800 < lateLaunch.counted := by decide +kernel

/-- A device-register record with an invalidation running. -/
def tinvState : State := { ctl with regs := { ctl.regs with tinv := 0x8000000000000000 } }

theorem test_witness_HostEvents : ctl.phase = .up ∧ MemoryForm (lqState 1 0 {}) ∧
    translate (lqState 1 0 {}) (lqAsid (lqState 1 0 {}) 0) (lqBase (lqState 1 0 {}) 0) .load = .ok (.dev 0x200000) ∧
    ({ ctl with phase := .bringUp } : State).phase ≠ .up ∧ ctl.pci.d3hot = false ∧ lqEn (lqState 1 0 {}) 0 = true ∧
    (∀ i < 8, inBar2 ctl (0x200000 + i) = true) ∧ (∀ q ∈ linesOf 0x200000 8, badLine ctl q.1 = false) ∧
    (∀ i < 8, inBar2 ctl (hostBase + i) = false) ∧ (∀ q ∈ linesOf hostBase 8, inBar2 ctl q.1 = false) ∧
    badLine { ctl with rel := { badLines := [0x8000] } } 0x200000 = true ∧
    0x200000 % 64 + [(7 : Byte)].length ≤ 64 ∧ good (devWrite ctl hostAgent 0x200000 (allBytes [7]) false 0) = true ∧
    good (accAtomic ctl hostAgent (.dev 0x200000) 8 0 (fun v => (v + 1) % 2 ^ 64) 0) = true ∧
    (on { thr with prods := [hostProd] }).threadAt 0 = some { thr with prods := [hostProd] } ∧ hostProd.wait = some .host ∧ (7 : Nat) ≠ 8 ∧
    bit ctl.regs.tinv.toNat 63 = false ∧ bit tinvState.regs.tinv.toNat 63 = true ∧
    (∀ q < 64, (tinvState.lq q).posted = false) ∧ lqEn ctl 0 = false ∧
    good (readLocal { ctl with regs := { ctl.regs with lqctl := [(0, 0x8000000000000000)], lqbase := [(0, 0x200000)] } } 0
      0x200000 16) = true ∧
    bit (0x8000000000000000 : Word).toNat 63 = true ∧ bit (0 : Word).toNat 63 = false ∧ ctl.regs.podidSet = false ∧
    podState ctl 1023 = 0 ∧ bits (1 : Word).toNat 1 0 = 1 ∧ podState (fenceMember { ctl with regs := { ctl.regs with
      podwin := [(3, 1)] } } 3) 3 = 2 ∧ podState { ctl with regs := { ctl.regs with podwin := [(3, 1)] } } 3 = 1 ∧
    ctl.rel.events = [] := by
  simp only [MemoryForm]; decide +kernel

/-- A launch that runs. -/
def launched (t : Thread) : State :=
  { on t with launches := [{ ref := ⟨0, 0⟩, record := recordOfBits (launchRec 1), live := [0], clusters := [0], started := 0 }] }

theorem test_witness_ManagementEvents :
    let req : List Word := [0, 0, 0]
    reachable ctl = true ∧ reachable { ctl with phase := .off } = false ∧ reachable { ctl with phase := .recovery } = true ∧
    (reqAfter ctl req).take 3 = req ∧ launchOf (heldLaunch 1 true 0) ⟨0, 0⟩ = none ∧
    ((heldLaunch 1 true 0).lq 0).record.isSome = true ∧ ((heldLaunch 1 true 0).lq 0).head.toNat = 0 ∧
    launchOf ctl ⟨0, 0⟩ = none ∧ (ctl.lq 0).record = none ∧ ctl.mbox.busy = false ∧ ctl.phase = .up ∧ ({ ctl with mbox := { busy := true } } : State).mbox.busy = true ∧
    reqAt req 0 < 64 ∧ (launchOf (launched thr) ⟨reqAt req 0, reqAt req 1⟩).isSome = true ∧ 64 ≤ reqAt [64] 0 ∧
    bits (reqAt [1] 0) 63 32 = 0 ∧ bits (reqAt [1] 0) 26 19 < 192 ∧ (castSlot castOn 0).live = some cast1 ∧
    (castSlot castOn 0).gen = bits (reqAt [1] 0) 18 0 ∧ reqAt req 1 < 48 ∧ ctl.threadAt 0 = some thr ∧
    tabFind ctl.saved 0 = none ∧ (reqAt [0, 1] 1 < 48 ∧ ctl.threadAt 1 = none) ∧ reqAt req 2 % 256 = 0 ∧
    (storedThread (on { thr with halted := true }) 0).isSome = true ∧ (imageBytes ctl 0x200000 8).isSome = true ∧
    (11 : Word).toNat > 10 ∧ (0 : Word).toNat = 0 ∧ ({ ctl with phase := .bringUp } : State).phase = .bringUp ∧
    95 ≤ (95 : BitVec 8).toNat ∧ (94 : BitVec 8).toNat < 95 ∧ 110 ≤ (110 : BitVec 8).toNat := by decide +kernel

/-- A multicast, or a combine, of this member alone. -/
def podOp1 (op : Option (BitVec 3)) (err : Bool) : PodOp :=
  { id := 0, owner := thr.ref, key := 0, nth := 0, asid := 0, hr := readH thr 1, roff := 0x200200, slot := 0, op := op
    set := 0, dst := 0x400000, flag := 0, tag := 0, data := [1, 0, 0, 0], err := err, port := 0, since := 0 }
/-- Member 3 up, and an operation outstanding since cycle 0. -/
def podNow (x : PodOp) (cycle : Nat) : State :=
  { podInState 1 with regs := { ctl.regs with podwin := [(3, 1)] }, podOps := [x], cycle := cycle }

theorem test_witness_PodEvents :
    let s := podNow (podOp1 none false) 0
    let to3 := podNow { podOp1 none false with set := 3 } 1200000
    podState (fenceMember s 3) 3 = 2 ∧ s.member = 0 ∧ podState s 3 ≠ 2 ∧ 3 ≠ s.member ∧ memberUp s 3 = true ∧
    ((requestsTo to3 3).any fun n => n + 1200000 ≤ to3.cycle) = true ∧ (∀ n ∈ requestsTo s 3, s.cycle < n + 1200000) ∧ podOp s 0 = some (podOp1 none false) ∧
    (podMembers 0).contains s.member = true ∧ (podMembers 3).contains s.member = false ∧
    ((podMembers 0).any fun m => m ≠ s.member && memberUp s m) = false ∧
    ((podMembers 3).any fun m => m ≠ s.member && memberUp s m) = true ∧ good (ownPart s (podOp1 none false)) = true ∧
    podOp (podNow (podOp1 (some 0) false) 0) 0 = some (podOp1 (some 0) false) ∧
    (podMembers 0).length = [(podOp1 (some 0) false).part].length ∧ (podMembers 0).length ≠ ([] : List Contrib).length ∧
    (podOp1 (some 0) false).part = ⟨0, 0, 0, [1]⟩ ∧ (1 : Nat) ≠ (podOp1 (some 0) false).nth ∧
    good (podWrite s (podOp1 (some 0) false).agent true 0x400000 [1, 0, 0, 0]) = true ∧ podSwitch s = false ∧
    podSwitch { s with regs := { s.regs with podid := 0x10000 } } = true ∧ (podOp1 (some 0) true).err = true ∧
    (podOp1 (some 0) false).res = none ∧ ({ podOp1 (some 0) false with res := some ([1], 0) } : PodOp).res = some ([1], 0) ∧
    ((podMembers 0).any fun m => m ≠ s.member && memberUp s m && portWaits s m 0x400000) = false ∧
    s.ports.contains 5 = false ∧
    ({ s with ports := [5] } : State).ports.contains 5 = true ∧ bit s.regs.podid.toNat 16 = false := by decide +kernel

/-- A part of a multicast whose port drains. -/
theorem test_witness_PodEvents_drains :
    ((podMembers 3).any fun m => m ≠ (podFar [peerProd]).member && memberUp (podFar [peerProd]) m &&
      portWaits (podFar [peerProd]) m 0) = true := by
  have h : hashPorts (podFar [peerProd]) = [5] := by decide +kernel
  have m : podMembers 3 = [3] := by decide +kernel
  have u : memberUp (podFar [peerProd]) 3 = true := by decide +kernel
  have v : (podFar [peerProd]).member = 0 := by decide +kernel
  have x : portWaits (podFar [peerProd]) 3 0 = true := test_witness_PodInstructions_drains.1
  rw [m]; simp [u, v, x]

/-! ## Witnesses: the machine as a whole -/

/-- The machine whose next turn is the placed word's. -/
def placedWord (w : Nat) : State := State.reset.withFetchWord 32 w

theorem test_witness_StepRunsDecoded_thread :
    let s := placedWord 0xFA000500
    let t := placedThread false
    let l := placedWord 0x030003E87A000000
    let held := { t with barred := [⟨.queue 0 1, 4⟩] }
    let z := (s.setThread 0 held).updSqueue 0 0 0 fun x => { x with entries := [copy1 0] }
    s.turns = [.thread 0] ∧ s.phase = .up ∧ s.threadAt 0 = some t ∧ t.halted = false ∧ t.running = true ∧ lateDue t = false ∧
    asyncDue t = false ∧ ((fetchWord s 0 t 0).toOption.map (·.1)) = some (natLe 4 0xFA000500) ∧
    isLong 0xFA000500 = false ∧ (decodeBytes (natLe 4 0xFA000500 ++ []) == .ok (.nop, [])) = true ∧ t.barred = [] ∧
    ((fetchWord l 0 t 0).toOption.map (·.1)) = some (natLe 4 0x7A000000) ∧ isLong 0x7A000000 = true ∧
    ((fetchWord l 0 t 4).toOption.map (·.1)) = some (natLe 4 0x030003E8) ∧
    (match decodeBytes (natLe 4 0xFF000000) with | .error _ => true | .ok _ => false) = true ∧
    (nextOf (exec .nop s)).isSome = true ∧ bankFree s 0 (bankRank s.cycle 0 0 0) [] = true ∧
    bankFree { s with busy := [7] } 0 (bankRank s.cycle 0 0 0) [7] = false ∧
    heldBy s 0 t.ref (accessKinds s 0 t .nop) [] = false ∧ acquireWaits t .nop = false ∧
    acquireWaits (defer t (.ring 0)) (.mxDrain 0 0) = true ∧
    held.barred.filter (fun w => !waitOver z 0 held.ref w) = held.barred ∧
    heldBy z 0 held.ref (accessKinds z 0 held (.chanRaise 5 (w 1) 0)) held.barred = true := by decide +kernel

theorem test_witness_StepRunsDecoded_others :
    let n := State.reset.withFetchWord 64 movWord.toNat
    let node : NodeRef := ⟨0, 0, 0⟩
    State.reset.turns = [] ∧ State.reset.agenda = [] ∧ n.turns = [.node node] ∧ nodeWord n node = some movWord ∧
    (castSlot n 0).live = some (placedCast movWord) ∧ headBad (placedCast movWord) node = false ∧
    (decodeFabric movWord == .ok (.fabricMov (FWord.ofBits movWord))) = true ∧
    (nextOf (exec (.fabricMov (FWord.ofBits movWord)) n)).isSome = true ∧ freeEvent (.dispatcherPoll 0) = true ∧
    freeEvent (.streamerBeat 0 0 0) = true ∧ freeEvent (.rowFire 0 0) = true ∧
    freeEvent (.nodeAccessPerformed node 0) = true := by decide +kernel

theorem test_witness_EveryInstructionRoundTrips : (Instr.add 47 (w 16) (nw 0)).wf = true := by decide +kernel

theorem test_witness_NothingDroppedInDecoding :
    (decodeWords 0x7A000000 0x030003E8 == .ok (.loop 1000 3)) = true ∧ (decodeWords 0x009A9540 0 == .ok
      (.add 19 (w 20) (nw 21))) = true ∧
    (decodeFabric 0x002828853DE00000 == .ok (.iAdd ⟨1, 1, 0, 1, 2, 1, 0x014, 0x1EF, 0⟩)) = true := by decide +kernel

theorem test_witness_StepKeepsMemoryForm : MemoryForm ctl ∧ (nextOf (step ctl)).isSome = true := by
  simp only [MemoryForm]; decide +kernel


/-! ## The words that the spec writes out beside their instructions

Each row is a word of the spec's own encoding tables (02 Tables 2.3-2.10; 04; 05; 06; 07; 08; 10; 11; 12; 13; 14; 15; 16;
18; 20-25), and the instruction that the spec writes beside it; registers 16 and above are `w0` and above. -/

/-- The word decodes to the instruction, and the instruction encodes to the word. -/
def reads (a : W32) (i : Instr) : Bool := decodeWords a 0 == .ok i && encode i == [a]
/-- The same of a long form. -/
def readsLong (a b : W32) (i : Instr) : Bool := decodeWords a b == .ok i && encode i == [a, b]
/-- The same of a fabric doubleword. -/
def readsFabric (a : Word) (i : Instr) : Bool := decodeFabric a == .ok i

theorem test_words_integer :
    reads 0x009A9540 (.add 19 (w 20) (nw 21)) && reads 0x00927524 (.mulhu 18 (w 19) (w 20)) &&
    reads 0x00AAD016 (.clz 21 (w 22)) && reads 0x009A7532 (.minu 19 (w 19) (w 20)) &&
    reads 0x02B05FFC (.addi 22 (w 2) 0xFFC) && reads 0x04A93007 (.andi 21 (w 9) 7) &&
    reads 0x0EBB1003 (.srai 23 (w 24) 3) && reads 0x1303B01F (.bfxu 32 (w 29) 0 31) &&
    reads 0x14A2B203 (.bfi 20 (w 21) 8 3) && reads 0x16925010 (.sext 18 (w 18) 16) &&
    reads 0x18980FFF (.movi 19 0xFFF) && readsLong 0x1AE00000 0x80000000 (.movl 28 0x80000000) &&
    readsLong 0x1AE39001 0xFFFFFFFF (.movhi 28 (w 28) 0xFFFFFFFF) = true := by decide +kernel

theorem test_words_compare_and_predicate :
    reads 0x201A34A3 (.cmpLtu 3 (w 17) (w 18)) && reads 0x200A7002 (.cmpLt 1 (w 19) (nw 0)) &&
    reads 0x220840C0 (.pand 1 2 3) && reads 0x24A2B5A2 (.psel 20 (w 21) (w 22) 2) = true := by decide +kernel

theorem test_words_memory :
    reads 0x32980105 (.ldBu 19 (nw 0) 1 5) && reads 0x3892F503 (.ldW 18 (w 23) 5 3) &&
    reads 0x3AE43200 (.ldWu 28 (w 33) 2 0) && reads 0x3CA00401 (.ldD 20 (nw 0) 4 1) &&
    reads 0x451CF200 (.stW 35 (w 39) 2 0) && reads 0x46CB5202 (.stD 25 (w 26) 2 2) &&
    reads 0x48025702 (.pfetch (w 18) 7 2) && reads 0x50C80140 (.amoAdd 25 (nw 0) 1 2) &&
    reads 0x50A39329 (.amoCas 20 (w 28) 3 1) && reads 0x5E000098 (.fence 4 12) && reads 0x5E000048 (.fence 2 4)
      = true := by decide +kernel

theorem test_words_handles :
    reads 0x601A9561 (.hsub 3 (w 20) (w 21) 1) && reads 0x62104001 (.hrights 2 2 1) && reads 0x64880005 (.hbase 17 5) &&
    reads 0x66880005 (.hlen 17 5) && reads 0x68300002 (.hmov 6 2) && reads 0x6AA27223 (.hcheck 20 (w 19) 2 1 3) &&
    reads 0x6C900400 (.fmtWin 18 (nw 0) 4 0) = true := by decide +kernel

theorem test_words_control_flow :
    reads 0x70FFFFFA (.br 3 true 0x1FFFFA) && reads 0x70800003 (.br 2 false 3 ) && reads 0x721FFFFE (.jmp 0x1FFFFE) &&
    reads 0x74000010 (.call 16) && reads 0x76027000 (.jr (w 19)) && reads 0x76027001 (.callr (w 19)) &&
    reads 0x76000002 .ret && reads 0x7800000C (.enter 12) && readsLong 0x7A000000 0x030003E8 (.loop 1000 3) &&
    reads 0x7C029003 (.loopr (w 20) 3) = true := by decide +kernel

theorem test_words_streamers :
    reads 0x80C33335 (.cpIssue 24 (w 25) 3 1 2 5) && reads 0x82000448 (.cpSched (nw 0) 4 2 1 0) &&
    reads 0x84929068 (.cpAdv 18 (w 20) 3 1 0) && reads 0x86980088 (.cpStatus 19 4 1 0) &&
    reads 0x88DB5320 (.ringInit 27 (w 26) 3 1) && reads 0x8AE35340 (.ringWait 28 (w 26) 3 2) &&
    reads 0x8C035360 (.ringRel (w 26) 3 3) && reads 0x8EEB53A0 (.ringWptr 29 (w 26) 3 5) &&
    reads 0x90000221 (.qfence 2 0x21) = true := by decide +kernel

theorem test_words_scratch_and_curds :
    reads 0xA0927020 (.smap 18 (w 19) 1) && reads 0xA2900040 (.sunmap 18 2) && reads 0xA4900061 (.sprot 18 3 1) &&
    reads 0xA6900080 (.sevict 18 4) && reads 0xA89290A0 (.smig 18 (w 20) 5) && reads 0xAAAA5000 (.squery 21 (w 18)) &&
    reads 0xAC025000 (.sfix (w 18)) && reads 0xB0A2B022 (.calloc 20 (w 21) 1 2) && reads 0xB2029044 (.cseal (w 20) 2 2) &&
    reads 0xB4B295E2 (.cldR 22 (w 20) (w 23) 2) && reads 0xB6000000 .cfin && reads 0xB8029003 (.cdrop (w 20) 3) &&
    reads 0xBAC29000 (.cinfo 24 (w 20)) && reads 0xBC033002 (.cpart (w 25) 2) = true := by decide +kernel

theorem test_words_islands_and_castings :
    reads 0xC0033322 (.mxBind (w 25) 3 1 2) && reads 0xC2035442 (.mxScale (w 26) 4 2 2) &&
    reads 0xC4037062 (.mxMode (w 27) 3 2) && reads 0xC6E3B082 (.mxFire 28 (w 29) 4 2) &&
    reads 0xC8F3F0A2 (.mxAcc 30 (w 31) 5 2) && reads 0xCA9FFFFB (.mxRlbl 2 0x1FFFFB) && reads 0xCC0000C2 (.mxDrain 6 2) &&
    reads 0xCE0000E2 (.mxUnpin 7 2) && reads 0xD0A2D220 (.castLoad 20 (w 22) 2 1) && reads 0xD2A00341 (.castBind 20 3 2 1) &&
    reads 0xD4A00060 (.castKill 20 3) && reads 0xD6A00080 (.castEnd 20 4) && reads 0xD8A310A0 (.bpush 20 (w 24) 0 5) &&
    reads 0xDAE290C1 (.bpull 28 (w 20) 1 6) && reads 0xDCA000E0 (.bmark 20 0 7) = true := by decide +kernel

theorem test_words_key_value_and_drafts :
    reads 0xE0A31220 (.kvFind 20 (w 24) 2 1) && reads 0xE2A31240 (.kvAddPool 20 (w 24) 2 2) &&
    reads 0xE4B2F060 (.kvPromote 22 (w 23) 3) && reads 0xE4B2F061 (.kvPromoteCancel 22 (w 23) 3) &&
    reads 0xE6CB5023 (.dwOpen 25 (w 26) 1 3) && reads 0xE8DB3040 (.dwSnap 27 (w 25) 2) &&
    reads 0xEADB3088 (.dwCommit 27 (w 25) 4 4) && reads 0xEC033088 (.dwAbort (w 25) 4 4) &&
    reads 0xEEE33000 (.dwStat 28 (w 25)) = true := by decide +kernel

theorem test_words_pod_channels_and_system :
    reads 0xF0A2B220 (.xmcast 20 (w 21) 2 1) && reads 0xF2A2B246 (.xcomb 20 (w 21) 2 2 6) &&
    reads 0xF4B2F0B0 (.xbar 22 (w 23) 5 8) && reads 0xF6C00000 (.xid 24) && reads 0xF8A2B020 (.chanBind 20 (w 21) 1) &&
    reads 0xF8000001 .chanYield && reads 0xF8B2F042 (.chanRaise 22 (w 23) 2) && reads 0xF8C33263 (.qput 24 (w 25) 2 3) &&
    reads 0xF8D33284 (.qget 26 (w 25) 2 4) && reads 0xF8DB90A5 (.barArrive 27 (w 28) 5) &&
    reads 0xF8EBD0C6 (.barWait 29 (w 30) 6) && reads 0xF8EBD0C7 (.barTest 29 (w 30) 6) && reads 0xFA000021 (.trap 0x21) &&
    reads 0xFA000100 .eret && reads 0xFAA80229 (.srd 21 0x29) && reads 0xFA02D300 (.swr (w 22) 0) &&
    reads 0xFA000407 (.brk 7) && reads 0xFA000500 .nop = true := by decide +kernel

theorem test_words_fabric_arithmetic :
    readsFabric 0x002828853DE00000 (.iAdd ⟨1, 1, 0, 1, 2, 1, 0x014, 0x1EF, 0⟩) &&
    readsFabric 0x000001033FF107FD (.iAdd ⟨0, 0, 0, 0, 0, 2, 0x00C, 0x1FF, 0x1107FD⟩) &&
    readsFabric 0x0C000C013FF00003 (.iShr ⟨0, 0, 0, 0, 3, 0, 0x004, 0x1FF, 0x100003⟩) &&
    readsFabric 0x0E402C843FE00290 (.iCmp ⟨2, 0, 0, 1, 3, 1, 0x010, 0x1FF, 0x290⟩) &&
    readsFabric 0x100408103FE00000 (.fabricMov ⟨0, 0, 4, 0, 2, 0, 0x040, 0x1FF, 0⟩) &&
    readsFabric 0x110008107FF007FF (.const ⟨0, 0, 0, 0, 2, 0, 0x041, 0x1FF, 0x1007FF⟩) &&
    readsFabric 0x430089073FE1F800 (.fFma ⟨0, 0, 0, 4, 2, 2, 0x01C, 0x1FF, 0x1F800⟩) &&
    readsFabric 0x680000863FE1F201 (.xl ⟨0, 0, 0, 0, 0, 1, 0x018, 0x1FF, 0x1F201⟩) &&
    readsFabric 0x690000833FE00300 (.red ⟨0, 0, 0, 0, 0, 1, 0x00C, 0x1FF, 0x300⟩) &&
    readsFabric 0x5800008E7FE005C0 (.cvt ⟨0, 0, 0, 0, 0, 1, 0x039, 0x1FF, 0x5C0⟩) = true := by decide +kernel

theorem test_words_fabric_flow_and_memory :
    readsFabric 0x8100000504800001 (.steer ⟨0, 0, 0, 0, 0, 0, 0x014, 0x024, 1⟩) &&
    readsFabric 0x82000078FFE00108 (.merge ⟨0, 0, 0, 0, 0, 0, 0x1E3, 0x1FF, 0x108⟩) &&
    readsFabric 0x8400000C3FE00005 (.filter ⟨0, 0, 0, 0, 0, 0, 0x030, 0x1FF, 5⟩) &&
    readsFabric 0x850000073FE00000 (.recirc ⟨0, 0, 0, 0, 0, 0, 0x01C, 0x1FF, 0⟩) &&
    readsFabric 0x8000000905000000 (.fork ⟨0, 0, 0, 0, 0, 0, 0x024, 0x028, 0⟩) &&
    readsFabric 0xA00108043FE00812 (.ldS ⟨0, 0, 1, 0, 2, 0, 0x010, 0x1FF, 0x812⟩) &&
    readsFabric 0xA50010013FE28000 (.ag ⟨0, 0, 0, 0, 4, 0, 0x004, 0x1FF, 0x28000⟩) &&
    readsFabric 0xAA000C033FE01001 (.cAlloc ⟨0, 0, 0, 0, 3, 0, 0x00C, 0x1FF, 0x1001⟩) &&
    readsFabric 0xAB030079FFE00012 (.cSeal ⟨0, 0, 3, 0, 0, 0, 0x1E7, 0x1FF, 0x12⟩) &&
    readsFabric 0xC00000023FE00782 (.accRd ⟨0, 0, 0, 0, 0, 0, 0x008, 0x1FF, 0x782⟩) = true := by decide +kernel

/-! ## Terms and words that are refused -/

/-- A check refuses the term, and no word of it decodes back. -/
def refusedTerm (i : Instr) : Bool := !i.wf
/-- The decoder refuses the word. -/
def refusedWord (a : W32) : Bool := !good (decodeWords a 0)
/-- The decoder refuses the fabric doubleword. -/
def refusedFabric (a : Word) : Bool := !good (decodeFabric a)

/-- 02/R20, R22, R26, R29: register numbers from 48, fields out of range, groups across a bank, reserved scopes. -/
theorem test_ill_formed_operands :
    refusedTerm (.add 48 (w 1) (w 2)) && refusedTerm (.add 1 (w 48) (w 2)) && refusedTerm (.add 1 (w 2) (nw 63)) &&
    refusedTerm (.bfx 1 (w 2) 60 4) && refusedTerm (.sext 1 (w 2) 24) && refusedTerm (.enter 7) && refusedTerm (.enter 33) &&
    refusedTerm (.loop 5 0) && refusedTerm (.loopr (w 1) 0) && refusedTerm (.qfence 1 0) && refusedTerm (.sprot 1 0 3) &&
    refusedTerm (.cdrop (w 1) 0) && refusedTerm (.fence 7 4) && refusedTerm (.fence 2 0) && refusedTerm (.amoCas 15 (w 1) 0 0) &&
    refusedTerm (.amoCas 47 (w 1) 0 0) && refusedTerm (.bpush 1 (w 12) 0 0) && refusedTerm (.bpull 44 (w 1) 0 0) &&
    refusedTerm (.kvFind 15 (w 1) 0 0) && refusedTerm (.kvAddOpen 13 (w 1) 0 0) && refusedTerm (.xcomb 1 (w 2) 0 0 7) &&
    !refusedTerm (.amoCas 14 (w 1) 0 0) && !refusedTerm (.bpull 43 (w 1) 0 0) && !refusedTerm (.bfx 1 (w 2) 60 3) = true := by
  decide +kernel

/-- 02/R33, R36: the shared fields of a fabric instruction. -/
theorem test_ill_formed_fabric :
    refusedTerm (.iAdd ⟨3, 0, 0, 0, 0, 0, 0x010, 0x1FF, 0⟩) && refusedTerm (.iAdd ⟨0, 1, 0, 0, 0, 0, 0x010, 0x1FF, 0⟩) &&
    refusedTerm (.iAdd ⟨0, 0, 0, 0, 0, 6, 0x010, 0x1FF, 0⟩) && refusedTerm (.iAdd ⟨0, 0, 0, 0, 0, 0, 0x013, 0x1FF, 0⟩) &&
    refusedTerm (.iAdd ⟨0, 0, 0, 0, 0, 0, 0x010, 0x003, 0⟩) && refusedTerm (.iAdd ⟨0, 0, 0, 0, 0, 0, 0x1DF, 0x010, 0⟩) &&
    !refusedTerm (.iAdd ⟨0, 0, 0, 0, 0, 0, 0x1DF, 0x1FF, 0⟩) = true := by decide +kernel

/-- The device's units and the numbers of its queues, cores, pages, ports and members (01/R14). -/
theorem test_ill_formed_events :
    refusedTerm (.longLatencyProducerComplete 48 0) && refusedTerm (.streamerBeat 32 0 0) && refusedTerm (.streamerBeat 0 4 0) &&
    refusedTerm (.scheduleEntryBegin 0 0 8) && refusedTerm (.pageIn 32 0) && refusedTerm (.relocation 0 0 48) &&
    refusedTerm (.rowFire 0 8) && refusedTerm (.dispatcherPoll 64) && refusedTerm (.portGoesDown 24) &&
    refusedTerm (.linkDown 1024) = true := by decide +kernel

/-- 02/R30, R31: reserved MAJ, MIN, extension and sub-op values, nonzero reserved fields, and reserved fabric opcodes. -/
theorem test_reserved_words :
    refusedWord 0x00000000 = false ∧ refusedWord 0x00000018 = true ∧ refusedWord 0x28000000 = true ∧
    refusedWord 0xFE000000 = true ∧ refusedWord 0xFA000600 = true ∧ refusedWord 0xF8000008 = true ∧
    refusedWord 0x76000003 = true ∧ refusedWord 0xB6000001 = true ∧ refusedWord 0xFA000501 = true ∧
    refusedFabric 0xFF000000FFE00000 = true ∧ refusedFabric 0x130000003FE00000 = true := by decide +kernel

/-! ## Values that the spec works out -/

/-- A conversion answers the bits and the flags. -/
def gives (r : Res) (bits : Nat) (fl : Flags) : Bool := r.bits == bits && r.fl == fl

/-- 03 Table 3.6. -/
theorem test_worked_conversions :
    gives (convert 8 10 0 false 1 0x3F808000) 0x3F80 fNX && gives (convert 8 10 0 false 1 0x3F818000) 0x3F82 fNX &&
    gives (convert 8 11 0 false 1 0x43960000) 0x79 fNX && gives (convert 8 12 0 false 1 0x43960000) 0x5D fNX &&
    gives (convert 8 11 0 false 1 0x43FA0000) 0x7F (fOF ||| fNX) &&
    gives (convert 8 11 0 true 1 0x43FA0000) 0x7E (fOF ||| fNX) &&
    gives (convert 8 11 0 false 1 0x3C23D70A) 0x05 (fUF ||| fNX) && gives (convert 8 0 0 false 1 0xC0200000) 0xFE fNX &&
    gives (convert 8 4 0 false 1 0x4F800000) 0 fNV && gives (convert 8 4 0 true 1 0x4F800000) 0x7FFFFFFF fNV &&
    gives (convert 4 8 0 false 1 16777217) 0x4B800000 fNX && gives (convert 4 8 2 false 1 16777217) 0x4B800001 fNX &&
    gives (convert 2 0 0 false 1 300) 44 0 && gives (convert 2 0 0 true 1 300) 127 0 = true := by decide +kernel

/-- 03 Table 3.5. -/
theorem test_worked_residues : rnsEnc false (-1000) = 0x000C1418 ∧ rnsDec 0x000C1418 = -1000 ∧
    rnsEnc false 4194304 = 0x00464000 ∧ rnsDec 0x00464000 = 4194304 ∧
    rnsEnc true 9000000 = rnsEnc false 8257919 := by decide +kernel

/-- 03/R53: the block that is worked out there: 0.75, -3.0, 10.0, 0.1 and 28 zeros. -/
theorem test_worked_block :
    let r := blockEnc 0 1 ([0x3F400000, 0xC0400000, 0x41200000, 0x3DCCCCCD].map flFp32.unpack ++
      List.replicate 28 (.fin false 0 0))
    r.1.take 5 = [1, 0xB, 6, 0, 0] ∧ r.2.1 = 0x80 ∧ r.2.2.1 = fNX ||| fUF := by decide +kernel

/-- 03/R61: the generator's step, for an odd and for an even word. -/
theorem test_generator : genNext 1 = 0x80200003 ∧ genNext 4 = 2 := by decide +kernel

/-- 08 Table 8.9: the example's shifts, fields, division by zero and remainder. -/
theorem test_worked_integer : (0xFFFFFFFF80000000 : Word).sshiftRight 28 = 0xFFFFFFFFFFFFFFF8 ∧
    divS 0xFFFFFFFF80000000 0 = 0xFFFFFFFFFFFFFFFF ∧ remS 0xFFFFFFFF80000000 0 = 0xFFFFFFFF80000000 ∧
    bfxuOf 80 4 4 = 5 ∧ divS 0x8000000000000000 (-1) = 0x8000000000000000 ∧ remS 0x8000000000000000 (-1) = 0 ∧
    mulHigh (-1) (-1) = 0 ∧ mulHighU (-1) (-1) = 0xFFFFFFFFFFFFFFFE ∧ clz64 0 = 64 ∧ bfiOf 0xFFFF 5 8 4 = 0xF5FF := by
  decide +kernel

/-! ## One instruction each -/

/-- The value of a full global register afterwards. -/
def gAfter (a : Answer) (r : Reg) : Option Word :=
  (threadAfter a).bind fun t => (readReg64 t r false).toOption
/-- The thread with a fault handler. -/
def handled : State := on { thr with fvec := 0x100 }
/-- The cause of a fault that was taken: `ECAUSE` bits 7:0. -/
def causeAfter (a : Answer) : Option Nat := (threadAfter a).map fun t => t.ecause.toNat % 256

theorem test_add_wraps : gAfter (exec (.add 6 (w 4) (w 1)) ctl) 6 = some 4 := by decide +kernel

theorem test_source_is_destination : gAfter (exec (.sub 1 (w 1) (w 2)) ctl) 1 = some (-2) := by decide +kernel

theorem test_addi_negative : gAfter (exec (.addi 6 (w 1) 0xFFB) ctl) 6 = some 0 := by decide +kernel

theorem test_global_zero_discards : gAfter (exec (.add 0 (w 1) (w 2)) ctl) 0 = some 0 := by decide +kernel

theorem test_movl_then_movhi : gAfter (exec (.movl 6 0x80000000) ctl) 6 = some 0x80000000 ∧
    gAfter (exec (.movhi 6 (w 1) 0xFFFFFFFF) ctl) 6 = some 0xFFFFFFFF00000005 := by decide +kernel

theorem test_movl_is_two_words : (threadAfter (exec (.movl 6 1) ctl)).map (·.pc) = some 8 := by decide +kernel

theorem test_branch_taken : (threadAfter (exec (.br 1 false 5) ctl)).map (·.pc) = some 20 ∧
    (threadAfter (exec (.br 1 true 5) ctl)).map (·.pc) = some 4 := by decide +kernel

theorem test_empty_source_traps : causeAfter (exec (.add 6 (nw 3) (w 1)) handled) = some cEmpty := by decide +kernel

/-- 15/R364, 17/R391: `trap` saves the next instruction's place, and the handler runs. -/
theorem test_trap_enters_the_handler : causeAfter (exec (.trap 0x21) handled) = some cTrap ∧
    (threadAfter (exec (.trap 0x21) handled)).map (fun t => (t.pc, t.epc, t.saved.isSome)) = some (0x100, 4, true) := by
  decide +kernel

theorem test_privilege : causeAfter (exec (.fmtWin 1 (w 5) 1 0) handled) = some cPriv := by decide +kernel

theorem test_reserved_word_traps :
    causeAfter (exec (.illegalInstruction 0xFE000000) handled) = some cIllegal := by decide +kernel

theorem test_stop_without_a_thread :
    nextOf (exec .nop State.reset) = none := by decide +kernel

/-- 16/R378, the model's log 8: the instruction placed is the next one that runs. -/
theorem test_first_instruction_runs :
    (threadAfter (step (State.reset.withFetchWord 32 0xFA000500))).map (·.pc) = some 4 := by decide +kernel

end Sys2Proof.Tests
end

section
/-! PROOFS. Chapter 08: what the register and predicate instructions write. The word operations of the model agree with
the values that the statements name; each shape of instruction completes, waits or traps once for all its rows; and each
row of a table is its shape's law with its own word law. -/

namespace Sys2Proof.Proofs.Registers

open Sys2Proof Sys2Proof.Machine

/-! ## Values (08/R195, R196, R198) -/

/-- The low half of a product does not depend on the signs. -/
theorem mul_eq_ofInt_signed (x y : Word) : x * y = BitVec.ofInt 64 (x.toInt * y.toInt) := by
  rw [BitVec.ofInt_mul, BitVec.ofInt_toInt, BitVec.ofInt_toInt]

/-- The remainder is what the truncated quotient leaves over (08/R196). -/
theorem remS_eq_sub_quotient (x y : Word) :
    remS x y = if y = 0 then x else BitVec.ofInt 64 (x.toInt - y.toInt * x.toInt.tdiv y.toInt) := by
  rw [remS, Int.tmod_def]

theorem rotL_eq_rotateLeft (x : Word) {n : Nat} (hn : n < 64) : rotL x n = x.rotateLeft n := by
  rw [BitVec.rotateLeft_def, Nat.mod_eq_of_lt hn, rotL]
  split
  case isTrue h0 => subst h0; simp [BitVec.ushiftRight_eq_zero]
  case isFalse => rfl

theorem ite_slt {α : Type} (x y : Word) (u v : α) :
    (if x.slt y then u else v) = if x.toInt < y.toInt then u else v := by
  simp [BitVec.slt_iff_toInt_lt]

theorem ite_ult {α : Type} (x y : Word) (u v : α) :
    (if x.ult y then u else v) = if x.toNat < y.toNat then u else v := by
  simp [BitVec.ult_eq_decide]

/-- `sext` is `bfx` at position 0 (08/R198). -/
theorem bfxOf_zero (x : Word) (n : Nat) : bfxOf x 0 n = BitVec.ofInt 64 (sOf n (x.toNat % 2 ^ n)) := by
  simp [bfxOf, field]

/-- Taking the digit of n between P and P × W out and putting c in its place. -/
theorem replace_digit (n c P W : Nat) :
    n - n / P % W * P + c * P = P * (W * (n / P / W) + c) + n % P := by
  have hn : n = n / P % W * P + (P * (W * (n / P / W)) + n % P) := by
    calc n = P * (n / P) + n % P := (Nat.div_add_mod n P).symm
      _ = P * (W * (n / P / W) + n / P % W) + n % P := by rw [Nat.div_add_mod (n / P) W]
      _ = _ := by ring
  have hsub : n - n / P % W * P = P * (W * (n / P / W)) + n % P := Nat.sub_eq_of_eq_add' hn
  rw [hsub]
  ring

/-- `bfi` takes the field from a and every other bit from d (08/R198). -/
theorem getLsbD_bfiOf (d a : Word) (p n k : Nat) (hk : k < 64) :
    (bfiOf d a p n).getLsbD k = if p ≤ k ∧ k < p + n then a.getLsbD (k - p) else d.getLsbD k := by
  have ha : a.toNat % 2 ^ n < 2 ^ n := Nat.mod_lt _ (Nat.two_pow_pos n)
  have hd : d.toNat % 2 ^ p < 2 ^ p := Nat.mod_lt _ (Nat.two_pow_pos p)
  rw [bfiOf, field, replace_digit, BitVec.getLsbD_ofNat, Nat.testBit_two_pow_mul_add _ hd,
    Nat.testBit_two_pow_mul_add _ ha]
  simp only [Nat.testBit_mod_two_pow, Nat.testBit_div_two_pow, BitVec.testBit_toNat, hk, decide_true, Bool.true_and]
  rcases Nat.lt_or_ge k p with below | above
  · rw [if_pos below, if_neg (by omega)]
    simp [below]
  · rw [if_neg (by omega)]
    rcases Nat.lt_or_ge (k - p) n with inside | beyond
    · rw [if_pos inside, if_pos (by omega)]
      simp [inside]
    · rw [if_neg (by omega), if_neg (by omega), show k - p - n + n + p = k by omega]

/-! ## Operands -/

/-- A register that is read in stall mode is not empty, so it may be written too. -/
theorem ready_of_holds {t : Thread} {d : Reg} {y : Word} (h : Holds t d y) : Ready t d := by
  simp only [Holds, readField, readReg64] at h
  simp only [Ready, destReady]
  split at h
  case h_1 => cases h
  case h_2 => simp
  case h_3 l _ =>
    by_cases he : (cellAt t l).fill = .empty
    · simp [he, stallNow] at h
    · simp [he]

/-- How a read of a cell that is not full ends: a wait, or the empty-register trap (08/R190). -/
def emptyExc (a : Src) (c : Cell) : Exc :=
  if a.wait ∧ c.fill = .empty then .stall none else .trap ⟨cEmpty, 0, none, 0⟩ none

theorem readSrc_not_full {t : Thread} {a : Src} {l : RegLoc} (hl : regLoc t a.reg = .ok (some l))
    (hf : (cellAt t l).fill ≠ .full) : readSrc t a = .error (emptyExc a (cellAt t l)) := by
  simp only [readSrc, readReg64, hl, emptyExc]
  cases hc : (cellAt t l).fill with
  | full => exact absurd hc hf
  | empty => cases a.wait <;> rfl
  | dead => simp [trapWith]

/-! ## Shapes of instructions -/

section Shapes

variable {s : State} {t : Thread} {d : Reg} {a b : Src} {x y v : Word}

theorem opRR_ends (ha : Acts s t) (hx : Reads t a x) (hy : Reads t b y) (hd : Ready t d) {f : Word → Word → Word}
    (hv : f x y = v) : opRR s d a b f = ends s t (writeR t d v) :=
  hv ▸ opRR_acts ha hx hy hd f

theorem opR_ends (ha : Acts s t) (hx : Reads t a x) (hd : Ready t d) {f : Word → Word} (hv : f x = v) :
    opR 0 s d a f = ends s t (writeR t d v) := by
  simpa [ends, hv] using opR_acts ha hx hd f 0

theorem opR_endsLong (ha : Acts s t) (hx : Reads t a x) (hd : Ready t d) {f : Word → Word} (hv : f x = v) :
    opR 4 s d a f = endsLong s t (writeR t d v) :=
  hv ▸ opR_acts ha hx hd f 4

theorem opD_ends (ha : Acts s t) (hd : Ready t d) {f : Thread → Word} (hv : f t = v) :
    opD 0 s d f = ends s t (writeR t d v) := by
  simpa [ends, hv] using opD_acts ha hd f 0

theorem opD_endsLong (ha : Acts s t) (hd : Ready t d) {f : Thread → Word} (hv : f t = v) :
    opD 4 s d f = endsLong s t (writeR t d v) :=
  hv ▸ opD_acts ha hd f 4

/-- `bfi` reads its destination too (08/R198). -/
theorem execBfi_ends (ha : Acts s t) (hx : Reads t a x) (hy : Holds t d y) (p l : BitVec 6) :
    execBfi d a p l s = ends s t (writeR t d (bfiOf y x p.toNat (l.toNat + 1))) := by
  have hd : Ready t d := ready_of_holds hy
  refine issueOwn_acts ha _ _ (namesOk_of_locs _ ?_) ?_
  · simp [regLoc_of_reads hx, regLoc_of_ready hd]
  · simp only [Reads, Holds, Ready] at hx hy hd
    simp [hx, hy, writeDest, hd, bind, Except.bind]

theorem opCmp_ends (ha : Acts s t) (hx : Reads t a x) (hy : Reads t b y) {p : BitVec 3} {r : Word → Word → Bool}
    {c : Bool} (hc : r x y = c) : opCmp s p a b r = ends s t (writeP t p c) := by
  refine issueOwn_acts ha _ _ (namesOk_of_locs _ ?_) ?_
  · simp [regLoc_of_reads hx, regLoc_of_reads hy]
  · simp only [Reads] at hx hy
    simp [hx, hy, hc, bind, Except.bind, pure, Except.pure]

theorem opPred_ends (ha : Acts s t) {p : BitVec 3} {f : Thread → Bool} {c : Bool} (hc : f t = c) :
    opPred s p f = ends s t (writeP t p c) :=
  issueOwn_acts ha _ _ rfl (by rw [hc])

theorem execPsel_ends (ha : Acts s t) (hx : Reads t a x) (hy : Reads t b y) (hd : Ready t d) (q : BitVec 3) :
    execPsel d a b q s = ends s t (writeR t d (if readP t q then x else y)) := by
  refine issueOwn_acts ha _ _ (namesOk_of_locs _ ?_) ?_
  · simp [regLoc_of_reads hx, regLoc_of_reads hy, regLoc_of_ready hd]
  · simp only [Reads, Ready] at hx hy hd
    simp [hx, hy, writeDest, hd, bind, Except.bind]

/-- An instruction whose body meets a cell that is not full waits at it, or takes the empty-register trap (08/R190). -/
theorem issueOwn_emptyExc (ha : Acts s t) {rs : List Reg} (hn : namesOk t rs = .ok ()) {c : Cell}
    {body : Thread → Except Exc Thread} (hb : body t = .error (emptyExc a c)) :
    issueOwn s rs body = if a.wait ∧ c.fill = .empty then .next s else traps s t ⟨cEmpty, 0, none, 0⟩ := by
  unfold emptyExc at hb
  split at hb
  case isTrue hw =>
    rw [if_pos hw]
    simp [issueOwn, issueOwnWith, attempt_acts ha _ _ _ hn, hb, settle]
  case isFalse hw =>
    rw [if_neg hw]
    exact issueOwn_traps ha rs _ body hn hb

/-- `psel` reads a whichever source its predicate selects (08/R199). -/
theorem execPsel_first_not_full (ha : Acts s t) (hn : namesOk t [d, a.reg, b.reg] = .ok ()) {l : RegLoc}
    (hl : regLoc t a.reg = .ok (some l)) (hf : (cellAt t l).fill ≠ .full) (q : BitVec 3) :
    execPsel d a b q s =
      if a.wait ∧ (cellAt t l).fill = .empty then .next s else traps s t ⟨cEmpty, 0, none, 0⟩ := by
  refine issueOwn_emptyExc ha hn ?_
  simp [readSrc_not_full hl hf, bind, Except.bind]

/-- `psel` reads b whichever source its predicate selects (08/R199). -/
theorem execPsel_second_not_full (ha : Acts s t) (hn : namesOk t [d, a.reg, b.reg] = .ok ()) {l : RegLoc}
    (hx : Reads t a x) (hl : regLoc t b.reg = .ok (some l)) (hf : (cellAt t l).fill ≠ .full) (q : BitVec 3) :
    execPsel d a b q s =
      if b.wait ∧ (cellAt t l).fill = .empty then .next s else traps s t ⟨cEmpty, 0, none, 0⟩ := by
  refine issueOwn_emptyExc ha hn ?_
  simp only [Reads] at hx
  simp [hx, readSrc_not_full hl hf, bind, Except.bind]

end Shapes

/-! ## The statements -/

/-- Settles O1: each row is the law of its shape with the word law of its operation; `bfi` by the bits of its value. -/
theorem integerResults : Obligations.IntegerResults := by
  unfold Obligations.IntegerResults
  refine ⟨fun s t d a b x y ha hx hy hd => ?pairs, fun s t d a x i n m w ha hx hd => ⟨?single, ?long⟩,
    fun s t d a x y p l ha hx hy _ => ?bfi⟩
  case pairs =>
    simp only [List.forall_mem_cons]
    exact ⟨
      -- add, sub, mul, mulh, mulhu
      opRR_ends ha hx hy hd rfl, opRR_ends ha hx hy hd rfl, opRR_ends ha hx hy hd (mul_eq_ofInt_signed x y),
      opRR_ends ha hx hy hd rfl, opRR_ends ha hx hy hd rfl,
      -- div, divu, rem, remu
      opRR_ends ha hx hy hd rfl, opRR_ends ha hx hy hd rfl,
      opRR_ends ha hx hy hd (remS_eq_sub_quotient x y), opRR_ends ha hx hy hd rfl,
      -- and, or, xor, andn
      opRR_ends ha hx hy hd rfl, opRR_ends ha hx hy hd rfl, opRR_ends ha hx hy hd rfl, opRR_ends ha hx hy hd rfl,
      -- shl, shr, sra, rot
      opRR_ends ha hx hy hd rfl, opRR_ends ha hx hy hd rfl, opRR_ends ha hx hy hd rfl,
      opRR_ends ha hx hy hd (rotL_eq_rotateLeft x (Nat.mod_lt _ (by decide))),
      -- min, minu, max, maxu
      opRR_ends ha hx hy hd (ite_slt x y x y), opRR_ends ha hx hy hd (ite_ult x y x y),
      opRR_ends ha hx hy hd (ite_slt x y y x), opRR_ends ha hx hy hd (ite_ult x y y x), List.forall_mem_nil _⟩
  case single =>
    simp only [List.forall_mem_cons]
    exact ⟨
      -- mov, clz, popc
      opR_ends ha hx hd rfl, opR_ends ha hx hd rfl, opR_ends ha hx hd rfl,
      -- addi, andi, ori, xori, shli, shri, srai
      opR_ends ha hx hd rfl, opR_ends ha hx hd rfl, opR_ends ha hx hd rfl, opR_ends ha hx hd rfl,
      opR_ends ha hx hd rfl, opR_ends ha hx hd rfl, opR_ends ha hx hd rfl,
      -- bfx, bfxu, sext, movi
      opR_ends ha hx hd rfl, opR_ends ha hx hd rfl, opR_ends ha hx hd (bfxOf_zero x i.toNat), opD_ends ha hd rfl,
      List.forall_mem_nil _⟩
  case long =>
    simp only [List.forall_mem_cons]
    exact ⟨opD_endsLong ha hd rfl, opR_endsLong ha hx hd rfl, List.forall_mem_nil _⟩
  case bfi =>
    exact ⟨_, execBfi_ends ha hx hy p l, fun k hk => getLsbD_bfiOf y x p.toNat (l.toNat + 1) k hk⟩

/-- Settles O2: each compare and each predicate operation is a row of its shape's law; `psel` completes on two full
sources, and a source that is not full stops it whatever its predicate holds. -/
theorem compareAndPredicate : Obligations.CompareAndPredicate := by
  unfold Obligations.CompareAndPredicate
  refine fun s t a b x y p q r d ha => ⟨fun hx hy => ?compares, ?predicates,
    fun hx hy hd => execPsel_ends ha hx hy hd q, fun hn =>
      ⟨fun _ hl hf => execPsel_first_not_full ha hn hl hf q,
        fun _ hx hl hf => execPsel_second_not_full ha hn hx hl hf q⟩⟩
  case compares =>
    simp only [List.forall_mem_cons]
    exact ⟨
      -- cmp.eq, cmp.ne, cmp.lt, cmp.ltu, cmp.le, cmp.leu
      opCmp_ends ha hx hy (beq_eq_decide x y), opCmp_ends ha hx hy (by simp [bne, beq_eq_decide]),
      opCmp_ends ha hx hy BitVec.slt_eq_decide, opCmp_ends ha hx hy BitVec.ult_eq_decide,
      opCmp_ends ha hx hy BitVec.sle_eq_decide, opCmp_ends ha hx hy BitVec.ule_eq_decide, List.forall_mem_nil _⟩
  case predicates =>
    simp only [List.forall_mem_cons]
    exact ⟨
      -- pand, por, pxor, pnot
      opPred_ends ha rfl, opPred_ends ha rfl, opPred_ends ha (congrFun₂ Bool.bne_eq_xor _ _), opPred_ends ha rfl,
      List.forall_mem_nil _⟩

end Sys2Proof.Proofs.Registers
end


section
/-! PROOFS. Chapter 02: every well-formed instruction comes back from its words, by the round trip of its own constructor. -/

namespace Sys2Proof.Proofs.Encoding

open Sys2Proof Sys2Proof.Machine

/-- Settles O56, constructor by constructor. -/
theorem everyInstructionRoundTrips : Obligations.EveryInstructionRoundTrips := by
  unfold Obligations.EveryInstructionRoundTrips
  intro i
  cases i with
  | add => exact Laws.Encoding.add _ _ _
  | sub => exact Laws.Encoding.sub _ _ _
  | mul => exact Laws.Encoding.mul _ _ _
  | mulh => exact Laws.Encoding.mulh _ _ _
  | mulhu => exact Laws.Encoding.mulhu _ _ _
  | div => exact Laws.Encoding.div _ _ _
  | divu => exact Laws.Encoding.divu _ _ _
  | rem => exact Laws.Encoding.rem _ _ _
  | remu => exact Laws.Encoding.remu _ _ _
  | and => exact Laws.Encoding.and _ _ _
  | or => exact Laws.Encoding.or _ _ _
  | xor => exact Laws.Encoding.xor _ _ _
  | andn => exact Laws.Encoding.andn _ _ _
  | shl => exact Laws.Encoding.shl _ _ _
  | shr => exact Laws.Encoding.shr _ _ _
  | sra => exact Laws.Encoding.sra _ _ _
  | rot => exact Laws.Encoding.rot _ _ _
  | min => exact Laws.Encoding.min _ _ _
  | minu => exact Laws.Encoding.minu _ _ _
  | max => exact Laws.Encoding.max _ _ _
  | maxu => exact Laws.Encoding.maxu _ _ _
  | mov => exact Laws.Encoding.mov _ _
  | clz => exact Laws.Encoding.clz _ _
  | popc => exact Laws.Encoding.popc _ _
  | addi => exact Laws.Encoding.addi _ _ _
  | andi => exact Laws.Encoding.andi _ _ _
  | ori => exact Laws.Encoding.ori _ _ _
  | xori => exact Laws.Encoding.xori _ _ _
  | shli => exact Laws.Encoding.shli _ _ _
  | shri => exact Laws.Encoding.shri _ _ _
  | srai => exact Laws.Encoding.srai _ _ _
  | bfx => exact Laws.Encoding.bfx _ _ _ _
  | bfxu => exact Laws.Encoding.bfxu _ _ _ _
  | bfi => exact Laws.Encoding.bfi _ _ _ _
  | sext => exact Laws.Encoding.sext _ _ _
  | movi => exact Laws.Encoding.movi _ _
  | movl => exact Laws.Encoding.movl _ _
  | movhi => exact Laws.Encoding.movhi _ _ _
  | cmpEq => exact Laws.Encoding.cmpEq _ _ _
  | cmpNe => exact Laws.Encoding.cmpNe _ _ _
  | cmpLt => exact Laws.Encoding.cmpLt _ _ _
  | cmpLtu => exact Laws.Encoding.cmpLtu _ _ _
  | cmpLe => exact Laws.Encoding.cmpLe _ _ _
  | cmpLeu => exact Laws.Encoding.cmpLeu _ _ _
  | pand => exact Laws.Encoding.pand _ _ _
  | por => exact Laws.Encoding.por _ _ _
  | pxor => exact Laws.Encoding.pxor _ _ _
  | pnot => exact Laws.Encoding.pnot _ _
  | psel => exact Laws.Encoding.psel _ _ _ _
  | ldB => exact Laws.Encoding.ldB _ _ _ _
  | ldBu => exact Laws.Encoding.ldBu _ _ _ _
  | ldH => exact Laws.Encoding.ldH _ _ _ _
  | ldHu => exact Laws.Encoding.ldHu _ _ _ _
  | ldW => exact Laws.Encoding.ldW _ _ _ _
  | ldWu => exact Laws.Encoding.ldWu _ _ _ _
  | ldD => exact Laws.Encoding.ldD _ _ _ _
  | stB => exact Laws.Encoding.stB _ _ _ _
  | stH => exact Laws.Encoding.stH _ _ _ _
  | stW => exact Laws.Encoding.stW _ _ _ _
  | stD => exact Laws.Encoding.stD _ _ _ _
  | pfetch => exact Laws.Encoding.pfetch _ _ _
  | amoAdd => exact Laws.Encoding.amoAdd _ _ _ _
  | amoAnd => exact Laws.Encoding.amoAnd _ _ _ _
  | amoOr => exact Laws.Encoding.amoOr _ _ _ _
  | amoXor => exact Laws.Encoding.amoXor _ _ _ _
  | amoMin => exact Laws.Encoding.amoMin _ _ _ _
  | amoMinu => exact Laws.Encoding.amoMinu _ _ _ _
  | amoMax => exact Laws.Encoding.amoMax _ _ _ _
  | amoMaxu => exact Laws.Encoding.amoMaxu _ _ _ _
  | amoSwap => exact Laws.Encoding.amoSwap _ _ _ _
  | amoCas => exact Laws.Encoding.amoCas _ _ _ _
  | fence => exact Laws.Encoding.fence _ _
  | hsub => exact Laws.Encoding.hsub _ _ _ _
  | hrights => exact Laws.Encoding.hrights _ _ _
  | hbase => exact Laws.Encoding.hbase _ _
  | hlen => exact Laws.Encoding.hlen _ _
  | hmov => exact Laws.Encoding.hmov _ _
  | hcheck => exact Laws.Encoding.hcheck _ _ _ _ _
  | fmtWin => exact Laws.Encoding.fmtWin _ _ _ _
  | br => exact Laws.Encoding.br _ _ _
  | jmp => exact Laws.Encoding.jmp _
  | call => exact Laws.Encoding.call _
  | jr => exact Laws.Encoding.jr _
  | callr => exact Laws.Encoding.callr _
  | ret => exact Laws.Encoding.ret
  | enter => exact Laws.Encoding.enter _
  | loop => exact Laws.Encoding.loop _ _
  | loopr => exact Laws.Encoding.loopr _ _
  | cpIssue => exact Laws.Encoding.cpIssue _ _ _ _ _ _
  | cpSched => exact Laws.Encoding.cpSched _ _ _ _ _
  | cpAdv => exact Laws.Encoding.cpAdv _ _ _ _ _
  | cpStatus => exact Laws.Encoding.cpStatus _ _ _ _
  | ringInit => exact Laws.Encoding.ringInit _ _ _ _
  | ringWait => exact Laws.Encoding.ringWait _ _ _ _
  | ringRel => exact Laws.Encoding.ringRel _ _ _
  | ringWptr => exact Laws.Encoding.ringWptr _ _ _ _
  | qfence => exact Laws.Encoding.qfence _ _
  | smap => exact Laws.Encoding.smap _ _ _
  | sunmap => exact Laws.Encoding.sunmap _ _
  | sprot => exact Laws.Encoding.sprot _ _ _
  | sevict => exact Laws.Encoding.sevict _ _
  | smig => exact Laws.Encoding.smig _ _ _
  | squery => exact Laws.Encoding.squery _ _
  | sfix => exact Laws.Encoding.sfix _
  | calloc => exact Laws.Encoding.calloc _ _ _ _
  | cseal => exact Laws.Encoding.cseal _ _ _
  | cldR => exact Laws.Encoding.cldR _ _ _ _
  | cfin => exact Laws.Encoding.cfin
  | cdrop => exact Laws.Encoding.cdrop _ _
  | cinfo => exact Laws.Encoding.cinfo _ _
  | cpart => exact Laws.Encoding.cpart _ _
  | mxBind => exact Laws.Encoding.mxBind _ _ _ _
  | mxScale => exact Laws.Encoding.mxScale _ _ _ _
  | mxMode => exact Laws.Encoding.mxMode _ _ _
  | mxFire => exact Laws.Encoding.mxFire _ _ _ _
  | mxAcc => exact Laws.Encoding.mxAcc _ _ _ _
  | mxRlbl => exact Laws.Encoding.mxRlbl _ _
  | mxDrain => exact Laws.Encoding.mxDrain _ _
  | mxUnpin => exact Laws.Encoding.mxUnpin _ _
  | castLoad => exact Laws.Encoding.castLoad _ _ _ _
  | castBind => exact Laws.Encoding.castBind _ _ _ _
  | castKill => exact Laws.Encoding.castKill _ _
  | castEnd => exact Laws.Encoding.castEnd _ _
  | bpush => exact Laws.Encoding.bpush _ _ _ _
  | bpull => exact Laws.Encoding.bpull _ _ _ _
  | bmark => exact Laws.Encoding.bmark _ _ _
  | kvFind => exact Laws.Encoding.kvFind _ _ _ _
  | kvAddPool => exact Laws.Encoding.kvAddPool _ _ _ _
  | kvAddOpen => exact Laws.Encoding.kvAddOpen _ _ _ _
  | kvAddAppend => exact Laws.Encoding.kvAddAppend _ _ _ _
  | kvAddAttach => exact Laws.Encoding.kvAddAttach _ _ _ _
  | kvAddPublish => exact Laws.Encoding.kvAddPublish _ _ _ _
  | kvAddClose => exact Laws.Encoding.kvAddClose _ _ _ _
  | kvAddDemote => exact Laws.Encoding.kvAddDemote _ _ _ _
  | kvPromote => exact Laws.Encoding.kvPromote _ _ _
  | kvPromoteCancel => exact Laws.Encoding.kvPromoteCancel _ _ _
  | dwOpen => exact Laws.Encoding.dwOpen _ _ _ _
  | dwSnap => exact Laws.Encoding.dwSnap _ _ _
  | dwCommit => exact Laws.Encoding.dwCommit _ _ _ _
  | dwAbort => exact Laws.Encoding.dwAbort _ _ _
  | dwStat => exact Laws.Encoding.dwStat _ _
  | xmcast => exact Laws.Encoding.xmcast _ _ _ _
  | xcomb => exact Laws.Encoding.xcomb _ _ _ _ _
  | xbar => exact Laws.Encoding.xbar _ _ _ _
  | xid => exact Laws.Encoding.xid _
  | chanBind => exact Laws.Encoding.chanBind _ _ _
  | chanYield => exact Laws.Encoding.chanYield
  | chanRaise => exact Laws.Encoding.chanRaise _ _ _
  | qput => exact Laws.Encoding.qput _ _ _ _
  | qget => exact Laws.Encoding.qget _ _ _ _
  | barArrive => exact Laws.Encoding.barArrive _ _ _
  | barWait => exact Laws.Encoding.barWait _ _ _
  | barTest => exact Laws.Encoding.barTest _ _ _
  | trap => exact Laws.Encoding.trap _
  | eret => exact Laws.Encoding.eret
  | srd => exact Laws.Encoding.srd _ _
  | swr => exact Laws.Encoding.swr _ _
  | brk => exact Laws.Encoding.brk _
  | nop => exact Laws.Encoding.nop
  | iAdd => exact Laws.Encoding.iAdd _
  | iSub => exact Laws.Encoding.iSub _
  | iMul => exact Laws.Encoding.iMul _
  | iMad => exact Laws.Encoding.iMad _
  | iMin => exact Laws.Encoding.iMin _
  | iMax => exact Laws.Encoding.iMax _
  | iAbs => exact Laws.Encoding.iAbs _
  | iClamp => exact Laws.Encoding.iClamp _
  | iAnd => exact Laws.Encoding.iAnd _
  | iOr => exact Laws.Encoding.iOr _
  | iXor => exact Laws.Encoding.iXor _
  | iShl => exact Laws.Encoding.iShl _
  | iShr => exact Laws.Encoding.iShr _
  | iSra => exact Laws.Encoding.iSra _
  | iCmp => exact Laws.Encoding.iCmp _
  | sel => exact Laws.Encoding.sel _
  | fabricMov => exact Laws.Encoding.fabricMov _
  | const => exact Laws.Encoding.const _
  | mix => exact Laws.Encoding.mix _
  | fAdd => exact Laws.Encoding.fAdd _
  | fSub => exact Laws.Encoding.fSub _
  | fMul => exact Laws.Encoding.fMul _
  | fFma => exact Laws.Encoding.fFma _
  | fMin => exact Laws.Encoding.fMin _
  | fMax => exact Laws.Encoding.fMax _
  | fAbs => exact Laws.Encoding.fAbs _
  | fNeg => exact Laws.Encoding.fNeg _
  | fCmp => exact Laws.Encoding.fCmp _
  | fRcp => exact Laws.Encoding.fRcp _
  | fRsq => exact Laws.Encoding.fRsq _
  | fExp2 => exact Laws.Encoding.fExp2 _
  | fLog2 => exact Laws.Encoding.fLog2 _
  | fSig => exact Laws.Encoding.fSig _
  | fTanh => exact Laws.Encoding.fTanh _
  | cvt => exact Laws.Encoding.cvt _
  | pack => exact Laws.Encoding.pack _
  | unpack => exact Laws.Encoding.unpack _
  | rEnc => exact Laws.Encoding.rEnc _
  | rDec => exact Laws.Encoding.rDec _
  | rMac => exact Laws.Encoding.rMac _
  | xl => exact Laws.Encoding.xl _
  | red => exact Laws.Encoding.red _
  | fork => exact Laws.Encoding.fork _
  | steer => exact Laws.Encoding.steer _
  | merge => exact Laws.Encoding.merge _
  | mergeU => exact Laws.Encoding.mergeU _
  | filter => exact Laws.Encoding.filter _
  | recirc => exact Laws.Encoding.recirc _
  | gate => exact Laws.Encoding.gate _
  | seq => exact Laws.Encoding.seq _
  | mark => exact Laws.Encoding.mark _
  | ldS => exact Laws.Encoding.ldS _
  | stS => exact Laws.Encoding.stS _
  | amoS => exact Laws.Encoding.amoS _
  | ldG => exact Laws.Encoding.ldG _
  | stG => exact Laws.Encoding.stG _
  | ag => exact Laws.Encoding.ag _
  | ldC => exact Laws.Encoding.ldC _
  | stC => exact Laws.Encoding.stC _
  | cAlloc => exact Laws.Encoding.cAlloc _
  | cSeal => exact Laws.Encoding.cSeal _
  | accRd => exact Laws.Encoding.accRd _
  | aRow => exact Laws.Encoding.aRow _
  | cfgTok => exact Laws.Encoding.cfgTok _
  | illegalInstruction => exact Laws.Encoding.illegalInstruction _
  | longLatencyProducerComplete => exact Laws.Encoding.longLatencyProducerComplete _ _
  | faultDelivery => exact Laws.Encoding.faultDelivery
  | channelEntry => exact Laws.Encoding.channelEntry
  | streamerBeat => exact Laws.Encoding.streamerBeat _ _ _
  | copyCompletion => exact Laws.Encoding.copyCompletion _ _ _
  | scheduleEntryBegin => exact Laws.Encoding.scheduleEntryBegin _ _ _
  | pageIn => exact Laws.Encoding.pageIn _ _
  | pageOut => exact Laws.Encoding.pageOut _ _
  | relocation => exact Laws.Encoding.relocation _ _ _
  | curdGrant => exact Laws.Encoding.curdGrant _
  | nodeAccessPerformed => exact Laws.Encoding.nodeAccessPerformed _ _
  | castingMove => exact Laws.Encoding.castingMove _ _
  | castingSlice => exact Laws.Encoding.castingSlice _
  | castingReturn => exact Laws.Encoding.castingReturn _
  | demandExpiry => exact Laws.Encoding.demandExpiry _
  | forcedPreemption => exact Laws.Encoding.forcedPreemption _
  | rowFire => exact Laws.Encoding.rowFire _ _
  | readoutPerform => exact Laws.Encoding.readoutPerform _ _
  | bindPerform => exact Laws.Encoding.bindPerform _ _
  | tileLoadComplete => exact Laws.Encoding.tileLoadComplete _ _
  | modeItemPerform => exact Laws.Encoding.modeItemPerform _ _
  | scaleItemPerform => exact Laws.Encoding.scaleItemPerform _ _
  | accItemPerform => exact Laws.Encoding.accItemPerform _ _
  | unpinItemPerform => exact Laws.Encoding.unpinItemPerform _ _
  | configTokenPerform => exact Laws.Encoding.configTokenPerform _ _
  | appendPageCopyComplete => exact Laws.Encoding.appendPageCopyComplete _
  | demoteComplete => exact Laws.Encoding.demoteComplete _
  | promotionComplete => exact Laws.Encoding.promotionComplete _
  | commitPoint => exact Laws.Encoding.commitPoint _
  | dispatcherPoll => exact Laws.Encoding.dispatcherPoll _
  | recordCheck => exact Laws.Encoding.recordCheck _
  | launchStart => exact Laws.Encoding.launchStart _
  | steal => exact Laws.Encoding.steal _
  | watchdogExpiry => exact Laws.Encoding.watchdogExpiry _
  | correctedError => exact Laws.Encoding.correctedError _
  | linkCrcRetry => exact Laws.Encoding.linkCrcRetry
  | hostTailWrite => exact Laws.Encoding.hostTailWrite _ _ _
  | hostMemoryWrite => exact Laws.Encoding.hostMemoryWrite _ _
  | hostMemoryRead => exact Laws.Encoding.hostMemoryRead _ _
  | hostWindowCompletion => exact Laws.Encoding.hostWindowCompletion _
  | hostCompletionTimeout => exact Laws.Encoding.hostCompletionTimeout _
  | registerWrite => exact Laws.Encoding.registerWrite _ _ _
  | tinvWrite => exact Laws.Encoding.tinvWrite _
  | tinvComplete => exact Laws.Encoding.tinvComplete
  | lqctlWrite => exact Laws.Encoding.lqctlWrite _ _
  | errorCounterWrite => exact Laws.Encoding.errorCounterWrite _
  | podidWrite => exact Laws.Encoding.podidWrite _
  | podwinWrite => exact Laws.Encoding.podwinWrite _ _
  | killLaunch => exact Laws.Encoding.killLaunch _
  | haltCasting => exact Laws.Encoding.haltCasting _
  | releaseCasting => exact Laws.Encoding.releaseCasting _
  | haltThread => exact Laws.Encoding.haltThread _
  | releaseThread => exact Laws.Encoding.releaseThread _
  | watchdogLimit => exact Laws.Encoding.watchdogLimit _
  | readContextStore => exact Laws.Encoding.readContextStore _
  | identityPublicKey => exact Laws.Encoding.identityPublicKey _
  | attestationReport => exact Laws.Encoding.attestationReport _
  | loadFirmware => exact Laws.Encoding.loadFirmware _
  | mailboxCommandEnd => exact Laws.Encoding.mailboxCommandEnd
  | moduleReset => exact Laws.Encoding.moduleReset _
  | thermalWarning => exact Laws.Encoding.thermalWarning _
  | thermalTrip => exact Laws.Encoding.thermalTrip
  | podRequest => exact Laws.Encoding.podRequest _ _
  | linkDown => exact Laws.Encoding.linkDown _
  | responseTimeout => exact Laws.Encoding.responseTimeout _
  | fenceNotice => exact Laws.Encoding.fenceNotice _
  | podOpComplete => exact Laws.Encoding.podOpComplete _
  | combineResult => exact Laws.Encoding.combineResult _ _
  | combineFailureNotice => exact Laws.Encoding.combineFailureNotice _
  | portGoesDown => exact Laws.Encoding.portGoesDown _
  | promotionCopyBegin => exact Laws.Encoding.promotionCopyBegin _
  | castingConfigurationLoaded => exact Laws.Encoding.castingConfigurationLoaded _
  | hostAtomicopRequest => exact Laws.Encoding.hostAtomicopRequest _ _
  | unknownMailboxCommand => exact Laws.Encoding.unknownMailboxCommand _ _

end Sys2Proof.Proofs.Encoding
end


section
/-! PROOFS. Running a body: how a computation that may end early goes on, and the one law for each way in which an instruction
of the acting thread ends. -/

namespace Sys2Proof.Machine

variable {t : Thread} {d : Reg} {a : Src} {x : Word}

theorem Reads.readSrc_eq (h : Reads t a x) : readSrc t a = .ok x := h
theorem Holds.readField_eq (h : Holds t d x) : readField t d = .ok x := h
theorem Ready.destReady_eq (h : Ready t d) : destReady t d = .ok () := h

end Sys2Proof.Machine

namespace Sys2Proof.Proofs.Running

open Sys2Proof Sys2Proof.Machine

/-! ## Computations that may end early -/

section Early

variable {ε α β : Type}

@[simp] theorem ok_bind (x : α) (f : α → Except ε β) : (Except.ok x >>= f) = f x := rfl
@[simp] theorem error_bind (e : ε) (f : α → Except ε β) : (Except.error e >>= f) = .error e := rfl
@[simp] theorem pure_eq_ok (x : α) : (pure x : Except ε α) = .ok x := rfl
@[simp] theorem except_bind_ok (x : α) (f : α → Except ε β) : (Except.ok x : Except ε α).bind f = f x := rfl
@[simp] theorem except_bind_error (e : ε) (f : α → Except ε β) : (Except.error e : Except ε α).bind f = .error e := rfl
@[simp] theorem except_map_ok (x : α) (f : α → β) : (Except.ok x : Except ε α).map f = .ok (f x) := rfl
@[simp] theorem except_map_error (e : ε) (f : α → β) : (Except.error e : Except ε α).map f = .error e := rfl
@[simp] theorem liftE_ok (x : α) : liftE (.ok x : Except Exn α) = .ok x := rfl
@[simp] theorem liftE_error (e : Exn) : liftE (.error e : Except Exn α) = .error (.trap e none) := rfl

end Early

/-! ## Operands -/

section Operands

variable {t : Thread} {d : Reg} {a : Src} {x : Word}

@[simp] theorem writeDest_ready (h : Ready t d) (v : Word) : writeDest t d v = .ok (writeR t d v) := by
  simp only [Ready] at h
  simp [writeDest, h]

@[simp] theorem namesOk_nil : namesOk t [] = .ok () := rfl

theorem namesOk_cons {r : Reg} {rs : List Reg} (h : ∃ l, regLoc t r = .ok l) (hr : namesOk t rs = .ok ()) :
    namesOk t (r :: rs) = .ok () := by
  obtain ⟨l, hl⟩ := h
  simp [namesOk, hl, hr]

theorem namesOk_one {r : Reg} (h : ∃ l, regLoc t r = .ok l) : namesOk t [r] = .ok () := namesOk_cons h rfl

theorem namesOk_two {r q : Reg} (hr : ∃ l, regLoc t r = .ok l) (hq : ∃ l, regLoc t q = .ok l) :
    namesOk t [r, q] = .ok () := namesOk_cons hr (namesOk_one hq)

theorem namesOk_three {r q p : Reg} (hr : ∃ l, regLoc t r = .ok l) (hq : ∃ l, regLoc t q = .ok l)
    (hp : ∃ l, regLoc t p = .ok l) : namesOk t [r, q, p] = .ok () := namesOk_cons hr (namesOk_two hq hp)

end Operands

/-! ## Endings -/

section Endings

variable {s s' : State} {t u : Thread} {rs : List Reg} {body : Nat → Thread → Except Exc State}

/-- A body that is reached waits. -/
theorem issue_waits (ha : Acts s t) (hn : namesOk t rs = .ok ()) (hb : body s.core t = .error (.stall none)) :
    issue s rs body = .next s := by
  simp [issue, issueWith, attempt_acts ha _ _ _ hn, hb, settle]

/-- A transfer's body answers. -/
theorem issueJump_acts (ha : Acts s t) (hn : namesOk t rs = .ok ()) (hb : body s.core t = .ok s') :
    issueJump s rs body = .next s' := by
  simp [issueJump, attempt_acts ha _ _ _ hn, hb, settle]

theorem issueJump_traps (ha : Acts s t) (hn : namesOk t rs = .ok ()) {e : Exn}
    (hb : body s.core t = .error (.trap e none)) : issueJump s rs body = traps s t e := by
  simp [issueJump, attempt_acts ha _ _ _ hn, hb, settle, traps]

theorem issueJump_waits (ha : Acts s t) (hn : namesOk t rs = .ok ()) (hb : body s.core t = .error (.stall none)) :
    issueJump s rs body = .next s := by
  simp [issueJump, attempt_acts ha _ _ _ hn, hb, settle]

/-- A name that is none traps before the body is reached (08/R182). -/
theorem attempt_badName (ha : Acts s t) {e : Exn} (hn : namesOk t rs = .error (.trap e none)) (b : Bool) :
    attempt s b rs body = traps s t e := by
  simp [attempt, ha.1, ha.2, hn, settle, traps]

end Endings

end Sys2Proof.Proofs.Running
end


section
/-! PROOFS. Chapter 08: the register file, and the frame of the register instructions. -/

namespace Sys2Proof.Proofs.RegisterFile

open Sys2Proof Sys2Proof.Machine Sys2Proof.Proofs.Registers Sys2Proof.Proofs.Running

/-! ## Cells and predicates -/

section Cells

variable (t : Thread) (c : Cell)

theorem cellAt_setCell_self (l : RegLoc) : cellAt (setCell t l c) l = c := by
  cases l <;> exact tabGet_tabPut_self ..

theorem cellAt_setCell_ne {l k : RegLoc} (h : k ≠ l) : cellAt (setCell t l c) k = cellAt t k := by
  cases l <;> cases k <;> simp only [setCell, cellAt, ne_eq, RegLoc.g.injEq, RegLoc.file.injEq] at h ⊢ <;>
    exact tabGet_tabPut_ne _ _ _ _ _ h

theorem mem_bad_setCell_ne {l k : RegLoc} (h : k ≠ l) : k ∈ (setCell t l c).bad ↔ k ∈ t.bad := by
  cases l with
  | g i => rfl
  | file j => simp [setCell, h]

variable (v : Word)

theorem writeR_of_loc {d : Reg} {l : RegLoc} (h : regLoc t d = .ok (some l)) : writeR t d v = setCell t l ⟨v, .full⟩ := by
  simp [writeR, h]

theorem writeR_of_none {d : Reg} (h : regLoc t d = .ok none) : writeR t d v = t := by
  simp [writeR, h]

end Cells

theorem bit_shiftLeft_one {j k : BitVec 3} : (1#8 <<< k.toNat).getLsbD j.toNat = decide (j = k) := by
  revert j k; decide

theorem readP_writeP (t : Thread) {k : BitVec 3} (hk : k ≠ 0) (b : Bool) (j : BitVec 3) :
    readP (writeP t k b) j = if j = k then b else readP t j := by
  replace hk : ¬ k = 0#3 := hk
  by_cases hj : j = k
  · subst hj
    cases b <;> simp [readP, writeP, hk, bit_shiftLeft_one, -BitVec.getLsbD_shiftLeft]
  · have hlt : j.toNat < 8 := j.isLt
    have hbit := bit_shiftLeft_one (j := j) (k := k)
    cases b <;> simp [readP, writeP, hk, hj, hlt, hbit, -BitVec.getLsbD_shiftLeft, -BitVec.getLsbD_eq_getElem]

/-! ## Register names -/

section Names

variable (t : Thread) {i : Nat}

theorem toNat_windowName (h : i < 32) : (BitVec.ofNat 6 (16 + i)).toNat = 16 + i := by
  simp only [BitVec.toNat_ofNat]; omega

theorem regLoc_window (h : i < 32) (hs : i < t.fsize) :
    regLoc t (BitVec.ofNat 6 (16 + i)) = .ok (some (.file ((t.base + i) % 512))) := by
  simp only [regLoc, toNat_windowName h]
  rw [if_neg (by omega), if_pos (by omega), if_pos (by omega)]
  simp

theorem regLoc_outside (h : i < 32) (hs : t.fsize ≤ i) : regLoc t (BitVec.ofNat 6 (16 + i)) = exn cIllegal 1 := by
  simp only [regLoc, toNat_windowName h]
  rw [if_neg (by omega), if_pos (by omega), if_neg (by omega)]

theorem regLoc_reserved {r : Reg} (h : 48 ≤ r.toNat) : regLoc t r = exn cIllegal 0 := by
  simp only [regLoc]
  rw [if_neg (by omega), if_neg (by omega)]

end Names

/-! ## How a two-source instruction ends when an operand is not to hand -/

section NotToHand

variable {s : State} {t : Thread} {d : Reg} {a b : Src} {l : RegLoc} {x y : Word}

theorem readSrc_error_ends (ha : Acts s t) {rs : List Reg} (hn : namesOk t rs = .ok ()) {c : Cell}
    {body : Thread → Except Exc Thread} (hb : body t = .error (emptyExc a c)) :
    issueOwn s rs body =
      if a.wait ∧ c.fill = .empty then .next s else traps s t ⟨cEmpty, 0, none, 0⟩ := by
  simp only [issueOwn, issueOwnWith, attempt_acts ha _ _ _ hn, hb, emptyExc]
  split <;> simp [settle, traps]

theorem destReady_empty (hl : regLoc t d = .ok (some l)) (he : (cellAt t l).fill = .empty) :
    destReady t d = .error (.stall none) := by
  simp [destReady, hl, he, stallNow]

theorem opRR_badName (ha : Acts s t) (f : Word → Word → Word) {e : Exn}
    (hn : namesOk t [d, a.reg, b.reg] = .error (.trap e none)) : opRR s d a b f = traps s t e := by
  unfold opRR issueOwn issueOwnWith
  exact attempt_badName ha hn true

theorem opRR_first_not_full (ha : Acts s t) (f : Word → Word → Word) (hn : namesOk t [d, a.reg, b.reg] = .ok ())
    (hl : regLoc t a.reg = .ok (some l)) (hf : (cellAt t l).fill ≠ .full) : opRR s d a b f =
      if a.wait ∧ (cellAt t l).fill = .empty then .next s else traps s t ⟨cEmpty, 0, none, 0⟩ :=
  readSrc_error_ends ha hn (by simp [readSrc_not_full hl hf])

theorem opRR_second_not_full (ha : Acts s t) (f : Word → Word → Word) (hn : namesOk t [d, a.reg, b.reg] = .ok ())
    (hx : Reads t a x) (hl : regLoc t b.reg = .ok (some l)) (hf : (cellAt t l).fill ≠ .full) : opRR s d a b f =
      if b.wait ∧ (cellAt t l).fill = .empty then .next s else traps s t ⟨cEmpty, 0, none, 0⟩ :=
  readSrc_error_ends ha hn (by simp [hx.readSrc_eq, readSrc_not_full hl hf])

theorem opRR_dest_empty (ha : Acts s t) (f : Word → Word → Word) (hx : Reads t a x) (hy : Reads t b y)
    (hl : regLoc t d = .ok (some l)) (he : (cellAt t l).fill = .empty) : opRR s d a b f = .next s := by
  have hn := namesOk_three (t := t) ⟨_, hl⟩ (regLoc_of_reads hx) (regLoc_of_reads hy)
  simp [opRR, issueOwn, issueOwnWith, attempt_acts ha _ _ _ hn, hx.readSrc_eq, hy.readSrc_eq, writeDest, destReady_empty hl he, settle]

/-- The four ways in which such an instruction does not complete. -/
def NotToHand (s : State) (t : Thread) (d : Reg) (a b : Src) (r : Answer) : Prop :=
  (∀ e, namesOk t [d, a.reg, b.reg] = .error (.trap e none) → r = traps s t e) ∧
  (∀ l, namesOk t [d, a.reg, b.reg] = .ok () → regLoc t a.reg = .ok (some l) → (cellAt t l).fill ≠ .full →
    r = if a.wait ∧ (cellAt t l).fill = .empty then .next s else traps s t ⟨cEmpty, 0, none, 0⟩) ∧
  (∀ l x, namesOk t [d, a.reg, b.reg] = .ok () → Reads t a x → regLoc t b.reg = .ok (some l) →
    (cellAt t l).fill ≠ .full →
    r = if b.wait ∧ (cellAt t l).fill = .empty then .next s else traps s t ⟨cEmpty, 0, none, 0⟩) ∧
  (∀ l x y, Reads t a x → Reads t b y → regLoc t d = .ok (some l) → (cellAt t l).fill = .empty → r = .next s)

theorem opRR_notToHand (ha : Acts s t) (d : Reg) (a b : Src) (f : Word → Word → Word) :
    NotToHand s t d a b (opRR s d a b f) :=
  ⟨fun _ => opRR_badName ha f, fun _ => opRR_first_not_full ha f, fun _ _ => opRR_second_not_full ha f,
    fun _ _ _ => opRR_dest_empty ha f⟩

end NotToHand

/-- Settles O3: the laws of cells, predicates and register names, and one law for how every instruction of two sources ends
when an operand is not to hand. -/
theorem registerFile : Obligations.RegisterFile := by
  unfold Obligations.RegisterFile
  refine ⟨fun t v k j b => ⟨fun w => rfl, rfl, rfl, rfl, ?_, ?_, ?_, ?_, ?_, fun r => regLoc_reserved t⟩,
    fun s t d a b ha => ?rows⟩
  · intro hk
    simp [readP_writeP t hk]
  · intro hjk
    by_cases hk : k = 0
    · simp [writeP, hk]
    · simp [readP_writeP t hk, hjk]
  · intro d l hl
    rw [writeR_of_loc t v hl]
    exact ⟨cellAt_setCell_self t _ l, fun l' => cellAt_setCell_ne t _⟩
  · exact fun i hs hi => regLoc_window t hi hs
  · exact fun i hs hi => regLoc_outside t hi hs
  case rows =>
    have law := opRR_notToHand ha d a b
    simp only [List.forall_mem_cons]
    exact ⟨
      -- add, sub, mul, mulh, mulhu, div, divu, rem
      law _, law _, law _, law _, law _, law _, law _, law _,
      -- remu, and, or, xor, andn, shl, shr, sra
      law _, law _, law _, law _, law _, law _, law _, law _,
      -- rot, min, minu, max, maxu
      law _, law _, law _, law _, law _, List.forall_mem_nil _⟩

/-! ## The frame -/

/-- An early end that keeps no change: a wait, or a trap. -/
def KeepsNothing (e : Exc) : Prop := e = .stall none ∨ ∃ x, e = .trap x none

theorem keepsNothing_trap (x : Exn) : KeepsNothing (.trap x none) := .inr ⟨x, rfl⟩

/-- A body answers a thread of which P holds, or ends early with no change kept. -/
def Yields (P : Thread → Prop) : Except Exc Thread → Prop
  | .ok u => P u
  | .error e => KeepsNothing e

section Frame

variable {s s' : State} {t : Thread} {d : Reg} {a b : Src} {P : Thread → Prop}

theorem readReg64_keepsNothing {r : Reg} {w : Bool} {e : Exc} (h : readReg64 t r w = .error e) : KeepsNothing e := by
  simp only [readReg64, trapWith, stallNow] at h
  split at h
  · cases h; exact keepsNothing_trap _
  · cases h
  · split at h
    · split at h
      · cases h; exact keepsNothing_trap _
      · cases h
    · split at h <;> cases h
      · exact .inl rfl
      · exact keepsNothing_trap _
    · cases h; exact keepsNothing_trap _

/-- A body that reads a register and goes on. -/
theorem yields_read {r : Reg} {w : Bool} {f : Word → Except Exc Thread} (h : ∀ x, Yields P (f x)) :
    Yields P (readReg64 t r w >>= f) := by
  cases hx : readReg64 t r w with
  | error e => exact readReg64_keepsNothing hx
  | ok x => exact h x

theorem destReady_keepsNothing {e : Exc} (h : destReady t d = .error e) : KeepsNothing e := by
  simp only [destReady, stallNow] at h
  split at h
  · cases h; exact keepsNothing_trap _
  · cases h
  · split at h <;> cases h
    exact .inl rfl

/-- What a write of a destination may leave: the register written. -/
def WroteDest (t : Thread) (d : Reg) (u : Thread) : Prop := (∃ l, regLoc t d = .ok l) ∧ ∃ v, u = writeR t d v

theorem yields_writeDest (t : Thread) (d : Reg) (v : Word) : Yields (WroteDest t d) (writeDest t d v) := by
  cases hr : destReady t d with
  | error e =>
    have hk := destReady_keepsNothing hr
    simpa only [writeDest, hr, Yields] using hk
  | ok _ =>
    have hw : WroteDest t d (writeR t d v) := ⟨regLoc_of_ready hr, v, rfl⟩
    simpa only [writeDest, hr, Yields] using hw

theorem namesOk_keepsNothing {rs : List Reg} {e : Exc} (h : namesOk t rs = .error e) : KeepsNothing e := by
  induction rs with
  | nil => cases h
  | cons r rs ih =>
    simp only [namesOk] at h
    split at h
    · cases h; exact keepsNothing_trap _
    · exact ih h

theorem settle_keepsNothing {e : Exc} (he : KeepsNothing e) : settle s s.core t (.error e) = s ∨
    ∃ x, settle s s.core t (.error e) = takeTrap s s.core t x := by
  rcases he with rfl | ⟨x, rfl⟩
  · exact .inl rfl
  · exact .inr ⟨x, rfl⟩

/-- What an instruction that changes its own thread alone can answer. -/
theorem issueOwnWith_yields (hs : s.threadAt s.core = some t) {more : Word} {rs : List Reg}
    {body : Thread → Except Exc Thread} (hb : Yields P (body t)) (h : issueOwnWith more s rs body = .next s') :
    s' = s ∨ (∃ e, s' = takeTrap s s.core t e) ∨
      ∃ u, P u ∧ s' = s.setThread s.core (endTest u (t.pc + more)) := by
  simp only [issueOwnWith, attempt, hs, Host.Outcome.next.injEq] at h
  subst h
  split
  · exact (settle_keepsNothing (keepsNothing_trap _)).imp id .inl
  · split
    · next e he => exact (settle_keepsNothing (namesOk_keepsNothing he)).imp id .inl
    · cases hr : body t with
      | ok u => exact .inr (.inr ⟨u, by simpa [hr, Yields] using hb, rfl⟩)
      | error e => exact (settle_keepsNothing (by simpa [hr, Yields] using hb)).imp id .inl

/-- A write of a destination and the end test change nothing but the register, the PC and the loop stack. -/
theorem sameBut_writeR (x v : Word) {l : Option RegLoc} (hl : regLoc t d = .ok l) :
    SameBut l t (endTest (writeR t d v) x) := by
  cases l with
  | none =>
    rw [writeR_of_none t v hl]
    exact ⟨rfl, fun _ _ => ⟨rfl, .rfl⟩⟩
  | some k =>
    rw [writeR_of_loc t v hl]
    refine ⟨?_, fun k' hk' => ?_⟩
    · cases k <;> rfl
    · have hne : k' ≠ k := fun e => hk' (by rw [e])
      exact ⟨cellAt_setCell_ne t _ hne, mem_bad_setCell_ne t _ hne⟩

/-- What the frame of a register instruction allows. -/
def RegisterFrame (s : State) (t : Thread) (d : Reg) (s' : State) : Prop :=
  s' = s ∨ (∃ e, s' = takeTrap s s.core t e) ∨
    ∃ u, s' = s.setThread s.core u ∧ ∃ l, regLoc t d = .ok l ∧ SameBut l t u

/-- An instruction whose body ends in a write of d. -/
theorem issueOwnWith_registerFrame (hs : s.threadAt s.core = some t) {more : Word} {rs : List Reg}
    {body : Thread → Except Exc Thread} (hb : Yields (WroteDest t d) (body t))
    (h : issueOwnWith more s rs body = .next s') : RegisterFrame s t d s' := by
  rcases issueOwnWith_yields hs hb h with h | h | ⟨u, ⟨⟨l, hl⟩, v, rfl⟩, h⟩
  · exact .inl h
  · exact .inr (.inl h)
  · exact .inr (.inr ⟨_, h, l, hl, sameBut_writeR _ v hl⟩)

theorem opRR_registerFrame (hs : s.threadAt s.core = some t) {f : Word → Word → Word}
    (h : opRR s d a b f = .next s') : RegisterFrame s t d s' :=
  issueOwnWith_registerFrame hs (yields_read fun _ => yields_read fun _ => yields_writeDest t d _) h

theorem opR_registerFrame (hs : s.threadAt s.core = some t) {more : Word} {f : Word → Word}
    (h : opR more s d a f = .next s') : RegisterFrame s t d s' :=
  issueOwnWith_registerFrame hs (yields_read fun _ => yields_writeDest t d _) h

theorem opD_registerFrame (hs : s.threadAt s.core = some t) {more : Word} {f : Thread → Word}
    (h : opD more s d f = .next s') : RegisterFrame s t d s' :=
  issueOwnWith_registerFrame hs (yields_writeDest t d _) h

theorem bfi_registerFrame (hs : s.threadAt s.core = some t) {n m : BitVec 6}
    (h : execBfi d a n m s = .next s') : RegisterFrame s t d s' :=
  issueOwnWith_registerFrame hs (yields_read fun _ => yields_read fun _ => yields_writeDest t d _) h

theorem psel_registerFrame (hs : s.threadAt s.core = some t) {k : BitVec 3}
    (h : execPsel d a b k s = .next s') : RegisterFrame s t d s' :=
  issueOwnWith_registerFrame hs (yields_read fun _ => yields_read fun _ => yields_writeDest t d _) h

/-- What the frame of an instruction with a predicate as its destination allows. -/
def PredicateFrame (s : State) (t : Thread) (p : BitVec 3) (s' : State) : Prop :=
  s' = s ∨ (∃ e, s' = takeTrap s s.core t e) ∨
    ∃ u, s' = s.setThread s.core u ∧ SameButPreds t u ∧ ∀ k, k ≠ p → readP u k = readP t k

theorem sameButPreds_writeP (t : Thread) (p : BitVec 3) (c : Bool) (x : Word) :
    SameButPreds t (endTest (writeP t p c) x) := by
  simp only [SameButPreds, endTest, writeP]
  split <;> rfl

theorem readP_endTest_writeP (t : Thread) {p k : BitVec 3} (hk : k ≠ p) (c : Bool) (x : Word) :
    readP (endTest (writeP t p c) x) k = readP t k := by
  show readP (writeP t p c) k = _
  by_cases hp : p = 0
  · simp [writeP, hp]
  · simp [readP_writeP t hp, hk]

/-- What a write of a predicate leaves. -/
def WrotePred (t : Thread) (p : BitVec 3) (u : Thread) : Prop := ∃ c, u = writeP t p c

theorem yields_writeP (t : Thread) (p : BitVec 3) (c : Bool) : Yields (WrotePred t p) (.ok (writeP t p c)) := ⟨c, rfl⟩

/-- An instruction whose body ends in a write of the predicate p. -/
theorem issueOwnWith_predicateFrame (hs : s.threadAt s.core = some t) {p : BitVec 3} {rs : List Reg}
    {body : Thread → Except Exc Thread} (hb : Yields (WrotePred t p) (body t))
    (h : issueOwnWith 0 s rs body = .next s') : PredicateFrame s t p s' := by
  rcases issueOwnWith_yields hs hb h with h | h | ⟨u, ⟨c, rfl⟩, h⟩
  · exact .inl h
  · exact .inr (.inl h)
  · exact .inr (.inr ⟨_, h, sameButPreds_writeP t p c _, fun k hk => readP_endTest_writeP t hk c _⟩)

theorem opCmp_predicateFrame (hs : s.threadAt s.core = some t) {p : BitVec 3} {r : Word → Word → Bool}
    (h : opCmp s p a b r = .next s') : PredicateFrame s t p s' :=
  issueOwnWith_predicateFrame hs (yields_read fun _ => yields_read fun _ => yields_writeP t p _) h

theorem opPred_predicateFrame (hs : s.threadAt s.core = some t) {p : BitVec 3} {f : Thread → Bool}
    (h : opPred s p f = .next s') : PredicateFrame s t p s' := by
  unfold opPred issueOwn at h
  exact issueOwnWith_predicateFrame hs (yields_writeP t p _) h

end Frame

/-- Settles O4: each instruction has one of five shapes, and each shape its frame. -/
theorem registerFrame : Obligations.RegisterFrame := by
  unfold Obligations.RegisterFrame
  refine ⟨fun s s' t d a b i n m w k hs => ?registers, fun s s' t a b p q r hs => ?predicates⟩
  case registers =>
    have rr {f} : opRR s d a b f = .next s' → RegisterFrame s t d s' := opRR_registerFrame hs
    have r {more f} : opR more s d a f = .next s' → RegisterFrame s t d s' := opR_registerFrame hs
    simp only [List.forall_mem_cons]
    exact ⟨
      -- add, sub, mul, mulh, mulhu, div, divu, rem, remu, and, or, xor, andn, shl, shr, sra, rot, min, minu, max, maxu
      rr, rr, rr, rr, rr, rr, rr, rr, rr, rr, rr, rr, rr, rr, rr, rr, rr, rr, rr, rr, rr,
      -- mov, clz, popc, addi, andi, ori, xori, shli, shri, srai, bfx, bfxu
      r, r, r, r, r, r, r, r, r, r, r, r,
      -- bfi, sext, movi, movl, movhi, psel
      bfi_registerFrame hs, r, opD_registerFrame hs,
      opD_registerFrame hs, r, psel_registerFrame hs, List.forall_mem_nil _⟩
  case predicates =>
    have cmp {r} : opCmp s p a b r = .next s' → PredicateFrame s t p s' := opCmp_predicateFrame hs
    have pr {f} : opPred s p f = .next s' → PredicateFrame s t p s' := opPred_predicateFrame hs
    simp only [List.forall_mem_cons]
    exact ⟨
      -- cmp.eq, cmp.ne, cmp.lt, cmp.ltu, cmp.le, cmp.leu
      cmp, cmp, cmp, cmp, cmp, cmp,
      -- pand, por, pxor, pnot
      pr, pr, pr, pr, List.forall_mem_nil _⟩

end Sys2Proof.Proofs.RegisterFile
end


section
/-! PROOFS. What reset leaves, the words that the spec spells out, and the tests of a handle. -/

namespace Sys2Proof.Proofs.Reset

open Sys2Proof Sys2Proof.Machine

/-- Settles O59: every memory is empty at reset. -/
theorem resetMemoryForm : Obligations.ResetMemoryForm := ⟨rfl, rfl, rfl, rfl⟩

theorem lqEn_reset (q : Nat) : lqEn State.reset q = false := by
  simp [lqEn, State.reset, tabGet, tabFind, bit]

theorem podState_reset (m : Nat) : podState State.reset m = 0 := by
  simp [podState, State.reset, tabGet, tabFind, bits]

/-- Settles O60: each value is a default of the state or of an absent table entry. -/
theorem resetValues : Obligations.ResetValues :=
  ⟨rfl, rfl, rfl, rfl, rfl, rfl, rfl, rfl, lqEn_reset, podState_reset, fun _ _ => rfl⟩

/-- Settles O55: the decoder evaluates on each word. -/
theorem decodeSamples : Obligations.DecodeSamples :=
  ⟨rfl, rfl, rfl, rfl, rfl, rfl, rfl, rfl, rfl, rfl, rfl, rfl, rfl, rfl⟩

/-- Settles O5: the tests of `checkHandle` stand in the order of the rule. -/
theorem handleCheck : Obligations.HandleCheck := by
  unfold Obligations.HandleCheck
  refine fun h off size need asid => ⟨fun hv => ?_, fun hv ha => ?_, fun hv ha hr => ?_, fun hv ha hr hb => ?_,
    fun hv ha hr h0 hl => ?_⟩
  · simp [checkHandle, hv]
  · simp [checkHandle, hv, ha]
  · simp [checkHandle, hv, ha, hr]
  · simp [checkHandle, hv, ha, hr, hb]
  · have inside : ¬ (off < 0 ∨ (h.len.toNat : Int) < off + size) := by omega
    simp [checkHandle, hv, ha, hr, inside]

end Sys2Proof.Proofs.Reset
end


section
/-! PROOFS. Chapter 15: transfers, frames, loops and traps. -/

namespace Sys2Proof.Proofs.Control

open Sys2Proof Sys2Proof.Machine Sys2Proof.Proofs.Running

/-! ## Transfers (15/R344, R345) -/

section Transfers

variable {s : State} {t : Thread} {a : Src} {x : Word}

theorem branchTarget_eq (pc : Word) (o : BitVec 21) : branchTarget pc o = pc + 4 * o.signExtend 64 := by
  have shift (w : Word) : w <<< 2 = 4 * w := by
    apply BitVec.eq_of_toNat_eq
    simp [BitVec.toNat_shiftLeft, Nat.shiftLeft_eq, BitVec.toNat_mul, Nat.mul_comm]
  rw [branchTarget, shift]

theorem regTarget_aligned (hx : Reads t a x) (h4 : x.toNat % 4 = 0) : regTarget t a = .ok x := by
  simp [regTarget, hx.readSrc_eq, h4]

theorem regTarget_misaligned (hx : Reads t a x) (h4 : x.toNat % 4 ≠ 0) :
    regTarget t a = .error (.trap ⟨cAlign, 0, none, 0⟩ none) := by
  simp [regTarget, hx.readSrc_eq, h4, trapWith]

/-- Settles O15: each transfer's body answers, and a register target is tested first. -/
theorem transfers : Obligations.Transfers := by
  unfold Obligations.Transfers
  refine fun s t p n o a x ha => ⟨?br, ?jmp, ?call, fun hx h4 => ⟨?jr, ?callr⟩, fun hx h4 => ⟨?jrBad, ?callrBad⟩⟩
  case br =>
    show execBr p n o s = _
    refine (issueJump_acts ha namesOk_nil rfl).trans ?_
    rw [branchTarget_eq, ends]
    split <;> rfl
  case jmp =>
    show execJmp o s = _
    exact (issueJump_acts ha namesOk_nil rfl).trans (by rw [branchTarget_eq])
  case call =>
    show execCall o s = _
    exact (issueJump_acts ha namesOk_nil rfl).trans (by rw [branchTarget_eq]; rfl)
  all_goals have hn := namesOk_one (regLoc_of_reads hx)
  case jr =>
    show execJr a s = _
    exact issueJump_acts ha hn (by simp [regTarget_aligned hx h4])
  case callr =>
    show execCallr a s = _
    exact issueJump_acts ha hn (by simp [regTarget_aligned hx h4, pushFrame])
  case jrBad =>
    show execJr a s = _
    exact issueJump_traps ha hn (by simp [regTarget_misaligned hx h4])
  case callrBad =>
    show execCallr a s = _
    exact issueJump_traps ha hn (by simp [regTarget_misaligned hx h4])

end Transfers

/-! ## Loops (15/R348, R349) -/

/-- Settles O16: one unfolding of the end test for each form of the stack. -/
theorem endTest : Obligations.EndTest := by
  unfold Obligations.EndTest
  refine fun t x e r => ⟨rfl, fun hl hn => ?other, fun hl ha he hr => ?again, fun hl ha he hr => ?last⟩
  case other =>
    have skip : ¬ (loopActive t e = true ∧ e.stop = x) := by
      rintro ⟨h1, h2⟩
      rcases hn with h | h
      · simp [h] at h1
      · exact h h2
    simp only [Machine.endTest, hl, endLoop, if_neg skip]
  case again => simp [Machine.endTest, hl, endLoop, ha, he, hr]
  case last =>
    have done : ¬ 1 < e.rem.toNat := by omega
    have same (l : List LoopEntry) : endLoop { t with loops := r } x l = endLoop t x l := by
      induction l with
      | nil => rfl
      | cons y l ih => simp only [endLoop, ih]; rfl
    simp [Machine.endTest, hl, endLoop, ha, he, done, same]

section Loop

variable {s z : State} {t : Thread} {start : Word} {e : BitVec 8} {n : Nat} {b : List Byte}

theorem startLoop_forbidden (hf : fetchWord s s.core t (start + BitVec.ofNat 64 (4 * (e.toNat - 1))) = .ok (b, z))
    (hb : endForbidden (wordOfBytes b) = true) :
    startLoop s s.core t start e n = .error (.trap ⟨cIllegal, 3, none, 0⟩ none) := by
  simp [startLoop, hf, hb, trapWith]

theorem startLoop_fifth (hf : fetchWord s s.core t (start + BitVec.ofNat 64 (4 * (e.toNat - 1))) = .ok (b, z))
    (hb : endForbidden (wordOfBytes b) = false) (h4 : 4 ≤ t.loops.length) :
    startLoop s s.core t start e n = .error (.trap ⟨cIllegal, 4, none, 0⟩ none) := by
  simp [startLoop, hf, hb, h4, trapWith]

theorem startLoop_pushes (hf : fetchWord s s.core t (start + BitVec.ofNat 64 (4 * (e.toNat - 1))) = .ok (b, z))
    (hb : endForbidden (wordOfBytes b) = false) (h4 : t.loops.length < 4) (hn : 0 < n) :
    startLoop s s.core t start e n = .ok (z.setThread s.core { t with
      loops := ⟨start, start + BitVec.ofNat 64 (4 * (e.toNat - 1)), e, BitVec.ofNat 24 n, t.depth, t.base⟩ :: t.loops
      pc := start }) := by
  simp [startLoop, hf, hb, Nat.not_le.2 h4, Nat.ne_of_gt hn]

theorem startLoop_skips (hf : fetchWord s s.core t (start + BitVec.ofNat 64 (4 * (e.toNat - 1))) = .ok (b, z))
    (hb : endForbidden (wordOfBytes b) = false) (h4 : t.loops.length < 4) :
    startLoop s s.core t start e 0 =
      .ok (z.setThread s.core (Machine.endTest t (start + BitVec.ofNat 64 (4 * (e.toNat - 1))))) := by
  simp [startLoop, hf, hb, Nat.not_le.2 h4]

end Loop

/-- Settles O19: both instructions start a loop by the same tests, `loopr` after the test of its count. -/
theorem loops : Obligations.Loops := by
  unfold Obligations.Loops
  intro s z z' t c e a x b b' ha
  simp only
  intro hf hf' hx
  have hn := namesOk_one (regLoc_of_reads hx)
  have atCount {r : Except Exc State} (hc : x.toNat < 2 ^ 24) (hr : startLoop s s.core t (t.pc + 4) e x.toNat = r) :
      (do let n ← readSrc t a
          if 16777215 < n.toNat then trapWith cIllegal 2 else startLoop s s.core t (t.pc + 4) e n.toNat) = r := by
    simpa [hx.readSrc_eq, show ¬ 16777215 < x.toNat by omega] using hr
  refine ⟨fun hb => ?_, fun hb h4 => ?_, fun hb h4 h0 => ?_, fun hb h4 h0 => ?_, fun hc => ?_, fun hc hb => ?_,
    fun hc hb h4 => ?_, fun hc hb h4 h0 => ?_, fun h0 hb h4 => ?_⟩
  iterate 4 show execLoop c e s = _; rotate_left
  iterate 5 show execLoopr a e s = _; rotate_left
  · exact issueJump_traps ha namesOk_nil (startLoop_forbidden hf hb)
  · exact issueJump_traps ha namesOk_nil (startLoop_fifth hf hb h4)
  · exact issueJump_acts ha namesOk_nil (startLoop_pushes hf hb h4 h0)
  · subst h0
    exact issueJump_acts ha namesOk_nil (startLoop_skips hf hb h4)
  · exact issueJump_traps ha hn (by simp [hx.readSrc_eq, show 16777215 < x.toNat by omega, trapWith])
  · exact issueJump_traps ha hn (atCount hc (startLoop_forbidden hf' hb))
  · exact issueJump_traps ha hn (atCount hc (startLoop_fifth hf' hb h4))
  · exact issueJump_acts ha hn (atCount hc (startLoop_pushes hf' hb h4 h0))
  · subst h0
    exact issueJump_acts ha hn (atCount (by decide) (startLoop_skips hf' hb h4))

/-! ## Frames (15/R346, R347) -/

/-- Every instruction of a control thread but `enter` tests first that its frame has been entered (15/R346). -/
theorem exec_notEntered {s : State} {t : Thread} (hs : s.threadAt s.core = some t) (he : t.entered = false) {i : Instr}
    (hf : i.fabricOpc = none) (hw : encode i ≠ []) (hi : ∀ m, i ≠ .enter m) :
    exec i s = traps s t ⟨cIllegal, 1, none, 0⟩ := by
  cases i
  case add | sub | mul | mulh | mulhu | div | divu | rem | remu | and | or | xor | andn | shl | shr | sra | rot
      | min | minu | max | maxu | mov | clz | popc | addi | andi | ori | xori | shli | shri | srai | bfx | bfxu
      | bfi | sext | movi | movl | movhi | cmpEq | cmpNe | cmpLt | cmpLtu | cmpLe | cmpLeu | pand | por | pxor |
      pnot | psel | ldB | ldBu | ldH | ldHu | ldW | ldWu | ldD | stB | stH | stW | stD | pfetch | amoAdd |
      amoAnd | amoOr | amoXor | amoMin | amoMinu | amoMax | amoMaxu | amoSwap | amoCas | fence | hsub | hrights
      | hbase | hlen | hmov | hcheck | fmtWin | br | jmp | call | jr | callr | ret | loop | loopr | cpIssue |
      cpSched | cpAdv | cpStatus | ringInit | ringWait | ringRel | ringWptr | qfence | smap | sunmap | sprot |
      sevict | smig | squery | sfix | calloc | cseal | cldR | cfin | cdrop | cinfo | cpart | mxBind | mxScale |
      mxMode | mxFire | mxAcc | mxRlbl | mxDrain | mxUnpin | castLoad | castBind | castKill | castEnd | bpush |
      bpull | bmark | kvFind | kvAddPool | kvAddOpen | kvAddAppend | kvAddAttach | kvAddPublish | kvAddClose |
      kvAddDemote | kvPromote | kvPromoteCancel | dwOpen | dwSnap | dwCommit | dwAbort | dwStat | xmcast | xcomb
      | xbar | xid | chanBind | chanYield | chanRaise | qput | qget | barArrive | barWait | barTest | trap |
      eret | srd | swr | brk | nop =>
    conv_lhs => whnf
    simp [hs, he, settle, traps, trapWith]
  case iAdd | iSub | iMul | iMad | iMin | iMax | iAbs | iClamp | iAnd | iOr | iXor | iShl | iShr | iSra | iCmp |
      sel | fabricMov | const | mix | fAdd | fSub | fMul | fFma | fMin | fMax | fAbs | fNeg | fCmp | fRcp | fRsq
      | fExp2 | fLog2 | fSig | fTanh | cvt | pack | unpack | rEnc | rDec | rMac | xl | red | fork | steer |
      merge | mergeU | filter | recirc | gate | seq | mark | ldS | stS | amoS | ldG | stG | ag | ldC | stC |
      cAlloc | cSeal | accRd | aRow | cfgTok =>
    cases hf
  case illegalInstruction | longLatencyProducerComplete | faultDelivery | channelEntry | streamerBeat |
      copyCompletion | scheduleEntryBegin | pageIn | pageOut | relocation | curdGrant | nodeAccessPerformed |
      castingMove | castingSlice | castingReturn | demandExpiry | forcedPreemption | rowFire | readoutPerform |
      bindPerform | tileLoadComplete | modeItemPerform | scaleItemPerform | accItemPerform | unpinItemPerform |
      configTokenPerform | appendPageCopyComplete | demoteComplete | promotionComplete | commitPoint |
      dispatcherPoll | recordCheck | launchStart | steal | watchdogExpiry | correctedError | linkCrcRetry |
      hostTailWrite | hostMemoryWrite | hostMemoryRead | hostWindowCompletion | hostCompletionTimeout |
      registerWrite | tinvWrite | tinvComplete | lqctlWrite | errorCounterWrite | podidWrite | podwinWrite |
      killLaunch | haltCasting | releaseCasting | haltThread | releaseThread | watchdogLimit | readContextStore
      | identityPublicKey | attestationReport | loadFirmware | mailboxCommandEnd | moduleReset | thermalWarning
      | thermalTrip | podRequest | linkDown | responseTimeout | fenceNotice | podOpComplete | combineResult |
      combineFailureNotice | portGoesDown | promotionCopyBegin | castingConfigurationLoaded |
      hostAtomicopRequest | unknownMailboxCommand =>
    exact absurd rfl hw
  case enter m => exact absurd rfl (hi m)

/-- Clearing file registers changes the file alone. -/
theorem zeroFile_eq (t : Thread) (js : List Nat) :
    zeroFile t js = { t with win := (zeroFile t js).win, bad := (zeroFile t js).bad } := by
  induction js generalizing t with
  | nil => rfl
  | cons j js ih => exact ih (setCell t (.file j) ⟨0, .full⟩)

@[simp] theorem zeroFile_pc (t : Thread) (js : List Nat) : (zeroFile t js).pc = t.pc := by
  rw [zeroFile_eq]

/-- Settles O17: `enter`'s own tests, and the test that every other instruction makes first. -/
theorem frameEntry : Obligations.FrameEntry := by
  unfold Obligations.FrameEntry
  refine fun s t n i hs => ⟨fun he hr => ?fits, fun s' t' he hsp => ?spills, fun he => ?entered, fun he hf hw hi => ?others⟩
  case fits => simp [exec, execEnter, attempt, hs, he, spillFor, hr, settle, framePositions]
  case spills => simp [exec, execEnter, attempt, hs, he, hsp, settle, framePositions]
  case entered => simp [exec, execEnter, attempt, hs, he, settle, traps, trapWith]
  case others => exact exec_notEntered hs he hf hw hi

theorem linkOf_aligned (w : Word) : (linkOf w).toNat % 4 = 0 := by
  have low : linkOf w &&& 3#64 = 0#64 := by
    rw [linkOf, BitVec.and_assoc]
    simp
  have h := congrArg BitVec.toNat low
  simpa [BitVec.toNat_and, Nat.and_two_pow_sub_one_eq_mod _ 2] using h

/-- The link of a frame that has been filled is aligned (15/R343). -/
theorem fillFrame_ret_aligned {s s' : State} {key : Nat} {t t' : Thread} {f f' : FrameRec}
    (h : fillFrame s key t f = .ok (s', t', f')) : f'.ret.toNat % 4 = 0 := by
  by_cases ho : t.osp = 0 <;> simp only [fillFrame, exn, ho, ne_eq, not_true_eq_false, not_false_eq_true, if_true, if_false] at h
  all_goals
    split at h
    · cases h
    · split at h
      · cases h
      · split at h
        · cases h
        · split at h
          · cases h
          · cases h
            exact linkOf_aligned _

/-- Settles O18: `returnFrame` from a frame in the file, and from one that is filled first. -/
theorem return_ : Obligations.Return := by
  unfold Obligations.Return
  refine fun s s' t t' f f' r e ha => ⟨fun hd => ?yields, fun hd hp => ?waits, fun hd hc hr hp => ?resident,
    fun hd hc hr hp => ⟨fun hf => ?fillTraps, fun hf => ⟨?filled, fillFrame_ret_aligned hf⟩⟩⟩
  case yields => simp [exec, execRet, execChanYield, issueJump, attempt_acts ha _ _ _ namesOk_nil, hd]
  case waits =>
    show execRet s = _
    exact issueJump_waits ha namesOk_nil (by simp [hd, returnFrame, hp, stallNow])
  case resident =>
    refine ⟨popFrame t f (t.nres - 1) f.ret, show execRet s = _ from issueJump_acts ha namesOk_nil ?_, rfl, rfl, rfl, rfl, rfl, rfl, ?_, rfl, rfl,
      rfl, rfl, rfl⟩
    · simp [hd, returnFrame, hp, hc, hr]
    · simp [popFrame, hc]
  case fillTraps =>
    show execRet s = _
    exact issueJump_traps ha namesOk_nil (by simp [hd, returnFrame, hp, hc, Nat.not_le.2 hr, hf])
  case filled =>
    show execRet s = _
    exact issueJump_acts ha namesOk_nil (by simp [hd, returnFrame, hp, hc, Nat.not_le.2 hr, hf])

end Sys2Proof.Proofs.Control
end


section
/-! PROOFS. Chapters 15 and 17: traps, taking a fault and returning from one. -/

namespace Sys2Proof.Proofs.Faults

open Sys2Proof Sys2Proof.Machine Sys2Proof.Proofs.Running Sys2Proof.Proofs.RegisterFile Sys2Proof.Proofs.Control

/-! ## The file of a fault frame (17/R391) -/

section File

variable (t : Thread)

theorem cellAt_zeroFile (js : List Nat) (j : Nat) :
    cellAt (zeroFile t js) (.file j) = if j ∈ js then ⟨0, .full⟩ else cellAt t (.file j) := by
  induction js generalizing t with
  | nil => rfl
  | cons i js ih =>
    refine (ih (setCell t (.file i) ⟨0, .full⟩)).trans ?_
    by_cases hj : j = i
    · subst hj
      simp [cellAt_setCell_self]
    · simp [hj, cellAt_setCell_ne]

theorem mem_bad_zeroFile (js : List Nat) (j : Nat) : .file j ∈ (zeroFile t js).bad ↔ .file j ∈ t.bad ∧ j ∉ js := by
  induction js generalizing t with
  | nil => simp [zeroFile]
  | cons i js ih =>
    refine (ih (setCell t (.file i) ⟨0, .full⟩)).trans ?_
    simp only [setCell, List.mem_filter, decide_eq_true_eq, ne_eq, RegLoc.file.injEq, List.mem_cons, not_or]
    tauto

/-- A write of a file register changes the file alone. -/
theorem fileOnly {u v : Thread} (h : ∃ w b, v = { u with win := w, bad := b }) (j : Nat) (c : Cell) :
    ∃ w b, setCell v (.file j) c = { u with win := w, bad := b } := by
  obtain ⟨w, b, rfl⟩ := h
  exact ⟨_, _, rfl⟩

/-- A full register of the file without an error is read. -/
theorem readField_full {r : Reg} {l : RegLoc} {v : Word} (hl : regLoc t r = .ok (some l)) (hc : cellAt t l = ⟨v, .full⟩)
    (hb : l ∉ t.bad) : readField t r = .ok v := by
  simp [readField, readReg64, hl, hc, hb]

end File

/-- The registers of the fault frame: the record in the first four, and zeros. -/
def faultCell (f : FaultRec) (epc : Word) : Nat → Word
  | 0 => f.cause
  | 1 => epc
  | 2 => f.addr
  | 3 => f.who
  | _ => 0

theorem file_inj {b i j : Nat} (hi : i < 512) (hj : j < 512) (hij : i ≠ j) : (b + i) % 512 ≠ (b + j) % 512 := by
  omega

section Enter

variable (t : Thread) (f : FaultRec) (epc : Word)

theorem mem_faultFrame {i : Nat} (hi : i < 32) :
    (faultBase t + i) % 512 ∈ (List.range 32).map fun i => (faultBase t + i) % 512 :=
  List.mem_map.2 ⟨i, by simpa using hi, rfl⟩

/-- A register of the fault frame. -/
theorem cellAt_enterFault {i : Nat} (hi : i < 32) :
    cellAt (enterFault t f epc) (.file ((faultBase t + i) % 512)) = ⟨faultCell f epc i, .full⟩ := by
  have off (j : Nat) (hj : j < 512) (hij : i ≠ j) :
      RegLoc.file ((faultBase t + i) % 512) ≠ .file ((faultBase t + j) % 512) := fun h =>
    file_inj (by omega) hj hij (RegLoc.file.inj h)
  have at0 : faultBase t % 512 = (faultBase t + 0) % 512 := rfl
  simp only [enterFault]
  rw [at0]
  match i, hi with
  | 0, _ => rw [cellAt_setCell_ne _ _ (off 3 (by decide) (by decide)), cellAt_setCell_ne _ _ (off 2 (by decide) (by decide)),
      cellAt_setCell_ne _ _ (off 1 (by decide) (by decide)), cellAt_setCell_self]; rfl
  | 1, _ => rw [cellAt_setCell_ne _ _ (off 3 (by decide) (by decide)), cellAt_setCell_ne _ _ (off 2 (by decide) (by decide)),
      cellAt_setCell_self]; rfl
  | 2, _ => rw [cellAt_setCell_ne _ _ (off 3 (by decide) (by decide)), cellAt_setCell_self]; rfl
  | 3, _ => rw [cellAt_setCell_self]; rfl
  | i + 4, hi =>
    rw [cellAt_setCell_ne _ _ (off 3 (by decide) (by omega)), cellAt_setCell_ne _ _ (off 2 (by decide) (by omega)),
      cellAt_setCell_ne _ _ (off 1 (by decide) (by omega)), cellAt_setCell_ne _ _ (off 0 (by decide) (by omega)),
      cellAt_zeroFile, if_pos (mem_faultFrame t hi)]
    rfl

/-- A register outside the fault frame is left. -/
theorem cellAt_enterFault_out {j : Nat} (hj : ∀ i < 32, j ≠ (faultBase t + i) % 512) :
    cellAt (enterFault t f epc) (.file j) = cellAt t (.file j) := by
  have off (i : Nat) (hi : i < 32) : RegLoc.file j ≠ .file ((faultBase t + i) % 512) := fun h => hj i hi (RegLoc.file.inj h)
  have out : j ∉ (List.range 32).map fun i => (faultBase t + i) % 512 := by
    simp only [List.mem_map, List.mem_range, not_exists, not_and]
    exact fun i hi h => hj i hi h.symm
  have at0 : faultBase t % 512 = (faultBase t + 0) % 512 := rfl
  simp only [enterFault]
  rw [at0, cellAt_setCell_ne _ _ (off 3 (by decide)), cellAt_setCell_ne _ _ (off 2 (by decide)),
    cellAt_setCell_ne _ _ (off 1 (by decide)), cellAt_setCell_ne _ _ (off 0 (by decide)), cellAt_zeroFile, if_neg out]
  rfl

theorem not_bad_enterFault {i : Nat} (hi : i < 32) : .file ((faultBase t + i) % 512) ∉ (enterFault t f epc).bad := by
  have keeps {u : Thread} (h : .file ((faultBase t + i) % 512) ∉ u.bad) (j : Nat) (c : Cell) :
      .file ((faultBase t + i) % 512) ∉ (setCell u (.file j) c).bad := fun hm => h (List.mem_filter.1 hm).1
  refine keeps (keeps (keeps (keeps ?_ _ _) _ _) _ _) _ _
  rw [mem_bad_zeroFile]
  exact fun h => h.2 (mem_faultFrame t hi)

/-- The thread that delivery makes, before the fault frame is cleared and the record written into it. -/
def atHandler : Thread := { t with
    saved := some ⟨epc, t.base, t.fsize, t.entered, t.depth, t.loops, t.priv, t.ret, t.callers.length⟩
    ecause := f.cause, epc := epc, eaddr := f.addr, ewho := f.who, efrom := f.from', esave := esaveOf t
    estream := f.of', callers := interrupted t, nres := (if t.depth = 0 then 0 else t.nres) + 1
    base := faultBase t, fsize := 32, entered := true, ret := 0, loops := [], depth := 1, pc := t.fvec, running := true }

theorem enterFault_eq : ∃ w b, enterFault t f epc = { atHandler t f epc with win := w, bad := b } :=
  fileOnly (fileOnly (fileOnly (fileOnly ⟨_, _, zeroFile_eq (atHandler t f epc) _⟩ _ _) _ _) _ _) _ _

/-- What the handler reads of the record. -/
theorem readField_enterFault {i : Nat} (hi : i < 32) :
    readField (enterFault t f epc) (BitVec.ofNat 6 (16 + i)) = .ok (faultCell f epc i) :=
  readField_full _ (regLoc_window _ hi hi) (cellAt_enterFault t f epc hi) (not_bad_enterFault t f epc hi)

end Enter

/-- Delivery to a thread that has a handler and is not in fault mode. -/
theorem deliver_enters {s : State} {key : Nat} {t : Thread} (hs : s.threadAt key = some t) (hsv : t.saved = none)
    (hv : t.fvec ≠ 0) (f : FaultRec) (epc : Word) : deliver s key f epc = s.setThread key (enterFault t f epc) := by
  replace hv : ¬ t.fvec = 0#64 := hv
  simp [deliver, hs, hsv, hv]

/-- Settles O20: delivery is `enterFault`, field by field, and register by register. -/
theorem faultEntry : Obligations.FaultEntry := by
  unfold Obligations.FaultEntry
  intro s key t f epc hs hsv hv hb hz
  have reads {i : Nat} (hi : i < 32) := readField_enterFault t f epc hi
  refine ⟨enterFault t f epc, deliver_enters hs hsv hv f epc, ?_, ?_, ?_, ?_, ?_, ?_, ?_, ?_, ?_, ?_, ?_,
    reads (i := 0) (by decide), reads (i := 1) (by decide), reads (i := 2) (by decide), reads (i := 3) (by decide), ?zeros,
    ?below, ?_, ?_, ?_, ?_, ?_, ?_⟩
  case zeros =>
    intro i h4 h32
    obtain ⟨j, rfl⟩ := Nat.exists_eq_add_of_le h4
    rw [reads h32, show 4 + j = j + 4 by omega]
    rfl
  case below =>
    intro i hi
    refine cellAt_enterFault_out t f epc fun k hk => ?_
    have hmax : t.fsize ≤ Nat.max t.fsize 8 ∧ Nat.max t.fsize 8 ≤ 32 := ⟨Nat.le_max_left .., Nat.max_le.2 ⟨hz, by decide⟩⟩
    simp only [faultBase]
    omega
  all_goals
    obtain ⟨w, b, hu⟩ := enterFault_eq t f epc
    rw [hu]
    rfl

/-! ## Traps (15/R364) -/

theorem ecauseOf_cause {src : Nat} {e : Exn} (hc : e.cause < 256) : bits (ecauseOf src e).toNat 7 0 = e.cause := by
  simp only [bits, ecauseOf, BitVec.toNat_ofNat]
  omega

theorem ecauseOf_code {e : Exn} (hc : e.cause < 256) (hs : e.sub = 0) : bits (ecauseOf 0 e).toNat 31 24 = e.code.toNat := by
  have hr : b2n (resumes 0 e.cause 0) ≤ 1 := by cases resumes 0 e.cause 0 <;> decide
  have hl : e.code.toNat < 256 := e.code.isLt
  simp only [bits, ecauseOf, BitVec.toNat_ofNat, hs]
  omega

theorem recordOf_cause (s : State) (src : Nat) (e : Exn) (who : Word) : (recordOf s src e who).1.cause = ecauseOf src e := by
  unfold recordOf
  split <;> rfl

theorem recordOf_threadAt (s : State) (src : Nat) (e : Exn) (who : Word) (k : Nat) :
    (recordOf s src e who).2.threadAt k = s.threadAt k := by
  unfold recordOf
  split <;> rfl

section Trap

variable {s : State} {t : Thread} (hs : s.threadAt s.core = some t)
include hs

/-- A trap enters the handler of a thread that has one and is not in fault mode. -/
theorem takeTrap_enters (hsv : t.saved = none) (hv : t.fvec ≠ 0) (e : Exn) :
    ∃ u v, (Host.Outcome.next (takeTrap s s.core t e) : Answer) = .next u ∧ u.threadAt s.core = some v ∧
      v.epc = trapPc t e ∧ v.pc = t.fvec ∧ v.ecause = ecauseOf srcInstr e := by
  have hr : (recordOf s srcInstr e 0).2.threadAt s.core = some t := (recordOf_threadAt ..).trans hs
  refine ⟨_, enterFault t (recordOf s srcInstr e 0).1 (trapPc t e), rfl, ?_, ?_, ?_, ?_⟩
  · rw [takeTrap, deliver_enters hr hsv hv]
    exact threadAt_setThread ..
  all_goals
    obtain ⟨w, b, hu⟩ := enterFault_eq t (recordOf s srcInstr e 0).1 (trapPc t e)
    rw [hu]
  · rfl
  · rfl
  · exact recordOf_cause ..

theorem execTrap_eq (he : t.entered = true) (c : BitVec 8) :
    exec (.trap c) s = .next (takeTrap s s.core t ⟨cTrap, 0, none, c⟩) := by
  simp [exec, execTrap, attempt_acts ⟨hs, he⟩ _ _ _ namesOk_nil, settle]

theorem execBrk_eq (he : t.entered = true) (c : BitVec 8) :
    exec (.brk c) s = .next (takeTrap s s.core t ⟨cBreak, 0, none, c⟩) := by
  simp [exec, execBrk, attempt_acts ⟨hs, he⟩ _ _ _ namesOk_nil, settle]

end Trap

theorem cTrap_lt : cTrap < 256 := by decide
theorem cBreak_lt : cBreak < 256 := by decide

/-- Settles O21: each of the three is a trap taken; `trapPc` tells their saved PCs apart. -/
theorem trapInstructions : Obligations.TrapInstructions := by
  unfold Obligations.TrapInstructions
  intro s t c w hs
  have cause (e : Exn) (hc : e.cause < 256) : bits (recordOf s srcInstr e 0).1.cause.toNat 7 0 = e.cause := by
    rw [recordOf_cause, ecauseOf_cause hc]
  have code (e : Exn) (hc : e.cause < 256) (h0 : e.sub = 0) :
      bits (recordOf s srcInstr e 0).1.cause.toNat 31 24 = e.code.toNat := by
    rw [recordOf_cause]
    exact ecauseOf_code hc h0
  refine ⟨fun he => ⟨execTrap_eq hs he c, execBrk_eq hs he c, cause ⟨cTrap, 0, none, c⟩ cTrap_lt,
    code ⟨cTrap, 0, none, c⟩ cTrap_lt rfl, cause ⟨cBreak, 0, none, c⟩ cBreak_lt,
    code ⟨cBreak, 0, none, c⟩ cBreak_lt rfl⟩, fun he hsv hv => ⟨?_, ?_⟩, ?_⟩
  · rw [execTrap_eq hs he c]
    obtain ⟨u, v, hu, hv, hepc, hpc, hc⟩ := takeTrap_enters hs hsv hv ⟨cTrap, 0, none, c⟩
    refine ⟨u, v, hu, hv, hepc, hpc, ?_, ?_⟩ <;> rw [hc]
    · exact ecauseOf_cause cTrap_lt
    · exact ecauseOf_code cTrap_lt rfl
  · rw [execBrk_eq hs he c]
    obtain ⟨u, v, hu, hv, hepc, hpc, hc⟩ := takeTrap_enters hs hsv hv ⟨cBreak, 0, none, c⟩
    refine ⟨u, v, hu, hv, hepc, hpc, ?_, ?_⟩ <;> rw [hc]
    · exact ecauseOf_cause cBreak_lt
    · exact ecauseOf_code cBreak_lt rfl
  · simp [exec, execIllegalInstruction, attempt, hs, namesOk, trapWith, settle, takeTrap, trapPc, cIllegal, cTrap]

/-! ## Returning from a fault (17/R393, R394) -/

/-- What `eret` is once its tests have passed. -/
theorem returnFault_leaves {s : State} {t : Thread} {c : SavedCtx} (hc : t.saved = some c) (hd : t.depth = 1)
    (hp : prodInto t (framePositions t 0 t.fsize) = false) : returnFault s s.core t =
      match leaveFault s s.core t c with
      | .error e => .error (.trap e none)
      | .ok (z, u) => .ok (match t.estream with
        | some x => respill (z.setThread s.core u) t.ref x
        | none => z.setThread s.core u) := by
  simp only [returnFault, hc, hd, hp]
  simp only [ne_eq, not_true_eq_false, if_false, Bool.false_eq_true] <;> rfl

theorem execEret_leaves {s z : State} {t u : Thread} {c : SavedCtx} (ha : Acts s t) (hc : t.saved = some c)
    (hd : t.depth = 1) (hp : prodInto t (framePositions t 0 t.fsize) = false) (h : leaveFault s s.core t c = .ok (z, u)) :
    exec .eret s = match t.estream with
      | some x => .next (respill (z.setThread s.core u) t.ref x)
      | none => .next (z.setThread s.core u) := by
  show execEret s = _
  rw [execEret, attempt_acts ha _ _ _ namesOk_nil, returnFault_leaves hc hd hp, h]
  cases t.estream <;> rfl

theorem execEret_traps {s : State} {t : Thread} (ha : Acts s t) {e : Exn}
    (h : returnFault s s.core t = .error (.trap e none)) : exec .eret s = traps s t e := by
  show execEret s = _
  rw [execEret, attempt_acts ha _ _ _ namesOk_nil, h]
  rfl

/-- A resident interrupted frame is current again. -/
theorem leaveFault_resident (s : State) (t : Thread) (c : SavedCtx) (hr : 2 ≤ t.nres) :
    leaveFault s s.core t c = .ok (s, { t with
      saved := none, estream := none, base := c.base, fsize := c.fsize, entered := c.entered, depth := c.depth
      loops := c.loops, priv := c.priv, ret := c.ret, callers := t.callers.drop 1, nres := t.nres - 1, pc := t.epc
      running := c.depth ≠ 0, relabel := t.relabel.map fun l => if t.epc = c.pc then l else t.epc }) := by
  unfold leaveFault
  cases t.callers with
  | nil => rfl
  | cons f r => simp [hr]

/-- Settles O22: `eret` by `leaveFault`, and delivery to a thread that cannot take the fault. -/
theorem faultReturn : Obligations.FaultReturn := by
  unfold Obligations.FaultReturn
  refine ⟨fun s t c ha => ⟨fun hn => ?notInFault, fun hc hd => ?inCall, fun hc hd hr hp => ?resident, fun hc hd hp =>
    ⟨fun z u h => ?leaves, fun e h => ?faults⟩⟩, fun s key t f epc hs hk => ?killed⟩
  case notInFault => exact execEret_traps ha (by simp [returnFault, hn, trapWith])
  case inCall => exact execEret_traps ha (by simp [returnFault, hc, hd, trapWith])
  case resident =>
    exact ⟨_, execEret_leaves ha hc hd hp (leaveFault_resident s t c hr), rfl, rfl, rfl, rfl, rfl, rfl, rfl, rfl, rfl, rfl,
      rfl, rfl, rfl, rfl⟩
  case leaves => exact execEret_leaves ha hc hd hp h
  case faults => exact execEret_traps ha (by rw [returnFault_leaves hc hd hp, h])
  case killed =>
    refine ⟨_, rfl, ?_, ?_, ?_⟩
    all_goals simp only [deliver, hs, if_pos hk, killFaulted]
    · rfl
    · exact tabGet_tabPut_self ..

theorem admitWaiting_core (s : State) (r : ThreadRef) : (admitWaiting s r).core = s.core := by
  unfold admitWaiting
  split
  · rfl
  · next w _ =>
    obtain ⟨_, _, _, hcore, _⟩ := updByRef_within { s with waiting := s.waiting.erase w } r
      fun t => { t with fq := t.fq ++ [w.fault] }
    exact hcore

/-- Settles O23: the three branches of a boundary's delivery. -/
theorem boundaryFaults : Obligations.BoundaryFaults := by
  unfold Obligations.BoundaryFaults
  intro s t f r hs hsv
  have outside : ¬ t.saved.isSome = true := by simp [hsv]
  refine ⟨fun hl => ?_, fun hl hq => ?_, fun hl hq => ?_⟩ <;>
    simp only [exec, execFaultDelivery, hs, if_neg outside]
  · rw [hl]
  · rw [hl, hq]
    simp only [admitWaiting_core, State.setThread_core]
  · rw [hl, hq]

end Sys2Proof.Proofs.Faults
end


section
/-! PROOFS. Special registers: the packed views and their fields (08 Tables 8.4, 8.6, 15 Table 15.9). -/

namespace Sys2Proof.Proofs.Special

open Sys2Proof Sys2Proof.Machine Sys2Proof.Proofs.Running

/-! ## Bits of a value -/

@[simp] theorem b2n_true : b2n true = 1 := rfl
@[simp] theorem b2n_false : b2n false = 0 := rfl

theorem b2n_le_one (b : Bool) : b2n b ≤ 1 := by cases b <;> decide

theorem bit_eq_testBit (v i : Nat) : bit v i = v.testBit i := by
  rw [bit, Nat.testBit_eq_decide_div_mod_eq]

theorem bits_eq_zero_of_lt {v hi lo : Nat} (h : v < 2 ^ lo) : bits v hi lo = 0 := by
  simp [bits, Nat.div_eq_of_lt h]

/-- A value made by adding 2^c for each place c below n that p names. -/
theorem foldl_bits (p : Nat → Bool) {f : Nat → Nat → Nat} (hf : ∀ m c, f m c = m + b2n (p c) * 2 ^ c) (n : Nat) :
    (List.range n).foldl f 0 < 2 ^ n ∧ ∀ c < n, ((List.range n).foldl f 0).testBit c = p c := by
  induction n with
  | zero => simp
  | succ n ih =>
    obtain ⟨hlt, hbit⟩ := ih
    rw [List.range_succ, List.foldl_append, List.foldl_cons, List.foldl_nil, hf]
    refine ⟨?_, fun c hc => ?_⟩
    · have := Nat.mul_le_mul_right (2 ^ n) (b2n_le_one (p n))
      rw [Nat.pow_succ]
      omega
    · rw [Nat.add_comm, Nat.mul_comm, Nat.testBit_two_pow_mul_add _ hlt]
      by_cases h : c < n
      · rw [if_pos h, hbit c h]
      · rw [if_neg h, show c = n by omega, Nat.sub_self]
        cases p n <;> rfl

/-! ## The packed views -/

section Views

variable (t : Thread)

theorem resid_le : resid t ≤ 511 := by
  unfold resid
  split
  · omega
  · exact Nat.min_le_left ..

/-- 08 Table 8.6. -/
theorem wstat_fields (hb : t.base < 512) (hs : t.fsize ≤ 32) : bits (wstat t).toNat 5 0 = t.fsize ∧
    bits (wstat t).toNat 15 6 = 0 ∧ bits (wstat t).toNat 31 16 = t.depth % 65536 ∧ bits (wstat t).toNat 40 32 = t.base ∧
    bits (wstat t).toNat 49 41 = resid t ∧ bits (wstat t).toNat 63 50 = 0 := by
  have hr := resid_le t
  simp only [wstat, bits, BitVec.toNat_ofNat]
  generalize resid t = r at hr
  generalize t.depth = d
  omega

/-- The frame's loops as bits. -/
theorem lstat_fields (hl : t.loops.length ≤ 4) : bits (lstat t).toNat 2 0 = t.loops.length ∧ bits (lstat t).toNat 63 7 = 0 ∧
    ∀ k < 4, bit (lstat t).toNat (3 + k) = (t.loops[k]?).any (loopActive t) := by
  obtain ⟨hlt, hbit⟩ := foldl_bits (fun k => (t.loops[k]?).any (loopActive t))
    (f := fun n k => match t.loops[k]? with
      | some e => if loopActive t e then n + 2 ^ k else n
      | none => n) (fun m c => by
        cases t.loops[c]? with
        | none => simp
        | some e => cases h : loopActive t e <;> simp [h]) 4
  simp only [lstat]
  generalize (List.range 4).foldl _ 0 = act at hlt hbit ⊢
  simp only [BitVec.toNat_ofNat]
  refine ⟨?_, ?_, fun k hk => ?_⟩
  · simp only [bits]; omega
  · simp only [bits]; omega
  · rw [← hbit k hk, bit_eq_testBit, show (t.loops.length + 8 * act) % 2 ^ 64 = 2 ^ 3 * act + t.loops.length by omega,
      Nat.testBit_two_pow_mul_add _ (by omega), if_neg (by omega), Nat.add_sub_cancel_left]

theorem lrem_none {k : Nat} (h : t.loops[k]? = none) : lrem t k = 0 ∧ lstart t k = 0 := by
  simp [lrem, lstart, h]

theorem lrem_fields {k : Nat} {e : LoopEntry} (h : t.loops[k]? = some e) : bits (lrem t k).toNat 23 0 = e.rem.toNat ∧
    bits (lrem t k).toNat 31 24 = e.e.toNat ∧ bits (lrem t k).toNat 63 32 = 0 ∧ lstart t k = e.start := by
  have hr : e.rem.toNat < 2 ^ 24 := e.rem.isLt
  have he : e.e.toNat < 2 ^ 8 := e.e.isLt
  have value : (lrem t k).toNat = e.e.toNat * 2 ^ 24 + e.rem.toNat := by
    simp only [lrem, h, BitVec.toNat_or, BitVec.toNat_shiftLeft, BitVec.toNat_setWidth]
    rw [Nat.mod_eq_of_lt (show e.rem.toNat < 2 ^ 64 by omega), Nat.mod_eq_of_lt (show e.e.toNat < 2 ^ 64 by omega),
      Nat.mod_eq_of_lt (by rw [Nat.shiftLeft_eq]; omega), Nat.lor_comm, ← Nat.shiftLeft_add_eq_or_of_lt hr,
      Nat.shiftLeft_eq]
  rw [value]
  refine ⟨?_, ?_, ?_, by simp [lstart, h]⟩ <;> simp only [bits] <;> omega

theorem chrun_fields (hc : t.chrun < 16) : bits (chrunWord t).toNat 3 0 = t.chrun ∧ bit (chrunWord t).toNat 4 = t.priv ∧
    bits (chrunWord t).toNat 63 5 = 0 := by
  have hp := b2n_le_one t.priv
  simp only [chrunWord, bits, bit, BitVec.toNat_ofNat]
  refine ⟨by omega, ?_, by omega⟩
  cases t.priv <;> simp <;> omega

theorem chpend_fields : bits (chpend t).toNat 63 16 = 0 ∧
    ∀ c < 16, bit (chpend t).toNat c = (!(channel t c).box.isEmpty) := by
  obtain ⟨hlt, hbit⟩ := foldl_bits (fun c => !(channel t c).box.isEmpty)
    (f := fun n c => if (channel t c).box.isEmpty then n else n + 2 ^ c) (fun m c => by
      cases h : (channel t c).box.isEmpty <;> simp) 16
  simp only [chpend]
  generalize (List.range 16).foldl _ 0 = v at hlt hbit ⊢
  rw [BitVec.toNat_ofNat, Nat.mod_eq_of_lt (by omega)]
  exact ⟨bits_eq_zero_of_lt hlt, fun c hc => by rw [bit_eq_testBit, hbit c hc]⟩

end Views

/-! ## Reading and writing (08/R194) -/

theorem readSpecial_core (s : State) (t : Thread) : readSpecial s s.core t 0x02 = some (BitVec.ofNat 64 s.core) := by
  have split : keyCluster s.core * 64 + keyCore s.core = s.core := by
    simp only [keyCluster, keyCore]
    omega
  simp only [readSpecial, split]

theorem readSpecial_reserved (s : State) (key : Nat) (t : Thread) {r : Nat} (h : 0x33 ≤ r) : readSpecial s key t r = none := by
  unfold readSpecial
  split
  case h_32 => rfl
  all_goals omega

theorem writeRight_never : ∀ r : BitVec 8,
    r ∉ ([0x00, 0x09, 0x0B, 0x0C, 0x0D, 0x2B, 0x2C, 0x30] : List (BitVec 8)) → writeRight r.toNat = .never := by
  decide

section Instructions

variable {s : State} {t : Thread} {a : Src} {x : Word}

theorem execSrd_ends (ha : Acts s t) {d : Reg} (hd : Ready t d) {r : BitVec 8} {v : Word}
    (hv : readSpecial s s.core t r.toNat = some v) : exec (.srd d r) s = ends s t (writeR t d v) := by
  show execSrd d r s = _
  exact issueOwn_acts ha _ _ (namesOk_one (regLoc_of_ready hd)) (by simp [hv, writeDest_ready hd])

theorem execSrd_traps (ha : Acts s t) {d : Reg} (hd : Ready t d) {r : BitVec 8}
    (hv : readSpecial s s.core t r.toNat = none) : exec (.srd d r) s = traps s t ⟨cIllegal, 0, none, 0⟩ := by
  show execSrd d r s = _
  exact issueOwn_traps ha _ _ _ (namesOk_one (regLoc_of_ready hd)) (by simp [hv, trapWith])

/-- What the body of `swr` gives, for each right. -/
theorem execSwr_any (ha : Acts s t) (hx : Reads t a x) {r : BitVec 8} (hr : writeRight r.toNat = .any) :
    exec (.swr a r) s = ends s t (writeSpecial t r.toNat x) := by
  show execSwr a r s = _
  exact issueOwn_acts ha _ _ (namesOk_one (regLoc_of_reads hx)) (by simp [hx.readSrc_eq, hr])

theorem execSwr_privileged (ha : Acts s t) (hx : Reads t a x) {r : BitVec 8} (hr : writeRight r.toNat = .privileged) :
    exec (.swr a r) s = if t.priv then ends s t (writeSpecial t r.toNat x) else traps s t ⟨cPriv, 0, none, 0⟩ := by
  have hn := namesOk_one (regLoc_of_reads hx)
  show execSwr a r s = _
  split
  · next hp => exact issueOwn_acts ha _ _ hn (by simp [hx.readSrc_eq, hr, hp])
  · next hp => exact issueOwn_traps ha _ _ _ hn (by simp [hx.readSrc_eq, hr, hp, trapWith])

theorem execSwr_faultMode (ha : Acts s t) (hx : Reads t a x) {r : BitVec 8} (hr : writeRight r.toNat = .faultMode) :
    exec (.swr a r) s =
      if t.saved.isSome then ends s t (writeSpecial t r.toNat x) else traps s t ⟨cIllegal, 0, none, 0⟩ := by
  have hn := namesOk_one (regLoc_of_reads hx)
  show execSwr a r s = _
  split
  · next hp => exact issueOwn_acts ha _ _ hn (by simp [hx.readSrc_eq, hr, hp])
  · next hp => exact issueOwn_traps ha _ _ _ hn (by simp [hx.readSrc_eq, hr, hp, trapWith])

theorem execSwr_never (ha : Acts s t) (hx : Reads t a x) {r : BitVec 8} (hr : writeRight r.toNat = .never) :
    exec (.swr a r) s = traps s t ⟨cIllegal, 0, none, 0⟩ := by
  show execSwr a r s = _
  exact issueOwn_traps ha _ _ _ (namesOk_one (regLoc_of_reads hx)) (by simp [hx.readSrc_eq, hr, trapWith])

end Instructions

/-- Settles O24: the packed views field by field, and `swr` by the right that a number asks for. -/
theorem specialRegisters : Obligations.SpecialRegisters := by
  unfold Obligations.SpecialRegisters
  refine fun s t d a r v x ha hd hx => ⟨execSrd_ends ha hd, execSrd_traps ha hd, readSpecial_reserved s s.core t,
    ⟨rfl, rfl, readSpecial_core s t, rfl, rfl, rfl, congrArg some (congrArg _ (Nat.mul_comm ..)), rfl, rfl, rfl, rfl,
      fun hb hz => ⟨_, rfl, wstat_fields t hb hz⟩, fun hl => ⟨_, rfl, lstat_fields t hl⟩, fun k hk => ?loop,
      fun hc => ⟨_, rfl, chrun_fields t hc⟩, ⟨_, rfl, chpend_fields t⟩, rfl, rfl, rfl, rfl, rfl, rfl, rfl, ?mode⟩,
    execSwr_any ha hx rfl, execSwr_any ha hx rfl, ?privileged, ?faultMode, fun hr => execSwr_never ha hx (writeRight_never r hr)⟩
  case loop =>
    have level : readSpecial s s.core t (0x21 + k) = some (lrem t k) ∧
        readSpecial s s.core t (0x25 + k) = some (lstart t k) := by
      match k, hk with
      | 0, _ | 1, _ | 2, _ | 3, _ => exact ⟨rfl, rfl⟩
    refine ⟨_, level.1, fun e he => ?_, fun hn => ?_⟩
    · obtain ⟨hrem, hend, hzero, hstart⟩ := lrem_fields t he
      exact ⟨hrem, hend, hzero, hstart ▸ level.2⟩
    · obtain ⟨hrem, hstart⟩ := lrem_none t hn
      exact ⟨hrem, hstart ▸ level.2⟩
  case mode => cases h : t.saved <;> simp [readSpecial, h]
  case privileged =>
    simp only [List.forall_mem_cons]
    exact ⟨execSwr_privileged ha hx rfl, execSwr_privileged ha hx rfl, execSwr_privileged ha hx rfl,
      execSwr_privileged ha hx rfl, List.forall_mem_nil _⟩
  case faultMode =>
    simp only [List.forall_mem_cons]
    exact ⟨execSwr_faultMode ha hx rfl, execSwr_faultMode ha hx rfl, List.forall_mem_nil _⟩

end Sys2Proof.Proofs.Special
end


section
/-! PROOFS. Chapter 15: channels, message queues and barriers. -/

namespace Sys2Proof.Proofs.Channels

open Sys2Proof Sys2Proof.Machine Sys2Proof.Proofs.Running Sys2Proof.Proofs.RegisterFile Sys2Proof.Proofs.Registers
open Sys2Proof.Proofs.Control Sys2Proof.Proofs.Faults

/-! ## Threads -/

theorem updThread_eq {s : State} {k : Nat} {t : Thread} (h : s.threadAt k = some t) (f : Thread → Thread) :
    s.updThread k f = s.setThread k (f t) := by
  simp [State.updThread, h]

theorem complete_eq {s : State} {k : Nat} {t : Thread} (h : s.threadAt k = some t) (x : Word) :
    complete s k x = s.setThread k (Machine.endTest t x) := updThread_eq h _

@[simp] theorem writeP_asid (t : Thread) (p : BitVec 3) (b : Bool) : (writeP t p b).asid = t.asid := by
  simp only [writeP]; split <;> rfl
@[simp] theorem writeP_chans (t : Thread) (p : BitVec 3) (b : Bool) : (writeP t p b).chans = t.chans := by
  simp only [writeP]; split <;> rfl
@[simp] theorem channel_writeP (t : Thread) (p : BitVec 3) (b : Bool) (c : Nat) : channel (writeP t p b) c = channel t c := by
  simp [channel]

/-! ## Binding, raising and yielding (15/R353, R354) -/

section Bind

variable {s : State} {t u : Thread} {d : Reg} {a : Src} {p : BitVec 3} {x w : Word}

theorem names_of (hx : Reads t a x) (hw : Holds t d w) : namesOk t [d, a.reg] = .ok () :=
  namesOk_two (regLoc_of_holds hw) (regLoc_of_reads hx)

theorem execChanBind_ends (ha : Acts s t) (hx : Reads t a x) (hw : Holds t d w) (h9 : bits w.toNat 63 9 = 0)
    (h4 : x.toNat % 4 = 0) (hp : bit w.toNat 8 = true → t.priv = true)
    (he : bit w.toNat 7 = true ∨ (channel t (bits w.toNat 3 0)).box = []) :
    exec (.chanBind d a p) s = ends s t (writeP (updChannel t (bits w.toNat 3 0) fun ch => { ch with
      pri := BitVec.ofNat 3 (bits w.toNat 6 4), en := bit w.toNat 7, priv := bit w.toNat 8, entry := x }) p true) := by
  have privileged : ¬ (bit w.toNat 8 = true ∧ (!t.priv) = true) := by simpa using hp
  have empty : ¬ ((!bit w.toNat 7) = true ∧ (!(channel t (bits w.toNat 3 0)).box.isEmpty) = true) := by
    rcases he with h | h <;> simp [h]
  show execChanBind d a p s = _
  exact issueOwn_acts ha _ _ (names_of hx hw) (by
    simp only [hx.readSrc_eq, hw.readField_eq, ok_bind, h9, h4, if_neg privileged, if_neg empty]
    rfl)

theorem execChanBind_traps (ha : Acts s t) (hx : Reads t a x) (hw : Holds t d w) (h9 : bits w.toNat 63 9 = 0)
    (h4 : x.toNat % 4 = 0) (h8 : bit w.toNat 8 = true) (hp : t.priv = false) :
    exec (.chanBind d a p) s = traps s t ⟨cPriv, 0, none, 0⟩ := by
  show execChanBind d a p s = _
  exact issueOwn_traps ha _ _ _ (names_of hx hw) (by simp [hx.readSrc_eq, hw.readField_eq, h9, h4, h8, hp, trapWith])

/-- The thread that a binding word names (15/R353). -/
def raiseTarget (s : State) (w : Word) : Nat :=
  if bits w.toNat 9 4 = 63 then s.core else 64 * keyCluster s.core + bits w.toNat 9 4

/-- The body of `chan.raise` once its operand test has passed. -/
theorem execChanRaise_eq (ha : Acts s t) (hx : Reads t a x) (hw : Holds t d w) (h10 : bits w.toNat 63 10 = 0)
    (hc : bits w.toNat 9 4 < 48 ∨ bits w.toNat 9 4 = 63) : exec (.chanRaise d a p) s = endsIn s t
      (match s.threadAt (raiseTarget s w) with
      | none => s.setThread s.core (writeP t p false)
      | some u =>
        if canRaise u t.asid (bits w.toNat 3 0) then
          (s.setThread s.core (writeP t p true)).updThread (raiseTarget s w) fun u =>
            updChannel u (bits w.toNat 3 0) fun ch => { ch with box := ch.box ++ [x] }
        else s.setThread s.core (writeP t p false)) := by
  have inRange : ¬ (bits w.toNat 63 10 ≠ 0 ∨ 48 ≤ bits w.toNat 9 4 ∧ bits w.toNat 9 4 ≤ 62) := by omega
  show execChanRaise d a p s = _
  refine issue_acts ha _ _ (names_of hx hw) ?_
  simp only [hx.readSrc_eq, hw.readField_eq, ok_bind, if_neg inRange, pure_eq_ok, raiseTarget]
  cases s.threadAt (if bits w.toNat 9 4 = 63 then s.core else 64 * keyCluster s.core + bits w.toNat 9 4) with
  | none => rfl
  | some v => dsimp only; split <;> rfl

end Bind

/-! ## Entering a channel (15/R355) -/

section Enter

variable (t : Thread) (c : Nat)

theorem mem_range_eight {i : Nat} (hi : i < 8) : i ∈ List.range 8 := by simpa using hi

/-- The registers of the frame that a handler starts in. -/
theorem cellAt_enterChannel {i : Nat} (hi : i < 8) : cellAt (enterChannel t c) (.file i) =
    ⟨if i = 0 then (channel t c).box.headD 0 else if i = 1 then BitVec.ofNat 64 c else 0, .full⟩ := by
  have ne {i j : Nat} (h : i ≠ j) : RegLoc.file i ≠ .file j := fun e => h (RegLoc.file.inj e)
  simp only [enterChannel]
  match i, hi with
  | 0, _ => rw [cellAt_setCell_ne _ _ (ne (by decide)), cellAt_setCell_self]; rfl
  | 1, _ => rw [cellAt_setCell_self]; rfl
  | i + 2, hi =>
    rw [cellAt_setCell_ne _ _ (ne (by omega)), cellAt_setCell_ne _ _ (ne (by omega)), cellAt_zeroFile,
      if_pos (mem_range_eight hi), if_neg (by omega), if_neg (by omega)]

/-- The thread that enters a channel, its file apart. -/
def atChannel : Thread := { t with
    chans := tabPut t.chans c { channel t c with box := (channel t c).box.drop 1 }
    base := 0, depth := 1, fsize := 0, entered := false, ret := 0, callers := [], nres := 1, loops := []
    lastPri := tabPut t.lastPri (channel t c).pri.toNat c
    chrun := c, priv := (channel t c).priv, running := true, pc := t.relabel.getD (channel t c).entry, relabel := none }

theorem enterChannel_eq : ∃ w b, enterChannel t c = { atChannel t c with win := w, bad := b } :=
  fileOnly (fileOnly ⟨_, _, zeroFile_eq (atChannel t c) _⟩ _ _) _ _

end Enter

/-- Settles O25: the bodies of the three instructions, and the branches of the channel choice. -/
theorem channelInstructions : Obligations.ChannelInstructions := by
  unfold Obligations.ChannelInstructions
  refine ⟨fun s t u d a p x w ha hx hw => ⟨fun h9 h4 h8 he => execChanBind_ends ha hx hw h9 h4 h8 he, fun h9 h4 h8 hp =>
    execChanBind_traps ha hx hw h9 h4 h8 hp, fun h10 hc hne hu has hen hbox => ?other, fun h10 hc hen hbox => ?own,
    fun h10 hc hno => ?none, fun hsv hp => ?yields, fun hsv => ?handler⟩,
    fun s t c m r hs hr => ⟨fun hch hbox => ?enters, fun hch hidle => ?idles⟩⟩
  case other =>
    have htarget : raiseTarget s w = 64 * keyCluster s.core + bits w.toNat 9 4 := if_neg (by omega)
    have hcan : canRaise u t.asid (bits w.toNat 3 0) = true := by simp [canRaise, has, hen, hbox]
    have hu' : (s.setThread s.core (writeP t p true)).threadAt (64 * keyCluster s.core + bits w.toNat 9 4) = some u := by
      rw [threadAt_setThread_ne _ _ _ _ hne, hu]
    rw [execChanRaise_eq ha hx hw h10 (.inl hc), htarget, hu]
    simp only [hcan, if_true]
    rw [updThread_eq hu']
    refine ⟨_, rfl, ?_, ?_⟩
    · rw [complete_eq ((threadAt_setThread_ne _ _ _ _ hne.symm).trans (threadAt_setThread ..))]
      exact threadAt_setThread ..
    · rw [complete_eq ((threadAt_setThread_ne _ _ _ _ hne.symm).trans (threadAt_setThread ..)),
        threadAt_setThread_ne _ _ _ _ hne]
      exact threadAt_setThread ..
  case own =>
    have htarget : raiseTarget s w = s.core := if_pos hc
    have hcan : canRaise t t.asid (bits w.toNat 3 0) = true := by simp [canRaise, hen, hbox]
    rw [execChanRaise_eq ha hx hw h10 (.inr hc), htarget, ha.1]
    simp only [hcan, if_true]
    rw [updThread_eq (threadAt_setThread ..), setThread_setThread, endsIn_setThread]
    refine ⟨_, rfl, ?_⟩
    rw [threadAt_setThread]
    simp [updChannel]
  case none =>
    have htarget : raiseTarget s w = 64 * keyCluster s.core + bits w.toNat 9 4 := if_neg (by omega)
    rw [execChanRaise_eq ha hx hw h10 (.inl hc), htarget, ends, ← endsIn_setThread]
    cases hv : s.threadAt (64 * keyCluster s.core + bits w.toNat 9 4) with
    | none => rfl
    | some v => simp [hno v hv]
  case yields =>
    show execChanYield s = _
    refine issueJump_acts ha namesOk_nil ?_
    simp only [yieldThread, hsv, hp, Option.isSome_none, Bool.false_eq_true, if_false]
    rw [← hsv]
    rfl
  case handler =>
    show execChanYield s = _
    exact issueJump_traps ha namesOk_nil (by simp [yieldThread, hsv, trapWith])
  case enters =>
    have hexec : exec .channelEntry s = .next (s.setThread s.core (enterChannel t c)) := by
      simp [exec, execChannelEntry, hs, hr, channelChoice, hch]
    have cell {i : Nat} (hi : i < 8) := cellAt_enterChannel t c hi
    refine ⟨_, hexec, ?_, ?_, ?_, ?_, ?_, ?_, ?_, ?_, ?_, ?message, ?number, ?zeros, ?_, ?_⟩
    case message => simpa [hbox] using cell (i := 0) (by decide)
    case number => simpa using cell (i := 1) (by decide)
    case zeros =>
      intro i h2 h8
      simpa [show i ≠ 0 by omega, show i ≠ 1 by omega] using cell h8
    all_goals
      obtain ⟨w, b, hu⟩ := enterChannel_eq t c
      rw [hu]
    · show (tabGet (tabPut t.chans c _) c _).box = r
      rw [tabGet_tabPut_self]
      simp [hbox]
    all_goals rfl
  case idles =>
    have stays : ¬ (((List.range 16).all fun c => !(channel t c).en) = true ∧ outst t = 0 ∧ t.rels.isEmpty = true) := by
      rintro ⟨hall, ho, -⟩
      rcases hidle with ⟨k, hk, hen⟩ | h
      · have := List.all_eq_true.1 hall k (by simpa using hk)
        simp [hen] at this
      · exact h ho
    simp only [exec, execChannelEntry, hs, hr, channelChoice, hch, if_neg stays, Bool.false_eq_true, if_false]

/-! ## Message queues (15/R360) -/

/-! ## Message queues and barriers (15/R360-R362) -/

section Queue

variable {s z z1 z2 z3 : State} {t : Thread} {d : Reg} {a : Src} {h : BitVec 4} {va pa hd spa w : Nat} {v : Word}

/-- Any two operands of which the first is usable as a destination have names. -/
theorem namesReady {x : Word} (hx : Reads t a x) (hd : Ready t d) : namesOk t [d, a.reg] = .ok () :=
  namesOk_two (regLoc_of_ready hd) (regLoc_of_reads hx)

theorem execQput_full (p : BitVec 3) (ha : Acts s t) (hx : ∃ x, Reads t a x) (hv : Holds t d v)
    (ho : queueOpen s s.core t a h = .ok (va, pa, hd, z))
    (hfull : sub32 (bits hd 31 0) (bits hd 63 32) = 2 ^ bits hd 67 64) :
    exec (.qput d a h p) s = endsWith s t z (writeP t p false) := by
  obtain ⟨x, hx⟩ := hx
  show execQput d a h p s = _
  refine issue_acts_own ha _ _ (names_of hx hv) ?_
  rw [hv.readField_eq, ho, ok_bind, ok_bind]
  dsimp only
  rw [if_pos hfull, pure_eq_ok]

theorem execQput_room (p : BitVec 3) (ha : Acts s t) (hx : ∃ x, Reads t a x) (hv : Holds t d v)
    (ho : queueOpen s s.core t a h = .ok (va, pa, hd, z))
    (hroom : sub32 (bits hd 31 0) (bits hd 63 32) ≠ 2 ^ bits hd 67 64)
    (hp : queuePa z s.core t (va + 64 + 8 * (bits hd 31 0 % 2 ^ bits hd 67 64)) = .ok (spa, z1))
    (hw : queueWrite z1 (threadAgent s.core t) spa 8 v.toNat (va + 64 + 8 * (bits hd 31 0 % 2 ^ bits hd 67 64)) = .ok z2)
    (hc : queueWrite z2 (threadAgent s.core t) pa 4 (bits hd 31 0 + 1) va = .ok z3) :
    exec (.qput d a h p) s = endsWith s t z3 (writeP t p true) := by
  obtain ⟨x, hx⟩ := hx
  show execQput d a h p s = _
  refine issue_acts_own ha _ _ (names_of hx hv) ?_
  rw [hv.readField_eq, ho, ok_bind, ok_bind]
  dsimp only
  rw [if_neg hroom, hp, ok_bind]
  dsimp only
  rw [hw, ok_bind, hc, ok_bind, pure_eq_ok]

theorem execQget_empty (p : BitVec 3) (ha : Acts s t) (hx : ∃ x, Reads t a x) (hr : Ready t d)
    (ho : queueOpen s s.core t a h = .ok (va, pa, hd, z)) (hempty : bits hd 31 0 = bits hd 63 32) :
    exec (.qget d a h p) s = endsWith s t z (writeP t p false) := by
  obtain ⟨x, hx⟩ := hx
  show execQget d a h p s = _
  exact issue_acts_own ha _ _ (namesReady hx hr) (by simp [hr.destReady_eq, ho, hempty])

theorem execQget_filled (p : BitVec 3) (ha : Acts s t) (hx : ∃ x, Reads t a x) (hr : Ready t d)
    (ho : queueOpen s s.core t a h = .ok (va, pa, hd, z)) (hfilled : bits hd 31 0 ≠ bits hd 63 32)
    (hp : queuePa z s.core t (va + 64 + 8 * (bits hd 63 32 % 2 ^ bits hd 67 64)) = .ok (spa, z1))
    (hw : queueRead z1 (threadAgent s.core t) spa 8 (va + 64 + 8 * (bits hd 63 32 % 2 ^ bits hd 67 64)) = .ok (w, z2))
    (hc : queueWrite z2 (threadAgent s.core t) (pa + 4) 4 (bits hd 63 32 + 1) va = .ok z3) :
    exec (.qget d a h p) s = endsWith s t z3 (writeP (writeR t d (BitVec.ofNat 64 w)) p true) := by
  obtain ⟨x, hx⟩ := hx
  show execQget d a h p s = _
  exact issue_acts_own ha _ _ (namesReady hx hr) (by
    simp only [hr.destReady_eq, ho, ok_bind, if_neg hfilled, hp, hw, hc, pure_eq_ok])

end Queue

section Barrier

variable {s : State} {t : Thread} {d : Reg} {a : Src} {x : Word}

/-- An arrival that agrees with the phase in progress counts, and the last completes the phase (15/R362). -/
theorem arriveAt_agrees {b : Barrier} {nb : Nat} {asid : BitVec 14} (h : 0 < b.arr → nb = b.nb ∧ asid = b.asid) :
    arriveAt b nb asid = if b.arr + 1 = nb then .ok (⟨b.phase + 1, 0, nb, asid⟩, true)
      else .ok (⟨b.phase, b.arr + 1, nb, asid⟩, false) := by
  have count : ¬ (0 < b.arr ∧ nb ≠ b.nb) := fun ⟨h0, hne⟩ => hne (h h0).1
  have space : ¬ (0 < b.arr ∧ asid ≠ b.asid) := fun ⟨h0, hne⟩ => hne (h h0).2
  simp only [arriveAt, if_neg count, if_neg space]

theorem execBarArrive_arrives {r : Barrier × Bool} (p : BitVec 3) (ha : Acts s t) (hx : Reads t a x) (hr : Ready t d)
    (h15 : bits x.toNat 15 8 = 0) (h63 : bits x.toNat 63 32 = 0) (hnb : bits x.toNat 31 16 ≠ 0)
    (harr : arriveAt (s.barrier (keyCluster s.core) (bits x.toNat 7 0)) (bits x.toNat 31 16) t.asid = .ok r) :
    exec (.barArrive d a p) s = endsWith s t
      (s.updCluster (keyCluster s.core) fun y => { y with bars := tabPut y.bars (bits x.toNat 7 0) r.1 })
      (writeP (writeR t d ((s.barrier (keyCluster s.core) (bits x.toNat 7 0)).phase.setWidth 64)) p r.2) := by
  show execBarArrive d a p s = _
  exact issue_acts_own ha _ _ (namesReady hx hr) (by simp [hx.readSrc_eq, h15, h63, hnb, harr, hr])

theorem opBarTest_reads (p : BitVec 3) (f : W32 → Nat → Bool) (ha : Acts s t) (hx : Reads t a x) (hr : Ready t d)
    (h31 : bits x.toNat 31 8 = 0) : opBarTest s d a p f = ends s t
      (writeP (writeR t d ((s.barrier (keyCluster s.core) (bits x.toNat 7 0)).phase.setWidth 64)) p
        (f (s.barrier (keyCluster s.core) (bits x.toNat 7 0)).phase (bits x.toNat 63 32))) :=
  issueOwn_acts ha _ _ (namesReady hx hr) (by simp [hx.readSrc_eq, h31, hr])

end Barrier

/-- Settles O26: the queue's addresses and its header once it is open, and the arrival's two ends. -/
theorem queuesAndBarriers : Obligations.QueuesAndBarriers := by
  unfold Obligations.QueuesAndBarriers
  refine ⟨fun s z z1 z2 z3 t d a h p v va pa hd spa w ha hx ho => ⟨fun hv hf => execQput_full p ha hx hv ho hf,
    fun hv hf h1 h2 h3 => execQput_room p ha hx hv ho hf h1 h2 h3, fun hr hf => execQget_empty p ha hx hr ho hf,
    fun hr hf h1 h2 h3 => execQget_filled p ha hx hr ho hf h1 h2 h3⟩, fun s t d a p x ha hx hr =>
    ⟨fun h15 h63 hnb hag => ?_, fun h31 => ⟨?wait, ?test⟩⟩⟩
  case wait => show execBarWait d a p s = _; exact opBarTest_reads p _ ha hx hr h31
  case test => show execBarTest d a p s = _; exact opBarTest_reads p _ ha hx hr h31
  have harr := arriveAt_agrees hag
  split
  · next hlast =>
    rw [if_pos hlast] at harr
    exact execBarArrive_arrives p ha hx hr h15 h63 hnb harr
  · next hmore =>
    rw [if_neg hmore] at harr
    exact execBarArrive_arrives p ha hx hr h15 h63 hnb harr

end Sys2Proof.Proofs.Channels
end


section
/-! PROOFS. Loads, stores and atomics of control threads (08/R200-R205). -/

namespace Sys2Proof.Proofs.LoadsAndStores

open Sys2Proof Sys2Proof.Machine Sys2Proof.Proofs.Running Sys2Proof.Proofs.RegisterFile Sys2Proof.Proofs.Registers
open Sys2Proof.Proofs.Channels

section Address

variable {s z : State} {t : Thread} {d : Reg} {a : Src} {x v n : Word} {h : BitVec 4} {o : BitVec 8} {size va : Nat}
  {need : BitVec 5}

/-! ## The effective address (08/R200) -/

theorem effAddr_refused {f : Exn} (hx : Reads t a x)
    (hc : checkHandle (readH t h) (x.toInt + o.toInt * size) size need t.asid = .error f) :
    effAddr t a h o size need = .error (.trap f none) := by
  simp [effAddr, hx.readSrc_eq, hc]

theorem effAddr_misaligned (hx : Reads t a x)
    (hc : checkHandle (readH t h) (x.toInt + o.toInt * size) size need t.asid = .ok va) (hm : va % size ≠ 0) :
    effAddr t a h o size need = .error (.trap ⟨cAlign, 0, some (BitVec.ofNat 64 va), 0⟩ none) := by
  simp [effAddr, hx.readSrc_eq, hc, hm, trapWith]

theorem effAddr_aligned (hx : Reads t a x)
    (hc : checkHandle (readH t h) (x.toInt + o.toInt * size) size need t.asid = .ok va) (hm : va % size = 0) :
    effAddr t a h o size need = .ok va := by
  simp [effAddr, hx.readSrc_eq, hc, hm]

theorem slotAddr64_aligned (hx : Reads t a x) (hc : checkHandle (readH t h) x.toInt size need t.asid = .ok va)
    (hm : va % size = 0) : slotAddr64 t a h size need = .ok va := by
  simp [slotAddr64, hx.readSrc_eq, hc, hm]

/-! ## One law for every load, and one for every store -/

variable {tg : Target}

theorem opLoad_traps {f : Exn} {ext : Nat → Word} (ha : Acts s t) (hn : namesOk t [d, a.reg] = .ok ())
    (he : effAddr t a h o size rR = .error (.trap f none)) : opLoad s d a h o size ext = traps s t f :=
  issue_traps ha _ _ _ hn (by simp [he])

theorem opStore_traps {f : Exn} (ha : Acts s t) (hn : namesOk t [d, a.reg] = .ok ())
    (he : effAddr t a h o size rW = .error (.trap f none)) : opStore s d a h o size = traps s t f :=
  issue_traps ha _ _ _ hn (by simp [he])

theorem readAt_eq {ag : Agent} (hp : place s ag va .load = .ok (tg, z)) (k : Nat) :
    readAt s ag va k = accRead z ag tg k (BitVec.ofNat 64 va) := by
  simp [readAt, hp]

theorem writeAt_eq {ag : Agent} (hp : place s ag va .store = .ok (tg, z)) (b : List (Byte × Bool)) (std : Bool) :
    writeAt s ag va b std = accWrite z ag tg b std (BitVec.ofNat 64 va) := by
  simp [writeAt, hp]

/-- A load whose access yields ends as its delivery does (08/R189, R201). -/
theorem opLoad_yields {g : Got} {ext : Nat → Word} (ha : Acts s t) (hx : Reads t a x) (hr : Ready t d)
    (he : effAddr t a h o size rR = .ok va) (hg : readAt s (threadAgent s.core t) va size = .ok g) :
    (g.atCore = true → opLoad s d a h o size ext = endsWith s t g.st (writeR t d (ext (leNat g.bytes)))) ∧
    (g.atCore = false → HasRoom t → opLoad s d a h o size ext = endsWith s t g.st
      (produce t [d] [ext (leNat g.bytes)] g.wait g.err (BitVec.ofNat 64 va) d)) := by
  refine ⟨fun hc => ?_, fun hc hroom => ?_⟩
  · exact issue_acts_own ha _ _ (namesReady hx hr) (by simp [he, hg, deliverLoad, hr.destReady_eq, hc])
  · exact issue_acts_own ha _ _ (namesReady hx hr) (by
      simp [he, hg, deliverLoad, hr.destReady_eq, hc, producerSlot_of_room hroom])

theorem opStore_writes {w : Done} (ha : Acts s t) (hx : Reads t a x) (hv : Holds t d v)
    (he : effAddr t a h o size rW = .ok va)
    (hw : writeAt s (threadAgent s.core t) va (allBytes (natLe size v.toNat)) (size = 8) = .ok w) :
    opStore s d a h o size = endsWith s t w.st (lateStore t w.wait w.err w.undo (BitVec.ofNat 64 va)) :=
  issue_acts_own ha _ _ (names_of hx hv) (by simp [he, hv.readField_eq, hw])

/-! ## One law for every atomic (08/R205) -/

theorem amoNames {op : Nat} (hx : Reads t a x) (hv : Holds t d v) (hn : op = 9 → Holds t (regAdd d 1) n) :
    namesOk t (if op = 9 then [d, regAdd d 1, a.reg] else [d, a.reg]) = .ok () := by
  split
  · next h9 => exact namesOk_three (regLoc_of_holds hv) (regLoc_of_holds (hn h9)) (regLoc_of_reads hx)
  · exact names_of hx hv

variable {op : Nat} {p : BitVec 3}

theorem opAmo_lost (ha : Acts s t) (hx : Reads t a x) (hv : Holds t d v) (hn : op = 9 → Holds t (regAdd d 1) n)
    (he : slotAddr64 t a h 8 rRWA = .ok va) (hp : place s (threadAgent s.core t) va .atomic = .ok (tg, z))
    (hl : lostTarget z (threadAgent s.core t) tg = true) : opAmo s d a h p op = endsWith s t z (writeP t p false) := by
  refine issue_acts_own ha _ _ (amoNames hx hv hn) ?_
  by_cases h9 : op = 9
  · simp [he, hv.readField_eq, h9, (hn h9).readField_eq, hp, hl]
  · simp [he, hv.readField_eq, h9, hp, hl]

theorem opAmo_made {g : Got} {f : Nat → Nat} (ha : Acts s t) (hx : Reads t a x) (hv : Holds t d v)
    (hn : op = 9 → Holds t (regAdd d 1) n) (he : slotAddr64 t a h 8 rRWA = .ok va)
    (hp : place s (threadAgent s.core t) va .atomic = .ok (tg, z)) (hl : lostTarget z (threadAgent s.core t) tg = false)
    (hroom : HasRoom t) (hf : ∀ k, (op ≠ 9 → k = 0) → (op = 9 → k = n) →
      (fun m => amoNew op 64 m v.toNat (k : Word).toNat) = f)
    (hg : accAtomic z (threadAgent s.core t) tg 8 op f (BitVec.ofNat 64 va) = .ok g) :
    opAmo s d a h p op = endsWith s t g.st (produce (writeP t p true) [d] [BitVec.ofNat 64 (leNat g.bytes)] g.wait g.err
      (BitVec.ofNat 64 va) d none g.undo true) := by
  refine issue_acts_own ha _ _ (amoNames hx hv hn) ?_
  by_cases h9 : op = 9
  · simp only [he, ok_bind, hv.readField_eq, if_pos h9, (hn h9).readField_eq, hp, hl, producerSlot_of_room hroom,
      hf n (absurd h9) fun _ => rfl, hg, Bool.false_eq_true, if_false, pure_eq_ok]
  · simp only [he, ok_bind, hv.readField_eq, if_neg h9, hp, hl, producerSlot_of_room hroom,
      hf 0 (fun _ => rfl) (absurd · h9), hg, Bool.false_eq_true, if_false, pure_eq_ok]

end Address

/-! ## The obligations -/

/-- Settles O6: the effective address is the first thing that a load or store finds. -/
theorem accessFaults : Obligations.AccessFaults := by
  unfold Obligations.AccessFaults
  intro s t d a x h o ha hx hd
  have hn : namesOk t [d, a.reg] = .ok () := namesOk_two hd (regLoc_of_reads hx)
  have load (size : Nat) (ext : Nat → Word) :
      (∀ f, checkHandle (readH t h) (x.toInt + o.toInt * size) size 1 t.asid = .error f →
        opLoad s d a h o size ext = traps s t f) ∧
      (∀ va, checkHandle (readH t h) (x.toInt + o.toInt * size) size 1 t.asid = .ok va → va % size ≠ 0 →
        opLoad s d a h o size ext = traps s t ⟨cAlign, 0, some (BitVec.ofNat 64 va), 0⟩) :=
    ⟨fun f hc => opLoad_traps ha hn (effAddr_refused hx hc), fun va hc hm => opLoad_traps ha hn (effAddr_misaligned hx hc hm)⟩
  have store (size : Nat) :
      (∀ f, checkHandle (readH t h) (x.toInt + o.toInt * size) size 2 t.asid = .error f →
        opStore s d a h o size = traps s t f) ∧
      (∀ va, checkHandle (readH t h) (x.toInt + o.toInt * size) size 2 t.asid = .ok va → va % size ≠ 0 →
        opStore s d a h o size = traps s t ⟨cAlign, 0, some (BitVec.ofNat 64 va), 0⟩) :=
    ⟨fun f hc => opStore_traps ha hn (effAddr_refused hx hc),
      fun va hc hm => opStore_traps ha hn (effAddr_misaligned hx hc hm)⟩
  simp only [List.forall_mem_cons]
  exact ⟨fun _ => load 1 _, fun _ => load 1 _, fun _ => load 2 _, fun _ => load 2 _, fun _ => load 4 _, fun _ => load 4 _,
    fun _ => load 8 _, fun _ => store 1, fun _ => store 2, fun _ => store 4, fun _ => store 8, by simp⟩

/-- Settles O7: the law of loads at each size and extension. -/
theorem loadResults : Obligations.LoadResults := by
  unfold Obligations.LoadResults
  intro s t d a x h o ha hx hr
  have load (size : Nat) (ext : Nat → Word) (va tg z g)
      (hc : checkHandle (readH t h) (x.toInt + o.toInt * size) size rR t.asid = .ok va) (hm : va % size = 0)
      (hp : place s (threadAgent s.core t) va .load = .ok (tg, z))
      (hg : accRead z (threadAgent s.core t) tg size (BitVec.ofNat 64 va) = .ok g) :=
    opLoad_yields (ext := ext) ha hx hr (effAddr_aligned hx hc hm) ((readAt_eq hp size).trans hg)
  simp only [List.forall_mem_cons]
  exact ⟨load 1 _, load 1 _, load 2 _, load 2 _, load 4 _, load 4 _, load 8 _, by simp⟩

/-- Settles O9: the law of stores at each size. -/
theorem storeResults : Obligations.StoreResults := by
  unfold Obligations.StoreResults
  intro s t r a x v h o ha hx hv
  have store (size : Nat) (va tg z w)
      (hc : checkHandle (readH t h) (x.toInt + o.toInt * size) size rW t.asid = .ok va) (hm : va % size = 0)
      (hp : place s (threadAgent s.core t) va .store = .ok (tg, z))
      (hw : accWrite z (threadAgent s.core t) tg (allBytes (natLe size v.toNat)) (size = 8) (BitVec.ofNat 64 va) = .ok w) :=
    opStore_writes ha hx hv (effAddr_aligned hx hc hm) ((writeAt_eq hp _ _).trans hw)
  simp only [List.forall_mem_cons]
  exact ⟨store 1, store 2, store 4, store 8, by simp⟩

/-- Settles O11: the law of atomics at each operation of Table 8.8. -/
theorem atomicResults : Obligations.AtomicResults := by
  unfold Obligations.AtomicResults
  intro s z t d a x v n h p va tg ha hx hv hc hm hp
  have address := slotAddr64_aligned hx hc hm
  have amo (op : Nat) (f : Nat → Nat) (hf : ∀ k : Word, (op ≠ 9 → k = 0) → (op = 9 → k = n) →
      (fun m => amoNew op 64 m v.toNat k.toNat) = f) (hn : op = 9 → Holds t (regAdd d 1) n) :
      (lostTarget z (threadAgent s.core t) tg = true → opAmo s d a h p op = endsWith s t z (writeP t p false)) ∧
      (∀ g, lostTarget z (threadAgent s.core t) tg = false → HasRoom t →
        accAtomic z (threadAgent s.core t) tg 8 op f (BitVec.ofNat 64 va) = .ok g →
        opAmo s d a h p op = endsWith s t g.st (produce (writeP t p true) [d] [BitVec.ofNat 64 (leNat g.bytes)] g.wait g.err
          (BitVec.ofNat 64 va) d none g.undo true)) :=
    ⟨fun hl => opAmo_lost ha hx hv hn address hp hl, fun g hl hroom hg => opAmo_made ha hx hv hn address hp hl hroom hf hg⟩
  simp only [List.forall_mem_cons]
  refine ⟨amo 0 _ fun _ _ _ => rfl, amo 1 _ fun _ _ _ => rfl, amo 2 _ fun _ _ _ => rfl, amo 3 _ fun _ _ _ => rfl,
    amo 4 _ fun _ _ _ => rfl, amo 5 _ fun _ _ _ => rfl, amo 6 _ fun _ _ _ => rfl, amo 7 _ fun _ _ _ => rfl,
    amo 8 _ fun _ _ _ => rfl, fun hn => amo 9 _ (fun k _ hk => ?_) fun _ => hn trivial, by simp⟩
  rw [hk rfl]
  rfl

/-! ## Prefetches and fences (08/R203, R207) -/

section Fences

variable {s : State} {t : Thread}

theorem prefetch_reaches {h : Handle} {off : Int} {va pa : Nat} (hc : checkHandle h off 1 rR t.asid = .ok va)
    (ht : translate s t.asid va .load = .ok (.dev pa)) : prefetch s t h off = touch (noteWalk s [] t.asid va) pa 1 := by
  simp [prefetch, hc, ht]

/-- What a further fence notes: each wait that there is, and no other. -/
theorem barWith_notes (l : List Barred) (ss : BitVec 4) (ws : List FenceWait) : ∃ m, barWith l ss ws = l ++ m ∧
    (∀ w ∈ ws, (⟨w, ss⟩ : Barred) ∈ l ++ m) ∧ ∀ b ∈ m, b.ss = ss ∧ b.on ∈ ws := by
  refine ⟨_, rfl, fun w hw => ?_, fun b hb => ?_⟩
  · by_cases hl : (⟨w, ss⟩ : Barred) ∈ l
    · exact List.mem_append_left _ hl
    · refine List.mem_append_right _ (List.mem_filter.2 ⟨List.mem_map_of_mem hw, ?_⟩)
      simpa using hl
  · obtain ⟨w, hw, rfl⟩ := List.mem_map.1 (List.mem_filter.1 hb).1
    exact ⟨rfl, hw⟩

/-- With no engine command of the thread outstanding, no release that waits and no write to the host, there is no wait. -/
theorem fenceWaits_none {c : Nat} {f : BitVec 3} {g : BitVec 4}
    (hq : ∀ q ∈ (s.cluster c).queues, q.2.entries = [] ∧ q.2.sched = none)
    (hi : ∀ i ∈ (s.cluster c).islands, i.2.order = []) (hp : ∀ x ∈ s.podOps, x.owner ≠ t.ref)
    (hk : ∀ c ∈ s.kvCopies, (kvCopyOf s c.2).1 ≠ t.ref) (hh : ∀ p ∈ t.prods, p.wait ≠ some .host) (hr : t.rels = []) :
    fenceWaits s c t f g = [] := by
  have host : releaseWaits t f g = false := by
    have : hostWrites t = false := by
      simp only [hostWrites, List.any_eq_false, Bool.and_eq_true, decide_eq_true_eq, not_and]
      exact fun p hp _ => hh p hp
    simp [releaseWaits, this]
  simp only [fenceWaits, host, hr]
  rw [List.filterMap_eq_nil_iff.2 fun q hm => ?queues, List.filterMap_eq_nil_iff.2 fun i hm => ?islands, List.filterMap_eq_nil_iff.2 fun x hm => ?pods,
    List.filterMap_eq_nil_iff.2 fun x hm => ?copies]
  · rfl
  case queues =>
    obtain ⟨he, hs⟩ := hq q hm
    simp [queueAhead, he, hs, upToLast]
  case islands => simp [hi i hm]
  case pods => simp [hp x hm]
  case copies => simp [hk x hm]

end Fences

/-- Settles O12: what each of the three instructions leaves of its thread. -/
theorem noOtherEffect : Obligations.NoOtherEffect := by
  unfold Obligations.NoOtherEffect
  intro s t a x h o f g ha
  have fence : exec (.fence f g) s = ends s t { t with barred := barWith t.barred g (fenceWaits s (keyCluster s.core) t f g) } := by
    show execFence f g s = _
    exact issueOwn_acts ha _ _ namesOk_nil rfl
  refine ⟨?nop, fun hx => ?pfetch, fun va pa hc ht => prefetch_reaches hc ht, ?notes, fun hq hi hp hk hh hr => ?nothing⟩
  case nop =>
    show execNop s = _
    exact issueOwn_acts ha _ _ namesOk_nil rfl
  case pfetch =>
    show execPfetch a h o s = _
    exact issue_acts ha _ _ (namesOk_one (regLoc_of_reads hx)) (by simp [hx.readSrc_eq])
  case notes =>
    obtain ⟨m, hm, hall, hown⟩ := barWith_notes t.barred g (fenceWaits s (keyCluster s.core) t f g)
    exact ⟨m, by rw [fence, hm]; rfl, hall, hown⟩
  case nothing =>
    rw [fence, fenceWaits_none hq hi hp hk hh hr]
    simp [barWith, ends]

end Sys2Proof.Proofs.LoadsAndStores
end


section
/-! PROOFS. Handle instructions and format windows (04/R87, R95). -/

namespace Sys2Proof.Proofs.Handles

open Sys2Proof Sys2Proof.Machine Sys2Proof.Proofs.Running Sys2Proof.Proofs.RegisterFile Sys2Proof.Proofs.Registers
open Sys2Proof.Proofs.Channels

/-! ## Handle registers -/

@[simp] theorem readH_writeH_self (t : Thread) (d : BitVec 4) (h : Handle) : readH (writeH t d h) d = h :=
  tabGet_tabPut_self _ _ _ _

theorem readH_writeH_ne (t : Thread) {d e : BitVec 4} (h : Handle) (hne : e ≠ d) : readH (writeH t d h) e = readH t e :=
  tabGet_tabPut_ne _ _ _ _ _ fun heq => hne (BitVec.eq_of_toNat_eq heq)

/-! ## Dies -/

@[simp] theorem die_updDie (s : State) (d : Nat) (g : Die → Die) : (s.updDie d g).die d = g (s.die d) := by
  simp [State.updDie, State.die, tabUpd, tabGet_tabPut_self]

theorem die_updDie_ne (s : State) {d j : Nat} (g : Die → Die) (h : j ≠ d) : (s.updDie d g).die j = s.die j := by
  simp [State.updDie, State.die, tabUpd, tabGet_tabPut_ne _ _ _ _ _ h]

/-- No change of the dies' lists of lines touches a window. -/
theorem windows_updDie {s : State} {d : Nat} {g : Die → Die} (hg : ∀ x, (g x).windows = x.windows) (j : Nat) :
    ((s.updDie d g).die j).windows = (s.die j).windows := by
  by_cases h : j = d
  · subst h; rw [die_updDie, hg]
  · rw [die_updDie_ne s g h]

theorem windows_invalidateView (s : State) (d : Nat) (e : BitVec 256) (j : Nat) :
    ((invalidateView s d e).die j).windows = (s.die j).windows := by
  simp only [invalidateView]
  split
  · rfl
  · exact windows_updDie (by intro x; rfl) j

theorem invalidateView_dies (s : State) (d : Nat) (e : BitVec 256) : ∃ l, invalidateView s d e = { s with dies := l } := by
  simp only [invalidateView]
  split
  · exact ⟨s.dies, rfl⟩
  · exact ⟨_, rfl⟩

/-- A window that takes a descriptor changes the dies alone. -/
theorem setWindow_dies (s : State) (d i : Nat) (e : BitVec 256) : ∃ l, setWindow s d i e = { s with dies := l } := by
  obtain ⟨l, hl⟩ := invalidateView_dies s d (tabGet (s.die d).windows i 0)
  obtain ⟨l', hl'⟩ := invalidateView_dies { s with dies := l } d e
  exact ⟨_, by simp only [setWindow, hl, hl']; rfl⟩

theorem windows_setWindow_self (s : State) (d i : Nat) (e : BitVec 256) :
    ((setWindow s d i e).die d).windows = tabPut (s.die d).windows i e := by
  simp [setWindow, windows_invalidateView]

theorem windows_setWindow_ne (s : State) {d j : Nat} (i : Nat) (e : BitVec 256) (h : j ≠ d) :
    ((setWindow s d i e).die j).windows = (s.die j).windows := by
  rw [setWindow, die_updDie_ne _ _ h, windows_invalidateView, windows_invalidateView]

/-! ## The instructions -/

section Instructions

variable {s s' : State} {t : Thread} {d h : BitVec 4} {r : Reg} {a b : Src} {x y w : Word} {m : BitVec 5} {p : BitVec 3}
  {o : BitVec 8} {va : Nat} {l : List Byte}

/-- An instruction of a destination alone, of one word. -/
theorem opD_ends (ha : Acts s t) (hr : Ready t r) (f : Thread → Word) : opD 0 s r f = ends s t (writeR t r (f t)) := by
  exact (opD_acts ha hr f 0).trans (by simp [ends])

theorem execHsub_ends (ha : Acts s t) (hx : Reads t a x) (hy : Reads t b y) (hv : (readH t h).v = true)
    (hs : (readH t h).asid = t.asid) (hr : (readH t h).rights.getLsbD 4 = true)
    (hl : x.toNat + y.toNat ≤ (readH t h).len.toNat) : exec (.hsub d a b h) s = ends s t (writeH t d { readH t h with
      base := (readH t h).base + x.setWidth 56, len := y.setWidth 48 }) := by
  show execHsub d a b h s = _
  exact issueOwn_acts ha _ _ (namesOk_two (regLoc_of_reads hx) (regLoc_of_reads hy)) (by
    simp only [hx.readSrc_eq, hy.readSrc_eq, ok_bind, hv, hs, hr, Nat.not_lt.2 hl, Bool.true_eq_false, ne_eq,
      not_true_eq_false, if_false, pure_eq_ok])

theorem execHrights_valid (ha : Acts s t) (hv : (readH t h).v = true) : exec (.hrights d h m) s =
    ends s t (writeH t d { readH t h with rights := (readH t h).rights &&& m }) := by
  show execHrights d h m s = _
  exact issueOwn_acts ha _ _ namesOk_nil (by simp only [hv, Bool.true_eq_false, if_false])

theorem execHrights_invalid (ha : Acts s t) (hv : (readH t h).v = false) :
    exec (.hrights d h m) s = traps s t ⟨cHandle, 0, none, 0⟩ := by
  show execHrights d h m s = _
  exact issueOwn_traps ha _ _ _ namesOk_nil (by simp [hv, trapWith])

theorem execHcheck_tests (ha : Acts s t) (hx : Reads t a x) (hy : Holds t r y) : exec (.hcheck r a h p m) s =
    ends s t (writeP t p ((readH t h).v && decide ((readH t h).asid = t.asid) && decide ((readH t h).rights &&& m = m) &&
      decide (x.toNat + y.toNat ≤ (readH t h).len.toNat))) := by
  show execHcheck r a h p m s = _
  exact issueOwn_acts ha _ _ (names_of hx hy) (by simp only [hx.readSrc_eq, hy.readField_eq, ok_bind, pure_eq_ok])

theorem execFmtWin_unprivileged (ha : Acts s t) (hx : Reads t a x) (hw : Holds t r w) (hp : t.priv = false) :
    exec (.fmtWin r a h o) s = traps s t ⟨cPriv, 0, none, 0⟩ := by
  show execFmtWin r a h o s = _
  exact issue_traps ha _ _ _ (names_of hx hw) (by simp [hp, trapWith])

/-- The body of `fmt.win` once the descriptor is read. -/
theorem execFmtWin_traps (ha : Acts s t) (hx : Reads t a x) (hw : Holds t r w) (hp : t.priv = true)
    (hc : checkHandle (readH t h) (x.toInt + o.toInt * 32) 32 rR t.asid = .ok va)
    (hr : readIssue s (threadAgent s.core t) va 32 = .ok (l, s')) (h128 : 128 ≤ w.toNat) :
    exec (.fmtWin r a h o) s = traps s t ⟨cFormat, 0, none, 0⟩ := by
  show execFmtWin r a h o s = _
  exact issue_traps ha _ _ _ (names_of hx hw) (by
    simp [hp, hx.readSrc_eq, hw.readField_eq, hc, hr, h128, trapWith])

theorem execFmtWin_sets (ha : Acts s t) (hx : Reads t a x) (hw : Holds t r w) (hp : t.priv = true)
    (hc : checkHandle (readH t h) (x.toInt + o.toInt * 32) 32 rR t.asid = .ok va)
    (hr : readIssue s (threadAgent s.core t) va 32 = .ok (l, s')) (h128 : w.toNat < 128)
    (hd : descriptorBad s (w.toNat / 64) (w.toNat % 64) (BitVec.ofNat 256 (leNat l)) = false ∨
      winEn (BitVec.ofNat 256 (leNat l)) = false) : exec (.fmtWin r a h o) s =
        endsIn s t (setWindow s' (w.toNat / 64) (w.toNat % 64) (BitVec.ofNat 256 (leNat l))) := by
  have accepted : ¬ (winEn (BitVec.ofNat 256 (leNat l)) = true ∧
      descriptorBad s (w.toNat / 64) (w.toNat % 64) (BitVec.ofNat 256 (leNat l)) = true) := by
    rcases hd with hd | hd <;> simp [hd]
  show execFmtWin r a h o s = _
  exact issue_acts ha _ _ (names_of hx hw) (by
    simp only [hp, hx.readSrc_eq, hw.readField_eq, hc, hr, ok_bind, liftE_ok, Nat.not_le.2 h128, if_neg accepted,
      Bool.not_true, Bool.false_eq_true, if_false, pure_eq_ok])

end Instructions

/-- Settles O13: each instruction's body, and what a read of a handle register finds after a write. -/
theorem handleInstructions : Obligations.HandleInstructions := by
  unfold Obligations.HandleInstructions
  intro s t d e h r a b x y m p ha
  refine ⟨fun hx hy hv hs hr hl => execHsub_ends ha hx hy hv hs hr hl, fun hv => execHrights_valid ha hv,
    fun hv => execHrights_invalid ha hv, ?mov, fun hr => ⟨?base, ?len⟩, fun hx hy => execHcheck_tests ha hx hy,
    readH_writeH_self .., fun hne => readH_writeH_ne t _ hne⟩
  case mov =>
    show execHmov d h s = _
    exact issueOwn_acts ha _ _ namesOk_nil rfl
  case base => exact opD_ends ha hr fun t => (readH t h).base.setWidth 64
  case len => exact opD_ends ha hr fun t => (readH t h).len.setWidth 64

/-- Settles O14: privilege, the two ends of a privileged `fmt.win`, and what a window that takes a descriptor changes. -/
theorem formatWindow : Obligations.FormatWindow := by
  unfold Obligations.FormatWindow
  intro s s' t r a x w h o va b ha hx hw
  refine ⟨fun hp => execFmtWin_unprivileged ha hx hw hp, fun hp hc hr => ⟨fun h128 => execFmtWin_traps ha hx hw hp hc hr h128,
    fun h128 hd => execFmtWin_sets ha hx hw hp hc hr h128 hd⟩, fun die i e => ⟨windows_setWindow_self ..,
    fun j hj => windows_setWindow_ne s i e hj, ?_⟩⟩
  obtain ⟨l, hl⟩ := setWindow_dies s die i e
  rw [hl]
  exact ⟨rfl, rfl, rfl, rfl⟩

end Sys2Proof.Proofs.Handles
end


section
/-! PROOFS. An access to lines of the L2 changes no reading of device memory and no translation (05/R102, R103), and the frame
of the accesses that are made (08/R201-R205). -/

namespace Sys2Proof.Proofs.Lines

open Sys2Proof Sys2Proof.Machine Sys2Proof.Proofs.Running Sys2Proof.Proofs.RegisterFile Sys2Proof.Proofs.Registers
open Sys2Proof.Proofs.Channels Sys2Proof.Proofs.LoadsAndStores Sys2Proof.Proofs.Handles

/-- The second state is the first but for the lines that the L2 holds and the counts of invalid codes. -/
structure SameReading (s u : State) : Prop where
  lines : SameButLines s u
  dies  : ∀ j, ∃ l, u.die j = { s.die j with l2 := l }

namespace SameReading

variable {s u z : State}

theorem refl (s : State) : SameReading s s := ⟨.refl s, fun j => ⟨(s.die j).l2, rfl⟩⟩

theorem trans (h : SameReading s u) (g : SameReading u z) : SameReading s z :=
  ⟨h.lines.trans g.lines, fun j => by
    obtain ⟨l, hl⟩ := h.dies j
    obtain ⟨l', hl'⟩ := g.dies j
    exact ⟨l', by rw [hl', hl]⟩⟩

theorem foldl {α : Type} {f : State → α → State} (hf : ∀ s x, SameReading s (f s x)) (l : List α) (s : State) :
    SameReading s (l.foldl f s) := by
  induction l generalizing s with
  | nil => exact refl s
  | cons x r ih => exact (hf s x).trans (ih _)

theorem updDie (s : State) (d : Nat) (f : Die → Tab (List Nat)) : SameReading s (s.updDie d fun x => { x with l2 := f x }) := by
  refine ⟨updDie_lines s d _, fun j => ?_⟩
  by_cases h : j = d
  · subst h; exact ⟨_, die_updDie ..⟩
  · exact ⟨_, die_updDie_ne s _ h⟩

theorem countInvalid (s : State) (d n : Nat) : SameReading s (countInvalid s d n) := by
  refine ⟨countInvalid_lines s d n, fun j => ⟨(s.die j).l2, ?_⟩⟩
  simp only [Machine.countInvalid]
  split <;> rfl

theorem touchLine (s : State) (line : Nat) : SameReading s (touchLine s line) := by
  simp only [Machine.touchLine]
  split
  · exact updDie s _ _
  · exact (countInvalid s _ _).trans (updDie _ _ _)

theorem touch (s : State) (pa n : Nat) : SameReading s (touch s pa n) := foldl touchLine _ s

theorem touchAgent (s : State) (ag : Agent) (pa n : Nat) : SameReading s (touchAgent s ag pa n) := foldl touchLine _ s

theorem noteWalk (s : State) (extra : List TlbEntry) (asid : BitVec 14) (va : Nat) :
    SameReading s (noteWalk s extra asid va) := by
  simp only [Machine.noteWalk]
  split
  · exact refl s
  · split
    · exact refl s
    · exact foldl (fun s pa => touch s pa 8) _ s

/-! What the relation leaves, field by field. -/

section Fields

variable (h : SameReading s u)
include h

theorem windows (j : Nat) : (u.die j).windows = (s.die j).windows := by
  obtain ⟨l, hl⟩ := h.dies j
  rw [hl]

theorem decoded (j : Nat) : (u.die j).decoded = (s.die j).decoded := by
  obtain ⟨l, hl⟩ := h.dies j
  rw [hl]

theorem badDec (j : Nat) : (u.die j).badDec = (s.die j).badDec := by
  obtain ⟨l, hl⟩ := h.dies j
  rw [hl]

theorem mem : u.mem = s.mem := by obtain ⟨d, v, rfl⟩ := h.lines; rfl
theorem sram : u.sram = s.sram := by obtain ⟨d, v, rfl⟩ := h.lines; rfl
theorem outside : u.outside = s.outside := by obtain ⟨d, v, rfl⟩ := h.lines; rfl
theorem rel : u.rel = s.rel := by obtain ⟨d, v, rfl⟩ := h.lines; rfl
theorem wins : u.wins = s.wins := by obtain ⟨d, v, rfl⟩ := h.lines; rfl
theorem tlb : u.tlb = s.tlb := by obtain ⟨d, v, rfl⟩ := h.lines; rfl
theorem threads : u.threads = s.threads := by obtain ⟨d, v, rfl⟩ := h.lines; rfl
theorem core : u.core = s.core := by obtain ⟨d, v, rfl⟩ := h.lines; rfl
theorem regs : u.regs = { s.regs with invcode := u.regs.invcode } := by obtain ⟨d, v, rfl⟩ := h.lines; rfl
theorem member : u.member = s.member := by simp only [State.member]; rw [h.regs]

/-! The readings that it therefore leaves. -/

theorem windowAt_eq (pa : Nat) : windowAt u pa = windowAt s pa := by
  simp only [windowAt]
  rw [h.windows]

theorem inPacked_eq (pa : Nat) : inPacked u pa = inPacked s pa := by
  simp only [inPacked, h.windowAt_eq]

theorem viewByte_eq (pa : Nat) : viewByte u pa = viewByte s pa := by
  simp only [viewByte, freshByte, groupCode, h.windowAt_eq, h.mem]
  rw [h.decoded]

theorem viewBytes_eq (pa n : Nat) : viewBytes u pa n = viewBytes s pa n := by
  simp only [viewBytes, h.viewByte_eq]

theorem auxBad_eq (d : BitVec 256) (line : Nat) : auxBad u d line = auxBad s d line := by
  simp only [auxBad, h.rel]
  rw [h.decoded, h.badDec]

theorem lineBad_eq (line : Nat) : lineBad u line = lineBad s line := by
  simp only [lineBad, h.windowAt_eq, h.rel, h.auxBad_eq]

theorem readEntry_eq (pa : Nat) (va : Word) : readEntry u pa va = readEntry s pa va := by
  simp only [readEntry, h.lineBad_eq, h.viewBytes_eq]

theorem walkFrom_eq (asid : BitVec 14) (va : Nat) (l : List (Nat × Nat × Nat)) (table : Nat) :
    walkFrom u asid va l table = walkFrom s asid va l table := by
  induction l generalizing table with
  | nil => rfl
  | cons level rest ih =>
    obtain ⟨hi, lo, align⟩ := level
    simp only [walkFrom, h.readEntry_eq, h.member, ih]

theorem leafFor_eq (extra : List TlbEntry) (asid : BitVec 14) (va : Nat) : leafFor u extra asid va = leafFor s extra asid va := by
  have base : u.regs.asidt = s.regs.asidt := by rw [h.regs]
  simp only [leafFor, walk, h.readEntry_eq, h.walkFrom_eq, h.tlb, base]

theorem targetOf_eq (l : TlbEntry) (va : Nat) (need : Need) : targetOf u l va need = targetOf s l va need := by
  simp only [targetOf, h.member]

theorem translate_eq (asid : BitVec 14) (va : Nat) (need : Need) : translate u asid va need = translate s asid va need := by
  simp only [Machine.translate, translateTable, h.leafFor_eq, h.targetOf_eq]

theorem tailAddrs_eq : tailAddrs u = tailAddrs s := by
  have ctl : u.regs.lqctl = s.regs.lqctl := by rw [h.regs]
  have base : u.regs.lqbase = s.regs.lqbase := by rw [h.regs]
  have addr : tailAddr u = tailAddr s := by
    funext q
    simp only [tailAddr, ctl, base, h.translate_eq]
  simp only [tailAddrs, placedQueues, ctl, base, addr]

theorem liveWindows_eq (l : LaunchRef) : liveWindows u l = liveWindows s l := by
  simp only [liveWindows, h.wins]

theorem coverOf_eq (l : LaunchRef) (pa : Nat) : coverOf u l pa = coverOf s l pa := by
  simp only [coverOf, windowsOf, h.liveWindows_eq, h.wins]

theorem covers_eq (l : Option LaunchRef) (pa n : Nat) : covers u l pa n = covers s l pa n := by
  simp only [covers, h.coverOf_eq]

end Fields

end SameReading

end Sys2Proof.Proofs.Lines
end


section
/-! PROOFS. Stores and atomics on plain device memory change their own bytes alone, and a load is delivered (08/R189,
R201-R205). -/

namespace Sys2Proof.Proofs.Frames

open Sys2Proof Sys2Proof.Machine Sys2Proof.Proofs.Running Sys2Proof.Proofs.RegisterFile Sys2Proof.Proofs.Registers
open Sys2Proof.Proofs.Channels Sys2Proof.Proofs.LoadsAndStores Sys2Proof.Proofs.Handles Sys2Proof.Proofs.Lines

section Write

variable {s u : State} {pa n v : Nat} {data : List Byte}

/-- A write that meets neither a packed view, nor a draft window, nor a TAIL. -/
theorem devWrite_plain {ag : Agent} (std : Bool) (ea : Word) (hp : inPacked s pa = false)
    (hc : covers s ag.launch pa data.length = none) (hpos : 0 < data.length)
    (ht : ∀ q ∈ tailAddrs s, q + 8 ≤ pa ∨ pa + data.length ≤ q) :
    devWrite s ag pa (allBytes data) std ea = .ok (putMasked s pa (allBytes data)) := by
  have length : (allBytes data).length = data.length := List.length_map ..
  have noTail : ¬ (std = true ∧ (tailAddrs s).contains pa = true) := by
    rintro ⟨-, hm⟩
    have := ht pa (by simpa using hm)
    omega
  simp only [devWrite, hp, length, hc, if_neg noTail, Bool.false_eq_true, if_false, maskTails_allBytes _ _ _ ht]

/-- What such a write leaves, after accesses that change no reading: its bytes, and the lines that it touches. -/
theorem putMasked_natLe {z : State} (hf : MemoryForm s) (hz : SameReading s z) : ∃ m d c,
    putMasked z pa (allBytes (natLe n v)) = { s with mem := m, dies := d, regs := { s.regs with invcode := c } } ∧
    (∀ k < n, memGet m (pa + k) = BitVec.ofNat 8 (v / 256 ^ k)) ∧
    (∀ b, b < pa ∨ pa + n ≤ b → memGet m b = memGet s.mem b) := by
  obtain ⟨d, c, hput⟩ := putMasked_lines z pa (allBytes (natLe n v))
  rw [memWriteMask_allBytes, hz.mem] at hput
  obtain ⟨d', c', rfl⟩ := hz.lines
  exact ⟨memWrite s.mem pa (natLe n v), d, c, hput, fun k hk => memGet_memWrite_natLe _ hf.1 _ _ _ _ hk,
    fun b hb => memGet_memWrite_out _ _ _ _ (by simpa [natLe_length] using hb) hf.1⟩

end Write

section Store

variable {s : State} {t : Thread} {r : Reg} {a : Src} {x v : Word} {h : BitVec 4} {o : BitVec 8} {n va pa : Nat}

theorem place_eq {need : Need} {tg : Target} (ht : translate s t.asid va need = .ok tg) (key : Nat) :
    place s (threadAgent key t) va need = .ok (tg, noteWalk s [] t.asid va) := by
  have : (threadAgent key t).asid = t.asid := rfl
  simp [place, this, ht]

/-- A store to plain device memory (08/R202). -/
theorem opStore_plain (ha : Acts s t) (hf : MemoryForm s) (hx : Reads t a x) (hv : Holds t r v) (hn : 0 < n)
    (he : effAddr t a h o n rW = .ok va) (htr : translate s t.asid va .store = .ok (.dev pa))
    (hp : inPacked s pa = false) (hc : covers s (some t.ref.l) pa n = none)
    (ht : ∀ q ∈ tailAddrs s, q + 8 ≤ pa ∨ pa + n ≤ q) :
    ∃ s', opStore s r a h o n = .next s' ∧
      (∀ k < n, memGet s'.mem (pa + k) = BitVec.ofNat 8 (v.toNat / 256 ^ k)) ∧
      (∀ b, b < pa ∨ pa + n ≤ b → memGet s'.mem b = memGet s.mem b) ∧
      s'.sram = s.sram ∧ s'.outside = s.outside ∧ s'.regs = { s.regs with invcode := s'.regs.invcode } ∧
      s'.threadAt s.core = some (endTest t t.pc) ∧ ∀ k, k ≠ s.core → s'.threadAt k = s.threadAt k := by
  have hz := SameReading.noteWalk s [] t.asid va
  have length : (natLe n v.toNat).length = n := natLe_length ..
  have written : devWrite (noteWalk s [] t.asid va) (threadAgent s.core t) pa (allBytes (natLe n v.toNat)) (n = 8)
      (BitVec.ofNat 64 va) = .ok (putMasked (noteWalk s [] t.asid va) pa (allBytes (natLe n v.toNat))) := by
    refine devWrite_plain _ _ ((hz.inPacked_eq pa).trans hp) ?_ (length.symm ▸ hn) ?_
    · rw [hz.covers_eq, length]
      exact hc
    · rw [hz.tailAddrs_eq, length]
      exact ht
  have made : accWrite (noteWalk s [] t.asid va) (threadAgent s.core t) (.dev pa) (allBytes (natLe n v.toNat)) (n = 8)
      (BitVec.ofNat 64 va) = .ok (doneNow (putMasked (noteWalk s [] t.asid va) pa (allBytes (natLe n v.toNat)))) := by
    simp only [accWrite, written]
  obtain ⟨m, d, c, hput, hin, hout⟩ := putMasked_natLe (pa := pa) (n := n) (v := v.toNat) hf hz
  rw [hput] at made
  refine ⟨_, opStore_writes ha hx hv he ((writeAt_eq (place_eq htr _) _ _).trans made), hin, hout, rfl, rfl, rfl,
    threadAt_setThread .., fun k hk => ?_⟩
  exact threadAt_setThread_ne _ _ _ _ hk

end Store

section Atomic

variable {s : State} {t : Thread} {pa : Nat}

theorem agentBytes_noWindow {ag : Agent} {l : LaunchRef} (hl : ag.launch = some l) (hw : liveWindows s l = []) (n : Nat) :
    agentBytes s ag pa n = viewBytes s pa n := by
  simp [agentBytes, hl, hw]

theorem agentBad_noWindow {ag : Agent} {l : LaunchRef} (hl : ag.launch = some l) (hw : liveWindows s l = []) (n : Nat) :
    agentBad s ag pa n = badLine s pa := by
  simp [agentBad, hl, hw, badLine]

theorem covers_noWindow {l : LaunchRef} (hw : liveWindows s l = []) (n : Nat) : covers s (some l) pa n = none := by
  simp [covers, coverOf, hw]

/-- An atomic access to plain device memory with no TAIL placed (08/R205). -/
theorem accAtomic_plain {op : Nat} {f : Nat → Nat} {ea : Word} (hf : MemoryForm s) (hp : inPacked s pa = false)
    (hb : badLine s pa = false) (hw : liveWindows s t.ref.l = []) (ht : tailAddrs s = []) :
    ∃ g, accAtomic s (threadAgent s.core t) (.dev pa) 8 op f ea = .ok g ∧ g.bytes = viewBytes s pa 8 ∧ g.err = none ∧
      (∀ k < 8, memGet g.st.mem (pa + k) = BitVec.ofNat 8 (f (leNat (viewBytes s pa 8)) / 256 ^ k)) ∧
      (∀ b, b < pa ∨ pa + 8 ≤ b → memGet g.st.mem b = memGet s.mem b) ∧
      g.st.sram = s.sram ∧ g.st.outside = s.outside ∧ g.st.threads = s.threads := by
  have hl : (threadAgent s.core t).launch = some t.ref.l := rfl
  have hz := SameReading.touchAgent s (threadAgent s.core t) pa 8
  have length : (natLe 8 (f (leNat (viewBytes s pa 8)))).length = 8 := natLe_length ..
  have written : devWrite (touchAgent s (threadAgent s.core t) pa 8) (threadAgent s.core t) pa
      (allBytes (natLe 8 (f (leNat (viewBytes s pa 8))))) true ea =
      .ok (putMasked (touchAgent s (threadAgent s.core t) pa 8) pa (allBytes (natLe 8 (f (leNat (viewBytes s pa 8)))))) := by
    refine devWrite_plain _ _ ((hz.inPacked_eq pa).trans hp) ?_ (by rw [length]; decide) ?_
    · rw [hz.covers_eq, hl]
      exact covers_noWindow hw _
    · rw [hz.tailAddrs_eq, ht]
      simp
  have noTail : ¬ ((tailAddrs (touchAgent s (threadAgent s.core t) pa 8)).contains pa = true ∧ op ≠ 7) := by
    rw [hz.tailAddrs_eq, ht]
    simp
  obtain ⟨m, d, c, hput, hin, hout⟩ := putMasked_natLe (pa := pa) (n := 8) (v := f (leNat (viewBytes s pa 8))) hf hz
  rw [hput] at written
  refine ⟨gotNow (viewBytes s pa 8) { s with mem := m, dies := d, regs := { s.regs with invcode := c } }, ?_, rfl, rfl, hin, hout,
    rfl, rfl, rfl⟩
  simp only [accAtomic, hp, agentBad_noWindow hl hw, hb, agentBytes_noWindow hl hw, if_neg noTail, written,
    Bool.false_eq_true, if_false]

end Atomic

/-- Settles O10: both accesses write through `putMasked`, after reads that change no reading of memory. -/
theorem memoryFrame : Obligations.MemoryFrame := by
  unfold Obligations.MemoryFrame
  refine ⟨fun s t r a x v h o hf ha hx hv => ?_, fun s t pa op f ea hf hp hb hw ht => accAtomic_plain hf hp hb hw ht⟩
  have store (n : Nat) (hn : 0 < n) (va pa)
      (hc : checkHandle (readH t h) (x.toInt + o.toInt * n) n rW t.asid = .ok va) (hm : va % n = 0)
      (htr : translate s t.asid va .store = .ok (.dev pa)) (hp : inPacked s pa = false)
      (hcov : covers s (some t.ref.l) pa n = none) (ht : ∀ q ∈ tailAddrs s, q + 8 ≤ pa ∨ pa + n ≤ q) :=
    opStore_plain ha hf hx hv hn (effAddr_aligned hx hc hm) htr hp hcov ht
  simp only [List.forall_mem_cons]
  exact ⟨store 1 (by decide), store 2 (by decide), store 4 (by decide), store 8 (by decide), by simp⟩

end Sys2Proof.Proofs.Frames
end


section
/-! PROOFS. What becomes of a curd's share changes the clusters and the error counters alone (07/R165-R168), and a producer's
completion (08/R189). -/

namespace Sys2Proof.Proofs.Shares

open Sys2Proof Sys2Proof.Machine Sys2Proof.Proofs.Running Sys2Proof.Proofs.RegisterFile Sys2Proof.Proofs.Registers
open Sys2Proof.Proofs.Channels Sys2Proof.Proofs.LoadsAndStores Sys2Proof.Proofs.Lines Sys2Proof.Proofs.Frames

/-- The second state is the first but for its clusters and what a retired frame has counted and posted. -/
def ShareOnly (s u : State) : Prop := ∃ c r m n, u = { s with clusters := c, regs := r, mbox := m, free := n }

namespace ShareOnly

variable {s u z : State}

theorem refl (s : State) : ShareOnly s s := ⟨s.clusters, s.regs, s.mbox, s.free, rfl⟩

theorem trans (h : ShareOnly s u) (g : ShareOnly u z) : ShareOnly s z := by
  obtain ⟨c, r, m, n, rfl⟩ := h
  obtain ⟨c', r', m', n', rfl⟩ := g
  exact ⟨c', r', m', n', rfl⟩

theorem foldl {α : Type} {f : State → α → State} (hf : ∀ s x, ShareOnly s (f s x)) (l : List α) (s : State) :
    ShareOnly s (l.foldl f s) := by
  induction l generalizing s with
  | nil => exact refl s
  | cons x r ih => exact (hf s x).trans (ih _)

theorem updCluster (s : State) (c : Nat) (f : Cluster → Cluster) : ShareOnly s (s.updCluster c f) := ⟨_, s.regs, s.mbox, s.free, rfl⟩

theorem countRetired (s : State) (n : Nat) : ShareOnly s (countRetired s n) := ⟨s.clusters, _, _, _, rfl⟩

theorem freeFrame (s : State) (c f : Nat) : ShareOnly s (freeFrame s c f) := by
  simp only [Machine.freeFrame]
  split
  · exact (updCluster s _ _).trans (countRetired _ _)
  · exact updCluster s _ _

theorem giveBack (s : State) (k : CurdLive) : ShareOnly s (giveBack s k) := by
  simp only [Machine.giveBack]
  split
  · split
    · exact updCluster s _ _
    · exact refl s
  · exact refl s

theorem returnCurd (s : State) (c i : Nat) : ShareOnly s (returnCurd s c i) := by
  simp only [Machine.returnCurd]
  split
  · exact refl s
  · exact ((foldl (fun s f => freeFrame s c f) _ s).trans (updCluster _ _ _)).trans (giveBack _ _)

theorem settleCurd (s : State) (c i : Nat) : ShareOnly s (settleCurd s c i) := by
  simp only [Machine.settleCurd]
  split
  · split
    · exact returnCurd s c i
    · exact refl s
  · exact refl s

theorem finalShare (s : State) (c i : Nat) : ShareOnly s (finalShare s c i) :=
  (updCluster s _ _).trans (settleCurd _ _ _)

theorem mem (h : ShareOnly s u) : u.mem = s.mem := by obtain ⟨c, r, m, n, rfl⟩ := h; rfl
theorem threads (h : ShareOnly s u) : u.threads = s.threads := by obtain ⟨c, r, m, n, rfl⟩ := h; rfl
theorem threadAt (h : ShareOnly s u) (k : Nat) : u.threadAt k = s.threadAt k := by
  simp only [State.threadAt, h.threads]

end ShareOnly

/-! ## A thread found by its reference -/

section Refs

variable {s : State} {t u : Thread} {r : ThreadRef} {k : Nat}

/-- A thread keeps its place in the table of cores. -/
theorem runningKey_setThread (h : runningKey s r = some k) (hu : u.ref = r) : runningKey (s.setThread k u) r = some k := by
  simp only [runningKey, State.setThread] at h ⊢
  generalize s.threads = l at h ⊢
  induction l with
  | nil => cases h
  | cons e l ih =>
    obtain ⟨j, w⟩ := e
    simp only [tabPut]
    by_cases hj : j = k
    · simp [hj, hu]
    · rw [if_neg hj]
      split
      · simp [hu]
      · rw [List.findSome?_cons] at h ⊢
        by_cases hw : w.ref = r
        · simp only [hw, if_true, Option.some.injEq] at h
          exact absurd h hj
        · simp only [hw, if_false] at h ⊢
          exact ih h

theorem updByRef_running (hk : runningKey s r = some k) (ht : s.threadAt k = some t) (f : Thread → Thread) :
    updByRef s r f = s.setThread k (f t) := by
  simp [updByRef, hk, updThread_eq ht]

theorem threadByRef_running (hk : runningKey s r = some k) : threadByRef s r = s.threadAt k := by
  simp [threadByRef, hk]

/-- The shares that a completion makes final leave the thread's list, and nothing else of the thread changes. -/
theorem applyFinals_running (key : Nat) (hk : runningKey s r = some k) (ht : s.threadAt k = some t) :
    ShareOnly (s.setThread k { t with finals := t.finals.filter (readsUnder t) }) (applyFinals s key r) := by
  simp only [applyFinals, threadByRef_running hk, ht, updByRef_running hk ht]
  exact ShareOnly.foldl (fun s f => ShareOnly.finalShare s _ _) _ _

end Refs

/-! ## A producer (08/R189) -/

section Producer

variable {s : State} {t : Thread} {d : Reg} {l : RegLoc} {v addr : Word} {field : Reg}

/-- A cell is read from the global registers and the file alone. -/
theorem cellAt_congr {u : Thread} (hg : u.g = t.g) (hw : u.win = t.win) (l : RegLoc) : cellAt u l = cellAt t l := by
  cases l <;> simp only [cellAt, hg, hw]

theorem cellAt_markEmpty : (cellAt (markEmpty t l) l).fill = .empty := by simp [markEmpty, cellAt_setCell_self]

/-- A producer of one destination without an error, which nothing has to answer first. -/
structure Plain (p : Producer) (l : RegLoc) (v : Word) : Prop where
  dests : p.dests = [l]
  vals : p.vals = [v]
  wait : p.wait = none
  err : p.err = none
  arrive : p.arrive = none

/-- A load from plain memory leaves its destination empty and one producer more. -/
theorem produce_plain (hl : regLoc t d = .ok (some l)) (hp : t.prods = []) : ∃ p, Plain p l v ∧
    (produce t [d] [v] none none addr field).prods = [p] ∧ (produce t [d] [v] none none addr field).ref = t.ref ∧
    (cellAt (produce t [d] [v] none none addr field) l).fill = .empty := by
  have prods : (markEmpty t l).prods = t.prods := by cases l <;> rfl
  have ref : (markEmpty t l).ref = t.ref := by cases l <;> rfl
  have pairs : destPairs t [d] [v] = [(l, v)] := by simp [destPairs, hl]
  simp only [produce, pairs, List.foldl_cons, List.foldl_nil, List.map_cons, List.map_nil, prods, hp, List.nil_append]
  refine ⟨_, ?_, rfl, ref, ?_⟩
  · exact ⟨rfl, rfl, rfl, rfl, rfl⟩
  · exact (congrArg Cell.fill (cellAt_congr (t := markEmpty t l) rfl rfl l)).trans cellAt_markEmpty

/-- Its completion fills the destination (08/R189). -/
theorem completeProducer_plain {p : Producer} {k : Nat} (hp : Plain p l v) (hk : runningKey s t.ref = some k)
    (ht : s.threadAt k = some t) (hps : t.prods = [p]) : ∃ u, (completeProducer s k t 0).threadAt k = some u ∧
      cellAt u l = ⟨v, .full⟩ ∧ (completeProducer s k t 0).mem = s.mem := by
  obtain ⟨dests, vals, wait, err, arrive⟩ := hp
  have dropped : dropProducer t 0 p = setCell { t with prods := [] } l ⟨v, .full⟩ := by
    simp [dropProducer, fillDests, hps, dests, vals, err]
  have ref : (dropProducer t 0 p).ref = t.ref := by rw [dropped]; cases l <;> rfl
  have done : completeProducer s k t 0 = applyFinals (s.setThread k (dropProducer t 0 p)) k t.ref := by
    simp [completeProducer, hps, mayComplete, answered, wait, err, arrive, updByRef_running hk ht]
  have finals := applyFinals_running k (runningKey_setThread hk ref) (threadAt_setThread s k (dropProducer t 0 p))
  rw [done]
  refine ⟨_, (finals.threadAt k).trans (threadAt_setThread ..), ?_, finals.mem⟩
  exact (cellAt_congr (t := dropProducer t 0 p) rfl rfl l).trans (by rw [dropped, cellAt_setCell_self])

end Producer

/-! ## A doubleword load from plain memory, and its delivery -/

section Delivery

variable {s : State} {t : Thread} {pa n : Nat}

/-- Bytes outside every window and every kept line are memory's. -/
theorem viewBytes_plain (h : ∀ i < n, windowAt s (pa + i) = none ∧
    tabFind (s.die (dieOf (pa + i))).decoded ((pa + i) / 64) = none) : viewBytes s pa n = memBytes s.mem pa n := by
  have bytes (k : Nat) (hk : k < n) : viewByte s (pa + k) = memGet s.mem (pa + k) := by
    simp [viewByte, (h k hk).2, freshByte, (h k hk).1]
  refine List.ext_getElem? fun k => ?_
  by_cases hk : k < n
  · rw [memBytes_getElem? _ _ _ _ hk]
    simp [viewBytes, hk, bytes k hk]
  · rw [List.getElem?_eq_none (by simpa [viewBytes] using hk),
      List.getElem?_eq_none (by simpa [memBytes_length] using hk)]

/-- A read of plain memory outside every draft window answers memory's bytes. -/
theorem accRead_plain {ea : Word} {z : State} (hz : SameReading s z) (hw : liveWindows s t.ref.l = []) (hb : badLine s pa = false)
    (h : ∀ i < n, windowAt s (pa + i) = none ∧ tabFind (s.die (dieOf (pa + i))).decoded ((pa + i) / 64) = none) (key : Nat) :
    ∃ u, SameReading s u ∧
      accRead z (threadAgent key t) (.dev pa) n ea = .ok (gotNow (memBytes s.mem pa n) u) := by
  have hl : (threadAgent key t).launch = some t.ref.l := rfl
  have hw' := (hz.liveWindows_eq t.ref.l).trans hw
  refine ⟨_, hz.trans (.touchAgent z (threadAgent key t) pa n), ?_⟩
  simp only [accRead, agentBad_noWindow hl hw', badLine, hz.lineBad_eq, agentBytes_noWindow hl hw', hz.viewBytes_eq,
    viewBytes_plain h]
  rw [badLine] at hb
  simp [hb]

end Delivery

/-- Settles O8: the load leaves one producer, whose completion fills the register. -/
theorem loadIsDelivered : Obligations.LoadIsDelivered := by
  unfold Obligations.LoadIsDelivered
  intro s t d l a x h o va pa ha hk hx hr hl hps hc hm htr hb hw hplain _ _ _
  obtain ⟨u, hu, hread⟩ := accRead_plain (ea := BitVec.ofNat 64 va) (SameReading.noteWalk s [] t.asid va) hw hb hplain s.core
  have issued := (opLoad_yields (ext := BitVec.ofNat 64) ha hx hr (effAddr_aligned hx hc hm)
    ((readAt_eq (place_eq htr _) _).trans hread)).2 rfl (by simp [HasRoom, outst, hps])
  dsimp only [gotNow] at issued
  obtain ⟨p, hp, hprods, href, hempty⟩ := produce_plain (v := BitVec.ofNat 64 (leNat (memBytes s.mem pa 8)))
    (addr := BitVec.ofNat 64 va) (field := d) hl hps
  have running : runningKey u t.ref = some s.core := by
    simpa only [runningKey, hu.threads] using hk
  generalize produce t [d] [BitVec.ofNat 64 (leNat (memBytes s.mem pa 8))] none none (BitVec.ofNat 64 va) d = w at *
  have ref : (endTest w t.pc).ref = t.ref := href
  have thread := threadAt_setThread u s.core (endTest w t.pc)
  obtain ⟨u2, hthread, hfull, hmem⟩ := completeProducer_plain (t := endTest w t.pc) hp
    (ref ▸ runningKey_setThread running ref) thread hprods
  have completes : exec (.longLatencyProducerComplete s.core 0) (u.setThread s.core (endTest w t.pc)) =
      .next (completeProducer (u.setThread s.core (endTest w t.pc)) s.core (endTest w t.pc) 0) := by
    have one : (endTest w t.pc).prods.length = 1 := congrArg List.length hprods
    simp [exec, execLongLatencyProducerComplete, thread, one]
  refine ⟨_, _, _, u2, issued, thread, ?_, hu.mem, completes, hthread, hfull, hmem.trans hu.mem⟩
  exact (congrArg Cell.fill (cellAt_congr (t := w) rfl rfl l)).trans hempty

end Sys2Proof.Proofs.Shares
end


section
/-! PROOFS. Streamer queues and ring objects (05/R122-R134). -/

namespace Sys2Proof.Proofs.Streams

open Sys2Proof Sys2Proof.Machine Sys2Proof.Proofs.Running Sys2Proof.Proofs.RegisterFile Sys2Proof.Proofs.Registers
open Sys2Proof.Proofs.Channels

/-! ## A copy to a curd whose seal waits (14/R336)

`cp.issue` is issued after its thread's own seal of the curd at an end of the copy. While that seal waits the curd is still open, so
the shape passes its tests, and nevertheless the instruction neither is accepted nor refused: it waits. -/

/-- A store to the host window that is outstanding. -/
def outstandingStore : Producer :=
  { dests := [], vals := [], wait := some .host, err := none, addr := 0, field := 0, pc := 0, inFault := false, counted := false
    undo := [], writes := true, num := 0 }

/-- A thread that has sealed curd 0 under a release that waits for that store; `g5` names a shape record, `g6` a ring. -/
def sealingThread : Thread :=
  { placedThread false with
    g := [(5, ⟨0x200000, .full⟩), (6, ⟨0x200200, .full⟩)], h := [(1, ⟨true, 0, 0x1F, 0x40000000, 0⟩)]
    prods := [outstandingStore], nprod := 2, rels := [⟨1, true, .seal 0 1⟩] }

/-- A record of one byte from scratch space 0 to curd 0 of partition 1, generation 1 (05 Table 5.1). -/
def sealingRecord : Nat := 0x5A + 2 ^ 8 + 2 ^ 18 + 2 * 2 ^ 20 + 0x800001 * 2 ^ 224 + 2 ^ 512

/-- Curd 0, open. -/
def openedCurd : CurdLive :=
  { part := 1, frames := [0], strict := false, isSealed := false, count := 3, fin := 3, pend := 0, launch := ⟨0, 0⟩
    owner := ⟨⟨0, 0⟩, 0⟩, cast := none, reserved := false, raised := false }

/-- The machine of that thread: the record at 2 MiB, a fresh ring of two slots beside it, the curd and its partition. -/
def sealingState : State :=
  { (State.reset.setThread 0 sealingThread).updCluster 0 fun x => { x with
      parts := [(1, ⟨BitVec.ofNat 64 (2 ^ 63 + 16 * 2 ^ 16)⟩)], curds := [(0, { live := some openedCurd })] } with
    regs := { State.reset.regs with asidt := 1 }
    tlb := [⟨0, 0, 30, 0, 0, 0, true, true⟩]
    mem := memWrite (memWrite State.reset.mem 0x200000 (natLe 256 sealingRecord)) 0x200200 (natLe 64 (2 ^ 170 + 2 ^ 166 + 2 ^ 160)) }

/-- The handles that the record may name. -/
def sealingHandles (k : Nat) : Handle := readH sealingThread (BitVec.ofNat 4 k)

/-- The record passes its tests, its destination is the curd whose seal waits, and the ring is well formed. -/
def sealingCase : Bool :=
  match readShape sealingState (threadAgent 0 sealingThread) (readH sealingThread 1) 0x200000 sealingHandles 0 0 with
  | .ok (r, z) => decide (r.dkind = .curd) && sealWaiting sealingThread (chIndex r.dcurd.toNat) &&
      decide (ringAt z 0 (readH sealingThread 1) 0x200200 = .ok 0x200200) && ringWf (ringGet z 0x200200)
  | .error _ => false

theorem sealingCase_holds : sealingCase = true := by decide +kernel

theorem sealing_acts : Acts sealingState sealingThread := by simp only [Acts]; decide +kernel
theorem sealing_shape : Reads sealingThread ⟨5, true⟩ 0x200000 := by simp only [Reads]; decide +kernel
theorem sealing_ring : Holds sealingThread 6 0x200200 := by simp only [Holds]; decide +kernel

/-- What the case comes to, the shape and the state after its reading named. -/
theorem sealing_shape_passes : ∃ r z, readShape sealingState (threadAgent sealingState.core sealingThread)
      (readH sealingThread 1) 0x200000 (fun k => readH sealingThread (BitVec.ofNat 4 k)) 0 0 = .ok (r, z) ∧
    r.dkind = .curd ∧ sealWaiting sealingThread (chIndex r.dcurd.toNat) = true ∧
    ringAt z 0 (readH sealingThread 1) (0x200200 : Word).toInt = .ok 0x200200 ∧ ringWf (ringGet z 0x200200) = true := by
  have h := sealingCase_holds
  unfold sealingCase at h
  split at h
  · next r z hr =>
    simp only [Bool.and_eq_true, decide_eq_true_eq] at h
    obtain ⟨⟨⟨hk, hw⟩, hring⟩, hwf⟩ := h
    have address : (0x200200 : Word).toInt = 0x200200 := by decide
    rw [address]
    exact ⟨r, z, hr, hk, hw, hring, hwf⟩
  · cases h

/-- The instruction waits for the thread's own seal. -/
theorem execCpIssue_sealing : exec (.cpIssue 6 ⟨5, true⟩ 1 0 0 0) sealingState = .next sealingState := by
  obtain ⟨r, z, hr, hk, hw, -, -⟩ := sealing_shape_passes
  show execCpIssue 6 ⟨5, true⟩ 1 0 0 0 sealingState = _
  refine issue_waits sealing_acts (names_of sealing_shape sealing_ring) ?_
  simp only [sealing_shape.readSrc_eq, sealing_ring.readField_eq, ok_bind, hr, sealAhead, hk, hw, decide_true, Bool.and_self,
    if_true]
  rfl

/-- An instruction that ends leaves its thread at the next word. -/
theorem ends_elsewhere (z : State) (b : Bool) :
    endsWith sealingState sealingThread z (writeP sealingThread 0 b) ≠ .next sealingState := by
  intro h
  have pc : (endTest sealingThread sealingThread.pc).pc = 4 := by decide +kernel
  have state := (Host.Outcome.next.inj h : z.setThread sealingState.core (endTest sealingThread sealingThread.pc) = sealingState)
  have thread := threadAt_setThread z sealingState.core (endTest sealingThread sealingThread.pc)
  rw [state, sealing_acts.1] at thread
  have := congrArg Thread.pc (Option.some.inj thread)
  rw [pc] at this
  revert this
  decide +kernel

/-- Refutes O27: in `sealingState` the record passes its tests, its ring is well formed, and `cp.issue` waits. -/
theorem not_streamerInstructions : ¬ Obligations.StreamerInstructions := by
  unfold Obligations.StreamerInstructions
  intro h
  obtain ⟨r, z, hr, -, -, hring, hwf⟩ := sealing_shape_passes
  have issue := (h sealingState z sealingThread 6 ⟨5, true⟩ 1 0 0 0 0x200000 0x200200 r 0x200200 0 [] 0 sealing_acts).1
    sealing_shape sealing_ring hr hring hwf
  rw [execCpIssue_sealing] at issue
  split at issue
  · exact ends_elsewhere _ _ issue.symm
  · exact ends_elsewhere _ _ issue.symm

end Sys2Proof.Proofs.Streams
end


section
/-! PROOFS. Ring objects (05/R122-R124, R132, R133). -/

namespace Sys2Proof.Proofs.Rings

open Sys2Proof Sys2Proof.Machine Sys2Proof.Proofs.Running Sys2Proof.Proofs.RegisterFile Sys2Proof.Proofs.Registers
open Sys2Proof.Proofs.Channels

section Instructions

variable {s z : State} {t : Thread} {d : Reg} {a : Src} {h : BitVec 4} {x w : Word} {pa r : Nat}

/-- The object that an instruction names, once it is found to be well formed, and the state after its reading. -/
theorem openRing_wf (hx : Reads t a x) (hp : ringAt s t.asid (readH t h) x.toInt = .ok pa)
    (hw : ringWf (ringGet s pa) = true) : openRing s t a h =
      .ok (pa, ringGet s pa, touchRing s t.asid (readH t h) x.toInt pa) := by
  simp [openRing, hx.readSrc_eq, hp, hw]

theorem openRing_malformed (hx : Reads t a x) (hp : ringAt s t.asid (readH t h) x.toInt = .ok pa)
    (hw : ringWf (ringGet s pa) = false) : openRing s t a h = .error (.trap ⟨cRing, 0, some x, 0⟩ none) := by
  simp [openRing, hx.readSrc_eq, hp, hw, trapWith]

variable (p : BitVec 3) (ha : Acts s t) (hx : Reads t a x)
include ha hx

theorem execRingInit_ends (hp : ringAt s t.asid (readH t h) x.toInt = .ok pa) (hv : Holds t d w)
    (hw : ringWordOk w.toNat = true) : exec (.ringInit d a h p) s =
      (if ringWf (ringGet s pa) = true ∧ rgIp (ringGet s pa) ≠ rgRp (ringGet s pa) then
        endsWith s t (touchRing s t.asid (readH t h) x.toInt pa) (writeP t p false)
      else endsWith s t (ringSet (touchRing s t.asid (readH t h) x.toInt pa) pa (freshRing w.toNat)) (writeP t p true)) := by
  show execRingInit d a h p s = _
  split
  · next hbusy => exact issue_acts_own ha _ _ (names_of hx hv) (by
      simp only [hx.readSrc_eq, hv.readField_eq, ok_bind, hp, liftE_ok, hw, Bool.not_true, Bool.false_eq_true, if_false,
        if_pos hbusy, pure_eq_ok])
  · next hfree => exact issue_acts_own ha _ _ (names_of hx hv) (by
      simp only [hx.readSrc_eq, hv.readField_eq, ok_bind, hp, liftE_ok, hw, Bool.not_true, Bool.false_eq_true, if_false,
        if_neg hfree, pure_eq_ok])

theorem execRingWait_none (ho : openRing s t a h = .ok (pa, r, z)) (hr : Ready t d) (hn : rgCp r = rgWp r) :
    exec (.ringWait d a h p) s = endsWith s t z (writeP t p false) := by
  show execRingWait d a h p s = _
  refine issue_acts_own ha _ _ (namesReady hx hr) ?_
  rw [ho, ok_bind]
  dsimp only
  rw [hr.destReady_eq, ok_bind, if_pos hn, pure_eq_ok]

theorem execRingWait_takes (ho : openRing s t a h = .ok (pa, r, z)) (hr : Ready t d) (hn : rgCp r ≠ rgWp r) :
    exec (.ringWait d a h p) s = endsWith s t (ringSet z pa (setBits r 127 96 ((rgCp r + 1) % 2 ^ 32)))
      (writeP (writeR t d (BitVec.ofNat 64 (b2n (bit (rgErr r) (rgCp r % rgN r)) * 2 ^ 63 + rgCp r % rgN r))) p true) := by
  show execRingWait d a h p s = _
  refine issue_acts_own ha _ _ (namesReady hx hr) ?_
  rw [ho, ok_bind]
  dsimp only
  rw [hr.destReady_eq, ok_bind, if_neg hn, pure_eq_ok]

theorem execRingWptr_ends (ho : openRing s t a h = .ok (pa, r, z)) (hr : Ready t d) :
    exec (.ringWptr d a h p) s = endsWith s t z (writeP (writeR t d (BitVec.ofNat 64 (rgWp r * 2 ^ 32 + rgProg r))) p
      (decide (rgIp r ≠ rgWp r))) := by
  show execRingWptr d a h p s = _
  refine issue_acts_own ha _ _ (namesReady hx hr) ?_
  rw [ho, ok_bind]
  dsimp only
  rw [writeDest_ready hr, ok_bind, pure_eq_ok]

theorem execRingRel_none (ho : openRing s t a h = .ok (pa, r, z)) (hn : sub32 (rgCp r) (rgRp r) ≤ ringPending z pa) :
    exec (.ringRel a h p) s = endsWith s t z (writeP t p false) := by
  show execRingRel a h p s = _
  refine issue_acts_own ha _ _ (namesOk_one (regLoc_of_reads hx)) ?_
  rw [ho, ok_bind]
  dsimp only
  rw [if_pos hn, pure_eq_ok]

theorem execRingRel_waits (ho : openRing s t a h = .ok (pa, r, z)) (hn : ringPending z pa < sub32 (rgCp r) (rgRp r))
    (hw : ringWaits t r = true) : exec (.ringRel a h p) s = endsWith s t z (writeP (defer t (.ring pa)) p true) := by
  show execRingRel a h p s = _
  refine issue_acts_own ha _ _ (namesOk_one (regLoc_of_reads hx)) ?_
  rw [ho, ok_bind]
  dsimp only
  rw [if_neg (Nat.not_le.2 hn), if_pos hw, pure_eq_ok]

theorem execRingRel_frees (ho : openRing s t a h = .ok (pa, r, z)) (hn : ringPending z pa < sub32 (rgCp r) (rgRp r))
    (hw : ringWaits t r = false) : exec (.ringRel a h p) s = endsWith s t (ringSet z pa (ringFreed r)) (writeP t p true) := by
  show execRingRel a h p s = _
  refine issue_acts_own ha _ _ (namesOk_one (regLoc_of_reads hx)) ?_
  rw [ho, ok_bind]
  dsimp only
  rw [if_neg (Nat.not_le.2 hn), if_neg (by rw [hw]; decide), pure_eq_ok]

theorem ring_traps (ho : openRing s t a h = .error (.trap ⟨cRing, 0, some x, 0⟩ none)) (hd : ∃ l, regLoc t d = .ok l) :
    exec (.ringWait d a h p) s = traps s t ⟨cRing, 0, some x, 0⟩ ∧
    exec (.ringRel a h p) s = traps s t ⟨cRing, 0, some x, 0⟩ ∧
    exec (.ringWptr d a h p) s = traps s t ⟨cRing, 0, some x, 0⟩ := by
  have names := namesOk_two hd (regLoc_of_reads hx)
  refine ⟨?_, ?_, ?_⟩
  · show execRingWait d a h p s = _
    exact issue_traps ha _ _ _ names (by rw [ho, error_bind])
  · show execRingRel a h p s = _
    exact issue_traps ha _ _ _ (namesOk_one (regLoc_of_reads hx)) (by rw [ho, error_bind])
  · show execRingWptr d a h p s = _
    exact issue_traps ha _ _ _ names (by rw [ho, error_bind])

end Instructions

/-- Settles O28: each instruction after the opening of its ring. -/
theorem ringInstructions : Obligations.RingInstructions := by
  unfold Obligations.RingInstructions
  intro s t d a h p x w pa ha hx hp
  refine ⟨fun hv hw => execRingInit_ends p ha hx hp hv hw, fun hwf hr => ?_, fun hwf => ?_, fun hwf hd => ?_⟩
  · have ho := openRing_wf hx hp hwf
    exact ⟨fun hn => execRingWait_none p ha hx ho hr hn, fun hn => execRingWait_takes p ha hx ho hr hn,
      execRingWptr_ends p ha hx ho hr⟩
  · have ho := openRing_wf hx hp hwf
    exact ⟨fun hn => execRingRel_none p ha hx ho hn, fun hn hw => execRingRel_waits p ha hx ho hn hw,
      fun hn hw => execRingRel_frees p ha hx ho hn hw⟩
  · exact ring_traps p ha hx (openRing_malformed hx hp hwf) hd

end Sys2Proof.Proofs.Rings
end


section
/-! PROOFS. Scratch page instructions (06/R150-R154). -/

namespace Sys2Proof.Proofs.Scratch

open Sys2Proof Sys2Proof.Machine Sys2Proof.Proofs.Running Sys2Proof.Proofs.RegisterFile Sys2Proof.Proofs.Registers
open Sys2Proof.Proofs.Channels Sys2Proof.Proofs.Lines

/-! ## Translation entries -/

/-- PROT is read back from an entry whose other fields are in range. -/
theorem eProt_mkEntry {asid slot st prot frame : Nat} (hp : prot < 4) (hf : frame < 2 ^ 13) :
    eProt (mkEntry asid slot st prot frame % 2 ^ 64) = prot := by
  simp only [eProt, mkEntry, bits]
  omega

theorem eFrame_lt (e : Nat) : eFrame e < 2 ^ 13 := Nat.mod_lt _ (by decide)

theorem eSt_mkEntry {asid slot st prot frame : Nat} (hs : st < 4) (hp : prot < 4) (hf : frame < 2 ^ 13) :
    eSt (mkEntry asid slot st prot frame % 2 ^ 64) = st := by
  simp only [eSt, mkEntry, bits]
  omega

/-- An entry that is written is read back. -/
theorem sttEntry_setEntry {s : State} (h : s.mem.wf = true) (c k v : Nat) : sttEntry (setEntry s c k v) c k = v % 2 ^ 64 := by
  have read := memBytes_memWrite s.mem (areaAddr c (8 * k)) (natLe 8 v) h
  rw [natLe_length] at read
  rw [sttEntry, setEntry, putBytes_mem, memLe, read, leNat_natLe, show 256 ^ 8 = 2 ^ 64 by decide]

theorem setEntry_wf {s : State} (h : s.mem.wf = true) (c k v : Nat) : (setEntry s c k v).mem.wf = true := putBytes_wf s _ _ h

@[simp] theorem sttEntry_updCluster (s : State) (c d k : Nat) (f : Cluster → Cluster) :
    sttEntry (s.updCluster d f) c k = sttEntry s c k := rfl

/-- A page that begins to leave keeps its PROT. -/
theorem eProt_retirePage {s : State} (h : s.mem.wf = true) (c k : Nat) :
    eProt (sttEntry (retirePage s c k) c k) = eProt (sttEntry s c k) := by
  simp only [retirePage]
  split
  · rw [beginPageOut, sttEntry_updCluster, sttEntry_setEntry h]
    exact eProt_mkEntry (Nat.mod_lt _ (by decide)) (eFrame_lt _)
  · rfl

theorem eProt_retirePage_updCluster {s : State} (h : s.mem.wf = true) (c k : Nat) (f : Cluster → Cluster) :
    eProt (sttEntry (retirePage (s.updCluster c f) c k) c k) = eProt (sttEntry s c k) :=
  eProt_retirePage (s := s.updCluster c f) h c k

/-- `sprot` sets PROT (06/R151). -/
theorem eProt_protectPage {s : State} (h : s.mem.wf = true) (c k : Nat) {m : Nat} (hm : m < 4) :
    eProt (sttEntry (protectPage s c k m) c k) = m := by
  rw [protectPage, eProt_retirePage_updCluster (setEntry_wf h ..), sttEntry_setEntry h]
  exact eProt_mkEntry hm (eFrame_lt _)

/-- A page that is asked for is asked for by the core, unless another core asked first (06/R144). -/
theorem wants_wantPage (s : State) (c k core : Nat) :
    (tabFind (s.cluster c).wants k).isSome = true ∨ tabFind ((wantPage s c k core).cluster c).wants k = some core := by
  have cluster : (touchEntry s c k).cluster c = s.cluster c := by
    obtain ⟨d, v, h⟩ := touch_lines s (areaAddr c (8 * k)) 8
    rw [touchEntry, h]
    rfl
  rw [wantPage, State.cluster_updCluster, cluster]
  by_cases h : (tabFind (s.cluster c).wants k).isSome = true
  · exact .inl h
  · exact .inr (by simp [h, tabFind_tabPut_self])

/-! ## The instructions -/

section Instructions

variable {s : State} {t : Thread} {d : Reg} {a : Src} {x n : Word} {k : Nat}

theorem pageWord_ok (hk : k = bits x.toNat 31 11) (hx : bits x.toNat 63 32 = 0) : pageWord x = .ok k := by
  simp [pageWord, hx, hk]

theorem openPage_user (hk : k = bits x.toNat 31 11) (hx : bits x.toNat 63 32 = 0) (hu : k / 2048 < 960) (key : Nat) :
    openPage s key x = .ok (k, sttEntry s (keyCluster key) k) := by
  simp [openPage, pageWord_ok hk hx, userPage, Nat.not_le.2 hu]

theorem execSmap_ends (p : BitVec 3) (ha : Acts s t) (hk : k = bits x.toNat 31 11) (hw : bits x.toNat 63 32 = 0)
    (hu : k / 2048 < 960) (hn : Reads t a n) (hx : Holds t d x) (h0 : 0 < n.toNat) (hr : k % 2048 + n.toNat ≤ 2048) :
    exec (.smap d a p) s =
      (if (((List.range n.toNat).map (k + ·)).any fun k => eSt (sttEntry s (keyCluster s.core) k) ≠ 0) = true ∨
          8192 < (s.cluster (keyCluster s.core)).slots.length + n.toNat then ends s t (writeP t p false)
      else endsWith s t (((List.range n.toNat).map (k + ·)).foldl
        (fun s' k => mapPage s' (keyCluster s.core) (keyCore s.core) k t.asid) s) (writeP t p true)) := by
  have inRange : ¬ (n.toNat = 0 ∨ 2048 < k % 2048 + n.toNat) := by omega
  have user : userPage x k = .ok () := by simp [userPage, Nat.not_le.2 hu]
  show execSmap d a p s = _
  split
  · next hfull => exact issue_acts_own ha _ _ (names_of hn hx) (by
      simp only [hn.readSrc_eq, hx.readField_eq, ok_bind, pageWord_ok hk hw, if_neg inRange, user, if_pos hfull, pure_eq_ok])
  · next hroom => exact issue_acts_own ha _ _ (names_of hn hx) (by
      simp only [hn.readSrc_eq, hx.readField_eq, ok_bind, pageWord_ok hk hw, if_neg inRange, user, if_neg hroom, pure_eq_ok])

/-- An instruction on one page reads its entry first. -/
theorem page_opened {α : Type} (f : Word → Nat × Nat → Except Exc α) (hk : k = bits x.toNat 31 11)
    (hw : bits x.toNat 63 32 = 0) (hu : k / 2048 < 960) (hx : Holds t d x) :
    (readField t d >>= fun x => openPage s s.core x >>= f x) = f x (k, sttEntry s (keyCluster s.core) k) := by
  rw [hx.readField_eq, ok_bind, openPage_user hk hw hu, ok_bind]

section OnePage

variable (p : BitVec 3) (m : BitVec 2) (ha : Acts s t) (hk : k = bits x.toNat 31 11) (hw : bits x.toNat 63 32 = 0)
  (hu : k / 2048 < 960) (hx : Holds t d x)
include ha hk hw hu hx

/-- A page that is not mapped, or that moves, is refused. -/
theorem page_refused (he : eSt (sttEntry s (keyCluster s.core) k) = 0 ∨ eSt (sttEntry s (keyCluster s.core) k) = 3) :
    exec (.sunmap d p) s = ends s t (writeP t p false) ∧ exec (.sprot d p m) s = ends s t (writeP t p false) ∧
    exec (.sevict d p) s = ends s t (writeP t p false) := by
  have names := namesOk_one (regLoc_of_holds hx)
  refine ⟨?_, ?_, ?_⟩
  · show execSunmap d p s = _
    exact issue_acts_own ha _ _ names ((page_opened _ hk hw hu hx).trans (if_pos he))
  · show execSprot d p m s = _
    exact issue_acts_own ha _ _ names ((page_opened _ hk hw hu hx).trans (if_pos he))
  · show execSevict d p s = _
    exact issue_acts_own ha _ _ names ((page_opened _ hk hw hu hx).trans (if_pos (or_assoc.1 (.inl he))))

variable (he0 : eSt (sttEntry s (keyCluster s.core) k) ≠ 0) (he3 : eSt (sttEntry s (keyCluster s.core) k) ≠ 3)
include he0 he3

/-- A page of another ASID is a fault (06/R151). -/
theorem page_foreign (hf : eAsid (sttEntry s (keyCluster s.core) k) ≠ t.asid.toNat) :
    exec (.sunmap d p) s = traps s t ⟨cScratch, 1, some x, 0⟩ ∧
    exec (.sprot d p m) s = traps s t ⟨cScratch, 1, some x, 0⟩ := by
  have names := namesOk_one (regLoc_of_holds hx)
  have mapped := not_or.2 ⟨he0, he3⟩
  have other : foreign t (sttEntry s (keyCluster s.core) k) = true := by simpa [foreign] using hf
  refine ⟨?_, ?_⟩
  · show execSunmap d p s = _
    exact issue_traps ha _ _ _ names ((page_opened _ hk hw hu hx).trans ((if_neg mapped).trans (if_pos other)))
  · show execSprot d p m s = _
    exact issue_traps ha _ _ _ names ((page_opened _ hk hw hu hx).trans ((if_neg mapped).trans (if_pos other)))

variable (hf : eAsid (sttEntry s (keyCluster s.core) k) = t.asid.toNat)
include hf

omit ha hk hw hu hx he0 he3 in
theorem not_foreign : ¬ foreign t (sttEntry s (keyCluster s.core) k) = true := by simp [foreign, hf]

theorem execSunmap_ends : exec (.sunmap d p) s = endsWith s t (unmapPage s (keyCluster s.core) k) (writeP t p true) := by
  show execSunmap d p s = _
  exact issue_acts_own ha _ _ (namesOk_one (regLoc_of_holds hx))
    ((page_opened _ hk hw hu hx).trans ((if_neg (not_or.2 ⟨he0, he3⟩)).trans (if_neg (not_foreign hf))))

theorem execSprot_unpinned (hm : m ≠ 2) : exec (.sprot d p m) s =
    endsWith s t (protectPage s (keyCluster s.core) k m.toNat) (writeP t p true) := by
  show execSprot d p m s = _
  exact issue_acts_own ha _ _ (namesOk_one (regLoc_of_holds hx)) ((page_opened _ hk hw hu hx).trans
    ((if_neg (not_or.2 ⟨he0, he3⟩)).trans ((if_neg (not_foreign hf)).trans
      ((if_neg fun h => hm h.1).trans (if_neg fun h => hm h.1)))))

theorem execSprot_held (hm : m = 2) (hp : eProt (sttEntry s (keyCluster s.core) k) ≠ 2)
    (hb : 4096 ≤ heldBack (s.cluster (keyCluster s.core))) : exec (.sprot d p m) s = ends s t (writeP t p false) := by
  show execSprot d p m s = _
  exact issue_acts_own ha _ _ (namesOk_one (regLoc_of_holds hx)) ((page_opened _ hk hw hu hx).trans
    ((if_neg (not_or.2 ⟨he0, he3⟩)).trans ((if_neg (not_foreign hf)).trans (if_pos ⟨hm, hp, hb⟩))))

variable (hb : eProt (sttEntry s (keyCluster s.core) k) = 2 ∨ heldBack (s.cluster (keyCluster s.core)) < 4096)
include hb

omit ha hk hw hu hx he0 he3 hf in
theorem not_held : ¬ (m = 2 ∧ eProt (sttEntry s (keyCluster s.core) k) ≠ 2 ∧
    4096 ≤ heldBack (s.cluster (keyCluster s.core))) := by
  rintro ⟨-, hp, hh⟩
  exact hb.elim hp (Nat.not_lt.2 hh)

theorem execSprot_pins (hm : m = 2) (h2 : eSt (sttEntry s (keyCluster s.core) k) ≠ 2) : exec (.sprot d p m) s =
    endsWith s t (protectPage s (keyCluster s.core) k 2) (writeP t p true) := by
  subst hm
  show execSprot d p 2 s = _
  exact issue_acts_own ha _ _ (namesOk_one (regLoc_of_holds hx)) ((page_opened _ hk hw hu hx).trans
    ((if_neg (not_or.2 ⟨he0, he3⟩)).trans ((if_neg (not_foreign hf)).trans
      ((if_neg (not_held 2 hb)).trans (if_neg fun h => h2 h.2)))))

theorem execSprot_asks (hm : m = 2) (h2 : eSt (sttEntry s (keyCluster s.core) k) = 2) : exec (.sprot d p m) s =
    endsWith s t (wantPage s (keyCluster s.core) k (keyCore s.core)) (writeP t p false) := by
  show execSprot d p m s = _
  exact issue_acts_own ha _ _ (namesOk_one (regLoc_of_holds hx)) ((page_opened _ hk hw hu hx).trans
    ((if_neg (not_or.2 ⟨he0, he3⟩)).trans ((if_neg (not_foreign hf)).trans
      ((if_neg (not_held m hb)).trans (if_pos ⟨hm, h2⟩)))))

omit hb

omit he0 he3 hf in
theorem execSevict_pinned (hp : eProt (sttEntry s (keyCluster s.core) k) = 2) :
    exec (.sevict d p) s = ends s t (writeP t p false) := by
  show execSevict d p s = _
  exact issue_acts_own ha _ _ (namesOk_one (regLoc_of_holds hx)) ((page_opened _ hk hw hu hx).trans (if_pos (.inr (.inr hp))))

theorem execSevict_ends (hp : eProt (sttEntry s (keyCluster s.core) k) ≠ 2) : exec (.sevict d p) s =
    endsWith s t (if eSt (sttEntry s (keyCluster s.core) k) = 1 then beginPageOut s (keyCluster s.core) k else s)
      (writeP t p true) := by
  show execSevict d p s = _
  exact issue_acts_own ha _ _ (namesOk_one (regLoc_of_holds hx)) ((page_opened _ hk hw hu hx).trans
    ((if_neg (not_or.2 ⟨he0, not_or.2 ⟨he3, hp⟩⟩)).trans (if_neg (not_foreign hf))))

theorem execSmig_ends {f : Nat} (hn : Reads t a n) (h48 : n.toNat < 48)
    (hff : freeOfCore (s.cluster (keyCluster s.core)) n.toNat = some f) : exec (.smig d a p) s = endsWith s t
      (if eSt (sttEntry s (keyCluster s.core) k) = 2 then beginPageIn s (keyCluster s.core) k f
        else if eFrame (sttEntry s (keyCluster s.core) k) / 128 = n.toNat then s
        else beginReloc s (keyCluster s.core) k f) (writeP t p true) := by
  show execSmig d a p s = _
  refine issue_acts_own ha _ _ (names_of hn hx) ?_
  rw [hn.readSrc_eq, ok_bind, hx.readField_eq, ok_bind, pageWord_ok hk hw, ok_bind, if_neg (Nat.not_le.2 h48),
    openPage_user hk hw hu, ok_bind]
  refine (if_neg (not_or.2 ⟨he0, he3⟩)).trans ((if_neg (not_foreign hf)).trans ?_)
  rw [hff]
  rfl

end OnePage

theorem execSquery_ends (ha : Acts s t) (hk : k = bits x.toNat 31 11) (hw : bits x.toNat 63 32 = 0) (hx : Reads t a x)
    (hr : Ready t d) : exec (.squery d a) s =
      ends s t (writeR t d (queryWord t (sttEntry s (keyCluster s.core) k))) := by
  show execSquery d a s = _
  exact issueOwn_acts ha _ _ (namesReady hx hr) (by simp [hx.readSrc_eq, pageWord_ok hk hw, hr])

theorem execSfix_ends (ha : Acts s t) (hk : k = bits x.toNat 31 11) (hw : bits x.toNat 63 32 = 0) (hx : Reads t a x) :
    exec (.sfix a) s = endsIn s t (s.updCluster (keyCluster s.core) fun y => { y with
      casts := tabMap (wakeCast k t.asid) y.casts, queues := tabMap (wakeQueue k t.asid) y.queues }) := by
  show execSfix a s = _
  exact issue_acts ha _ _ (namesOk_one (regLoc_of_reads hx)) (by simp [hx.readSrc_eq, pageWord_ok hk hw])

end Instructions

/-! ## What `sfix` wakes (06/R153) -/

/-- A table of which every entry is changed, at an index that holds one or none. -/
theorem tabGet_tabMap {α : Type} (f : α → α) (t : Tab α) (k : Nat) (d : α) (hd : f d = d) :
    tabGet (tabMap f t) k d = f (tabGet t k d) := by
  simp only [tabGet, tabMap]
  induction t with
  | nil => exact hd.symm
  | cons e r ih =>
    obtain ⟨j, v⟩ := e
    simp only [List.map_cons, tabFind]
    split
    · rfl
    · split
      · exact hd.symm
      · exact ih

section Wake

variable (s : State) (c k : Nat) (asid : BitVec 14)

/-- What `sfix` of a page leaves of its cluster. -/
def woken : State := s.updCluster c fun y => { y with
  casts := tabMap (wakeCast k asid) y.casts, queues := tabMap (wakeQueue k asid) y.queues }

theorem squeue_woken (i j : Nat) : (woken s c k asid).squeue c i j = wakeQueue k asid (s.squeue c i j) := by
  simp only [State.squeue, woken, State.cluster_updCluster]
  exact tabGet_tabMap _ _ _ _ (by simp [wakeQueue])

theorem castSlot_woken {cid : Nat} (h : cid / 256 = c) : castSlot (woken s c k asid) cid = wakeCast k asid (castSlot s cid) := by
  subst h
  simp only [castSlot, woken, State.cluster_updCluster]
  exact tabGet_tabMap _ _ _ _ (by simp [wakeCast])

/-- A casting of another ASID is left, and every node of one of the ASID tries the page again. -/
theorem live_wakeCast {x : CastSlot} {y : CastLive} (h : x.live = some y) : ∃ y', (wakeCast k asid x).live = some y' ∧
    (y.asid ≠ asid → y' = y) ∧ (y.asid = asid → ∀ n, nodeOf y' n = wakeNode k (nodeOf y n)) := by
  by_cases ha : y.asid = asid
  · exact ⟨{ y with nodes := tabMap (wakeNode k) y.nodes }, by simp [wakeCast, h, ha], fun hn => absurd ha hn,
      fun _ n => tabGet_tabMap _ _ _ _ (by simp [wakeNode])⟩
  · exact ⟨y, by simp [wakeCast, h, ha], fun _ => rfl, fun hn => absurd hn ha⟩

end Wake

/-- Settles O29: the cases of each instruction's page, and what `sfix` wakes. -/
theorem scratchInstructions : Obligations.ScratchInstructions := by
  unfold Obligations.ScratchInstructions
  intro s t d a p m n x k ha c e me pages hk hw hu
  refine ⟨fun hn hx h0 hr => execSmap_ends p ha hk hw hu hn hx h0 hr, fun hx => ⟨fun he => page_refused p m ha hk hw hu hx he,
    fun h0 h3 hf => page_foreign p m ha hk hw hu hx h0 h3 hf, fun h0 h3 hf => ⟨execSunmap_ends p ha hk hw hu hx h0 h3 hf,
      fun h2 _ => execSprot_unpinned p m ha hk hw hu hx h0 h3 hf h2,
      fun h2 hp hb => execSprot_held p m ha hk hw hu hx h0 h3 hf h2 hp hb,
      fun h2 hb hs => execSprot_pins p m ha hk hw hu hx h0 h3 hf hb h2 hs,
      fun h2 hb hs => ⟨execSprot_asks p m ha hk hw hu hx h0 h3 hf hb h2 hs, wants_wantPage s c k me⟩,
      fun hm _ => eProt_protectPage hm.1 c k m.isLt, fun hp => execSevict_pinned p ha hk hw hu hx hp,
      fun hp => execSevict_ends p ha hk hw hu hx h0 h3 hf hp,
      fun f hn h48 hff => execSmig_ends p ha hk hw hu hx h0 h3 hf hn h48 hff⟩⟩,
    fun hx hr => ?query, fun hx => ⟨_, execSfix_ends ha hk hw hx, rfl, rfl, rfl, fun i j => ?queue, fun i y hy => ?cast⟩⟩
  case query =>
    refine (execSquery_ends ha hk hw hx hr).trans ?_
    simp only [queryWord, foreign, decide_eq_true_eq]
    rfl
  case queue =>
    have woke := squeue_woken s c k t.asid i j
    refine ⟨fun h1 h2 h3 => woke.trans (if_pos ⟨h1, h2, h3⟩), fun h => woke.trans (if_neg ?_)⟩
    rintro ⟨h1, h2, h3⟩
    exact h.elim (absurd h1) fun h => h.elim (absurd h2) (absurd h3)
  case cast =>
    obtain ⟨y', hy', hother, hown⟩ := live_wakeCast k t.asid hy
    refine ⟨y', ?_, hother, fun h n => (hown h n).trans rfl⟩
    rw [← hy']
    exact congrArg CastSlot.live (castSlot_woken s c k t.asid (by omega))

end Sys2Proof.Proofs.Scratch
end


section
/-! PROOFS. Curd instructions and the counts of a share (07/R155-R180). -/

namespace Sys2Proof.Proofs.Curds

open Sys2Proof Sys2Proof.Machine Sys2Proof.Proofs.Running Sys2Proof.Proofs.RegisterFile Sys2Proof.Proofs.Registers
open Sys2Proof.Proofs.Channels Sys2Proof.Proofs.Shares

/-! ## The instructions (07/R173-R180) -/

section Instructions

variable {s : State} {t : Thread} {d : Reg} {a b : Src} {p : BitVec 3} {part : BitVec 4} {f : BitVec 3} {g : BitVec 4}
  {z : BitVec 2} {n : BitVec 12} {x o : Word} {i : Nat} {k : CurdLive}

/-- What `calloc` leaves of the state and of its thread, by how its request stands (07/R163, R174). -/
def callocEnd (s : State) (t : Thread) (d : Reg) (p : BitVec 3) (part : BitVec 4) (x : Word) : Grant → State × Thread
  | .granted i =>
    let r := allocCurd s (keyCluster s.core) (keyCore s.core) i part.toNat (bits x.toNat 16 12 + 1) (bits x.toNat 11 0)
      (bit x.toNat 17) t.ref.l t.ref none false
    (r.1, writeP (writeR t d (BitVec.ofNat 64 r.2)) p true)
  | .short k => (startPageOuts s (keyCluster s.core) k, writeP t p false)
  | .refused => (s, writeP t p false)

theorem execCalloc_ends {r : Grant} (ha : Acts s t) (hx : Reads t a x) (hr : Ready t d) (h63 : bits x.toNat 63 18 = 0)
    (h11 : bits x.toNat 11 0 ≠ 0) (hp : partFor s (keyCluster s.core) part.toNat t.asid = true)
    (hg : testGrant s (keyCluster s.core) part.toNat (bits x.toNat 16 12 + 1) false = r) :
    exec (.calloc d a p part) s = endsWith s t (callocEnd s t d p part x r).1 (callocEnd s t d p part x r).2 := by
  have wellFormed : ¬ (bits x.toNat 63 18 ≠ 0 ∨ bits x.toNat 11 0 = 0) := not_or.2 ⟨not_not.2 h63, h11⟩
  show execCalloc d a p part s = _
  refine issue_acts_own ha _ _ (namesReady hx hr) ?_
  rw [hx.readSrc_eq, ok_bind, if_neg wellFormed, hp, if_neg (by decide), hr.destReady_eq, ok_bind, hg]
  cases r <;> rfl

/-! The instructions on an open curd. -/

section OnCurd

variable (ha : Acts s t) (hx : Reads t a x) (ho : openCurd s s.core t x = .ok (i, k))
include ha hx ho

theorem execCseal_sealed (hs : k.isSealed = true) : exec (.cseal a f g) s = traps s t ⟨cCurd, 5, handleWord x, 0⟩ := by
  show execCseal a f g s = _
  refine issue_traps ha _ _ _ (namesOk_one (regLoc_of_reads hx)) ?_
  rw [hx.readSrc_eq, ok_bind, ho, ok_bind]
  exact if_pos hs

theorem execCseal_waits (hs : k.isSealed = false) (hw : releaseWaits t f g = true) : exec (.cseal a f g) s =
    ends s t (defer t (.seal i (curdSlot s (keyCluster s.core) i).gen)) := by
  show execCseal a f g s = _
  refine issue_acts_own ha _ _ (namesOk_one (regLoc_of_reads hx)) ?_
  rw [hx.readSrc_eq, ok_bind, ho, ok_bind]
  exact (if_neg (by simp [hs])).trans (if_pos hw)

theorem execCseal_seals (hs : k.isSealed = false) (hw : releaseWaits t f g = false) : exec (.cseal a f g) s =
    endsIn s t (sealCurd s (keyCluster s.core) i) := by
  show execCseal a f g s = _
  refine issue_acts ha _ _ (namesOk_one (regLoc_of_reads hx)) ?_
  rw [hx.readSrc_eq, ok_bind, ho, ok_bind]
  exact (if_neg (by simp [hs])).trans (if_neg (by simp [hw]))

theorem execCdrop_ends (hn : n.toNat ≤ k.fin - k.pend) : exec (.cdrop a n) s = endsIn s t
    (settleCurd (updCurd s (keyCluster s.core) i fun k => { k with fin := k.fin - n.toNat }) (keyCluster s.core) i) := by
  show execCdrop a n s = _
  refine issue_acts ha _ _ (namesOk_one (regLoc_of_reads hx)) ?_
  rw [hx.readSrc_eq, ok_bind, ho, ok_bind]
  exact if_neg (Nat.not_lt.2 hn)

theorem execCdrop_traps (hn : k.fin - k.pend < n.toNat) : exec (.cdrop a n) s = traps s t ⟨cCurd, 3, handleWord x, 0⟩ := by
  show execCdrop a n s = _
  refine issue_traps ha _ _ _ (namesOk_one (regLoc_of_reads hx)) ?_
  rw [hx.readSrc_eq, ok_bind, ho, ok_bind]
  exact if_pos hn

theorem execCldR_open (hb : Reads t b o) (hd : ∃ l, regLoc t d = .ok l) (hs : k.isSealed = false) :
    exec (.cldR d a b z) s = traps s t ⟨cCurd, 4, handleWord x, 0⟩ := by
  show execCldR d a b z s = _
  refine issue_traps ha _ _ _ (namesOk_three hd (regLoc_of_reads hx) (regLoc_of_reads hb)) ?_
  rw [hx.readSrc_eq, ok_bind, hb.readSrc_eq, ok_bind, ho, ok_bind]
  exact if_pos (by simp [hs])

theorem execCldR_reads (hb : Reads t b o) (hr : Ready t d) (hroom : HasRoom t) (hs : k.isSealed = true)
    (hm : o.toNat % 2 ^ z.toNat = 0) (hsize : o.toNat + 2 ^ z.toNat ≤ curdSize k) (hshare : i ∈ t.shares ∨ 0 < k.fin - k.pend) :
    exec (.cldR d a b z) s = endsWith s t
      (useBanks (if i ∈ t.shares then s else takeShare s (keyCluster s.core) i) (curdAddr (keyCluster s.core) k o.toNat) (2 ^ z.toNat))
      (produce { t with shares := if i ∈ t.shares then t.shares else t.shares ++ [i] } [d]
        [BitVec.ofNat 64 (leNat (curdBytes s (keyCluster s.core) k o.toNat (2 ^ z.toNat)))] none
        (if badBank s (curdAddr (keyCluster s.core) k o.toNat) (2 ^ z.toNat) then some cData else none)
        (BitVec.ofNat 64 (bits x.toNat 31 0)) d (some (i, t.nfin))) := by
  have inside : ¬ (o.toNat % 2 ^ z.toNat ≠ 0 ∨ curdSize k < o.toNat + 2 ^ z.toNat) :=
    not_or.2 ⟨not_not.2 hm, Nat.not_lt.2 hsize⟩
  have shared : ¬ ((!t.shares.contains i) = true ∧ k.fin - k.pend = 0) := by
    rintro ⟨hc, h0⟩
    rcases hshare with h | h
    · simp [h] at hc
    · omega
  show execCldR d a b z s = _
  refine issue_acts_own ha _ _ (namesOk_three (regLoc_of_ready hr) (regLoc_of_reads hx) (regLoc_of_reads hb)) ?_
  rw [hx.readSrc_eq, ok_bind, hb.readSrc_eq, ok_bind, ho, ok_bind]
  refine (if_neg (by simp [hs])).trans ((if_neg inside).trans ((if_neg shared).trans ?_))
  rw [hr.destReady_eq, ok_bind, producerSlot_of_room hroom, ok_bind]
  simp only [List.contains_iff_mem, pure_eq_ok]

end OnCurd

theorem execCfin_ends (ha : Acts s t) : exec .cfin s = endsIn s t (applyFinals (s.setThread s.core { t with
    shares := [], finals := t.finals ++ t.shares.map (fun i => (i, t.nfin)), nfin := t.nfin + 1 }) s.core t.ref) := by
  show execCfin s = _
  exact issue_acts ha _ _ namesOk_nil rfl

/-- With no read under a share outstanding, every final share of a thread's list is applied at once. -/
theorem applyFinals_noReads {u : Thread} {r : ThreadRef} {k : Nat} (hk : runningKey s r = some k) (ht : s.threadAt k = some u)
    (hu : ∀ q ∈ u.prods, q.under = none) (key : Nat) : applyFinals s key r =
      u.finals.foldl (fun s f => finalShare s (keyCluster key) f.1) (s.setThread k { u with finals := [] }) := by
  have read : readsUnder u = fun _ => false := by
    funext q
    simp only [readsUnder, List.any_eq_false]
    intro r hr
    simp [hu r hr]
  simp only [applyFinals, threadByRef_running hk, ht, updByRef_running hk ht, read, List.filter_false, Bool.not_false,
    List.filter_true]

/-- So `cfin` then makes every share final at once. -/
theorem applyFinals_atOnce (hk : runningKey s t.ref = some s.core) (hf : t.finals = []) (hu : ∀ q ∈ t.prods, q.under = none) :
    applyFinals (s.setThread s.core { t with
      shares := [], finals := t.finals ++ t.shares.map (fun i => (i, t.nfin)), nfin := t.nfin + 1 }) s.core t.ref =
    t.shares.foldl (fun s' i => finalShare s' (keyCluster s.core) i)
      (s.setThread s.core { t with shares := [], nfin := t.nfin + 1 }) := by
  refine (applyFinals_noReads (runningKey_setThread hk ?_) (threadAt_setThread ..) ?_ s.core).trans ?_
  · rfl
  · exact hu
  · rw [setThread_setThread, hf, List.nil_append, List.foldl_map, ← hf]

theorem execCinfo_ends (ha : Acts s t) (hx : Reads t a x) (hr : Ready t d) (hc : chCluster (bits x.toNat 31 0) = keyCluster s.core)
    (hp : partFor s (keyCluster s.core) (chPart (bits x.toNat 31 0)) t.asid = true)
    (hw : currentCurd s (bits x.toNat 31 0) = none ∨ sealWaiting t (chIndex (bits x.toNat 31 0)) = false) :
    exec (.cinfo d a) s = ends s t (writeR t d (infoWord
      ((currentCurd s (bits x.toNat 31 0)).bind (ownView t (chIndex (bits x.toNat 31 0)))))) := by
  have passed : ¬ ((currentCurd s (bits x.toNat 31 0)).isSome && sealWaiting t (chIndex (bits x.toNat 31 0))) = true := by
    rcases hw with h | h <;> simp [h]
  show execCinfo d a s = _
  refine issueOwn_acts ha _ _ (namesReady hx hr) ?_
  rw [hx.readSrc_eq, ok_bind, if_neg (not_not.2 hc), if_neg (by simp [hp]), if_neg passed, writeDest_ready hr]

theorem execCpart_unprivileged (ha : Acts s t) (hl : ∃ l, regLoc t a.reg = .ok l) (hp : t.priv = false) :
    exec (.cpart a part) s = traps s t ⟨cPriv, 0, none, 0⟩ := by
  show execCpart a part s = _
  exact issue_traps ha _ _ _ (namesOk_one hl) (by simp [hp, trapWith])

theorem execCpart_ends (ha : Acts s t) (hx : Reads t a x) (hp : t.priv = true) (hb : partBad x.toNat = false)
    (hk : partBreaks s (keyCluster s.core) part.toNat x.toNat = false) : exec (.cpart a part) s =
      endsIn s t (s.updCluster (keyCluster s.core) fun y => { y with parts := tabPut y.parts part.toNat ⟨x⟩ }) := by
  show execCpart a part s = _
  exact issue_acts ha _ _ (namesOk_one (regLoc_of_reads hx)) (by simp [hp, hx.readSrc_eq, hb, hk])

end Instructions

/-! ## The counts of a share (07/R165-R168) -/

section Counts

variable (s : State) (c i : Nat)

@[simp] theorem curdSlot_updCurdSlot (f : CurdSlot → CurdSlot) : curdSlot (updCurdSlot s c i f) c i = f (curdSlot s c i) := by
  simp [curdSlot, updCurdSlot, State.cluster_updCluster, tabUpd, tabGet_tabPut_self]

theorem live_updCurd (f : CurdLive → CurdLive) : (curdSlot (updCurd s c i f) c i).live = (curdSlot s c i).live.map f := by
  simp [updCurd]

theorem settleCurd_stays {k : CurdLive} (h : (curdSlot s c i).live = some k) (hf : 0 < k.fin) (hl : k.leaving = false) :
    settleCurd s c i = s := by
  have : ¬ (k.fin = 0 ∨ k.leaving = true ∧ k.pend = 0) := by simp [hl]; omega
  simp [settleCurd, h, this]

theorem settleCurd_returns {k : CurdLive} (h : (curdSlot s c i).live = some k) (hf : k.fin = 0) :
    settleCurd s c i = returnCurd s c i := by
  simp [settleCurd, h, hf]

/-- What freeing frames leaves of a cluster's table: none of them, but those of units to be retired (17/R404). -/
def freedFrames (retired : List UnitRef) (c : Nat) (l : List Nat) (t : Tab FrameUse) : Tab FrameUse :=
  l.foldl (fun t f => if retired.contains (.scratchFrame c f) then tabPut t f .retired else tabDel t f) t

theorem cluster_countRetired (n : Nat) : (countRetired s n).cluster c = s.cluster c := rfl

theorem cluster_freeFrame (f : Nat) : (freeFrame s c f).cluster c =
    { s.cluster c with frames := freedFrames s.rel.retired c [f] (s.cluster c).frames } ∧
    (freeFrame s c f).rel = s.rel := by
  simp only [freeFrame, freedFrames, List.foldl_cons, List.foldl_nil]
  split
  · rw [cluster_countRetired, State.cluster_updCluster]
    exact ⟨rfl, rfl⟩
  · rw [State.cluster_updCluster]
    exact ⟨rfl, rfl⟩

theorem cluster_freeFrames (l : List Nat) : (l.foldl (fun s f => freeFrame s c f) s).cluster c =
    { s.cluster c with frames := freedFrames s.rel.retired c l (s.cluster c).frames } := by
  induction l generalizing s with
  | nil => rfl
  | cons f r ih =>
    obtain ⟨hc, hr⟩ := cluster_freeFrame s c f
    rw [List.foldl_cons, ih, hc, hr]
    rfl

theorem cluster_giveBack (k : CurdLive) : ∃ l, (giveBack s k).cluster c = { s.cluster c with casts := l } := by
  have same : s.cluster c = { s.cluster c with casts := (s.cluster c).casts } := rfl
  simp only [giveBack]
  split
  · next r _ _ =>
    split
    · by_cases hc : c = r.cid / 256
      · subst hc
        exact ⟨_, State.cluster_updCluster ..⟩
      · exact ⟨_, (State.cluster_updCluster_ne _ _ _ _ hc).trans same⟩
    · exact ⟨_, same⟩
  · exact ⟨_, same⟩

/-- What the return of a curd leaves of its cluster. -/
theorem cluster_returnCurd {k : CurdLive} (h : (curdSlot s c i).live = some k) : ∃ l x, (returnCurd s c i).cluster c =
    { s.cluster c with frames := freedFrames s.rel.retired c k.frames (s.cluster c).frames, casts := l, curds := x } ∧
    tabGet x i {} = { gen := nextGen (curdSlot s c i).gen, live := none, readers := []
                      past := (tabGet x i {}).past } := by
  obtain ⟨l, hl⟩ := cluster_giveBack (updCurdSlot (k.frames.foldl (fun s f => freeFrame s c f) s) c i fun x => {
      gen := nextGen x.gen, live := none, readers := []
      past := if k.fin = 0 then tabPut x.past x.gen x.readers else tabDel x.past x.gen }) c k
  refine ⟨l, ?_, ?_, ?_⟩
  rotate_left 1
  · simp only [returnCurd, h]
    rw [hl, updCurdSlot, State.cluster_updCluster, cluster_freeFrames]
  · simp only [tabUpd, tabGet_tabPut_self]
    rfl

end Counts

/-! ### Tables whose keys rise -/

section Keys

variable {α : Type} {t : Tab α} {k j : Nat}

/-- The keys of a table rise, so that it lists each once. -/
def Rising (t : Tab α) : Prop := (t.map (·.1)).Pairwise (· < ·)

theorem rising_cons {e : Nat × α} : Rising (e :: t) ↔ (∀ x ∈ t, e.1 < x.1) ∧ Rising t := by
  simp [Rising, List.pairwise_cons]

theorem tabFind_below (h : ∀ x ∈ t, k < x.1) : tabFind t k = none := by
  cases t with
  | nil => rfl
  | cons e r =>
    have hk : k < e.1 := h e (List.mem_cons_self ..)
    simp [tabFind, hk, Nat.ne_of_gt hk]

theorem mem_tabDel {e : Nat × α} (h : e ∈ tabDel t k) : e ∈ t := by
  induction t with
  | nil => exact h
  | cons y r ih =>
    obtain ⟨i, w⟩ := y
    simp only [tabDel] at h
    split at h
    · exact List.mem_cons_of_mem _ h
    · split at h
      · exact h
      · rcases List.mem_cons.1 h with rfl | h
        · exact List.mem_cons_self ..
        · exact List.mem_cons_of_mem _ (ih h)

theorem rising_tabDel (h : Rising t) (k : Nat) : Rising (tabDel t k) := by
  induction t with
  | nil => exact h
  | cons y r ih =>
    obtain ⟨i, w⟩ := y
    obtain ⟨hlt, hr⟩ := rising_cons.1 h
    simp only [tabDel]
    split
    · exact hr
    · split
      · exact h
      · exact rising_cons.2 ⟨fun x hx => hlt x (mem_tabDel hx), ih hr⟩

theorem key_tabPut {e : Nat × α} {v : α} (h : e ∈ tabPut t k v) : e ∈ t ∨ e.1 = k := by
  induction t with
  | nil => exact .inr (by simp_all [tabPut])
  | cons y r ih =>
    obtain ⟨i, w⟩ := y
    simp only [tabPut] at h
    split at h
    · rcases List.mem_cons.1 h with rfl | h
      · exact .inr rfl
      · exact .inl (List.mem_cons_of_mem _ h)
    · split at h
      · rcases List.mem_cons.1 h with rfl | h
        · exact .inr rfl
        · exact .inl h
      · rcases List.mem_cons.1 h with rfl | h
        · exact .inl (List.mem_cons_self ..)
        · exact (ih h).imp_left (List.mem_cons_of_mem _)

theorem rising_tabPut (h : Rising t) (k : Nat) (v : α) : Rising (tabPut t k v) := by
  induction t with
  | nil => exact List.pairwise_singleton ..
  | cons y r ih =>
    obtain ⟨i, w⟩ := y
    obtain ⟨hlt, hr⟩ := rising_cons.1 h
    simp only [tabPut]
    split
    · next hi => exact rising_cons.2 ⟨fun x hx => hi ▸ hlt x hx, hr⟩
    · next hi =>
      split
      · next hk =>
        refine rising_cons.2 ⟨fun x hx => ?_, h⟩
        rcases List.mem_cons.1 hx with rfl | hx
        · exact hk
        · exact Nat.lt_trans hk (hlt x hx)
      · next hk =>
        refine rising_cons.2 ⟨fun x hx => ?_, ih hr⟩
        rcases key_tabPut hx with hx | hx
        · exact hlt x hx
        · show i < x.1
          omega

theorem tabFind_tabDel_self (h : Rising t) (k : Nat) : tabFind (tabDel t k) k = none := by
  induction t with
  | nil => rfl
  | cons y r ih =>
    obtain ⟨i, w⟩ := y
    obtain ⟨hlt, hr⟩ := rising_cons.1 h
    simp only [tabDel]
    split
    · next hi => exact tabFind_below fun x hx => hi ▸ hlt x hx
    · next hi =>
      split
      · next hk => simp [tabFind, hi, hk]
      · next hk => simp [tabFind, hi, hk, ih hr]

theorem tabFind_tabDel_none (h : Rising t) (hn : tabFind t k = none) (j : Nat) : tabFind (tabDel t j) k = none := by
  induction t with
  | nil => rfl
  | cons y r ih =>
    obtain ⟨i, w⟩ := y
    obtain ⟨hlt, hr⟩ := rising_cons.1 h
    simp only [tabFind] at hn
    split at hn
    · cases hn
    · next hik =>
      simp only [tabDel]
      split
      · split at hn
        · next hki => exact tabFind_below fun x hx => Nat.lt_trans hki (hlt x hx)
        · exact hn
      · split
        · simp only [tabFind, hik, if_false]
          exact hn
        · simp only [tabFind, hik, if_false]
          split
          · rfl
          · next hki =>
            rw [if_neg hki] at hn
            exact ih hr hn

end Keys

section Freed

variable {retired : List UnitRef} {c f : Nat} {t : Tab FrameUse}

/-- A frame that is free and not to be retired stays free. -/
theorem freedFrames_none (l : List Nat) (h : Rising t) (hf : UnitRef.scratchFrame c f ∉ retired) (hn : tabFind t f = none) :
    tabFind (freedFrames retired c l t) f = none := by
  induction l generalizing t with
  | nil => exact hn
  | cons g r ih =>
    rw [freedFrames, List.foldl_cons]
    split
    · next hg =>
      have other : f ≠ g := fun e => hf (e ▸ List.contains_iff_mem.1 hg)
      exact ih (rising_tabPut h ..) ((tabFind_tabPut_ne _ _ _ _ other).trans hn)
    · exact ih (rising_tabDel h _) (tabFind_tabDel_none h hn _)

/-- A frame that is freed, and not to be retired, is free. -/
theorem freedFrames_free {l : List Nat} (h : Rising t) (hf : UnitRef.scratchFrame c f ∉ retired) (hm : f ∈ l) :
    tabFind (freedFrames retired c l t) f = none := by
  induction l generalizing t with
  | nil => cases hm
  | cons g r ih =>
    rcases List.mem_cons.1 hm with rfl | hm
    · rw [freedFrames, List.foldl_cons, if_neg (by simpa using hf)]
      exact freedFrames_none r (rising_tabDel h _) hf (tabFind_tabDel_self h _)
    · rw [freedFrames, List.foldl_cons]
      split
      · exact ih (rising_tabPut h ..) hm
      · exact ih (rising_tabDel h _) hm

end Freed

section Shares

variable {s : State} {c i : Nat} {k : CurdLive}

theorem takeShare_pends (h : (curdSlot s c i).live = some k) :
    (curdSlot (takeShare s c i) c i).live = some { k with pend := k.pend + 1 } := by
  rw [takeShare, live_updCurd, h]
  rfl

/-- A change of the counts of a curd that stays. -/
theorem settleCurd_updCurd {f : CurdLive → CurdLive} (h : (curdSlot s c i).live = some k) (hf : 0 < (f k).fin)
    (hl : (f k).leaving = false) : (curdSlot (settleCurd (updCurd s c i f) c i) c i).live = some (f k) := by
  have live : (curdSlot (updCurd s c i f) c i).live = some (f k) := by rw [live_updCurd, h]; rfl
  rw [settleCurd_stays _ _ _ live hf hl, live]

theorem nextGen_pos (g : Nat) : nextGen g ≠ 0 := by
  rw [nextGen]
  split <;> omega

/-- The last final share returns the curd. -/
theorem finalShare_last (hr : Rising (s.cluster c).frames) (h : (curdSlot s c i).live = some k) (hf : k.fin = 1) :
    (curdSlot (finalShare s c i) c i).live = none ∧ (curdSlot (finalShare s c i) c i).gen = nextGen (curdSlot s c i).gen ∧
    ∀ f ∈ k.frames, UnitRef.scratchFrame c f ∉ s.rel.retired → tabFind ((finalShare s c i).cluster c).frames f = none := by
  have live : (curdSlot (updCurd s c i fun k => { k with pend := k.pend - 1, fin := k.fin - 1 }) c i).live =
      some { k with pend := k.pend - 1, fin := k.fin - 1 } := by
    rw [live_updCurd, h]
    rfl
  have gen : (curdSlot (updCurd s c i fun k => { k with pend := k.pend - 1, fin := k.fin - 1 }) c i).gen = (curdSlot s c i).gen := by
    rw [updCurd, curdSlot_updCurdSlot]
  have frames : ((updCurd s c i fun k => { k with pend := k.pend - 1, fin := k.fin - 1 }).cluster c).frames =
      (s.cluster c).frames := by
    rw [updCurd, updCurdSlot, State.cluster_updCluster]
  obtain ⟨l, x, hc, hx⟩ := cluster_returnCurd _ c i live
  have slot : curdSlot (finalShare s c i) c i = tabGet x i {} := by
    rw [finalShare, settleCurd_returns _ _ _ live (by simp [hf]), curdSlot, hc]
  refine ⟨by rw [slot, hx], by rw [slot, hx, gen], fun f hm hret => ?_⟩
  rw [finalShare, settleCurd_returns _ _ _ live (by simp [hf]), hc, frames]
  exact freedFrames_free hr hret hm

end Shares

/-- Settles O30: each instruction after the opening of its curd, and what a share's counts come to. -/
theorem curdInstructions : Obligations.CurdInstructions := by
  unfold Obligations.CurdInstructions
  refine ⟨fun s t d a b p part f g z n x o i k ha => ⟨fun hx hr h63 h11 hp => ⟨fun hg => execCalloc_ends ha hx hr h63 h11 hp hg,
      fun hg => execCalloc_ends ha hx hr h63 h11 hp hg, fun m hg => execCalloc_ends ha hx hr h63 h11 hp hg⟩,
    fun hx ho => ⟨fun hs hw => execCseal_seals ha hx ho hs ?free, fun hs h6 h3 hw => execCseal_waits ha hx ho hs ?waits,
      fun hs => execCseal_sealed ha hx ho hs, fun hn => execCdrop_ends ha hx ho hn, fun hn => execCdrop_traps ha hx ho hn,
      fun hb hr hroom hs hm hsize hshare => execCldR_reads ha hx ho hb hr hroom hs hm hsize hshare,
      fun hb hd hs => execCldR_open ha hx ho hb hd hs⟩,
    execCfin_ends ha, fun hk hf hu => (execCfin_ends ha).trans (congrArg _ (applyFinals_atOnce hk hf hu)),
    fun hx hr hc hp hw => execCinfo_ends ha hx hr hc hp hw, fun hl hp => execCpart_unprivileged ha hl hp,
    fun hx hp hb hk => execCpart_ends ha hx hp hb hk⟩, fun s c i k hr h hl => ⟨takeShare_pends h,
    fun hf => settleCurd_updCurd h hf hl, fun hf => settleCurd_updCurd h (Nat.sub_pos_of_lt hf) hl, fun hf => ?last⟩⟩
  case free => simpa [releaseWaits] using hw
  case waits => simp [releaseWaits, h6, h3, hw]
  case last =>
    obtain ⟨hlive, hgen, hframes⟩ := finalShare_last hr h hf
    exact ⟨hlive, hgen, hgen ▸ nextGen_pos _, hframes⟩

end Sys2Proof.Proofs.Curds
end


section
/-! PROOFS. The island instructions of control threads (12/R287, R301-R309). -/

namespace Sys2Proof.Proofs.Islands

open Sys2Proof Sys2Proof.Machine Sys2Proof.Proofs.Running Sys2Proof.Proofs.RegisterFile Sys2Proof.Proofs.Registers
open Sys2Proof.Proofs.Channels

section Instructions

variable {s z : State} {t u : Thread} {d : Reg} {a : Src} {h : BitVec 4} {p i : BitVec 3} {o : BitVec 21} {x w : Word}
  {va : Nat} {b : List Byte} {names : List Reg} {body : Nat → Thread → Except Exc State}

/-! ## Who may issue them (12/R301) -/

theorem issueIsland_owner (ha : Acts s t) (hn : namesOk t names = .ok ())
    (ho : holdsIsland (s.island (keyCluster s.core) i.toNat) t.ref.l = true) (hb : body s.core t = .ok z) :
    issueIsland s i names body = endsIn s t z :=
  issue_acts ha _ _ hn ((if_pos ho).trans hb)

theorem issueIsland_fails (ha : Acts s t) (hn : namesOk t names = .ok ())
    (ho : holdsIsland (s.island (keyCluster s.core) i.toNat) t.ref.l = true) {e : Exn}
    (hb : body s.core t = .error (.trap e none)) : issueIsland s i names body = traps s t e :=
  issue_traps ha _ _ _ hn ((if_pos ho).trans hb)

theorem issueIsland_other (ha : Acts s t) (hn : namesOk t names = .ok ())
    (ho : holdsIsland (s.island (keyCluster s.core) i.toNat) t.ref.l = false) :
    issueIsland s i names body = traps s t ⟨cIsland, 0, none, 0⟩ :=
  issue_traps ha _ _ _ hn (if_neg (by simp [ho]))

/-- What the thread is answered that offers an item to an island's order (11/R282). -/
def offered (s z : State) (t : Thread) (p i : BitVec 3) (it : Item) : Answer :=
  if (z.island (keyCluster s.core) i.toNat).order.length < 8 then
    endsIn s t (acceptItem (z.setThread s.core (writeP t p true)) (keyCluster s.core) i.toNat
      (.thread t.ref (keyCore s.core)) it)
  else endsWith s t z (writeP t p false)

theorem endsIn_placeItem (it : Item) : endsIn s t (placeItem z s.core t i p it) = offered s z t p i it := by
  simp only [placeItem, offered, islandRoom, decide_eq_true_eq]
  split
  · rfl
  · exact endsIn_eq ..

/-! ## The instructions -/

section Owner

variable (ha : Acts s t) (ho : holdsIsland (s.island (keyCluster s.core) i.toNat) t.ref.l = true)
include ha ho

theorem execMxUnpin_offers : exec (.mxUnpin p i) s = offered s s t p i .unpin := by
  show execMxUnpin p i s = _
  exact (issueIsland_owner ha namesOk_nil ho rfl).trans (endsIn_placeItem _)

theorem execMxRlbl_ends : exec (.mxRlbl i o) s = endsIn s t
    (s.updIsland (keyCluster s.core) i.toNat fun z => { z with rlbl := some (branchTarget t.pc o, t.ref) }) := by
  show execMxRlbl i o s = _
  exact issueIsland_owner ha namesOk_nil ho rfl

theorem execMxDrain_ends : exec (.mxDrain p i) s = endsWith s t (clearHalt s (keyCluster s.core) i.toNat) (writeP t p
    (((clearHalt s (keyCluster s.core) i.toNat).island (keyCluster s.core) i.toNat).order.isEmpty &&
      ((clearHalt s (keyCluster s.core) i.toNat).island (keyCluster s.core) i.toNat).link.isEmpty)) := by
  show execMxDrain p i s = _
  exact (issueIsland_owner ha namesOk_nil ho rfl).trans (endsIn_eq ..)

theorem execMxScale_offers (hx : Reads t a x) (hc : checkHandle (readH t h) x.toInt 128 rR t.asid = .ok va)
    (hr : readIssue s (threadAgent s.core t) va 128 = .ok (b, z)) : exec (.mxScale a h p i) s = offered s z t p i (.scale b) := by
  show execMxScale a h p i s = _
  refine (issueIsland_owner ha (namesOk_one (regLoc_of_reads hx)) ho ?_).trans (endsIn_placeItem _)
  rw [hx.readSrc_eq, ok_bind, hc, liftE_ok, ok_bind, hr, ok_bind]
  rfl

theorem execMxFire_offers (hx : Reads t a x) (hw : Holds t d w) (h63 : bits w.toNat 63 17 = 0) (h32 : bits x.toNat 63 32 = 0)
    (hoff : bits x.toNat 21 0 % 32 = 0) (hrow : bits w.toNat 7 0 + (bits w.toNat 16 9 + 1) ≤ 256)
    (hlen : bits x.toNat 21 0 + (bits w.toNat 16 9 + 1) * acceptedLen (s.island (keyCluster s.core) i.toNat) ≤ 2 ^ 22) :
    exec (.mxFire d a p i) s = offered s s t p i
      (.fire (BitVec.ofNat 32 x.toNat) (BitVec.ofNat 9 (bits w.toNat 8 0)) (bits w.toNat 16 9 + 1) 0) := by
  show execMxFire d a p i s = _
  refine (issueIsland_owner ha (names_of hx hw) ho ?_).trans (endsIn_placeItem _)
  rw [hx.readSrc_eq, ok_bind, hw.readField_eq, ok_bind]
  exact if_neg (not_or.2 ⟨not_not.2 h63, not_or.2 ⟨not_not.2 h32, not_or.2 ⟨not_not.2 hoff,
    not_or.2 ⟨Nat.not_lt.2 hrow, Nat.not_lt.2 hlen⟩⟩⟩⟩)

theorem execMxAcc_offers (hx : Reads t a x) (hw : Holds t d w) (h63 : bits x.toNat 63 19 = 0)
    (h32 : bits x.toNat 1 0 = 1 → bits w.toNat 63 32 = 0) (hrow : bits x.toNat 9 2 + (bits x.toNat 18 11 + 1) ≤ 256) :
    exec (.mxAcc d a p i) s = offered s s t p i
      (.acc (bits x.toNat 1 0) (BitVec.ofNat 9 (bits x.toNat 10 2)) (bits x.toNat 18 11 + 1) (BitVec.ofNat 32 w.toNat)) := by
  show execMxAcc d a p i s = _
  refine (issueIsland_owner ha (names_of hx hw) ho ?_).trans (endsIn_placeItem _)
  rw [hx.readSrc_eq, ok_bind, hw.readField_eq, ok_bind]
  exact if_neg (not_or.2 ⟨not_not.2 h63, not_or.2 ⟨fun h => h.2 (h32 h.1), Nat.not_lt.2 hrow⟩⟩)

section Bind

variable (hx : Reads t a x) (hc : checkHandle (readH t h) x.toInt 64 rRX t.asid = .ok va)
  (hr : readIssue s (threadAgent s.core t) va (64 - va % 64) = .ok (b, z))
include hx hc hr

theorem execMxBind_traps (hbad : va % 64 ≠ 0 ∨ tileBad (leNat b) (tileDescOf (readH t h) (leNat b)) = true) :
    exec (.mxBind a h p i) s = traps s t ⟨cDesc, 0, some x, 0⟩ := by
  show execMxBind a h p i s = _
  refine issueIsland_fails ha (namesOk_one (regLoc_of_reads hx)) ho ?_
  rw [hx.readSrc_eq, ok_bind]
  dsimp only
  rw [hc, liftE_ok, ok_bind, hr, ok_bind, BitVec.ofInt_toInt]
  exact if_pos hbad

variable (h64 : va % 64 = 0) (hok : tileBad (leNat b) (tileDescOf (readH t h) (leNat b)) = false)
  (hm : ∃ l, mapE (fun (r : Nat × Nat) => checkHandle (readH t h) r.1 r.2 rRX t.asid)
    (tileRanges (tileDescOf (readH t h) (leNat b))) = .ok l)
include h64 hok hm

theorem execMxBind_full (hf : bindPending (z.island (keyCluster s.core) i.toNat) = true ∨
      8 ≤ (z.island (keyCluster s.core) i.toNat).order.length) : exec (.mxBind a h p i) s = endsWith s t z (writeP t p false) := by
  obtain ⟨l, hl⟩ := hm
  show execMxBind a h p i s = _
  refine (issueIsland_owner ha (namesOk_one (regLoc_of_reads hx)) ho ?_).trans (endsIn_eq ..)
  rw [hx.readSrc_eq, ok_bind]
  dsimp only
  rw [hc, liftE_ok, ok_bind, hr, ok_bind]
  refine (if_neg (not_or.2 ⟨not_not.2 h64, by simp [hok]⟩)).trans ?_
  rw [hl, liftE_ok, ok_bind]
  exact if_pos (hf.imp_right fun h => by simpa [islandRoom] using h)

theorem execMxBind_fetches (hb : bindPending (z.island (keyCluster s.core) i.toNat) = false)
    (hroom : (z.island (keyCluster s.core) i.toNat).order.length < 8) : exec (.mxBind a h p i) s = endsIn s t
      (fetchTile (acceptItem (z.setThread s.core (writeP t p true)) (keyCluster s.core) i.toNat (.thread t.ref (keyCore s.core))
        (.bind (tileDescOf (readH t h) (leNat b)))) (keyCluster s.core) i.toNat t.asid (tileDescOf (readH t h) (leNat b))).1 := by
  obtain ⟨l, hl⟩ := hm
  show execMxBind a h p i s = _
  refine issueIsland_owner ha (namesOk_one (regLoc_of_reads hx)) ho ?_
  rw [hx.readSrc_eq, ok_bind]
  dsimp only
  rw [hc, liftE_ok, ok_bind, hr, ok_bind]
  refine (if_neg (not_or.2 ⟨not_not.2 h64, by simp [hok]⟩)).trans ?_
  rw [hl, liftE_ok, ok_bind]
  exact if_neg (not_or.2 ⟨by simp [hb], by simpa [islandRoom] using hroom⟩)

end Bind

end Owner

/-! ## Taking and keeping an island: `mx.mode` (12/R304) -/

section Mode

variable (ha : Acts s t) (hx : Reads t a x)
include ha hx

theorem execMxMode_bad (hm : modeOk x.toNat = false) : exec (.mxMode a p i) s = traps s t ⟨cIsland, 6, none, 0⟩ := by
  show execMxMode a p i s = _
  exact issue_traps ha _ _ _ (namesOk_one (regLoc_of_reads hx)) (by simp [hx.readSrc_eq, hm, trapWith])

theorem execMxMode_claims (hm : modeOk x.toNat = true) :
    exec (.mxMode a p i) s = endsIn s t (claimMode s s.core t p i.toNat x) := by
  show execMxMode a p i s = _
  exact issue_acts ha _ _ (namesOk_one (regLoc_of_reads hx)) (by simp [hx.readSrc_eq, hm])

end Mode

/-- A mode item is accepted; REL leaves the accepted mode as it was. -/
def modeAccepted (s z : State) (t : Thread) (p i : BitVec 3) (x : Word) : State :=
  let y := acceptItem (z.setThread s.core (writeP t p true)) (keyCluster s.core) i.toNat (.thread t.ref (keyCore s.core)) (.mode x)
  if mdRel x.toNat then y else y.updIsland (keyCluster s.core) i.toNat fun q => { q with accepted := some x }

variable (hr : (s.island (keyCluster s.core) i.toNat).order.length < 8)
include hr

theorem claimMode_free (hf : (s.island (keyCluster s.core) i.toNat).hold = .free) (hm : mdRel x.toNat = false) :
    claimMode s s.core t p i.toNat x =
      modeAccepted s (resetIsland s (keyCluster s.core) i.toNat (.held t.ref.l t.ref)) t p i x := by
  simp [claimMode, hf, mayTake, hm, islandRoom, hr, modeAccepted, threadSrc]

omit hr in
theorem claimMode_releasesNone (hf : (s.island (keyCluster s.core) i.toNat).hold = .free) (hm : mdRel x.toNat = true) :
    claimMode s s.core t p i.toNat x = s.setThread s.core (writeP t p false) := by
  simp [claimMode, hf, mayTake, hm]

theorem claimMode_own {by' : ThreadRef} (hf : (s.island (keyCluster s.core) i.toNat).hold = .held t.ref.l by')
    (ht : mayTake s (keyCluster s.core) i.toNat t x.toNat = false) (hp : relPending (s.island (keyCluster s.core) i.toNat) = false) :
    claimMode s s.core t p i.toNat x = modeAccepted s s t p i x := by
  simp [claimMode, hf, ht, hp, islandRoom, hr, modeAccepted, threadSrc]

omit hr in
theorem claimMode_releasing {by' : ThreadRef} (hf : (s.island (keyCluster s.core) i.toNat).hold = .held t.ref.l by')
    (hp : relPending (s.island (keyCluster s.core) i.toNat) = true) :
    claimMode s s.core t p i.toNat x = s.setThread s.core (writeP t p false) := by
  simp [claimMode, hf, hp]

omit hr in
theorem claimMode_other {l : LaunchRef} {by' : ThreadRef} (hf : (s.island (keyCluster s.core) i.toNat).hold = .held l by')
    (hl : l ≠ t.ref.l) (ht : mayTake s (keyCluster s.core) i.toNat t x.toNat = false) :
    claimMode s s.core t p i.toNat x = s.setThread s.core (writeP t p false) := by
  simp [claimMode, hf, hl, ht]

end Instructions

/-- Settles O31: the owner test, each instruction of the owner, and the cases of the island's holder for `mx.mode`. -/
theorem islandInstructions : Obligations.IslandInstructions := by
  unfold Obligations.IslandInstructions
  intro s s' t d a h p i o x w va b ha c isl src offer
  refine ⟨fun ho hla hld => ?other, fun ho => ⟨execMxUnpin_offers ha ho, execMxRlbl_ends ha ho, execMxDrain_ends ha ho,
    fun hx hc hr => execMxScale_offers ha ho hx hc hr,
    fun hx hw h63 h32 hoff hrow hlen => execMxFire_offers ha ho hx hw h63 h32 hoff hrow hlen,
    fun hx hw h63 h32 hrow => execMxAcc_offers ha ho hx hw h63 h32 hrow,
    fun hx hc hr => ⟨fun hbad => execMxBind_traps ha ho hx hc hr hbad,
      fun h64 hok hm => ⟨fun hf => execMxBind_full ha ho hx hc hr h64 hok hm hf,
        fun hb hroom => execMxBind_fetches ha ho hx hc hr h64 hok hm hb hroom⟩⟩⟩,
    fun hx hm => execMxMode_bad ha hx hm, fun hx hm hr => ?mode⟩
  case other =>
    simp only [List.forall_mem_cons]
    have one := namesOk_one hla
    have two := namesOk_two hld hla
    refine ⟨?_, ?_, ?_, ?_, ?_, ?_, ?_, by simp⟩
    · show execMxBind a h p i s = _
      exact issueIsland_other ha one ho
    · show execMxScale a h p i s = _
      exact issueIsland_other ha one ho
    · show execMxFire d a p i s = _
      exact issueIsland_other ha two ho
    · show execMxAcc d a p i s = _
      exact issueIsland_other ha two ho
    · show execMxRlbl i o s = _
      exact issueIsland_other ha namesOk_nil ho
    · show execMxDrain p i s = _
      exact issueIsland_other ha namesOk_nil ho
    · show execMxUnpin p i s = _
      exact issueIsland_other ha namesOk_nil ho
  case mode =>
    have claims := execMxMode_claims (p := p) (i := i) ha hx hm
    refine ⟨fun hf hrel => ?_, fun hf hrel => ?_, fun by' hf ht => ?_, fun l by' hf hl ht => ?_⟩
    · rw [claims, claimMode_free hr hf hrel]
      rfl
    · rw [claims, claimMode_releasesNone hf hrel]
      exact endsIn_eq ..
    · rw [claims]
      split
      · next hp =>
        rw [claimMode_releasing hf hp]
        exact endsIn_eq ..
      · next hp =>
        rw [claimMode_own hr hf ht (by simpa using hp)]
        rfl
    · rw [claims, claimMode_other hf hl ht]
      exact endsIn_eq ..

end Sys2Proof.Proofs.Islands
end


section
/-! PROOFS. Casting and port instructions (09/R222-R230), and groups of registers (02/R22). -/

namespace Sys2Proof.Proofs.Castings

open Sys2Proof Sys2Proof.Machine Sys2Proof.Proofs.Running Sys2Proof.Proofs.RegisterFile Sys2Proof.Proofs.Registers
open Sys2Proof.Proofs.Channels

/-! ## Groups of registers -/

section Groups

variable {ε α β : Type} {f : α → Except ε β} {l : List α} {t : Thread} {r : Reg} {w : Bool} {n : Nat} {ws : List Word}

theorem mapE_cons (x : α) (l : List α) : mapE f (x :: l) = (f x).bind fun y => (mapE f l).map (y :: ·) := rfl

/-- A list that is gone through has each of its elements answered. -/
theorem ok_of_mapE {ys : List β} (h : mapE f l = .ok ys) : ∀ x ∈ l, ∃ y, f x = .ok y := by
  induction l generalizing ys with
  | nil => simp
  | cons x r ih =>
    rw [mapE_cons] at h
    cases hx : f x with
    | error e => rw [hx] at h; cases h
    | ok y =>
      cases hr : mapE f r with
      | error e => rw [hx, hr] at h; cases h
      | ok zs =>
        intro z hz
        rcases List.mem_cons.1 hz with rfl | hz
        · exact ⟨y, hx⟩
        · exact ih hr z hz

theorem mapE_units {f : α → Except ε Unit} (h : ∀ x ∈ l, f x = .ok ()) : ∃ us, mapE f l = .ok us := by
  induction l with
  | nil => exact ⟨[], rfl⟩
  | cons x r ih =>
    obtain ⟨us, hu⟩ := ih fun y hy => h y (List.mem_cons_of_mem _ hy)
    exact ⟨() :: us, by rw [mapE_cons, h x (List.mem_cons_self ..), hu]; rfl⟩

/-- Every register of a group that is read has a name. -/
theorem regLoc_of_readGroup (h : readGroup t r w n = .ok ws) : ∀ k < n, ∃ l, regLoc t (regAdd r k) = .ok l := fun k hk => by
  obtain ⟨y, hy⟩ := ok_of_mapE h k (List.mem_range.2 hk)
  exact regLoc_of_read hy

theorem regAdd_zero (r : Reg) : regAdd r 0 = r := by simp [regAdd]

end Groups

section Instructions

variable {s z : State} {t : Thread} {d : Reg} {a : Src} {h : BitVec 4} {p : BitVec 3} {n : BitVec 5} {x : Word}
  {m : Image} {cid : Nat} {k : CastLive} {port : BitVec 6} {ws : List Word}

/-! ## Castings (09/R224, R225, R229, R230) -/

theorem execCastLoad_ends {u : State} (ha : Acts s t) (hx : Reads t a x) (hr : Ready t d)
    (hi : readImage s s.core t (readH t h) x.toInt = .ok (m, z)) (hp : placeImage z s.core t d p m = .ok u) :
    exec (.castLoad d a h p) s = endsIn s t u := by
  show execCastLoad d a h p s = _
  refine issue_acts ha _ _ (namesReady hx hr) ?_
  rw [hx.readSrc_eq, ok_bind, hr.destReady_eq, ok_bind, hi, ok_bind]
  exact hp

theorem setPredOf_acting (h : z.threadAt s.core = some t) (v : Bool) :
    setPredOf z s.core p v = z.setThread s.core (writeP t p v) := updThread_eq h _

theorem setPredOf_updCast (ha : Acts s t) (f : CastLive → CastLive) (v : Bool) :
    setPredOf (updCast s cid f) s.core p v = (updCast s cid f).setThread s.core (writeP t p v) :=
  updThread_eq (s := updCast s cid f) ha.1 _

theorem onCast_none {body : Nat → CastLive → Except Exc State} (ha : Acts s t) (hc : namedCast s s.core t x = .ok none) :
    onCast s s.core t x p body = .ok (s.setThread s.core (writeP t p false)) := by
  simp [onCast, hc, setPredOf_acting ha.1]

theorem onCast_some {body : Nat → CastLive → Except Exc State} (hc : namedCast s s.core t x = .ok (some (cid, k))) :
    onCast s s.core t x p body = body cid k := by
  simp [onCast, hc]

theorem cast_gone (ha : Acts s t) (hx : Holds t d x) (hc : namedCast s s.core t x = .ok none) :
    exec (.castBind d h p n) s = ends s t (writeP t p false) ∧ exec (.castKill d p) s = ends s t (writeP t p false) ∧
    exec (.castEnd d p) s = ends s t (writeP t p false) := by
  have names := namesOk_one (regLoc_of_holds hx)
  refine ⟨?_, ?_, ?_⟩
  · show execCastBind d h p n s = _
    refine issue_acts_own ha _ _ names ?_
    rw [hx.readField_eq, ok_bind, onCast_none ha hc]
  · show execCastKill d p s = _
    refine issue_acts_own ha _ _ names ?_
    rw [hx.readField_eq, ok_bind, onCast_none ha hc]
  · show execCastEnd d p s = _
    refine issue_acts_own ha _ _ names ?_
    rw [hx.readField_eq, ok_bind, onCast_none ha hc]

theorem castKill_traps {e : Exn} (ha : Acts s t) (hx : Holds t d x) (hc : namedCast s s.core t x = .error (.trap e none)) :
    exec (.castKill d p) s = traps s t e := by
  show execCastKill d p s = _
  refine issue_traps ha _ _ _ (namesOk_one (regLoc_of_holds hx)) ?_
  rw [hx.readField_eq, ok_bind, onCast, hc]

section Named

variable (ha : Acts s t) (hx : Holds t d x) (hc : namedCast s s.core t x = .ok (some (cid, k)))
include ha hx hc

theorem execCastBind_ends (hn : n.toNat < k.ns) (hv : (readH t h).v = true) (hs : (readH t h).asid = t.asid)
    (hr : (readH t h).rights &&& rX = rX) : exec (.castBind d h p n) s = endsWith s t
      (updCast s cid fun k => { k with binds := tabPut k.binds n.toNat (readH t h) }) (writeP t p true) := by
  show execCastBind d h p n s = _
  refine issue_acts_own ha _ _ (namesOk_one (regLoc_of_holds hx)) ?_
  rw [hx.readField_eq, ok_bind, onCast_some hc]
  refine (if_neg (Nat.not_le.2 hn)).trans ((if_neg (by simp [hv])).trans ((if_neg (not_not.2 hs)).trans
    ((if_neg (not_not.2 hr)).trans ?_)))
  rw [setPredOf_updCast ha]

theorem execCastBind_traps (hn : k.ns ≤ n.toNat) : exec (.castBind d h p n) s = traps s t ⟨cCast, 5, none, 0⟩ := by
  show execCastBind d h p n s = _
  refine issue_traps ha _ _ _ (namesOk_one (regLoc_of_holds hx)) ?_
  rw [hx.readField_eq, ok_bind, onCast_some hc]
  exact if_pos hn

theorem execCastKill_ends : exec (.castKill d p) s =
    endsIn s t (setPredOf (checkComplete (killCasting s cid) k.launch) s.core p true) := by
  show execCastKill d p s = _
  refine issue_acts ha _ _ (namesOk_one (regLoc_of_holds hx)) ?_
  rw [hx.readField_eq, ok_bind, onCast_some hc]

theorem execCastEnd_ends {k' : CastLive}
    (hl : (castSlot (tryRetire (updCast s cid fun k => { k with ending := true }) cid) cid).live = some k') :
    exec (.castEnd d p) s = endsIn s t (if k'.retired then
      setPredOf (dropCast ((tryRetire (updCast s cid fun k => { k with ending := true }) cid).updThread s.core fun t =>
        writeR t d ((castFlags k').zeroExtend 64)) cid k'.launch) s.core p true
      else setPredOf (tryRetire (updCast s cid fun k => { k with ending := true }) cid) s.core p false) := by
  show execCastEnd d p s = _
  refine issue_acts ha _ _ (namesOk_one (regLoc_of_holds hx)) ?_
  rw [hx.readField_eq, ok_bind, onCast_some hc]
  dsimp only
  rw [hl]
  dsimp only
  split <;> rfl

end Named

/-! ## Ports (09/R226-R228) -/

section Ports

variable (ha : Acts s t) (hc : namedCast s s.core t x = .ok (some (cid, k)))
include ha hc

omit ha hc in
theorem bpushNames (hx : Holds t d x) (hg : readGroup t a.reg a.wait 5 = .ok ws) : 
    namesOk t [d, a.reg, regAdd a.reg 1, regAdd a.reg 2, regAdd a.reg 3, regAdd a.reg 4] = .ok () := by
  have group := regLoc_of_readGroup hg
  have first := group 0 (by decide)
  rw [regAdd_zero] at first
  exact namesOk_cons (regLoc_of_holds hx) (namesOk_cons first (namesOk_cons (group 1 (by decide))
    (namesOk_three (group 2 (by decide)) (group 3 (by decide)) (group 4 (by decide)))))

theorem execBpush_traps (hx : Holds t d x) (hg : readGroup t a.reg a.wait 5 = .ok ws) (hn : k.ins.length ≤ port.toNat) :
    exec (.bpush d a port p) s = traps s t ⟨cCast, 3, none, 0⟩ := by
  show execBpush d a port p s = _
  refine issue_traps ha _ _ _ (bpushNames hx hg) ?_
  rw [hg, ok_bind, hx.readField_eq, ok_bind, onCast_some hc]
  exact if_pos hn

theorem execBpush_ends (hx : Holds t d x) (hg : readGroup t a.reg a.wait 5 = .ok ws) (hn : port.toNat < k.ins.length)
    (h32 : bits (ws.getD 4 0).toNat 63 32 = 0) (h7 : bits (billetOf ws).tag.toNat 7 0 = 0)
    (hk : tagKind (billetOf ws).tag = 0 ∨ tagKind (billetOf ws).tag = 2) : exec (.bpush d a port p) s =
      (if portRefuses k port.toNat then ends s t (writeP t p false)
       else endsWith s t (updCast s cid fun k => pushPort k port.toNat (billetOf ws)) (writeP t p true)) := by
  have fits : ¬ (bits (ws.getD 4 0).toNat 63 32 ≠ 0 ∨ bits (billetOf ws).tag.toNat 7 0 ≠ 0 ∨
      (tagKind (billetOf ws).tag ≠ 0 ∧ tagKind (billetOf ws).tag ≠ 2)) :=
    not_or.2 ⟨not_not.2 h32, not_or.2 ⟨not_not.2 h7, fun h => hk.elim h.1 h.2⟩⟩
  show execBpush d a port p s = _
  split
  · next hr =>
    refine issue_acts_own ha _ _ (bpushNames hx hg) ?_
    rw [hg, ok_bind, hx.readField_eq, ok_bind, onCast_some hc]
    refine (if_neg (Nat.not_le.2 hn)).trans ((if_neg fits).trans ((if_pos hr).trans ?_))
    rw [setPredOf_acting ha.1]
  · next hr =>
    refine issue_acts_own ha _ _ (bpushNames hx hg) ?_
    rw [hg, ok_bind, hx.readField_eq, ok_bind, onCast_some hc]
    refine (if_neg (Nat.not_le.2 hn)).trans ((if_neg fits).trans ((if_neg hr).trans ?_))
    rw [setPredOf_updCast ha]

theorem execBmark_traps (hx : Holds t d x) (hn : k.ins.length ≤ port.toNat) :
    exec (.bmark d port p) s = traps s t ⟨cCast, 3, none, 0⟩ := by
  show execBmark d port p s = _
  refine issue_traps ha _ _ _ (namesOk_one (regLoc_of_holds hx)) ?_
  rw [hx.readField_eq, ok_bind, onCast_some hc]
  exact if_pos hn

theorem execBmark_ends (hx : Holds t d x) (hn : port.toNat < k.ins.length) : exec (.bmark d port p) s =
      (if portRefuses k port.toNat then ends s t (writeP t p false)
       else endsWith s t (updCast s cid fun k => pushPort k port.toNat ⟨0, mkTag 0 0 1⟩) (writeP t p true)) := by
  show execBmark d port p s = _
  split
  · next hr =>
    refine issue_acts_own ha _ _ (namesOk_one (regLoc_of_holds hx)) ?_
    rw [hx.readField_eq, ok_bind, onCast_some hc]
    refine (if_neg (Nat.not_le.2 hn)).trans ((if_pos hr).trans ?_)
    rw [setPredOf_acting ha.1]
  · next hr =>
    refine issue_acts_own ha _ _ (namesOk_one (regLoc_of_holds hx)) ?_
    rw [hx.readField_eq, ok_bind, onCast_some hc]
    refine (if_neg (Nat.not_le.2 hn)).trans ((if_neg hr).trans ?_)
    rw [setPredOf_updCast ha]

section Pull

variable (hx : Reads t a x) (hd : ∀ j < 5, Ready t (regAdd d j)) (hn : port.toNat < k.outs.length)
include hx hd hn

omit ha hc hn in
theorem bpullNames : namesOk t (a.reg :: (List.range 5).map (regAdd d)) = .ok () := by
  refine namesOk_cons (regLoc_of_reads hx) (namesOk_of_locs _ fun r hr => ?_)
  obtain ⟨j, hj, rfl⟩ := List.mem_map.1 hr
  exact regLoc_of_ready (hd j (List.mem_range.1 hj))

omit ha hc hx hn in
theorem bpull_ready : ∃ us, mapE (destReady t) ((List.range 5).map (regAdd d)) = .ok us := by
  refine mapE_units fun r hr => ?_
  obtain ⟨j, hj, rfl⟩ := List.mem_map.1 hr
  exact (hd j (List.mem_range.1 hj)).destReady_eq

theorem execBpull_none (ho : offered k port.toNat = none) : exec (.bpull d a port p) s = ends s t (writeP t p false) := by
  obtain ⟨us, hu⟩ := bpull_ready hd
  show execBpull d a port p s = _
  refine issue_acts_own ha _ _ (bpullNames hx hd) ?_
  rw [hx.readSrc_eq, ok_bind, hu, ok_bind, onCast_some hc]
  refine (if_neg (Nat.not_le.2 hn)).trans ?_
  rw [ho, ← setPredOf_acting (p := p) ha.1]

theorem execBpull_takes {b : Billet} (ho : offered k port.toNat = some b) (hroom : HasRoom t) :
    exec (.bpull d a port p) s = endsIn s t (setPredOf ((tryRetire
      (updCast s cid fun k => pullPort k port.toNat (isMarker b)) cid).updThread s.core fun t =>
        produce t ((List.range 5).map (regAdd d)) (wordsOf b) none none 0 d) s.core p true) := by
  obtain ⟨us, hu⟩ := bpull_ready hd
  show execBpull d a port p s = _
  refine issue_acts ha _ _ (bpullNames hx hd) ?_
  rw [hx.readSrc_eq, ok_bind, hu, ok_bind, onCast_some hc]
  refine (if_neg (Nat.not_le.2 hn)).trans ?_
  rw [ho, producerSlot_of_room hroom]

end Pull

end Ports

end Instructions

/-! ## The casting that is placed (09/R224, 16/R380) -/

section Place

variable {s : State} {key : Nat} {t : Thread} {d : Reg} {p : BitVec 3} {m : Image}

theorem placeImage_traps (h : partFor s (keyCluster key) t.part.toNat t.asid = false ∨
    ptMin (partDesc s (keyCluster key) t.part.toNat) < curdDepth m.blocks) :
    placeImage s key t d p m = trapWith cLoad 2 :=
  if_pos (h.imp_left fun h => by simp [h])

variable (hp : partFor s (keyCluster key) t.part.toNat t.asid = true)
  (hd : curdDepth m.blocks ≤ ptMin (partDesc s (keyCluster key) t.part.toNat))
include hp hd

theorem placeImage_refused
    (hr : ptMin (partDesc s (keyCluster key) t.part.toNat) < partDepth (s.cluster (keyCluster key)) t.part.toNat + curdDepth m.blocks ∨
      4096 < heldBack (s.cluster (keyCluster key)) + curdDepth m.blocks ∨
      freeCast s (keyCluster key) = none ∧
        ∃ pages, choosePages s (keyCluster key) (keyCore key) t.cls m.blocks = some pages) :
    placeImage s key t d p m = .ok ((renewDemand s (keyCluster key) t.ref).setThread key (writeP t p false)) := by
  refine (if_neg (not_or.2 ⟨by simp [hp], Nat.not_lt.2 hd⟩)).trans ?_
  by_cases hfull : ptMin (partDesc s (keyCluster key) t.part.toNat) <
      partDepth (s.cluster (keyCluster key)) t.part.toNat + curdDepth m.blocks ∨
      4096 < heldBack (s.cluster (keyCluster key)) + curdDepth m.blocks
  · exact if_pos hfull
  · obtain ⟨hf, pages, hpages⟩ := (or_assoc.2 hr).resolve_left hfull
    rw [if_neg hfull, hpages, hf]

variable (hq : partDepth (s.cluster (keyCluster key)) t.part.toNat + curdDepth m.blocks ≤
    ptMin (partDesc s (keyCluster key) t.part.toNat))
  (hh : heldBack (s.cluster (keyCluster key)) + curdDepth m.blocks ≤ 4096)
include hq hh

theorem placeImage_short (hc : choosePages s (keyCluster key) (keyCore key) t.cls m.blocks = none) :
    placeImage s key t d p m = .ok ((recordDemand s key t m.blocks).setThread key (writeP t p false)) := by
  refine (if_neg (not_or.2 ⟨by simp [hp], Nat.not_lt.2 hd⟩)).trans
    ((if_neg (not_or.2 ⟨Nat.not_lt.2 hq, Nat.not_lt.2 hh⟩)).trans ?_)
  rw [hc]

theorem placeImage_places {i : Nat} {pages : List Nat} (hi : freeCast s (keyCluster key) = some i)
    (hc : choosePages s (keyCluster key) (keyCore key) t.cls m.blocks = some pages) :
    placeImage s key t d p m = .ok ((updCastSlot (meetDemand s (keyCluster key) t.ref) (256 * keyCluster key + i) fun y =>
      { y with live := some (freshCast s key t m pages) }).setThread key (writeP (writeR t d (BitVec.ofNat 64
        (castId (updCastSlot (meetDemand s (keyCluster key) t.ref) (256 * keyCluster key + i) fun y =>
          { y with live := some (freshCast s key t m pages) }) (256 * keyCluster key + i)))) p true)) := by
  refine (if_neg (not_or.2 ⟨by simp [hp], Nat.not_lt.2 hd⟩)).trans
    ((if_neg (not_or.2 ⟨Nat.not_lt.2 hq, Nat.not_lt.2 hh⟩)).trans ?_)
  rw [hc, hi]

end Place

/-- Settles O32: the instructions by their casting's id, and the placement's four ends. -/
theorem castingInstructions : Obligations.CastingInstructions := by
  unfold Obligations.CastingInstructions
  refine ⟨fun s s' s1 t d a h p n x m cid k ha => ⟨fun hx hr hi hp => execCastLoad_ends ha hx hr hi hp,
    fun hx hc => cast_gone ha hx hc, fun hx hc => ⟨fun hn hv hs hr => execCastBind_ends ha hx hc hn hv hs hr,
      fun hn => execCastBind_traps ha hx hc hn, execCastKill_ends ha hx hc, fun e he => ⟨fun k' hl hr => ?retired,
        fun k' hl hr => ?going⟩⟩, fun hx h63 => castKill_traps ha hx ?reserved, fun hx h63 hcl => castKill_traps ha hx ?cluster⟩,
    fun s key t d p m => ⟨placeImage_traps, fun hp hd hq hh i pages hi hc => placeImage_places hp hd hq hh hi hc,
      fun hp hd hq hh hc => placeImage_short hp hd hq hh hc, fun hp hd hr => placeImage_refused hp hd hr⟩⟩
  case retired =>
    subst he
    rw [execCastEnd_ends ha hx hc hl, hr]
    rfl
  case going =>
    subst he
    rw [execCastEnd_ends ha hx hc hl, hr]
    rfl
  case reserved => exact if_pos h63
  case cluster => exact (if_neg (not_not.2 h63)).trans (if_pos hcl)

/-- Settles O33: each port instruction by its port and by what the port takes or offers. -/
theorem portInstructions : Obligations.PortInstructions := by
  unfold Obligations.PortInstructions
  intro s t d a port p x ws cid k ha hc
  exact ⟨fun hx hg => ⟨fun hn => execBpush_traps ha hc hx hg hn, fun hn h32 h7 hk => execBpush_ends ha hc hx hg hn h32 h7 hk⟩,
    fun hx => ⟨fun hn => execBmark_traps ha hc hx hn, fun hn => execBmark_ends ha hc hx hn⟩,
    fun hx hd hn => ⟨fun ho => execBpull_none ha hc hx hd hn ho,
      fun b ho hroom => execBpull_takes ha hc hx hd hn ho hroom⟩⟩

end Sys2Proof.Proofs.Castings
end


section
/-! PROOFS. The canonical form of the memories: what leaves every memory alone, and what keeps the form of those it writes. -/

namespace Sys2Proof.Proofs.Form

open Sys2Proof Sys2Proof.Machine

/-! ## The four memories of a state -/

/-- Four memories have the canonical form. -/
def Formed (mem sram outside buffer : Memory) : Prop :=
  mem.wf = true ∧ sram.wf = true ∧ outside.wf = true ∧ buffer.wf = true

/-- Only the four memories of a record count. -/
@[simp] theorem memoryForm_mk (phase cycle agenda turns ctxs fired beats busy banked core node mem sram outside outBars regs
    threads saved savedTab clusters dies waiting tlb lqs launches closing left credits lastQ seqs wins kvCopies kvNext podBars
    podOps podNext ports early combs sent treeOut unsent pci timedOut mbox rel asked free answer) :
    MemoryForm ⟨phase, cycle, agenda, turns, ctxs, fired, beats, busy, banked, core, node, mem, sram, outside, outBars, regs,
      threads, saved, savedTab, clusters, dies, waiting, tlb, lqs, launches, closing, left, credits, lastQ, seqs, wins, kvCopies,
      kvNext, podBars, podOps, podNext, ports, early, combs, sent, treeOut, unsent, pci, timedOut, mbox, rel, asked, free,
      answer⟩ ↔ Formed mem sram outside mbox.buffer := Iff.rfl

@[simp] theorem formed_iff (s : State) : Formed s.mem s.sram s.outside s.mbox.buffer ↔ MemoryForm s := Iff.rfl

variable {s : State}

/-! What is written to one of the memories of a formed state leaves four formed ones. -/

@[simp] theorem formed_memWrite {a l} (h : MemoryForm s) : Formed (memWrite s.mem a l) s.sram s.outside s.mbox.buffer :=
  ⟨memWrite_wf _ _ _ h.1, h.2⟩
@[simp] theorem formed_memWriteMask {a l} (h : MemoryForm s) : Formed (memWriteMask s.mem a l) s.sram s.outside s.mbox.buffer :=
  ⟨memWriteMask_wf _ _ _ h.1, h.2⟩
@[simp] theorem formed_memClear {a n} (h : MemoryForm s) : Formed (memClear s.mem a n) s.sram s.outside s.mbox.buffer :=
  ⟨memClear_wf _ _ _ h.1, h.2⟩
@[simp] theorem formed_sramWrite {a l} (h : MemoryForm s) : Formed s.mem (memWrite s.sram a l) s.outside s.mbox.buffer :=
  ⟨h.1, memWrite_wf _ _ _ h.2.1, h.2.2⟩
@[simp] theorem formed_sramWriteMask {a l} (h : MemoryForm s) : Formed s.mem (memWriteMask s.sram a l) s.outside s.mbox.buffer :=
  ⟨h.1, memWriteMask_wf _ _ _ h.2.1, h.2.2⟩
@[simp] theorem formed_sramPut {a b} (h : MemoryForm s) : Formed s.mem (memPut s.sram a b) s.outside s.mbox.buffer :=
  ⟨h.1, memPut_wf _ _ _ h.2.1, h.2.2⟩
@[simp] theorem formed_sramClear {a n} (h : MemoryForm s) : Formed s.mem (memClear s.sram a n) s.outside s.mbox.buffer :=
  ⟨h.1, memClear_wf _ _ _ h.2.1, h.2.2⟩
@[simp] theorem formed_outWrite {a l} (h : MemoryForm s) : Formed s.mem s.sram (memWrite s.outside a l) s.mbox.buffer :=
  ⟨h.1, h.2.1, memWrite_wf _ _ _ h.2.2.1, h.2.2.2⟩
@[simp] theorem formed_outWriteMask {a l} (h : MemoryForm s) : Formed s.mem s.sram (memWriteMask s.outside a l) s.mbox.buffer :=
  ⟨h.1, h.2.1, memWriteMask_wf _ _ _ h.2.2.1, h.2.2.2⟩
@[simp] theorem formed_outPut {a b} (h : MemoryForm s) : Formed s.mem s.sram (memPut s.outside a b) s.mbox.buffer :=
  ⟨h.1, h.2.1, memPut_wf _ _ _ h.2.2.1, h.2.2.2⟩

/-! ## Folds -/

/-- A fold of steps that leave the memories alone. -/
theorem memoryForm_foldl {α : Type} {f : State → α → State} (hf : ∀ s x, MemoryForm (f s x) ↔ MemoryForm s) (l : List α) :
    MemoryForm (l.foldl f s) ↔ MemoryForm s := by
  induction l generalizing s with
  | nil => rfl
  | cons x xs ih => exact ih.trans (hf s x)

/-- A fold of steps that keep the form. -/
theorem form_foldl {α : Type} {f : State → α → State} (hf : ∀ s x, MemoryForm s → MemoryForm (f s x)) {l : List α}
    (h : MemoryForm s) : MemoryForm (l.foldl f s) := by
  induction l generalizing s with
  | nil => exact h
  | cons x xs ih => exact ih (hf s x h)

/-- Cells written one after another. -/
theorem memPut_fold {α : Type} {f : α → Nat} {g : α → Byte} (l : List α) {m : Memory} (h : m.wf = true) :
    (l.foldl (fun m x => memPut m (f x) (g x)) m).wf = true := by
  induction l generalizing m with
  | nil => exact h
  | cons x xs ih => exact ih (memPut_wf m _ _ h)

/-! ## Computations that may end early -/

/-- What an early end keeps has the form. -/
def ExcForm : Exc → Prop
  | .trap _ keep => ∀ u, keep = some u → MemoryForm u
  | .stall keep => ∀ u, keep = some u → MemoryForm u

/-- The result of a computation has the property, and what an early end keeps has the form. -/
def Ends {α : Type} (p : α → Prop) : Except Exc α → Prop
  | .ok x => p x
  | .error e => ExcForm e

/-- The result of a computation that changes nothing when it ends early has the property. -/
def Gives {ε α : Type} (p : α → Prop) : Except ε α → Prop
  | .ok x => p x
  | .error _ => True

/-- The next state, where there is one, has the form. -/
def Kept : Answer → Prop
  | .next u => MemoryForm u
  | _ => True

section Rules

variable {ε α β : Type} {p : α → Prop} {q : β → Prop}

@[simp] theorem excForm_trap (e : Exn) : ExcForm (.trap e none) := fun _ h => by cases h
@[simp] theorem excForm_stall : ExcForm (.stall none) := fun _ h => by cases h
@[simp] theorem excForm_trap_some (e : Exn) (u : State) : ExcForm (.trap e (some u)) ↔ MemoryForm u := by simp [ExcForm]
@[simp] theorem excForm_stall_some (u : State) : ExcForm (.stall (some u)) ↔ MemoryForm u := by simp [ExcForm]
@[simp] theorem ends_ok (x : α) : Ends p (.ok x) ↔ p x := Iff.rfl
@[simp] theorem ends_error (e : Exc) : Ends p (.error e) ↔ ExcForm e := Iff.rfl
@[simp] theorem ends_pure (x : α) : Ends p (pure x) ↔ p x := Iff.rfl
@[simp] theorem gives_ok (x : α) : Gives p (.ok x : Except ε α) ↔ p x := Iff.rfl
@[simp] theorem gives_error (e : ε) : Gives p (.error e) := trivial
@[simp] theorem gives_exn (c n : Nat) (a : Option Word) : Gives p (exn c n a) := trivial
@[simp] theorem ends_trapWith (c n : Nat) (a : Option Word) : Ends p (trapWith c n a) := fun _ h => by cases h
@[simp] theorem ends_stallNow : Ends p stallNow := fun _ h => by cases h
@[simp] theorem kept_next (u : State) : Kept (.next u) ↔ MemoryForm u := Iff.rfl
@[simp] theorem kept_fault (f : Fault) : Kept (.fault f) := trivial
@[simp] theorem kept_refused (r : Refusal) : Kept (.refused r) := trivial

theorem Ends.ok {e : Except Exc α} (h : Ends p e) {x : α} (he : e = .ok x) : p x := by subst he; exact h
theorem Ends.error {e : Except Exc α} (h : Ends p e) {x : Exc} (he : e = .error x) : ExcForm x := by subst he; exact h
theorem Gives.ok {e : Except ε α} (h : Gives p e) {x : α} (he : e = .ok x) : p x := by subst he; exact h
theorem Kept.next {a : Answer} (h : Kept a) {u : State} (ha : a = .next u) : MemoryForm u := by subst ha; exact h

theorem excForm_keep {e : Exn} {keep : Option State} (h : ExcForm (.trap e keep)) (hs : MemoryForm s) :
    MemoryForm (keep.getD s) := by
  cases keep with
  | none => exact hs
  | some u => exact h u rfl

theorem excForm_wait {keep : Option State} (h : ExcForm (.stall keep)) (hs : MemoryForm s) : MemoryForm (keep.getD s) := by
  cases keep with
  | none => exact hs
  | some u => exact h u rfl

theorem Ends.bind {e : Except Exc α} {f : α → Except Exc β} (he : Ends p e) (hf : ∀ x, p x → Ends q (f x)) :
    Ends q (e >>= f) := by
  cases e with
  | ok x => exact hf x he
  | error x => exact he

theorem Ends.map {e : Except Exc α} {f : α → β} (he : Ends p e) (hf : ∀ x, p x → q (f x)) : Ends q (e.map f) := by
  cases e with
  | ok x => exact hf x he
  | error x => exact he

theorem Gives.bind {e : Except ε α} {f : α → Except ε β} (he : Gives p e) (hf : ∀ x, p x → Gives q (f x)) :
    Gives q (e >>= f) := by
  cases e with
  | ok x => exact hf x he
  | error x => trivial

theorem Gives.map {e : Except ε α} {f : α → β} (he : Gives p e) (hf : ∀ x, p x → q (f x)) : Gives q (e.map f) := by
  cases e with
  | ok x => exact hf x he
  | error x => trivial

@[simp] theorem gives_true (e : Except ε α) : Gives (fun _ => True) e := by cases e <;> trivial

theorem ends_liftE {e : Except Exn α} (he : Gives p e) : Ends p (liftE e) := by
  cases e with
  | ok x => exact he
  | error x => simp [liftE]

/-- What is read through lists keeps what each reading keeps. -/
theorem ends_mapE {f : β → Except Exc α} {l : List β} (hf : ∀ x, Ends (fun _ => True) (f x)) :
    Ends (fun _ => True) (mapE f l) := by
  induction l with
  | nil => trivial
  | cons x xs ih => exact (hf x).bind fun y _ => ih.map fun _ _ => trivial

end Rules

@[simp] theorem gotNow_st (b : List Byte) (s : State) : (gotNow b s).st = s := rfl
@[simp] theorem gotErr_st (c : Nat) (s : State) : (gotErr c s).st = s := rfl
@[simp] theorem doneNow_st (s : State) : (doneNow s).st = s := rfl

/-- A fold that may end early keeps what each of its steps keeps. -/
theorem gives_foldE {ε α β : Type} {p : β → Prop} {f : β → α → Except ε β} (hf : ∀ b x, p b → Gives p (f b x)) {b : β}
    {l : List α} (hb : p b) : Gives p (foldE f b l) := by
  induction l generalizing b with
  | nil => exact hb
  | cons x xs ih =>
    refine Gives.bind (hf b x hb) fun c hc => ?_
    exact ih hc

theorem ends_foldE {α β : Type} {p : β → Prop} {f : β → α → Except Exc β} (hf : ∀ b x, p b → Ends p (f b x)) {b : β}
    {l : List α} (hb : p b) : Ends p (foldE f b l) := by
  induction l generalizing b with
  | nil => exact hb
  | cons x xs ih =>
    refine Ends.bind (hf b x hb) fun c hc => ?_
    exact ih hc

theorem form_fst {β : Type} {x y : State × β} (hx : MemoryForm x.1) (e : x = y) : MemoryForm y.1 := e ▸ hx

/-! ## Branches -/

theorem form_ite {c : Prop} [Decidable c] {a b : State} (ha : MemoryForm a) (hb : MemoryForm b) :
    MemoryForm (if c then a else b) := by
  split
  · exact ha
  · exact hb

theorem ends_ite {α : Type} {p : α → Prop} {c : Prop} [Decidable c] {a b : Except Exc α} (ha : Ends p a) (hb : Ends p b) :
    Ends p (if c then a else b) := by
  split
  · exact ha
  · exact hb

/-! ## Threads -/

@[simp] theorem form_setThread {k t} : MemoryForm (s.setThread k t) ↔ MemoryForm s := by
  unfold State.setThread; simp

end Sys2Proof.Proofs.Form
end


section
/-! PROOFS. What the operations do to the four memories, in the order of the model (1 of 5). -/

namespace Sys2Proof.Proofs.Form

open Sys2Proof Sys2Proof.Machine

variable {s : State}

/-! ## Physical memory: the map (04/R77-R79), format windows (04/R80-R86), draft-window shadows (13/R322, R323), and scratch
frames (06/R136-R143). -/

@[simp] theorem form_updCluster {c f} : MemoryForm (State.updCluster s c f) ↔ MemoryForm s := by
  unfold State.updCluster; simp
@[simp] theorem form_updDie {d f} : MemoryForm (State.updDie s d f) ↔ MemoryForm s := by
  unfold State.updDie; simp
@[simp] theorem form_countInvalid {die n} : MemoryForm (countInvalid s die n) ↔ MemoryForm s := by
  unfold countInvalid; split <;> simp
@[simp] theorem form_touchLine {line} : MemoryForm (touchLine s line) ↔ MemoryForm s := by
  unfold touchLine; dsimp only; split <;> simp
@[simp] theorem form_touch {pa n} : MemoryForm (touch s pa n) ↔ MemoryForm s := by
  unfold touch; simp [memoryForm_foldl]
@[simp] theorem form_invalidate {ls} : MemoryForm (invalidate s ls) ↔ MemoryForm s := by
  unfold invalidate; simp [memoryForm_foldl]
@[simp] theorem form_invalidateFor {pa n} : MemoryForm (invalidateFor s pa n) ↔ MemoryForm s := by
  unfold invalidateFor; simp
@[simp] theorem form_patchKept {pa data} : MemoryForm (patchKept s pa data) ↔ MemoryForm s := by
  unfold patchKept; split <;> simp
@[simp] theorem form_putMasked {pa data} (h : MemoryForm s) : MemoryForm (putMasked s pa data) := by
  unfold putMasked; simp [h]
@[simp] theorem form_putBytes {pa b} (h : MemoryForm s) : MemoryForm (putBytes s pa b) := by
  unfold putBytes; simp [h]
@[simp] theorem form_touchAgent {ag pa n} : MemoryForm (touchAgent s ag pa n) ↔ MemoryForm s := by
  unfold touchAgent; simp [memoryForm_foldl]
@[simp] theorem form_updWindow {i f} : MemoryForm (State.updWindow s i f) ↔ MemoryForm s := by
  unfold State.updWindow; simp
@[simp] theorem gives_shadowWrite {i w p o data ea} (h : MemoryForm s) : Gives MemoryForm (shadowWrite s i w p o data ea) := by
  unfold shadowWrite; dsimp only; (repeat' split) <;> simp [h]
@[simp] theorem form_setEntry {c k v} (h : MemoryForm s) : MemoryForm (setEntry s c k v) := by
  unfold setEntry; simp [h]
@[simp] theorem form_useBanks {a n} : MemoryForm (useBanks s a n) ↔ MemoryForm s := by
  unfold useBanks; simp
@[simp] theorem form_touchEntry {c k} : MemoryForm (touchEntry s c k) ↔ MemoryForm s := by
  unfold touchEntry; simp
@[simp] theorem form_touchPage {c k} : MemoryForm (touchPage s c k) ↔ MemoryForm s := by
  unfold touchPage; simp
@[simp] theorem form_wantPage {c k core} : MemoryForm (wantPage s c k core) ↔ MemoryForm s := by
  unfold wantPage; simp

/-! ## Region handles' check (04/R94), the page-table walk (04/R88-R91), translation caches (04/R92, R96) and the scratch
aperture (06/R139). -/

@[simp] theorem form_noteWalk {extra asid va} (h : MemoryForm s) : MemoryForm (noteWalk s extra asid va) := by
  unfold noteWalk
  split
  · exact h
  · dsimp only
    split
    · exact h
    next x e hx₁ =>
      refine form_foldl (fun u x hu => ?_) ?_
      · simp [hu]
      · exact h

/-! ## The event ring (18/R411), reading virtual memory piece by piece, and the device registers (04 Table 4.10, 16 Table
16.3, 17 Table 17.6, 18 Table 18.3, 19 Table 19.2). -/

@[simp] theorem form_postEvent {kind cause addr who} : MemoryForm (postEvent s kind cause addr who) ↔ MemoryForm s := by
  unfold postEvent; simp
@[simp] theorem form_postFree {kind} : MemoryForm (postFree s kind) ↔ MemoryForm s := by
  unfold postFree; simp
@[simp] theorem gives_readPiece {asid va n} (h : MemoryForm s) : Gives (fun r => MemoryForm r.2) (readPiece s asid va n) := by
  unfold readPiece
  split
  · simp
  · split <;> simp [h]
  · simp

@[simp] theorem gives_readLocal {asid va n} (h : MemoryForm s) : Gives (fun r => MemoryForm r.2) (readLocal s asid va n) := by
  unfold readLocal
  refine gives_foldE (fun u x hu => ?_) ?_
  · refine .map (gives_readPiece hu) fun x₁ hx₁ => ?_
    exact hx₁
  · exact h

@[simp] theorem form_updLq {q f} : MemoryForm (State.updLq s q f) ↔ MemoryForm s := by
  unfold State.updLq; simp
@[simp] theorem form_queueFault {q e} : MemoryForm (queueFault s q e) ↔ MemoryForm s := by
  unfold queueFault; split <;> simp
@[simp] theorem gives_readHeader {q} (h : MemoryForm s) : Gives (fun r => MemoryForm r.2) (readHeader s q) := by
  unfold readHeader
  refine .bind (gives_readLocal h) fun r hr => ?_
  split <;> simp [hr]

@[simp] theorem form_openQueue {q} (h : MemoryForm s) : MemoryForm (openQueue s q) := by
  unfold openQueue
  split
  · simp [h]
  next x b u hx =>
    have hf := (gives_readHeader h).ok hx
    exact hf

@[simp] theorem form_writeTinv {v} : MemoryForm (writeTinv s v) ↔ MemoryForm s := by
  unfold writeTinv; split <;> simp
@[simp] theorem form_writeLqctl {q v} (h : MemoryForm s) : MemoryForm (writeLqctl s q v) := by
  unfold writeLqctl; dsimp only; (repeat' split) <;> simp [h]
@[simp] theorem form_writeLqbase {q v} : MemoryForm (writeLqbase s q v) ↔ MemoryForm s := by
  unfold writeLqbase; split <;> simp
@[simp] theorem form_writeSchwt {v} : MemoryForm (writeSchwt s v) ↔ MemoryForm s := by
  unfold writeSchwt; simp
@[simp] theorem form_setPodState {m st} : MemoryForm (setPodState s m st) ↔ MemoryForm s := by
  unfold setPodState; simp
@[simp] theorem form_writePodwin {m v} : MemoryForm (writePodwin s m v) ↔ MemoryForm s := by
  unfold writePodwin; dsimp only; (repeat' split) <;> simp
@[simp] theorem form_writePodid {v} : MemoryForm (writePodid s v) ↔ MemoryForm s := by
  unfold writePodid; split <;> simp
@[simp] theorem form_clearCounter {off} : MemoryForm (clearCounter s off) ↔ MemoryForm s := by
  unfold clearCounter; dsimp only; (repeat' split) <;> simp
@[simp] theorem form_writeTherm {v} : MemoryForm (writeTherm s v) ↔ MemoryForm s := by
  unfold writeTherm; split <;> simp
@[simp] theorem form_writeReg {off size v} (h : MemoryForm s) : MemoryForm (writeReg s off size v) := by
  unfold writeReg
  refine form_ite h <| form_ite h <| form_ite ?_ <| form_ite h <| form_ite ?_ <| form_ite ?_ <| form_ite h <| form_ite h <|
    form_ite ?_ <| form_ite ?_ <| form_ite h <| form_ite ?_ <| form_ite ?_ h
  · exact form_writeTinv.mpr h
  · exact form_ite (form_writeLqctl h) (form_writeLqbase.mpr h)
  · exact form_writeSchwt.mpr h
  · exact form_clearCounter.mpr h
  · exact form_writePodwin.mpr h
  · exact form_writePodid.mpr h
  · exact form_writeTherm.mpr h

/-! ## One access at the place its address leads to: loads, stores and atomics on device memory, scratch, the host window,
other members and device registers (04/R77-R100, 06/R144, 13/R322, 16/R371, 18/R410-R415). Each is performed whole, at
once (DESIGN CHOICE, log 1); one to the host or to another member then waits for its completion. -/

@[simp] theorem ends_resolveFor {ag k write ea} (h : MemoryForm s) : Ends (fun _ => True) (resolveFor s ag k write ea) := by
  unfold resolveFor; split <;> simp [h]
@[simp] theorem ends_accRead {ag t n ea} (h : MemoryForm s) : Ends (fun r => MemoryForm r.st) (accRead s ag t n ea) := by
  unfold accRead
  split
  · split <;> simp [h]
  · exact h
  · split
    · simp
    · split
      · exact h
      · split
        · simp
        · split <;> simp [h]
  · split <;> simp [h]
  · split
    next x e hx =>
      have hf := (ends_resolveFor h).error hx
      exact hf
    · dsimp only
      split <;> simp [h]

@[simp] theorem form_putPlain {pa b} (h : MemoryForm s) : MemoryForm (putPlain s pa b) := by
  unfold putPlain; simp [h]
@[simp] theorem form_raiseTail {pa v} (h : MemoryForm s) : MemoryForm (raiseTail s pa v) := by
  unfold raiseTail; simp [h]
@[simp] theorem gives_coveredByte {l pa x ea} (h : MemoryForm s) : Gives MemoryForm (coveredByte s l pa x ea) := by
  unfold coveredByte
  split
  · exact h
  · split
    · simp [h]
    · split
      · exact h
      · split <;> simp [h]

@[simp] theorem gives_devWrite {ag pa data std ea} (h : MemoryForm s) : Gives MemoryForm (devWrite s ag pa data std ea) := by
  unfold devWrite
  split
  · simp
  · split
    next x l hx₁ =>
      refine gives_foldE (fun u x hu => ?_) ?_
      · simp [hu]
      · exact h
    · split <;> simp [h]

@[simp] theorem ends_accWrite {ag t data std ea} (h : MemoryForm s) :
    Ends (fun r => MemoryForm r.st) (accWrite s ag t data std ea) := by
  cases t with
  | dev pa =>
    simp only [accWrite]
    split
    · simp
    next u hu => exact (gives_devWrite h).ok hu
  | host x => exact formed_outWriteMask h
  | peer m pa =>
    simp only [accWrite]
    refine ends_ite (by simp) <| ends_ite h <| ends_ite (by simp) <| ends_ite h ?_
    exact formed_outWriteMask h
  | regs off =>
    simp only [accWrite]
    exact ends_ite (form_writeReg h) (by simp)
  | scratch k o =>
    simp only [accWrite]
    split
    next hx => exact (ends_resolveFor h).error hx
    · exact form_useBanks.mpr (form_touchPage.mpr (formed_sramWriteMask h))

@[simp] theorem ends_accAtomic {ag t size op f ea} (h : MemoryForm s) :
    Ends (fun r => MemoryForm r.st) (accAtomic s ag t size op f ea) := by
  cases t with
  | dev pa =>
    simp only [accAtomic]
    have ht : MemoryForm (touchAgent s ag pa size) := by simp [h]
    refine ends_ite (by simp) <| ends_ite h <| ends_ite ht ?_
    split
    · simp
    next u hu => exact (gives_devWrite ht).ok hu
  | host x =>
    simp only [accAtomic]
    exact ends_ite (formed_outWrite h) (by simp)
  | peer m pa =>
    simp only [accAtomic]
    refine ends_ite (by simp) <| ends_ite h <| ends_ite (by simp) <| ends_ite h ?_
    exact formed_outWrite h
  | regs off =>
    simp only [accAtomic]
    exact ends_ite (form_writeReg h) (by simp)
  | scratch k o =>
    simp only [accAtomic]
    split
    next hx => exact (ends_resolveFor h).error hx
    · refine ends_ite (form_useBanks.mpr (form_touchPage.mpr h)) ?_
      exact form_useBanks.mpr (form_touchPage.mpr (formed_sramWrite h))

@[simp] theorem ends_place {ag va need} (h : MemoryForm s) : Ends (fun r => MemoryForm r.2) (place s ag va need) := by
  unfold place; split <;> simp [h]
@[simp] theorem ends_readAt {ag va n} (h : MemoryForm s) : Ends (fun r => MemoryForm r.st) (readAt s ag va n) := by
  unfold readAt
  split
  next x e hx =>
    have hf := (ends_place h).error hx
    exact hf
  next x t u hx =>
    have hf := (ends_place h).ok hx
    simp [hf]

@[simp] theorem ends_writeAt {ag va data std} (h : MemoryForm s) :
    Ends (fun r => MemoryForm r.st) (writeAt s ag va data std) := by
  unfold writeAt
  split
  next x e hx =>
    have hf := (ends_place h).error hx
    exact hf
  next x t u hx =>
    have hf := (ends_place h).ok hx
    simp [hf]

@[simp] theorem ends_atomicAt {ag va size op f} (h : MemoryForm s) :
    Ends (fun r => MemoryForm r.st) (atomicAt s ag va size op f) := by
  unfold atomicAt
  split
  next x e hx =>
    have hf := (ends_place h).error hx
    exact hf
  next x t u hx =>
    have hf := (ends_place h).ok hx
    simp [hf]

@[simp] theorem ends_hostAnswers {key va} (h : MemoryForm s) : Ends (fun _ => True) (hostAnswers s key va) := by
  unfold hostAnswers; split <;> simp [h]
@[simp] theorem ends_issueErr {ag err wait va} (h : MemoryForm s) : Ends (fun _ => True) (issueErr s ag err wait va) := by
  unfold issueErr
  split
  · split <;> simp [h]
  · split <;> simp [h]

@[simp] theorem ends_readPieces {ag l} (h : MemoryForm s) : Ends (fun r => MemoryForm r.2) (readPieces s ag l) := by
  induction l generalizing s with
  | nil => exact h
  | cons p ps ih =>
    unfold readPieces
    split
    next hx => exact (ends_readAt h).error hx
    next g hg =>
      have hs : MemoryForm g.st := (ends_readAt h).ok hg
      split
      next hx => exact (ends_issueErr h).error hx
      · split
        next hx => exact (ih hs).error hx
        next l u hx =>
          have hu : MemoryForm u := (ih hs).ok hx
          exact hu

@[simp] theorem ends_readIssue {ag va n} (h : MemoryForm s) : Ends (fun r => MemoryForm r.2) (readIssue s ag va n) := by
  unfold readIssue; simp [h]
@[simp] theorem ends_writeIssue {ag va data} (h : MemoryForm s) : Ends MemoryForm (writeIssue s ag va data) := by
  refine ends_foldE (fun u p hu => ?_) h
  split
  next hx => exact (ends_writeAt hu).error hx
  next d hd =>
    have hs : MemoryForm d.st := (ends_writeAt hu).ok hd
    split
    next hx => exact (ends_issueErr hu).error hx
    · exact hs

/-! ## A control thread's registers: naming (02/R20, 08/R182), reading and waiting (08/R190), writing (08/R191), producers
(08/R189, R192), predicates, handles, and special registers' packed views (08 Table 8.6, 15 Table 15.9). -/

@[simp] theorem form_updThread {key f} : MemoryForm (State.updThread s key f) ↔ MemoryForm s := by
  unfold State.updThread; split <;> simp
@[simp] theorem ends_readReg64 {t r wait} : Ends (fun _ => True) (readReg64 t r wait) := by
  unfold readReg64
  split
  · simp
  · simp
  · dsimp only
    split
    · split <;> simp
    · split <;> simp
    · simp

@[simp] theorem ends_readSrc {t a} : Ends (fun _ => True) (readSrc t a) := by
  unfold readSrc; simp
@[simp] theorem ends_readField {t r} : Ends (fun _ => True) (readField t r) := by
  unfold readField; simp
@[simp] theorem ends_readGroup {t r wait n} : Ends (fun _ => True) (readGroup t r wait n) := by
  unfold readGroup
  exact ends_mapE (by simp)
@[simp] theorem ends_destReady {t r} : Ends (fun _ => True) (destReady t r) := by
  unfold destReady
  split
  · simp
  · simp
  · split <;> simp

@[simp] theorem ends_namesOk {t x1} : Ends (fun _ => True) (namesOk t x1) := by
  fun_induction namesOk t x1 <;> simp_all
@[simp] theorem ends_producerSlot {t} : Ends (fun _ => True) (producerSlot t) := by
  unfold producerSlot; split <;> simp

/-! ## The window file: spilling and filling frames (08/R184-R188), transfers and loops (15/R345-R350). -/

@[simp] theorem gives_writeOverflow {key t off l} (h : MemoryForm s) : Gives MemoryForm (writeOverflow s key t off l) := by
  induction l generalizing s off with
  | nil => exact h
  | cons w ws ih =>
    unfold writeOverflow
    split
    · simp
    · split
      · simp
      next u hu => exact ih ((gives_devWrite (form_noteWalk h)).ok hu)

@[simp] theorem form_writeCarve {key x2 x3} (h : MemoryForm s) : MemoryForm (writeCarve s key x2 x3) := by
  fun_induction writeCarve s key x2 x3 <;> simp_all
@[simp] theorem form_spillBad {key t f ovf off} (h : MemoryForm s) : MemoryForm (spillBad s key t f ovf off) := by
  unfold spillBad
  refine form_foldl (fun u x hu => ?_) ?_
  · split
    · split <;> simp [hu]
    · exact hu
  · exact h

@[simp] theorem ends_spillOldest {key t} (h : MemoryForm s) : Ends (fun r => MemoryForm r.1) (spillOldest s key t) := by
  unfold spillOldest
  split
  · exact h
  · have hk : ∀ u, MemoryForm (s.setThread key u) := fun u => form_setThread.mpr h
    refine ends_ite (by simp [hk]) <| ends_ite ?_ <| ends_ite ?_ (by simp [hk])
    · exact form_spillBad (form_writeCarve h)
    · split
      · simp [hk]
      next u hu => exact form_spillBad ((gives_writeOverflow h).ok hu)

@[simp] theorem ends_spillFor {key n fuel x} (h : MemoryForm x.1) : Ends (fun r => MemoryForm r.1) (spillFor key n fuel x) := by
  induction fuel generalizing x with
  | zero => exact h
  | succ fuel ih =>
    unfold spillFor
    refine ends_ite h ?_
    split
    next hx => exact (ends_spillOldest h).error hx
    next hx => exact ih ((ends_spillOldest h).ok hx)

@[simp] theorem gives_recordWord {key t ovf off} (h : MemoryForm s) :
    Gives (fun r => MemoryForm r.2) (recordWord s key t ovf off) := by
  unfold recordWord
  split
  · split
    · simp
    · split <;> simp [h]
  · split <;> simp [h]

@[simp] theorem gives_recordWords {key t ovf off n} (h : MemoryForm s) :
    Gives (fun r => MemoryForm r.2) (recordWords s key t ovf off n) := by
  unfold recordWords
  refine gives_foldE (fun u x hu => ?_) ?_
  · refine .map (gives_recordWord hu) fun x₁ hx₁ => ?_
    exact hx₁
  · exact h

@[simp] theorem gives_fillFrame {key t f} (h : MemoryForm s) : Gives (fun r => MemoryForm r.1) (fillFrame s key t f) := by
  unfold fillFrame
  dsimp only
  split
  · split
    · simp
    · split
      · simp
      next x w u hx₂ =>
        have hf := (gives_recordWord h).ok hx₂
        split
        · simp
        · split
          · simp
          next x₁ ws u₁ hx₄ =>
            have hf₁ := (gives_recordWords hf).ok hx₄
            exact hf₁
  · split
    · simp
    · split
      · simp
      next x w u hx₂ =>
        have hf := (gives_recordWord h).ok hx₂
        split
        · simp
        · split
          · simp
          next x₁ ws u₁ hx₄ =>
            have hf₁ := (gives_recordWords hf).ok hx₄
            exact hf₁

/-! ## A cluster's frames, page moves (06/R145-R148), and the curd pool: partitions, grants, shares, seals and returns
(07/R155-R171). -/

@[simp] theorem form_takeFrame {c f u} (h : MemoryForm s) : MemoryForm (takeFrame s c f u) := by
  unfold takeFrame; simp [h]
@[simp] theorem form_countRetired {lo} : MemoryForm (countRetired s lo) ↔ MemoryForm s := by
  unfold countRetired; simp
@[simp] theorem form_freeFrame {c f} : MemoryForm (freeFrame s c f) ↔ MemoryForm s := by
  unfold freeFrame; split <;> simp
@[simp] theorem form_takeFrames {c core u n} (h : MemoryForm s) : MemoryForm (takeFrames s c core u n).1 := by
  induction n generalizing s with
  | zero => exact h
  | succ n ih =>
    unfold takeFrames
    split
    · exact h
    · exact ih (form_takeFrame h)

@[simp] theorem form_forgetPage {c k} : MemoryForm (forgetPage s c k) ↔ MemoryForm s := by
  unfold forgetPage; simp
@[simp] theorem form_beginPageOut {c k} (h : MemoryForm s) : MemoryForm (beginPageOut s c k) := by
  unfold beginPageOut; simp [h]
@[simp] theorem form_retirePage {c k} (h : MemoryForm s) : MemoryForm (retirePage s c k) := by
  unfold retirePage
  dsimp only
  split <;> simp [h]

@[simp] theorem form_endPageOut {c k f} (h : MemoryForm s) : MemoryForm (endPageOut s c k f) := by
  unfold endPageOut; simp [h]
@[simp] theorem form_beginPageIn {c k f} (h : MemoryForm s) : MemoryForm (beginPageIn s c k f) := by
  unfold beginPageIn; simp [h]
@[simp] theorem form_endPageIn {c k f} (h : MemoryForm s) : MemoryForm (endPageIn s c k f) := by
  unfold endPageIn
  dsimp only
  exact form_retirePage (by simp [h])

@[simp] theorem form_beginReloc {c k f} (h : MemoryForm s) : MemoryForm (beginReloc s c k f) := by
  unfold beginReloc; simp [h]
@[simp] theorem form_endReloc {c k src dst} (h : MemoryForm s) : MemoryForm (endReloc s c k src dst) := by
  unfold endReloc
  dsimp only
  exact form_retirePage (by simp [h])

@[simp] theorem form_beginPageOuts {c x2} (h : MemoryForm s) : MemoryForm (beginPageOuts s c x2) := by
  fun_induction beginPageOuts s c x2 <;> simp_all
@[simp] theorem form_startPageOuts {c n} (h : MemoryForm s) : MemoryForm (startPageOuts s c n) := by
  unfold startPageOuts; simp [h]
@[simp] theorem form_pageOutWhole {c k} (h : MemoryForm s) : MemoryForm (pageOutWhole s c k) := by
  unfold pageOutWhole; simp [h]
theorem form_frameOrEvict {c core x} (h : MemoryForm s) (hx : frameOrEvict s c core = some x) : MemoryForm x.1 := by
  unfold frameOrEvict at hx
  split at hx
  · cases hx; exact h
  · split at hx
    · cases hx
    · cases hx; exact form_pageOutWhole h

@[simp] theorem form_updCurdSlot {c i f} : MemoryForm (updCurdSlot s c i f) ↔ MemoryForm s := by
  unfold updCurdSlot; simp
@[simp] theorem form_updCurd {c i f} : MemoryForm (updCurd s c i f) ↔ MemoryForm s := by
  unfold updCurd; simp
@[simp] theorem form_allocCurd {c core i p n count strict l owner cast reserved} (h : MemoryForm s) :
    MemoryForm (allocCurd s c core i p n count strict l owner cast reserved).1 := form_updCurdSlot.mpr (form_takeFrames h)
@[simp] theorem form_updCastSlot {cid f} : MemoryForm (updCastSlot s cid f) ↔ MemoryForm s := by
  unfold updCastSlot; simp
@[simp] theorem form_updCast {cid f} : MemoryForm (updCast s cid f) ↔ MemoryForm s := by
  unfold updCast; simp
@[simp] theorem form_giveBack {k} : MemoryForm (giveBack s k) ↔ MemoryForm s := by
  unfold giveBack
  split
  · split <;> simp
  · rfl

@[simp] theorem form_returnCurd {c i} : MemoryForm (returnCurd s c i) ↔ MemoryForm s := by
  unfold returnCurd
  split
  · rfl
  · simp [memoryForm_foldl]

@[simp] theorem form_settleCurd {c i} (h : MemoryForm s) : MemoryForm (settleCurd s c i) := by
  unfold settleCurd
  split
  · split <;> simp [h]
  · exact h

@[simp] theorem form_takeShare {c i} : MemoryForm (takeShare s c i) ↔ MemoryForm s := by
  unfold takeShare; simp
@[simp] theorem form_finalShare {c i} (h : MemoryForm s) : MemoryForm (finalShare s c i) := by
  unfold finalShare; simp [h]
@[simp] theorem form_rollShare {c i} (h : MemoryForm s) : MemoryForm (rollShare s c i) := by
  unfold rollShare; simp [h]
@[simp] theorem form_sealCurd {c i} : MemoryForm (sealCurd s c i) ↔ MemoryForm s := by
  unfold sealCurd; simp
@[simp] theorem form_curdWrite {c k o l} (h : MemoryForm s) : MemoryForm (curdWrite s c k o l) := by
  induction l generalizing s o with
  | nil => exact h
  | cons x xs ih =>
    unfold curdWrite
    exact ih (form_ite (formed_sramPut h) h)

/-! ## Asynchronous faults (17/R390, R392, R394) and ring objects (05/R122-R124). -/

@[simp] theorem form_updByRef {r f} (h : MemoryForm s) : MemoryForm (updByRef s r f) := by
  unfold updByRef
  split
  · simp [h]
  · split
    · split <;> simp [h]
    · exact h

@[simp] theorem form_recordOf {src e who of'} (h : MemoryForm s) : MemoryForm (recordOf s src e who of').2 := by
  unfold recordOf; split <;> simp [h]
@[simp] theorem form_sendFault {r src e who cast of'} (h : MemoryForm s) : MemoryForm (sendFault s r src e who cast of') := by
  unfold sendFault; dsimp only; (repeat' split) <;> simp [h]
@[simp] theorem form_admitWaiting {r} (h : MemoryForm s) : MemoryForm (admitWaiting s r) := by
  unfold admitWaiting; split <;> simp [h]
@[simp] theorem form_touchRing {asid h' off pa} (h : MemoryForm s) : MemoryForm (touchRing s asid h' off pa) := by
  unfold touchRing; simp [h]
@[simp] theorem form_ringSet {pa r} (h : MemoryForm s) : MemoryForm (ringSet s pa r) := by
  unfold ringSet; simp [h]
@[simp] theorem form_ringComplete {pa slot err} (h : MemoryForm s) : MemoryForm (ringComplete s pa slot err) := by
  unfold ringComplete; simp [h]
@[simp] theorem form_looseComplete {asid h' off slot err owner who} (h : MemoryForm s) :
    MemoryForm (looseComplete s asid h' off slot err owner who) := by
  unfold looseComplete
  split
  · split <;> simp [h]
  · simp [h]

/-! ## Pins of L2 lines (05/R101, R104-R106) and freeing an island (12/R287, R288). -/

@[simp] theorem form_pinLine {die l} : MemoryForm (pinLine die s l) ↔ MemoryForm s := by
  unfold pinLine; simp
@[simp] theorem form_pinLines {die ls} : MemoryForm (pinLines s die ls) ↔ MemoryForm s := by
  unfold pinLines; simp [memoryForm_foldl]
@[simp] theorem form_updIsland {c i f} : MemoryForm (State.updIsland s c i f) ↔ MemoryForm s := by
  unfold State.updIsland; simp
@[simp] theorem form_grantTile {q} : MemoryForm (grantTile s q) ↔ MemoryForm s := by
  unfold grantTile; simp
@[simp] theorem form_grantWaiting {die fuel} : MemoryForm (grantWaiting die fuel s) ↔ MemoryForm s := by
  induction fuel generalizing s with
  | zero => rfl
  | succ fuel ih =>
    unfold grantWaiting
    split
    · rfl
    · split <;> simp [ih]

@[simp] theorem form_unpinLine {die l} : MemoryForm (unpinLine die s l) ↔ MemoryForm s := by
  unfold unpinLine; dsimp only; (repeat' split) <;> simp
@[simp] theorem form_unpinLines {die ls} : MemoryForm (unpinLines s die ls) ↔ MemoryForm s := by
  unfold unpinLines; simp [memoryForm_foldl]
@[simp] theorem form_unpinTile {t} : MemoryForm (unpinTile s t) ↔ MemoryForm s := by
  unfold unpinTile
  split
  · rfl
  · split <;> simp

@[simp] theorem form_withdrawPin {c i} : MemoryForm (withdrawPin s c i) ↔ MemoryForm s := by
  unfold withdrawPin; simp
@[simp] theorem form_resetIsland {c i x} : MemoryForm (resetIsland s c i x) ↔ MemoryForm s := by
  unfold resetIsland
  dsimp only
  (repeat' split) <;> simp

/-! ## Member sets, what this member sends to others (18/R413-R424), and the end of a pod operation (18/R417, R422). -/

@[simp] theorem form_sendTo {x} : MemoryForm (sendTo s x) ↔ MemoryForm s := by
  unfold sendTo; split <;> simp
@[simp] theorem form_sendEach {ms y b} : MemoryForm (sendEach s ms y b) ↔ MemoryForm s := by
  unfold sendEach; simp [memoryForm_foldl]
@[simp] theorem form_sendHeld : MemoryForm (sendHeld s) ↔ MemoryForm s := by
  unfold sendHeld; simp [memoryForm_foldl]
@[simp] theorem form_podFinish {x err} (h : MemoryForm s) : MemoryForm (podFinish s x err) := by
  unfold podFinish; simp [h]
@[simp] theorem form_podFail {x} (h : MemoryForm s) : MemoryForm (podFail s x) := by
  unfold podFail; split <;> simp [h]

/-! ## Key-value pools in memory (13/R310-R313), sequence records (13/R314, R315) and the retirement of draft windows
(13/R325). -/

@[simp] theorem form_kvPut {asid h' off b} (h : MemoryForm s) : MemoryForm (kvPut s asid h' off b) := by
  unfold kvPut
  split
  · simp [h]
  · simp [h]
  · split <;> simp [h]
  · exact h

@[simp] theorem form_kvWrite {asid h' off n v} (h : MemoryForm s) : MemoryForm (kvWrite s asid h' off n v) := by
  unfold kvWrite
  refine form_foldl (fun u x hu => ?_) ?_
  · simp [hu]
  · exact h

@[simp] theorem ends_kvReach {asid hk off n} (h : MemoryForm s) : Ends (fun _ => True) (kvReach s asid hk off n) := by
  refine ends_foldE (fun _ p _ => ?_) trivial
  dsimp only
  split
  · simp
  · exact ends_ite (by simp) (ends_ite (by simp) (by simp))
  · exact ends_hostAnswers h
  · exact ends_ite (by simp) <| ends_ite (by simp) <| ends_ite (by simp) <| ends_ite (by simp [h]) (by simp)
  · simp

@[simp] theorem form_setPoolField {p hi lo v} (h : MemoryForm s) : MemoryForm (setPoolField s p hi lo v) := by
  unfold setPoolField; simp [h]
@[simp] theorem form_setDesc {p g v} (h : MemoryForm s) : MemoryForm (setDesc s p g v) := by
  unfold setDesc; simp [h]
@[simp] theorem form_unpublish {p g} (h : MemoryForm s) : MemoryForm (unpublish s p g) := by
  unfold unpublish; dsimp only; (repeat' split) <;> simp [h]
@[simp] theorem form_freePage {p g} (h : MemoryForm s) : MemoryForm (freePage s p g) :=
  form_ite h (form_setPoolField (form_setPoolField (form_setDesc (form_unpublish h))))
@[simp] theorem form_allocPage {p desc} (h : MemoryForm s) : MemoryForm (allocPage s p desc).1 :=
  form_setDesc (form_setPoolField (form_setPoolField h))
@[simp] theorem form_dropPage {p g} (h : MemoryForm s) : MemoryForm (dropPage s p g) := by
  unfold dropPage; dsimp only; (repeat' split) <;> simp [h]
@[simp] theorem ends_recordReach {q i} (h : MemoryForm s) : Ends (fun _ => True) (recordReach s q i) := by
  unfold recordReach
  refine .bind (ends_kvReach h) fun x _ => ?_
  simp [h]

@[simp] theorem form_setEntry4 {q i v} (h : MemoryForm s) : MemoryForm (setEntry4 s q i v) := by
  unfold setEntry4; simp [h]
@[simp] theorem form_updSeq {i f} : MemoryForm (updSeq s i f) ↔ MemoryForm s := by
  unfold updSeq; simp
@[simp] theorem form_setCounts {i ntok npge} (h : MemoryForm s) : MemoryForm (setCounts s i ntok npge) := by
  unfold setCounts; split <;> simp [h]
@[simp] theorem form_pieceWrite {x1 x2} (h : MemoryForm s) : MemoryForm (pieceWrite s x1 x2) := by
  fun_induction pieceWrite s x1 x2 <;> simp_all
@[simp] theorem form_flushGranule {g} (h : MemoryForm s) : MemoryForm (flushGranule s g) := by
  unfold flushGranule
  dsimp only
  split
  · refine form_pieceWrite ?_
    refine form_foldl (fun u x hu => ?_) ?_
    · simp [hu]
    · exact h
  · simp only [memoryForm_mk, formed_iff]
    refine form_pieceWrite ?_
    refine form_foldl (fun u x hu => ?_) ?_
    · simp [hu]
    · exact h

@[simp] theorem form_flushWindow {w n} (h : MemoryForm s) : MemoryForm (flushWindow s w n) := by
  unfold flushWindow
  dsimp only
  split
  · refine form_foldl (fun u x hu => ?_) ?_
    · simp [hu]
    · exact h
  · refine form_foldl (fun u x hu => ?_) ?_
    · simp [hu]
    · refine form_foldl (fun u x hu => ?_) ?_
      · simp [hu]
      · exact h

@[simp] theorem form_settlePage {q w n d} (h : MemoryForm s) : MemoryForm (settlePage s q w n d) := by
  unfold settlePage
  dsimp only
  split
  · split
    · refine form_dropPage ?_
      refine form_setEntry4 ?_
      split <;> simp [h]
    · refine form_setEntry4 ?_
      split <;> simp [h]
  · simp [h]

@[simp] theorem form_wakeShadow : MemoryForm (wakeShadow s) ↔ MemoryForm s := by
  unfold wakeShadow; simp
@[simp] theorem form_retireOne {i n} (h : MemoryForm s) : MemoryForm (retireOne s i n) := by
  unfold retireOne
  split
  · exact h
  next x w hx =>
    dsimp only
    refine form_wakeShadow.mpr ?_
    refine form_updWindow.mpr ?_
    split
    · simp [h]
    · refine form_setCounts ?_
      refine form_foldl (fun u x hu => ?_) ?_
      · simp [hu]
      · simp [h]

@[simp] theorem form_retireWindow {i n} (h : MemoryForm s) : MemoryForm (retireWindow s i n) := by
  unfold retireWindow
  split
  · exact h
  next x w hx =>
    dsimp only
    split
    · refine form_foldl (fun u x hu => ?_) ?_
      · simp [hu]
      · simp [h]
    · simp [h]

@[simp] theorem form_freeWindow {i} : MemoryForm (freeWindow s i) ↔ MemoryForm s := by
  unfold freeWindow; simp
@[simp] theorem form_abortWindows {l} (h : MemoryForm s) : MemoryForm (abortWindows s l) := by
  unfold abortWindows
  dsimp only
  refine form_foldl (fun u x hu => ?_) ?_
  · exact hu
  · refine form_foldl (fun u x hu => ?_) ?_
    · split
      · split <;> simp [hu]
      · exact hu
    · exact h

/-! ## The ends of things: castings killed (09/R230), threads finished and restored (16/R386, 17/R396), launches completed
and killed (16/R387, 17/R394), curds abandoned (07/R170), and choosing a channel (15/R355). -/

@[simp] theorem form_dropSnapshots {cid} : MemoryForm (dropSnapshots s cid) ↔ MemoryForm s := by
  unfold dropSnapshots; simp
@[simp] theorem form_underread {l} (h : MemoryForm s) : MemoryForm (underread s l) := by
  unfold underread
  split
  · exact h
  · refine form_foldl (fun u x hu => ?_) ?_
    · refine form_foldl (fun u x hu => ?_) ?_
      · split <;> simp [hu]
      · exact hu
    · exact h

@[simp] theorem form_killCasting {cid} (h : MemoryForm s) : MemoryForm (killCasting s cid) := by
  unfold killCasting
  split
  · exact h
  next x k hx =>
    dsimp only
    refine form_underread ?_
    refine form_updCastSlot.mpr ?_
    simp only [memoryForm_mk, formed_iff]
    refine form_updCluster.mpr ?_
    refine form_dropSnapshots.mpr ?_
    refine form_foldl (fun u x hu => ?_) ?_
    · simp [hu]
    · refine form_foldl (fun u x hu => ?_) ?_
      · simp [hu]
      · exact h

@[simp] theorem form_unmapCarve {key pages} (h : MemoryForm s) : MemoryForm (unmapCarve s key pages) := by
  unfold unmapCarve
  dsimp only
  refine form_foldl (fun u x hu => ?_) ?_
  · simp [hu]
  · exact h

@[simp] theorem form_unmapSaved {key} : MemoryForm (unmapSaved s key) ↔ MemoryForm s := by
  unfold unmapSaved; simp [memoryForm_foldl]
@[simp] theorem form_saveThread {key} (h : MemoryForm s) : MemoryForm (saveThread s key) := by
  unfold saveThread
  split
  · exact h
  next x t hx =>
    dsimp only
    simp only [memoryForm_mk, formed_iff]
    refine form_foldl (fun u x hu => ?_) ?_
    · simp [hu]
    · exact h

@[simp] theorem form_restoreThread {key} (h : MemoryForm s) : MemoryForm (restoreThread s key) := by
  unfold restoreThread
  split
  · exact h
  next x t hx =>
    dsimp only
    simp only [memoryForm_mk, formed_iff]
    refine form_foldl (fun u x hu => ?_) ?_
    · simp [hu]
    · exact h

@[simp] theorem form_discardCopies {l} (h : MemoryForm s) : MemoryForm (discardCopies s l) := by
  unfold discardCopies
  refine form_foldl (fun u x hu => ?_) ?_
  · refine form_foldl (fun u x hu => ?_) ?_
    · dsimp only
      refine form_foldl (fun u x hu => ?_) ?_
      · refine form_looseComplete ?_
        split <;> simp [hu]
      · split
        · split <;> simp [hu]
        · exact hu
    · exact hu
  · exact h

@[simp] theorem form_freeIslands {l} (h : MemoryForm s) : MemoryForm (freeIslands s l) := by
  unfold freeIslands
  refine form_foldl (fun u x hu => ?_) ?_
  · refine form_foldl (fun u x hu => ?_) ?_
    · split
      · split <;> simp [hu]
      · split <;> simp [hu]
      · exact hu
    · exact hu
  · exact h

@[simp] theorem form_dropShares {c i} : MemoryForm (dropShares s c i) ↔ MemoryForm s := by
  unfold dropShares; simp
@[simp] theorem form_abandonCurd {c i part} (h : MemoryForm s) : MemoryForm (abandonCurd s c i part) := by
  unfold abandonCurd; simp [h]
@[simp] theorem form_abandonCurds {l} (h : MemoryForm s) : MemoryForm (abandonCurds s l) := by
  unfold abandonCurds
  refine form_foldl (fun u x hu => ?_) ?_
  · refine form_foldl (fun u x hu => ?_) ?_
    · simp [hu]
    · exact hu
  · exact h

@[simp] theorem form_bumpCounter {r} (h : MemoryForm s) : MemoryForm (bumpCounter s r) := by
  unfold bumpCounter
  split
  · split
    · exact h
    · split
      next x₁ g hx₂ =>
        have hf := (ends_atomicAt h).ok hx₂
        exact hf
      · exact h
  · exact h

@[simp] theorem form_settleLaunches (h : MemoryForm s) : MemoryForm (settleLaunches s) := by
  unfold settleLaunches
  refine form_foldl (fun u x hu => ?_) ?_
  · simp [hu]
  · exact h

@[simp] theorem form_completeLaunch {l} (h : MemoryForm s) : MemoryForm (completeLaunch s l) := by
  unfold completeLaunch
  split
  · exact h
  · dsimp only
    refine form_settleLaunches ?_
    simp only [memoryForm_mk, formed_iff]
    exact form_abandonCurds (form_abortWindows (by simp [h]))

@[simp] theorem form_checkComplete {l} (h : MemoryForm s) : MemoryForm (checkComplete s l) := by
  unfold checkComplete; split <;> simp [h]
@[simp] theorem form_coreFrees {key} : MemoryForm (coreFrees s key) ↔ MemoryForm s := by
  unfold coreFrees; split <;> simp
@[simp] theorem form_removeThread {key t} (h : MemoryForm s) : MemoryForm (removeThread s key t) := by
  unfold removeThread; simp [h]
@[simp] theorem form_keepShares {key t} : MemoryForm (keepShares s key t) ↔ MemoryForm s := by
  unfold keepShares; simp
@[simp] theorem form_finishThread {key} (h : MemoryForm s) : MemoryForm (finishThread s key) := by
  unfold finishThread
  split
  · exact h
  next x t hx =>
    dsimp only
    unfold checkComplete
    split
    · unfold completeLaunch
      split
      · refine form_foldl (fun u x hu => ?_) ?_
        · simp [hu]
        · simp [h]
      · dsimp only
        refine form_settleLaunches ?_
        simp only [memoryForm_mk, formed_iff]
        refine form_abandonCurds ?_
        refine form_abortWindows ?_
        refine form_freeIslands ?_
        refine form_discardCopies ?_
        simp only [memoryForm_mk, formed_iff]
        refine form_foldl (fun u x hu => ?_) ?_
        · simp [hu]
        · simp [h]
    · refine form_foldl (fun u x hu => ?_) ?_
      · simp [hu]
      · simp [h]

@[simp] theorem form_rollThread {key t} (h : MemoryForm s) : MemoryForm (rollThread s key t) := by
  unfold rollThread
  dsimp only
  refine form_foldl (fun u x hu => ?_) ?_
  · simp [hu]
  · refine form_foldl (fun u x hu => ?_) ?_
    · simp [hu]
    · exact h

@[simp] theorem form_rollLaunch {l} (h : MemoryForm s) : MemoryForm (rollLaunch s l) := by
  unfold rollLaunch
  split
  · exact h
  next x x₁ hx =>
    dsimp only
    refine form_foldl (fun u x hu => ?_) ?_
    · simp [hu]
    · exact h

@[simp] theorem form_killLaunch {l} (h : MemoryForm s) : MemoryForm (killLaunch s l) := by
  unfold killLaunch
  dsimp only
  unfold completeLaunch
  split
  next x hx =>
    refine form_foldl (fun u x hu => ?_) ?_
    · simp [hu]
    · refine form_foldl (fun u x hu => ?_) ?_
      · simp [hu]
      · refine form_foldl (fun u x hu => ?_) ?_
        · simp [hu]
        · refine form_rollLaunch ?_
          refine form_foldl (fun u x hu => ?_) ?_
          · simp [hu]
          · exact h
  next x x₁ hx =>
    dsimp only
    refine form_settleLaunches ?_
    simp only [memoryForm_mk, formed_iff]
    refine form_abandonCurds ?_
    refine form_abortWindows ?_
    refine form_freeIslands ?_
    refine form_discardCopies ?_
    simp only [memoryForm_mk, formed_iff]
    refine form_foldl (fun u x hu => ?_) ?_
    · simp [hu]
    · refine form_foldl (fun u x hu => ?_) ?_
      · simp [hu]
      · refine form_foldl (fun u x hu => ?_) ?_
        · simp [hu]
        · refine form_rollLaunch ?_
          refine form_foldl (fun u x hu => ?_) ?_
          · simp [hu]
          · exact h

@[simp] theorem form_killFaulted {l f} (h : MemoryForm s) : MemoryForm (killFaulted s l f) := by
  unfold killFaulted; simp [h]
@[simp] theorem form_channelChoice {key} (h : MemoryForm s) : MemoryForm (channelChoice s key) := by
  unfold channelChoice
  split
  · exact h
  · split
    · exact h
    · split <;> simp [h]

end Sys2Proof.Proofs.Form
end


section
/-! PROOFS. What the operations do to the four memories, in the order of the model (2 of 5). -/

namespace Sys2Proof.Proofs.Form

open Sys2Proof Sys2Proof.Machine

variable {s : State}

/-! ## The spill queue of stream translation faults (04/R97), and requests of `ag` held for their descriptor (11/R279, R286). -/

@[simp] theorem form_updNode {n f} : MemoryForm (updNode s n f) ↔ MemoryForm s := by
  unfold updNode; simp
@[simp] theorem form_fillEdge {c l} : MemoryForm (fillEdge s c l) ↔ MemoryForm s := by
  unfold fillEdge; simp
@[simp] theorem form_noteStream {c own asid va} (h : MemoryForm s) : MemoryForm (noteStream s c own asid va) := by
  unfold noteStream; dsimp only; (repeat' split) <;> simp [h]
@[simp] theorem form_respillOne {r e} (h : MemoryForm s) : MemoryForm (respillOne r s e) := by
  unfold respillOne; dsimp only; (repeat' split) <;> simp [h]
@[simp] theorem form_retryRequests {n} : MemoryForm (retryRequests s n) ↔ MemoryForm s := by
  unfold retryRequests; simp
@[simp] theorem form_respill {r x'} (h : MemoryForm s) : MemoryForm (respill s r x') := by
  unfold respill
  split
  · exact h
  · dsimp only
    refine form_retryRequests.mpr ?_
    refine form_foldl (fun u x hu => ?_) ?_
    · simp [hu]
    · exact h

/-! ## Issuing an instruction (00/R6, 15/R346, R349), taking a fault (17/R389-R394) and returning from one (17/R393). -/

@[simp] theorem form_deliver {key f epc} (h : MemoryForm s) : MemoryForm (deliver s key f epc) := by
  unfold deliver
  split
  · exact h
  · split <;> simp [h]

@[simp] theorem form_takeTrap {key t e} (h : MemoryForm s) : MemoryForm (takeTrap s key t e) := by
  unfold takeTrap; simp [h]
theorem form_settle {key t r} (h : MemoryForm s) (hr : Ends MemoryForm r) : MemoryForm (settle s key t r) := by
  unfold settle
  split
  · exact hr
  next keep =>
    have hk : ExcForm (.stall keep) := hr
    exact excForm_wait hk h
  next e keep =>
    have hk : ExcForm (.trap e keep) := hr
    exact form_takeTrap (excForm_keep hk h)

theorem kept_attempt {entered names body} (h : MemoryForm s) (hb : ∀ key t, Ends MemoryForm (body key t)) :
    Kept (attempt s entered names body) := by
  unfold attempt
  split
  · trivial
  · refine form_settle h (ends_ite (by simp) ?_)
    split
    next hx => exact ends_namesOk.error hx
    · exact hb _ _

@[simp] theorem form_complete {key last} : MemoryForm (complete s key last) ↔ MemoryForm s := by
  unfold complete; simp
theorem kept_issueWith {more names body} (h : MemoryForm s) (hb : ∀ key t, Ends MemoryForm (body key t)) :
    Kept (issueWith more s names body) := by
  refine kept_attempt h fun key t => ?_
  split
  next hx => exact (hb key t).error hx
  next u hu => exact form_complete.mpr ((hb key t).ok hu)

theorem kept_issue {names body} (h : MemoryForm s) (hb : ∀ key t, Ends MemoryForm (body key t)) :
    Kept (issue s names body) := kept_issueWith h hb
theorem kept_issueOwnWith {more names body} (h : MemoryForm s) (hb : ∀ t, Ends (fun _ => True) (body t)) :
    Kept (issueOwnWith more s names body) := by
  refine kept_attempt h fun key t => ?_
  split
  next hx => exact (hb t).error hx
  · exact form_setThread.mpr h

theorem kept_issueOwn {names body} (h : MemoryForm s) (hb : ∀ t, Ends (fun _ => True) (body t)) :
    Kept (issueOwn s names body) := kept_issueOwnWith h hb
theorem kept_issueJump {names body} (h : MemoryForm s) (hb : ∀ key t, Ends MemoryForm (body key t)) :
    Kept (issueJump s names body) := kept_attempt h hb
@[simp] theorem gives_leaveFault {key t c} (h : MemoryForm s) : Gives (fun r => MemoryForm r.1) (leaveFault s key t c) := by
  unfold leaveFault
  dsimp only
  split
  · exact h
  · split
    · exact h
    · split
      · simp
      next x₁ u u₁ g hx₂ =>
        have hf := (gives_fillFrame h).ok hx₂
        exact hf

@[simp] theorem ends_returnFault {key t} (h : MemoryForm s) : Ends MemoryForm (returnFault s key t) := by
  unfold returnFault
  split
  · simp
  · split
    · simp
    · split
      · simp
      · split
        · simp
        next x₁ u t' hx₃ =>
          have hf := (gives_leaveFault h).ok hx₃
          dsimp only
          simp only [ends_ok]
          split <;> simp [hf]

@[simp] theorem ends_writeDest {t d v} : Ends (fun _ => True) (writeDest t d v) := by
  unfold writeDest
  split
  next x e hx =>
    have hf := ends_destReady.error hx
    exact hf
  · simp

@[simp] theorem kept_opRR {d a b f} (h : MemoryForm s) : Kept (opRR s d a b f) := by
  unfold opRR
  refine kept_issueOwn h fun t => ?_
  refine .bind ends_readSrc fun x _ => ?_
  refine .bind ends_readSrc fun y _ => ?_
  simp

@[simp] theorem kept_opR {more d a f} (h : MemoryForm s) : Kept (opR more s d a f) := by
  unfold opR
  refine kept_issueOwnWith h fun t => ?_
  refine .bind ends_readSrc fun x _ => ?_
  simp

@[simp] theorem kept_opD {more d f} (h : MemoryForm s) : Kept (opD more s d f) := by
  unfold opD
  exact kept_issueOwnWith h fun t => (by simp)

/-! ## Atomics (08/R205, R206), and the waits that a `fence` leaves behind (08/R207, 14/R330). -/

@[simp] theorem ends_slotAddr64 {t a h' size need} : Ends (fun _ => True) (slotAddr64 t a h' size need) := by
  unfold slotAddr64
  refine .bind ends_readSrc fun x _ => ?_
  refine .bind (ends_liftE (gives_true _)) fun va _ => ?_
  split <;> simp

@[simp] theorem kept_opAmo {d a h' p' op} (h : MemoryForm s) : Kept (opAmo s d a h' p' op) := by
  unfold opAmo
  refine kept_issue h fun key t => ?_
  refine .bind ends_slotAddr64 fun va _ => ?_
  refine .bind ends_readField fun v _ => ?_
  dsimp only
  split
  · refine .bind ends_readField fun n _ => ?_
    refine .bind (ends_place h) fun x hx₁ => ?_
    split
    · exact hx₁
    · refine .bind ends_producerSlot fun x₁ _ => ?_
      refine .bind (ends_accAtomic hx₁) fun g hg => ?_
      exact hg
  · refine .bind (p := fun _ => True) ?_ fun n _ => ?_
    · simp
    · refine .bind (ends_place h) fun x hx₁ => ?_
      split
      · exact hx₁
      · refine .bind ends_producerSlot fun x₁ _ => ?_
        refine .bind (ends_accAtomic hx₁) fun g hg => ?_
        exact hg

@[simp] theorem kept_execAmoAdd {d a h' p} (h : MemoryForm s) : Kept (execAmoAdd d a h' p s) := by
  unfold execAmoAdd; simp [h]
@[simp] theorem kept_execAmoAnd {d a h' p} (h : MemoryForm s) : Kept (execAmoAnd d a h' p s) := by
  unfold execAmoAnd; simp [h]
@[simp] theorem kept_execAmoOr {d a h' p} (h : MemoryForm s) : Kept (execAmoOr d a h' p s) := by
  unfold execAmoOr; simp [h]
@[simp] theorem kept_execAmoXor {d a h' p} (h : MemoryForm s) : Kept (execAmoXor d a h' p s) := by
  unfold execAmoXor; simp [h]
@[simp] theorem kept_execAmoMin {d a h' p} (h : MemoryForm s) : Kept (execAmoMin d a h' p s) := by
  unfold execAmoMin; simp [h]
@[simp] theorem kept_execAmoMinu {d a h' p} (h : MemoryForm s) : Kept (execAmoMinu d a h' p s) := by
  unfold execAmoMinu; simp [h]
@[simp] theorem kept_execAmoMax {d a h' p} (h : MemoryForm s) : Kept (execAmoMax d a h' p s) := by
  unfold execAmoMax; simp [h]
@[simp] theorem kept_execAmoMaxu {d a h' p} (h : MemoryForm s) : Kept (execAmoMaxu d a h' p s) := by
  unfold execAmoMaxu; simp [h]
@[simp] theorem kept_execAmoSwap {d a h' p} (h : MemoryForm s) : Kept (execAmoSwap d a h' p s) := by
  unfold execAmoSwap; simp [h]
@[simp] theorem kept_execAmoCas {d a h' p} (h : MemoryForm s) : Kept (execAmoCas d a h' p s) := by
  unfold execAmoCas; simp [h]

/-! ## The floating-point flags (03/R68-R70): their bits, and the two flag words that gather them. -/

@[simp] theorem form_flagThread {r f} (h : MemoryForm s) : MemoryForm (flagThread s r f) := by
  unfold flagThread; split <;> simp [h]
@[simp] theorem form_flagCast {cid inv f} : MemoryForm (flagCast s cid inv f) ↔ MemoryForm s := by
  unfold flagCast; split <;> simp

/-! ## Firing a fabric instruction: queues and arcs (09/R214-R217), markers (09/R219, R220), node faults (11/R286). -/

@[simp] theorem form_putCast {n k} : MemoryForm (putCast s n k) ↔ MemoryForm s := by
  unfold putCast; simp
@[simp] theorem form_nodeFault {n e} (h : MemoryForm s) : MemoryForm (nodeFault s n e) := by
  unfold nodeFault; split <;> simp [h]
@[simp] theorem form_nodeStop {n e} (h : MemoryForm s) : MemoryForm (nodeStop s n e) := by
  unfold nodeStop; simp [h]
@[simp] theorem form_markerFault {n} (h : MemoryForm s) : MemoryForm (markerFault s n) := by
  unfold markerFault; simp [h]
@[simp] theorem form_tryRetire {cid} (h : MemoryForm s) : MemoryForm (tryRetire s cid) := by
  unfold tryRetire
  split
  · exact h
  · split <;> simp [h]

@[simp] theorem form_finalAt {l n i} (h : MemoryForm s) : MemoryForm (finalAt s l n i) := by
  unfold finalAt; simp [h]
@[simp] theorem form_retireAt {n} (h : MemoryForm s) : MemoryForm (retireAt s n) := by
  unfold retireAt
  split
  · exact h
  next x k hx =>
    dsimp only
    refine form_tryRetire ?_
    refine form_foldl (fun u x hu => ?_) ?_
    · simp [hu]
    · exact h

@[simp] theorem form_passMarker {n f k m} (h : MemoryForm s) : MemoryForm (passMarker s n f k m) := by
  unfold passMarker; simp [h]
theorem kept_atNode {go} (h : MemoryForm s) (hg : ∀ n k, MemoryForm (go n k)) : Kept (atNode s go) := by
  unfold atNode
  (repeat' split) <;> simp [h, hg]
@[simp] theorem kept_takeOne {f go} (h : MemoryForm s) : Kept (takeOne s f go) := by
  unfold takeOne
  unfold atNode
  split
  · simp
  · simp only [kept_next]
    split
    · split
      · exact h
      · split
        · exact h
        · split <;> simp [h]
    · exact h

@[simp] theorem kept_passOne {f go} (h : MemoryForm s) : Kept (passOne s f go) := by
  unfold passOne; simp [h]

/-! ## Fabric compute instructions (10). -/

@[simp] theorem form_fireTwo {f op n k} (h : MemoryForm s) : MemoryForm (fireTwo s f op n k) := by
  unfold fireTwo; dsimp only; (repeat' split) <;> simp [h]
@[simp] theorem kept_fire {f op} (h : MemoryForm s) : Kept (fire s f op) := by
  unfold fire
  split
  · unfold atNode
    split
    · simp
    · simp only [kept_next]
      split <;> simp [h]
  · simp [h]

@[simp] theorem kept_fireInt {f op} (h : MemoryForm s) : Kept (fireInt s f op) := by
  unfold fireInt; simp [h]
@[simp] theorem kept_firePat {f imm op} (h : MemoryForm s) : Kept (firePat s f imm op) := by
  unfold firePat; simp [h]
@[simp] theorem kept_execIAdd {f} (h : MemoryForm s) : Kept (execIAdd f s) := by
  unfold execIAdd; simp [h]
@[simp] theorem kept_execISub {f} (h : MemoryForm s) : Kept (execISub f s) := by
  unfold execISub; simp [h]
@[simp] theorem kept_execIMul {f} (h : MemoryForm s) : Kept (execIMul f s) := by
  unfold execIMul; simp [h]
@[simp] theorem kept_execIMad {f} (h : MemoryForm s) : Kept (execIMad f s) := by
  unfold execIMad; simp [h]
@[simp] theorem kept_execIMin {f} (h : MemoryForm s) : Kept (execIMin f s) := by
  unfold execIMin; simp [h]
@[simp] theorem kept_execIMax {f} (h : MemoryForm s) : Kept (execIMax f s) := by
  unfold execIMax; simp [h]
@[simp] theorem kept_execIAbs {f} (h : MemoryForm s) : Kept (execIAbs f s) := by
  unfold execIAbs; simp [h]
@[simp] theorem kept_execIClamp {f} (h : MemoryForm s) : Kept (execIClamp f s) := by
  unfold execIClamp; simp [h]
@[simp] theorem kept_execIAnd {f} (h : MemoryForm s) : Kept (execIAnd f s) := by
  unfold execIAnd; simp [h]
@[simp] theorem kept_execIOr {f} (h : MemoryForm s) : Kept (execIOr f s) := by
  unfold execIOr; simp [h]
@[simp] theorem kept_execIXor {f} (h : MemoryForm s) : Kept (execIXor f s) := by
  unfold execIXor; simp [h]
@[simp] theorem kept_execIShl {f} (h : MemoryForm s) : Kept (execIShl f s) := by
  unfold execIShl; simp [h]
@[simp] theorem kept_execIShr {f} (h : MemoryForm s) : Kept (execIShr f s) := by
  unfold execIShr; simp [h]
@[simp] theorem kept_execISra {f} (h : MemoryForm s) : Kept (execISra f s) := by
  unfold execISra; simp [h]
@[simp] theorem kept_fireCmp {f cond} (h : MemoryForm s) : Kept (fireCmp s f cond) := by
  unfold fireCmp; simp [h]
@[simp] theorem kept_execICmp {f} (h : MemoryForm s) : Kept (execICmp f s) := by
  unfold execICmp; simp [h]
@[simp] theorem kept_execFCmp {f} (h : MemoryForm s) : Kept (execFCmp f s) := by
  unfold execFCmp; simp [h]
@[simp] theorem kept_execSel {f} (h : MemoryForm s) : Kept (execSel f s) := by
  unfold execSel; simp [h]
@[simp] theorem kept_execFabricMov {f} (h : MemoryForm s) : Kept (execFabricMov f s) := by
  unfold execFabricMov; simp [h]
@[simp] theorem kept_execConst {f} (h : MemoryForm s) : Kept (execConst f s) := by
  unfold execConst; simp [h]
@[simp] theorem kept_execMix {f} (h : MemoryForm s) : Kept (execMix f s) := by
  unfold execMix; simp [h]
@[simp] theorem kept_fireFl {f op} (h : MemoryForm s) : Kept (fireFl s f op) := by
  unfold fireFl; simp [h]
@[simp] theorem kept_execFAdd {f} (h : MemoryForm s) : Kept (execFAdd f s) := by
  unfold execFAdd; simp [h]
@[simp] theorem kept_execFSub {f} (h : MemoryForm s) : Kept (execFSub f s) := by
  unfold execFSub; simp [h]
@[simp] theorem kept_execFMul {f} (h : MemoryForm s) : Kept (execFMul f s) := by
  unfold execFMul; simp [h]
@[simp] theorem kept_execFFma {f} (h : MemoryForm s) : Kept (execFFma f s) := by
  unfold execFFma; simp [h]
@[simp] theorem kept_firePick {f op} (h : MemoryForm s) : Kept (firePick s f op) := by
  unfold firePick; simp [h]
@[simp] theorem kept_execFMin {f} (h : MemoryForm s) : Kept (execFMin f s) := by
  unfold execFMin; simp [h]
@[simp] theorem kept_execFMax {f} (h : MemoryForm s) : Kept (execFMax f s) := by
  unfold execFMax; simp [h]
@[simp] theorem kept_execFAbs {f} (h : MemoryForm s) : Kept (execFAbs f s) := by
  unfold execFAbs; simp [h]
@[simp] theorem kept_execFNeg {f} (h : MemoryForm s) : Kept (execFNeg f s) := by
  unfold execFNeg; simp [h]
@[simp] theorem kept_fireSpecial {f op} (h : MemoryForm s) : Kept (fireSpecial s f op) := by
  unfold fireSpecial; simp [h]
@[simp] theorem kept_execFRcp {f} (h : MemoryForm s) : Kept (execFRcp f s) := by
  unfold execFRcp; simp [h]
@[simp] theorem kept_execFRsq {f} (h : MemoryForm s) : Kept (execFRsq f s) := by
  unfold execFRsq; simp [h]
@[simp] theorem kept_execFExp2 {f} (h : MemoryForm s) : Kept (execFExp2 f s) := by
  unfold execFExp2; simp [h]
@[simp] theorem kept_execFLog2 {f} (h : MemoryForm s) : Kept (execFLog2 f s) := by
  unfold execFLog2; simp [h]
@[simp] theorem kept_execFSig {f} (h : MemoryForm s) : Kept (execFSig f s) := by
  unfold execFSig; simp [h]
@[simp] theorem kept_execFTanh {f} (h : MemoryForm s) : Kept (execFTanh f s) := by
  unfold execFTanh; simp [h]
@[simp] theorem kept_execCvt {f} (h : MemoryForm s) : Kept (execCvt f s) := by
  unfold execCvt; simp [h]
@[simp] theorem kept_execPack {f} (h : MemoryForm s) : Kept (execPack f s) := by
  unfold execPack; simp [h]
@[simp] theorem kept_execUnpack {f} (h : MemoryForm s) : Kept (execUnpack f s) := by
  unfold execUnpack; simp [h]
@[simp] theorem kept_execREnc {f} (h : MemoryForm s) : Kept (execREnc f s) := by
  unfold execREnc; simp [h]
@[simp] theorem kept_execRDec {f} (h : MemoryForm s) : Kept (execRDec f s) := by
  unfold execRDec; simp [h]
@[simp] theorem kept_execRMac {f} (h : MemoryForm s) : Kept (execRMac f s) := by
  unfold execRMac; simp [h]
@[simp] theorem kept_execXl {f} (h : MemoryForm s) : Kept (execXl f s) := by
  unfold execXl; simp [h]
@[simp] theorem kept_execRed {f} (h : MemoryForm s) : Kept (execRed f s) := by
  unfold execRed; simp [h]

/-! ## A casting as it is placed, and its forced end: restart or kill (03/R62, 17/R397-R400). -/

@[simp] theorem form_restartCasting {cid} (h : MemoryForm s) : MemoryForm (restartCasting s cid) := by
  unfold restartCasting
  split
  · exact h
  next x k hx =>
    dsimp only
    refine form_sendFault ?_
    refine form_updCast.mpr ?_
    simp only [memoryForm_mk, formed_iff]
    refine form_updCluster.mpr ?_
    refine form_dropSnapshots.mpr ?_
    refine form_foldl (fun u x hu => ?_) ?_
    · simp [hu]
    · refine form_foldl (fun u x hu => ?_) ?_
      · simp [hu]
      · exact h

@[simp] theorem form_killForced {cid} (h : MemoryForm s) : MemoryForm (killForced s cid) := by
  unfold killForced
  split
  · exact h
  · dsimp only
    exact form_checkComplete (by simp [h])

@[simp] theorem form_forceCasting {cid} (h : MemoryForm s) : MemoryForm (forceCasting s cid) := by
  unfold forceCasting
  split
  · exact h
  · split
    · exact h
    · split <;> simp [h]

/-! ## Casting and port instructions (09/R222-R230), and the fabric allocator (16/R380, 17/R397-R400). -/

@[simp] theorem form_updDemands {c f} : MemoryForm (updDemands s c f) ↔ MemoryForm s := by
  unfold updDemands; simp
@[simp] theorem form_renewDemand {c r} : MemoryForm (renewDemand s c r) ↔ MemoryForm s := by
  unfold renewDemand; simp
@[simp] theorem form_recordDemand {key t blocks} : MemoryForm (recordDemand s key t blocks) ↔ MemoryForm s := by
  unfold recordDemand; simp
@[simp] theorem form_meetDemand {c r} : MemoryForm (meetDemand s c r) ↔ MemoryForm s := by
  unfold meetDemand; simp
@[simp] theorem ends_readImage {key t h' off} (h : MemoryForm s) :
    Ends (fun r => MemoryForm r.2) (readImage s key t h' off) := by
  unfold readImage
  split
  · simp
  · split
    · simp
    · split
      next x₁ e₁ hx₂ =>
        have hf := (ends_readIssue h).error hx₂
        exact hf
      next x₁ l u hx₂ =>
        have hf := (ends_readIssue h).ok hx₂
        dsimp only
        split
        · simp
        · split
          next x₃ e₂ hx₄ =>
            have hf₁ := (ends_readIssue hf).error hx₄
            exact hf₁
          next x₃ l₁ u₁ hx₄ =>
            have hf₁ := (ends_readIssue hf).ok hx₄
            split
            · simp
            · split <;> simp [hf₁]

@[simp] theorem ends_placeImage {key t d p m} (h : MemoryForm s) : Ends MemoryForm (placeImage s key t d p m) := by
  unfold placeImage; dsimp only; (repeat' split) <;> simp [h]
@[simp] theorem kept_execCastLoad {d a h' p} (h : MemoryForm s) : Kept (execCastLoad d a h' p s) := by
  unfold execCastLoad
  refine kept_issue h fun key t => ?_
  refine .bind ends_readSrc fun x _ => ?_
  refine .bind ends_destReady fun x₁ _ => ?_
  refine .bind (ends_readImage h) fun x₂ hx₂ => ?_
  split <;> simp [hx₂]

@[simp] theorem ends_namedCast {key t x} : Ends (fun _ => True) (namedCast s key t x) := by
  unfold namedCast
  dsimp only
  split
  · simp
  · split
    · simp
    · split
      · simp
      · split
        · simp
        · split <;> simp

@[simp] theorem form_setPredOf {key p v} : MemoryForm (setPredOf s key p v) ↔ MemoryForm s := by
  unfold setPredOf; simp
theorem ends_onCast {key t x p body} (h : MemoryForm s) (hb : ∀ cid k, Ends MemoryForm (body cid k)) :
    Ends MemoryForm (onCast s key t x p body) := by
  unfold onCast
  split
  next hx => exact ends_namedCast.error hx
  · simp [h]
  · exact hb _ _

@[simp] theorem kept_execCastBind {d h' p n} (h : MemoryForm s) : Kept (execCastBind d h' p n s) := by
  unfold execCastBind
  refine kept_issue h fun key t => ?_
  refine .bind ends_readField fun x _ => ?_
  unfold onCast
  split
  next x₁ e hx =>
    have hf := ends_namedCast.error hx
    exact hf
  · simp [h]
  · dsimp only
    split
    · simp
    · split
      · simp
      · split
        · simp
        · split <;> simp [h]

@[simp] theorem kept_execCastKill {d p} (h : MemoryForm s) : Kept (execCastKill d p s) := by
  unfold execCastKill
  refine kept_issue h fun key t => ?_
  refine .bind ends_readField fun x _ => ?_
  unfold onCast
  split
  next x₁ e hx =>
    have hf := ends_namedCast.error hx
    exact hf
  · simp [h]
  · simp [h]

@[simp] theorem form_dropCast {cid l} (h : MemoryForm s) : MemoryForm (dropCast s cid l) := by
  unfold dropCast; simp [h]
@[simp] theorem kept_execCastEnd {d p} (h : MemoryForm s) : Kept (execCastEnd d p s) := by
  unfold execCastEnd
  refine kept_issue h fun key t => ?_
  refine .bind ends_readField fun x _ => ?_
  unfold onCast
  split
  next x₁ e hx =>
    have hf := ends_namedCast.error hx
    exact hf
  · simp [h]
  · dsimp only
    split
    · simp [h]
    · split <;> simp [h]

@[simp] theorem kept_execBpush {d a port p} (h : MemoryForm s) : Kept (execBpush d a port p s) := by
  unfold execBpush
  refine kept_issue h fun key t => ?_
  refine .bind ends_readGroup fun ws _ => ?_
  refine .bind ends_readField fun x _ => ?_
  refine ends_onCast h fun cid k => ?_
  dsimp only
  split
  · simp
  · split
    · simp
    · split <;> simp [h]

@[simp] theorem kept_execBmark {d port p} (h : MemoryForm s) : Kept (execBmark d port p s) := by
  unfold execBmark
  refine kept_issue h fun key t => ?_
  refine .bind ends_readField fun x _ => ?_
  refine ends_onCast h fun cid k => ?_
  split
  · simp
  · split <;> simp [h]

@[simp] theorem kept_execBpull {d a port p} (h : MemoryForm s) : Kept (execBpull d a port p s) := by
  unfold execBpull
  dsimp only
  refine kept_issue h fun key t => ?_
  refine .bind ends_readSrc fun x _ => ?_
  refine .bind (ends_mapE (by simp)) fun x₁ _ => ?_
  refine ends_onCast h fun cid k => ?_
  split
  · simp
  · split
    · simp [h]
    · split
      next x₃ e hx₂ =>
        have hf := ends_producerSlot.error hx₂
        exact hf
      · simp [h]

@[simp] theorem kept_execCastingConfigurationLoaded {cid} (h : MemoryForm s) : Kept (execCastingConfigurationLoaded cid s) := by
  unfold execCastingConfigurationLoaded
  simp only [kept_next]
  split
  · split <;> simp [h]
  · exact h

@[simp] theorem kept_execCastingMove {cid pages} (h : MemoryForm s) : Kept (execCastingMove cid pages s) := by
  unfold execCastingMove
  simp only [kept_next]
  split
  · split
    · split <;> simp [h]
    · exact h
  · exact h

@[simp] theorem kept_execCastingSlice {cid} (h : MemoryForm s) : Kept (execCastingSlice cid s) := by
  unfold execCastingSlice
  simp only [kept_next]
  split
  · split
    · split <;> simp [h]
    · exact h
  · exact h

@[simp] theorem kept_execCastingReturn {cid} (h : MemoryForm s) : Kept (execCastingReturn cid s) := by
  unfold execCastingReturn
  simp only [kept_next]
  split
  · split
    · exact h
    · split
      · split <;> simp [h]
      · exact h
  · exact h

@[simp] theorem kept_execDemandExpiry {key} (h : MemoryForm s) : Kept (execDemandExpiry key s) := by
  unfold execDemandExpiry; simp [h]
@[simp] theorem kept_execForcedPreemption {cid} (h : MemoryForm s) : Kept (execForcedPreemption cid s) := by
  unfold execForcedPreemption
  simp only [kept_next]
  split
  · split
    · split <;> simp [h]
    · exact h
  · exact h

/-! ## Channels (15/R352-R357), message queues (15/R358-R360) and barriers (15/R361-R363). -/

@[simp] theorem kept_execChanBind {d a p} (h : MemoryForm s) : Kept (execChanBind d a p s) := by
  unfold execChanBind
  refine kept_issueOwn h fun t => ?_
  refine .bind ends_readSrc fun x _ => ?_
  refine .bind ends_readField fun w _ => ?_
  dsimp only
  split
  · simp
  · split
    · simp
    · split <;> simp

@[simp] theorem kept_execChanRaise {d a p} (h : MemoryForm s) : Kept (execChanRaise d a p s) := by
  unfold execChanRaise
  refine kept_issue h fun key t => ?_
  refine .bind ends_readSrc fun x _ => ?_
  refine .bind ends_readField fun w _ => ?_
  dsimp only
  split
  · simp
  · split
    · exact h
    · split <;> simp [h]

@[simp] theorem ends_queuePa {key t va} (h : MemoryForm s) : Ends (fun r => MemoryForm r.2) (queuePa s key t va) := by
  unfold queuePa
  split
  next x e hx =>
    have hf := (ends_place h).error hx
    exact hf
  next x pa u hx =>
    have hf := (ends_place h).ok hx
    exact hf
  · simp

@[simp] theorem ends_queueRead {ag pa n va} (h : MemoryForm s) : Ends (fun r => MemoryForm r.2) (queueRead s ag pa n va) := by
  unfold queueRead; split <;> simp [h]
@[simp] theorem ends_queueOpen {key t a h'} (h : MemoryForm s) :
    Ends (fun r => MemoryForm r.2.2.2) (queueOpen s key t a h') := by
  unfold queueOpen
  refine .bind ends_readSrc fun x _ => ?_
  refine .bind (ends_liftE (gives_true _)) fun va _ => ?_
  split
  · simp
  · refine .bind (ends_queuePa h) fun x₁ hx₁ => ?_
    split
    · refine .bind (ends_queueRead hx₁) fun x₁ hx₁₁ => ?_
      split
      · split
        · simp
        · refine .bind (ends_liftE (gives_true _)) fun x₁ _ => ?_
          exact hx₁₁

@[simp] theorem ends_queueWrite {ag pa n v va} (h : MemoryForm s) : Ends MemoryForm (queueWrite s ag pa n v va) := by
  unfold queueWrite
  exact ends_liftE (by simp [h])
@[simp] theorem kept_execQput {d a h' p} (h : MemoryForm s) : Kept (execQput d a h' p s) := by
  unfold execQput
  refine kept_issue h fun key t => ?_
  refine .bind ends_readField fun v _ => ?_
  refine .bind (ends_queueOpen h) fun x hx => ?_
  split
  · dsimp only
    split
    · exact hx
    · refine .bind (ends_queuePa hx) fun x hx₂ => ?_
      refine .bind (ends_queueWrite hx₂) fun s1 hs1 => ?_
      refine .bind (ends_queueWrite hs1) fun s2 hs2 => ?_
      exact hs2

@[simp] theorem kept_execQget {d a h' p} (h : MemoryForm s) : Kept (execQget d a h' p s) := by
  unfold execQget
  refine kept_issue h fun key t => ?_
  refine .bind (ends_queueOpen h) fun x hx => ?_
  split
  · dsimp only
    refine .bind ends_destReady fun x _ => ?_
    split
    · exact hx
    · refine .bind (ends_queuePa hx) fun x₁ hx₁₁ => ?_
      refine .bind (ends_queueRead hx₁₁) fun x₂ hx₂ => ?_
      refine .bind (ends_queueWrite hx₂) fun s1 hs1 => ?_
      exact hs1

@[simp] theorem kept_execBarArrive {d a p} (h : MemoryForm s) : Kept (execBarArrive d a p s) := by
  unfold execBarArrive
  refine kept_issue h fun key t => ?_
  refine .bind ends_readSrc fun x _ => ?_
  dsimp only
  split
  · simp
  · refine .bind (ends_liftE (gives_true _)) fun r _ => ?_
    refine .bind ends_writeDest fun t' _ => ?_
    exact h

@[simp] theorem kept_opBarTest {d a p f} (h : MemoryForm s) : Kept (opBarTest s d a p f) := by
  unfold opBarTest
  refine kept_issueOwn h fun t => ?_
  refine .bind ends_readSrc fun x _ => ?_
  split
  · simp
  · dsimp only
    refine .bind ends_writeDest fun t' _ => ?_
    simp

@[simp] theorem kept_execBarWait {d a p} (h : MemoryForm s) : Kept (execBarWait d a p s) := by
  unfold execBarWait; simp [h]
@[simp] theorem kept_execBarTest {d a p} (h : MemoryForm s) : Kept (execBarTest d a p s) := by
  unfold execBarTest; simp [h]

/-! ## Compare and predicate instructions (08/R199). -/

@[simp] theorem kept_opCmp {d a b r} (h : MemoryForm s) : Kept (opCmp s d a b r) := by
  unfold opCmp
  refine kept_issueOwn h fun t => ?_
  refine .bind ends_readSrc fun x _ => ?_
  refine .bind ends_readSrc fun y _ => ?_
  simp

@[simp] theorem kept_opPred {d f} (h : MemoryForm s) : Kept (opPred s d f) := by
  unfold opPred
  exact kept_issueOwn h fun t => (by simp)
@[simp] theorem kept_execCmpEq {d a b} (h : MemoryForm s) : Kept (execCmpEq d a b s) := by
  unfold execCmpEq; simp [h]
@[simp] theorem kept_execCmpNe {d a b} (h : MemoryForm s) : Kept (execCmpNe d a b s) := by
  unfold execCmpNe; simp [h]
@[simp] theorem kept_execCmpLt {d a b} (h : MemoryForm s) : Kept (execCmpLt d a b s) := by
  unfold execCmpLt; simp [h]
@[simp] theorem kept_execCmpLtu {d a b} (h : MemoryForm s) : Kept (execCmpLtu d a b s) := by
  unfold execCmpLtu; simp [h]
@[simp] theorem kept_execCmpLe {d a b} (h : MemoryForm s) : Kept (execCmpLe d a b s) := by
  unfold execCmpLe; simp [h]
@[simp] theorem kept_execCmpLeu {d a b} (h : MemoryForm s) : Kept (execCmpLeu d a b s) := by
  unfold execCmpLeu; simp [h]
@[simp] theorem kept_execPand {d a b} (h : MemoryForm s) : Kept (execPand d a b s) := by
  unfold execPand; simp [h]
@[simp] theorem kept_execPor {d a b} (h : MemoryForm s) : Kept (execPor d a b s) := by
  unfold execPor; simp [h]
@[simp] theorem kept_execPxor {d a b} (h : MemoryForm s) : Kept (execPxor d a b s) := by
  unfold execPxor; simp [h]
@[simp] theorem kept_execPnot {d a} (h : MemoryForm s) : Kept (execPnot d a s) := by
  unfold execPnot; simp [h]
@[simp] theorem kept_execPsel {d a b k} (h : MemoryForm s) : Kept (execPsel d a b k s) := by
  unfold execPsel
  refine kept_issueOwn h fun t => ?_
  refine .bind ends_readSrc fun x _ => ?_
  refine .bind ends_readSrc fun y _ => ?_
  simp

/-! ## What acts next: fetching (15/R343), selecting an instruction, the time that passes (17/R402), and the state in which a
given word is the next instruction. -/

@[simp] theorem ends_fetchWord {key t off} (h : MemoryForm s) : Ends (fun r => MemoryForm r.2) (fetchWord s key t off) := by
  unfold fetchWord; split <;> simp [h]
@[simp] theorem ends_fetchInstr {key t} (h : MemoryForm s) : Ends (fun r => MemoryForm r.2) (fetchInstr s key t) := by
  unfold fetchInstr
  split
  next hx => exact (ends_fetchWord h).error hx
  next b u hx =>
    have hu : MemoryForm u := (ends_fetchWord h).ok hx
    have hm : Ends (fun r => MemoryForm r.2)
        (if isLong (wordOfBytes b) then fetchWord u key t (t.pc + 4) else .ok ([], u)) := ends_ite (ends_fetchWord hu) hu
    dsimp only
    split
    next he => exact hm.error he
    next z he =>
      have hz : MemoryForm z := hm.ok he
      split <;> simp [hz]

@[simp] theorem ends_nextInstr {key t} (h : MemoryForm s) : Ends (fun r => MemoryForm r.2) (nextInstr s key t) :=
  ends_ite h (ends_ite h (ends_fetchInstr h))
@[simp] theorem form_passTime {dt} : MemoryForm (passTime s dt) ↔ MemoryForm s := by
  unfold passTime; simp
@[simp] theorem form_cacheFill {asid va} (h : MemoryForm s) : MemoryForm (cacheFill s asid va) := by
  unfold cacheFill
  split
  · exact h
  · split <;> simp [h]

@[simp] theorem form_cacheDrop {asid va} : MemoryForm (cacheDrop s asid va) ↔ MemoryForm s := by
  unfold cacheDrop; simp
@[simp] theorem form_outsideWrite {cells} (h : MemoryForm s) : MemoryForm (outsideWrite s cells) := by
  obtain ⟨hm, hr, ho, hb⟩ := h
  exact ⟨hm, hr, memPut_fold cells ho, hb⟩

/-! ## Transfers, frames and loops (15/R344-R350). -/

@[simp] theorem kept_execBr {p n o} (h : MemoryForm s) : Kept (execBr p n o s) := by
  unfold execBr
  exact kept_issueJump h fun key t => h
@[simp] theorem kept_execJmp {o} (h : MemoryForm s) : Kept (execJmp o s) := by
  unfold execJmp
  exact kept_issueJump h fun key t => h
@[simp] theorem ends_regTarget {t a} : Ends (fun _ => True) (regTarget t a) := by
  unfold regTarget
  refine .bind ends_readSrc fun x _ => ?_
  split <;> simp

@[simp] theorem kept_execJr {a} (h : MemoryForm s) : Kept (execJr a s) := by
  unfold execJr
  refine kept_issueJump h fun key t => ?_
  refine .bind ends_regTarget fun x _ => ?_
  exact h

@[simp] theorem kept_execCall {o} (h : MemoryForm s) : Kept (execCall o s) := by
  unfold execCall
  exact kept_issueJump h fun key t => h
@[simp] theorem kept_execCallr {a} (h : MemoryForm s) : Kept (execCallr a s) := by
  unfold execCallr
  refine kept_issueJump h fun key t => ?_
  refine .bind ends_regTarget fun x _ => ?_
  exact h

@[simp] theorem ends_yieldThread {key t} (h : MemoryForm s) : Ends MemoryForm (yieldThread s key t) := by
  unfold yieldThread
  split
  · simp
  · split <;> simp [h]

@[simp] theorem kept_execChanYield (h : MemoryForm s) : Kept (execChanYield s) := by
  unfold execChanYield
  exact kept_issueJump h fun key t => (by simp [h])
@[simp] theorem ends_returnFrame {key t} (h : MemoryForm s) : Ends MemoryForm (returnFrame s key t) := by
  unfold returnFrame
  split
  · simp
  · split
    · simp
    · split
      · exact h
      · split
        · simp
        next x₁ u u₁ g hx₃ =>
          have hf := (gives_fillFrame h).ok hx₃
          exact hf

@[simp] theorem kept_execRet (h : MemoryForm s) : Kept (execRet s) := by
  unfold execRet
  refine kept_issueJump h fun key t => ?_
  split <;> simp [h]

@[simp] theorem kept_execEnter {n} (h : MemoryForm s) : Kept (execEnter n s) := by
  unfold execEnter
  refine kept_attempt h fun key t => ?_
  split
  · simp
  · split
    next x e hx₁ =>
      have hf := (ends_spillFor h).error hx₁
      exact hf
    next x x₁ hx₁ =>
      have hf := (ends_spillFor h).ok hx₁
      exact hf

@[simp] theorem ends_startLoop {key t start e n} (h : MemoryForm s) : Ends MemoryForm (startLoop s key t start e n) := by
  unfold startLoop
  dsimp only
  refine .bind (ends_fetchWord h) fun x hx => ?_
  split
  · simp
  · split
    · simp
    · split <;> simp [hx]

@[simp] theorem kept_execLoop {count e} (h : MemoryForm s) : Kept (execLoop count e s) := by
  unfold execLoop
  exact kept_issueJump h fun key t => (by simp [h])
@[simp] theorem kept_execLoopr {a e} (h : MemoryForm s) : Kept (execLoopr a e s) := by
  unfold execLoopr
  refine kept_issueJump h fun key t => ?_
  refine .bind ends_readSrc fun n _ => ?_
  split <;> simp [h]

end Sys2Proof.Proofs.Form
end


section
/-! PROOFS. What the operations do to the four memories, in the order of the model (3 of 5). -/

namespace Sys2Proof.Proofs.Form

open Sys2Proof Sys2Proof.Machine

variable {s : State}

/-! ## Release writes that wait for a thread's writes to the host window (14/R332, R336, R341), and pod barriers (18/R425).
(DESIGN CHOICE, log 75.) -/

@[simp] theorem form_atHome {x} (h : MemoryForm s) : MemoryForm (atHome s x).1 := by
  unfold atHome; split <;> simp [h]
@[simp] theorem form_askHome {x} (h : MemoryForm s) : MemoryForm (askHome s x).st := by
  unfold askHome; dsimp only; (repeat' split) <;> simp [h]
@[simp] theorem form_performRelease {c r p} (h : MemoryForm s) : MemoryForm (performRelease c r s p) := by
  unfold performRelease
  have hu := form_updByRef (r := r) (f := fun t => { t with rels := t.rels.filter fun x => x.num ≠ p.num }) h
  generalize updByRef s r _ = u at hu
  dsimp only
  split
  · split
    · exact form_ite (form_sealCurd.mpr hu) hu
    · exact hu
  · exact form_ite (form_ringSet hu) hu
  · exact form_ite (form_updWindow.mpr hu) hu
  · exact form_updByRef (form_askHome hu)

@[simp] theorem form_releaseThread {c r ps} (h : MemoryForm s) : MemoryForm (releaseThread c r ps s) := by
  unfold releaseThread
  refine form_foldl (fun u x hu => ?_) ?_
  · split
    · split <;> simp [hu]
    · exact hu
  · exact h

@[simp] theorem form_performReleases (h : MemoryForm s) : MemoryForm (performReleases s) := by
  unfold performReleases
  refine form_foldl (fun u x hu => ?_) ?_
  · simp [hu]
  · exact h

/-! ## System instructions (15/R364-R366), special registers (08 Table 8.4, 15 Table 15.9, 17 Table 17.2), and what happens
to one thread between instructions: producers completing, faults delivered, channels entered. -/

@[simp] theorem kept_execSrd {d r} (h : MemoryForm s) : Kept (execSrd d r s) := by
  unfold execSrd
  refine kept_issueOwn h fun t => ?_
  split <;> simp

@[simp] theorem kept_execSwr {a r} (h : MemoryForm s) : Kept (execSwr a r s) := by
  unfold execSwr
  refine kept_issueOwn h fun t => ?_
  refine .bind ends_readSrc fun v _ => ?_
  split
  · simp
  · simp
  · split <;> simp
  · split <;> simp

@[simp] theorem kept_execTrap {c} (h : MemoryForm s) : Kept (execTrap c s) := by
  unfold execTrap
  exact kept_attempt h fun key t => (by simp)
@[simp] theorem kept_execBrk {c} (h : MemoryForm s) : Kept (execBrk c s) := by
  unfold execBrk
  exact kept_attempt h fun key t => (by simp)
@[simp] theorem kept_execEret (h : MemoryForm s) : Kept (execEret s) := by
  unfold execEret
  exact kept_attempt h fun key t => (by simp [h])
@[simp] theorem kept_execNop (h : MemoryForm s) : Kept (execNop s) := by
  unfold execNop
  exact kept_issueOwn h fun t => (by simp)
@[simp] theorem kept_execIllegalInstruction {_w} (h : MemoryForm s) : Kept (execIllegalInstruction _w s) := by
  unfold execIllegalInstruction
  exact kept_attempt h fun key t => (by simp)
@[simp] theorem kept_execFaultDelivery (h : MemoryForm s) : Kept (execFaultDelivery s) := by
  unfold execFaultDelivery; dsimp only; (repeat' split) <;> simp [h]
@[simp] theorem kept_execChannelEntry (h : MemoryForm s) : Kept (execChannelEntry s) := by
  unfold execChannelEntry
  split
  · simp
  · split <;> simp [h]

@[simp] theorem form_applyFinals {key r} (h : MemoryForm s) : MemoryForm (applyFinals s key r) := by
  unfold applyFinals
  split
  · exact h
  next x t hx =>
    dsimp only
    refine form_foldl (fun u x hu => ?_) ?_
    · simp [hu]
    · simp [h]

@[simp] theorem form_raiseLate {t p c} (h : MemoryForm s) : MemoryForm (raiseLate s t p c) := by
  unfold raiseLate; dsimp only; (repeat' split) <;> simp [h]
@[simp] theorem form_answered {p} (h : MemoryForm s) : MemoryForm (answered s p).1 := by
  unfold answered; split <;> simp [h]
@[simp] theorem form_completeProducer {key t idx} (h : MemoryForm s) : MemoryForm (completeProducer s key t idx) := by
  unfold completeProducer
  split
  · exact h
  next p _ =>
    refine form_ite h ?_
    split
    next hx =>
      have hu := form_fst (form_answered h) hx
      dsimp only
      split
      · exact form_applyFinals (form_updByRef hu)
      · exact form_raiseLate (form_applyFinals (form_updByRef hu))

@[simp] theorem kept_execLongLatencyProducerComplete {key idx} (h : MemoryForm s) :
    Kept (execLongLatencyProducerComplete key idx s) := by
  unfold execLongLatencyProducerComplete; dsimp only; (repeat' split) <;> simp [h]

/-! ## Curd instructions (07/R173-R180). -/

@[simp] theorem ends_openCurd {key t x} : Ends (fun _ => True) (openCurd s key t x) := by
  unfold openCurd
  dsimp only
  split
  · simp
  · split
    · simp
    · split <;> simp

@[simp] theorem kept_execCalloc {d a p part} (h : MemoryForm s) : Kept (execCalloc d a p part s) := by
  unfold execCalloc
  refine kept_issue h fun key t => ?_
  dsimp only
  refine .bind ends_readSrc fun x _ => ?_
  split
  · simp
  · split
    · simp
    · refine .bind ends_destReady fun x₁ _ => ?_
      split <;> simp [h]

@[simp] theorem kept_execCseal {a as ss} (h : MemoryForm s) : Kept (execCseal a as ss s) := by
  unfold execCseal
  refine kept_issue h fun key t => ?_
  refine .bind ends_readSrc fun x _ => ?_
  refine .bind ends_openCurd fun x₁ _ => ?_
  split
  · split
    · simp
    · split <;> simp [h]

@[simp] theorem kept_execCldR {d a b z} (h : MemoryForm s) : Kept (execCldR d a b z s) := by
  unfold execCldR
  refine kept_issue h fun key t => ?_
  dsimp only
  refine .bind ends_readSrc fun x _ => ?_
  refine .bind ends_readSrc fun o _ => ?_
  refine .bind ends_openCurd fun x₁ _ => ?_
  split
  · simp
  · split
    · simp
    · split
      · simp
      · refine .bind ends_destReady fun x₂ _ => ?_
        refine .bind ends_producerSlot fun x₃ _ => ?_
        simp only [ends_pure]
        refine form_setThread.mpr ?_
        refine form_useBanks.mpr ?_
        split <;> simp [h]

@[simp] theorem kept_execCfin (h : MemoryForm s) : Kept (execCfin s) := by
  unfold execCfin
  exact kept_issue h fun key t => (by simp [h])
@[simp] theorem kept_execCdrop {a n} (h : MemoryForm s) : Kept (execCdrop a n s) := by
  unfold execCdrop
  refine kept_issue h fun key t => ?_
  dsimp only
  refine .bind ends_readSrc fun x _ => ?_
  refine .bind ends_openCurd fun x₁ _ => ?_
  split <;> simp [h]

@[simp] theorem kept_execCinfo {d a} (h : MemoryForm s) : Kept (execCinfo d a s) := by
  unfold execCinfo
  refine kept_issueOwn h fun t => ?_
  dsimp only
  refine .bind ends_readSrc fun x _ => ?_
  split
  · simp
  · split
    · simp
    · split <;> simp

@[simp] theorem kept_execCpart {a part} (h : MemoryForm s) : Kept (execCpart a part s) := by
  unfold execCpart
  refine kept_issue h fun key t => ?_
  split
  · simp
  · refine .bind ends_readSrc fun x _ => ?_
    dsimp only
    split
    · simp
    · split <;> simp [h]

/-! ## Memory nodes (11/R272-R281, R286, 04/R96, R97). A turn of a memory node emits a billet whose access has been performed
and takes one from input a; the access itself is `nodeAccessPerformed`. -/

@[simp] theorem form_fire {n} : MemoryForm (State.fire s n) ↔ MemoryForm s := by
  unfold State.fire; simp
@[simp] theorem form_emitOnce {n f k} : MemoryForm (emitOnce s n f k) ↔ MemoryForm s := by
  unfold emitOnce; split <;> simp
@[simp] theorem form_takeTurn {n f k} (h : MemoryForm s) : MemoryForm (takeTurn s n f k) := by
  unfold takeTurn; dsimp only; (repeat' split) <;> simp [h]
@[simp] theorem kept_memTurn {f} (h : MemoryForm s) : Kept (memTurn s f) := by
  unfold memTurn; dsimp only; (repeat' split) <;> simp [h]
@[simp] theorem kept_execLdS {f} (h : MemoryForm s) : Kept (execLdS f s) := by
  unfold execLdS; simp [h]
@[simp] theorem kept_execStS {f} (h : MemoryForm s) : Kept (execStS f s) := by
  unfold execStS; simp [h]
@[simp] theorem kept_execAmoS {f} (h : MemoryForm s) : Kept (execAmoS f s) := by
  unfold execAmoS; simp [h]
@[simp] theorem kept_execLdG {f} (h : MemoryForm s) : Kept (execLdG f s) := by
  unfold execLdG; simp [h]
@[simp] theorem kept_execStG {f} (h : MemoryForm s) : Kept (execStG f s) := by
  unfold execStG; simp [h]
@[simp] theorem kept_execLdC {f} (h : MemoryForm s) : Kept (execLdC f s) := by
  unfold execLdC; simp [h]
@[simp] theorem kept_execStC {f} (h : MemoryForm s) : Kept (execStC f s) := by
  unfold execStC; simp [h]
@[simp] theorem form_heldDone {n taken out st undo} : MemoryForm (heldDone s n taken out st undo) ↔ MemoryForm s := by
  unfold heldDone; simp
@[simp] theorem form_heldFault {n taken e page} (h : MemoryForm s) : MemoryForm (heldFault s n taken e page) := by
  unfold heldFault; dsimp only; (repeat' split) <;> simp [h]
@[simp] theorem form_scratchDo {kd f n h' p fr} (h : MemoryForm s) : MemoryForm (scratchDo s kd f n h' p fr) := by
  unfold scratchDo; split <;> simp [h]
@[simp] theorem form_performScratch {kd f k n h'} (h : MemoryForm s) : MemoryForm (performScratch s kd f k n h') := by
  unfold performScratch; dsimp only; (repeat' split) <;> simp [h]
theorem form_nodeShare {n inv idx k x u} (h : MemoryForm s) (hu : nodeShare s n inv idx k x = some u) : MemoryForm u := by
  unfold nodeShare at hu
  split at hu
  · cases hu; exact h
  · split at hu
    · cases hu
    · cases hu; simp [h]

@[simp] theorem form_performCurd {kd f k n x} (h : MemoryForm s) : MemoryForm (performCurd s kd f k n x) := by
  unfold performCurd
  dsimp only
  refine form_ite (form_heldFault h) ?_
  split
  · exact form_heldFault h
  · refine form_ite (form_heldFault h) <| form_ite (form_ite (form_heldFault h) ?_) <| form_ite h ?_
    · exact form_heldDone.mpr (form_useBanks.mpr (form_curdWrite h))
    · split
      · exact form_heldFault h
      next u hu =>
        have hs := form_nodeShare h hu
        exact form_ite (form_heldFault hs) (form_heldDone.mpr (form_useBanks.mpr hs))

@[simp] theorem form_divert {n taken va store e} (h : MemoryForm s) : MemoryForm (divert s n taken va store e) := by
  unfold divert; dsimp only; (repeat' split) <;> simp [h]
@[simp] theorem ends_onePiece {ag store t len data ea} (h : MemoryForm s) :
    Ends (fun r => MemoryForm r.st) (onePiece s ag store t len data ea) := by
  unfold onePiece
  split
  · split
    next x e hx₁ =>
      have hf := (ends_accWrite h).error hx₁
      exact hf
    next x d hx₁ =>
      have hf := (ends_accWrite h).ok hx₁
      exact hf
  · simp [h]

@[simp] theorem ends_globalPieces {ag store l x} (h : MemoryForm s) :
    Ends (fun r => MemoryForm r.st) (globalPieces ag store l s x) := by
  induction l generalizing s x with
  | nil => exact h
  | cons p ps ih =>
    obtain ⟨va, len, data⟩ := p
    unfold globalPieces
    split
    · simp
    · split
      next hx => exact (ends_onePiece (form_noteStream h)).error hx
      next g hg =>
        have hs : MemoryForm g.st := (ends_onePiece (form_noteStream h)).ok hg
        split
        · simp [hs]
        · split
          next hx => exact (ih hs).error hx
          next q hq =>
            have hu : MemoryForm q.st := (ih hs).ok hq
            exact hu

@[simp] theorem form_performGlobal {kd f k n h'} (h : MemoryForm s) : MemoryForm (performGlobal s kd f k n h') := by
  unfold performGlobal
  dsimp only
  split
  · simp [h]
  · split
    · simp [h]
    · split
      · simp [h]
      · split
        next x₁ keep hx₃ =>
          have hf := (ends_globalPieces h).error hx₃
          exact excForm_wait hf h
        next x₁ e₁ keep hx₃ =>
          have hf := (ends_globalPieces h).error hx₃
          split
          · simp [h]
          · exact form_heldFault (excForm_keep hf h)
        next x₁ q hx₃ =>
          have hf := (ends_globalPieces h).ok hx₃
          exact hf

@[simp] theorem form_performHeld {kd f k n h'} (h : MemoryForm s) : MemoryForm (performHeld s kd f k n h') := by
  unfold performHeld; split <;> simp [h]
@[simp] theorem form_emitAfter {n f} (h : MemoryForm s) : MemoryForm (emitAfter s n f) := by
  unfold emitAfter
  split
  · exact h
  · split <;> simp [h]

@[simp] theorem kept_execNodeAccessPerformed {n idx} (h : MemoryForm s) : Kept (execNodeAccessPerformed n idx s) := by
  unfold execNodeAccessPerformed
  simp only [kept_next]
  split
  · split
    · exact h
    · split
      · exact h
      · split
        · split <;> simp [h]
        · split <;> simp [h]
  · exact h

@[simp] theorem form_agRead {f n k h'} (h : MemoryForm s) : MemoryForm (agRead s f n k h') := by
  unfold agRead
  dsimp only
  split
  · split <;> simp [h]
  · split
    · split <;> simp [h]
    · split
      next x₁ keep hx₂ =>
        have hf := (ends_readIssue h).error hx₂
        split
        · exact excForm_wait hf h
        · exact excForm_wait hf h
      next x₁ e₁ keep hx₂ =>
        have hf := (ends_readIssue h).error hx₂
        split
        · simp [h]
        · split <;> simp [h]
      next x₁ b u hx₂ =>
        have hf := (ends_readIssue h).ok hx₂
        split
        · split <;> simp [hf]
        · exact hf

@[simp] theorem kept_execAg {f} (h : MemoryForm s) : Kept (execAg f s) := by
  unfold execAg
  refine kept_atNode h fun n k => ?_
  dsimp only
  split
  · split <;> simp [h]
  · split
    · split <;> simp [h]
    · split
      · exact h
      · split
        · simp [h]
        · split
          · exact h
          · split <;> simp [h]

@[simp] theorem form_tryAlloc {f n k a} (h : MemoryForm s) : MemoryForm (tryAlloc s f n k a) := by
  unfold tryAlloc; dsimp only; (repeat' split) <;> simp [h]
@[simp] theorem form_allocTurn {f n k} (h : MemoryForm s) : MemoryForm (allocTurn s f n k) := by
  unfold allocTurn; dsimp only; (repeat' split) <;> simp [h]
@[simp] theorem kept_execCAlloc {f} (h : MemoryForm s) : Kept (execCAlloc f s) := by
  unfold execCAlloc
  exact kept_atNode h fun n k => (by simp [h])
@[simp] theorem kept_execCurdGrant {n} (h : MemoryForm s) : Kept (execCurdGrant n s) := by
  unfold execCurdGrant
  simp only [kept_next]
  split
  · split <;> simp [h]
  · exact h

@[simp] theorem form_commitSeals {n hs} (h : MemoryForm s) : MemoryForm (commitSeals s n hs) := by
  unfold commitSeals
  refine form_foldl (fun u x hu => ?_) ?_
  · split <;> simp [hu]
  · exact h

@[simp] theorem kept_execCSeal {f} (h : MemoryForm s) : Kept (execCSeal f s) := by
  unfold execCSeal
  refine kept_atNode h fun n k => ?_
  split
  · exact h
  · dsimp only
    split
    · exact h
    · split
      · split
        · split <;> simp [h]
        · exact h
      · split
        · split
          · simp [h]
          · split
            · simp [h]
            · split
              · exact h
              · split <;> simp [h]
        · exact h

/-! ## Matrix islands: holding and pre-empting them (12/R287, R288, R299, R304), the island order (11/R282), the `mx`
instructions (12/R301-R309), the performance of items (12/R293-R298, R300) and the island nodes (11/R283, R284). -/

@[simp] theorem form_acceptItem {c i src it} : MemoryForm (acceptItem s c i src it) ↔ MemoryForm s := by
  unfold acceptItem; simp
@[simp] theorem form_preemptIsland {c i forL} (h : MemoryForm s) : MemoryForm (preemptIsland s c i forL) := by
  unfold preemptIsland
  dsimp only
  split
  next x h₁ by' hx =>
    refine form_foldl (fun u x hu => ?_) ?_
    · simp [hu]
    · split <;> simp [h]
  · exact h

@[simp] theorem form_mapLines {asid x2 x3} (h : MemoryForm s) : MemoryForm (mapLines asid s x2 x3).1 := by
  fun_induction mapLines asid s x2 x3 <;> simp_all
@[simp] theorem form_requestPins {c i t} : MemoryForm (requestPins s c i t) ↔ MemoryForm s := by
  unfold requestPins; split <;> simp
@[simp] theorem form_fetchTile {c i asid d} (h : MemoryForm s) : MemoryForm (fetchTile s c i asid d).1 := by
  unfold fetchTile
  dsimp only
  split
  next hx => exact form_updIsland.mpr (form_fst (form_mapLines h) hx)
  next hx => exact form_requestPins.mpr (form_fst (form_mapLines h) hx)
  next hx => exact form_requestPins.mpr (form_fst (form_mapLines h) hx)

@[simp] theorem kept_execTileLoadComplete {cl i} (h : MemoryForm s) : Kept (execTileLoadComplete cl i s) := by
  unfold execTileLoadComplete; dsimp only; (repeat' split) <;> simp [h]
@[simp] theorem kept_issueIsland {i names body} (h : MemoryForm s) (hbody : ∀ u0 u1, Ends MemoryForm (body u0 u1)) :
    Kept (issueIsland s i names body) := by
  unfold issueIsland
  refine kept_issue h fun key t => ?_
  split
  · exact hbody _ _
  · simp

@[simp] theorem form_placeItem {key t i p it} : MemoryForm (placeItem s key t i p it) ↔ MemoryForm s := by
  unfold placeItem; dsimp only; split <;> simp
@[simp] theorem kept_execMxBind {a h' p i} (h : MemoryForm s) : Kept (execMxBind a h' p i s) := by
  unfold execMxBind
  refine kept_issueIsland ?_ ?_
  · exact h
  · intro u0 u1
    dsimp only
    refine .bind ends_readSrc fun x _ => ?_
    refine .bind (ends_liftE (gives_true _)) fun va _ => ?_
    refine .bind (ends_readIssue h) fun x₁ hx₁ => ?_
    split
    · simp
    · refine .bind (ends_liftE (gives_true _)) fun x₂ _ => ?_
      split <;> simp [hx₁]

@[simp] theorem kept_execMxScale {a h' p i} (h : MemoryForm s) : Kept (execMxScale a h' p i s) := by
  unfold execMxScale
  refine kept_issueIsland ?_ ?_
  · exact h
  · intro u0 u1
    refine .bind ends_readSrc fun x _ => ?_
    refine .bind (ends_liftE (gives_true _)) fun va _ => ?_
    refine .bind (ends_readIssue h) fun x₁ hx₁ => ?_
    split <;> simp [hx₁]

@[simp] theorem form_claimMode {key t p i w} (h : MemoryForm s) : MemoryForm (claimMode s key t p i w) := by
  unfold claimMode; dsimp only; (repeat' split) <;> simp [h]
@[simp] theorem kept_execMxMode {a p i} (h : MemoryForm s) : Kept (execMxMode a p i s) := by
  unfold execMxMode
  refine kept_issue h fun key t => ?_
  refine .bind ends_readSrc fun w _ => ?_
  split <;> simp [h]

@[simp] theorem kept_execMxFire {d a p i} (h : MemoryForm s) : Kept (execMxFire d a p i s) := by
  unfold execMxFire
  refine kept_issueIsland ?_ ?_
  · exact h
  · intro u0 u1
    refine .bind ends_readSrc fun x _ => ?_
    refine .bind ends_readField fun w _ => ?_
    dsimp only
    split <;> simp [h]

@[simp] theorem kept_execMxAcc {d a p i} (h : MemoryForm s) : Kept (execMxAcc d a p i s) := by
  unfold execMxAcc
  refine kept_issueIsland ?_ ?_
  · exact h
  · intro u0 u1
    refine .bind ends_readSrc fun w _ => ?_
    refine .bind ends_readField fun v _ => ?_
    dsimp only
    split <;> simp [h]

@[simp] theorem kept_execMxRlbl {i o} (h : MemoryForm s) : Kept (execMxRlbl i o s) := by
  unfold execMxRlbl; simp [h]
@[simp] theorem form_dropHead {c i} : MemoryForm (dropHead s c i) ↔ MemoryForm s := by
  unfold dropHead; dsimp only; (repeat' split) <;> simp
@[simp] theorem form_clearHalt {c i} : MemoryForm (clearHalt s c i) ↔ MemoryForm s := by
  unfold clearHalt; dsimp only; split <;> simp
@[simp] theorem kept_execMxDrain {p i} (h : MemoryForm s) : Kept (execMxDrain p i s) := by
  unfold execMxDrain; simp [h]
@[simp] theorem kept_execMxUnpin {p i} (h : MemoryForm s) : Kept (execMxUnpin p i s) := by
  unfold execMxUnpin; simp [h]
theorem kept_performHead {c i body} (h : MemoryForm s) (hb : ∀ u x y, MemoryForm u → MemoryForm (body u x y)) :
    Kept (performHead s c i body) := by
  refine form_ite h ?_
  dsimp only
  split
  · simp [h]
  · exact hb _ _ _ (form_updIsland.mpr h)

@[simp] theorem form_popHead {c i} : MemoryForm (popHead s c i) ↔ MemoryForm s := by
  unfold popHead; simp
@[simp] theorem form_islandFault {c i src e discard} (h : MemoryForm s) : MemoryForm (islandFault s c i src e discard) := by
  unfold islandFault; simp [h]
@[simp] theorem form_flagItem {src f} (h : MemoryForm s) : MemoryForm (flagItem s src f) := by
  unfold flagItem
  split
  · simp [h]
  · split <;> simp [h]

@[simp] theorem form_rowError {c i x src rows go} (h : MemoryForm s) (hgo : MemoryForm go) :
    MemoryForm (rowError s c i x src rows go) := by
  unfold rowError
  split <;> simp [hgo, h]

theorem form_fireWith {c i x src bytes sel done} (h : MemoryForm s) (hd : ∀ u, MemoryForm u → MemoryForm (done u)) :
    MemoryForm (fireWith s c i x src bytes sel done) := by
  unfold fireWith
  split
  · exact form_rowError h (hd _ (form_flagItem (form_updIsland.mpr h)))
  · exact h

@[simp] theorem ends_rowBytes {ag l space} (h : MemoryForm s) : Ends (fun r => MemoryForm r.2) (rowBytes ag l s space) := by
  induction l generalizing s with
  | nil => exact h
  | cons p ps ih =>
    obtain ⟨o, n⟩ := p
    unfold rowBytes
    dsimp only
    split
    next hx => exact (ends_resolveFor h).error hx
    next f _ =>
      refine ends_ite (by simp) ?_
      have hs := ih (s := useBanks (touchPage s ag.cl (2048 * space + o / 2048)) (frameAddr ag.cl f (o % 2048)) n) (by simp [h])
      split
      next hx => exact hs.error hx
      next l u hx =>
        have hu : MemoryForm u := hs.ok hx
        exact hu

@[simp] theorem form_fireScratch {c i x y sw sel count done} (h : MemoryForm s) :
    MemoryForm (fireScratch s c i x y sw sel count done) := by
  unfold fireScratch
  dsimp only
  split
  next hx => exact excForm_wait ((ends_rowBytes h).error hx) h
  · exact form_islandFault h
  next hx =>
    refine form_fireWith ((ends_rowBytes h).ok hx) fun u hu => ?_
    exact form_ite (form_updIsland.mpr hu) (form_popHead.mpr hu)

@[simp] theorem form_fireHead {cl i x y} (h : MemoryForm s) : MemoryForm (fireHead s cl i x y) := by
  unfold fireHead
  split
  · exact form_fireWith h fun u hu => form_popHead.mpr hu
  · exact form_fireScratch h
  · exact h

@[simp] theorem kept_execRowFire {cl i} (h : MemoryForm s) : Kept (execRowFire cl i s) := by
  unfold execRowFire
  refine kept_performHead ?_ ?_
  · exact h
  · intro u x y h'
    split
    · exact h'
    · split
      · simp [h']
      · split <;> simp [h']

@[simp] theorem kept_execReadoutPerform {cl i} (h : MemoryForm s) : Kept (execReadoutPerform cl i s) := by
  unfold execReadoutPerform
  unfold performHead
  dsimp only
  simp only [kept_next]
  split
  · exact h
  · split
    · exact h
    · split
      · refine form_rowError ?_ ?_
        · exact h
        · split
          · split <;> simp [h]
          · exact h
      · exact h

@[simp] theorem form_makeCurrent {c i x t} : MemoryForm (makeCurrent s c i x t) ↔ MemoryForm s := by
  unfold makeCurrent; split <;> simp
@[simp] theorem kept_execBindPerform {cl i} (h : MemoryForm s) : Kept (execBindPerform cl i s) := by
  unfold execBindPerform
  refine kept_performHead ?_ ?_
  · exact h
  · intro u x y h'
    split
    · split
      · simp [h']
      · split
        · split
          next x₃ u₁ hx₄ =>
            have hf := form_fst (form_fetchTile h') hx₄
            exact hf
          next x₃ u₁ e hx₄ =>
            have hf := form_fst (form_fetchTile h') hx₄
            simp [hf]
        · split
          · simp [h']
          · split
            · simp [h']
            · split <;> simp [h']
    · exact h'

@[simp] theorem kept_execModeItemPerform {cl i} (h : MemoryForm s) : Kept (execModeItemPerform cl i s) := by
  unfold execModeItemPerform
  unfold performHead
  dsimp only
  simp only [kept_next]
  split
  · exact h
  · split
    · exact h
    · split
      · split <;> simp [h]
      · exact h

@[simp] theorem kept_execScaleItemPerform {cl i} (h : MemoryForm s) : Kept (execScaleItemPerform cl i s) := by
  unfold execScaleItemPerform
  unfold performHead
  dsimp only
  simp only [kept_next]
  split
  · exact h
  · split
    · exact h
    · split <;> simp [h]

@[simp] theorem kept_execAccItemPerform {cl i} (h : MemoryForm s) : Kept (execAccItemPerform cl i s) := by
  unfold execAccItemPerform
  unfold performHead
  dsimp only
  simp only [kept_next]
  split
  · exact h
  · split
    · exact h
    · split <;> simp [h]

@[simp] theorem kept_execUnpinItemPerform {cl i} (h : MemoryForm s) : Kept (execUnpinItemPerform cl i s) := by
  unfold execUnpinItemPerform
  unfold performHead
  dsimp only
  simp only [kept_next]
  split
  · exact h
  · split
    · exact h
    · split
      · split <;> simp [h]
      · exact h

@[simp] theorem kept_execConfigTokenPerform {cl i} (h : MemoryForm s) : Kept (execConfigTokenPerform cl i s) := by
  unfold execConfigTokenPerform
  unfold performHead
  dsimp only
  simp only [kept_next]
  split
  · exact h
  · split
    · exact h
    · split
      · split
        · exact h
        · split <;> simp [h]
      · exact h

/-- What a row's source keeps where it ends early. -/
theorem form_aRowBytes {f n k a len} (h : MemoryForm s) :
    (∀ r, aRowBytes s f n k a len = .ok r → MemoryForm r.2) ∧ ∀ e, aRowBytes s f n k a len = .error e → ExcForm e.1 := by
  unfold aRowBytes
  dsimp only
  have hr := ends_rowBytes (ag := nodeAgent k n) (l := pagePieces (bits (fieldOf a.data f.fa.toNat) 21 0) len)
    (space := bits (fieldOf a.data f.fa.toNat) 31 22) h
  split
  · split
    · simp
    · split
      · simp
      · split
        next hx => exact ⟨fun r hq => (by cases hq; exact hr.ok hx), fun e hq => (by cases hq)⟩
        next y keep hx =>
          refine ⟨fun r hq => (by cases hq), fun e hq => ?_⟩
          cases hq
          have hk : ExcForm (.trap y keep) := hr.error hx
          exact hk
        next hx =>
          refine ⟨fun r hq => (by cases hq), fun e hq => ?_⟩
          cases hq
          exact hr.error hx
  · split
    · simp
    · split
      · simp
      · split
        · simp
        · split
          · simp
          · split
            · simp
            next u hu =>
              have hs := form_nodeShare h hu
              split
              · simp
              · refine ⟨fun r hq => ?_, fun e hq => (by cases hq)⟩
                cases hq
                exact (memoryForm_foldl (fun _ _ => form_useBanks) _).mpr hs

@[simp] theorem form_inputFault {n e page} (h : MemoryForm s) : MemoryForm (inputFault s n e page) := by
  unfold inputFault; split <;> simp [h]
theorem form_offerItem {n k i go} (h : MemoryForm s) (hg : ∀ u, MemoryForm u → MemoryForm (go u)) :
    MemoryForm (offerItem s n k i go) := by
  unfold offerItem
  dsimp only
  exact form_ite (form_nodeStop h) (form_ite h (hg s h))

@[simp] theorem form_aRowData {f n k a} (h : MemoryForm s) : MemoryForm (aRowData s f n k a) := by
  unfold aRowData
  dsimp only
  split
  next hx => exact excForm_wait ((form_aRowBytes h).2 _ hx) h
  next hx => exact form_inputFault (excForm_keep ((form_aRowBytes h).2 _ hx) h)
  next hx =>
    refine form_offerItem ((form_aRowBytes h).1 _ hx) fun u hu => ?_
    simp [hu]

@[simp] theorem form_acceptToken {c i src a} : MemoryForm (acceptToken s c i src a) ↔ MemoryForm s := by
  unfold acceptToken; dsimp only; split <;> simp
@[simp] theorem kept_execARow {f} (h : MemoryForm s) : Kept (execARow f s) := by
  unfold execARow
  refine kept_atNode h fun n k => ?_
  dsimp only
  split
  · exact h
  · split
    · refine form_offerItem ?_ ?_
      · exact h
      · simp
    · split
      · exact h
      · split
        · refine form_offerItem ?_ ?_
          · exact h
          · intro u h'
            simp [h']
        · split <;> simp [h]

@[simp] theorem form_emitReadout {f n k l} : MemoryForm (emitReadout s f n k l) ↔ MemoryForm s := by
  unfold emitReadout; dsimp only; (repeat' split) <;> simp
@[simp] theorem kept_execAccRd {f} (h : MemoryForm s) : Kept (execAccRd f s) := by
  unfold execAccRd
  refine kept_atNode h fun n k => ?_
  dsimp only
  split
  · split
    · split <;> simp [h]
    · simp [h]
  · split
    · exact h
    · split
      · refine form_offerItem ?_ ?_
        · exact h
        · simp
      · split
        · exact h
        · split <;> simp [h]

end Sys2Proof.Proofs.Form
end


section
/-! PROOFS. What the operations do to the four memories, in the order of the model (4 of 5). -/

namespace Sys2Proof.Proofs.Form

open Sys2Proof Sys2Proof.Machine

variable {s : State}

/-! ## Loads, stores and `pfetch` (08/R200-R203). -/

@[simp] theorem ends_effAddr {t a h' o size need} : Ends (fun _ => True) (effAddr t a h' o size need) := by
  unfold effAddr
  refine .bind ends_readSrc fun x _ => ?_
  refine .bind (ends_liftE (gives_true _)) fun va _ => ?_
  split <;> simp

@[simp] theorem ends_deliverLoad {key t d v g va} (hg : MemoryForm g.st) : Ends MemoryForm (deliverLoad key t d v g va) := by
  unfold deliverLoad
  refine .bind ends_destReady fun x _ => ?_
  split
  · exact hg
  · refine .bind ends_producerSlot fun x₁ _ => ?_
    exact hg

@[simp] theorem kept_opLoad {d a h' o size ext} (h : MemoryForm s) : Kept (opLoad s d a h' o size ext) := by
  unfold opLoad
  refine kept_issue h fun key t => ?_
  refine .bind ends_effAddr fun va _ => ?_
  refine .bind (ends_readAt h) fun g hg => ?_
  simp [hg]

@[simp] theorem kept_opStore {r a h' o size} (h : MemoryForm s) : Kept (opStore s r a h' o size) := by
  unfold opStore
  refine kept_issue h fun key t => ?_
  refine .bind ends_effAddr fun va _ => ?_
  refine .bind ends_readField fun v _ => ?_
  refine .bind (ends_writeAt h) fun x hx => ?_
  exact hx

@[simp] theorem kept_execLdB {d a h' o} (h : MemoryForm s) : Kept (execLdB d a h' o s) := by
  unfold execLdB; simp [h]
@[simp] theorem kept_execLdBu {d a h' o} (h : MemoryForm s) : Kept (execLdBu d a h' o s) := by
  unfold execLdBu; simp [h]
@[simp] theorem kept_execLdH {d a h' o} (h : MemoryForm s) : Kept (execLdH d a h' o s) := by
  unfold execLdH; simp [h]
@[simp] theorem kept_execLdHu {d a h' o} (h : MemoryForm s) : Kept (execLdHu d a h' o s) := by
  unfold execLdHu; simp [h]
@[simp] theorem kept_execLdW {d a h' o} (h : MemoryForm s) : Kept (execLdW d a h' o s) := by
  unfold execLdW; simp [h]
@[simp] theorem kept_execLdWu {d a h' o} (h : MemoryForm s) : Kept (execLdWu d a h' o s) := by
  unfold execLdWu; simp [h]
@[simp] theorem kept_execLdD {d a h' o} (h : MemoryForm s) : Kept (execLdD d a h' o s) := by
  unfold execLdD; simp [h]
@[simp] theorem kept_execStB {r a h' o} (h : MemoryForm s) : Kept (execStB r a h' o s) := by
  unfold execStB; simp [h]
@[simp] theorem kept_execStH {r a h' o} (h : MemoryForm s) : Kept (execStH r a h' o s) := by
  unfold execStH; simp [h]
@[simp] theorem kept_execStW {r a h' o} (h : MemoryForm s) : Kept (execStW r a h' o s) := by
  unfold execStW; simp [h]
@[simp] theorem kept_execStD {r a h' o} (h : MemoryForm s) : Kept (execStD r a h' o s) := by
  unfold execStD; simp [h]
@[simp] theorem form_prefetch {t h' off} (h : MemoryForm s) : MemoryForm (prefetch s t h' off) := by
  unfold prefetch
  split
  · exact h
  · split <;> simp [h]

@[simp] theorem kept_execPfetch {a h' o} (h : MemoryForm s) : Kept (execPfetch a h' o s) := by
  unfold execPfetch
  refine kept_issue h fun key t => ?_
  refine .bind ends_readSrc fun x _ => ?_
  simp [h]

/-! ## Streamer islands: shape records (05/R112-R115), copies (05/R109-R121), rings (05/R122-R124, R132, R133), schedules
(05/R125, R126) and the instructions (05/R127-R134). -/

@[simp] theorem form_updSqueue {c isl q f} : MemoryForm (State.updSqueue s c isl q f) ↔ MemoryForm s := by
  unfold State.updSqueue; simp
@[simp] theorem form_updStreamer {c isl f} : MemoryForm (State.updStreamer s c isl f) ↔ MemoryForm s := by
  unfold State.updStreamer; simp
@[simp] theorem ends_readShape {ag h' off hs ds dd} (h : MemoryForm s) :
    Ends (fun r => MemoryForm r.2) (readShape s ag h' off hs ds dd) := by
  unfold readShape
  refine .bind (ends_liftE (gives_true _)) fun va _ => ?_
  split
  · simp
  · refine .bind (ends_readIssue h) fun x hx₁ => ?_
    split
    · simp
    · refine .bind (ends_liftE (gives_true _)) fun x₂ _ => ?_
      refine .bind (ends_liftE (gives_true _)) fun x₃ _ => ?_
      exact hx₁

@[simp] theorem ends_copyCurd {cl e h'} : Ends (fun _ => True) (copyCurd s cl e h') := by
  unfold copyCurd
  exact ends_liftE (by simp)
@[simp] theorem ends_sourceCurd {cl e} : Ends (fun _ => True) (sourceCurd s cl e) := by
  unfold sourceCurd
  split
  · split <;> simp
  · simp

@[simp] theorem ends_readElem {cl e k} (h : MemoryForm s) : Ends (fun r => MemoryForm r.st) (readElem s cl e k) := by
  unfold readElem
  dsimp only
  split
  · simp [h]
  · simp [h]
  · refine .bind ends_sourceCurd fun c _ => ?_
    split <;> simp [h]

@[simp] theorem ends_writeElem {cl e k b} (h : MemoryForm s) : Ends (fun r => MemoryForm r.st) (writeElem s cl e k b) := by
  unfold writeElem
  dsimp only
  split
  · simp [h]
  · simp [h]
  · refine .bind ends_copyCurd fun c _ => ?_
    split <;> simp [h]

@[simp] theorem ends_elemEnd {err wait} (h : MemoryForm s) : Ends (fun r => MemoryForm r.2) (elemEnd err wait s) := by
  unfold elemEnd; split <;> simp [h]
@[simp] theorem ends_moveElem {cl e k} (h : MemoryForm s) : Ends (fun r => MemoryForm r.2) (moveElem s cl e k) := by
  unfold moveElem
  refine .bind (ends_readElem h) fun g hg => ?_
  split
  · simp [hg]
  · refine .bind (ends_writeElem hg) fun d hd => ?_
    simp [hd]

@[simp] theorem form_moveElems {cl e n k} (h : MemoryForm s) : MemoryForm (moveElems cl e n s k).1 := by
  induction n generalizing s k with
  | zero => exact h
  | succ n ih =>
    unfold moveElems
    split
    · exact h
    · have hm := ends_moveElem (cl := cl) (e := e) (k := k) h
      split
      next hx => exact hm.ok hx
      next hx => exact ih (hm.ok hx)
      next hx => exact excForm_wait (hm.error hx) h
      · split <;> exact h

@[simp] theorem form_haltQueue {c isl q owner e} (h : MemoryForm s) : MemoryForm (haltQueue s c isl q owner e) := by
  unfold haltQueue; simp [h]
@[simp] theorem form_updHead {c isl q f} : MemoryForm (updHead s c isl q f) ↔ MemoryForm s := by
  unfold updHead; simp
@[simp] theorem form_showProgress {e done} (h : MemoryForm s) : MemoryForm (showProgress s e done) := by
  unfold showProgress; dsimp only; (repeat' split) <;> simp [h]
@[simp] theorem form_beginHead {c isl q} : MemoryForm (beginHead s c isl q) ↔ MemoryForm s := by
  unfold beginHead; simp
@[simp] theorem form_haltOrEnd {c isl q owner e} (h : MemoryForm s) : MemoryForm (haltOrEnd s c isl q owner e) := by
  unfold haltOrEnd; split <;> simp [h]
@[simp] theorem form_beat {c isl q e} (h : MemoryForm s) : MemoryForm (beat s c isl q e) := by
  have hr : MemoryForm (if (s.squeue c isl q).bad then (s, e.done, .failed)
      else moveElems c e (256 / e.shape.esz) s e.done : State × Nat × BeatStop).1 := by
    split
    · exact h
    · exact form_moveElems h
  unfold beat
  generalize (if (s.squeue c isl q).bad then (s, e.done, .failed)
      else moveElems c e (256 / e.shape.esz) s e.done : State × Nat × BeatStop) = r at hr
  dsimp only
  split <;> simp [hr]

@[simp] theorem form_kvCopyBytes {q src dst n} (h : MemoryForm s) : MemoryForm (kvCopyBytes s q src dst n) := by
  unfold kvCopyBytes
  split
  · exact h
  next x l u hx =>
    have hf := (ends_readIssue h).ok hx
    split
    next x₁ u₁ hx₁ =>
      have hf₁ := (ends_writeIssue hf).ok hx₁
      exact hf₁
    · exact hf

@[simp] theorem form_pageBeat {cl isl} (h : MemoryForm s) : MemoryForm (pageBeat s cl isl) := by
  unfold pageBeat; dsimp only; (repeat' split) <;> simp [h]
@[simp] theorem kept_execStreamerBeat {cl isl q} (h : MemoryForm s) : Kept (execStreamerBeat cl isl q s) := by
  have hb : ∀ e, MemoryForm (if chooseQueue s cl isl = some q then beat s cl isl q e else s) := fun e =>
    form_ite (form_beat h) h
  unfold execStreamerBeat
  split
  · exact form_pageBeat h
  · split
    · exact h
    next e _ =>
      split
      · exact h
      · have hm : Ends (fun r => MemoryForm r.2) (if (s.squeue cl isl q).bad then .ok (true, s) else moveElem s cl e e.done) :=
          ends_ite h (ends_moveElem h)
        split
        next hx => exact form_beginHead.mpr (excForm_wait (hm.error hx) h)
        · exact hb e

@[simp] theorem form_finishEntry {c isl q e} (h : MemoryForm s) : MemoryForm (finishEntry s c isl q e) := by
  unfold finishEntry; split <;> simp [h]
@[simp] theorem form_ringFails {c isl q e ex} (h : MemoryForm s) : MemoryForm (ringFails s c isl q e ex) := by
  unfold ringFails
  split
  · simp [h]
  · exact form_sendFault (by simp [h])

@[simp] theorem kept_execCopyCompletion {cl isl q} (h : MemoryForm s) : Kept (execCopyCompletion cl isl q s) := by
  unfold execCopyCompletion
  dsimp only
  split
  · exact h
  · split
    · exact h
    · split
      · simp [h]
      · split
        · simp [h]
        · simp only [kept_next]
          exact form_settleLaunches (form_ringComplete (by simp [h]))

@[simp] theorem form_acceptEntry {c isl q r hs hd hr roff pa x10 x11 x12 x13 x14 x15} (h : MemoryForm s) :
    MemoryForm (acceptEntry s c isl q r hs hd hr roff pa x10 x11 x12 x13 x14 x15) := by
  unfold acceptEntry; dsimp only; (repeat' split) <;> simp [h]
@[simp] theorem kept_execCpIssue {d a h' p' isl q} (h : MemoryForm s) : Kept (execCpIssue d a h' p' isl q s) := by
  unfold execCpIssue
  refine kept_issue h fun key t => ?_
  dsimp only
  refine .bind ends_readSrc fun x _ => ?_
  refine .bind ends_readField fun ro _ => ?_
  split
  · refine .bind (p := fun _ => True) ?_ fun x₁ _ => ?_
    · simp
    · refine .bind (ends_readShape h) fun x₂ hx₂ => ?_
      refine .bind (ends_liftE (gives_true _)) fun pa _ => ?_
      split
      · simp
      · split <;> simp [hx₂]
  · refine .bind (ends_readShape h) fun x₁ hx₁ => ?_
    refine .bind (ends_liftE (gives_true _)) fun pa _ => ?_
    split
    · simp
    · split <;> simp [hx₁]

@[simp] theorem kept_execCpSched {a h' p isl q} (h : MemoryForm s) : Kept (execCpSched a h' p isl q s) := by
  unfold execCpSched
  refine kept_issue h fun key t => ?_
  dsimp only
  refine .bind ends_readSrc fun x _ => ?_
  refine .bind (ends_liftE (gives_true _)) fun va _ => ?_
  refine .bind (ends_readIssue h) fun x₁ hx₁ => ?_
  split
  · simp
  · split <;> simp [hx₁]

@[simp] theorem ends_schedEntry {cl d} (h : MemoryForm s) : Ends (fun r => MemoryForm r.2.2.2) (schedEntry s cl d) := by
  unfold schedEntry
  dsimp only
  refine .bind (ends_liftE (gives_true _)) fun va _ => ?_
  refine .bind (ends_readIssue h) fun x hx => ?_
  split
  · simp
  · refine .bind (ends_readShape hx) fun x₁ hx₁₁ => ?_
    refine .bind (ends_liftE (gives_true _)) fun pa _ => ?_
    split <;> simp [hx₁₁]

@[simp] theorem gives_headRing {d roff} (h : MemoryForm s) : Gives (fun r => MemoryForm r.2) (headRing s d roff) := by
  unfold headRing
  split
  · simp
  · split <;> simp [h]

@[simp] theorem ends_headEntry {cl d} (h : MemoryForm s) : Ends (fun r => MemoryForm r.2.2) (headEntry s cl d) := by
  unfold headEntry
  split
  · exact .map (ends_liftE (gives_headRing h)) fun r hr => hr
  · refine .map (ends_schedEntry h) fun r hr => ?_
    exact form_ite (form_takeShare.mpr hr) hr

@[simp] theorem kept_execScheduleEntryBegin {cl isl q} (h : MemoryForm s) : Kept (execScheduleEntryBegin cl isl q s) := by
  unfold execScheduleEntryBegin
  dsimp only
  split
  · exact h
  · split
    · exact h
    · split
      next hx =>
        have hu := excForm_wait ((ends_headEntry h).error hx) h
        simp [hu]
      · simp [h]
      next hx =>
        have hu : MemoryForm _ := (ends_headEntry h).ok hx
        split <;> simp [hu]

@[simp] theorem kept_execCpAdv {d a p isl q} (h : MemoryForm s) : Kept (execCpAdv d a p isl q s) := by
  unfold execCpAdv
  refine kept_issue h fun key t => ?_
  dsimp only
  refine .bind ends_readSrc fun n _ => ?_
  refine .bind ends_writeDest fun t' _ => ?_
  exact h

@[simp] theorem kept_execCpStatus {d p isl q} (h : MemoryForm s) : Kept (execCpStatus d p isl q s) := by
  unfold execCpStatus
  refine kept_issueOwn h fun t => ?_
  dsimp only
  refine .bind ends_writeDest fun t' _ => ?_
  simp

@[simp] theorem kept_execRingInit {d a h' p} (h : MemoryForm s) : Kept (execRingInit d a h' p s) := by
  unfold execRingInit
  refine kept_issue h fun key t => ?_
  refine .bind ends_readSrc fun x _ => ?_
  refine .bind ends_readField fun w _ => ?_
  refine .bind (ends_liftE (gives_true _)) fun pa _ => ?_
  dsimp only
  split
  · simp
  · split <;> simp [h]

@[simp] theorem ends_openRing {t a h'} (h : MemoryForm s) : Ends (fun r => MemoryForm r.2.2) (openRing s t a h') := by
  unfold openRing
  refine .bind ends_readSrc fun x _ => ?_
  refine .bind (ends_liftE (gives_true _)) fun pa _ => ?_
  dsimp only
  split <;> simp [h]

@[simp] theorem kept_execRingWait {d a h' p} (h : MemoryForm s) : Kept (execRingWait d a h' p s) := by
  unfold execRingWait
  refine kept_issue h fun key t => ?_
  refine .bind (ends_openRing h) fun x hx => ?_
  split
  · refine .bind ends_destReady fun x _ => ?_
    split <;> simp [hx]

@[simp] theorem kept_execRingRel {a h' p} (h : MemoryForm s) : Kept (execRingRel a h' p s) := by
  unfold execRingRel
  refine kept_issue h fun key t => ?_
  refine .bind (ends_openRing h) fun x hx => ?_
  split
  · split
    · exact hx
    · split <;> simp [hx]

@[simp] theorem kept_execRingWptr {d a h' p} (h : MemoryForm s) : Kept (execRingWptr d a h' p s) := by
  unfold execRingWptr
  refine kept_issue h fun key t => ?_
  refine .bind (ends_openRing h) fun x hx => ?_
  split
  · refine .bind ends_writeDest fun t' _ => ?_
    exact hx

@[simp] theorem kept_execQfence {isl m} (h : MemoryForm s) : Kept (execQfence isl m s) := by
  unfold execQfence
  refine kept_issue h fun key t => ?_
  dsimp only
  simp only [ends_ok]
  refine form_foldl (fun u x hu => ?_) ?_
  · exact hu
  · exact h

/-! ## The dispatcher: launch queues (16/R370-R372), record checks (R373), holds (R374), placement (R375-R377), starts (R378,
R381, R384, 17/R396), steals (R379) and watchdogs (17/R402). -/

theorem form_schedHeader {r x} (h : MemoryForm s) (hx : schedHeader s r = some x) : MemoryForm x.2 := by
  unfold schedHeader at hx
  split at hx
  · cases hx
  · split at hx
    · cases hx
    next hr =>
      split at hx
      · cases hx; exact (gives_readLocal h).ok hr
      · cases hx

@[simp] theorem form_lqWrite {q off n v} (h : MemoryForm s) : MemoryForm (lqWrite s q off n v) := by
  unfold lqWrite; split <;> simp [h]
@[simp] theorem form_consume {q stat} (h : MemoryForm s) : MemoryForm (consume s q stat) := by
  unfold consume; simp [h]
@[simp] theorem gives_lqRead {q off n} (h : MemoryForm s) : Gives (fun r => MemoryForm r.2) (lqRead s q off n) := by
  unfold lqRead; simp [h]
@[simp] theorem ends_readDep {r'} (h : MemoryForm s) : Ends (fun r => MemoryForm r.2) (readDep s r') := by
  unfold readDep; simp [h]
@[simp] theorem form_afterDep {r} (h : MemoryForm s) : MemoryForm (afterDep s r) := by
  unfold afterDep
  split
  next x x₁ x₂ hx hx₁ =>
    have hf := (ends_readDep h).ok hx₁
    exact hf
  · exact h

@[simp] theorem form_noteHeld {q} (h : MemoryForm s) : MemoryForm (noteHeld s q) := by
  unfold noteHeld; split <;> simp [h]
@[simp] theorem form_pollQueue {q} (h : MemoryForm s) : MemoryForm (pollQueue s q) := by
  unfold pollQueue
  split
  · simp [h]
  next x b u hx =>
    have hf := (gives_lqRead h).ok hx
    dsimp only
    split
    · exact hf
    · split
      · simp [hf]
      next x₁ b₁ u₁ hx₂ =>
        have hf₁ := (gives_lqRead (by simp [hf])).ok hx₂
        exact hf₁

@[simp] theorem form_readQueue {q} (h : MemoryForm s) : MemoryForm (readQueue s q) := by
  unfold readQueue
  split
  · exact h
  · split
    · simp [h]
    · split <;> simp [h]

@[simp] theorem kept_execDispatcherPoll {q} (h : MemoryForm s) : Kept (execDispatcherPoll q s) := by
  unfold execDispatcherPoll; split <;> simp [h]
@[simp] theorem kept_execRecordCheck {q} (h : MemoryForm s) : Kept (execRecordCheck q s) := by
  have hh : ∀ (u : State) (r : Record), MemoryForm u →
      MemoryForm ((if r.sen then schedHeader u r else none).getD (0, u)).2 := fun u r hu => by
    split
    · cases hx : schedHeader u r with
      | none => exact hu
      | some x => exact form_schedHeader hu hx
    · exact hu
  refine form_ite h ?_
  split
  · exact form_queueFault.mpr h
  next b u hx =>
    have hu : MemoryForm u := (gives_lqRead h).ok hx
    refine form_ite (form_consume (form_updLq.mpr hu)) ?_
    exact form_noteHeld (form_updLq.mpr (hh _ _ (form_updLq.mpr hu)))

@[simp] theorem form_mapCarvePage {key p asid} (h : MemoryForm s) : MemoryForm (mapCarvePage s key p asid) := by
  unfold mapCarvePage
  dsimp only
  split
  next hx =>
    have hu := form_frameOrEvict h hx
    exact form_touchPage.mpr (form_setEntry (form_takeFrame (form_updCluster.mpr hu)))
  · exact h

@[simp] theorem form_mapCarve {key pages asid} (h : MemoryForm s) : MemoryForm (mapCarve s key pages asid) := by
  unfold mapCarve
  refine form_foldl (fun u x hu => ?_) ?_
  · simp [hu]
  · exact h

@[simp] theorem form_startOn {r l rank x} (h : MemoryForm s) : MemoryForm (startOn s r l rank x) := by
  unfold startOn; simp [h]
@[simp] theorem form_takeIslands {l cs} (h : MemoryForm s) : MemoryForm (takeIslands s l cs) := by
  unfold takeIslands
  refine form_foldl (fun u x hu => ?_) ?_
  · refine form_foldl (fun u x hu => ?_) ?_
    · split
      · split <;> simp [hu]
      · exact hu
    · exact hu
  · exact h

@[simp] theorem form_startSched {r l key} : MemoryForm (startSched s r l key) ↔ MemoryForm s := by
  unfold startSched; split <;> simp
@[simp] theorem form_startLaunch {q r pl} (h : MemoryForm s) : MemoryForm (startLaunch s q r pl) := by
  unfold startLaunch
  dsimp only
  refine form_startSched.mpr ?_
  refine form_foldl (fun u x hu => ?_) ?_
  · simp [hu]
  · simp only [memoryForm_mk, formed_iff]
    refine form_consume ?_
    split <;> simp [h]

@[simp] theorem form_resetCredits : MemoryForm (resetCredits s) ↔ MemoryForm s := by
  unfold resetCredits; simp
theorem form_pickQueue {qs x} (h : MemoryForm s) (hx : pickQueue s qs = some x) : MemoryForm x.2 := by
  unfold pickQueue at hx
  split at hx
  · obtain ⟨y, _, rfl⟩ := Option.map_eq_some_iff.mp hx
    exact h
  · split at hx
    · cases hx; exact h
    · obtain ⟨y, _, rfl⟩ := Option.map_eq_some_iff.mp hx
      exact form_resetCredits.mpr h

@[simp] theorem form_countStart {q c} : MemoryForm (countStart s q c) ↔ MemoryForm s := by
  unfold countStart; split <;> simp
@[simp] theorem form_settleCredits : MemoryForm (settleCredits s) ↔ MemoryForm s := by
  unfold settleCredits; split <;> simp
@[simp] theorem form_placeLaunch {q r pl} (h : MemoryForm s) : MemoryForm (placeLaunch s q r pl) := by
  unfold placeLaunch; split <;> simp [h]
@[simp] theorem kept_execLaunchStart {q} (h : MemoryForm s) : Kept (execLaunchStart q s) := by
  unfold execLaunchStart
  simp only [kept_next]
  split
  next hx =>
    have hu : MemoryForm _ := form_pickQueue h hx
    (repeat' split) <;> simp [h, hu]
  · exact h

@[simp] theorem kept_execSteal {q} (h : MemoryForm s) : Kept (execSteal q s) := by
  unfold execSteal
  simp only [kept_next]
  split
  · split
    next hx =>
      have hu : MemoryForm _ := form_pickQueue h hx
      split <;> simp [h, hu]
    · exact h
  · exact h

@[simp] theorem kept_execWatchdogExpiry {l} (h : MemoryForm s) : Kept (execWatchdogExpiry l s) := by
  unfold execWatchdogExpiry
  simp only [kept_next]
  split
  · split <;> simp [h]
  · exact h

/-! ## The pod: combining operators (18/R420, R421), pod instructions (R416-R426), requests of other members (R413, R418,
R425), and lost members (R414, R415, R422). -/

@[simp] theorem form_treeAdvance {x} (h : MemoryForm s) : MemoryForm (treeAdvance s x) := by
  unfold treeAdvance; dsimp only; (repeat' split) <;> simp [h]
@[simp] theorem form_podStart {x} (h : MemoryForm s) : MemoryForm (podStart s x) := by
  unfold podStart
  split
  · exact h
  · split
    · simp [h]
    · split <;> simp [h]

@[simp] theorem ends_podSource {ag va n} (h : MemoryForm s) : Ends (fun r => MemoryForm r.2) (podSource s ag va n) := by
  unfold podSource
  split
  next x e keep hx =>
    have hf := (ends_readIssue h).error hx
    split
    · exact excForm_keep hf h
    · exact hf
  · simp [h]

@[simp] theorem kept_issuePod {d a h' p op} (h : MemoryForm s) : Kept (issuePod d a h' p op s) := by
  unfold issuePod
  refine kept_issue h fun key t => ?_
  refine .bind ends_readSrc fun off _ => ?_
  refine .bind ends_readField fun set _ => ?_
  dsimp only
  refine .bind (ends_liftE (gives_true _)) fun va _ => ?_
  split
  · simp
  · refine .bind (ends_readIssue h) fun x hx₁ => ?_
    split
    · split
      · simp
      · refine .bind (ends_liftE (gives_true _)) fun sva _ => ?_
        refine .bind (ends_liftE (gives_true _)) fun x₂ _ => ?_
        split
        · simp [hx₁]
        · split
          · simp
          · refine .bind (ends_podSource (by simp [hx₁])) fun x₃ hx₃₁ => ?_
            simp [hx₃₁]
    · split
      · simp
      · refine .bind (ends_liftE (gives_true _)) fun sva _ => ?_
        refine .bind (ends_liftE (gives_true _)) fun x₂ _ => ?_
        split
        · simp [hx₁]
        · split
          · simp
          · refine .bind (ends_podSource (by simp [hx₁])) fun x₃ hx₃₁ => ?_
            simp [hx₃₁]

@[simp] theorem kept_execXmcast {d a h' p} (h : MemoryForm s) : Kept (execXmcast d a h' p s) := by
  unfold execXmcast; simp [h]
@[simp] theorem kept_execXcomb {d a h' p o} (h : MemoryForm s) : Kept (execXcomb d a h' p o s) := by
  unfold execXcomb; simp [h]
@[simp] theorem ends_podPieces {ag own va data} (h : MemoryForm s) :
    Ends (fun r => MemoryForm r.1) (podPieces s ag own va data) := by
  unfold podPieces
  refine ends_foldE (fun u x hu => ?_) ?_
  · split
    · exact hu
    · split
      next x₁ d hx₁ =>
        have hf := (ends_writeAt hu).ok hx₁
        exact hf
      next x₁ keep hx₁ =>
        have hf := (ends_writeAt hu).error hx₁
        exact hf
      · exact hu
  · exact h

@[simp] theorem ends_podWrite {ag own va data} (h : MemoryForm s) :
    Ends (fun r => MemoryForm r.1) (podWrite s ag own va data) := by
  unfold podWrite
  refine .bind (ends_podPieces h) fun r hr => ?_
  split
  · refine .map (ends_podPieces h) fun q hq => ?_
    exact hq
  · exact hr

@[simp] theorem ends_podAdd {ag own va} (h : MemoryForm s) : Ends (fun r => MemoryForm r.1) (podAdd s ag own va) := by
  unfold podAdd
  split
  · exact h
  · split
    next x g hx₁ =>
      have hf := (ends_atomicAt h).ok hx₁
      exact hf
    next x keep hx₁ =>
      have hf := (ends_atomicAt h).error hx₁
      exact hf
    · exact h

@[simp] theorem ends_podDeliver {ag own dst flag data} (h : MemoryForm s) :
    Ends (fun r => MemoryForm r.1) (podDeliver s ag own dst flag data) := by
  unfold podDeliver
  refine .bind (ends_podWrite h) fun r hr => ?_
  split <;> simp [hr]

@[simp] theorem form_podWait {x1} (h : MemoryForm s) (hx1 : ExcForm x1) : MemoryForm (podWait s x1) := by
  unfold podWait
  split
  · exact excForm_wait hx1 h
  · exact h

@[simp] theorem ends_ownPart {x} (h : MemoryForm s) : Ends (fun r => MemoryForm r.1) (ownPart s x) := by
  unfold ownPart; split <;> simp [h]
@[simp] theorem kept_execPodOpComplete {id} (h : MemoryForm s) : Kept (execPodOpComplete id s) := by
  unfold execPodOpComplete
  simp only [kept_next]
  split
  · split
    · exact h
    · split
      · simp [h]
      · split
        · exact h
        · split
          next x₂ e hx₄ =>
            have hf := (ends_ownPart h).error hx₄
            simp [hf, h]
          next x₂ r hx₄ =>
            have hf := (ends_ownPart h).ok hx₄
            simp [hf]
  · exact h

@[simp] theorem form_landResult {x' words fl} (h : MemoryForm s) : MemoryForm (landResult s x' words fl) := by
  unfold landResult
  split
  next x e hx =>
    have hf := (ends_podWrite h).error hx
    simp [hf, h]
  next x r hx =>
    have hf := (ends_podWrite h).ok hx
    simp [hf]

@[simp] theorem kept_execCombineResult {id parts} (h : MemoryForm s) : Kept (execCombineResult id parts s) := by
  unfold execCombineResult; dsimp only; (repeat' split) <;> simp [h]
@[simp] theorem kept_execCombineFailureNotice {id} (h : MemoryForm s) : Kept (execCombineFailureNotice id s) := by
  unfold execCombineFailureNotice
  simp only [kept_next]
  split
  · split
    · exact h
    · split <;> simp [h]
  · exact h

@[simp] theorem form_podLost {m} (h : MemoryForm s) : MemoryForm (podLost s m) := by
  unfold podLost
  dsimp only
  refine form_foldl (fun u x hu => ?_) ?_
  · simp [hu]
  · exact h

@[simp] theorem form_unplace {r w} (h : MemoryForm r.1) : MemoryForm (unplace r w).1 := by
  unfold unplace
  split
  · exact h
  · dsimp only
    split
    · exact h
    · obtain ⟨hm, hs, ho, hb⟩ := h
      exact ⟨hm, hs, memPut_fold _ ho, hb⟩

@[simp] theorem form_loseRequests {m} (h : MemoryForm s) : MemoryForm (loseRequests s m) := by
  have hf : ∀ (l : List (Nat × List Host.Cell)) (r : State × List Nat), MemoryForm r.1 → MemoryForm (l.foldl unplace r).1 :=
    fun l => by
      induction l with
      | nil => exact fun r hr => hr
      | cons w ws ih => exact fun r hr => ih _ (form_unplace hr)
  exact form_foldl (fun u x hu => form_heldFault hu) (hf _ _ h)

@[simp] theorem form_dropMessages {m} : MemoryForm (dropMessages s m) ↔ MemoryForm s := by
  unfold dropMessages; simp
@[simp] theorem form_fenceMember {m} (h : MemoryForm s) : MemoryForm (fenceMember s m) := by
  unfold fenceMember; simp [h]
@[simp] theorem form_noticeFence {m} : MemoryForm (noticeFence s m) ↔ MemoryForm s := by
  unfold noticeFence; simp
@[simp] theorem kept_execLinkDown {m} (h : MemoryForm s) : Kept (execLinkDown m s) := by
  unfold execLinkDown; split <;> simp [h]
@[simp] theorem kept_execResponseTimeout {m} (h : MemoryForm s) : Kept (execResponseTimeout m s) := by
  unfold execResponseTimeout; split <;> simp [h]
@[simp] theorem kept_execFenceNotice {m} (h : MemoryForm s) : Kept (execFenceNotice m s) := by
  unfold execFenceNotice; split <;> simp [h]
@[simp] theorem kept_execPortGoesDown {p} (h : MemoryForm s) : Kept (execPortGoesDown p s) := by
  unfold execPortGoesDown
  simp only [kept_next]
  split
  · exact h
  · split
    · refine form_foldl (fun u x hu => ?_) ?_
      · simp [hu]
      · exact h
    · exact h

@[simp] theorem kept_execXbar {d a as ss} (h : MemoryForm s) : Kept (execXbar d a as ss s) := by
  unfold execXbar
  refine kept_issue h fun key t => ?_
  refine .bind ends_readSrc fun x _ => ?_
  refine .bind ends_readField fun v _ => ?_
  split
  · simp
  · refine .bind ends_producerSlot fun x₁ _ => ?_
    dsimp only
    split <;> simp [h]

@[simp] theorem kept_execXid {d} (h : MemoryForm s) : Kept (execXid d s) := by
  unfold execXid; simp [h]
@[simp] theorem form_answerWith {b} : MemoryForm (answerWith s b) ↔ MemoryForm s := by
  unfold answerWith; simp
@[simp] theorem form_podRead {pa n} (h : MemoryForm s) : MemoryForm (podRead s pa n) := by
  unfold podRead
  split
  · exact h
  · split
    · exact h
    · split
      next x₁ g hx₂ =>
        have hf := (ends_accRead h).ok hx₂
        exact hf
      · exact h

@[simp] theorem form_podStore {pa b} (h : MemoryForm s) : MemoryForm (podStore s pa b) := by
  unfold podStore
  split
  · exact h
  · split
    · exact h
    · split
      next x₁ d hx₂ =>
        have hf := (ends_accWrite h).ok hx₂
        exact hf
      · exact h

@[simp] theorem form_podAtomic {op pa v cmp} (h : MemoryForm s) : MemoryForm (podAtomic s op pa v cmp) := by
  unfold podAtomic
  split
  · exact h
  · split
    · exact h
    · split
      next x₁ g hx₂ =>
        have hf := (ends_accAtomic h).ok hx₂
        exact hf
      · exact h

@[simp] theorem form_podPart {asid dst flag b} (h : MemoryForm s) : MemoryForm (podPart s asid dst flag b) := by
  unfold podPart
  split
  next x x₁ hx =>
    have hf := (ends_podDeliver h).ok hx
    exact hf
  · exact h

@[simp] theorem form_takeTreeValue {set level part fl} (h : MemoryForm s) : MemoryForm (takeTreeValue s set level part fl) := by
  unfold takeTreeValue; dsimp only; (repeat' split) <;> simp [h]
@[simp] theorem form_takeResult {set nth words fl} : MemoryForm (takeResult s set nth words fl) ↔ MemoryForm s := by
  unfold takeResult; simp
@[simp] theorem kept_execPodRequest {m r} (h : MemoryForm s) : Kept (execPodRequest m r s) := by
  unfold execPodRequest; dsimp only; (repeat' split) <;> simp [h]

/-! ## Key-value instructions and their copies (13/R310-R320). -/

@[simp] theorem ends_checkedDesc {p g} (h : MemoryForm s) : Ends (fun _ => True) (checkedDesc s p g) := by
  unfold checkedDesc
  refine .bind (ends_kvReach h) fun x _ => ?_
  split <;> simp

@[simp] theorem ends_checkedHead {p} (h : MemoryForm s) : Ends (fun _ => True) (checkedHead s p) := by
  unfold checkedHead
  refine .bind (ends_checkedDesc h) fun d _ => ?_
  split <;> simp

@[simp] theorem form_noteKv {p off n} (h : MemoryForm s) : MemoryForm (noteKv s p off n) := by
  unfold noteKv
  refine form_foldl (fun u x hu => ?_) ?_
  · split <;> simp [hu]
  · exact h

@[simp] theorem form_noteSpans {l} (h : MemoryForm s) : MemoryForm (noteSpans s l) := by
  unfold noteSpans
  refine form_foldl (fun u x hu => ?_) ?_
  · simp [hu]
  · exact h

@[simp] theorem ends_checkedBucket {p b} (h : MemoryForm s) : Ends (fun _ => True) (checkedBucket s p b) := by
  unfold checkedBucket
  refine .bind (ends_kvReach h) fun x _ => ?_
  split <;> simp

@[simp] theorem ends_lookup {p tag} (h : MemoryForm s) : Ends (fun _ => True) (lookup s p tag) := by
  unfold lookup
  refine .bind (ends_checkedBucket h) fun x _ => ?_
  split
  · simp
  · dsimp only
    split <;> simp

@[simp] theorem kept_execKvFind {d a h' p} (h : MemoryForm s) : Kept (execKvFind d a h' p s) := by
  unfold execKvFind
  refine kept_issue h fun key t => ?_
  refine .bind ends_readSrc fun x _ => ?_
  refine .bind ends_readGroup fun ws _ => ?_
  refine .bind (ends_liftE (gives_true _)) fun pool _ => ?_
  dsimp only
  refine .bind (ends_lookup h) fun r _ => ?_
  split <;> simp [h]

@[simp] theorem ends_checkedEntry {q i} (h : MemoryForm s) : Ends (fun _ => True) (checkedEntry s q i) := by
  unfold checkedEntry
  dsimp only
  refine .bind (ends_recordReach h) fun x _ => ?_
  split <;> simp

@[simp] theorem ends_entryInForce {r i} (h : MemoryForm s) : Ends (fun _ => True) (entryInForce s r i) := by
  unfold entryInForce; dsimp only; (repeat' split) <;> simp [h]
@[simp] theorem ends_appendKind {r t} (h : MemoryForm s) : Ends (fun _ => True) (appendKind s r t) := by
  unfold appendKind
  split
  · simp
  · split
    next x e hx₁ =>
      have hf := (ends_entryInForce h).error hx₁
      exact hf
    · split
      · simp
      · split <;> simp

theorem kept_kvAdd {d a hk mask regs seq fresh body} (h : MemoryForm s)
    (hb : ∀ key t pool ws, Ends MemoryForm (body key t pool ws)) : Kept (kvAdd s d a hk mask regs seq fresh body) := by
  unfold kvAdd
  refine kept_issue h fun key t => ?_
  refine .bind ends_readSrc fun x _ => ?_
  refine .bind ends_readGroup fun ws _ => ?_
  refine .bind (ends_liftE (gives_true _)) fun pool _ => ?_
  refine ends_ite (by simp) ?_
  exact .map (hb key t pool ws) fun z hz => form_noteSpans hz

@[simp] theorem ends_kvRefuse {key t p} (h : MemoryForm s) : Ends MemoryForm (kvRefuse s key t p) := by
  unfold kvRefuse; simp [h]
@[simp] theorem ends_kvGive {key t p d v} (h : MemoryForm s) : Ends MemoryForm (kvGive s key t p d v) := by
  unfold kvGive; simp [h]
@[simp] theorem ends_kvLong {key t p d v ready} (h : MemoryForm s) : Ends MemoryForm (kvLong s key t p d v ready) := by
  unfold kvLong
  split
  next x e hx =>
    have hf := ends_producerSlot.error hx
    exact hf
  · exact h

@[simp] theorem form_addCopy {c} : MemoryForm (addCopy s c) ↔ MemoryForm s := by
  unfold addCopy; simp
@[simp] theorem form_freshPool {p} (h : MemoryForm s) : MemoryForm (freshPool s p) := by
  unfold freshPool
  dsimp only
  refine form_setPoolField ?_
  refine form_setPoolField ?_
  refine form_foldl (fun u x hu => ?_) ?_
  · simp [hu]
  · refine form_foldl (fun u x hu => ?_) ?_
    · simp [hu]
    · exact h

@[simp] theorem kept_execKvAddPool {d a h' p} (h : MemoryForm s) : Kept (execKvAddPool d a h' p s) := by
  unfold execKvAddPool
  refine kept_kvAdd h fun key t pool ws => ?_
  split
  · simp
  · dsimp only
    split <;> simp [h]

@[simp] theorem ends_openRecord {t h' ro lcap} (h : MemoryForm s) : Ends (fun _ => True) (openRecord s t h' ro lcap) := by
  unfold openRecord
  split
  · simp
  · refine .bind (ends_liftE (gives_true _)) fun x _ => ?_
    refine .bind (ends_kvReach h) fun x₁ _ => ?_
    dsimp only
    split
    · simp
    · refine .map (ends_liftE (gives_true _)) fun x₂ _ => ?_
      simp

@[simp] theorem form_initRecord {t h' ro lcap pool} (h : MemoryForm s) : MemoryForm (initRecord s t h' ro lcap pool) := by
  unfold initRecord
  dsimp only
  exact form_kvWrite (form_kvWrite (by simp [h]))

@[simp] theorem kept_execKvAddOpen {d a h' p} (h : MemoryForm s) : Kept (execKvAddOpen d a h' p s) := by
  unfold execKvAddOpen
  refine kept_kvAdd h fun key t pool ws => ?_
  dsimp only
  split
  · simp
  · refine .bind (ends_openRecord h) fun sreg _ => ?_
    split <;> simp [h]

@[simp] theorem form_appendPage {r w t copy} (h : MemoryForm s) : MemoryForm (appendPage s r w t copy).1 := by
  unfold appendPage
  cases w with
  | none =>
    dsimp only
    split
    · exact form_dropPage (form_setEntry4 (form_allocPage h))
    · exact form_setEntry4 (form_allocPage h)
  | some x =>
    dsimp only
    split
    · exact form_updWindow.mpr (form_allocPage h)
    · exact form_setEntry4 (form_updWindow.mpr (form_allocPage h))

@[simp] theorem form_appendToken {r w t off} (h : MemoryForm s) : MemoryForm (appendToken s r w t off) := by
  unfold appendToken; split <;> simp [h]
@[simp] theorem kept_execKvAddAppend {d a h' p} (h : MemoryForm s) : Kept (execKvAddAppend d a h' p s) := by
  unfold execKvAddAppend
  refine kept_kvAdd h fun key t pool ws => ?_
  refine .bind (ends_liftE (gives_true _)) fun r _ => ?_
  dsimp only
  split
  · split
    · exact h
    · refine .bind (ends_appendKind h) fun k _ => ?_
      split
      · split
        · exact h
        · split
          · refine .bind (ends_checkedHead h) fun x _ => ?_
            split
            · refine .bind (ends_checkedDesc h) fun x₁ _ => ?_
              refine .bind (ends_recordReach h) fun x₂ _ => ?_
              split
              · simp [h]
              · simp [h]
              · exact ends_kvLong (by simp [h])
              · exact ends_kvLong (by simp [h])
            · refine .bind (ends_recordReach h) fun x₁ _ => ?_
              split
              · simp [h]
              · simp [h]
              · exact ends_kvLong (by simp [h])
              · exact ends_kvLong (by simp [h])
          · split
            · refine .bind (ends_checkedDesc h) fun x _ => ?_
              refine .bind (ends_recordReach h) fun x₁ _ => ?_
              split
              · simp [h]
              · simp [h]
              · exact ends_kvLong (by simp [h])
              · exact ends_kvLong (by simp [h])
            · refine .bind (ends_recordReach h) fun x _ => ?_
              split
              · simp [h]
              · simp [h]
              · exact ends_kvLong (by simp [h])
              · exact ends_kvLong (by simp [h])
      · split
        · exact h
        · split
          · refine .bind (ends_checkedHead h) fun x _ => ?_
            split
            · refine .bind (ends_checkedDesc h) fun x₁ _ => ?_
              refine .bind (ends_recordReach h) fun x₂ _ => ?_
              split
              · simp [h]
              · simp [h]
              · exact ends_kvLong (by simp [h])
              · exact ends_kvLong (by simp [h])
            · refine .bind (ends_checkedDesc h) fun x₁ _ => ?_
              refine .bind (ends_recordReach h) fun x₂ _ => ?_
              split
              · simp [h]
              · simp [h]
              · exact ends_kvLong (by simp [h])
              · exact ends_kvLong (by simp [h])
          · split
            · refine .bind (ends_checkedDesc h) fun x _ => ?_
              refine .bind (ends_recordReach h) fun x₁ _ => ?_
              split
              · simp [h]
              · simp [h]
              · exact ends_kvLong (by simp [h])
              · exact ends_kvLong (by simp [h])
            · refine .bind (ends_checkedDesc h) fun x _ => ?_
              refine .bind (ends_recordReach h) fun x₁ _ => ?_
              split
              · simp [h]
              · simp [h]
              · exact ends_kvLong (by simp [h])
              · exact ends_kvLong (by simp [h])
      · split
        · exact h
        · split
          · refine .bind (ends_checkedHead h) fun x _ => ?_
            split
            · refine .bind (ends_checkedDesc h) fun x₁ _ => ?_
              refine .bind (ends_recordReach h) fun x₂ _ => ?_
              split
              · simp [h]
              · simp [h]
              · exact ends_kvLong (by simp [h])
              · exact ends_kvLong (by simp [h])
            · refine .bind (ends_recordReach h) fun x₁ _ => ?_
              split
              · simp [h]
              · simp [h]
              · exact ends_kvLong (by simp [h])
              · exact ends_kvLong (by simp [h])
          · split
            · refine .bind (ends_checkedDesc h) fun x _ => ?_
              refine .bind (ends_recordReach h) fun x₁ _ => ?_
              split
              · simp [h]
              · simp [h]
              · exact ends_kvLong (by simp [h])
              · exact ends_kvLong (by simp [h])
            · refine .bind (ends_recordReach h) fun x _ => ?_
              split
              · simp [h]
              · simp [h]
              · exact ends_kvLong (by simp [h])
              · exact ends_kvLong (by simp [h])
  · split
    · exact h
    · refine .bind (ends_appendKind h) fun k _ => ?_
      split
      · split
        · exact h
        · split
          · refine .bind (ends_checkedHead h) fun x _ => ?_
            split
            · refine .bind (ends_checkedDesc h) fun x₁ _ => ?_
              refine .bind (ends_recordReach h) fun x₂ _ => ?_
              split
              · simp [h]
              · simp [h]
              · exact ends_kvLong (by simp [h])
              · exact ends_kvLong (by simp [h])
            · refine .bind (ends_recordReach h) fun x₁ _ => ?_
              split
              · simp [h]
              · simp [h]
              · exact ends_kvLong (by simp [h])
              · exact ends_kvLong (by simp [h])
          · split
            · refine .bind (ends_checkedDesc h) fun x _ => ?_
              refine .bind (ends_recordReach h) fun x₁ _ => ?_
              split
              · simp [h]
              · simp [h]
              · exact ends_kvLong (by simp [h])
              · exact ends_kvLong (by simp [h])
            · refine .bind (ends_recordReach h) fun x _ => ?_
              split
              · simp [h]
              · simp [h]
              · exact ends_kvLong (by simp [h])
              · exact ends_kvLong (by simp [h])
      · split
        · exact h
        · split
          · refine .bind (ends_checkedHead h) fun x _ => ?_
            split
            · refine .bind (ends_checkedDesc h) fun x₁ _ => ?_
              refine .bind (ends_recordReach h) fun x₂ _ => ?_
              split
              · simp [h]
              · simp [h]
              · exact ends_kvLong (by simp [h])
              · exact ends_kvLong (by simp [h])
            · refine .bind (ends_checkedDesc h) fun x₁ _ => ?_
              refine .bind (ends_recordReach h) fun x₂ _ => ?_
              split
              · simp [h]
              · simp [h]
              · exact ends_kvLong (by simp [h])
              · exact ends_kvLong (by simp [h])
          · split
            · refine .bind (ends_checkedDesc h) fun x _ => ?_
              refine .bind (ends_recordReach h) fun x₁ _ => ?_
              split
              · simp [h]
              · simp [h]
              · exact ends_kvLong (by simp [h])
              · exact ends_kvLong (by simp [h])
            · refine .bind (ends_checkedDesc h) fun x _ => ?_
              refine .bind (ends_recordReach h) fun x₁ _ => ?_
              split
              · simp [h]
              · simp [h]
              · exact ends_kvLong (by simp [h])
              · exact ends_kvLong (by simp [h])
      · split
        · exact h
        · split
          · refine .bind (ends_checkedDesc h) fun x _ => ?_
            refine .bind (ends_recordReach h) fun x₁ _ => ?_
            split
            · simp [h]
            · simp [h]
            · exact ends_kvLong (by simp [h])
            · exact ends_kvLong (by simp [h])
          · refine .bind (ends_recordReach h) fun x _ => ?_
            split
            · simp [h]
            · simp [h]
            · exact ends_kvLong (by simp [h])
            · exact ends_kvLong (by simp [h])

@[simp] theorem kept_execKvAddAttach {d a h' p} (h : MemoryForm s) : Kept (execKvAddAttach d a h' p s) := by
  unfold execKvAddAttach
  refine kept_kvAdd h fun key t pool ws => ?_
  refine .bind (ends_liftE (gives_true _)) fun r _ => ?_
  dsimp only
  split
  · simp
  · refine .bind (ends_lookup h) fun f _ => ?_
    split
    · exact h
    · split
      · simp
      · refine .bind (ends_checkedDesc h) fun desc _ => ?_
        refine .bind (ends_recordReach h) fun x _ => ?_
        exact ends_kvGive (form_setCounts (by simp [h]))

@[simp] theorem ends_namedEntry {r i} (h : MemoryForm s) : Ends (fun _ => True) (namedEntry s r i) := by
  unfold namedEntry; split <;> simp [h]
@[simp] theorem kept_execKvAddPublish {d a h' p'} (h : MemoryForm s) : Kept (execKvAddPublish d a h' p' s) := by
  unfold execKvAddPublish
  refine kept_kvAdd h fun key t pool ws => ?_
  refine .bind (ends_liftE (gives_true _)) fun r _ => ?_
  dsimp only
  refine .bind (ends_namedEntry h) fun e _ => ?_
  split
  · refine .bind (ends_checkedDesc h) fun desc _ => ?_
    split
    · simp
    · refine .bind (ends_checkedBucket h) fun x _ => ?_
      split
      · exact ends_kvGive (form_setDesc (by simp [h]))
      · exact h
  · refine .bind (p := fun _ => True) ?_ fun desc _ => ?_
    · simp
    · split
      · simp
      · refine .bind (ends_checkedBucket h) fun x _ => ?_
        split
        · exact ends_kvGive (form_setDesc (by simp [h]))
        · exact h

@[simp] theorem kept_execKvAddClose {d a h' p} (h : MemoryForm s) : Kept (execKvAddClose d a h' p s) := by
  unfold execKvAddClose
  refine kept_kvAdd h fun key t pool ws => ?_
  refine .bind (ends_liftE (gives_true _)) fun r _ => ?_
  split
  · simp
  · refine .bind (ends_mapE (by simp [h])) fun es _ => ?_
    refine .bind (ends_mapE (by simp [h])) fun x _ => ?_
    dsimp only
    refine ends_kvGive ?_
    simp only [memoryForm_mk, formed_iff]
    refine form_foldl (fun u x hu => ?_) ?_
    · simp [hu]
    · exact h

@[simp] theorem kept_execKvAddDemote {d a h' p} (h : MemoryForm s) : Kept (execKvAddDemote d a h' p s) := by
  unfold execKvAddDemote
  refine kept_kvAdd h fun key t pool ws => ?_
  refine .bind (ends_liftE (gives_true _)) fun r _ => ?_
  dsimp only
  refine .bind (ends_namedEntry h) fun e _ => ?_
  split
  · simp
  · split
    · simp
    · refine .bind (ends_checkedDesc h) fun desc _ => ?_
      split <;> simp [h]

@[simp] theorem form_notePromote {z r i} (h : MemoryForm s) (hz : MemoryForm z) : MemoryForm (notePromote s z r i) := by
  unfold notePromote
  simp [hz]
@[simp] theorem kept_execKvPromote {d a p} (h : MemoryForm s) : Kept (execKvPromote d a p s) := by
  unfold execKvPromote
  refine kept_issue h fun key t => ?_
  refine .bind ends_readSrc fun x _ => ?_
  refine .bind ends_destReady fun x₁ _ => ?_
  refine .bind (ends_liftE (gives_true _)) fun x₂ _ => ?_
  split
  · dsimp only
    refine .bind (ends_namedEntry h) fun e _ => ?_
    split
    · simp
    · refine .bind (ends_liftE (gives_true _)) fun x₂ _ => ?_
      split
      · exact h
      · refine .bind (ends_checkedHead h) fun x₃ _ => ?_
        refine ends_kvGive ?_
        refine form_notePromote ?_ ?_
        · exact h
        · simp [h]

@[simp] theorem form_promotionSlot {r slot err who} (h : MemoryForm s) : MemoryForm (promotionSlot s r slot err who) := by
  unfold promotionSlot; simp [h]
@[simp] theorem kept_execKvPromoteCancel {d a p} (h : MemoryForm s) : Kept (execKvPromoteCancel d a p s) := by
  unfold execKvPromoteCancel
  refine kept_issue h fun key t => ?_
  refine .bind ends_readSrc fun x _ => ?_
  refine .bind ends_destReady fun x₁ _ => ?_
  refine .bind (ends_liftE (gives_true _)) fun x₂ _ => ?_
  split
  · split
    · refine .bind (ends_checkedDesc h) fun x₃ _ => ?_
      dsimp only
      simp only [ends_pure]
      exact form_updThread.mpr (form_promotionSlot (by simp [h]))
    · exact h

@[simp] theorem form_readyResult {who reg} (h : MemoryForm s) : MemoryForm (readyResult s who reg) := by
  unfold readyResult; simp [h]
@[simp] theorem form_dropCopy {id} : MemoryForm (dropCopy s id) ↔ MemoryForm s := by
  unfold dropCopy; simp
@[simp] theorem kept_execAppendPageCopyComplete {id} (h : MemoryForm s) : Kept (execAppendPageCopyComplete id s) := by
  unfold execAppendPageCopyComplete
  simp only [kept_next]
  split
  · split <;> simp [h]
  · exact h

@[simp] theorem kept_execDemoteComplete {id} (h : MemoryForm s) : Kept (execDemoteComplete id s) := by
  unfold execDemoteComplete
  simp only [kept_next]
  split
  · refine form_readyResult ?_
    refine form_dropCopy.mpr ?_
    split
    · exact form_setEntry4 (form_freePage (by simp [h]))
    · simp [h]
  · exact h

@[simp] theorem kept_execPromotionCopyBegin {id} (h : MemoryForm s) : Kept (execPromotionCopyBegin id s) := by
  unfold execPromotionCopyBegin; split <;> simp [h]
@[simp] theorem kept_execPromotionComplete {id} (h : MemoryForm s) : Kept (execPromotionComplete id s) := by
  unfold execPromotionComplete
  simp only [kept_next]
  split
  · refine form_promotionSlot ?_
    refine form_dropCopy.mpr ?_
    split <;> simp [h]
  · exact h

end Sys2Proof.Proofs.Form
end


section
/-! PROOFS. What the operations do to the four memories, in the order of the model (5 of 5). -/

namespace Sys2Proof.Proofs.Form

open Sys2Proof Sys2Proof.Machine

variable {s : State}

/-! ## Draft windows (13/R321-R327). -/

@[simp] theorem form_stopTaking {q} : MemoryForm (stopTaking s q) ↔ MemoryForm s := by
  unfold stopTaking; simp [memoryForm_foldl]
@[simp] theorem kept_execDwOpen {d a p n} (h : MemoryForm s) : Kept (execDwOpen d a p n s) := by
  unfold execDwOpen
  refine kept_issue h fun key t => ?_
  refine .bind ends_readSrc fun x _ => ?_
  refine .bind ends_destReady fun x₁ _ => ?_
  split
  · simp
  · refine .bind (ends_liftE (gives_true _)) fun r _ => ?_
    split
    · exact h
    · split <;> simp [h]

@[simp] theorem form_touchView {l pc} : MemoryForm (touchView s l pc) ↔ MemoryForm s := by
  unfold touchView; simp [memoryForm_foldl]
@[simp] theorem form_takeSnapshot {i p w slots} (h : MemoryForm s) : MemoryForm (takeSnapshot s i p w slots) := by
  unfold takeSnapshot
  dsimp only
  refine form_updWindow.mpr ?_
  refine form_foldl (fun u x hu => ?_) ?_
  · simp [hu]
  · refine form_foldl (fun u x hu => ?_) ?_
    · simp [hu]
    · exact h

@[simp] theorem kept_execDwSnap {d a p} (h : MemoryForm s) : Kept (execDwSnap d a p s) := by
  unfold execDwSnap
  refine kept_issue h fun key t => ?_
  refine .bind ends_readSrc fun x _ => ?_
  refine .bind ends_readField fun v _ => ?_
  refine .bind (ends_liftE (gives_true _)) fun x₁ _ => ?_
  split
  · dsimp only
    split
    · split
      · simp
      · split
        · simp
        · split
          · exact h
          · split <;> simp [h]
    · split
      · simp
      · split
        · simp
        · split
          · exact h
          · split <;> simp [h]

@[simp] theorem form_closing {key t i n as ss} : MemoryForm (closing s key t i n as ss) ↔ MemoryForm s := by
  unfold closing; dsimp only; split <;> simp
@[simp] theorem gives_closeWindow {key t x n as ss} (h : MemoryForm s) : Gives MemoryForm (closeWindow s key t x n as ss) := by
  unfold closeWindow
  split
  · simp
  · split
    · simp
    · split <;> simp [h]

@[simp] theorem kept_execDwCommit {d a as ss} (h : MemoryForm s) : Kept (execDwCommit d a as ss s) := by
  unfold execDwCommit
  refine kept_issue h fun key t => ?_
  refine .bind ends_readSrc fun x _ => ?_
  refine .bind ends_readField fun v _ => ?_
  exact ends_liftE (by simp [h])

@[simp] theorem kept_execDwAbort {a as ss} (h : MemoryForm s) : Kept (execDwAbort a as ss s) := by
  unfold execDwAbort
  refine kept_issue h fun key t => ?_
  refine .bind ends_readSrc fun x _ => ?_
  exact ends_liftE (by simp [h])

@[simp] theorem kept_execDwStat {d a} (h : MemoryForm s) : Kept (execDwStat d a s) := by
  unfold execDwStat
  refine kept_issue h fun key t => ?_
  refine .bind ends_readSrc fun x _ => ?_
  refine .bind ends_destReady fun x₁ _ => ?_
  split
  · exact h
  · dsimp only
    simp only [ends_pure]
    refine form_setThread.mpr ?_
    split <;> simp [h]

@[simp] theorem kept_execCommitPoint {win} (h : MemoryForm s) : Kept (execCommitPoint win s) := by
  unfold execCommitPoint; dsimp only; (repeat' split) <;> simp [h]

/-! ## `fence` (08/R207): what its later accesses wait for, and the storage kinds of an instruction's accesses (14/R330). -/

@[simp] theorem kept_execFence {as ss} (h : MemoryForm s) : Kept (execFence as ss s) := by
  unfold execFence
  exact kept_issueOwn h fun t => (by simp)

/-! ## Flow nodes (11/R262-R271) and `cfg.tok` (11/R285). -/

@[simp] theorem kept_execFork {f} (h : MemoryForm s) : Kept (execFork f s) := by
  unfold execFork; simp [h]
@[simp] theorem kept_execSteer {f} (h : MemoryForm s) : Kept (execSteer f s) := by
  unfold execSteer; simp [h]
@[simp] theorem kept_execFilter {f} (h : MemoryForm s) : Kept (execFilter f s) := by
  unfold execFilter; simp [h]
@[simp] theorem kept_execSeq {f} (h : MemoryForm s) : Kept (execSeq f s) := by
  unfold execSeq
  refine kept_atNode h fun n k => ?_
  split
  · exact h
  · dsimp only
    split
    · exact h
    · split <;> simp [h]

@[simp] theorem kept_execMark {f} (h : MemoryForm s) : Kept (execMark f s) := by
  unfold execMark; simp [h]
@[simp] theorem kept_execCfgTok {f} (h : MemoryForm s) : Kept (execCfgTok f s) := by
  unfold execCfgTok; simp [h]
@[simp] theorem form_mergeStep2 {n f} (h : MemoryForm s) : MemoryForm (mergeStep2 s n f) := by
  unfold mergeStep2
  split
  · exact h
  · split <;> simp [h]

@[simp] theorem kept_execMerge {f} (h : MemoryForm s) : Kept (execMerge f s) := by
  unfold execMerge
  refine kept_atNode h fun n k => ?_
  dsimp only
  split
  · refine form_mergeStep2 ?_
    split <;> simp [h]
  · split
    · simp [h]
    · split
      · refine form_mergeStep2 ?_
        split <;> simp [h]
      · split
        · simp [h]
        · split <;> simp [h]

@[simp] theorem kept_execMergeU {f} (h : MemoryForm s) : Kept (execMergeU f s) := by
  unfold execMergeU
  refine kept_atNode h fun n k => ?_
  dsimp only
  split
  · split
    · split
      · simp [h]
      · split <;> simp [h]
    · split
      · split <;> simp [h]
      · split
        · split <;> simp [h]
        · split
          · split <;> simp [h]
          · split <;> simp [h]
  · split
    · exact h
    · split <;> simp [h]
  · split
    · exact h
    · split <;> simp [h]
  · exact h

@[simp] theorem kept_execRecirc {f} (h : MemoryForm s) : Kept (execRecirc f s) := by
  unfold execRecirc
  refine kept_atNode h fun n k => ?_
  dsimp only
  split
  · split
    · exact h
    · split
      · exact h
      · split
        · split <;> simp [h]
        · split
          · split <;> simp [h]
          · exact h
  · split
    · simp [h]
    · split <;> simp [h]

@[simp] theorem kept_execGate {f} (h : MemoryForm s) : Kept (execGate f s) := by
  unfold execGate
  refine kept_atNode h fun n k => ?_
  dsimp only
  split
  · exact h
  · split
    · split
      · split
        · split
          · simp [h]
          · split
            · split
              · split <;> simp [h]
              · split <;> simp [h]
            · split
              · split <;> simp [h]
              · split <;> simp [h]
        · exact h
      · exact h
    · split
      · split
        · split <;> simp [h]
        · split <;> simp [h]
      · split
        · split <;> simp [h]
        · split <;> simp [h]

/-! ## Handle instructions (04/R95) and format windows (04/R87). -/

@[simp] theorem kept_execHsub {d a b h'} (h : MemoryForm s) : Kept (execHsub d a b h' s) := by
  unfold execHsub
  refine kept_issueOwn h fun t => ?_
  refine .bind ends_readSrc fun x _ => ?_
  refine .bind ends_readSrc fun y _ => ?_
  dsimp only
  split
  · simp
  · split
    · simp
    · split
      · simp
      · split <;> simp

@[simp] theorem kept_execHrights {d h' m} (h : MemoryForm s) : Kept (execHrights d h' m s) := by
  unfold execHrights
  refine kept_issueOwn h fun t => ?_
  dsimp only
  split <;> simp

@[simp] theorem kept_execHbase {d h'} (h : MemoryForm s) : Kept (execHbase d h' s) := by
  unfold execHbase; simp [h]
@[simp] theorem kept_execHlen {d h'} (h : MemoryForm s) : Kept (execHlen d h' s) := by
  unfold execHlen; simp [h]
@[simp] theorem kept_execHmov {d h'} (h : MemoryForm s) : Kept (execHmov d h' s) := by
  unfold execHmov
  exact kept_issueOwn h fun t => (by simp)
@[simp] theorem kept_execHcheck {d a h' p m} (h : MemoryForm s) : Kept (execHcheck d a h' p m s) := by
  unfold execHcheck
  refine kept_issueOwn h fun t => ?_
  refine .bind ends_readSrc fun x _ => ?_
  refine .bind ends_readField fun y _ => ?_
  simp

@[simp] theorem form_invalidateView {die d} : MemoryForm (invalidateView s die d) ↔ MemoryForm s := by
  unfold invalidateView; dsimp only; split <;> simp
@[simp] theorem form_setWindow {die i d} : MemoryForm (setWindow s die i d) ↔ MemoryForm s := by
  unfold setWindow; simp
@[simp] theorem kept_execFmtWin {r a h' o} (h : MemoryForm s) : Kept (execFmtWin r a h' o s) := by
  unfold execFmtWin
  refine kept_issue h fun key t => ?_
  split
  · simp
  · refine .bind ends_readSrc fun x _ => ?_
    refine .bind ends_readField fun w _ => ?_
    refine .bind (ends_liftE (gives_true _)) fun va _ => ?_
    refine .bind (ends_readIssue h) fun y hy => ?_
    dsimp only
    split
    · simp
    · split <;> simp [hy]

/-! ## The host's accesses (18/R407-R410), writes of device registers (04/R92, R100, 16/R370, 17/R405, 18/R414, R423), and
errors in storage and links (17/R403, R404). -/

@[simp] theorem kept_execHostTailWrite {q size v} (h : MemoryForm s) : Kept (execHostTailWrite q size v s) := by
  unfold execHostTailWrite
  simp only [kept_next]
  split
  · exact h
  · split <;> simp [h]

@[simp] theorem kept_execHostMemoryWrite {x' bytes} (h : MemoryForm s) : Kept (execHostMemoryWrite x' bytes s) := by
  unfold execHostMemoryWrite
  simp only [kept_next]
  split
  · exact h
  · refine form_foldl (fun u x hu => ?_) ?_
    · split
      · split
        next x₁ u₁ hx₂ =>
          have hf := (gives_devWrite hu).ok hx₂
          exact hf
        · exact hu
      · exact hu
    · exact h

@[simp] theorem form_bar2Touch {x' n} (h : MemoryForm s) : MemoryForm (bar2Touch s x' n) := by
  unfold bar2Touch
  split
  · refine form_foldl (fun u x hu => ?_) ?_
    · split <;> simp [hu]
    · exact h
  · exact h

@[simp] theorem kept_execHostMemoryRead {x n} (h : MemoryForm s) : Kept (execHostMemoryRead x n s) := by
  unfold execHostMemoryRead; split <;> simp [h]
@[simp] theorem kept_execHostAtomicopRequest {op x'} (h : MemoryForm s) : Kept (execHostAtomicopRequest op x' s) := by
  unfold execHostAtomicopRequest
  simp only [kept_next]
  split
  · exact h
  · split
    next x g hx₁ =>
      have hf := (ends_accAtomic h).ok hx₁
      exact hf
    · exact h

@[simp] theorem form_endProducer {key idx err} : MemoryForm (endProducer s key idx err) ↔ MemoryForm s := by
  unfold endProducer; dsimp only; (repeat' split) <;> simp
@[simp] theorem kept_execHostWindowCompletion {who} (h : MemoryForm s) : Kept (execHostWindowCompletion who s) := by
  unfold execHostWindowCompletion
  simp only [kept_next]
  split
  · simp [h]
  · split <;> simp [h]
  · exact h

@[simp] theorem kept_execHostCompletionTimeout {who} (h : MemoryForm s) : Kept (execHostCompletionTimeout who s) := by
  unfold execHostCompletionTimeout
  simp only [kept_next]
  split
  · simp [h]
  · split <;> simp [h]
  · split
    · split <;> simp [h]
    · exact h

@[simp] theorem kept_hostReg {off size v} (h : MemoryForm s) : Kept (hostReg s off size v) := by
  unfold hostReg; split <;> simp [h]
@[simp] theorem kept_execRegisterWrite {off size v} (h : MemoryForm s) : Kept (execRegisterWrite off size v s) := by
  unfold execRegisterWrite; simp [h]
@[simp] theorem kept_execTinvWrite {v} (h : MemoryForm s) : Kept (execTinvWrite v s) := by
  unfold execTinvWrite; simp [h]
@[simp] theorem kept_execLqctlWrite {q v} (h : MemoryForm s) : Kept (execLqctlWrite q v s) := by
  unfold execLqctlWrite; split <;> simp [h]
@[simp] theorem kept_execErrorCounterWrite {off} (h : MemoryForm s) : Kept (execErrorCounterWrite off s) := by
  unfold execErrorCounterWrite; split <;> simp [h]
@[simp] theorem kept_execPodidWrite {v} (h : MemoryForm s) : Kept (execPodidWrite v s) := by
  unfold execPodidWrite; simp [h]
@[simp] theorem kept_execPodwinWrite {m v} (h : MemoryForm s) : Kept (execPodwinWrite m v s) := by
  unfold execPodwinWrite; split <;> simp [h]
@[simp] theorem kept_execTinvComplete (h : MemoryForm s) : Kept (execTinvComplete s) := by
  unfold execTinvComplete
  simp only [kept_next]
  split
  · exact h
  · refine form_foldl (fun u x hu => ?_) ?_
    · simp [hu]
    · exact h

@[simp] theorem kept_execLinkCrcRetry (h : MemoryForm s) : Kept (execLinkCrcRetry s) := by
  unfold execLinkCrcRetry; simp [h]
@[simp] theorem form_retireFrame {c f} (h : MemoryForm s) : MemoryForm (retireFrame s c f) := by
  unfold retireFrame; split <;> simp [h]
@[simp] theorem form_trimSet {slice n} : MemoryForm (trimSet s slice n) ↔ MemoryForm s := by
  unfold trimSet; simp
@[simp] theorem form_postGranule : MemoryForm (postGranule s) ↔ MemoryForm s := by
  unfold postGranule; simp
@[simp] theorem form_retireUnit {u} (h : MemoryForm s) : MemoryForm (retireUnit s u) := by
  unfold retireUnit; dsimp only; (repeat' split) <;> simp [h]
@[simp] theorem kept_execCorrectedError {u} (h : MemoryForm s) : Kept (execCorrectedError u s) := by
  unfold execCorrectedError; dsimp only; (repeat' split) <;> simp [h]

/-! ## Integer and address arithmetic (08/R195-R198). -/

@[simp] theorem kept_execAdd {d a b} (h : MemoryForm s) : Kept (execAdd d a b s) := by
  unfold execAdd; simp [h]
@[simp] theorem kept_execSub {d a b} (h : MemoryForm s) : Kept (execSub d a b s) := by
  unfold execSub; simp [h]
@[simp] theorem kept_execMul {d a b} (h : MemoryForm s) : Kept (execMul d a b s) := by
  unfold execMul; simp [h]
@[simp] theorem kept_execMulh {d a b} (h : MemoryForm s) : Kept (execMulh d a b s) := by
  unfold execMulh; simp [h]
@[simp] theorem kept_execMulhu {d a b} (h : MemoryForm s) : Kept (execMulhu d a b s) := by
  unfold execMulhu; simp [h]
@[simp] theorem kept_execDiv {d a b} (h : MemoryForm s) : Kept (execDiv d a b s) := by
  unfold execDiv; simp [h]
@[simp] theorem kept_execDivu {d a b} (h : MemoryForm s) : Kept (execDivu d a b s) := by
  unfold execDivu; simp [h]
@[simp] theorem kept_execRem {d a b} (h : MemoryForm s) : Kept (execRem d a b s) := by
  unfold execRem; simp [h]
@[simp] theorem kept_execRemu {d a b} (h : MemoryForm s) : Kept (execRemu d a b s) := by
  unfold execRemu; simp [h]
@[simp] theorem kept_execAnd {d a b} (h : MemoryForm s) : Kept (execAnd d a b s) := by
  unfold execAnd; simp [h]
@[simp] theorem kept_execOr {d a b} (h : MemoryForm s) : Kept (execOr d a b s) := by
  unfold execOr; simp [h]
@[simp] theorem kept_execXor {d a b} (h : MemoryForm s) : Kept (execXor d a b s) := by
  unfold execXor; simp [h]
@[simp] theorem kept_execAndn {d a b} (h : MemoryForm s) : Kept (execAndn d a b s) := by
  unfold execAndn; simp [h]
@[simp] theorem kept_execShl {d a b} (h : MemoryForm s) : Kept (execShl d a b s) := by
  unfold execShl; simp [h]
@[simp] theorem kept_execShr {d a b} (h : MemoryForm s) : Kept (execShr d a b s) := by
  unfold execShr; simp [h]
@[simp] theorem kept_execSra {d a b} (h : MemoryForm s) : Kept (execSra d a b s) := by
  unfold execSra; simp [h]
@[simp] theorem kept_execRot {d a b} (h : MemoryForm s) : Kept (execRot d a b s) := by
  unfold execRot; simp [h]
@[simp] theorem kept_execMin {d a b} (h : MemoryForm s) : Kept (execMin d a b s) := by
  unfold execMin; simp [h]
@[simp] theorem kept_execMinu {d a b} (h : MemoryForm s) : Kept (execMinu d a b s) := by
  unfold execMinu; simp [h]
@[simp] theorem kept_execMax {d a b} (h : MemoryForm s) : Kept (execMax d a b s) := by
  unfold execMax; simp [h]
@[simp] theorem kept_execMaxu {d a b} (h : MemoryForm s) : Kept (execMaxu d a b s) := by
  unfold execMaxu; simp [h]
@[simp] theorem kept_execMov {d a} (h : MemoryForm s) : Kept (execMov d a s) := by
  unfold execMov; simp [h]
@[simp] theorem kept_execClz {d a} (h : MemoryForm s) : Kept (execClz d a s) := by
  unfold execClz; simp [h]
@[simp] theorem kept_execPopc {d a} (h : MemoryForm s) : Kept (execPopc d a s) := by
  unfold execPopc; simp [h]
@[simp] theorem kept_execAddi {d a i} (h : MemoryForm s) : Kept (execAddi d a i s) := by
  unfold execAddi; simp [h]
@[simp] theorem kept_execAndi {d a i} (h : MemoryForm s) : Kept (execAndi d a i s) := by
  unfold execAndi; simp [h]
@[simp] theorem kept_execOri {d a i} (h : MemoryForm s) : Kept (execOri d a i s) := by
  unfold execOri; simp [h]
@[simp] theorem kept_execXori {d a i} (h : MemoryForm s) : Kept (execXori d a i s) := by
  unfold execXori; simp [h]
@[simp] theorem kept_execShli {d a n} (h : MemoryForm s) : Kept (execShli d a n s) := by
  unfold execShli; simp [h]
@[simp] theorem kept_execShri {d a n} (h : MemoryForm s) : Kept (execShri d a n s) := by
  unfold execShri; simp [h]
@[simp] theorem kept_execSrai {d a n} (h : MemoryForm s) : Kept (execSrai d a n s) := by
  unfold execSrai; simp [h]
@[simp] theorem kept_execBfx {d a p l} (h : MemoryForm s) : Kept (execBfx d a p l s) := by
  unfold execBfx; simp [h]
@[simp] theorem kept_execBfxu {d a p l} (h : MemoryForm s) : Kept (execBfxu d a p l s) := by
  unfold execBfxu; simp [h]
@[simp] theorem kept_execBfi {d a p l} (h : MemoryForm s) : Kept (execBfi d a p l s) := by
  unfold execBfi
  refine kept_issueOwn h fun t => ?_
  refine .bind ends_readSrc fun x _ => ?_
  refine .bind ends_readField fun y _ => ?_
  simp

@[simp] theorem kept_execSext {d a i} (h : MemoryForm s) : Kept (execSext d a i s) := by
  unfold execSext; simp [h]
@[simp] theorem kept_execMovi {d i} (h : MemoryForm s) : Kept (execMovi d i s) := by
  unfold execMovi; simp [h]
@[simp] theorem kept_execMovl {d imm} (h : MemoryForm s) : Kept (execMovl d imm s) := by
  unfold execMovl; simp [h]
@[simp] theorem kept_execMovhi {d a imm} (h : MemoryForm s) : Kept (execMovhi d a imm s) := by
  unfold execMovhi; simp [h]

/-! ## The management mailbox (18/R411, R412, R427-R429, 17/R396, R401, R402, 19/R434, R437), module reset and bring-up
(19/R433-R436) and the thermal events (R432). -/

theorem kept_doorbell {code req f} (h : MemoryForm s) (hf : ∀ req u, MemoryForm u → MemoryForm (f req u).st) :
    Kept (doorbell s code req f) := by
  refine form_ite h ?_
  have hu := hf (reqAfter s req) { s with mbox := { s.mbox with req := reqAfter s req } } h
  exact form_ite h hu

theorem kept_command {code req f} (h : MemoryForm s) (hf : ∀ req u, MemoryForm u → MemoryForm (f req u).st) :
    Kept (command s code req f) := by
  refine kept_doorbell h fun req u hu => ?_
  split
  · exact hu
  · exact hf req u hu

@[simp] theorem form_success (h : MemoryForm s) : MemoryForm (success s).st := by
  unfold success; simp [h]
@[simp] theorem form_badOperand (h : MemoryForm s) : MemoryForm (badOperand s).st := by
  unfold badOperand; simp [h]
@[simp] theorem form_noTarget (h : MemoryForm s) : MemoryForm (noTarget s).st := by
  unfold noTarget; simp [h]
@[simp] theorem form_killHeld {q r} (h : MemoryForm s) : MemoryForm (killHeld s q r) := by
  unfold killHeld; simp [h]
@[simp] theorem form_killCommand {req} (h : MemoryForm s) : MemoryForm (killCommand req s).st := by
  unfold killCommand; dsimp only; (repeat' split) <;> simp [h]
@[simp] theorem kept_execKillLaunch {req'} (h : MemoryForm s) : Kept (execKillLaunch req' s) := by
  unfold execKillLaunch
  exact kept_command h fun req u hu => (by simp [hu])
@[simp] theorem form_haltCast {halt req} (h : MemoryForm s) : MemoryForm (haltCast halt req s).st := by
  unfold haltCast; dsimp only; (repeat' split) <;> simp [h]
@[simp] theorem kept_execHaltCasting {req'} (h : MemoryForm s) : Kept (execHaltCasting req' s) := by
  unfold execHaltCasting
  exact kept_command h fun req u hu => (by simp [hu])
@[simp] theorem kept_execReleaseCasting {req'} (h : MemoryForm s) : Kept (execReleaseCasting req' s) := by
  unfold execReleaseCasting
  exact kept_command h fun req u hu => (by simp [hu])
@[simp] theorem kept_execHaltThread {req'} (h : MemoryForm s) : Kept (execHaltThread req' s) := by
  unfold execHaltThread
  refine kept_command h fun req u hu => ?_
  split
  · exact hu
  · split <;> simp [hu]

@[simp] theorem kept_execReleaseThread {req'} (h : MemoryForm s) : Kept (execReleaseThread req' s) := by
  unfold execReleaseThread
  refine kept_command h fun req u hu => ?_
  split
  · exact hu
  · split
    · split <;> simp [hu]
    · exact hu
    · exact hu
    · exact hu

@[simp] theorem kept_execWatchdogLimit {req'} (h : MemoryForm s) : Kept (execWatchdogLimit req' s) := by
  unfold execWatchdogLimit
  refine kept_command h fun req u hu => ?_
  dsimp only
  split
  · exact hu
  · split
    · exact hu
    · split <;> simp [hu]

@[simp] theorem kept_execReadContextStore {req'} (h : MemoryForm s) : Kept (execReadContextStore req' s) := by
  unfold execReadContextStore
  refine kept_command h fun req u hu => ?_
  dsimp only
  split
  · exact hu
  · split
    · exact hu
    · split <;> simp [hu]

@[simp] theorem kept_execIdentityPublicKey {req} (h : MemoryForm s) : Kept (execIdentityPublicKey req s) := by
  unfold execIdentityPublicKey
  unfold doorbell
  simp only [kept_next]
  split
  · exact h
  · split <;> simp [h]

@[simp] theorem kept_execAttestationReport {req'} (h : MemoryForm s) : Kept (execAttestationReport req' s) := by
  unfold execAttestationReport
  exact kept_command h fun req u hu => hu
@[simp] theorem kept_execLoadFirmware {req'} (h : MemoryForm s) : Kept (execLoadFirmware req' s) := by
  unfold execLoadFirmware
  refine kept_doorbell h fun req u hu => ?_
  split
  · exact hu
  · dsimp only
    split <;> simp [hu]

@[simp] theorem kept_execUnknownMailboxCommand {code req} (h : MemoryForm s) : Kept (execUnknownMailboxCommand code req s) := by
  unfold execUnknownMailboxCommand
  dsimp only
  split
  · exact h
  · unfold doorbell
    simp only [kept_next]
    split
    · exact h
    · split <;> simp [h]

@[simp] theorem kept_execMailboxCommandEnd (h : MemoryForm s) : Kept (execMailboxCommandEnd s) := by
  unfold execMailboxCommandEnd; split <;> simp [h]
@[simp] theorem form_hostRead {bar off n} (h : MemoryForm s) : MemoryForm (hostRead s bar off n) := by
  unfold hostRead; dsimp only; (repeat' split) <;> simp [h]
@[simp] theorem form_mailboxByte {x b} (h : MemoryForm s) : MemoryForm (mailboxByte s x b) := by
  refine form_ite h (form_ite ?_ h)
  obtain ⟨hm, hr, ho, hb⟩ := h
  exact ⟨hm, hr, ho, memPut_wf _ _ _ hb⟩

@[simp] theorem form_mailboxWrite {off bytes} (h : MemoryForm s) : MemoryForm (mailboxWrite s off bytes) :=
  form_ite (form_foldl (fun _ _ hu => form_mailboxByte hu) h) h
@[simp] theorem form_setBar2 {n} : MemoryForm (setBar2 s n) ↔ MemoryForm s := by
  unfold setBar2; split <;> simp
@[simp] theorem form_resetState {ph boot} (h : MemoryForm s) : MemoryForm (resetState s ph boot) := ⟨rfl, rfl, h.2.2.1, rfl⟩
@[simp] theorem form_endBringUp (h : MemoryForm s) : MemoryForm (endBringUp s) :=
  form_ite ⟨rfl, rfl, h.2.2⟩ h
@[simp] theorem kept_execModuleReset {ph} (h : MemoryForm s) : Kept (execModuleReset ph s) := by
  unfold execModuleReset
  simp only [kept_next]
  split
  · simp [h]
  · split <;> simp [h]

@[simp] theorem form_powerOff (h : MemoryForm s) : MemoryForm (powerOff s) := by
  unfold powerOff; simp [h]
@[simp] theorem form_senseHeat {t} (h : MemoryForm s) : MemoryForm (senseHeat t s) := by
  unfold senseHeat; dsimp only; (repeat' split) <;> simp [h]
@[simp] theorem kept_execThermalWarning {t} (h : MemoryForm s) : Kept (execThermalWarning t s) := by
  unfold execThermalWarning; split <;> simp [h]
@[simp] theorem kept_execThermalTrip (h : MemoryForm s) : Kept (execThermalTrip s) := by
  unfold execThermalTrip; simp [h]

/-! ## Scratch page instructions (06/R150-R153) and the page engine's moves (06/R145-R147). -/

@[simp] theorem ends_pageWord {x} : Ends (fun _ => True) (pageWord x) := by
  unfold pageWord; split <;> simp
@[simp] theorem ends_userPage {x k} : Ends (fun _ => True) (userPage x k) := by
  unfold userPage; split <;> simp
@[simp] theorem form_mapPage {c core k asid} (h : MemoryForm s) : MemoryForm (mapPage s c core k asid) := by
  unfold mapPage; dsimp only; (repeat' split) <;> simp [h]
@[simp] theorem kept_execSmap {d a p} (h : MemoryForm s) : Kept (execSmap d a p s) := by
  unfold execSmap
  refine kept_issue h fun key t => ?_
  dsimp only
  refine .bind ends_readSrc fun n _ => ?_
  refine .bind ends_readField fun x _ => ?_
  refine .bind ends_pageWord fun k _ => ?_
  split
  · simp
  · refine .bind ends_userPage fun x₁ _ => ?_
    split
    · exact h
    · simp only [ends_pure]
      refine form_setThread.mpr ?_
      refine form_foldl (fun u x hu => ?_) ?_
      · simp [hu]
      · exact h

@[simp] theorem form_unmapPage {c k} (h : MemoryForm s) : MemoryForm (unmapPage s c k) := by
  unfold unmapPage; dsimp only; (repeat' split) <;> simp [h]
@[simp] theorem ends_openPage {key x'} : Ends (fun _ => True) (openPage s key x') := by
  unfold openPage
  refine .bind ends_pageWord fun k _ => ?_
  refine .bind ends_userPage fun x _ => ?_
  simp

@[simp] theorem kept_execSunmap {d p} (h : MemoryForm s) : Kept (execSunmap d p s) := by
  unfold execSunmap
  refine kept_issue h fun key t => ?_
  refine .bind ends_readField fun x _ => ?_
  refine .bind ends_openPage fun x₁ _ => ?_
  split
  · split
    · exact h
    · split <;> simp [h]

@[simp] theorem form_protectPage {c k m} (h : MemoryForm s) : MemoryForm (protectPage s c k m) := by
  unfold protectPage; simp [h]
@[simp] theorem kept_execSprot {d p m} (h : MemoryForm s) : Kept (execSprot d p m s) := by
  unfold execSprot
  refine kept_issue h fun key t => ?_
  dsimp only
  refine .bind ends_readField fun x _ => ?_
  refine .bind ends_openPage fun x₁ _ => ?_
  split
  · exact h
  · split
    · simp
    · split
      · exact h
      · split <;> simp [h]

@[simp] theorem kept_execSevict {d p} (h : MemoryForm s) : Kept (execSevict d p s) := by
  unfold execSevict
  refine kept_issue h fun key t => ?_
  dsimp only
  refine .bind ends_readField fun x _ => ?_
  refine .bind ends_openPage fun x₁ _ => ?_
  split
  · exact h
  · split
    · simp
    · simp only [ends_pure]
      refine form_setThread.mpr ?_
      split <;> simp [h]

@[simp] theorem kept_execSmig {d a p} (h : MemoryForm s) : Kept (execSmig d a p s) := by
  unfold execSmig
  refine kept_issue h fun key t => ?_
  dsimp only
  refine .bind ends_readSrc fun n _ => ?_
  refine .bind ends_readField fun x _ => ?_
  refine .bind ends_pageWord fun k _ => ?_
  split
  · simp
  · refine .bind ends_openPage fun x₁ _ => ?_
    split
    · exact h
    · split
      · simp
      · split
        · exact h
        · simp only [ends_pure]
          refine form_setThread.mpr ?_
          split
          · simp [h]
          · split <;> simp [h]

@[simp] theorem kept_execSquery {d a} (h : MemoryForm s) : Kept (execSquery d a s) := by
  unfold execSquery
  refine kept_issueOwn h fun t => ?_
  refine .bind ends_readSrc fun x _ => ?_
  refine .bind ends_pageWord fun k _ => ?_
  simp

@[simp] theorem kept_execSfix {a} (h : MemoryForm s) : Kept (execSfix a s) := by
  unfold execSfix
  refine kept_issue h fun key t => ?_
  refine .bind ends_readSrc fun x _ => ?_
  refine .bind ends_pageWord fun k _ => ?_
  exact h

@[simp] theorem kept_execPageIn {cl page} (h : MemoryForm s) : Kept (execPageIn cl page s) := by
  unfold execPageIn
  split
  · exact form_endPageIn h
  · exact h
  · split
    · exact h
    · split
      · exact form_updCluster.mpr h
      · split
        · exact h
        next hr => exact form_beginPageIn (form_frameOrEvict h hr)

@[simp] theorem kept_execPageOut {cl page} (h : MemoryForm s) : Kept (execPageOut cl page s) := by
  unfold execPageOut; split <;> simp [h]
@[simp] theorem kept_execRelocation {cl page core} (h : MemoryForm s) : Kept (execRelocation cl page core s) := by
  unfold execRelocation; dsimp only; (repeat' split) <;> simp [h]

/-! ## A cycle: which agents act in it, in which order (09/R214, R217, 11/R276, R282, 15/R353, R359, R362), and the turn of
each. (DESIGN CHOICE, log 2, log 3, log 12.) -/

@[simp] theorem form_mapCasts {f} : MemoryForm (mapCasts s f) ↔ MemoryForm s := by
  unfold mapCasts; simp
@[simp] theorem form_showAdded : MemoryForm (showAdded s) ↔ MemoryForm s := by
  unfold showAdded; simp
@[simp] theorem form_noteAsked {key old} : MemoryForm (noteAsked key old s) ↔ MemoryForm s := by
  unfold noteAsked; split <;> simp
@[simp] theorem form_unwait {who} : MemoryForm (unwait who s) ↔ MemoryForm s := by
  unfold unwait; split <;> simp
@[simp] theorem kept_atBanks {who a} (h : MemoryForm s) (ha : Kept a) : Kept (atBanks s who a) := by
  unfold atBanks
  split
  · dsimp only
    split
    · simp only [kept_next]
      exact form_unwait.mpr ha
    · exact h
  · exact ha

@[simp] theorem form_eccError {x1} : MemoryForm (eccError s x1) ↔ MemoryForm s := by
  unfold eccError; split <;> simp
@[simp] theorem form_planned {p} : MemoryForm (planned s p) ↔ MemoryForm s := by
  unfold planned; simp
@[simp] theorem form_beginCycle (h : MemoryForm s) : MemoryForm (beginCycle s) := by
  unfold beginCycle
  dsimp only
  simp only [memoryForm_mk, formed_iff]
  simp [h]

end Sys2Proof.Proofs.Form
end


section

namespace Sys2Proof.Proofs.Form

open Sys2Proof Sys2Proof.Machine

variable {s : State}

/-! ## Every instruction -/

/-- Every instruction keeps the form of the memories. -/
theorem kept_exec {i : Instr} (h : MemoryForm s) : Kept (exec i s) := by
  cases i with
  | add => exact kept_execAdd h
  | sub => exact kept_execSub h
  | mul => exact kept_execMul h
  | mulh => exact kept_execMulh h
  | mulhu => exact kept_execMulhu h
  | div => exact kept_execDiv h
  | divu => exact kept_execDivu h
  | rem => exact kept_execRem h
  | remu => exact kept_execRemu h
  | and => exact kept_execAnd h
  | or => exact kept_execOr h
  | xor => exact kept_execXor h
  | andn => exact kept_execAndn h
  | shl => exact kept_execShl h
  | shr => exact kept_execShr h
  | sra => exact kept_execSra h
  | rot => exact kept_execRot h
  | min => exact kept_execMin h
  | minu => exact kept_execMinu h
  | max => exact kept_execMax h
  | maxu => exact kept_execMaxu h
  | mov => exact kept_execMov h
  | clz => exact kept_execClz h
  | popc => exact kept_execPopc h
  | addi => exact kept_execAddi h
  | andi => exact kept_execAndi h
  | ori => exact kept_execOri h
  | xori => exact kept_execXori h
  | shli => exact kept_execShli h
  | shri => exact kept_execShri h
  | srai => exact kept_execSrai h
  | bfx => exact kept_execBfx h
  | bfxu => exact kept_execBfxu h
  | bfi => exact kept_execBfi h
  | sext => exact kept_execSext h
  | movi => exact kept_execMovi h
  | movl => exact kept_execMovl h
  | movhi => exact kept_execMovhi h
  | cmpEq => exact kept_execCmpEq h
  | cmpNe => exact kept_execCmpNe h
  | cmpLt => exact kept_execCmpLt h
  | cmpLtu => exact kept_execCmpLtu h
  | cmpLe => exact kept_execCmpLe h
  | cmpLeu => exact kept_execCmpLeu h
  | pand => exact kept_execPand h
  | por => exact kept_execPor h
  | pxor => exact kept_execPxor h
  | pnot => exact kept_execPnot h
  | psel => exact kept_execPsel h
  | ldB => exact kept_execLdB h
  | ldBu => exact kept_execLdBu h
  | ldH => exact kept_execLdH h
  | ldHu => exact kept_execLdHu h
  | ldW => exact kept_execLdW h
  | ldWu => exact kept_execLdWu h
  | ldD => exact kept_execLdD h
  | stB => exact kept_execStB h
  | stH => exact kept_execStH h
  | stW => exact kept_execStW h
  | stD => exact kept_execStD h
  | pfetch => exact kept_execPfetch h
  | amoAdd => exact kept_execAmoAdd h
  | amoAnd => exact kept_execAmoAnd h
  | amoOr => exact kept_execAmoOr h
  | amoXor => exact kept_execAmoXor h
  | amoMin => exact kept_execAmoMin h
  | amoMinu => exact kept_execAmoMinu h
  | amoMax => exact kept_execAmoMax h
  | amoMaxu => exact kept_execAmoMaxu h
  | amoSwap => exact kept_execAmoSwap h
  | amoCas => exact kept_execAmoCas h
  | fence => exact kept_execFence h
  | hsub => exact kept_execHsub h
  | hrights => exact kept_execHrights h
  | hbase => exact kept_execHbase h
  | hlen => exact kept_execHlen h
  | hmov => exact kept_execHmov h
  | hcheck => exact kept_execHcheck h
  | fmtWin => exact kept_execFmtWin h
  | br => exact kept_execBr h
  | jmp => exact kept_execJmp h
  | call => exact kept_execCall h
  | jr => exact kept_execJr h
  | callr => exact kept_execCallr h
  | ret => exact kept_execRet h
  | enter => exact kept_execEnter h
  | loop => exact kept_execLoop h
  | loopr => exact kept_execLoopr h
  | cpIssue => exact kept_execCpIssue h
  | cpSched => exact kept_execCpSched h
  | cpAdv => exact kept_execCpAdv h
  | cpStatus => exact kept_execCpStatus h
  | ringInit => exact kept_execRingInit h
  | ringWait => exact kept_execRingWait h
  | ringRel => exact kept_execRingRel h
  | ringWptr => exact kept_execRingWptr h
  | qfence => exact kept_execQfence h
  | smap => exact kept_execSmap h
  | sunmap => exact kept_execSunmap h
  | sprot => exact kept_execSprot h
  | sevict => exact kept_execSevict h
  | smig => exact kept_execSmig h
  | squery => exact kept_execSquery h
  | sfix => exact kept_execSfix h
  | calloc => exact kept_execCalloc h
  | cseal => exact kept_execCseal h
  | cldR => exact kept_execCldR h
  | cfin => exact kept_execCfin h
  | cdrop => exact kept_execCdrop h
  | cinfo => exact kept_execCinfo h
  | cpart => exact kept_execCpart h
  | mxBind => exact kept_execMxBind h
  | mxScale => exact kept_execMxScale h
  | mxMode => exact kept_execMxMode h
  | mxFire => exact kept_execMxFire h
  | mxAcc => exact kept_execMxAcc h
  | mxRlbl => exact kept_execMxRlbl h
  | mxDrain => exact kept_execMxDrain h
  | mxUnpin => exact kept_execMxUnpin h
  | castLoad => exact kept_execCastLoad h
  | castBind => exact kept_execCastBind h
  | castKill => exact kept_execCastKill h
  | castEnd => exact kept_execCastEnd h
  | bpush => exact kept_execBpush h
  | bpull => exact kept_execBpull h
  | bmark => exact kept_execBmark h
  | kvFind => exact kept_execKvFind h
  | kvAddPool => exact kept_execKvAddPool h
  | kvAddOpen => exact kept_execKvAddOpen h
  | kvAddAppend => exact kept_execKvAddAppend h
  | kvAddAttach => exact kept_execKvAddAttach h
  | kvAddPublish => exact kept_execKvAddPublish h
  | kvAddClose => exact kept_execKvAddClose h
  | kvAddDemote => exact kept_execKvAddDemote h
  | kvPromote => exact kept_execKvPromote h
  | kvPromoteCancel => exact kept_execKvPromoteCancel h
  | dwOpen => exact kept_execDwOpen h
  | dwSnap => exact kept_execDwSnap h
  | dwCommit => exact kept_execDwCommit h
  | dwAbort => exact kept_execDwAbort h
  | dwStat => exact kept_execDwStat h
  | xmcast => exact kept_execXmcast h
  | xcomb => exact kept_execXcomb h
  | xbar => exact kept_execXbar h
  | xid => exact kept_execXid h
  | chanBind => exact kept_execChanBind h
  | chanYield => exact kept_execChanYield h
  | chanRaise => exact kept_execChanRaise h
  | qput => exact kept_execQput h
  | qget => exact kept_execQget h
  | barArrive => exact kept_execBarArrive h
  | barWait => exact kept_execBarWait h
  | barTest => exact kept_execBarTest h
  | trap => exact kept_execTrap h
  | eret => exact kept_execEret h
  | srd => exact kept_execSrd h
  | swr => exact kept_execSwr h
  | brk => exact kept_execBrk h
  | nop => exact kept_execNop h
  | iAdd => exact kept_execIAdd h
  | iSub => exact kept_execISub h
  | iMul => exact kept_execIMul h
  | iMad => exact kept_execIMad h
  | iMin => exact kept_execIMin h
  | iMax => exact kept_execIMax h
  | iAbs => exact kept_execIAbs h
  | iClamp => exact kept_execIClamp h
  | iAnd => exact kept_execIAnd h
  | iOr => exact kept_execIOr h
  | iXor => exact kept_execIXor h
  | iShl => exact kept_execIShl h
  | iShr => exact kept_execIShr h
  | iSra => exact kept_execISra h
  | iCmp => exact kept_execICmp h
  | sel => exact kept_execSel h
  | fabricMov => exact kept_execFabricMov h
  | const => exact kept_execConst h
  | mix => exact kept_execMix h
  | fAdd => exact kept_execFAdd h
  | fSub => exact kept_execFSub h
  | fMul => exact kept_execFMul h
  | fFma => exact kept_execFFma h
  | fMin => exact kept_execFMin h
  | fMax => exact kept_execFMax h
  | fAbs => exact kept_execFAbs h
  | fNeg => exact kept_execFNeg h
  | fCmp => exact kept_execFCmp h
  | fRcp => exact kept_execFRcp h
  | fRsq => exact kept_execFRsq h
  | fExp2 => exact kept_execFExp2 h
  | fLog2 => exact kept_execFLog2 h
  | fSig => exact kept_execFSig h
  | fTanh => exact kept_execFTanh h
  | cvt => exact kept_execCvt h
  | pack => exact kept_execPack h
  | unpack => exact kept_execUnpack h
  | rEnc => exact kept_execREnc h
  | rDec => exact kept_execRDec h
  | rMac => exact kept_execRMac h
  | xl => exact kept_execXl h
  | red => exact kept_execRed h
  | fork => exact kept_execFork h
  | steer => exact kept_execSteer h
  | merge => exact kept_execMerge h
  | mergeU => exact kept_execMergeU h
  | filter => exact kept_execFilter h
  | recirc => exact kept_execRecirc h
  | gate => exact kept_execGate h
  | seq => exact kept_execSeq h
  | mark => exact kept_execMark h
  | ldS => exact kept_execLdS h
  | stS => exact kept_execStS h
  | amoS => exact kept_execAmoS h
  | ldG => exact kept_execLdG h
  | stG => exact kept_execStG h
  | ag => exact kept_execAg h
  | ldC => exact kept_execLdC h
  | stC => exact kept_execStC h
  | cAlloc => exact kept_execCAlloc h
  | cSeal => exact kept_execCSeal h
  | accRd => exact kept_execAccRd h
  | aRow => exact kept_execARow h
  | cfgTok => exact kept_execCfgTok h
  | illegalInstruction w => exact kept_execIllegalInstruction (_w := w) h
  | longLatencyProducerComplete => exact kept_execLongLatencyProducerComplete h
  | faultDelivery => exact kept_execFaultDelivery h
  | channelEntry => exact kept_execChannelEntry h
  | streamerBeat => exact kept_execStreamerBeat h
  | copyCompletion => exact kept_execCopyCompletion h
  | scheduleEntryBegin => exact kept_execScheduleEntryBegin h
  | pageIn => exact kept_execPageIn h
  | pageOut => exact kept_execPageOut h
  | relocation => exact kept_execRelocation h
  | curdGrant => exact kept_execCurdGrant h
  | nodeAccessPerformed => exact kept_execNodeAccessPerformed h
  | castingMove => exact kept_execCastingMove h
  | castingSlice => exact kept_execCastingSlice h
  | castingReturn => exact kept_execCastingReturn h
  | demandExpiry => exact kept_execDemandExpiry h
  | forcedPreemption => exact kept_execForcedPreemption h
  | rowFire => exact kept_execRowFire h
  | readoutPerform => exact kept_execReadoutPerform h
  | bindPerform => exact kept_execBindPerform h
  | tileLoadComplete => exact kept_execTileLoadComplete h
  | modeItemPerform => exact kept_execModeItemPerform h
  | scaleItemPerform => exact kept_execScaleItemPerform h
  | accItemPerform => exact kept_execAccItemPerform h
  | unpinItemPerform => exact kept_execUnpinItemPerform h
  | configTokenPerform => exact kept_execConfigTokenPerform h
  | appendPageCopyComplete => exact kept_execAppendPageCopyComplete h
  | demoteComplete => exact kept_execDemoteComplete h
  | promotionComplete => exact kept_execPromotionComplete h
  | commitPoint => exact kept_execCommitPoint h
  | dispatcherPoll => exact kept_execDispatcherPoll h
  | recordCheck => exact kept_execRecordCheck h
  | launchStart => exact kept_execLaunchStart h
  | steal => exact kept_execSteal h
  | watchdogExpiry => exact kept_execWatchdogExpiry h
  | correctedError => exact kept_execCorrectedError h
  | linkCrcRetry => exact kept_execLinkCrcRetry h
  | hostTailWrite => exact kept_execHostTailWrite h
  | hostMemoryWrite => exact kept_execHostMemoryWrite h
  | hostMemoryRead => exact kept_execHostMemoryRead h
  | hostWindowCompletion => exact kept_execHostWindowCompletion h
  | hostCompletionTimeout => exact kept_execHostCompletionTimeout h
  | registerWrite => exact kept_execRegisterWrite h
  | tinvWrite => exact kept_execTinvWrite h
  | tinvComplete => exact kept_execTinvComplete h
  | lqctlWrite => exact kept_execLqctlWrite h
  | errorCounterWrite => exact kept_execErrorCounterWrite h
  | podidWrite => exact kept_execPodidWrite h
  | podwinWrite => exact kept_execPodwinWrite h
  | killLaunch => exact kept_execKillLaunch h
  | haltCasting => exact kept_execHaltCasting h
  | releaseCasting => exact kept_execReleaseCasting h
  | haltThread => exact kept_execHaltThread h
  | releaseThread => exact kept_execReleaseThread h
  | watchdogLimit => exact kept_execWatchdogLimit h
  | readContextStore => exact kept_execReadContextStore h
  | identityPublicKey => exact kept_execIdentityPublicKey h
  | attestationReport => exact kept_execAttestationReport h
  | loadFirmware => exact kept_execLoadFirmware h
  | mailboxCommandEnd => exact kept_execMailboxCommandEnd h
  | moduleReset => exact kept_execModuleReset h
  | thermalWarning => exact kept_execThermalWarning h
  | thermalTrip => exact kept_execThermalTrip h
  | podRequest => exact kept_execPodRequest h
  | linkDown => exact kept_execLinkDown h
  | responseTimeout => exact kept_execResponseTimeout h
  | fenceNotice => exact kept_execFenceNotice h
  | podOpComplete => exact kept_execPodOpComplete h
  | combineResult => exact kept_execCombineResult h
  | combineFailureNotice => exact kept_execCombineFailureNotice h
  | portGoesDown => exact kept_execPortGoesDown h
  | promotionCopyBegin => exact kept_execPromotionCopyBegin h
  | castingConfigurationLoaded => exact kept_execCastingConfigurationLoaded h
  | hostAtomicopRequest => exact kept_execHostAtomicopRequest h
  | unknownMailboxCommand => exact kept_execUnknownMailboxCommand h

/-! ## A turn -/

theorem kept_runInstr {key t i} (h : MemoryForm s) : Kept (runInstr s key t i) := by
  unfold runInstr
  extract_lets c left z
  have hz : MemoryForm z := form_ite h (form_setThread.mpr h)
  clear_value z
  split
  · exact hz
  · have hx := kept_exec (i := i) (s := { z with core := key }) hz
    split
    next hu => exact form_noteAsked.mpr (hx.next hu)
    · exact hx

theorem kept_runThread {key} (h : MemoryForm s) : Kept (runThread s key) := by
  have hd : Kept (exec .faultDelivery { s with core := key }) := kept_exec h
  unfold runThread
  split
  · exact h
  · split
    · exact h
    · dsimp only
      split
      next e hx =>
        split
        · exact hd
        · exact form_settle h ((ends_nextInstr h).error hx)
      next hx =>
        split
        · exact hd
        · exact kept_runInstr ((ends_nextInstr h).ok hx)

theorem kept_runNode {n i} (h : MemoryForm s) : Kept (runNode s n i) := by
  have hx := kept_exec (i := i) (s := { s with node := n }) h
  unfold runNode
  split
  next hu => exact form_tryRetire (hx.next hu)
  · exact hx

theorem kept_turnNode {n} (h : MemoryForm s) : Kept (turnNode s n) := by
  unfold turnNode
  split
  · exact h
  · split
    · split
      · exact form_nodeStop (form_updNode.mpr h)
      · exact kept_runNode h
    · exact h

theorem kept_stepEvent {i} (h : MemoryForm s) : Kept (stepEvent s i) := by
  unfold stepEvent
  split
  · exact h
  · split
    · exact kept_atBanks h (kept_exec h)
    · exact kept_atBanks h (kept_exec h)
    · split
      next hu => exact form_tryRetire ((kept_exec h).next hu)
      · exact kept_exec h
    · exact kept_exec h

theorem kept_stepMove {m} (h : MemoryForm s) : Kept (stepMove s m) := by
  cases m with
  | thread key => exact kept_atBanks h (kept_runThread h)
  | node n => exact kept_atBanks h (kept_turnNode h)
  | event i => exact kept_stepEvent h
  | outside cells => exact form_outsideWrite h
  | outBar k b => exact h
  | eccError p => exact form_eccError.mpr h
  | hostRead bar off n => exact form_hostRead h
  | mailboxWrite off bytes => exact form_mailboxWrite h
  | pciSize n => exact form_setBar2.mpr h
  | pciPower d3hot => exact h
  | issueTimeout key => exact h
  | treeAnswer m => exact h
  | sensor t => exact form_senseHeat h
  | cacheFill asid va => exact form_cacheFill h
  | cacheDrop asid va => exact form_cacheDrop.mpr h

theorem kept_oneStep (h : MemoryForm s) : Kept (oneStep s) := by
  unfold oneStep
  split
  · exact form_beginCycle h
  · exact kept_stepMove h

/-- Settles O58: what each operation does to the four memories is said once, and a step is made of operations. -/
theorem stepKeepsMemoryForm : Obligations.StepKeepsMemoryForm := by
  unfold Obligations.StepKeepsMemoryForm
  intro s t h hs
  exact (kept_oneStep h).next hs

end Sys2Proof.Proofs.Form
end


section
/-! PROOFS. Publishing a page whose prefix entry lies over its pool's block (13/R317). -/

namespace Sys2Proof.Proofs.KeyValue

open Sys2Proof Sys2Proof.Machine

/-! ## A bucket that overlaps the pool block

Nothing keeps a program from a pool whose prefix table overlaps the pool's own block. `PUBLISH` writes the prefix entry in two
halves, and places the second by the `HTOFF` of the block *after* the first was written; here the first half is that `HTOFF`. -/

/-- The pool block (13 Table 13.1): PGOFF 4096, PDOFF 8192, HTOFF and SLOFF 0, one page of rows of 256 bytes, 16 buckets. -/
def overlappingBlock : Nat := 4096 + 8192 * 2 ^ 64 + (1 + 2 ^ 24 + 4 * 2 ^ 32) * 2 ^ 256 + 0xFFFFFF * 2 ^ 320

/-- The handle that the pool and its sequence lie in. -/
def overlappingHandle : Handle := ⟨true, 0, 0x1F, 0x40000, 65552⟩

/-- `g5` names the pool; `g8`-`g11` ask for PUBLISH of entry 0 of sequence 0 under tag 257. -/
def publishingThread : Thread :=
  { placedThread false with
    g := [(5, ⟨112, .full⟩), (8, ⟨4, .full⟩), (9, ⟨0x4000, .full⟩), (10, ⟨257, .full⟩), (11, ⟨0, .full⟩)]
    h := [(1, overlappingHandle)] }

/-- The sequence: one row, one page. -/
def publishingSeq : Seq := ⟨0, overlappingHandle, 112, 16384, 1, 1, 1, [], 0⟩

/-- The machine: the block at offset 112 of the handle, every descriptor and list entry zero. -/
def publishingState : State :=
  { State.reset.setThread 0 publishingThread with
    regs := { State.reset.regs with asidt := 1 }
    tlb := [⟨0, 0, 30, 0, 0, 0, true, true⟩]
    mem := memWrite State.reset.mem 65664 (natLe 128 overlappingBlock)
    seqs := [(0, ⟨1, some publishingSeq⟩)] }

/-- The pool, as the instruction names it. -/
def publishingPool : PoolRef := ⟨0, overlappingHandle, 112⟩

/-- The byte of the entry's second half that holds its valid bit, in what an instruction leaves. -/
def validByte : Answer → Option Byte
  | .next s => some (memGet s.mem (65552 + 147))
  | _ => none

/-- The instruction's operands, and every test that publishing makes. -/
theorem publishing_passes :
    Acts publishingState publishingThread ∧ Reads publishingThread ⟨5, true⟩ 112 ∧
    readGroup publishingThread 8 true 4 = .ok [4, 0x4000, 257, 0] ∧
    poolAt publishingState publishingThread overlappingHandle 112 false = .ok publishingPool ∧
    seqOn publishingState publishingThread publishingPool 0x4000 = .ok ⟨0, 1, publishingSeq⟩ ∧
    namedEntry publishingState ⟨0, 1, publishingSeq⟩ 0 = .ok 0 ∧
    checkedDesc publishingState publishingPool 0 = .ok (pageDesc publishingState publishingPool 0) ∧
    checkedBucket publishingState publishingPool (bucketOf publishingState publishingPool 257) = .ok () ∧
    pdPub (pageDesc publishingState publishingPool 0) = false ∧
    matchTag publishingState publishingPool 257 = none ∧
    firstFrom (fun k => !pfV (prefixHi publishingState publishingPool (bucketOf publishingState publishingPool 257) k)) 0 4 =
      some 0 := by
  simp only [Acts, Reads]; decide +kernel

/-- The model leaves the low byte of ROWB there: it put the second half elsewhere. -/
theorem validByte_execKvAddPublish : validByte (exec (.kvAddPublish 8 ⟨5, true⟩ 1 0) publishingState) = some 1 := by
  decide +kernel

/-- Refutes O34: in `publishingState` the entry that PUBLISH writes overlaps the pool's block, and its halves fall apart. -/
theorem not_keyValueInstructions : ¬ Obligations.KeyValueInstructions := by
  unfold Obligations.KeyValueInstructions
  intro h
  obtain ⟨acts, reads, group, pool, seq, entry, desc, bucket, unpublished, absent, free⟩ := publishing_passes
  have named := ((h.1 publishingState publishingThread 8 ⟨5, true⟩ 1 0 112 [4, 0x4000, 257, 0] publishingPool
    ⟨0, 1, publishingSeq⟩ acts reads group).2 pool).2.1 (by decide) seq
  have publish := (named.2.2.2.1 0 0 (by decide) entry (by decide) desc bucket unpublished (by decide) absent free).1
  have bytes := congrArg validByte publish
  rw [validByte_execKvAddPublish] at bytes
  -- The statement's second write sets the valid bit there: the byte is 0x20.
  revert bytes
  decide +kernel

end Sys2Proof.Proofs.KeyValue
end


section
/-! PROOFS. The draft window instructions (13/R321-R327). -/

namespace Sys2Proof.Proofs.Drafts

open Sys2Proof Sys2Proof.Machine Sys2Proof.Proofs.Running Sys2Proof.Proofs.RegisterFile Sys2Proof.Proofs.Registers
open Sys2Proof.Proofs.Channels

/-- An instruction whose body is known for its thread is that body. -/
theorem issue_body {s : State} {t : Thread} {rs : List Reg} {body : Nat → Thread → Except Exc State} {q : Except Exc State}
    (ha : Acts s t) (hn : namesOk t rs = .ok ()) (hb : body s.core t = q) : issue s rs body = issue s rs fun _ _ => q := by
  simp only [issue, issueWith, attempt_acts ha _ _ _ hn, hb]

section Instructions

variable {s z : State} {t : Thread} {d : Reg} {a : Src} {p : BitVec 3} {n : BitVec 4} {f : BitVec 3} {g : BitVec 4}
  {x v : Word} {r : SeqRef} {i : Nat} {w : Window}

/-! ## Opening -/

/-- The state in which `dw.open` has made window i of the sequence r. -/
def openedWindow (s : State) (r : SeqRef) (l : LaunchRef) (n i : Nat) : State :=
  updSeq { stopTaking s r.idx with
    wins := tabUpd (stopTaking s r.idx).wins i {} fun x => { x with live := some (newWindow s r l n) } } r.idx
    fun q => { q with nwin := q.nwin + 1 }

/-- Stopping windows changes neither memory. -/
theorem stopTaking_keeps (s : State) (q : Nat) : (stopTaking s q).mem = s.mem ∧ (stopTaking s q).sram = s.sram := by
  unfold stopTaking
  generalize (seqWindows s q).filter _ = l
  induction l generalizing s with
  | nil => exact ⟨rfl, rfl⟩
  | cons y l ih =>
    obtain ⟨hm, hs⟩ := ih (s.updWindow y.1 fun w => { w with nmax := w.napp })
    exact ⟨hm, hs⟩

theorem openedWindow_live (s : State) (r : SeqRef) (l : LaunchRef) (n i : Nat) :
    (tabGet (openedWindow s r l n i).wins i {}).live = some (newWindow s r l n) := by
  simp only [openedWindow, updSeq, tabUpd, tabGet_tabPut_self]

theorem execDwOpen_gives (ha : Acts s t) (hx : Reads t a x) (hd : Ready t d) (hi : bits x.toNat 63 32 = 0)
    (hr : seqNamed s t x.toNat = .ok r)
    (hf : firstFrom (fun i => (tabGet s.wins i {}).live.isNone) 0 4096 = some i) (hn : (seqWindows s r.idx).length < 16) :
    exec (.dwOpen d a p n) s = endsWith s t (openedWindow s r t.ref.l (n.toNat + 1) i)
      (writeP (writeR t d (BitVec.ofNat 64 (winId (openedWindow s r t.ref.l (n.toNat + 1) i) i))) p true) := by
  show execDwOpen d a p n s = _
  refine issue_acts_own ha _ _ (namesReady hx hd) ?_
  rw [hx.readSrc_eq, ok_bind, hd.destReady_eq, ok_bind, if_neg (by simpa using hi), hr, liftE_ok, ok_bind, hf]
  exact if_neg (by omega)

theorem execDwOpen_refuses (ha : Acts s t) (hx : Reads t a x) (hd : Ready t d) (hi : bits x.toNat 63 32 = 0)
    (hr : seqNamed s t x.toNat = .ok r) (hn : 16 ≤ (seqWindows s r.idx).length) :
    exec (.dwOpen d a p n) s = ends s t (writeP t p false) := by
  show execDwOpen d a p n s = _
  refine issue_acts_own ha _ _ (namesReady hx hd) ?_
  rw [hx.readSrc_eq, ok_bind, hd.destReady_eq, ok_bind, if_neg (by simpa using hi), hr, liftE_ok, ok_bind]
  cases firstFrom (fun i => (tabGet s.wins i {}).live.isNone) 0 4096 with
  | none => rfl
  | some i => exact if_pos hn

/-! ## Snapshots -/

theorem execDwSnap_ends (ha : Acts s t) (hx : Reads t a x) (ho : openNamed s t x = .ok (i, w)) (hv : Holds t d v)
    (hl : (seqWindows s w.seq).getLast?.map (·.1) = some i) (h1 : 1 ≤ v.toNat) (hn : v.toNat ≤ w.napp) :
    exec (.dwSnap d a p) s =
      (if (snapshotSlots s v.toNat w).length < w.regions.flatten.length then ends s t (writeP t p false)
       else if w.regions.flatten.any (badPiece s w) then traps s t ⟨cData, 0, none, 0⟩
       else endsWith s t (takeSnapshot s i v.toNat w (snapshotSlots s v.toNat w)) (writeP t p true)) := by
  obtain ⟨y, newest, hy⟩ := Option.map_eq_some_iff.1 hl
  have counted : ¬ (v.toNat < 1 ∨ w.napp < v.toNat) := by omega
  show execDwSnap d a p s = _
  refine (issue_body ha (names_of hx hv) (q := if (snapshotSlots s v.toNat w).length < w.regions.flatten.length then
      kvRefuse s s.core t p
    else if w.regions.flatten.any (badPiece s w) then trapWith cData 0
    else pure ((takeSnapshot s i v.toNat w (snapshotSlots s v.toNat w)).setThread s.core (writeP t p true))) ?_).trans ?_
  · rw [hx.readSrc_eq, ok_bind, hv.readField_eq, ok_bind, ho, liftE_ok, ok_bind]
    dsimp only
    rw [newest]
    simp only [hy, decide_true, Bool.not_true, Bool.false_eq_true, if_false, if_neg counted]
  · split
    · exact issue_acts_own ha _ _ (names_of hx hv) rfl
    · split
      · exact issue_traps ha _ _ _ (names_of hx hv) rfl
      · exact issue_acts_own ha _ _ (names_of hx hv) rfl

/-! ## Closing -/

/-- What closing window i to keep n positions leaves, where its release waits or not. -/
theorem issue_closing {rs : List Reg} (ha : Acts s t) (hn : namesOk t rs = .ok ()) (i n : Nat) (f : BitVec 3) (g : BitVec 4) :
    (issue s rs fun _ _ => .ok (closing s s.core t i n f g)) =
      (let waits := decide (f = 6) && g.getLsbD 3 && hostWrites t
       let z := s.updWindow i fun w => { w with st := .closing, keep := n, as := f, ss := g, waits := waits }
       if waits then ends z t (defer t (.window i (tabGet s.wins i {}).gen)) else endsIn s t z) := by
  refine (issue_acts ha _ _ hn rfl).trans ?_
  show endsIn s t (if releaseWaits t f g then _ else _) = if releaseWaits t f g then _ else _
  split
  · exact endsIn_setThread ..
  · rfl

theorem execDwCommit_refuses (ha : Acts s t) (hx : Reads t a x) (ho : openNamed s t x = .ok (i, w)) (hv : Holds t d v)
    (hn : w.napp < v.toNat) : exec (.dwCommit d a f g) s = traps s t ⟨cDraft, 2, none, 0⟩ := by
  show execDwCommit d a f g s = _
  refine issue_traps ha _ _ _ (names_of hx hv) ?_
  rw [hx.readSrc_eq, ok_bind, hv.readField_eq, ok_bind, closeWindow, ho]
  dsimp only
  rw [if_pos hn]
  rfl

theorem execDwCommit_closes (ha : Acts s t) (hx : Reads t a x) (ho : openNamed s t x = .ok (i, w)) (hv : Holds t d v)
    (hn : v.toNat ≤ w.napp) (hs : 1 ≤ v.toNat → w.regions = [] ∨ w.snaps.getLsbD (v.toNat - 1) = true) :
    exec (.dwCommit d a f g) s = issue s [d, a.reg] fun _ _ => .ok (closing s s.core t i v.toNat f g) := by
  have kept : ¬ (1 ≤ v.toNat ∧ w.regions ≠ [] ∧ (!w.snaps.getLsbD (v.toNat - 1)) = true) := by
    rintro ⟨h1, hr, hb⟩
    rcases hs h1 with h | h
    · exact hr h
    · simp [h] at hb
  show execDwCommit d a f g s = _
  refine issue_body ha (names_of hx hv) ?_
  rw [hx.readSrc_eq, ok_bind, hv.readField_eq, ok_bind, closeWindow, ho]
  dsimp only
  rw [if_neg (by omega), if_neg kept]
  rfl

theorem execDwAbort_closes (ha : Acts s t) (hx : Reads t a x) (ho : openNamed s t x = .ok (i, w)) :
    exec (.dwAbort a f g) s = issue s [a.reg] fun _ _ => .ok (closing s s.core t i 0 f g) := by
  show execDwAbort a f g s = _
  refine issue_body ha (namesOk_one (regLoc_of_reads hx)) ?_
  rw [hx.readSrc_eq, ok_bind, closeWindow, ho]
  dsimp only
  rw [if_neg (by omega), if_neg (by omega)]
  rfl

theorem execDwAbort_refuses (ha : Acts s t) (hx : Reads t a x) (hw : windowNamed s t.ref.l x = none) :
    exec (.dwAbort a f g) s = traps s t ⟨cDraft, 0, none, 0⟩ := by
  show execDwAbort a f g s = _
  refine issue_traps ha _ _ _ (namesOk_one (regLoc_of_reads hx)) ?_
  rw [hx.readSrc_eq, ok_bind, closeWindow, openNamed, hw]
  rfl

/-- A window whose release waits is not retired. -/
theorem execCommitPoint_waits {n : Nat} (hl : (tabGet s.wins n {}).live = some w) (hw : w.waits = true) :
    exec (.commitPoint n) s = .next s := by
  show execCommitPoint n s = _
  simp [execCommitPoint, hl, hw]

/-! ## The status -/

theorem execDwStat_none (ha : Acts s t) (hx : Reads t a x) (hd : Ready t d) (hw : windowNamed s t.ref.l x = none) :
    exec (.dwStat d a) s = ends s t (writeR t d 0) := by
  show execDwStat d a s = _
  refine issue_acts_own ha _ _ (namesReady hx hd) ?_
  rw [hx.readSrc_eq, ok_bind, hd.destReady_eq, ok_bind, hw]
  rfl

theorem execDwStat_some (ha : Acts s t) (hx : Reads t a x) (hd : Ready t d) (hw : windowNamed s t.ref.l x = some (i, w)) :
    exec (.dwStat d a) s = endsWith s t (if w.unretired then s else freeWindow s i) (writeR t d (winWord w)) := by
  show execDwStat d a s = _
  refine issue_acts_own ha _ _ (namesReady hx hd) ?_
  rw [hx.readSrc_eq, ok_bind, hd.destReady_eq, ok_bind, hw]
  rfl

end Instructions

/-- Settles O35: an opening, a snapshot, a closing and the status, each by the tests that it passes. -/
theorem draftInstructions : Obligations.DraftInstructions := by
  unfold Obligations.DraftInstructions
  intro s t d a p n f g x v r i w ha hx waits closes
  have closed {rs : List Reg} (hn : namesOk t rs = .ok ()) (n : Nat) :
      (issue s rs fun _ _ => .ok (closing s s.core t i n f g)) = closes n := issue_closing ha hn i n f g
  refine ⟨fun hd hi hr hf hn => ⟨_, _, execDwOpen_gives ha hx hd hi hr hf hn, openedWindow_live .., rfl, rfl, rfl, rfl, rfl,
      rfl, rfl, (stopTaking_keeps s r.idx).1, (stopTaking_keeps s r.idx).2⟩,
    fun hd hi hr hn => execDwOpen_refuses ha hx hd hi hr hn, fun ho => ⟨fun hv hl h1 hn => execDwSnap_ends ha hx ho hv hl h1 hn,
      fun hv hn => execDwCommit_refuses ha hx ho hv hn,
      fun hv hn hs => (execDwCommit_closes ha hx ho hv hn hs).trans (closed (names_of hx hv) _),
      (execDwAbort_closes ha hx ho).trans (closed (namesOk_one (regLoc_of_reads hx)) _)⟩,
    fun n e hl hw => execCommitPoint_waits hl hw,
    fun hd => ⟨fun hw => execDwStat_none ha hx hd hw, fun hw => execDwStat_some ha hx hd hw⟩,
    fun hw => execDwAbort_refuses ha hx hw⟩

end Sys2Proof.Proofs.Drafts
end


section
/-! PROOFS. The pod instructions (18/R416-R426). -/

namespace Sys2Proof.Proofs.Pods

open Sys2Proof Sys2Proof.Machine Sys2Proof.Proofs.Running Sys2Proof.Proofs.RegisterFile Sys2Proof.Proofs.Registers
open Sys2Proof.Proofs.Channels Sys2Proof.Proofs.Drafts Sys2Proof.Proofs.LoadsAndStores

/-! ## What reading leaves alone -/

/-- The threads, the pod operations, the values that wait for them, the launch queues and the cycle are the first state's in the
second. -/
structure SameActors (s u : State) : Prop where
  threads : u.threads = s.threads
  podOps  : u.podOps = s.podOps
  early   : u.early = s.early
  lqs     : u.lqs = s.lqs
  cycle   : u.cycle = s.cycle

namespace SameActors

variable {s u z : State}

theorem refl (s : State) : SameActors s s := ⟨rfl, rfl, rfl, rfl, rfl⟩

theorem trans (h : SameActors s u) (g : SameActors u z) : SameActors s z :=
  ⟨g.threads.trans h.threads, g.podOps.trans h.podOps, g.early.trans h.early, g.lqs.trans h.lqs, g.cycle.trans h.cycle⟩

theorem of_lines (h : SameButLines s u) : SameActors s u := by
  obtain ⟨d, v, rfl⟩ := h
  exact ⟨rfl, rfl, rfl, rfl, rfl⟩

theorem threadAt (h : SameActors s u) (k : Nat) : u.threadAt k = s.threadAt k := by
  simp only [State.threadAt, h.threads]

theorem noteWalk (s : State) (asid : BitVec 14) (va : Nat) : SameActors s (noteWalk s [] asid va) :=
  of_lines (Lines.SameReading.noteWalk s [] asid va).lines

theorem touchRing (s : State) (asid : BitVec 14) (h : Handle) (off : Int) (pa : Nat) :
    SameActors s (touchRing s asid h off pa) :=
  (noteWalk s asid _).trans (of_lines (touch_lines _ pa 64))

theorem putPlain (s : State) (pa : Nat) (b : List Byte) : SameActors s (putPlain s pa b) :=
  trans (u := { s with mem := memWriteMask s.mem pa (maskTails (tailAddrs s) pa (b.map fun x => (x, true))) }) ⟨rfl, rfl, rfl, rfl, rfl⟩
    (of_lines (putMasked_lines s pa _))

theorem touchPage (s : State) (c k : Nat) : SameActors s (touchPage s c k) :=
  (of_lines (touch_lines s _ _)).trans ⟨rfl, rfl, rfl, rfl, rfl⟩

theorem accRead {ag : Agent} {t : Target} {n : Nat} {ea : Word} {g : Got} (h : accRead s ag t n ea = .ok g) :
    SameActors s g.st := by
  cases t with
  | dev pa =>
    simp only [Machine.accRead] at h
    split at h <;> cases h
    · exact refl s
    · exact of_lines (Lines.SameReading.touchAgent s ag pa n).lines
  | host x => cases h; exact refl s
  | peer m pa =>
    simp only [Machine.accRead] at h
    repeat' split at h
    all_goals cases h
    all_goals exact refl s
  | regs off =>
    simp only [Machine.accRead] at h
    split at h <;> cases h
    exact refl s
  | scratch k o =>
    simp only [Machine.accRead] at h
    split at h
    · cases h
    · split at h <;> cases h <;> exact (touchPage s ag.cl k).trans ⟨rfl, rfl, rfl, rfl, rfl⟩

theorem readAt {ag : Agent} {va n : Nat} {g : Got} (h : readAt s ag va n = .ok g) : SameActors s g.st := by
  simp only [Machine.readAt, place] at h
  cases ht : translate s ag.asid va .load with
  | error e => rw [ht] at h; cases h
  | ok t => rw [ht] at h; exact (noteWalk s _ _).trans (accRead h)

theorem readPieces {ag : Agent} {l : List (Nat × Nat)} {b : List Byte} (h : readPieces s ag l = .ok (b, u)) :
    SameActors s u := by
  induction l generalizing s b with
  | nil => cases h; exact refl _
  | cons x r ih =>
    simp only [Machine.readPieces] at h
    cases hg : Machine.readAt s ag x.1 x.2 with
    | error e => simp only [hg] at h; cases h
    | ok g =>
      simp only [hg] at h
      split at h
      · cases h
      · cases hr : Machine.readPieces g.st ag r with
        | error e => simp only [hr] at h; cases h
        | ok q =>
          simp only [hr] at h
          cases h
          exact (readAt hg).trans (ih hr)

/-- One read traps with nothing kept. -/
theorem readAt_trap {ag : Agent} {va n : Nat} {e : Exn} {keep : Option State}
    (h : Machine.readAt s ag va n = .error (.trap e keep)) : keep = none := by
  simp only [Machine.readAt, place] at h
  cases ht : translate s ag.asid va .load with
  | error e => rw [ht] at h; cases h; rfl
  | ok t =>
    rw [ht] at h
    cases t with
    | dev pa => simp only [Machine.accRead] at h; split at h <;> cases h
    | host x => cases h
    | peer m pa =>
      simp only [Machine.accRead] at h
      repeat' split at h
      all_goals cases h
      rfl
    | regs off => simp only [Machine.accRead] at h; split at h <;> cases h; rfl
    | scratch k o =>
      simp only [Machine.accRead, resolveFor] at h
      generalize resolvePage _ _ _ _ _ = q at h
      cases q with
      | frame f => dsimp only at h; split at h <;> cases h
      | paged => cases h
      | moving => cases h
      | fault sub => cases h; rfl

theorem issueErr_trap {ag : Agent} {err : Option Nat} {wait : Option Await} {va : Nat} {e : Exn} {keep : Option State}
    (h : issueErr s ag err wait va = .error (.trap e keep)) : ∀ z ∈ keep, SameActors s z := by
  cases err with
  | some c =>
    simp only [issueErr] at h
    split at h <;> cases h
    simp
  | none =>
    simp only [issueErr, hostAnswers] at h
    split at h
    · split at h <;> cases h
      intro z hz
      cases hz
      exact ⟨rfl, rfl, rfl, rfl, rfl⟩
    · cases h

/-- A reading that traps keeps, at most, the state that has noted the answer that did not come. -/
theorem readPieces_trap {ag : Agent} {l : List (Nat × Nat)} {e : Exn} {keep : Option State}
    (h : Machine.readPieces s ag l = .error (.trap e keep)) : ∀ z ∈ keep, SameActors s z := by
  induction l generalizing s with
  | nil => cases h
  | cons x r ih =>
    simp only [Machine.readPieces] at h
    cases hg : Machine.readAt s ag x.1 x.2 with
    | error c =>
      simp only [hg] at h
      cases h
      cases readAt_trap hg
      simp
    | ok g =>
      simp only [hg] at h
      cases hi : issueErr s ag g.err g.wait x.1 with
      | error c =>
        simp only [hi] at h
        cases h
        exact issueErr_trap hi
      | ok y =>
        simp only [hi] at h
        cases hr : Machine.readPieces g.st ag r with
        | error c =>
          simp only [hr] at h
          cases h
          exact fun z hz => (readAt hg).trans (ih hr z hz)
        | ok q => simp only [hr] at h; cases h

/-- Reading the source of a pod operation. -/
theorem podSource {ag : Agent} {va n : Nat} {b : List Byte} (h : podSource s ag va n = .ok (b, u)) : SameActors s u := by
  simp only [Machine.podSource, readIssue] at h
  split at h
  · next e keep hk =>
    split at h
    · cases h
      cases keep with
      | none => exact refl _
      | some z => exact readPieces_trap hk z rfl
    · cases h
  · exact readPieces h

theorem sendTo (s : State) (x : HeldMsg) : SameActors s (sendTo s x) := by
  simp only [Machine.sendTo]
  split <;> exact ⟨rfl, rfl, rfl, rfl, rfl⟩

theorem foldl {α : Type} {f : State → α → State} (hf : ∀ s x, SameActors s (f s x)) (l : List α) (s : State) :
    SameActors s (l.foldl f s) := by
  induction l generalizing s with
  | nil => exact refl s
  | cons x r ih => exact (hf s x).trans (ih _)

theorem sendEach (s : State) (ms : List Nat) (y : Nat) (b : PodBody) : SameActors s (sendEach s ms y b) :=
  foldl (fun s m => sendTo s ⟨m, y, b⟩) _ s

theorem ringComplete (s : State) (pa slot : Nat) (err : Bool) : SameActors s (ringComplete s pa slot err) := putPlain s pa _

end SameActors

/-! ## The operation that is issued -/

section Issue

variable {s z u z1 s1 s2 : State} {t : Thread} {d : Reg} {a : Src} {h : BitVec 4} {p : BitVec 3} {op : Option (BitVec 3)}
  {x v : Word} {va sva pa w : Nat} {b data : List Byte} {y : PodOp}

/-- The operation of a descriptor w over a set, in the slot of its ring, with the bytes of its source. -/
def issuedOp (s : State) (t : Thread) (key : Nat) (hk : Handle) (op : Option (BitVec 3)) (set : Word) (w slot : Nat)
    (data : List Byte) : PodOp :=
  PodOp.atLeaf {
    id := s.podNext, owner := t.ref, key := key, nth := tabGet s.combs set.toNat 0, asid := t.asid, hr := hk
    roff := BitVec.ofNat 64 (pdRing w), slot := BitVec.ofNat 32 slot, op := op, set := set, dst := BitVec.ofNat 64 (pdDst w)
    flag := BitVec.ofNat 64 (pdFlag w), tag := BitVec.ofNat 16 (pdTag w), data := data
    err := data.isEmpty || (podMembers set).any fun m => !reaches s m
    port := combinePortOf s set (BitVec.ofNat 16 (pdTag w)), since := s.cycle }

/-- The operation held, and its slot reserved. -/
def heldOp (s : State) (x : PodOp) (pa ring : Nat) : State :=
  ringSet { s with
    podOps := s.podOps ++ [x], podNext := s.podNext + 1
    combs := if x.op.isSome then tabPut s.combs x.set.toNat (tabGet s.combs x.set.toNat 0 + 1) else s.combs } pa
    (ringReserve ring).2

/-- The tests of 18/R416 and R417 that an `xmcast` or an `xcomb` of thread t passes: its descriptor b is read at va, its source is
at sva, and its ring at pa. -/
structure Passes (s : State) (t : Thread) (d : Reg) (a : Src) (h : BitVec 4) (op : Option (BitVec 3)) (x v : Word) (va sva pa : Nat)
    (b : List Byte) (s1 : State) : Prop where
  acts    : Acts s t
  reads   : Reads t a x
  holds   : Holds t d v
  handle  : checkHandle (readH t h) x.toInt 64 rRX t.asid = .ok va
  aligned : va % 64 = 0
  read    : readIssue s (threadAgent s.core t) va 64 = .ok (b, s1)
  set     : ∃ ms, podSet v.toNat = some ms ∧ (op.isSome → s.member ∈ ms)
  desc    : podDescBad (leNat b) op = false
  source  : checkHandle (readH t h) (BitVec.ofNat 64 (pdSrc (leNat b))).toInt (pdLen (leNat b)) rR t.asid = .ok sva
  ring    : podRing s1 t (readH t h) (pdRing (leNat b)) = .ok (pa, ringGet s1 pa)

/-- The ring has no free slot, or the thread holds 16 operations. -/
abbrev RingFull (s1 : State) (t : Thread) (pa : Nat) : Prop :=
  sub32 (rgIp (ringGet s1 pa)) (rgRp (ringGet s1 pa)) = rgN (ringGet s1 pa) ∨
    16 ≤ (s1.podOps.filter fun x => x.owner = t.ref).length

/-- The state in which the ring's line has been read. -/
def ringRead (s1 : State) (t : Thread) (h : BitVec 4) (b : List Byte) (pa : Nat) : State :=
  touchRing s1 t.asid (readH t h) (BitVec.ofNat 64 (pdRing (leNat b))).toInt pa

theorem ringRead_podOps (s1 : State) (t : Thread) (h : BitVec 4) (b : List Byte) (pa : Nat) :
    (ringRead s1 t h b pa).podOps = s1.podOps := (SameActors.touchRing ..).podOps

/-- Past its tests, an instruction reserves its slot, is refused, or waits. -/
theorem issuePod_passes (hp : Passes s t d a h op x v va sva pa b s1) :
    issuePod d a h p op s = issue s [d, a.reg] fun _ _ =>
      if RingFull s1 t pa then .ok ((ringRead s1 t h b pa).setThread s.core (writeP t p false))
      else if combineWaits (ringRead s1 t h b pa) op v (BitVec.ofNat 16 (pdTag (leNat b))) then stallNow
      else (podSource (ringRead s1 t h b pa) (threadAgent s.core t) sva (pdLen (leNat b))).bind fun q =>
        let y := issuedOp q.2 t s.core (readH t h) op v (leNat b) (rgIp (ringGet s1 pa)) q.1
        .ok ((podStart (heldOp q.2 y pa (ringGet s1 pa)) y).updThread s.core fun t => writeP t p true) := by
  obtain ⟨ms, hms, hin⟩ := hp.set
  have member : (op.isSome && !ms.contains s.member) = false := by
    cases op with
    | none => rfl
    | some o => simpa using hin rfl
  refine issue_body hp.acts (names_of hp.reads hp.holds) ?_
  rw [hp.reads.readSrc_eq, ok_bind, hp.holds.readField_eq, ok_bind]
  dsimp only
  rw [hp.handle, liftE_ok, ok_bind, if_neg (by simp [hp.aligned]), hp.read, ok_bind]
  dsimp only
  rw [hms]
  dsimp only
  rw [if_neg (by rw [member, hp.desc]; simp), hp.source, liftE_ok, ok_bind, hp.ring, liftE_ok, ok_bind]
  simp only [RingFull, ← ringRead_podOps s1 t h b pa]
  rfl

/-! ## The tree of a combine (18/R424) -/

/-- The levels that are run change an operation's level, value, flags and result alone. -/
theorem treeRun_op (early : List EarlyPart) (ms : List Nat) (i n : Nat) (x : PodOp) : ∃ l v f o r,
    (treeRun early ms i n x).op = { x with level := l, val := v, fl := f, out := o, res := r } := by
  induction n generalizing x with
  | zero => exact ⟨_, _, _, _, _, rfl⟩
  | succ n ih =>
    simp only [treeRun]
    split
    · exact ⟨_, _, _, _, _, rfl⟩
    split
    · exact ⟨_, _, _, _, _, rfl⟩
    split
    · exact ⟨_, _, _, _, _, rfl⟩
    split
    · exact ih _
    split
    · exact ⟨_, _, _, _, _, rfl⟩
    split
    · exact ⟨_, _, _, _, _, rfl⟩
    · exact ih _

/-- The values that wait for an operation's set are of its operator, tag and length. -/
def EarlyAgree (early : List EarlyPart) (x : PodOp) : Prop :=
  ∀ e ∈ early, e.set = x.set → e.op = x.part.op ∧ e.tag = x.tag ∧ e.words.length = x.part.words.length

/-- Where the waiting values agree, no level finds a disagreement. -/
theorem treeRun_agrees {early : List EarlyPart} (ms : List Nat) (i n : Nat) (x : PodOp) (he : EarlyAgree early x) :
    (treeRun early ms i n x).bad = false := by
  induction n generalizing x with
  | zero => rfl
  | succ n ih =>
    simp only [treeRun]
    split
    · rfl
    split
    · rfl
    split
    · rfl
    split
    · exact ih _ he
    split
    · rfl
    · next e hf =>
      have found := List.find?_some hf
      obtain ⟨ho, ht, hw⟩ := he e (List.mem_of_find?_eq_some hf) (by simp only [decide_eq_true_eq] at found; exact found.1)
      have agreed : agrees x ⟨e.nth, e.op, e.tag, e.words⟩ = true := by simp [agrees, ho, ht, hw]
      rw [agreed]
      exact ih _ he

/-! ## Where an accepted operation stands -/

theorem heldOp_actors (s : State) (x : PodOp) (pa ring : Nat) :
    (heldOp s x pa ring).threads = s.threads ∧ (heldOp s x pa ring).podOps = s.podOps ++ [x] ∧
    (heldOp s x pa ring).early = s.early := by
  obtain ⟨ht, hp, he, -, -⟩ := SameActors.putPlain { s with
    podOps := s.podOps ++ [x], podNext := s.podNext + 1
    combs := if x.op.isSome then tabPut s.combs x.set.toNat (tabGet s.combs x.set.toNat 0 + 1) else s.combs } pa
    (natLe 64 (ringReserve ring).2)
  exact ⟨ht, hp, he⟩

/-- The states in which y is the last operation held, as far as its combine has gone. -/
def Holding (s : State) (l : List PodOp) (y : PodOp) (z : State) : Prop :=
  z.threads = s.threads ∧ z.podOps.length = l.length + 1 ∧
    ∃ lv v f o r, z.podOps.getLast? = some { y with level := lv, val := v, fl := f, out := o, res := r }

theorem holding_of_sameActors {l : List PodOp} (h : Holding s l y z) (hu : SameActors z u) : Holding s l y u := by
  simpa only [Holding, hu.threads, hu.podOps] using h

theorem holding_last {l : List PodOp} (ht : z.threads = s.threads) (hp : z.podOps = l ++ [y]) : Holding s l y z :=
  ⟨ht, by simp [hp], y.level, y.val, y.fl, y.out, y.res, by simp [hp]⟩

/-- A combine that does not fail goes on, and stays the last operation held. -/
theorem treeAdvance_holding {l : List PodOp} (hp : s.podOps = l ++ [y]) (he : y.err = false) (ha : EarlyAgree s.early y) :
    Holding s l y (treeAdvance s y) := by
  let ms := podMembers y.set
  let i := ms.idxOf s.member
  have agreed := treeRun_agrees ms i 12 y ha
  have run : Holding s l y { s with podOps := s.podOps.map fun q => if q.id = y.id then (treeRun s.early ms i 12 y).op else q } := by
    obtain ⟨lv, v, f, o, r, hop⟩ := treeRun_op s.early ms i 12 y
    exact ⟨rfl, by simp [hp], lv, v, f, o, r, by simp [hp, hop]⟩
  simp only [treeAdvance]
  rw [if_neg (by simp [he, agreed, ms, i])]
  split
  · exact holding_of_sameActors run (SameActors.sendEach ..)
  · exact run

theorem podStart_holding {l : List PodOp} (hp : s.podOps = l ++ [y]) (h : y.op.isSome → y.err = false ∧ EarlyAgree s.early y) :
    Holding s l y (podStart s y) := by
  simp only [podStart]
  split
  · exact holding_last rfl hp
  · next hn =>
    obtain ⟨he, ha⟩ := h (by cases hy : y.op <;> simp_all)
    rw [if_neg (by simp [he])]
    split
    · exact holding_last rfl hp
    · exact treeAdvance_holding hp he ha

/-! ## A combine that fails at once (18/R415, R422) -/

theorem threadAt_updThread_isSome {k : Nat} (f : Thread → Thread) (j : Nat) (hs : (s.threadAt j).isSome) :
    ((s.updThread k f).threadAt j).isSome := by
  simp only [State.updThread]
  split
  · by_cases hj : j = k
    · subst hj; simp [threadAt_setThread]
    · rwa [threadAt_setThread_ne _ _ _ _ hj]
  · exact hs

/-- A change of a thread that is named leaves every core that has a thread with one, and the pod operations. -/
theorem updByRef_keeps (r : ThreadRef) (f : Thread → Thread) {j : Nat} (hs : (s.threadAt j).isSome) :
    ((updByRef s r f).threadAt j).isSome ∧ (updByRef s r f).podOps = s.podOps := by
  simp only [updByRef]
  split
  · refine ⟨threadAt_updThread_isSome f j hs, ?_⟩
    simp only [State.updThread]
    split <;> rfl
  · split
    · split <;> exact ⟨hs, rfl⟩
    · exact ⟨hs, rfl⟩

theorem sendFault_keeps (r : ThreadRef) (src : Nat) (e : Exn) (who : Word) {j : Nat} (hs : (s.threadAt j).isSome) :
    ((sendFault s r src e who none).threadAt j).isSome ∧ (sendFault s r src e who none).podOps = s.podOps := by
  have noted : (recordOf s src e who).2.threads = s.threads ∧ (recordOf s src e who).2.podOps = s.podOps := by
    simp only [recordOf]
    split <;> exact ⟨rfl, rfl⟩
  obtain ⟨ht, hp⟩ := noted
  have here : ((recordOf s src e who).2.threadAt j).isSome := by simpa only [State.threadAt, ht] using hs
  simp only [sendFault]
  split
  · split
    · exact ⟨(updByRef_keeps _ _ here).1, (updByRef_keeps _ _ here).2.trans hp⟩
    · exact ⟨here, hp⟩
  · exact ⟨here, hp⟩

theorem looseComplete_keeps (asid : BitVec 14) (hk : Handle) (off : Word) (slot : Nat) (err : Bool) (owner : ThreadRef) (who : Word)
    {j : Nat} (hs : (s.threadAt j).isSome) :
    ((looseComplete s asid hk off slot err owner who).threadAt j).isSome ∧
      (looseComplete s asid hk off slot err owner who).podOps = s.podOps := by
  simp only [looseComplete]
  split
  · split
    · obtain ⟨ht, hp, -, -, -⟩ := (SameActors.touchRing s asid hk off.toInt _).trans (SameActors.ringComplete _ _ slot err)
      exact ⟨by simpa only [State.threadAt, ht] using hs, hp⟩
    · exact sendFault_keeps _ _ _ _ hs
  · exact sendFault_keeps _ _ _ _ hs

/-- A pod operation that fails is held no longer. -/
theorem podFail_keeps (y : PodOp) {j : Nat} (hs : (s.threadAt j).isSome) :
    ((podFail s y).threadAt j).isSome ∧ ∀ q ∈ (podFail s y).podOps, q.id ≠ y.id := by
  have told (z : State) (hz : (z.threadAt j).isSome) :
      ((podFinish z y true).threadAt j).isSome ∧ ∀ q ∈ (podFinish z y true).podOps, q.id ≠ y.id := by
    obtain ⟨hj, hp⟩ := looseComplete_keeps (s := { z with
      podOps := z.podOps.filter fun q => q.id ≠ y.id
      early := z.early.filter fun e => y.op.isNone || e.set ≠ y.set || e.nth ≠ y.nth }) y.asid y.hr y.roff y.slot.toNat true
      y.owner 0 hz
    refine ⟨hj, fun q hq => ?_⟩
    have held := hp ▸ hq
    simpa using (List.mem_filter.1 held).2
  simp only [podFail]
  split
  · exact told _ hs
  · exact told _ (by simpa only [State.threadAt, (SameActors.sendEach s _ 0 _).threads] using hs)

/-! ## The four endings of a pod operation's instruction -/

/-- What an instruction that holds an operation leaves: all but its thread as the operation's start leaves it. -/
theorem endsIn_updThread (h : z.threadAt s.core = some t) (f : Thread → Thread) :
    endsIn s t (z.updThread s.core f) = endsWith s t z (f t) := by
  rw [updThread_eq h]
  exact endsIn_eq ..

theorem issuePod_refused (hp : Passes s t d a h op x v va sva pa b s1) (hf : RingFull s1 t pa) :
    issuePod d a h p op s = endsWith s t (ringRead s1 t h b pa) (writeP t p false) :=
  (issuePod_passes hp).trans (issue_acts_own hp.acts _ _ (names_of hp.reads hp.holds) (if_pos hf))

theorem issuePod_waits (hp : Passes s t d a h op x v va sva pa b s1) (hf : ¬ RingFull s1 t pa)
    (hw : combineWaits (ringRead s1 t h b pa) op v (BitVec.ofNat 16 (pdTag (leNat b))) = true) :
    issuePod d a h p op s = .next s :=
  (issuePod_passes hp).trans (issue_waits hp.acts (names_of hp.reads hp.holds) ((if_neg hf).trans (if_pos hw)))

/-- The operation of an instruction that passes. -/
def opOf (s s1 s2 : State) (t : Thread) (h : BitVec 4) (op : Option (BitVec 3)) (v : Word) (b data : List Byte) (pa : Nat) : PodOp :=
  issuedOp s2 t s.core (readH t h) op v (leNat b) (rgIp (ringGet s1 pa)) data

/-- The state in which the operation has started. -/
def started (s s1 s2 : State) (t : Thread) (h : BitVec 4) (op : Option (BitVec 3)) (v : Word) (b data : List Byte) (pa : Nat) : State :=
  podStart (heldOp s2 (opOf s s1 s2 t h op v b data pa) pa (ringGet s1 pa)) (opOf s s1 s2 t h op v b data pa)

theorem issuePod_starts (hp : Passes s t d a h op x v va sva pa b s1) (hf : ¬ RingFull s1 t pa)
    (hw : combineWaits (ringRead s1 t h b pa) op v (BitVec.ofNat 16 (pdTag (leNat b))) = false)
    (hs : podSource (ringRead s1 t h b pa) (threadAgent s.core t) sva (pdLen (leNat b)) = .ok (data, s2)) :
    issuePod d a h p op s =
      endsIn s t ((started s s1 s2 t h op v b data pa).updThread s.core fun t => writeP t p true) := by
  refine (issuePod_passes hp).trans (issue_acts hp.acts _ _ (names_of hp.reads hp.holds) ((if_neg hf).trans ?_))
  rw [if_neg (by simp [hw]), hs]
  rfl

/-- Every reading of the instruction leaves the threads alone. -/
theorem read_threads (hp : Passes s t d a h op x v va sva pa b s1)
    (hs : podSource (ringRead s1 t h b pa) (threadAgent s.core t) sva (pdLen (leNat b)) = .ok (data, s2)) :
    s2.threads = s.threads :=
  ((SameActors.readPieces hp.read).trans ((SameActors.touchRing ..).trans (SameActors.podSource hs))).threads

/-- The values that wait for the set of an operation agree with it, in the words of 18/R422. -/
theorem earlyAgree_opOf {early : List EarlyPart} (he : ∀ q ∈ early, q.set = v → some q.op = op ∧
      q.tag = BitVec.ofNat 16 (pdTag (leNat b)) ∧ q.words.length = (chunks 4 data.length data).length) :
    EarlyAgree early (opOf s s1 s2 t h op v b data pa) := by
  intro q hq hset
  obtain ⟨ho, ht, hw⟩ := he q hq hset
  subst ho
  exact ⟨rfl, ht, by rw [hw]; simp [opOf, issuedOp, PodOp.atLeaf, PodOp.part]⟩

/-- An accepted operation is held, in the slot that its ring gave. -/
theorem issuePod_accepted (hp : Passes s t d a h op x v va sva pa b s1) (hf : ¬ RingFull s1 t pa)
    (hw : combineWaits (ringRead s1 t h b pa) op v (BitVec.ofNat 16 (pdTag (leNat b))) = false)
    (hs : podSource (ringRead s1 t h b pa) (threadAgent s.core t) sva (pdLen (leNat b)) = .ok (data, s2))
    (hc : op.isSome → data ≠ [] ∧ (∀ m ∈ podMembers v, reaches s2 m = true) ∧ ∀ q ∈ s2.early, q.set = v → some q.op = op ∧
      q.tag = BitVec.ofNat 16 (pdTag (leNat b)) ∧ q.words.length = (chunks 4 data.length data).length) :
    ∃ z y, issuePod d a h p op s = endsWith s t z (writeP t p true) ∧ z.podOps.length = s2.podOps.length + 1 ∧
      z.podOps.getLast? = some y ∧ y.op = op ∧ y.data = data ∧ y.set = v ∧ y.tag = BitVec.ofNat 16 (pdTag (leNat b)) ∧
      y.slot = BitVec.ofNat 32 (rgIp (ringGet s1 pa)) ∧ y.dst = BitVec.ofNat 64 (pdDst (leNat b)) ∧ y.owner = t.ref := by
  obtain ⟨ht, hops, hearly⟩ := heldOp_actors s2 (opOf s s1 s2 t h op v b data pa) pa (ringGet s1 pa)
  obtain ⟨hthreads, hlen, lv, w, f, o, r, hlast⟩ := podStart_holding hops fun hi => by
    obtain ⟨hd, hm, he⟩ := hc hi
    exact ⟨by simpa [opOf, issuedOp, PodOp.atLeaf, hd] using hm, hearly ▸ earlyAgree_opOf he⟩
  have here : (started s s1 s2 t h op v b data pa).threadAt s.core = some t := by
    rw [← hp.acts.1]
    simp only [State.threadAt, started, hthreads, ht, read_threads hp hs]
  exact ⟨_, _, (issuePod_starts hp hf hw hs).trans (endsIn_updThread here _), hlen, hlast, rfl, rfl, rfl, rfl, rfl, rfl, rfl⟩

/-- A combine that fails is accepted, and completes at once. -/
theorem issuePod_failed (hp : Passes s t d a h op x v va sva pa b s1) (hf : ¬ RingFull s1 t pa)
    (hw : combineWaits (ringRead s1 t h b pa) op v (BitVec.ofNat 16 (pdTag (leNat b))) = false)
    (hs : podSource (ringRead s1 t h b pa) (threadAgent s.core t) sva (pdLen (leNat b)) = .ok (data, s2))
    (ho : op.isSome) (hl : data = [] ∨ ∃ m ∈ podMembers v, reaches s2 m = false) :
    ∃ z u, issuePod d a h p op s = .next z ∧ z.threadAt s.core = some u ∧ (p ≠ 0 → readP u p = true) ∧
      ∀ y ∈ z.podOps, y.id ≠ s2.podNext := by
  obtain ⟨ht, -, -⟩ := heldOp_actors s2 (opOf s s1 s2 t h op v b data pa) pa (ringGet s1 pa)
  have failing : (opOf s s1 s2 t h op v b data pa).err = true := by
    show (data.isEmpty || (podMembers v).any fun m => !reaches s2 m) = true
    simpa using hl
  have fails : started s s1 s2 t h op v b data pa =
      podFail (heldOp s2 (opOf s s1 s2 t h op v b data pa) pa (ringGet s1 pa)) (opOf s s1 s2 t h op v b data pa) := by
    have combines : (opOf s s1 s2 t h op v b data pa).op.isNone = false := by
      show op.isNone = false
      cases op <;> simp_all
    simp only [started, podStart, combines, failing, if_true, Bool.false_eq_true, if_false]
  have held : ((heldOp s2 (opOf s s1 s2 t h op v b data pa) pa (ringGet s1 pa)).threadAt s.core).isSome := by
    have := hp.acts.1
    simp only [State.threadAt] at this ⊢
    rw [ht, read_threads hp hs, this]
    rfl
  obtain ⟨hsome, hgone⟩ := podFail_keeps (opOf s s1 s2 t h op v b data pa) held
  rw [← fails] at hsome hgone
  obtain ⟨q, hq⟩ := Option.isSome_iff_exists.1 hsome
  refine ⟨_, _, (issuePod_starts hp hf hw hs).trans ?_, threadAt_setThread _ s.core (endTest (writeP q p true) t.pc), fun h0 => ?_,
    hgone⟩
  · rw [updThread_eq hq]
    exact endsIn_setThread ..
  · show readP (writeP q p true) p = true
    rw [readP_writeP q h0]
    simp

end Issue

/-! ## Barriers of the pod (18/R425) -/

section Barriers

variable {s : State} {t : Thread} {d : Reg} {a : Src} {f : BitVec 3} {g : BitVec 4} {x v : Word}

/-- The arrival that an `xbar` makes. -/
def arrivalOf (t : Thread) (x v : Word) : Arrival := ⟨bits v.toNat 9 0, bits v.toNat 17 10, x.toNat, t.asid⟩

theorem execXbar_ends (ha : Acts s t) (hx : Reads t a x) (hv : Holds t d v) (h0 : bits v.toNat 63 18 = 0) (hn : x.toNat ≤ 65535)
    (hr : HasRoom t) {z : State} {u : Thread}
    (hb : (if releaseWaits t f g || !t.rels.isEmpty || homeBusy s (arrivalOf t x v) then
        s.setThread s.core (holdXbar t d (arrivalOf t x v) (releaseWaits t f g))
      else
        let q := askHome s (arrivalOf t x v)
        q.st.setThread s.core (produce t [d] [q.word] q.wait q.err 0 d none [] false q.onLoss q.arrive)) = z.setThread s.core u) :
    exec (.xbar d a f g) s = endsWith s t z u := by
  show execXbar d a f g s = _
  refine issue_acts_own ha _ _ (names_of hx hv) ?_
  rw [hx.readSrc_eq, ok_bind, hv.readField_eq, ok_bind, if_neg (by omega), producerSlot_of_room hr, ok_bind, ← hb]
  exact (apply_ite Except.ok _ _ _).symm

theorem execXbar_held (ha : Acts s t) (hx : Reads t a x) (hv : Holds t d v) (h0 : bits v.toNat 63 18 = 0) (hn : x.toNat ≤ 65535)
    (hr : HasRoom t) (hw : releaseWaits t f g = true ∨ t.rels ≠ [] ∨ homeBusy s (arrivalOf t x v) = true) :
    exec (.xbar d a f g) s = ends s t (holdXbar t d (arrivalOf t x v) (releaseWaits t f g)) :=
  execXbar_ends ha hx hv h0 hn hr (if_pos (by simpa [or_assoc] using hw))

theorem execXbar_asks (ha : Acts s t) (hx : Reads t a x) (hv : Holds t d v) (h0 : bits v.toNat 63 18 = 0) (hn : x.toNat ≤ 65535)
    (hr : HasRoom t) (hw : ¬ (releaseWaits t f g = true ∨ t.rels ≠ [])) (hh : homeBusy s (arrivalOf t x v) = false)
    {q : Request} (hq : askHome s (arrivalOf t x v) = q) :
    exec (.xbar d a f g) s =
      endsWith s t q.st (produce t [d] [q.word] q.wait q.err 0 d none [] false q.onLoss q.arrive) := by
  subst hq
  refine execXbar_ends ha hx hv h0 hn hr (if_neg ?_)
  simpa [or_assoc, hh] using hw

end Barriers

/-- Settles O36: an operation of the pod is refused, waits, is held or fails at once; a barrier's request is held or asked. -/
theorem podInstructions : Obligations.PodInstructions := by
  unfold Obligations.PodInstructions
  intro s s1 s2 t d a h p o f g x v va sva pa b data ha
  have operation (op : Option (BitVec 3)) (i : Instr) (hi : exec i s = issuePod d a h p op s) (hp : Passes s t d a h op x v va sva pa b s1) :
      let full := RingFull s1 t pa
      let z1 := ringRead s1 t h b pa
      let tag := BitVec.ofNat 16 (pdTag (leNat b))
      (full → exec i s = endsWith s t z1 (writeP t p false)) ∧
      (¬ full → combineWaits z1 op v tag = true → exec i s = .next s) ∧
      (¬ full → combineWaits z1 op v tag = false → podSource z1 (threadAgent s.core t) sva (pdLen (leNat b)) = .ok (data, s2) →
        (op.isSome → data ≠ [] ∧ (∀ m ∈ podMembers v, reaches s2 m = true) ∧
          ∀ q ∈ s2.early, q.set = v → some q.op = op ∧ q.tag = tag ∧ q.words.length = (chunks 4 data.length data).length) →
        ∃ z y, exec i s = endsWith s t z (writeP t p true) ∧ z.podOps.length = s2.podOps.length + 1 ∧
          z.podOps.getLast? = some y ∧ y.op = op ∧ y.data = data ∧ y.set = v ∧ y.tag = tag ∧
          y.slot = BitVec.ofNat 32 (rgIp (ringGet s1 pa)) ∧ y.dst = BitVec.ofNat 64 (pdDst (leNat b)) ∧ y.owner = t.ref) ∧
      (¬ full → combineWaits z1 op v tag = false →
        podSource z1 (threadAgent s.core t) sva (pdLen (leNat b)) = .ok (data, s2) → op.isSome →
        (data = [] ∨ ∃ m ∈ podMembers v, reaches s2 m = false) →
        ∃ z u, exec i s = .next z ∧ z.threadAt s.core = some u ∧ (p ≠ 0 → readP u p = true) ∧
          ∀ y ∈ z.podOps, y.id ≠ s2.podNext) := by
    rw [hi]
    exact ⟨issuePod_refused hp, issuePod_waits hp, issuePod_accepted hp, issuePod_failed hp⟩
  refine ⟨?_, fun hx hv h0 hn hr => ⟨?_, ?_, ?_, ?_⟩, fun hd => Handles.opD_ends ha hd _⟩
  · intro e he hx hv hc hal hb hset hdesc hs hring
    simp only [List.mem_cons, List.not_mem_nil, or_false] at he
    rcases he with rfl | rfl
    · exact operation none _ rfl ⟨ha, hx, hv, hc, hal, hb, hset, hdesc, hs, hring⟩
    · exact operation (some o) _ rfl ⟨ha, hx, hv, hc, hal, hb, hset, hdesc, hs, hring⟩
  · intro hw
    exact execXbar_held ha hx hv h0 hn hr (hw.imp_right .inl)
  · intro hw hm
    have home : askHome s (arrivalOf t x v) = ⟨(atHome s (arrivalOf t x v)).2, none, none, none, none, (atHome s (arrivalOf t x v)).1⟩ :=
      if_pos hm
    exact execXbar_asks ha hx hv h0 hn hr hw (by simp [homeBusy, arrivalOf, hm]) home
  · intro hw hm hu
    have home : askHome s (arrivalOf t x v) = ⟨lostBarrier s, none, none, none, none, { s with free := s.free + 1 }⟩ :=
      (if_neg hm).trans (if_neg (by simp [arrivalOf, hu]))
    exact execXbar_asks ha hx hv h0 hn hr hw (by simp [homeBusy, arrivalOf, hu]) home
  · intro hw hm hu
    refine ⟨fun hport => ?_, fun hport => ?_⟩
    · have later := execXbar_held (f := f) (g := g) ha hx hv h0 hn hr
        (.inr (.inr (by simp [homeBusy, arrivalOf, hm, hu, hport])))
      have atOnce : releaseWaits t f g = false := Bool.eq_false_iff.2 fun h => hw (.inl h)
      rwa [atOnce] at later
    · have home : askHome s (arrivalOf t x v) = ⟨0, some (peerWait s (bits v.toNat 9 0) 0),
          if sends s (bits v.toNat 9 0) 0 then none else some cPeer, some (lostBarrier s), some (arrivalOf t x v),
          { s with free := s.free + 1 }⟩ := (if_neg hm).trans (if_pos hu)
      exact execXbar_asks ha hx hv h0 hn hr hw (by simp [homeBusy, arrivalOf, hport]) home

end Sys2Proof.Proofs.Pods
end


section
/-! PROOFS. The pairwise tree of an integer sum (03/R75, 10/R254). -/

namespace Sys2Proof.Proofs.Reduction

open Sys2Proof Sys2Proof.Machine

variable {f : FWord} {w x y : Nat} {l : List Nat} {g : W32}

/-- Whatever way a lane is read, it is its bits up to a multiple of 2^w. -/
theorem read_emod (hu : Bool) (x : Nat) : (if hu then (x : Int) else sOf w x) % (2 : Int) ^ w = (x : Int) % (2 : Int) ^ w := by
  cases hu with
  | true => rfl
  | false =>
    simp only [Bool.false_eq_true, if_false, sOf]
    split
    · rfl
    · exact Int.sub_emod_right ..

theorem wrapN_eq {z : Int} {n : Nat} (h : z % (2 : Int) ^ w = (n : Int) % (2 : Int) ^ w) : wrapN w z = n % 2 ^ w := by
  simp only [wrapN, h]
  norm_cast

/-- A combination that does not saturate is the wrapped sum of the bits. -/
theorem redPair_sum (hop : redOp f = 0) (hs : redSat f = false) : redPair f w x y g = ⟨(x + y) % 2 ^ w, 0, g⟩ := by
  have bitsSum : wrapN w ((if redUns f then (x : Int) else sOf w x) + (if redUns f then (y : Int) else sOf w y)) = (x + y) % 2 ^ w := by
    refine wrapN_eq ?_
    rw [Int.add_emod, read_emod, read_emod, ← Int.add_emod]
    norm_cast
  simp only [redPair, hop, hs, Bool.false_eq_true, if_false, bitsSum]

/-- One level over an even number of lanes halves them, and keeps their sum, wrapped. -/
theorem redLevel_sum (hop : redOp f = 0) (hs : redSat f = false) {m : Nat} (hl : l.length = 2 * m) :
    ∃ r, redLevel f w l g = (r, 0, g) ∧ r.length = m ∧ r.sum % 2 ^ w = l.sum % 2 ^ w ∧ ∀ x ∈ r, x < 2 ^ w := by
  induction m generalizing l with
  | zero =>
    obtain rfl := List.length_eq_zero_iff.1 hl
    exact ⟨[], rfl, rfl, rfl, by simp⟩
  | succ m ih =>
    match l, hl with
    | x :: y :: l, hl =>
      obtain ⟨r, hr, hlen, hsum, hlt⟩ := ih (l := l) (by simpa [Nat.mul_succ] using hl)
      refine ⟨(x + y) % 2 ^ w :: r, ?_, by simp [hlen], ?_, ?_⟩
      · simp only [redLevel, redPair_sum hop hs, hr, BitVec.or_self]
      · simp only [List.sum_cons, ← Nat.add_assoc]
        rw [Nat.add_mod, hsum, ← Nat.add_mod, Nat.mod_add_mod]
      · intro z hz
        rcases List.mem_cons.1 hz with rfl | hz
        · exact Nat.mod_lt _ (Nat.two_pow_pos w)
        · exact hlt z hz

/-- A tree of at least j levels over 2^j lanes. -/
theorem redTree_sum (hop : redOp f = 0) (hs : redSat f = false) {j n : Nat} (hn : j ≤ n) (hl : l.length = 2 ^ j)
    (hlt : ∀ x ∈ l, x < 2 ^ w) (fl : Flags) : redTree f w n l fl g = ⟨l.sum % 2 ^ w, fl, g⟩ := by
  induction j generalizing n l with
  | zero =>
    obtain ⟨x, rfl⟩ := List.length_eq_one_iff.1 hl
    have bounded : x % 2 ^ w = x := Nat.mod_eq_of_lt (hlt x (by simp))
    cases n <;> simp [redTree, bounded]
  | succ j ih =>
    obtain ⟨n, rfl⟩ := Nat.exists_eq_succ_of_ne_zero (by omega : n ≠ 0)
    obtain ⟨r, hr, hlen, hsum, hrlt⟩ := redLevel_sum (w := w) (g := g) hop hs (m := 2 ^ j) (by rw [hl, Nat.pow_succ'])
    have long : ¬ l.length ≤ 1 := by
      have := Nat.two_pow_pos j
      omega
    rw [redTree, if_neg long]
    simp only [hr]
    rw [show fl ||| 0 = fl from BitVec.or_zero, ih (by omega) hlen hrlt, hsum]

/-- Settles O40, by induction on the levels of the tree. -/
theorem reductionSum : Obligations.ReductionSum := by
  unfold Obligations.ReductionSum
  intro f w l fl g j hop hs _ hj hl hlt
  exact redTree_sum hop hs hj hl hlt fl

end Sys2Proof.Proofs.Reduction
end


section
/-! PROOFS. Chapter 02: the words of the instruction that a word decodes to are the word itself. -/

namespace Sys2Proof.Proofs.Decoding

open Sys2Proof Sys2Proof.Machine

/-! ## What a decoder answers, and the words of its answer -/

/-- Whatever a decoder answers is well formed, and its words are these. -/
def Encodes (ws : List W32) (r : Except Reject Instr) : Prop := ∀ i, r = .ok i → i.wf = true ∧ encode i = ws

variable {ws : List W32}

theorem encodes_error {e : Reject} : Encodes ws (.error e) := fun i h => by cases h

theorem encodes_op {maj : BitVec 7} {unused : Bool} {i : Instr} (h : unused = true → encode i = ws) :
    Encodes ws (checked maj unused i) := fun j hj => by
  simp only [checked] at hj
  split at hj
  · next hu =>
    split at hj
    · next hw => cases hj; exact ⟨hw, h hu⟩
    · cases hj
  · cases hj

theorem encodes_branch {c : Bool} {x y : Except Reject Instr} (hy : Encodes ws y) (hx : c = true → Encodes ws x) :
    Encodes ws (if c then x else y) := by
  split
  · next h => exact hx h
  · exact hy

/-! ## Fields and their parts -/

theorem ofBool_wait (b : BitVec 1) : BitVec.ofBool (b == 1#1) = b := by
  revert b; decide

/-- The upper bits of a part of a field, before the others. -/
theorem append_extract {k m n b : Nat} {x : BitVec k} {h : BitVec m} (hx : x.extractLsb' (b + n) m = h) :
    h ++ x.extractLsb' b n = x.extractLsb' b (m + n) := by
  subst hx
  refine BitVec.eq_of_getLsbD_eq fun i hi => ?_
  simp only [BitVec.getLsbD_append, BitVec.getLsbD_extractLsb', hi, decide_true, Bool.true_and]
  split
  · next hlt => simp [hlt]
  · next hge =>
    have upper : i - n < m := by omega
    have same : b + n + (i - n) = b + i := by omega
    simp [upper, same]

/-- A field is its upper bits before the others. -/
theorem append_extract_all {m n : Nat} {x : BitVec (m + n)} {h : BitVec m} (hx : x.extractLsb' n m = h) :
    h ++ x.extractLsb' 0 n = x := by
  rw [append_extract (by rwa [Nat.zero_add]), BitVec.extractLsb'_eq_self]

theorem append_3_3 {x : BitVec 6} {h : BitVec 3} (hx : x.extractLsb' 3 3 = h) : h ++ x.extractLsb' 0 3 = x :=
  append_extract_all (m := 3) (n := 3) hx
theorem append_2_4 {x : BitVec 6} {h : BitVec 2} (hx : x.extractLsb' 4 2 = h) : h ++ x.extractLsb' 0 4 = x :=
  append_extract_all (m := 2) (n := 4) hx
theorem append_2_3 {x : BitVec 5} {h : BitVec 2} (hx : x.extractLsb' 3 2 = h) : h ++ x.extractLsb' 0 3 = x :=
  append_extract_all (m := 2) (n := 3) hx
theorem append_3_2 {x : BitVec 5} {h : BitVec 3} (hx : x.extractLsb' 2 3 = h) : h ++ x.extractLsb' 0 2 = x :=
  append_extract_all (m := 3) (n := 2) hx
theorem append_1_4 {x : BitVec 5} {h : BitVec 1} (hx : x.extractLsb' 4 1 = h) : h ++ x.extractLsb' 0 4 = x :=
  append_extract_all (m := 1) (n := 4) hx
theorem append_6_6 {x : BitVec 12} {h : BitVec 6} (hx : x.extractLsb' 6 6 = h) : h ++ x.extractLsb' 0 6 = x :=
  append_extract_all (m := 6) (n := 6) hx
theorem append_4_8 {x : BitVec 12} {h : BitVec 4} (hx : x.extractLsb' 8 4 = h) : h ++ x.extractLsb' 0 8 = x :=
  append_extract_all (m := 4) (n := 8) hx
theorem append_8_4 {x : BitVec 12} {h : BitVec 8} (hx : x.extractLsb' 4 8 = h) : h ++ x.extractLsb' 0 4 = x :=
  append_extract_all (m := 8) (n := 4) hx
theorem append_7_5 {x : BitVec 12} {h : BitVec 7} (hx : x.extractLsb' 5 7 = h) : h ++ x.extractLsb' 0 5 = x :=
  append_extract_all (m := 7) (n := 5) hx
theorem append_3_1 {x : BitVec 4} {h : BitVec 3} (hx : x.extractLsb' 1 3 = h) : h ++ x.extractLsb' 0 1 = x :=
  append_extract_all (m := 3) (n := 1) hx

/-- The number of a fence's queues over a field whose top bits are zero (`qfence`). -/
theorem append_2_2_8 {x : BitVec 12} (hx : x.extractLsb' 10 2 = 0#2) : 0#2 ++ x.extractLsb' 8 2 ++ x.extractLsb' 0 8 = x :=
  append_4_8 (append_extract (b := 8) (n := 2) hx).symm

/-- The two parts of a port's number (02 Table 2.14). -/
theorem extract_port_high (a : BitVec 1) (b : BitVec 5) : (a ++ b).extractLsb' 5 1 = a := BitVec.extractLsb'_append_eq_left
theorem extract_port_low (a : BitVec 1) (b : BitVec 5) : (a ++ b).extractLsb' 0 5 = b := BitVec.extractLsb'_append_eq_right

mutual

/-- The words of `ret` and of `nop`. (A block's theorems are elaborated before what follows, as single ones are not: every later
proof needs the equations of `encode`, which are made here once.) -/
theorem encode_ret : encode .ret = [FormR.toWord ⟨0x3B#7, 0#6, 0#6, 0#1, 0#6, 0#1, 2#5⟩] := by
  simp only [encode]

theorem encode_nop : encode .nop = [FormI.toWord ⟨0x7D#7, 0#6, 0#6, 0#1, 1280#12⟩] := by
  simp only [encode]

end

theorem decodeMaj00_encodes (f : FormR) (hm : f.maj = 0x00#7) : Encodes [f.toWord] (decodeMaj00 f) := by
  obtain ⟨maj, d, a, wa, b, wb, min⟩ := f
  simp only at hm
  simp only [decodeMaj00]
  iterate 24 refine encodes_branch ?_ fun h => encodes_op fun hu => ?_
  · exact encodes_error
  all_goals simp_all [encode, ofBool_wait]

theorem decodeMaj01_encodes (f : FormI) (hm : f.maj = 0x01#7) : Encodes [f.toWord] (decodeMaj01 f) := by
  obtain ⟨maj, d, a, wa, imm⟩ := f
  simp only at hm
  simp only [decodeMaj01]
  refine encodes_op fun hu => ?_
  simp_all [encode, ofBool_wait]

theorem decodeMaj02_encodes (f : FormI) (hm : f.maj = 0x02#7) : Encodes [f.toWord] (decodeMaj02 f) := by
  obtain ⟨maj, d, a, wa, imm⟩ := f
  simp only at hm
  simp only [decodeMaj02]
  refine encodes_op fun hu => ?_
  simp_all [encode, ofBool_wait]

theorem decodeMaj03_encodes (f : FormI) (hm : f.maj = 0x03#7) : Encodes [f.toWord] (decodeMaj03 f) := by
  obtain ⟨maj, d, a, wa, imm⟩ := f
  simp only at hm
  simp only [decodeMaj03]
  refine encodes_op fun hu => ?_
  simp_all [encode, ofBool_wait]

theorem decodeMaj04_encodes (f : FormI) (hm : f.maj = 0x04#7) : Encodes [f.toWord] (decodeMaj04 f) := by
  obtain ⟨maj, d, a, wa, imm⟩ := f
  simp only at hm
  simp only [decodeMaj04]
  refine encodes_op fun hu => ?_
  simp_all [encode, ofBool_wait]

theorem decodeMaj05_encodes (f : FormI) (hm : f.maj = 0x05#7) : Encodes [f.toWord] (decodeMaj05 f) := by
  obtain ⟨maj, d, a, wa, imm⟩ := f
  simp only at hm
  simp only [decodeMaj05]
  refine encodes_op fun hu => ?_
  simp_all [encode, ofBool_wait, append_6_6]

theorem decodeMaj06_encodes (f : FormI) (hm : f.maj = 0x06#7) : Encodes [f.toWord] (decodeMaj06 f) := by
  obtain ⟨maj, d, a, wa, imm⟩ := f
  simp only at hm
  simp only [decodeMaj06]
  refine encodes_op fun hu => ?_
  simp_all [encode, ofBool_wait, append_6_6]

theorem decodeMaj07_encodes (f : FormI) (hm : f.maj = 0x07#7) : Encodes [f.toWord] (decodeMaj07 f) := by
  obtain ⟨maj, d, a, wa, imm⟩ := f
  simp only at hm
  simp only [decodeMaj07]
  refine encodes_op fun hu => ?_
  simp_all [encode, ofBool_wait, append_6_6]

theorem decodeMaj08_encodes (f : FormI) (hm : f.maj = 0x08#7) : Encodes [f.toWord] (decodeMaj08 f) := by
  obtain ⟨maj, d, a, wa, imm⟩ := f
  simp only at hm
  simp only [decodeMaj08]
  refine encodes_op fun hu => ?_
  simp_all [encode, ofBool_wait, append_6_6]

theorem decodeMaj09_encodes (f : FormI) (hm : f.maj = 0x09#7) : Encodes [f.toWord] (decodeMaj09 f) := by
  obtain ⟨maj, d, a, wa, imm⟩ := f
  simp only at hm
  simp only [decodeMaj09]
  refine encodes_op fun hu => ?_
  simp_all [encode, ofBool_wait, append_6_6]

theorem decodeMaj0A_encodes (f : FormI) (hm : f.maj = 0x0A#7) : Encodes [f.toWord] (decodeMaj0A f) := by
  obtain ⟨maj, d, a, wa, imm⟩ := f
  simp only at hm
  simp only [decodeMaj0A]
  refine encodes_op fun hu => ?_
  simp_all [encode, ofBool_wait, append_6_6]

theorem decodeMaj0B_encodes (f : FormI) (hm : f.maj = 0x0B#7) : Encodes [f.toWord] (decodeMaj0B f) := by
  obtain ⟨maj, d, a, wa, imm⟩ := f
  simp only at hm
  simp only [decodeMaj0B]
  refine encodes_op fun hu => ?_
  simp_all [encode, ofBool_wait]

theorem decodeMaj0C_encodes (f : FormI) (hm : f.maj = 0x0C#7) : Encodes [f.toWord] (decodeMaj0C f) := by
  obtain ⟨maj, d, a, wa, imm⟩ := f
  simp only at hm
  simp only [decodeMaj0C]
  refine encodes_op fun hu => ?_
  simp_all [encode]

theorem decodeMaj10_encodes (f : FormR) (hm : f.maj = 0x10#7) : Encodes [f.toWord] (decodeMaj10 f) := by
  obtain ⟨maj, d, a, wa, b, wb, min⟩ := f
  simp only at hm
  simp only [decodeMaj10]
  iterate 6 refine encodes_branch ?_ fun h => encodes_op fun hu => ?_
  · exact encodes_error
  all_goals simp_all [encode, ofBool_wait, append_3_3]

theorem decodeMaj11_encodes (f : FormR) (hm : f.maj = 0x11#7) : Encodes [f.toWord] (decodeMaj11 f) := by
  obtain ⟨maj, d, a, wa, b, wb, min⟩ := f
  simp only at hm
  simp only [decodeMaj11]
  iterate 4 refine encodes_branch ?_ fun h => encodes_op fun hu => ?_
  · exact encodes_error
  all_goals simp_all [encode, append_3_3]

theorem decodeMaj12_encodes (f : FormR) (hm : f.maj = 0x12#7) : Encodes [f.toWord] (decodeMaj12 f) := by
  obtain ⟨maj, d, a, wa, b, wb, min⟩ := f
  simp only at hm
  simp only [decodeMaj12]
  refine encodes_op fun hu => ?_
  simp_all [encode, ofBool_wait, append_2_3]

theorem decodeMaj18_encodes (f : FormM) (hm : f.maj = 0x18#7) : Encodes [f.toWord] (decodeMaj18 f) := by
  obtain ⟨maj, d, a, wa, h, off⟩ := f
  simp only at hm
  simp only [decodeMaj18]
  refine encodes_op fun hu => ?_
  simp_all [encode, ofBool_wait]

theorem decodeMaj19_encodes (f : FormM) (hm : f.maj = 0x19#7) : Encodes [f.toWord] (decodeMaj19 f) := by
  obtain ⟨maj, d, a, wa, h, off⟩ := f
  simp only at hm
  simp only [decodeMaj19]
  refine encodes_op fun hu => ?_
  simp_all [encode, ofBool_wait]

theorem decodeMaj1A_encodes (f : FormM) (hm : f.maj = 0x1A#7) : Encodes [f.toWord] (decodeMaj1A f) := by
  obtain ⟨maj, d, a, wa, h, off⟩ := f
  simp only at hm
  simp only [decodeMaj1A]
  refine encodes_op fun hu => ?_
  simp_all [encode, ofBool_wait]

theorem decodeMaj1B_encodes (f : FormM) (hm : f.maj = 0x1B#7) : Encodes [f.toWord] (decodeMaj1B f) := by
  obtain ⟨maj, d, a, wa, h, off⟩ := f
  simp only at hm
  simp only [decodeMaj1B]
  refine encodes_op fun hu => ?_
  simp_all [encode, ofBool_wait]

theorem decodeMaj1C_encodes (f : FormM) (hm : f.maj = 0x1C#7) : Encodes [f.toWord] (decodeMaj1C f) := by
  obtain ⟨maj, d, a, wa, h, off⟩ := f
  simp only at hm
  simp only [decodeMaj1C]
  refine encodes_op fun hu => ?_
  simp_all [encode, ofBool_wait]

theorem decodeMaj1D_encodes (f : FormM) (hm : f.maj = 0x1D#7) : Encodes [f.toWord] (decodeMaj1D f) := by
  obtain ⟨maj, d, a, wa, h, off⟩ := f
  simp only at hm
  simp only [decodeMaj1D]
  refine encodes_op fun hu => ?_
  simp_all [encode, ofBool_wait]

theorem decodeMaj1E_encodes (f : FormM) (hm : f.maj = 0x1E#7) : Encodes [f.toWord] (decodeMaj1E f) := by
  obtain ⟨maj, d, a, wa, h, off⟩ := f
  simp only at hm
  simp only [decodeMaj1E]
  refine encodes_op fun hu => ?_
  simp_all [encode, ofBool_wait]

theorem decodeMaj20_encodes (f : FormM) (hm : f.maj = 0x20#7) : Encodes [f.toWord] (decodeMaj20 f) := by
  obtain ⟨maj, d, a, wa, h, off⟩ := f
  simp only at hm
  simp only [decodeMaj20]
  refine encodes_op fun hu => ?_
  simp_all [encode, ofBool_wait]

theorem decodeMaj21_encodes (f : FormM) (hm : f.maj = 0x21#7) : Encodes [f.toWord] (decodeMaj21 f) := by
  obtain ⟨maj, d, a, wa, h, off⟩ := f
  simp only at hm
  simp only [decodeMaj21]
  refine encodes_op fun hu => ?_
  simp_all [encode, ofBool_wait]

theorem decodeMaj22_encodes (f : FormM) (hm : f.maj = 0x22#7) : Encodes [f.toWord] (decodeMaj22 f) := by
  obtain ⟨maj, d, a, wa, h, off⟩ := f
  simp only at hm
  simp only [decodeMaj22]
  refine encodes_op fun hu => ?_
  simp_all [encode, ofBool_wait]

theorem decodeMaj23_encodes (f : FormM) (hm : f.maj = 0x23#7) : Encodes [f.toWord] (decodeMaj23 f) := by
  obtain ⟨maj, d, a, wa, h, off⟩ := f
  simp only at hm
  simp only [decodeMaj23]
  refine encodes_op fun hu => ?_
  simp_all [encode, ofBool_wait]

theorem decodeMaj24_encodes (f : FormM) (hm : f.maj = 0x24#7) : Encodes [f.toWord] (decodeMaj24 f) := by
  obtain ⟨maj, d, a, wa, h, off⟩ := f
  simp only at hm
  simp only [decodeMaj24]
  refine encodes_op fun hu => ?_
  simp_all [encode, ofBool_wait]

theorem decodeMaj28_encodes (f : FormQ) (hm : f.maj = 0x28#7) : Encodes [f.toWord] (decodeMaj28 f) := by
  obtain ⟨maj, d, a, wa, h, p, min⟩ := f
  simp only at hm
  simp only [decodeMaj28]
  iterate 10 refine encodes_branch ?_ fun h => encodes_op fun hu => ?_
  · exact encodes_error
  all_goals simp_all [encode, ofBool_wait]

theorem decodeMaj2F_encodes (f : FormA) (hm : f.maj = 0x2F#7) : Encodes [f.toWord] (decodeMaj2F f) := by
  obtain ⟨maj, d, a, wa, h, as, ss, z⟩ := f
  simp only at hm
  simp only [decodeMaj2F]
  refine encodes_op fun hu => ?_
  simp_all [encode]

theorem decodeMaj30_encodes (f : FormR) (hm : f.maj = 0x30#7) : Encodes [f.toWord] (decodeMaj30 f) := by
  obtain ⟨maj, d, a, wa, b, wb, min⟩ := f
  simp only at hm
  simp only [decodeMaj30]
  refine encodes_op fun hu => ?_
  simp_all [encode, ofBool_wait, append_2_4, append_1_4]

theorem decodeMaj31_encodes (f : FormI) (hm : f.maj = 0x31#7) : Encodes [f.toWord] (decodeMaj31 f) := by
  obtain ⟨maj, d, a, wa, imm⟩ := f
  simp only at hm
  simp only [decodeMaj31]
  refine encodes_op fun hu => ?_
  simp_all [encode, append_2_4, append_7_5]

theorem decodeMaj32_encodes (f : FormR) (hm : f.maj = 0x32#7) : Encodes [f.toWord] (decodeMaj32 f) := by
  obtain ⟨maj, d, a, wa, b, wb, min⟩ := f
  simp only at hm
  simp only [decodeMaj32]
  refine encodes_op fun hu => ?_
  simp_all [encode, append_1_4]

theorem decodeMaj33_encodes (f : FormR) (hm : f.maj = 0x33#7) : Encodes [f.toWord] (decodeMaj33 f) := by
  obtain ⟨maj, d, a, wa, b, wb, min⟩ := f
  simp only at hm
  simp only [decodeMaj33]
  refine encodes_op fun hu => ?_
  simp_all [encode, append_1_4]

theorem decodeMaj34_encodes (f : FormR) (hm : f.maj = 0x34#7) : Encodes [f.toWord] (decodeMaj34 f) := by
  obtain ⟨maj, d, a, wa, b, wb, min⟩ := f
  simp only at hm
  simp only [decodeMaj34]
  refine encodes_op fun hu => ?_
  simp_all [encode, append_2_4, append_1_4]

theorem decodeMaj35_encodes (f : FormQ) (hm : f.maj = 0x35#7) : Encodes [f.toWord] (decodeMaj35 f) := by
  obtain ⟨maj, d, a, wa, h, p, min⟩ := f
  simp only at hm
  simp only [decodeMaj35]
  refine encodes_op fun hu => ?_
  simp_all [encode, ofBool_wait]

theorem decodeMaj36_encodes (f : FormM) (hm : f.maj = 0x36#7) : Encodes [f.toWord] (decodeMaj36 f) := by
  obtain ⟨maj, d, a, wa, h, off⟩ := f
  simp only at hm
  simp only [decodeMaj36]
  refine encodes_op fun hu => ?_
  simp_all [encode, ofBool_wait]

theorem decodeMaj38_encodes (f : FormB) (hm : f.maj = 0x38#7) : Encodes [f.toWord] (decodeMaj38 f) := by
  obtain ⟨maj, p, n, off⟩ := f
  simp only at hm
  simp only [decodeMaj38]
  refine encodes_op fun hu => ?_
  simp_all [encode, ofBool_wait]

theorem decodeMaj39_encodes (f : FormB) (hm : f.maj = 0x39#7) : Encodes [f.toWord] (decodeMaj39 f) := by
  obtain ⟨maj, p, n, off⟩ := f
  simp only at hm
  simp only [decodeMaj39]
  refine encodes_op fun hu => ?_
  simp_all [encode]

theorem decodeMaj3A_encodes (f : FormB) (hm : f.maj = 0x3A#7) : Encodes [f.toWord] (decodeMaj3A f) := by
  obtain ⟨maj, p, n, off⟩ := f
  simp only at hm
  simp only [decodeMaj3A]
  refine encodes_op fun hu => ?_
  simp_all [encode]

theorem decodeMaj3B_encodes (f : FormR) (hm : f.maj = 0x3B#7) : Encodes [f.toWord] (decodeMaj3B f) := by
  obtain ⟨maj, d, a, wa, b, wb, min⟩ := f
  simp only at hm
  simp only [decodeMaj3B]
  iterate 3 refine encodes_branch ?_ fun h => encodes_op fun hu => ?_
  · exact encodes_error
  all_goals simp_all [encode, ofBool_wait]

theorem decodeMaj3C_encodes (f : FormI) (hm : f.maj = 0x3C#7) : Encodes [f.toWord] (decodeMaj3C f) := by
  obtain ⟨maj, d, a, wa, imm⟩ := f
  simp only at hm
  simp only [decodeMaj3C]
  refine encodes_op fun hu => ?_
  simp_all [encode]

theorem decodeMaj3E_encodes (f : FormI) (hm : f.maj = 0x3E#7) : Encodes [f.toWord] (decodeMaj3E f) := by
  obtain ⟨maj, d, a, wa, imm⟩ := f
  simp only at hm
  simp only [decodeMaj3E]
  refine encodes_op fun hu => ?_
  simp_all [encode, ofBool_wait, append_4_8]

theorem decodeMaj40_encodes (f : FormQ) (hm : f.maj = 0x40#7) : Encodes [f.toWord] (decodeMaj40 f) := by
  obtain ⟨maj, d, a, wa, h, p, min⟩ := f
  simp only at hm
  simp only [decodeMaj40]
  refine encodes_op fun hu => ?_
  simp_all [encode, ofBool_wait, append_2_3]

theorem decodeMaj41_encodes (f : FormQ) (hm : f.maj = 0x41#7) : Encodes [f.toWord] (decodeMaj41 f) := by
  obtain ⟨maj, d, a, wa, h, p, min⟩ := f
  simp only at hm
  simp only [decodeMaj41]
  refine encodes_op fun hu => ?_
  simp_all [encode, ofBool_wait, append_2_3]

theorem decodeMaj42_encodes (f : FormQ) (hm : f.maj = 0x42#7) : Encodes [f.toWord] (decodeMaj42 f) := by
  obtain ⟨maj, d, a, wa, h, p, min⟩ := f
  simp only at hm
  simp only [decodeMaj42]
  refine encodes_op fun hu => ?_
  simp_all [encode, ofBool_wait, append_2_3]

theorem decodeMaj43_encodes (f : FormQ) (hm : f.maj = 0x43#7) : Encodes [f.toWord] (decodeMaj43 f) := by
  obtain ⟨maj, d, a, wa, h, p, min⟩ := f
  simp only at hm
  simp only [decodeMaj43]
  refine encodes_op fun hu => ?_
  simp_all [encode, append_2_3]

theorem decodeMaj44_encodes (f : FormQ) (hm : f.maj = 0x44#7) : Encodes [f.toWord] (decodeMaj44 f) := by
  obtain ⟨maj, d, a, wa, h, p, min⟩ := f
  simp only at hm
  simp only [decodeMaj44]
  refine encodes_op fun hu => ?_
  simp_all [encode, ofBool_wait]

theorem decodeMaj45_encodes (f : FormQ) (hm : f.maj = 0x45#7) : Encodes [f.toWord] (decodeMaj45 f) := by
  obtain ⟨maj, d, a, wa, h, p, min⟩ := f
  simp only at hm
  simp only [decodeMaj45]
  refine encodes_op fun hu => ?_
  simp_all [encode, ofBool_wait]

theorem decodeMaj46_encodes (f : FormQ) (hm : f.maj = 0x46#7) : Encodes [f.toWord] (decodeMaj46 f) := by
  obtain ⟨maj, d, a, wa, h, p, min⟩ := f
  simp only at hm
  simp only [decodeMaj46]
  refine encodes_op fun hu => ?_
  simp_all [encode, ofBool_wait]

theorem decodeMaj47_encodes (f : FormQ) (hm : f.maj = 0x47#7) : Encodes [f.toWord] (decodeMaj47 f) := by
  obtain ⟨maj, d, a, wa, h, p, min⟩ := f
  simp only at hm
  simp only [decodeMaj47]
  refine encodes_op fun hu => ?_
  simp_all [encode, ofBool_wait]

theorem decodeMaj48_encodes (f : FormI) (hm : f.maj = 0x48#7) : Encodes [f.toWord] (decodeMaj48 f) := by
  obtain ⟨maj, d, a, wa, imm⟩ := f
  simp only at hm
  simp only [decodeMaj48]
  refine encodes_op fun hu => ?_
  simp_all [encode, append_2_2_8]

theorem decodeMaj50_encodes (f : FormQ) (hm : f.maj = 0x50#7) : Encodes [f.toWord] (decodeMaj50 f) := by
  obtain ⟨maj, d, a, wa, h, p, min⟩ := f
  simp only at hm
  simp only [decodeMaj50]
  refine encodes_op fun hu => ?_
  simp_all [encode, ofBool_wait]

theorem decodeMaj51_encodes (f : FormQ) (hm : f.maj = 0x51#7) : Encodes [f.toWord] (decodeMaj51 f) := by
  obtain ⟨maj, d, a, wa, h, p, min⟩ := f
  simp only at hm
  simp only [decodeMaj51]
  refine encodes_op fun hu => ?_
  simp_all [encode]

theorem decodeMaj52_encodes (f : FormQ) (hm : f.maj = 0x52#7) : Encodes [f.toWord] (decodeMaj52 f) := by
  obtain ⟨maj, d, a, wa, h, p, min⟩ := f
  simp only at hm
  simp only [decodeMaj52]
  refine encodes_op fun hu => ?_
  simp_all [encode, append_3_2]

theorem decodeMaj53_encodes (f : FormQ) (hm : f.maj = 0x53#7) : Encodes [f.toWord] (decodeMaj53 f) := by
  obtain ⟨maj, d, a, wa, h, p, min⟩ := f
  simp only at hm
  simp only [decodeMaj53]
  refine encodes_op fun hu => ?_
  simp_all [encode]

theorem decodeMaj54_encodes (f : FormQ) (hm : f.maj = 0x54#7) : Encodes [f.toWord] (decodeMaj54 f) := by
  obtain ⟨maj, d, a, wa, h, p, min⟩ := f
  simp only at hm
  simp only [decodeMaj54]
  refine encodes_op fun hu => ?_
  simp_all [encode, ofBool_wait]

theorem decodeMaj55_encodes (f : FormR) (hm : f.maj = 0x55#7) : Encodes [f.toWord] (decodeMaj55 f) := by
  obtain ⟨maj, d, a, wa, b, wb, min⟩ := f
  simp only at hm
  simp only [decodeMaj55]
  refine encodes_op fun hu => ?_
  simp_all [encode, ofBool_wait]

theorem decodeMaj56_encodes (f : FormR) (hm : f.maj = 0x56#7) : Encodes [f.toWord] (decodeMaj56 f) := by
  obtain ⟨maj, d, a, wa, b, wb, min⟩ := f
  simp only at hm
  simp only [decodeMaj56]
  refine encodes_op fun hu => ?_
  simp_all [encode, ofBool_wait]

theorem decodeMaj58_encodes (f : FormQ) (hm : f.maj = 0x58#7) : Encodes [f.toWord] (decodeMaj58 f) := by
  obtain ⟨maj, d, a, wa, h, p, min⟩ := f
  simp only at hm
  simp only [decodeMaj58]
  refine encodes_op fun hu => ?_
  simp_all [encode, ofBool_wait, append_1_4]

theorem decodeMaj59_encodes (f : FormA) (hm : f.maj = 0x59#7) : Encodes [f.toWord] (decodeMaj59 f) := by
  obtain ⟨maj, d, a, wa, h, as, ss, z⟩ := f
  simp only at hm
  simp only [decodeMaj59]
  refine encodes_op fun hu => ?_
  simp_all [encode, ofBool_wait]

theorem decodeMaj5A_encodes (f : FormR) (hm : f.maj = 0x5A#7) : Encodes [f.toWord] (decodeMaj5A f) := by
  obtain ⟨maj, d, a, wa, b, wb, min⟩ := f
  simp only at hm
  simp only [decodeMaj5A]
  refine encodes_op fun hu => ?_
  simp_all [encode, ofBool_wait, append_3_2]

theorem decodeMaj5B_encodes (f : FormR) (hm : f.maj = 0x5B#7) : Encodes [f.toWord] (decodeMaj5B f) := by
  obtain ⟨maj, d, a, wa, b, wb, min⟩ := f
  simp only at hm
  simp only [decodeMaj5B]
  refine encodes_op fun hu => ?_
  simp_all [encode]

theorem decodeMaj5C_encodes (f : FormI) (hm : f.maj = 0x5C#7) : Encodes [f.toWord] (decodeMaj5C f) := by
  obtain ⟨maj, d, a, wa, imm⟩ := f
  simp only at hm
  simp only [decodeMaj5C]
  refine encodes_op fun hu => ?_
  simp_all [encode, ofBool_wait]

theorem decodeMaj5D_encodes (f : FormR) (hm : f.maj = 0x5D#7) : Encodes [f.toWord] (decodeMaj5D f) := by
  obtain ⟨maj, d, a, wa, b, wb, min⟩ := f
  simp only at hm
  simp only [decodeMaj5D]
  refine encodes_op fun hu => ?_
  simp_all [encode, ofBool_wait]

theorem decodeMaj5E_encodes (f : FormI) (hm : f.maj = 0x5E#7) : Encodes [f.toWord] (decodeMaj5E f) := by
  obtain ⟨maj, d, a, wa, imm⟩ := f
  simp only at hm
  simp only [decodeMaj5E]
  refine encodes_op fun hu => ?_
  simp_all [encode, ofBool_wait, append_8_4]

theorem decodeMaj60_encodes (f : FormQ) (hm : f.maj = 0x60#7) : Encodes [f.toWord] (decodeMaj60 f) := by
  obtain ⟨maj, d, a, wa, h, p, min⟩ := f
  simp only at hm
  simp only [decodeMaj60]
  refine encodes_op fun hu => ?_
  simp_all [encode, ofBool_wait, append_2_3]

theorem decodeMaj61_encodes (f : FormQ) (hm : f.maj = 0x61#7) : Encodes [f.toWord] (decodeMaj61 f) := by
  obtain ⟨maj, d, a, wa, h, p, min⟩ := f
  simp only at hm
  simp only [decodeMaj61]
  refine encodes_op fun hu => ?_
  simp_all [encode, ofBool_wait, append_2_3]

theorem decodeMaj62_encodes (f : FormQ) (hm : f.maj = 0x62#7) : Encodes [f.toWord] (decodeMaj62 f) := by
  obtain ⟨maj, d, a, wa, h, p, min⟩ := f
  simp only at hm
  simp only [decodeMaj62]
  refine encodes_op fun hu => ?_
  simp_all [encode, ofBool_wait, append_2_3]

theorem decodeMaj63_encodes (f : FormQ) (hm : f.maj = 0x63#7) : Encodes [f.toWord] (decodeMaj63 f) := by
  obtain ⟨maj, d, a, wa, h, p, min⟩ := f
  simp only at hm
  simp only [decodeMaj63]
  refine encodes_op fun hu => ?_
  simp_all [encode, ofBool_wait, append_2_3]

theorem decodeMaj64_encodes (f : FormQ) (hm : f.maj = 0x64#7) : Encodes [f.toWord] (decodeMaj64 f) := by
  obtain ⟨maj, d, a, wa, h, p, min⟩ := f
  simp only at hm
  simp only [decodeMaj64]
  refine encodes_op fun hu => ?_
  simp_all [encode, ofBool_wait, append_2_3]

theorem decodeMaj65_encodes (f : FormB) (hm : f.maj = 0x65#7) : Encodes [f.toWord] (decodeMaj65 f) := by
  obtain ⟨maj, p, n, off⟩ := f
  simp only at hm
  simp only [decodeMaj65]
  refine encodes_op fun hu => ?_
  simp_all [encode]

theorem decodeMaj66_encodes (f : FormQ) (hm : f.maj = 0x66#7) : Encodes [f.toWord] (decodeMaj66 f) := by
  obtain ⟨maj, d, a, wa, h, p, min⟩ := f
  simp only at hm
  simp only [decodeMaj66]
  refine encodes_op fun hu => ?_
  simp_all [encode, append_2_3]

theorem decodeMaj67_encodes (f : FormQ) (hm : f.maj = 0x67#7) : Encodes [f.toWord] (decodeMaj67 f) := by
  obtain ⟨maj, d, a, wa, h, p, min⟩ := f
  simp only at hm
  simp only [decodeMaj67]
  refine encodes_op fun hu => ?_
  simp_all [encode, append_2_3]

theorem decodeMaj68_encodes (f : FormQ) (hm : f.maj = 0x68#7) : Encodes [f.toWord] (decodeMaj68 f) := by
  obtain ⟨maj, d, a, wa, h, p, min⟩ := f
  simp only at hm
  simp only [decodeMaj68]
  refine encodes_op fun hu => ?_
  simp_all [encode, ofBool_wait]

theorem decodeMaj69_encodes (f : FormQ) (hm : f.maj = 0x69#7) : Encodes [f.toWord] (decodeMaj69 f) := by
  obtain ⟨maj, d, a, wa, h, p, min⟩ := f
  simp only at hm
  simp only [decodeMaj69]
  refine encodes_op fun hu => ?_
  simp_all [encode]

theorem decodeMaj6A_encodes (f : FormQ) (hm : f.maj = 0x6A#7) : Encodes [f.toWord] (decodeMaj6A f) := by
  obtain ⟨maj, d, a, wa, h, p, min⟩ := f
  simp only at hm
  simp only [decodeMaj6A]
  refine encodes_op fun hu => ?_
  simp_all [encode]

theorem decodeMaj6B_encodes (f : FormQ) (hm : f.maj = 0x6B#7) : Encodes [f.toWord] (decodeMaj6B f) := by
  obtain ⟨maj, d, a, wa, h, p, min⟩ := f
  simp only at hm
  simp only [decodeMaj6B]
  refine encodes_op fun hu => ?_
  simp_all [encode]

theorem decodeMaj6C_encodes (f : FormQ) (hm : f.maj = 0x6C#7) : Encodes [f.toWord] (decodeMaj6C f) := by
  obtain ⟨maj, d, a, wa, h, p, min⟩ := f
  simp only at hm
  simp only [decodeMaj6C]
  refine encodes_op fun hu => ?_
  simp_all [encode, ofBool_wait, append_3_1, extract_port_high, extract_port_low]

theorem decodeMaj6D_encodes (f : FormQ) (hm : f.maj = 0x6D#7) : Encodes [f.toWord] (decodeMaj6D f) := by
  obtain ⟨maj, d, a, wa, h, p, min⟩ := f
  simp only at hm
  simp only [decodeMaj6D]
  refine encodes_op fun hu => ?_
  simp_all [encode, ofBool_wait, append_3_1, extract_port_high, extract_port_low]

theorem decodeMaj6E_encodes (f : FormQ) (hm : f.maj = 0x6E#7) : Encodes [f.toWord] (decodeMaj6E f) := by
  obtain ⟨maj, d, a, wa, h, p, min⟩ := f
  simp only at hm
  simp only [decodeMaj6E]
  refine encodes_op fun hu => ?_
  simp_all [encode, append_3_1, extract_port_high, extract_port_low]

theorem decodeMaj70_encodes (f : FormQ) (hm : f.maj = 0x70#7) : Encodes [f.toWord] (decodeMaj70 f) := by
  obtain ⟨maj, d, a, wa, h, p, min⟩ := f
  simp only at hm
  simp only [decodeMaj70]
  refine encodes_op fun hu => ?_
  simp_all [encode, ofBool_wait]

theorem decodeMaj71_encodes (f : FormQ) (hm : f.maj = 0x71#7) : Encodes [f.toWord] (decodeMaj71 f) := by
  obtain ⟨maj, d, a, wa, h, p, min⟩ := f
  simp only at hm
  simp only [decodeMaj71]
  refine encodes_op fun hu => ?_
  simp_all [encode, ofBool_wait]

theorem decodeMaj72_encodes (f : FormQ) (hm : f.maj = 0x72#7) : Encodes [f.toWord] (decodeMaj72 f) := by
  obtain ⟨maj, d, a, wa, h, p, min⟩ := f
  simp only at hm
  simp only [decodeMaj72]
  iterate 2 refine encodes_branch ?_ fun h => encodes_op fun hu => ?_
  · exact encodes_error
  all_goals simp_all [encode, ofBool_wait]

theorem decodeMaj73_encodes (f : FormQ) (hm : f.maj = 0x73#7) : Encodes [f.toWord] (decodeMaj73 f) := by
  obtain ⟨maj, d, a, wa, h, p, min⟩ := f
  simp only at hm
  simp only [decodeMaj73]
  refine encodes_op fun hu => ?_
  simp_all [encode, ofBool_wait, append_1_4]

theorem decodeMaj74_encodes (f : FormQ) (hm : f.maj = 0x74#7) : Encodes [f.toWord] (decodeMaj74 f) := by
  obtain ⟨maj, d, a, wa, h, p, min⟩ := f
  simp only at hm
  simp only [decodeMaj74]
  refine encodes_op fun hu => ?_
  simp_all [encode, ofBool_wait]

theorem decodeMaj75_encodes (f : FormA) (hm : f.maj = 0x75#7) : Encodes [f.toWord] (decodeMaj75 f) := by
  obtain ⟨maj, d, a, wa, h, as, ss, z⟩ := f
  simp only at hm
  simp only [decodeMaj75]
  refine encodes_op fun hu => ?_
  simp_all [encode, ofBool_wait]

theorem decodeMaj76_encodes (f : FormA) (hm : f.maj = 0x76#7) : Encodes [f.toWord] (decodeMaj76 f) := by
  obtain ⟨maj, d, a, wa, h, as, ss, z⟩ := f
  simp only at hm
  simp only [decodeMaj76]
  refine encodes_op fun hu => ?_
  simp_all [encode, ofBool_wait]

theorem decodeMaj77_encodes (f : FormR) (hm : f.maj = 0x77#7) : Encodes [f.toWord] (decodeMaj77 f) := by
  obtain ⟨maj, d, a, wa, b, wb, min⟩ := f
  simp only at hm
  simp only [decodeMaj77]
  refine encodes_op fun hu => ?_
  simp_all [encode, ofBool_wait]

theorem decodeMaj78_encodes (f : FormQ) (hm : f.maj = 0x78#7) : Encodes [f.toWord] (decodeMaj78 f) := by
  obtain ⟨maj, d, a, wa, h, p, min⟩ := f
  simp only at hm
  simp only [decodeMaj78]
  refine encodes_op fun hu => ?_
  simp_all [encode, ofBool_wait]

theorem decodeMaj79_encodes (f : FormQ) (hm : f.maj = 0x79#7) : Encodes [f.toWord] (decodeMaj79 f) := by
  obtain ⟨maj, d, a, wa, h, p, min⟩ := f
  simp only at hm
  simp only [decodeMaj79]
  refine encodes_op fun hu => ?_
  simp_all [encode, ofBool_wait, append_2_3]

theorem decodeMaj7A_encodes (f : FormA) (hm : f.maj = 0x7A#7) : Encodes [f.toWord] (decodeMaj7A f) := by
  obtain ⟨maj, d, a, wa, h, as, ss, z⟩ := f
  simp only at hm
  simp only [decodeMaj7A]
  refine encodes_op fun hu => ?_
  simp_all [encode, ofBool_wait]

theorem decodeMaj7B_encodes (f : FormR) (hm : f.maj = 0x7B#7) : Encodes [f.toWord] (decodeMaj7B f) := by
  obtain ⟨maj, d, a, wa, b, wb, min⟩ := f
  simp only at hm
  simp only [decodeMaj7B]
  refine encodes_op fun hu => ?_
  simp_all [encode]

theorem decodeMaj7C_encodes (f : FormQ) (hm : f.maj = 0x7C#7) : Encodes [f.toWord] (decodeMaj7C f) := by
  obtain ⟨maj, d, a, wa, h, p, min⟩ := f
  simp only at hm
  simp only [decodeMaj7C]
  iterate 8 refine encodes_branch ?_ fun h => encodes_op fun hu => ?_
  · exact encodes_error
  all_goals simp_all [encode, ofBool_wait]

theorem decodeMaj7D_encodes (f : FormI) (hm : f.maj = 0x7D#7) : Encodes [f.toWord] (decodeMaj7D f) := by
  obtain ⟨maj, d, a, wa, imm⟩ := f
  simp only at hm
  simp only [decodeMaj7D]
  iterate 6 refine encodes_branch ?_ fun h => encodes_op fun hu => ?_
  · exact encodes_error
  all_goals simp_all [encode, ofBool_wait, append_4_8]

/-! ## A word is the word of its form -/

theorem formR_words (w : W32) : (FormR.ofWord w).toWord = w := by
  simp only [FormR.toWord, FormR.ofWord]
  rw [append_extract (m := 7) (n := 6) (b := 19) rfl,
    append_extract (m := 13) (n := 6) (b := 13) rfl,
    append_extract (m := 19) (n := 1) (b := 12) rfl,
    append_extract (m := 20) (n := 6) (b := 6) rfl,
    append_extract (m := 26) (n := 1) (b := 5) rfl,
    append_extract (m := 27) (n := 5) (b := 0) rfl]
  exact BitVec.extractLsb'_eq_self

theorem formI_words (w : W32) : (FormI.ofWord w).toWord = w := by
  simp only [FormI.toWord, FormI.ofWord]
  rw [append_extract (m := 7) (n := 6) (b := 19) rfl,
    append_extract (m := 13) (n := 6) (b := 13) rfl,
    append_extract (m := 19) (n := 1) (b := 12) rfl,
    append_extract (m := 20) (n := 12) (b := 0) rfl]
  exact BitVec.extractLsb'_eq_self

theorem formB_words (w : W32) : (FormB.ofWord w).toWord = w := by
  simp only [FormB.toWord, FormB.ofWord]
  rw [append_extract (m := 7) (n := 3) (b := 22) rfl,
    append_extract (m := 10) (n := 1) (b := 21) rfl,
    append_extract (m := 11) (n := 21) (b := 0) rfl]
  exact BitVec.extractLsb'_eq_self

theorem formM_words (w : W32) : (FormM.ofWord w).toWord = w := by
  simp only [FormM.toWord, FormM.ofWord]
  rw [append_extract (m := 7) (n := 6) (b := 19) rfl,
    append_extract (m := 13) (n := 6) (b := 13) rfl,
    append_extract (m := 19) (n := 1) (b := 12) rfl,
    append_extract (m := 20) (n := 4) (b := 8) rfl,
    append_extract (m := 24) (n := 8) (b := 0) rfl]
  exact BitVec.extractLsb'_eq_self

theorem formA_words (w : W32) : (FormA.ofWord w).toWord = w := by
  simp only [FormA.toWord, FormA.ofWord]
  rw [append_extract (m := 7) (n := 6) (b := 19) rfl,
    append_extract (m := 13) (n := 6) (b := 13) rfl,
    append_extract (m := 19) (n := 1) (b := 12) rfl,
    append_extract (m := 20) (n := 4) (b := 8) rfl,
    append_extract (m := 24) (n := 3) (b := 5) rfl,
    append_extract (m := 27) (n := 4) (b := 1) rfl,
    append_extract (m := 31) (n := 1) (b := 0) rfl]
  exact BitVec.extractLsb'_eq_self

theorem formQ_words (w : W32) : (FormQ.ofWord w).toWord = w := by
  simp only [FormQ.toWord, FormQ.ofWord]
  rw [append_extract (m := 7) (n := 6) (b := 19) rfl,
    append_extract (m := 13) (n := 6) (b := 13) rfl,
    append_extract (m := 19) (n := 1) (b := 12) rfl,
    append_extract (m := 20) (n := 4) (b := 8) rfl,
    append_extract (m := 24) (n := 3) (b := 5) rfl,
    append_extract (m := 27) (n := 5) (b := 0) rfl]
  exact BitVec.extractLsb'_eq_self

/-! ## The L forms (02/R28, R29) -/

theorem decodeMaj0D_encodes (f : FormI) (imm : W32) (hm : f.maj = 0x0D#7) : Encodes [f.toWord, imm] (decodeMaj0D f imm) := by
  obtain ⟨maj, d, a, wa, i⟩ := f
  simp only at hm
  simp only [decodeMaj0D]
  iterate 2 refine encodes_branch ?_ fun h => encodes_op fun hu => ?_
  · exact encodes_error
  all_goals simp_all [encode, ofBool_wait]

theorem append_8_24 {x : W32} : x.extractLsb' 24 8 ++ x.extractLsb' 0 24 = x := append_extract_all (m := 8) (n := 24) rfl

theorem decodeMaj3D_encodes (f : FormI) (imm : W32) (hm : f.maj = 0x3D#7) : Encodes [f.toWord, imm] (decodeMaj3D f imm) := by
  obtain ⟨maj, d, a, wa, i⟩ := f
  simp only at hm
  simp only [decodeMaj3D]
  refine encodes_branch ?_ fun h => encodes_op fun hu => ?_
  · exact encodes_error
  · simp_all [encode, append_8_24]

/-! ## Every word -/

/-- A word whose major opcode is none of the two of the L form is its instruction's only word. -/
theorem encodes_short {w next : W32} {r : Except Reject Instr} {m : Nat} (hm : (w.extractLsb' 25 7).toNat = m)
    (hs : m ≠ 0x0D ∧ m ≠ 0x3D) (hws : ws = if isLong w then [w, next] else [w]) {w' : W32} (hw : w' = w)
    (h : Encodes [w'] r) : Encodes ws r := by
  have short : isLong w = false := by
    simp only [isLong, Bool.or_eq_false_iff, beq_eq_false_iff_ne, ne_eq, ← BitVec.toNat_inj]
    rw [hm]
    exact hs
  rwa [hws, short, ← hw]

theorem encodes_long {w next : W32} {r : Except Reject Instr} (hl : isLong w = true)
    (hws : ws = if isLong w then [w, next] else [w]) {w' : W32} (hw : w' = w)
    (h : Encodes [w', next] r) : Encodes ws r := by
  rwa [hws, hl, ← hw]

theorem major_of_toNat {w : W32} {m : Nat} (hm : (w.extractLsb' 25 7).toNat = m) : w.extractLsb' 25 7 = BitVec.ofNat 7 m := by
  rw [← hm, BitVec.ofNat_toNat, BitVec.setWidth_eq]

theorem opcode_of_toNat {opc : BitVec 8} {m : Nat} (hm : opc.toNat = m) : opc = BitVec.ofNat 8 m := by
  rw [← hm, BitVec.ofNat_toNat, BitVec.setWidth_eq]

theorem decodeWords_encodes {w next : W32} (hws : ws = if isLong w then [w, next] else [w]) : Encodes ws (decodeWords w next) := by
  unfold decodeWords
  split
  · next hm => exact encodes_short hm (by decide) hws (formR_words w) (decodeMaj00_encodes _ (major_of_toNat hm))
  · next hm => exact encodes_short hm (by decide) hws (formI_words w) (decodeMaj01_encodes _ (major_of_toNat hm))
  · next hm => exact encodes_short hm (by decide) hws (formI_words w) (decodeMaj02_encodes _ (major_of_toNat hm))
  · next hm => exact encodes_short hm (by decide) hws (formI_words w) (decodeMaj03_encodes _ (major_of_toNat hm))
  · next hm => exact encodes_short hm (by decide) hws (formI_words w) (decodeMaj04_encodes _ (major_of_toNat hm))
  · next hm => exact encodes_short hm (by decide) hws (formI_words w) (decodeMaj05_encodes _ (major_of_toNat hm))
  · next hm => exact encodes_short hm (by decide) hws (formI_words w) (decodeMaj06_encodes _ (major_of_toNat hm))
  · next hm => exact encodes_short hm (by decide) hws (formI_words w) (decodeMaj07_encodes _ (major_of_toNat hm))
  · next hm => exact encodes_short hm (by decide) hws (formI_words w) (decodeMaj08_encodes _ (major_of_toNat hm))
  · next hm => exact encodes_short hm (by decide) hws (formI_words w) (decodeMaj09_encodes _ (major_of_toNat hm))
  · next hm => exact encodes_short hm (by decide) hws (formI_words w) (decodeMaj0A_encodes _ (major_of_toNat hm))
  · next hm => exact encodes_short hm (by decide) hws (formI_words w) (decodeMaj0B_encodes _ (major_of_toNat hm))
  · next hm => exact encodes_short hm (by decide) hws (formI_words w) (decodeMaj0C_encodes _ (major_of_toNat hm))
  · next hm =>
    exact encodes_long (by simp [isLong, major_of_toNat hm]) hws (formI_words w)
      (decodeMaj0D_encodes _ next (major_of_toNat hm))
  · next hm => exact encodes_short hm (by decide) hws (formR_words w) (decodeMaj10_encodes _ (major_of_toNat hm))
  · next hm => exact encodes_short hm (by decide) hws (formR_words w) (decodeMaj11_encodes _ (major_of_toNat hm))
  · next hm => exact encodes_short hm (by decide) hws (formR_words w) (decodeMaj12_encodes _ (major_of_toNat hm))
  · next hm => exact encodes_short hm (by decide) hws (formM_words w) (decodeMaj18_encodes _ (major_of_toNat hm))
  · next hm => exact encodes_short hm (by decide) hws (formM_words w) (decodeMaj19_encodes _ (major_of_toNat hm))
  · next hm => exact encodes_short hm (by decide) hws (formM_words w) (decodeMaj1A_encodes _ (major_of_toNat hm))
  · next hm => exact encodes_short hm (by decide) hws (formM_words w) (decodeMaj1B_encodes _ (major_of_toNat hm))
  · next hm => exact encodes_short hm (by decide) hws (formM_words w) (decodeMaj1C_encodes _ (major_of_toNat hm))
  · next hm => exact encodes_short hm (by decide) hws (formM_words w) (decodeMaj1D_encodes _ (major_of_toNat hm))
  · next hm => exact encodes_short hm (by decide) hws (formM_words w) (decodeMaj1E_encodes _ (major_of_toNat hm))
  · next hm => exact encodes_short hm (by decide) hws (formM_words w) (decodeMaj20_encodes _ (major_of_toNat hm))
  · next hm => exact encodes_short hm (by decide) hws (formM_words w) (decodeMaj21_encodes _ (major_of_toNat hm))
  · next hm => exact encodes_short hm (by decide) hws (formM_words w) (decodeMaj22_encodes _ (major_of_toNat hm))
  · next hm => exact encodes_short hm (by decide) hws (formM_words w) (decodeMaj23_encodes _ (major_of_toNat hm))
  · next hm => exact encodes_short hm (by decide) hws (formM_words w) (decodeMaj24_encodes _ (major_of_toNat hm))
  · next hm => exact encodes_short hm (by decide) hws (formQ_words w) (decodeMaj28_encodes _ (major_of_toNat hm))
  · next hm => exact encodes_short hm (by decide) hws (formA_words w) (decodeMaj2F_encodes _ (major_of_toNat hm))
  · next hm => exact encodes_short hm (by decide) hws (formR_words w) (decodeMaj30_encodes _ (major_of_toNat hm))
  · next hm => exact encodes_short hm (by decide) hws (formI_words w) (decodeMaj31_encodes _ (major_of_toNat hm))
  · next hm => exact encodes_short hm (by decide) hws (formR_words w) (decodeMaj32_encodes _ (major_of_toNat hm))
  · next hm => exact encodes_short hm (by decide) hws (formR_words w) (decodeMaj33_encodes _ (major_of_toNat hm))
  · next hm => exact encodes_short hm (by decide) hws (formR_words w) (decodeMaj34_encodes _ (major_of_toNat hm))
  · next hm => exact encodes_short hm (by decide) hws (formQ_words w) (decodeMaj35_encodes _ (major_of_toNat hm))
  · next hm => exact encodes_short hm (by decide) hws (formM_words w) (decodeMaj36_encodes _ (major_of_toNat hm))
  · next hm => exact encodes_short hm (by decide) hws (formB_words w) (decodeMaj38_encodes _ (major_of_toNat hm))
  · next hm => exact encodes_short hm (by decide) hws (formB_words w) (decodeMaj39_encodes _ (major_of_toNat hm))
  · next hm => exact encodes_short hm (by decide) hws (formB_words w) (decodeMaj3A_encodes _ (major_of_toNat hm))
  · next hm => exact encodes_short hm (by decide) hws (formR_words w) (decodeMaj3B_encodes _ (major_of_toNat hm))
  · next hm => exact encodes_short hm (by decide) hws (formI_words w) (decodeMaj3C_encodes _ (major_of_toNat hm))
  · next hm =>
    exact encodes_long (by simp [isLong, major_of_toNat hm]) hws (formI_words w)
      (decodeMaj3D_encodes _ next (major_of_toNat hm))
  · next hm => exact encodes_short hm (by decide) hws (formI_words w) (decodeMaj3E_encodes _ (major_of_toNat hm))
  · next hm => exact encodes_short hm (by decide) hws (formQ_words w) (decodeMaj40_encodes _ (major_of_toNat hm))
  · next hm => exact encodes_short hm (by decide) hws (formQ_words w) (decodeMaj41_encodes _ (major_of_toNat hm))
  · next hm => exact encodes_short hm (by decide) hws (formQ_words w) (decodeMaj42_encodes _ (major_of_toNat hm))
  · next hm => exact encodes_short hm (by decide) hws (formQ_words w) (decodeMaj43_encodes _ (major_of_toNat hm))
  · next hm => exact encodes_short hm (by decide) hws (formQ_words w) (decodeMaj44_encodes _ (major_of_toNat hm))
  · next hm => exact encodes_short hm (by decide) hws (formQ_words w) (decodeMaj45_encodes _ (major_of_toNat hm))
  · next hm => exact encodes_short hm (by decide) hws (formQ_words w) (decodeMaj46_encodes _ (major_of_toNat hm))
  · next hm => exact encodes_short hm (by decide) hws (formQ_words w) (decodeMaj47_encodes _ (major_of_toNat hm))
  · next hm => exact encodes_short hm (by decide) hws (formI_words w) (decodeMaj48_encodes _ (major_of_toNat hm))
  · next hm => exact encodes_short hm (by decide) hws (formQ_words w) (decodeMaj50_encodes _ (major_of_toNat hm))
  · next hm => exact encodes_short hm (by decide) hws (formQ_words w) (decodeMaj51_encodes _ (major_of_toNat hm))
  · next hm => exact encodes_short hm (by decide) hws (formQ_words w) (decodeMaj52_encodes _ (major_of_toNat hm))
  · next hm => exact encodes_short hm (by decide) hws (formQ_words w) (decodeMaj53_encodes _ (major_of_toNat hm))
  · next hm => exact encodes_short hm (by decide) hws (formQ_words w) (decodeMaj54_encodes _ (major_of_toNat hm))
  · next hm => exact encodes_short hm (by decide) hws (formR_words w) (decodeMaj55_encodes _ (major_of_toNat hm))
  · next hm => exact encodes_short hm (by decide) hws (formR_words w) (decodeMaj56_encodes _ (major_of_toNat hm))
  · next hm => exact encodes_short hm (by decide) hws (formQ_words w) (decodeMaj58_encodes _ (major_of_toNat hm))
  · next hm => exact encodes_short hm (by decide) hws (formA_words w) (decodeMaj59_encodes _ (major_of_toNat hm))
  · next hm => exact encodes_short hm (by decide) hws (formR_words w) (decodeMaj5A_encodes _ (major_of_toNat hm))
  · next hm => exact encodes_short hm (by decide) hws (formR_words w) (decodeMaj5B_encodes _ (major_of_toNat hm))
  · next hm => exact encodes_short hm (by decide) hws (formI_words w) (decodeMaj5C_encodes _ (major_of_toNat hm))
  · next hm => exact encodes_short hm (by decide) hws (formR_words w) (decodeMaj5D_encodes _ (major_of_toNat hm))
  · next hm => exact encodes_short hm (by decide) hws (formI_words w) (decodeMaj5E_encodes _ (major_of_toNat hm))
  · next hm => exact encodes_short hm (by decide) hws (formQ_words w) (decodeMaj60_encodes _ (major_of_toNat hm))
  · next hm => exact encodes_short hm (by decide) hws (formQ_words w) (decodeMaj61_encodes _ (major_of_toNat hm))
  · next hm => exact encodes_short hm (by decide) hws (formQ_words w) (decodeMaj62_encodes _ (major_of_toNat hm))
  · next hm => exact encodes_short hm (by decide) hws (formQ_words w) (decodeMaj63_encodes _ (major_of_toNat hm))
  · next hm => exact encodes_short hm (by decide) hws (formQ_words w) (decodeMaj64_encodes _ (major_of_toNat hm))
  · next hm => exact encodes_short hm (by decide) hws (formB_words w) (decodeMaj65_encodes _ (major_of_toNat hm))
  · next hm => exact encodes_short hm (by decide) hws (formQ_words w) (decodeMaj66_encodes _ (major_of_toNat hm))
  · next hm => exact encodes_short hm (by decide) hws (formQ_words w) (decodeMaj67_encodes _ (major_of_toNat hm))
  · next hm => exact encodes_short hm (by decide) hws (formQ_words w) (decodeMaj68_encodes _ (major_of_toNat hm))
  · next hm => exact encodes_short hm (by decide) hws (formQ_words w) (decodeMaj69_encodes _ (major_of_toNat hm))
  · next hm => exact encodes_short hm (by decide) hws (formQ_words w) (decodeMaj6A_encodes _ (major_of_toNat hm))
  · next hm => exact encodes_short hm (by decide) hws (formQ_words w) (decodeMaj6B_encodes _ (major_of_toNat hm))
  · next hm => exact encodes_short hm (by decide) hws (formQ_words w) (decodeMaj6C_encodes _ (major_of_toNat hm))
  · next hm => exact encodes_short hm (by decide) hws (formQ_words w) (decodeMaj6D_encodes _ (major_of_toNat hm))
  · next hm => exact encodes_short hm (by decide) hws (formQ_words w) (decodeMaj6E_encodes _ (major_of_toNat hm))
  · next hm => exact encodes_short hm (by decide) hws (formQ_words w) (decodeMaj70_encodes _ (major_of_toNat hm))
  · next hm => exact encodes_short hm (by decide) hws (formQ_words w) (decodeMaj71_encodes _ (major_of_toNat hm))
  · next hm => exact encodes_short hm (by decide) hws (formQ_words w) (decodeMaj72_encodes _ (major_of_toNat hm))
  · next hm => exact encodes_short hm (by decide) hws (formQ_words w) (decodeMaj73_encodes _ (major_of_toNat hm))
  · next hm => exact encodes_short hm (by decide) hws (formQ_words w) (decodeMaj74_encodes _ (major_of_toNat hm))
  · next hm => exact encodes_short hm (by decide) hws (formA_words w) (decodeMaj75_encodes _ (major_of_toNat hm))
  · next hm => exact encodes_short hm (by decide) hws (formA_words w) (decodeMaj76_encodes _ (major_of_toNat hm))
  · next hm => exact encodes_short hm (by decide) hws (formR_words w) (decodeMaj77_encodes _ (major_of_toNat hm))
  · next hm => exact encodes_short hm (by decide) hws (formQ_words w) (decodeMaj78_encodes _ (major_of_toNat hm))
  · next hm => exact encodes_short hm (by decide) hws (formQ_words w) (decodeMaj79_encodes _ (major_of_toNat hm))
  · next hm => exact encodes_short hm (by decide) hws (formA_words w) (decodeMaj7A_encodes _ (major_of_toNat hm))
  · next hm => exact encodes_short hm (by decide) hws (formR_words w) (decodeMaj7B_encodes _ (major_of_toNat hm))
  · next hm => exact encodes_short hm (by decide) hws (formQ_words w) (decodeMaj7C_encodes _ (major_of_toNat hm))
  · next hm => exact encodes_short hm (by decide) hws (formI_words w) (decodeMaj7D_encodes _ (major_of_toNat hm))
  · exact encodes_error

/-! ## Every doubleword (02/R32-R36) -/

theorem fword_bits (w : Word) : FWord.toBits (w.extractLsb' 56 8) (FWord.ofBits w) = w := by
  simp only [FWord.toBits, FWord.ofBits]
  rw [append_extract (m := 8) (n := 3) (b := 53) rfl,
    append_extract (m := 11) (n := 2) (b := 51) rfl,
    append_extract (m := 13) (n := 3) (b := 48) rfl,
    append_extract (m := 16) (n := 3) (b := 45) rfl,
    append_extract (m := 19) (n := 3) (b := 42) rfl,
    append_extract (m := 22) (n := 3) (b := 39) rfl,
    append_extract (m := 25) (n := 9) (b := 30) rfl,
    append_extract (m := 34) (n := 9) (b := 21) rfl,
    append_extract (m := 43) (n := 21) (b := 0) rfl]
  exact BitVec.extractLsb'_eq_self

/-- An instruction of the fabric is its doubleword, low half first. -/
theorem encode_fabricOf {opc : BitVec 8} {f : FWord} {i : Instr} (h : fabricOf opc f = some i) :
    encode i = [(FWord.toBits opc f).extractLsb' 0 32, (FWord.toBits opc f).extractLsb' 32 32] := by
  unfold fabricOf at h
  split at h
  all_goals cases h
  all_goals
    next hm =>
      obtain rfl := opcode_of_toNat hm
      simp only [encode]

theorem decodeFabric_encodes (w : Word) : Encodes [w.extractLsb' 0 32, w.extractLsb' 32 32] (decodeFabric w) := by
  unfold decodeFabric
  split
  · exact encodes_error
  · next i hi =>
    split
    · next hw =>
      intro j hj
      cases hj
      exact ⟨hw, by rw [encode_fabricOf hi, fword_bits]⟩
    · exact encodes_error

/-- Settles O57: each major opcode by its table, and the fabric's opcodes by theirs. -/
theorem nothingDroppedInDecoding : Obligations.NothingDroppedInDecoding := by
  unfold Obligations.NothingDroppedInDecoding
  exact ⟨fun w next => decodeWords_encodes rfl, decodeFabric_encodes⟩

end Sys2Proof.Proofs.Decoding
end


section
/-! PROOFS. The compute instructions of the fabric (10/R233-R254). -/

namespace Sys2Proof.Proofs.Compute

open Sys2Proof Sys2Proof.Machine Sys2Proof.Proofs.Running

/-! ## Firing (10/R234, R235) -/

section Firing

variable {s : State} {f : FWord} {k k' : CastLive} {a b : Billet} {op : Billet → Billet → W32 → Fired}

theorem atNode_turn (ht : NodeTurn s k) (body : NodeRef → CastLive → State) : atNode s body = .next (body s.node k) := by
  obtain ⟨hl, ha⟩ := ht
  simp only [atNode, hl, ha, if_true]

theorem not_isMarker_of_isData (h : isData a = true) : isMarker a = false := by
  simp only [isData, decide_eq_true_eq] at h
  simp [isMarker, h]

/-- A node of one input whose head is a, and whose targets have room. -/
theorem takeOne_room {go : NodeRef → CastLive → Billet → CastLive} (ht : NodeTurn s k) (ha : headA k s.node = some a)
    (hr : roomFor (takeA k s.node) s.node (targetsOf f) = true) :
    takeOne s f go = .next (if isMarker a then passMarker s s.node f (takeA k s.node) a
      else putCast s s.node (go s.node (takeA k s.node) a)) := by
  rw [takeOne, atNode_turn ht]
  simp only [ha, hr, Bool.not_true, Bool.false_eq_true, if_false]

theorem takeOne_full {go : NodeRef → CastLive → Billet → CastLive} (ht : NodeTurn s k) (ha : headA k s.node = some a)
    (hr : roomFor (takeA k s.node) s.node (targetsOf f) = false) : takeOne s f go = .next s := by
  rw [takeOne, atNode_turn ht]
  simp only [ha, hr, Bool.not_false, if_true]

theorem takeOne_empty {go : NodeRef → CastLive → Billet → CastLive} (ht : NodeTurn s k) (ha : headA k s.node = none) :
    takeOne s f go = .next s := by
  rw [takeOne, atNode_turn ht]
  simp only [ha]

theorem fire_one (hb : imBsrc f ≠ 1) :
    fire s f op = passOne s f fun k a => if isData a then applyOp f op s.node k a a else (k, a) := if_neg hb

theorem fire_two (hb : imBsrc f = 1) (ht : NodeTurn s k) : fire s f op = .next (fireTwo s f op s.node k) :=
  (if_pos hb).trans (atNode_turn ht _)

/-- What an operation that is applied leaves, placed on the targets. -/
theorem fired_applyOp (hp : pmHolds f a.tag = true) :
    (.next (putCast s s.node (emitTo (applyOp f op s.node k' a b).1 s.node (targetsOf f) (applyOp f op s.node k' a b).2)) : Answer) =
      fired s f k' (op a b (nodeAt k' s.node).gen) := by
  simp only [applyOp, hp, Bool.not_true, Bool.false_eq_true, if_false]
  rfl

/-- A compute instruction that fires applies its operation. -/
theorem fire_eq (h : Fires s f k k' a b) : fire s f op = fired s f k' (op a b (nodeAt k' s.node).gen) := by
  obtain ⟨ht, ha, da, db, hp, hin, hr⟩ := h
  have ma := not_isMarker_of_isData da
  by_cases hb : imBsrc f = 1
  · rw [if_pos hb] at hin
    obtain ⟨hhb, rfl⟩ := hin
    have mb := not_isMarker_of_isData db
    rw [fire_two hb ht, ← fired_applyOp hp]
    simp only [fireTwo, ha, hhb, ma, mb, hr, da, db, Bool.false_eq_true, and_self, or_self, if_false, Bool.not_true]
  · rw [if_neg hb] at hin
    obtain ⟨rfl, rfl⟩ := hin
    rw [fire_one hb, passOne, takeOne_room ht ha hr, if_neg (by simp [ma]), ← fired_applyOp hp]
    simp only [da, if_true]

/-- Every compute instruction fires in the way that the four above say. -/
theorem exists_fire_of_mem {i : Instr} (hi : i ∈ computeInstrs f) : ∃ op, exec i s = fire s f op := by
  simp only [computeInstrs, List.mem_cons, List.not_mem_nil, or_false] at hi
  repeat' obtain rfl | hi := hi
  all_goals exact ⟨_, rfl⟩

/-! ## Passing (09/R216, R219, R220) -/

/-- A billet that the operation does not compute on passes. -/
theorem passOne_passes (ht : NodeTurn s k) (ha : headA k s.node = some a) (hb : imBsrc f ≠ 1)
    (hr : roomFor (takeA k s.node) s.node (targetsOf f) = true) (hm : isMarker a = false)
    (hp : isData a = false ∨ pmHolds f a.tag = false) : fire s f op = passes s f (takeA k s.node) a := by
  rw [fire_one hb, passOne, takeOne_room ht ha hr, if_neg (by simp [hm])]
  rcases hp with h | h
  · simp only [h, Bool.false_eq_true, if_false]; rfl
  · by_cases hd : isData a = true
    · simp only [hd, if_true, applyOp, h, Bool.not_false]; rfl
    · simp only [hd, Bool.false_eq_true, if_false]; rfl

section Two

variable {n : NodeRef} (ha : headA k n = some a) (hb : headB k n = some b)
include ha hb

theorem fireTwo_sequence (ma : isMarker a = true) (mb : isMarker b = true) (hs : tagSeq a.tag ≠ tagSeq b.tag) :
    fireTwo s f op n k = markerFault s n := by
  simp only [fireTwo, ha, hb, ma, mb, and_self, if_true, if_pos hs]

theorem fireTwo_mixed (hm : isMarker a ≠ isMarker b) : fireTwo s f op n k = markerFault s n := by
  cases ma : isMarker a <;> cases mb : isMarker b <;> simp_all [fireTwo]

theorem fireTwo_full (hm : isMarker a = isMarker b) (hs : isMarker a = true → tagSeq a.tag = tagSeq b.tag)
    (hr : roomFor (takeB (takeA k n) n) n (targetsOf f) = false) : fireTwo s f op n k = s := by
  cases ma : isMarker a
  · simp [fireTwo, ha, hb, ma, ← hm, hr]
  · simp [fireTwo, ha, hb, ma, ← hm, hr, hs ma]

theorem fireTwo_marker (ma : isMarker a = true) (mb : isMarker b = true) (hs : tagSeq a.tag = tagSeq b.tag)
    (hr : roomFor (takeB (takeA k n) n) n (targetsOf f) = true) :
    fireTwo s f op n k = passMarker s n f (takeB (takeA k n) n) a := by
  simp only [fireTwo, ha, hb, ma, mb, hr, hs, and_self, if_true, ne_eq, not_true_eq_false, if_false]

/-- Two billets of which none is a marker: a token passes, and data on which the predicate does not hold. -/
theorem fireTwo_passes {c : Billet} (ma : isMarker a = false) (mb : isMarker b = false)
    (hr : roomFor (takeB (takeA k n) n) n (targetsOf f) = true)
    (hc : isData a = false ∧ c = a ∨ isData a = true ∧ isData b = false ∧ c = b ∨
      isData a = true ∧ isData b = true ∧ pmHolds f a.tag = false ∧ c = a) :
    fireTwo s f op n k = putCast s n (emitTo (takeB (takeA k n) n) n (targetsOf f) c) := by
  simp only [fireTwo, ha, hb, ma, mb, hr, Bool.false_eq_true, and_self, or_self, if_false, Bool.not_true]
  rcases hc with ⟨da, rfl⟩ | ⟨da, db, rfl⟩ | ⟨da, db, hp, rfl⟩
  · simp only [da, Bool.not_false, if_true]
  · simp only [da, db, Bool.not_true, Bool.false_eq_true, if_false, Bool.not_false, if_true]
  · simp only [da, db, Bool.not_true, Bool.false_eq_true, if_false, applyOp, hp, Bool.not_false, if_true]

end Two

/-- Settles O41: the branches of a firing, for one input and for two. -/
theorem computePassing : Obligations.ComputePassing := by
  unfold Obligations.ComputePassing
  intro s f k a b ht i hi n k1 k2
  obtain ⟨op, hop⟩ := exists_fire_of_mem (s := s) hi
  rw [hop]
  refine ⟨fun ha => ?_, fun hb ha => ⟨fun hr => ?_, fun hr => ⟨fun hm => ?_, passOne_passes ht ha hb hr⟩⟩, fun hb ha => ?_⟩
  · by_cases hb : imBsrc f = 1
    · rw [fire_two hb ht]
      simp only [fireTwo]
      rw [ha]
    · rw [fire_one hb]
      exact takeOne_empty ht ha
  · rw [fire_one hb]
    exact takeOne_full ht ha hr
  · rw [fire_one hb, passOne, takeOne_room ht ha hr, if_pos hm]
  · have ends {z : State} (h : fireTwo s f op n k = z) : fire s f op = .next z := by rw [fire_two hb ht, h]
    refine ⟨fun h => ends ?_, fun h => ⟨fun ma mb hs => ends (fireTwo_sequence ha h ma mb hs), fun hm => ends (fireTwo_mixed ha h hm),
      fun hm hs => ⟨fun hr => ends (fireTwo_full ha h hm hs hr), fun hr => ⟨fun ma => ?_, fun ma da => ?_, fun da mb db => ?_,
      fun da db hp => ?_⟩⟩⟩⟩
    · simp only [fireTwo]
      rw [ha, h]
    · exact ends (fireTwo_marker ha h ma (hm ▸ ma) (hs ma) hr)
    · exact ends (fireTwo_passes ha h ma (hm ▸ ma) hr (.inl ⟨da, rfl⟩))
    · exact ends (fireTwo_passes ha h (not_isMarker_of_isData da) mb hr (.inr (.inl ⟨da, db, rfl⟩)))
    · exact ends (fireTwo_passes ha h (not_isMarker_of_isData da) (not_isMarker_of_isData db) hr (.inr (.inr ⟨da, db, hp, rfl⟩)))

end Firing

/-! ## The instructions that round (10/R244-R254) -/

section Rounding

variable {s : State} {f : FWord} {k k' : CastLive} {a b : Billet}

theorem all_en_iff (v : View) : (List.range v.n).all v.en = true ↔ ∀ i < v.n, v.en i = true := by simp

theorem execRed_discards (h : Fires s f k k' a b) (hm : bits (imLow f) 5 4 = 2) (hn : ∃ i < (viewOf f 0 a b).n, (viewOf f 0 a b).en i = false) :
    exec (.red f) s = fired s f k' ⟨setKind a 3, 0, (nodeAt k' s.node).gen⟩ := by
  have masked : (!(List.range (viewOf f 0 a b).n).all (viewOf f 0 a b).en) = true := by
    obtain ⟨i, hi, he⟩ := hn
    rw [Bool.not_eq_true', ← Bool.not_eq_true, all_en_iff]
    exact fun h => by simp [h i hi] at he
  exact (fire_eq h).trans (congrArg _ (if_pos ⟨hm, masked⟩))

theorem execRed_reduces (h : Fires s f k k' a b)
    (hn : bits (imLow f) 5 4 ≠ 2 ∨ ∀ i < (viewOf f 0 a b).n, (viewOf f 0 a b).en i = true) :
    exec (.red f) s = fired s f k' (
      let v := viewOf f 0 a b
      let r := redTree f v.w 6 ((List.range v.n).map (redLeaf f v)) 0 (nodeAt k' s.node).gen
      ⟨outBillet f a (laneSet v.w v.vv 0 r.bits), r.fl, r.gen⟩) := by
  refine (fire_eq h).trans (congrArg _ (if_neg ?_))
  rintro ⟨hm, hall⟩
  rw [Bool.not_eq_true', ← Bool.not_eq_true, all_en_iff] at hall
  exact hn.elim (· hm) hall

/-- Settles O39: each instruction fires with the operation that its row of the tables gives. -/
theorem roundingResults : Obligations.RoundingResults := by
  unfold Obligations.RoundingResults
  intro s f k k' a b h
  exact ⟨fire_eq h, fire_eq h, fire_eq h, fire_eq h, fire_eq h, fire_eq h, fire_eq h, fire_eq h, fire_eq h, fire_eq h, fire_eq h,
    fire_eq h, fire_eq h, fire_eq h, fire_eq h, ⟨_, rfl, fire_eq h⟩, fire_eq h, fire_eq h, fire_eq h,
    execRed_discards h, fun hn => ⟨_, rfl, execRed_reduces h hn⟩⟩

end Rounding

end Sys2Proof.Proofs.Compute
end


section
/-! PROOFS. Lanes of a record, and the instructions that write them (10/R231-R243, R250-R252). -/

namespace Sys2Proof.Proofs.Lanes

open Sys2Proof Sys2Proof.Machine Sys2Proof.Proofs.Compute

/-! ## The bits of a lane -/

section Bits

variable {w v i j x m : Nat}

theorem testBit_laneAt (w v i k : Nat) : (laneAt w v i).testBit k = (decide (k < w) && v.testBit (w * i + k)) := by
  rw [laneAt, Nat.testBit_mod_two_pow, Nat.testBit_div_two_pow, Nat.add_comm]

/-- A lane that is set lies between the bits below and above it. -/
theorem laneSet_eq (w v i x : Nat) : laneSet w v i x = 2 ^ (w * i) * (2 ^ w * (v / 2 ^ (w * i) / 2 ^ w) + x % 2 ^ w) + v % 2 ^ (w * i) := by
  have low := Nat.div_add_mod v (2 ^ (w * i))
  have high := Nat.div_add_mod (v / 2 ^ (w * i)) (2 ^ w)
  simp only [laneSet, laneAt]
  generalize v / 2 ^ (w * i) = q at *
  generalize hp : 2 ^ (w * i) = p at *
  generalize q % 2 ^ w = l at *
  generalize q / 2 ^ w = r at *
  generalize v % p = c at *
  subst high low
  have : p * (2 ^ w * r + l) + c - l * p = p * (2 ^ w * r) + c := by
    rw [Nat.mul_add, Nat.mul_comm l p]
    omega
  rw [this, Nat.mul_add, Nat.mul_comm (x % 2 ^ w) p]
  omega

theorem testBit_laneSet (w v i x k : Nat) : (laneSet w v i x).testBit k =
    if k < w * i then v.testBit k else if k < w * i + w then x.testBit (k - w * i) else v.testBit k := by
  rw [laneSet_eq, Nat.testBit_two_pow_mul_add _ (Nat.mod_lt _ (Nat.two_pow_pos _))]
  split
  · next h => simp [h]
  · next h =>
    rw [Nat.testBit_two_pow_mul_add _ (Nat.mod_lt _ (Nat.two_pow_pos _))]
    by_cases hk : k < w * i + w
    · have : k - w * i < w := by omega
      simp [hk, this]
    · have : ¬ k - w * i < w := by omega
      simp only [hk, this, if_false, Nat.testBit_div_two_pow]
      congr 1
      omega

theorem laneAt_laneSet_self (w v i x : Nat) : laneAt w (laneSet w v i x) i = x % 2 ^ w := by
  refine Nat.eq_of_testBit_eq fun k => ?_
  rw [testBit_laneAt, testBit_laneSet, Nat.testBit_mod_two_pow]
  by_cases hk : k < w
  · simp [hk]
  · simp [hk]

theorem laneAt_laneSet_ne (h : j ≠ i) : laneAt w (laneSet w v i x) j = laneAt w v j := by
  refine Nat.eq_of_testBit_eq fun k => ?_
  rw [testBit_laneAt, testBit_laneAt, testBit_laneSet]
  by_cases hk : k < w
  · have apart : w * j + k < w * i ∨ ¬ w * j + k < w * i + w := by
      rcases Nat.lt_or_gt_of_ne h with h | h
      · have := Nat.mul_le_mul_left w h
        rw [Nat.mul_succ] at this
        omega
      · have := Nat.mul_le_mul_left w h
        rw [Nat.mul_succ] at this
        omega
    rcases apart with h | h
    · simp [h]
    · have : ¬ w * j + k < w * i := by omega
      simp [h, this]
  · simp [hk]

/-- The bits above lane i. -/
theorem laneSet_div (h : w * i + w ≤ m) : laneSet w v i x / 2 ^ m = v / 2 ^ m := by
  refine Nat.eq_of_testBit_eq fun k => ?_
  rw [Nat.testBit_div_two_pow, Nat.testBit_div_two_pow, testBit_laneSet, if_neg (by omega), if_neg (by omega)]

end Bits

/-! ## A record turned and turned back -/

/-- The two parts of a record of p × q values, exchanged. -/
theorem exchange_lt {r p q : Nat} (hr : r < p * q) (hq : 0 < q) : r / q + r % q * p < p * q := by
  have upper : r / q < p := (Nat.div_lt_iff_lt_mul hq).2 hr
  have lower : r % q + 1 ≤ q := Nat.mod_lt r hq
  calc r / q + r % q * p < p + r % q * p := Nat.add_lt_add_right upper _
    _ = (r % q + 1) * p := by rw [Nat.succ_mul, Nat.add_comm]
    _ ≤ q * p := Nat.mul_le_mul_right p lower
    _ = p * q := Nat.mul_comm ..

theorem exchange_back {r p q : Nat} (hr : r < p * q) (hq : 0 < q) :
    (r / q + r % q * p) / p + (r / q + r % q * p) % p * q = r := by
  have upper : r / q < p := (Nat.div_lt_iff_lt_mul hq).2 hr
  have hp : 0 < p := Nat.pos_of_ne_zero fun h => by simp [h] at upper
  rw [Nat.add_mul_div_right _ _ hp, Nat.add_mul_mod_self_right, Nat.div_eq_of_lt upper, Nat.mod_eq_of_lt upper, Nat.zero_add,
    Nat.mul_comm, Nat.mod_add_div]

/-- The places on the two sides of a turn. -/
theorem turn_parts {k : Nat} (hk : k < 8) : 2 ^ (256 - 32 * k) * 2 ^ (32 * k) = 2 ^ 256 := by
  rw [← Nat.pow_add]
  congr 1
  omega

theorem turnRec_lt {r k : Nat} (hr : r < 2 ^ 256) (hk : k < 8) : turnRec r k < 2 ^ 256 := by
  rw [← turn_parts hk] at hr ⊢
  exact exchange_lt hr (Nat.two_pow_pos _)

theorem turnRec_zero (r : Nat) : turnRec r 0 = r := by simp [turnRec, Nat.mod_one]

theorem turnRec_back {r k : Nat} (hr : r < 2 ^ 256) (hk : k < 8) : turnRec (turnRec r ((8 - k) % 8)) k = r := by
  obtain rfl | hk0 := Nat.eq_zero_or_pos k
  · rw [turnRec_zero]
    exact turnRec_zero r
  · have back : 256 - 32 * (8 - k) = 32 * k := by omega
    have there : 256 - 32 * k = 32 * (8 - k) := by omega
    rw [Nat.mod_eq_of_lt (by omega : 8 - k < 8)]
    simp only [turnRec, back, there]
    exact exchange_back (by rw [← turn_parts hk, there, Nat.mul_comm] at hr; exact hr) (Nat.two_pow_pos _)

/-! ## The lanes that a firing computes (10/R233) -/

section Lanes

variable {w : Nat} {val : Nat → Nat} {e : Nat → Flags}

/-- Lanes that draw nothing from the generator: each that is named takes its value, the others stay, and the generator too. -/
theorem runLanes_lanes (l : List Nat) (v : Nat) (g : W32) (hl : l.Nodup) :
    (runLanes w (fun i g => ⟨val i, e i, g⟩) l v g).2.2 = g ∧
    (∀ j, laneAt w (runLanes w (fun i g => ⟨val i, e i, g⟩) l v g).1 j = if j ∈ l then val j % 2 ^ w else laneAt w v j) := by
  induction l generalizing v with
  | nil => exact ⟨rfl, fun j => by simp [runLanes]⟩
  | cons i l ih =>
    obtain ⟨hi, hl⟩ := List.nodup_cons.1 hl
    obtain ⟨hg, hv⟩ := ih (laneSet w v i (val i)) hl
    refine ⟨hg, fun j => (hv j).trans ?_⟩
    by_cases hj : j = i
    · subst hj
      simp [hi, laneAt_laneSet_self]
    · simp [hj, laneAt_laneSet_ne hj]

/-- The bits above every lane that is named. -/
theorem runLanes_above {m : Nat} (op : Nat → W32 → Res) (l : List Nat) (v : Nat) (g : W32) (hl : ∀ i ∈ l, w * i + w ≤ m) :
    (runLanes w op l v g).1 / 2 ^ m = v / 2 ^ m := by
  induction l generalizing v g with
  | nil => rfl
  | cons i l ih =>
    rw [runLanes, ih _ _ fun j hj => hl j (List.mem_cons_of_mem _ hj), laneSet_div (hl i (List.mem_cons_self ..))]

theorem runLanes_lt {m : Nat} (op : Nat → W32 → Res) (l : List Nat) (v : Nat) (g : W32) (hl : ∀ i ∈ l, w * i + w ≤ m)
    (hv : v < 2 ^ m) : (runLanes w op l v g).1 < 2 ^ m := by
  have above := runLanes_above op l v g hl
  rw [Nat.div_eq_of_lt hv] at above
  exact (Nat.div_eq_zero_iff_lt (Nat.two_pow_pos m)).1 above

/-- The flags are those of the lanes together. -/
theorem runLanes_flags (l : List Nat) (v : Nat) (g : W32) (m : Nat) :
    (runLanes w (fun i g => ⟨val i, e i, g⟩) l v g).2.1.getLsbD m = l.any fun i => (e i).getLsbD m := by
  induction l generalizing v with
  | nil => simp [runLanes]
  | cons i l ih => simp [runLanes, ih]

end Lanes

/-! ## The target view of an instruction -/

section Target

variable {s : State} {f : FWord} {k k' : CastLive} {a b : Billet} {imm : Nat} {val : Nat → Nat} {e : Nat → Flags} {g : W32}
  {i : Instr}

theorem lanes_fit (f : FWord) (imm : Nat) (a b : Billet) : (viewOf f imm a b).n * (viewOf f imm a b).w ≤ 256 := by
  simp only [viewOf, shapeOf]
  split <;> decide

theorem view_lt (f : FWord) (imm : Nat) (a b : Billet) : (viewOf f imm a b).vv < 2 ^ 256 :=
  turnRec_lt a.data.isLt (f.fd.isLt)

theorem mem_lanes (v : View) (j : Nat) : j ∈ v.lanes ↔ j < v.n ∧ v.en j = true := by simp [View.lanes]

theorem lanes_below {v : View} : ∀ j ∈ v.lanes, v.w * j + v.w ≤ v.n * v.w := fun j hj => by
  have := Nat.mul_le_mul_left v.w ((mem_lanes v j).1 hj).1
  rw [Nat.mul_succ, Nat.mul_comm v.w v.n] at this
  exact this

theorem lanes_nodup (v : View) : v.lanes.Nodup := List.nodup_range.filter _

/-- The view that is read back from a record that was written. -/
theorem turnRec_outBillet {vv : Nat} (hv : vv < 2 ^ 256) : turnRec (outBillet f a vv).data.toNat f.fd.toNat = vv := by
  have fits := turnRec_lt hv (Nat.mod_lt (8 - f.fd.toNat) (by decide : 0 < 8))
  show turnRec (BitVec.ofNat 256 _).toNat f.fd.toNat = vv
  rw [BitVec.toNat_ofNat, Nat.mod_eq_of_lt fits]
  exact turnRec_back hv f.fd.isLt

/-- What a lane by lane operation that draws nothing leaves in the record. -/
theorem laneWise_lanes (f : FWord) (imm : Nat) (a b : Billet) (val : Nat → Nat) (e : Nat → Flags) (g : W32) :
    let v := viewOf f imm a b
    let q := laneWise v.w f v a g fun i g => ⟨val i, e i, g⟩
    q.gen = g ∧ (∀ m, q.fl.getLsbD m = v.lanes.any fun i => (e i).getLsbD m) ∧
    (∀ j < v.n, laneAt v.w (turnRec q.out.data.toNat f.fd.toNat) j = if v.en j then val j % 2 ^ v.w else v.v j) ∧
    turnRec q.out.data.toNat f.fd.toNat / 2 ^ (v.n * v.w) = v.vv / 2 ^ (v.n * v.w) := by
  intro v q
  obtain ⟨hg, hv⟩ := runLanes_lanes (w := v.w) (val := val) (e := e) v.lanes v.vv g (lanes_nodup v)
  have fits : (runLanes v.w (fun i g => ⟨val i, e i, g⟩) v.lanes v.vv g).1 < 2 ^ 256 :=
    runLanes_lt _ _ _ _ (fun j hj => (lanes_below j hj).trans (lanes_fit f imm a b)) (view_lt f imm a b)
  have back : turnRec q.out.data.toNat f.fd.toNat = (runLanes v.w (fun i g => ⟨val i, e i, g⟩) v.lanes v.vv g).1 :=
    turnRec_outBillet fits
  rw [back]
  refine ⟨hg, runLanes_flags _ _ _, fun j hj => (hv j).trans ?_, runLanes_above _ _ _ _ lanes_below⟩
  simp only [mem_lanes, hj, true_and]
  rfl

/-- An instruction whose lanes are the values `val`, and which raises nothing. -/
theorem lanesBecome (hx : exec i s = fired s f k' (laneWise (viewOf f imm a b).w f (viewOf f imm a b) a (nodeAt k' s.node).gen
      fun i g => ⟨val i, 0, g⟩)) : LanesBecome s f k' a (viewOf f imm a b) val i := by
  obtain ⟨hg, hf, hv, hd⟩ := laneWise_lanes f imm a b val (fun _ => 0) (nodeAt k' s.node).gen
  have quiet : (laneWise (viewOf f imm a b).w f (viewOf f imm a b) a (nodeAt k' s.node).gen fun i g => ⟨val i, 0, g⟩).fl = 0 :=
    BitVec.eq_of_getLsbD_eq fun m _ => (hf m).trans (by simp)
  refine ⟨_, hx.trans ?_, hv, hd⟩
  congr 1
  exact congr (congrArg (Fired.mk _) quiet) hg

/-- A view takes no value from the word where BSRC names an input. -/
theorem viewOf_noImm (h : imBsrc f ≠ 2) (imm : Nat) : viewOf f imm a b = viewOf f 0 a b := by simp [viewOf, h]

/-- The same, with the values in other words. -/
theorem lanesBecome_of_eq {val' : Nat → Nat} (hv : ∀ i, val' i = val i) (hx : exec i s = fired s f k'
      (laneWise (viewOf f imm a b).w f (viewOf f imm a b) a (nodeAt k' s.node).gen fun i g => ⟨val' i, 0, g⟩)) :
    LanesBecome s f k' a (viewOf f imm a b) val i := by
  obtain rfl : val' = val := funext hv
  exact lanesBecome hx

theorem minInt_eq (x y : Int) : minInt x y = min x y := by
  simp only [minInt]
  omega

theorem maxInt_eq (x y : Int) : maxInt x y = max x y := by
  simp only [maxInt]
  omega

theorem abs_eq (x : Int) : (if x < 0 then -x else x) = |x| := by
  rcases lt_or_ge x 0 with h | h
  · rw [if_pos h, abs_of_neg h]
  · rw [if_neg (by omega), abs_of_nonneg h]

/-- The value that a lane of `xl` takes where its read is empty (10 Table 10.10). -/
theorem xlEmpty_eq (mode x y : Nat) : (if mode = 0 then 0 else if mode = 1 then x else y) = match mode with | 0 => 0 | 1 => x | _ => y := by
  match mode with
  | 0 => rfl
  | 1 => rfl
  | n + 2 => rfl

theorem execXl_lanes (h : Fires s f k k' a b) (hb : imBsrc f ≠ 2)
    (hm : bits (imLow f) 10 9 ≠ 2 ∨ ∀ i ∈ (viewOf f (immInt f) a b).lanes, xlRead f (viewOf f (immInt f) a b) i ≠ none) :
    LanesBecome s f k' a (viewOf f (immInt f) a b) (fun i => (xlRead f (viewOf f (immInt f) a b) i).getD
      (match bits (imLow f) 10 9 with | 0 => 0 | 1 => (viewOf f (immInt f) a b).v i | _ => (viewOf f (immInt f) a b).b i)) (.xl f) := by
  rw [viewOf_noImm hb] at hm ⊢
  refine lanesBecome_of_eq (fun i => congrArg _ (xlEmpty_eq ..)) ((fire_eq h).trans (congrArg _ (if_neg ?_)))
  rintro ⟨h2, hany⟩
  obtain ⟨i, hi, hnone⟩ := List.any_eq_true.1 hany
  exact hm.elim (· h2) fun hm => hm i hi (by simpa using hnone)

theorem execXl_discards (h : Fires s f k k' a b) (h2 : bits (imLow f) 10 9 = 2) (hb : imBsrc f ≠ 2)
    (hm : ∃ i ∈ (viewOf f (immInt f) a b).lanes, xlRead f (viewOf f (immInt f) a b) i = none) :
    exec (.xl f) s = fired s f k' ⟨setKind a 3, 0, (nodeAt k' s.node).gen⟩ := by
  rw [viewOf_noImm hb] at hm
  obtain ⟨i, hi, hnone⟩ := hm
  exact (fire_eq h).trans (congrArg _ (if_pos ⟨h2, List.any_eq_true.2 ⟨i, hi, by simp [hnone]⟩⟩))

/-- Where BSRC names the word, lane i of B is the word's value. -/
theorem viewB_imm (hb : imBsrc f = 2) (imm i : Nat) : (viewOf f imm a b).b i = imm := by simp [View.b, viewOf, hb]

theorem execConst_lanes (h : Fires s f k k' a b) (hb : imBsrc f = 2) {x : Nat} (hx : (if bit f.imm.toNat 18 then immFl f else immInt f) = x) :
    LanesBecome s f k' a (viewOf f (immInt f) a b) (fun _ => x) (.const f) :=
  lanesBecome_of_eq (fun i => (viewB_imm hb _ i).trans hx) (fire_eq h)

/-- Settles O37: each instruction fires lane by lane, and its lanes are the values of its row. -/
theorem laneResults : Obligations.LaneResults := by
  unfold Obligations.LaneResults
  intro s f k k' a b h v w x y z become
  refine ⟨lanesBecome (fire_eq h), lanesBecome (fire_eq h), lanesBecome (fire_eq h), lanesBecome (fire_eq h),
    lanesBecome_of_eq (fun i => congrArg (satLane f w) (minInt_eq (x i) (y i))) (fire_eq h),
    lanesBecome_of_eq (fun i => congrArg (satLane f w) (maxInt_eq (x i) (y i))) (fire_eq h),
    lanesBecome_of_eq (fun i => congrArg (satLane f w) (abs_eq (x i))) (fire_eq h),
    lanesBecome_of_eq (fun i => congrArg (satLane f w) ((minInt_eq _ (z i)).trans (congrArg (min · (z i)) (maxInt_eq (x i) (y i)))))
      (fire_eq h),
    lanesBecome (fire_eq h), lanesBecome (fire_eq h), lanesBecome (fire_eq h), lanesBecome (fire_eq h), lanesBecome (fire_eq h),
    lanesBecome (fire_eq h), lanesBecome (fire_eq h), fun hb h18 => execConst_lanes h hb (if_neg (by simp [h18])),
    fun hb h18 => execConst_lanes h hb (if_pos h18), fun hb => ?_, fun hb => ?_, fun hm hb => execXl_lanes h hb hm,
    fun h2 hb hm => execXl_discards h h2 hb hm, lanesBecome (fire_eq h)⟩
  · have same : v = viewOf f 0 a b := viewOf_noImm (by omega) _
    exact lanesBecome_of_eq (fun i => by rw [same]) (fire_eq h)
  · have same : v = viewOf f 0 a b := viewOf_noImm hb _
    exact lanesBecome_of_eq (fun i => by rw [same]; rfl) (fire_eq h)

/-! ## Compares (10/R240, R241) -/

/-- The mask of a lane is a value of the lane. -/
theorem maskLane_mod (w : Nat) (c : Bool) : maskLane w c % 2 ^ w = if c then 2 ^ w - 1 else 0 := by
  have := Nat.two_pow_pos w
  cases c
  · exact Nat.zero_mod _
  · exact Nat.mod_eq_of_lt (by show 2 ^ w - 1 < 2 ^ w; omega)

/-- The billet of a compare, its predicate bit put as PMODE asks. -/
def tagged (f : FWord) (a : Billet) (v : View) (c : Nat → Bool) (r : BitVec 256) : Billet :=
  let o : Billet := { a with data := r }
  match bits (imLow f) 5 4 with
  | 1 => putPred o (bits (imLow f) 7 6) (v.lanes.any c)
  | 2 => putPred o (bits (imLow f) 7 6) (v.lanes.all c)
  | _ => o

/-- A compare by a condition that may raise flags. -/
theorem fireCmp_lanes (h : Fires s f k k' a b) (cond : View → Nat → Bool × Flags) :
    let v := viewOf f 0 a b
    ∃ (r : BitVec 256) (e : Flags), fireCmp s f cond =
        fired s f k' ⟨tagged f a v (fun i => (cond v i).1) r, e, (nodeAt k' s.node).gen⟩ ∧
      (∀ j < v.n, laneAt v.w (turnRec r.toNat f.fd.toNat) j = if v.en j then (if (cond v j).1 then 2 ^ v.w - 1 else 0) else v.v j) ∧
      turnRec r.toNat f.fd.toNat / 2 ^ (v.n * v.w) = v.vv / 2 ^ (v.n * v.w) ∧
      ∀ m, e.getLsbD m = v.lanes.any fun i => (cond v i).2.getLsbD m := by
  intro v
  obtain ⟨hg, hf, hv, hd⟩ := laneWise_lanes f 0 a b (fun i => maskLane v.w (cond v i).1) (fun i => (cond v i).2)
    (nodeAt k' s.node).gen
  refine ⟨_, _, (fire_eq h).trans ?_, fun j hj => (hv j hj).trans (congrArg (fun x => if v.en j = true then x else v.v j) (maskLane_mod ..)), hd, hf⟩
  congr 1
  exact congr (congr (congrArg Fired.mk rfl) rfl) hg

/-- Settles O38: the two compares, by their conditions. -/
theorem compareNodes : Obligations.CompareNodes := by
  unfold Obligations.CompareNodes
  intro s f k k' a b h hb v fl cc ci cf
  have integers := fireCmp_lanes h fun v i => (ccInt (bits (imLow f) 10 8) (rdLane f v.w (v.a i)) (rdLane f v.w (v.b i)), 0)
  have floats := fireCmp_lanes h fun v i =>
    ccFl (bits (imLow f) 10 8) ((laneFl v.w (imAlt f)).unpack (v.a i)) ((laneFl v.w (imAlt f)).unpack (v.b i))
  obtain ⟨r, e, hx, hv, hd, hf⟩ := integers
  have quiet : e = 0 := BitVec.eq_of_getLsbD_eq fun m _ => (hf m).trans (by simp)
  rw [quiet] at hx
  exact ⟨⟨r, hx, hv, hd⟩, floats⟩

end Target

end Sys2Proof.Proofs.Lanes
end


section
/-! PROOFS. Flow nodes and `cfg.tok` (11/R262-R271, R285). -/

namespace Sys2Proof.Proofs.FlowNodes

open Sys2Proof Sys2Proof.Machine Sys2Proof.Proofs.Compute

section Nodes

variable {s : State} {f : FWord} {k : CastLive} {a b c : Billet} (ht : NodeTurn s k)
include ht

/-! ## Nodes of one input -/

section OneInput

variable (ha : headA k s.node = some a) (hr : roomFor (takeA k s.node) s.node (targetsOf f) = true)
include ha hr

theorem takeOne_marker {go : NodeRef → CastLive → Billet → CastLive} (hm : isMarker a = true) :
    takeOne s f go = .next (passMarker s s.node f (takeA k s.node) a) := by
  rw [takeOne_room ht ha hr, if_pos hm]

theorem takeOne_billet {go : NodeRef → CastLive → Billet → CastLive} (hm : isMarker a = false) :
    takeOne s f go = .next (putCast s s.node (go s.node (takeA k s.node) a)) := by
  rw [takeOne_room ht ha hr, if_neg (by simp [hm])]

theorem execFilter_billet (hm : isMarker a = false) : exec (.filter f) s =
    (if isData a ∧ flowCond f a = false then
      (if bit f.imm.toNat 4 then .next (putCast s s.node (emitTo (takeA k s.node) s.node (targetsOf f) (setKind a 3)))
       else .next (putCast s s.node (takeA k s.node)))
     else .next (putCast s s.node (emitTo (takeA k s.node) s.node (targetsOf f) a))) := by
  show execFilter f s = _
  rw [execFilter, takeOne_billet ht ha hr hm]
  simp only [Bool.not_eq_true']
  split
  · split <;> rfl
  · rfl

theorem execSeq_room : exec (.seq f) s = .next (
    if isMarker a then passMarker s s.node f (nodeUpd (takeA k s.node) s.node fun x => { x with seq := 0 }) a
    else putCast s s.node (emitTo (nodeUpd (takeA k s.node) s.node fun x => { x with seq := (nodeAt k s.node).seq + 1 }) s.node
      (targetsOf f) (setSeq a (nodeAt k s.node).seq.toNat))) := by
  show execSeq f s = _
  rw [execSeq, atNode_turn ht]
  simp only [ha, hr, Bool.not_true, Bool.false_eq_true, if_false]

end OneInput

/-! ## `gate` (11/R269) -/

theorem execGate_passes (ha : headA k s.node = some a) (da : isData a = true) (hc : headC k s.node = none)
    (hr : roomFor (takeA k s.node) s.node (targetsOf f) = true) (hp : 0 < (nodeAt k s.node).credit) :
    exec (.gate f) s = .next (putCast s s.node (nodeUpd (emitTo (takeA k s.node) s.node (targetsOf f) a) s.node fun x =>
      { x with credit := (nodeAt k s.node).credit - 1 })) := by
  have credited : ¬ ((nodeAt k s.node).credit = 0) := by omega
  show execGate f s = _
  rw [execGate, atNode_turn ht]
  simp only [ha, hc, hr, da, not_isMarker_of_isData da, credited, Bool.false_eq_true, if_false, Bool.not_true, and_false, or_self,
    if_true]

theorem execGate_waits (ha : headA k s.node = some a) (da : isData a = true) (hc : headC k s.node = none)
    (hp : (nodeAt k s.node).credit = 0) :
    exec (.gate f) s = .next (putCast s s.node (nodeUpd k s.node fun x => { x with credit := 0 })) := by
  show execGate f s = _
  rw [execGate, atNode_turn ht]
  simp only [ha, hc, da, not_isMarker_of_isData da, hp, Bool.false_eq_true, if_false, and_self, or_true, if_true]

theorem execGate_credits (ha : headA k s.node = none) (hc : headC k s.node = some b) (hm : isMarker b = false)
    (hp : (nodeAt k s.node).credit < 65535) :
    exec (.gate f) s = .next (putCast s s.node (nodeUpd (takeC k s.node) s.node fun x =>
      { x with credit := (nodeAt k s.node).credit + 1 })) := by
  show execGate f s = _
  rw [execGate, atNode_turn ht]
  simp only [ha, hc, hm, hp, Bool.not_false, decide_true, Bool.and_self, if_true]

/-! ## `merge.u` and `recirc` (11/R267, R268) -/

theorem execMergeU_a (ha : headA k s.node = some a) (hb : headB k s.node = none) (hm : isMarker a = false)
    (hr : roomFor (takeA k s.node) s.node (targetsOf f) = true) : exec (.mergeU f) s = passes s f (takeA k s.node) a := by
  show execMergeU f s = _
  rw [execMergeU, atNode_turn ht]
  simp only [ha, hb, hm, hr, Bool.false_eq_true, if_false, if_true]
  rfl

theorem execMergeU_b (ha : headA k s.node = none) (hb : headB k s.node = some b) (hm : isMarker b = false)
    (hr : roomFor (takeB k s.node) s.node (targetsOf f) = true) : exec (.mergeU f) s = passes s f (takeB k s.node) b := by
  show execMergeU f s = _
  rw [execMergeU, atNode_turn ht]
  simp only [ha, hb, hm, hr, Bool.false_eq_true, if_false, if_true]
  rfl

/-- With a billet at both inputs, b has its turn after a. -/
theorem execMergeU_turn (ha : headA k s.node = some a) (ma : isMarker a = false) (hb : headB k s.node = some b)
    (mb : isMarker b = false) (hl : (nodeAt k s.node).lastB = some false) :
    exec (.mergeU f) s = (let k' := takeB (nodeUpd k s.node fun x => { x with lastB := some true }) s.node
      if roomFor k' s.node (targetsOf f) then passes s f k' b else .next s) := by
  show execMergeU f s = _
  rw [execMergeU, atNode_turn ht]
  simp only [ha, hb, ma, mb, hl, Bool.false_eq_true, and_self, if_false, decide_true, if_true]
  split <;> rfl

theorem execRecirc_a (ha : headA k s.node = some a) (hb : headB k s.node = none) (hm : isMarker a = false)
    (hr : roomFor (takeA k s.node) s.node (targetsOf f) = true) (ho : (nodeAt k s.node).out = false) :
    exec (.recirc f) s = passes s f (takeA k s.node) a := by
  show execRecirc f s = _
  rw [execRecirc, atNode_turn ht]
  simp only [ha, hb, hm, hr, ho, Bool.false_eq_true, if_false, Bool.not_false, if_true]
  rfl

theorem execRecirc_b (hb : headB k s.node = some b) (hm : isMarker b = false)
    (hr : roomFor (takeB k s.node) s.node (targetsOf f) = true) : exec (.recirc f) s = passes s f (takeB k s.node) b := by
  show execRecirc f s = _
  rw [execRecirc, atNode_turn ht]
  simp only [hb, hm, hr, Bool.false_eq_true, if_false, if_true]
  rfl

/-! ## `merge` (11/R266) -/

section Merge

variable (ha : headA k s.node = some a) (ma : isMarker a = false) (hb : headB k s.node = none)
include ha hb

/-- With no marker at both inputs and no buffered billet whose turn it is, the heads are admitted. -/
theorem execMerge_admits (hf : (nodeAt k s.node).buf.find? (fun b => seqAhead (nodeAt k s.node).e b = 0) = none) :
    exec (.merge f) s = .next (mergeStep2 s s.node f) := by
  show execMerge f s = _
  rw [execMerge, atNode_turn ht]
  simp only [ha, hb]
  rw [hf]

include ma

/-- The step for the one head that stands at a. -/
theorem mergeStep2_one : mergeStep2 s s.node f =
    match mergeAdmit (mergeDepth f (blockAt k s.node.blk)) s.node [(a, false)] k with
    | .ok k => putCast s s.node k
    | .error k => nodeStop (putCast s s.node k) s.node ⟨cCast, 7, none, 0⟩ := by
  have heads : mergeHeads k s.node = [(a, false)] := by simp [mergeHeads, ha, hb, ma]
  simp only [mergeStep2, ht.1, heads] <;> rfl

theorem execMerge_buffers (he : (nodeAt k s.node).buf = []) (hs : seqAhead (nodeAt k s.node).e a < 32768)
    (hd : 0 < mergeDepth f (blockAt k s.node.blk)) :
    exec (.merge f) s = .next (putCast s s.node (nodeUpd (takeA k s.node) s.node fun y => { y with buf := y.buf ++ [a] })) := by
  rw [execMerge_admits ht ha hb (by simp [he]), mergeStep2_one ht ha ma hb]
  simp only [mergeAdmit, he, hs, List.any_nil, Bool.not_false, and_self, if_true, List.length_nil, hd, Bool.false_eq_true, if_false]

theorem execMerge_behind (he : (nodeAt k s.node).buf = []) (hs : 32768 ≤ seqAhead (nodeAt k s.node).e a) :
    exec (.merge f) s = .next (nodeStop (putCast s s.node k) s.node ⟨cCast, 7, none, 0⟩) := by
  have far : ¬ seqAhead (nodeAt k s.node).e a < 32768 := by omega
  rw [execMerge_admits ht ha hb (by simp [he]), mergeStep2_one ht ha ma hb]
  simp only [mergeAdmit, far, false_and, if_false]

theorem execMerge_twice (he : (nodeAt k s.node).buf = [c]) (hc : seqAhead (nodeAt k s.node).e c ≠ 0) (hs : tagSeq a.tag = tagSeq c.tag) :
    exec (.merge f) s = .next (nodeStop (putCast s s.node k) s.node ⟨cCast, 7, none, 0⟩) := by
  have waits : ((nodeAt k s.node).buf.any fun x => tagSeq x.tag = tagSeq a.tag) = true := by simp [he, hs]
  rw [execMerge_admits ht ha hb (by simp [he, hc]), mergeStep2_one ht ha ma hb]
  simp only [mergeAdmit, waits, Bool.not_true, Bool.false_eq_true, and_false, if_false]

end Merge

theorem execMerge_emits (hf : (nodeAt k s.node).buf.find? (fun b => seqAhead (nodeAt k s.node).e b = 0) = some c)
    (hr : roomFor k s.node (targetsOf f) = true) :
    exec (.merge f) s = .next (mergeStep2 (putCast s s.node (mergeEmit f s.node k c)) s.node f) := by
  show execMerge f s = _
  rw [execMerge, atNode_turn ht]
  simp only [hr, if_true]
  rw [hf]

end Nodes

/-- The flow nodes that treat a marker in no way of their own. -/
theorem exists_takeOne_of_mem {s : State} {f : FWord} {j : Instr}
    (hj : j ∈ ([.fork f, .steer f, .filter f, .mark f, .cfgTok f] : List Instr)) : ∃ go, exec j s = takeOne s f go := by
  simp only [List.mem_cons, List.not_mem_nil, or_false] at hj
  rcases hj with rfl | rfl | rfl | rfl | rfl
  · exact ⟨_, show execFork f s = _ by rw [execFork]⟩
  · exact ⟨_, show execSteer f s = _ by rw [execSteer]⟩
  · exact ⟨_, show execFilter f s = _ by rw [execFilter]⟩
  · exact ⟨_, show execMark f s = _ by rw [execMark, passOne]⟩
  · exact ⟨_, show execCfgTok f s = _ by rw [execCfgTok, passOne]⟩

/-- Settles O42, node by node. -/
theorem flowNodes : Obligations.FlowNodes := by
  unfold Obligations.FlowNodes
  refine ⟨fun s f k a b ht => ?_, fun s f k a c ht ha ma hb => ⟨execMerge_buffers ht ha ma hb, execMerge_behind ht ha ma hb,
    execMerge_twice ht ha ma hb, execMerge_emits ht⟩⟩
  intro n k1 i sends
  refine ⟨fun ha hr => ⟨fun hm j hj => ?_, fun hm => ?_, fun hm => ⟨?_, ?_, ?_, ?_, ?_, ?_⟩⟩, execGate_passes ht, execGate_waits ht,
    execGate_credits ht, fun ha hb hm hr => ⟨execMergeU_a ht ha hb hm hr, execRecirc_a ht ha hb hm hr⟩,
    fun hb hm hr => ⟨execRecirc_b ht hb hm hr, fun ha => execMergeU_b ht ha hb hm hr⟩, execMergeU_turn ht⟩
  · obtain ⟨go, hgo⟩ := exists_takeOne_of_mem (s := s) hj
    rw [hgo]
    exact takeOne_marker ht ha hr hm
  · exact (execSeq_room ht ha hr).trans (congrArg _ (if_pos hm))
  · show execFork f s = _
    rw [execFork, takeOne_billet ht ha hr hm]
  · show execSteer f s = _
    rw [execSteer, takeOne_billet ht ha hr hm]
  · exact execFilter_billet ht ha hr hm
  · show execMark f s = _
    rw [execMark, passOne, takeOne_billet ht ha hr hm, ← beq_eq_decide]
  · show execCfgTok f s = _
    rw [execCfgTok, passOne, takeOne_billet ht ha hr hm]
  · exact (execSeq_room ht ha hr).trans (congrArg _ (if_neg (by simp [hm])))

end Sys2Proof.Proofs.FlowNodes
end


section
/-! PROOFS. The turns of memory nodes and their scratch accesses (11/R272-R277). -/

namespace Sys2Proof.Proofs.MemoryNodes

open Sys2Proof Sys2Proof.Machine Sys2Proof.Proofs.Compute

/-! ## The casting that is put back -/

section Slots

variable {s : State} {k k' : CastLive} {n : NodeRef} {cid : Nat}

/-- A casting that stands in its slot is replaced. -/
theorem castSlot_putCast (h : (castSlot s n.cast).live = some k) : (castSlot (putCast s n k') n.cast).live = some k' := by
  simp only [putCast, updCast, castSlot_updCastSlot, h, Option.map_some]

end Slots

/-! ## Turns (11/R272) -/

section Turns

variable {s u : State} {f : FWord} {k : CastLive} {n : NodeRef} {a : Billet} {h : Held}

theorem exists_memTurn_of_mem {i : Instr} (hi : i ∈ ([.ldS f, .stS f, .amoS f, .ldG f, .stG f, .ldC f, .stC f] : List Instr)) :
    exec i s = memTurn s f := by
  simp only [List.mem_cons, List.not_mem_nil, or_false] at hi
  rcases hi with rfl | rfl | rfl | rfl | rfl | rfl | rfl <;> rfl

theorem stepsOn_of_turn (ht : NodeTurn s k) : stepsOn k = true := by
  have := ht.2
  simp only [nodeActs, Bool.and_eq_true] at this
  exact this.1.1

/-- A turn, once what it emits is known. -/
theorem memTurn_eq (ht : NodeTurn s k) (he : emitOnce s s.node f k = u) {k' : CastLive} (hl : (castSlot u s.node.cast).live = some k') :
    memTurn s f = .next (takeTurn u s.node f k') := by
  simp only [memTurn, ht.1, stepsOn_of_turn ht, Bool.not_true, Bool.false_eq_true, if_false, he, hl]

theorem emitOnce_none (he : readyHeld (imAny f) s.cycle (nodeAt k n) = none ∨ n ∈ s.fired ∨ roomFor k n (targetsOf f) = false) :
    emitOnce s n f k = s := by
  refine if_pos ?_
  simp only [List.contains_eq_mem, decide_eq_true_eq, Option.isNone_iff_eq_none, Bool.not_eq_true']
  tauto

/-- The casting without a held billet. -/
def withoutHeld (k : CastLive) (n : NodeRef) (h : Held) : CastLive :=
  nodeUpd k n fun x => { x with held := x.held.filter fun y => y.taken ≠ h.taken }

theorem emitOnce_some (he : readyHeld (imAny f) s.cycle (nodeAt k n) = some h) (hn : n ∉ s.fired)
    (hr : roomFor k n (targetsOf f) = true) :
    emitOnce s n f k = putCast (s.fire n) n (emitTo (withoutHeld k n h) n (targetsOf f) h.out) := by
  have emits : ¬ (s.fired.contains n = true ∨ (readyHeld (imAny f) s.cycle (nodeAt k n)).isNone = true ∨
      (!roomFor k n (targetsOf f)) = true) := by simp [hn, he, hr]
  simp only [emitOnce]
  rw [if_neg emits]
  simp only [emitHeld, he, hr, if_true]
  rfl

section Take

variable (hacts : nodeActs k n = true)
include hacts

theorem takeTurn_empty (ha : headA k n = none) : takeTurn s n f k = s := by
  simp only [takeTurn, hacts, Bool.not_true, Bool.false_eq_true, if_false, ha]

theorem takeTurn_takes (ha : headA k n = some a) (hm : isMarker a = false) (hl : (nodeAt k n).held.length < 8) :
    takeTurn s n f k = putCast s n (takeHeld f s.cycle n k a) := by
  simp only [takeTurn, hacts, Bool.not_true, Bool.false_eq_true, if_false, ha, hm, hl, if_true]

theorem takeTurn_full (ha : headA k n = some a) (hm : isMarker a = false) (hl : 8 ≤ (nodeAt k n).held.length) :
    takeTurn s n f k = s := by
  have full : ¬ (nodeAt k n).held.length < 8 := by omega
  simp only [takeTurn, hacts, Bool.not_true, Bool.false_eq_true, if_false, ha, hm, full]

theorem takeTurn_marker (ha : headA k n = some a) (hm : isMarker a = true) (hl : (nodeAt k n).held = [])
    (hr : roomFor (takeA k n) n (targetsOf f) = true) : takeTurn s n f k = passMarker s n f (takeA k n) a := by
  simp only [takeTurn, hacts, Bool.not_true, Bool.false_eq_true, if_false, ha, hm, hl, hr, List.isEmpty_nil, and_self, if_true]

theorem takeTurn_holds (ha : headA k n = some a) (hm : isMarker a = true) (hl : (nodeAt k n).held ≠ []) : takeTurn s n f k = s := by
  have holds : (nodeAt k n).held.isEmpty = false := by simpa using hl
  simp only [takeTurn, hacts, Bool.not_true, Bool.false_eq_true, if_false, ha, hm, holds, if_true, false_and]

end Take

end Turns

/-! ## Accesses of held billets (11/R273, R275, R277) -/

section Access

variable {s : State} {f : FWord} {k : CastLive} {n : NodeRef} {h : Held} {idx fr : Nat} {kd : MemKind} {i : Instr}

/-- A held access that may be performed is, and a billet may leave after it. -/
theorem execAccess_performs (hl : (castSlot s n.cast).live = some k) (hd : k.dead = false) (hs : (nodeAt k n).stop = false)
    (hp : (nodeAt k n).page = none) (hf : (nodeAt k n).held.find? (fun h => h.taken = idx) = some h)
    (hi : nodeInstr s n = some i) (hk : memKind i = some (kd, f)) (hfree : heldFree s kd f k n h = true) :
    exec (.nodeAccessPerformed n idx) s = .next (emitAfter (performHeld s kd f k n h) n f) := by
  have waits : h.st = .waiting := by
    simp only [heldFree, mayPerform, Bool.and_eq_true, decide_eq_true_eq] at hfree
    exact hfree.1.1
  show execNodeAccessPerformed n idx s = _
  simp only [execNodeAccessPerformed, hl, hi, Option.bind_some, hk]
  rw [hf]
  simp only [hd, hs, waits, hp, hfree, Option.isNone_none, Bool.false_eq_true, or_self, if_false, and_self, if_true]

theorem heldFault_stops {e : Exn} {page taken : Nat} (h1 : ¬ (e.cause = cScratch ∧ e.sub ≠ 3)) (h2 : ¬ (e.cause = cDraft ∧ e.sub = 5)) :
    heldFault s n taken e page = nodeStop (updNode s n fun x => setHeld x taken .stopped) n e :=
  (if_neg h1).trans (if_neg h2)

theorem performScratch_misaligned (ha : spanAligned kd (spanOf kd f h.src) = false) :
    performScratch s kd f k n h =
      nodeStop (updNode s n fun x => setHeld x h.taken .stopped) n ⟨cAlign, 0, heldWord f h.src, 0⟩ := by
  simp only [performScratch, ha, Bool.not_false, if_true]
  exact heldFault_stops (fun h => absurd h.1 (by decide : cAlign ≠ cScratch)) (fun h => absurd h.1 (by decide : cAlign ≠ cDraft))

theorem performScratch_outside (ha : spanAligned kd (spanOf kd f h.src) = true)
    (ho : (spanOf kd f h.src).base < 0 ∨ 2 ^ 22 < (spanOf kd f h.src).base + (spanOf kd f h.src).size) :
    performScratch s kd f k n h =
      nodeStop (updNode s n fun x => setHeld x h.taken .stopped) n ⟨cScratch, 3, heldWord f h.src, 0⟩ := by
  simp only [performScratch, ha, Bool.not_true, Bool.false_eq_true, if_false]
  exact (if_pos ho).trans (heldFault_stops (by simp) fun h => absurd h.1 (by decide : cScratch ≠ cDraft))

theorem performScratch_does (ha : spanAligned kd (spanOf kd f h.src) = true) (h0 : 0 ≤ (spanOf kd f h.src).base)
    (hn : (spanOf kd f h.src).base + (spanOf kd f h.src).size ≤ 2 ^ 22)
    (hr : resolvePage s (n.cast / 256) (2048 * (spanOf kd f h.src).key + (spanOf kd f h.src).base.toNat / 2048) k.asid (kd ≠ .ldS) =
      .frame fr)
    (hb : kd = .stS ∨ badBank s (frameAddr (n.cast / 256) fr ((spanOf kd f h.src).base.toNat % 2048)) (spanOf kd f h.src).size = false) :
    performScratch s kd f k n h = scratchDo s kd f n h (spanOf kd f h.src) fr := by
  have sound : ¬ (kd ≠ .stS ∧
      badBank s (frameAddr (n.cast / 256) fr ((spanOf kd f h.src).base.toNat % 2048)) (spanOf kd f h.src).size = true) := by
    rcases hb with h | h <;> simp [h]
  simp only [performScratch, ha, Bool.not_true, Bool.false_eq_true, if_false]
  rw [if_neg (by omega), hr]
  exact if_neg sound

end Access

/-- Settles O43: what a turn emits and takes, and the three scratch accesses by their tests. -/
theorem memoryNodes : Obligations.MemoryNodes := by
  unfold Obligations.MemoryNodes
  refine ⟨fun s f k a ht i hi => ?_, fun s n idx k f h fr => ?_⟩
  · intro n x rest
    rw [exists_memTurn_of_mem hi]
    refine ⟨fun he => ?_, fun h he hn hr => ?_⟩
    · rw [memTurn_eq ht (emitOnce_none he) ht.1]
      exact ⟨fun ha => congrArg _ (takeTurn_empty ht.2 ha), fun ha hm hl => congrArg _ (takeTurn_takes ht.2 ha hm hl),
        fun ha hm hl => congrArg _ (takeTurn_full ht.2 ha hm hl), fun ha hm hl hr => congrArg _ (takeTurn_marker ht.2 ha hm hl hr),
        fun ha hm hl => congrArg _ (takeTurn_holds ht.2 ha hm hl)⟩
    · intro k1 z hacts
      have here : (castSlot z n.cast).live = some k1 := castSlot_putCast (s := s.fire n) ht.1
      rw [memTurn_eq ht (emitOnce_some he hn hr) here]
      exact ⟨fun ha => congrArg _ (takeTurn_empty hacts ha), fun ha hm hl => congrArg _ (takeTurn_takes hacts ha hm hl)⟩
  · intro c done hl hd hs hp hf ki hki kd p e hi hfree
    have kind : memKind ki.2 = some (kd, f) := by
      simp only [List.mem_cons, List.not_mem_nil, or_false] at hki
      rcases hki with rfl | rfl | rfl <;> rfl
    have scratch : performHeld s kd f k n h = performScratch s kd f k n h := by
      simp only [List.mem_cons, List.not_mem_nil, or_false] at hki
      rcases hki with rfl | rfl | rfl <;> rfl
    have performed := execAccess_performs hl hd hs hp hf hi kind hfree
    rw [scratch] at performed
    have ends {u : State} (h' : performScratch s kd f k n h = u) :
        exec (.nodeAccessPerformed n idx) s = .next (emitAfter u n f) := by rw [performed, h']
    refine ⟨fun ha h0 hn hr hb => ends ((performScratch_does ha h0 hn hr hb).trans ?_), fun ha => ends (performScratch_misaligned ha),
      fun ha ho => ends (performScratch_outside ha ho)⟩
    simp only [List.mem_cons, List.not_mem_nil, or_false] at hki
    rcases hki with rfl | rfl | rfl <;> rfl

end Sys2Proof.Proofs.MemoryNodes
end


section
/-! PROOFS. The accesses of held billets through bindings and to curds (11/R273-R275, 04/R96, R97, 07/R167, R172). -/

namespace Sys2Proof.Proofs.NodeAccesses

open Sys2Proof Sys2Proof.Machine Sys2Proof.Proofs.Compute Sys2Proof.Proofs.MemoryNodes

variable {s z : State} {f : FWord} {k : CastLive} {n : NodeRef} {h : Held} {idx va : Nat} {kd : MemKind} {u : CurdLive} {e : Exn}

/-! ## Through a binding -/

/-- The handle of a held access. -/
def heldHandle (k : CastLive) (f : FWord) (h : Held) : Handle := bindingOf k h.inv (bits f.imm.toNat 20 16)

/-- The rights that an access through a binding asks for, and what it asks of a page. -/
def heldRights (kd : MemKind) : BitVec 5 := if kd = .stG then rW else rR
def heldNeed (kd : MemKind) : Need := if kd = .stG then .store else .load

theorem heldFault_align {a : Option Word} {page taken : Nat} : heldFault s n taken ⟨cAlign, 0, a, 0⟩ page =
    nodeStop (updNode s n fun x => setHeld x taken .stopped) n ⟨cAlign, 0, a, 0⟩ :=
  heldFault_stops (fun h => absurd h.1 (by decide : cAlign ≠ cScratch)) fun h => absurd h.1 (by decide : cAlign ≠ cDraft)

theorem heldFault_curd {sub page taken : Nat} {a : Option Word} : heldFault s n taken ⟨cCurd, sub, a, 0⟩ page =
    nodeStop (updNode s n fun x => setHeld x taken .stopped) n ⟨cCurd, sub, a, 0⟩ :=
  heldFault_stops (fun h => absurd h.1 (by decide : cCurd ≠ cScratch)) fun h => absurd h.1 (by decide : cCurd ≠ cDraft)

theorem performGlobal_misaligned (ha : spanAligned kd (spanOf kd f h.src) = false) :
    performGlobal s kd f k n h = nodeStop (updNode s n fun x => setHeld x h.taken .stopped) n
      ⟨cAlign, 0, some (vaOf (heldHandle k f h) (spanOf kd f h.src).base), 0⟩ := by
  simp only [performGlobal, ha, Bool.not_false, if_true]
  exact heldFault_align

section Checked

variable (ha : spanAligned kd (spanOf kd f h.src) = true)
  (hc : checkHandle (heldHandle k f h) (spanOf kd f h.src).base (spanOf kd f h.src).size (heldRights kd) k.asid = .ok va)
include ha hc

theorem performGlobal_behind (hb : behindSpill s n va = true) :
    performGlobal s kd f k n h = divert s n h.taken va (decide (kd = .stG)) none := by
  simp only [heldHandle, heldRights] at hc
  simp only [performGlobal, ha, Bool.not_true, Bool.false_eq_true, if_false]
  rw [hc]
  exact if_pos hb

variable (hb : behindSpill s n va = false) (hl : linesOf va (spanOf kd f h.src).size = [(va, (spanOf kd f h.src).size)])
include hb hl

/-- An access within one line is its one piece. -/
theorem performGlobal_piece : performGlobal s kd f k n h =
    match globalPieces (nodeAgent k n) (decide (kd = .stG))
      [(va, (spanOf kd f h.src).size, (storeWords f h.src (spanOf kd f h.src).size).take (spanOf kd f h.src).size)] s
      (nodeAt k n).stream with
    | .error (.stall keep) => keep.getD s
    | .error (.trap e keep) =>
      if e.cause = cTrans then divert s n h.taken va (decide (kd = .stG)) (some e)
      else heldFault (keep.getD s) n h.taken e (faultPage e va)
    | .ok q =>
      heldDone (updNode q.st n fun y => { y with stream := q.entry }) n h.taken
        (if kd = .stG then h.src else loadWords f h.src q.bytes) (heldAfter q.wait q.sent) q.undo := by
  simp only [heldHandle, heldRights] at hc
  simp only [performGlobal, ha, Bool.not_true, Bool.false_eq_true, if_false]
  rw [hc]
  simp only [hb, Bool.false_eq_true, if_false, hl, List.map_cons, List.map_nil, Nat.sub_self, List.drop_zero] <;> rfl

theorem performGlobal_untranslated (he : streamTranslate s (n.cast / 256) (nodeAt k n).stream k.asid va (heldNeed kd) = .error e)
    (ht : e.cause = cTrans) : performGlobal s kd f k n h = divert s n h.taken va (decide (kd = .stG)) (some e) := by
  have translated : streamTranslate s (nodeAgent k n).cl (nodeAt k n).stream (nodeAgent k n).asid va
      (if decide (kd = .stG) = true then .store else .load) = .error e := by
    simp only [decide_eq_true_eq]; exact he
  rw [performGlobal_piece ha hc hb hl]
  simp only [globalPieces]
  rw [translated]
  exact if_pos ht

variable {tg : Target} {y : Option TlbEntry}
  (ht : streamTranslate s (n.cast / 256) (nodeAt k n).stream k.asid va (heldNeed kd) = .ok (tg, y))
include ht

/-- An access whose one piece is made without an error. -/
theorem performGlobal_made {g : Got} (hg : onePiece (noteStream s (n.cast / 256) (nodeAt k n).stream k.asid va) (nodeAgent k n)
      (decide (kd = .stG)) tg (spanOf kd f h.src).size
      ((storeWords f h.src (spanOf kd f h.src).size).take (spanOf kd f h.src).size) (BitVec.ofNat 64 va) = .ok g)
    (hn : g.err = none) :
    performGlobal s kd f k n h = heldDone (updNode g.st n fun x => { x with stream := y }) n h.taken
      (if kd = .stG then h.src else loadWords f h.src g.bytes) (heldAfter g.wait true) g.undo := by
  have translated : streamTranslate s (nodeAgent k n).cl (nodeAt k n).stream (nodeAgent k n).asid va
      (if decide (kd = .stG) = true then .store else .load) = .ok (tg, y) := by
    simp only [decide_eq_true_eq]; exact ht
  have piece : onePiece (noteStream s (nodeAgent k n).cl (nodeAt k n).stream (nodeAgent k n).asid va) (nodeAgent k n)
      (decide (kd = .stG)) tg (spanOf kd f h.src).size
      ((storeWords f h.src (spanOf kd f h.src).size).take (spanOf kd f h.src).size) (BitVec.ofNat 64 va) = .ok g := hg
  rw [performGlobal_piece ha hc hb hl]
  simp only [globalPieces]
  rw [translated]
  dsimp only
  rw [piece]
  simp only [hn, List.append_nil, Option.or_none, Option.isNone_none, Bool.and_self]

end Checked

/-- The words of a store fill its span. -/
theorem length_storeWords (f : FWord) (b : Billet) (m : Nat) : (storeWords f b (4 * m)).length = 4 * m := by
  have words : 4 * m / 4 = m := Nat.mul_div_cancel_left m (by decide)
  have four (k : Nat) : ((natLe 4 (fieldOf b.data (f.fb.toNat + k))).map fun y => (y, wordOn f b k)).length = 4 := by
    rw [List.length_map, natLe_length]
  simp only [storeWords, words, List.length_flatten, List.map_map, Function.comp_def, four, List.map_const', List.sum_replicate,
    List.length_range, smul_eq_mul]
  exact Nat.mul_comm m 4

theorem storeWords_take {m size : Nat} (hs : size = 4 * m) (b : Billet) : (storeWords f b size).take size = storeWords f b size := by
  rw [List.take_of_length_le]
  rw [hs, length_storeWords]

/-! ## To a curd -/

section Curd

variable (h0 : 0 ≤ (spanOf kd f h.src).base) (hn : (spanOf kd f h.src).base + (spanOf kd f h.src).size ≤ curdSize u)
  (ha : spanAligned kd (spanOf kd f h.src) = true) (hc : curdAt s (n.cast / 256) k.asid (spanOf kd f h.src).key = .ok u)
include h0 hn ha hc

theorem performCurd_reads (hk : kd ≠ .stC) : performCurd s kd f k n h =
    if !u.isSealed then s
    else
      match nodeShare s n h.inv (chIndex (spanOf kd f h.src).key) u (nodeAt k n) with
      | none => heldFault s n h.taken ⟨cCurd, 3, some (BitVec.ofNat 64 (spanOf kd f h.src).key), 0⟩ 0
      | some s =>
        if badBank s (curdAddr (n.cast / 256) u (spanOf kd f h.src).base.toNat) (spanOf kd f h.src).size then
          heldFault s n h.taken ⟨cData, 0, some (BitVec.ofNat 64 (spanOf kd f h.src).key), 0⟩ 0
        else
          heldDone (useBanks s (curdAddr (n.cast / 256) u (spanOf kd f h.src).base.toNat) (spanOf kd f h.src).size) n h.taken
            (loadWords f h.src (curdBytes s (n.cast / 256) u (spanOf kd f h.src).base.toNat (spanOf kd f h.src).size)) .performed := by
  have here : curdAtNode s k n (spanOf kd f h.src).key = .ok u := by simp only [curdAtNode, hc]
  simp only [performCurd, ha, Bool.not_true, Bool.false_eq_true, if_false, hk, here]
  rw [if_neg (by omega)] <;> rfl

theorem performCurd_writes (hk : kd = .stC) : performCurd s kd f k n h =
    if u.isSealed then heldFault s n h.taken ⟨cCurd, 5, some (BitVec.ofNat 64 (spanOf kd f h.src).key), 0⟩ 0
    else heldDone (useBanks (curdWrite s (n.cast / 256) u (spanOf kd f h.src).base.toNat (storeWords f h.src (spanOf kd f h.src).size))
      (curdAddr (n.cast / 256) u (spanOf kd f h.src).base.toNat) (spanOf kd f h.src).size) n h.taken h.src .performed := by
  subst hk
  simp only [performCurd, ha, Bool.not_true, Bool.false_eq_true, if_false, if_true, hc]
  rw [if_neg (by omega)]

end Curd

theorem performCurd_overread (ha : spanAligned .ldC (spanOf .ldC f h.src) = true)
    (hc : curdAt s (n.cast / 256) k.asid (spanOf .ldC f h.src).key = .error e) (hs : e.sub = 0)
    (hd : drainedHere s k n (spanOf .ldC f h.src).key = true) : performCurd s .ldC f k n h =
      nodeStop (updNode s n fun x => setHeld x h.taken .stopped) n ⟨cCurd, 3, e.addr, 0⟩ := by
  have spent : curdAtNode s k n (spanOf .ldC f h.src).key = .error ⟨cCurd, 3, e.addr, 0⟩ := by
    simp only [curdAtNode, hc, hs, hd, and_self, if_true]
    rfl
  simp only [performCurd, ha, Bool.not_true, Bool.false_eq_true, if_false, reduceCtorEq, spent]
  exact heldFault_curd

theorem nodeShare_none {x : NodeSt} {inv i : Nat} (hx : (inv, i) ∉ x.shares) (hf : u.fin - u.pend = 0) :
    nodeShare s n inv i u x = none := by
  simp [nodeShare, hx, hf]

theorem nodeShare_some {x : NodeSt} {inv i : Nat} (hx : (inv, i) ∉ x.shares) (hf : 0 < u.fin - u.pend) :
    nodeShare s n inv i u x =
      some (takeShare (updNode s n fun x => { x with shares := x.shares ++ [(inv, i)] }) (n.cast / 256) i) := by
  have some : ¬ u.fin - u.pend = 0 := by omega
  simp [nodeShare, hx, some]

/-! ## The steps -/

section Step

variable (hl : (castSlot s n.cast).live = some k) (hd : k.dead = false) (hs : (nodeAt k n).stop = false)
  (hp : (nodeAt k n).page = none) (hf : (nodeAt k n).held.find? (fun h => h.taken = idx) = some h)
include hl hd hs hp hf

theorem exec_loadGlobal (hi : nodeInstr s n = some (.ldG f)) (hfree : heldFree s .ldG f k n h = true) :
    exec (.nodeAccessPerformed n idx) s = .next (emitAfter (performGlobal s .ldG f k n h) n f) := by
  have performs : performHeld s .ldG f k n h = performGlobal s .ldG f k n h := rfl
  rw [← performs]
  exact execAccess_performs hl hd hs hp hf hi rfl hfree

theorem exec_storeGlobal (hi : nodeInstr s n = some (.stG f)) (hfree : heldFree s .stG f k n h = true) :
    exec (.nodeAccessPerformed n idx) s = .next (emitAfter (performGlobal s .stG f k n h) n f) := by
  have performs : performHeld s .stG f k n h = performGlobal s .stG f k n h := rfl
  rw [← performs]
  exact execAccess_performs hl hd hs hp hf hi rfl hfree

theorem exec_loadCurd (hi : nodeInstr s n = some (.ldC f)) (hfree : heldFree s .ldC f k n h = true) :
    exec (.nodeAccessPerformed n idx) s = .next (emitAfter (performCurd s .ldC f k n h) n f) := by
  have performs : performHeld s .ldC f k n h = performCurd s .ldC f k n h := rfl
  rw [← performs]
  exact execAccess_performs hl hd hs hp hf hi rfl hfree

theorem exec_storeCurd (hi : nodeInstr s n = some (.stC f)) (hfree : heldFree s .stC f k n h = true) :
    exec (.nodeAccessPerformed n idx) s = .next (emitAfter (performCurd s .stC f k n h) n f) := by
  have performs : performHeld s .stC f k n h = performCurd s .stC f k n h := rfl
  rw [← performs]
  exact execAccess_performs hl hd hs hp hf hi rfl hfree

end Step

/-- Settles O44: each clause is one outcome of the performed access. -/
theorem nodeAccesses : Obligations.NodeAccesses := by
  unfold Obligations.NodeAccesses
  intro s z n idx va k f h u c x stops hl hd hs hp hf
  refine ⟨fun ki hki => ?_, ?_, fun e hi hfree ha hc h0 hdr => ?_, ?_, fun _ hx => ⟨nodeShare_none hx, nodeShare_some hx⟩⟩
  · simp only [List.mem_cons, List.not_mem_nil, or_false] at hki
    rcases hki with rfl | rfl
    · intro kd p hk store hi hfree
      rw [exec_loadGlobal hl hd hs hp hf hi hfree]
      refine ⟨fun ha => ?_, fun ha hc => ⟨fun hb => ?_, fun hb hone => ⟨fun e he ht => ?_, fun tg y ht =>
        ⟨fun _ g hg hn => ?_, fun hne => nomatch hne⟩⟩⟩⟩
      · rw [performGlobal_misaligned ha]; rfl
      · rw [performGlobal_behind ha hc hb]
      · rw [performGlobal_untranslated ha hc hb hone he ht]
      · rw [performGlobal_made ha hc hb hone ht hg hn]; rfl
    · intro kd p hk store hi hfree
      rw [exec_storeGlobal hl hd hs hp hf hi hfree]
      refine ⟨fun ha => ?_, fun ha hc => ⟨fun hb => ?_, fun hb hone => ⟨fun e he ht => ?_, fun tg y ht =>
        ⟨fun hne => (nomatch hne), fun _ g hg hn => ?_⟩⟩⟩⟩
      · rw [performGlobal_misaligned ha]; rfl
      · rw [performGlobal_behind ha hc hb]
      · rw [performGlobal_untranslated ha hc hb hone he ht]
      · have whole : (storeWords f h.src (spanOf .stG f h.src).size).take (spanOf .stG f h.src).size =
            storeWords f h.src (spanOf .stG f h.src).size := storeWords_take rfl h.src
        have piece : onePiece (noteStream s (n.cast / 256) (nodeAt k n).stream k.asid va) (nodeAgent k n)
            (decide (MemKind.stG = .stG)) tg (spanOf .stG f h.src).size
            ((storeWords f h.src (spanOf .stG f h.src).size).take (spanOf .stG f h.src).size) (BitVec.ofNat 64 va) =
            .ok ⟨[], g.err, g.wait, g.undo, false, g.st⟩ := by
          rw [whole]
          simp only [onePiece, decide_true, if_true]
          rw [hg]
        rw [performGlobal_made ha hc hb hone ht piece hn]; rfl
  · intro p a o hi hfree ha hc h0 hn
    rw [exec_loadCurd hl hd hs hp hf hi hfree, performCurd_reads h0 hn ha hc (by decide)]
    refine ⟨fun hopen => by rw [hopen]; rfl, fun hseal hsh => ?_, fun hseal hsh hb => ?_⟩
    · rw [hseal, hsh]
      exact congrArg (fun s => Host.Outcome.next (emitAfter s n f)) (heldFault_curd (page := 0))
    · rw [hseal, hsh]
      exact congrArg (fun s => Host.Outcome.next (emitAfter s n f)) (if_neg (ne_true_of_eq_false hb))
  · rw [exec_loadCurd hl hd hs hp hf hi hfree, performCurd_overread ha hc h0 hdr]
  · intro p hi hfree ha hc h0 hn
    rw [exec_storeCurd hl hd hs hp hf hi hfree, performCurd_writes h0 hn ha hc rfl]
    refine ⟨fun hseal => ?_, fun hopen => ?_⟩
    · rw [if_pos hseal, heldFault_curd]
    · rw [if_neg (ne_true_of_eq_false hopen)]

end Sys2Proof.Proofs.NodeAccesses
end


section
/-! PROOFS. The address generator, the curd nodes and the island nodes (11/R278-R284). -/

namespace Sys2Proof.Proofs.OtherNodes

open Sys2Proof Sys2Proof.Machine Sys2Proof.Proofs.Compute Sys2Proof.Proofs.Curds

variable {s z : State} {f : FWord} {k : CastLive} {a : Billet} {n : NodeRef} {w c i : Nat}

theorem fieldOf_lt (r : BitVec 256) (j : Nat) : fieldOf r j < 2 ^ 32 := Nat.mod_lt _ (by decide)

theorem tagKind_of_isData (h : isData a = true) : ¬ tagKind a.tag = 4 := by
  have kind : tagKind a.tag = 0 := by simpa [isData] using h
  omega

/-! ## The curds that a marker seals (11/R281) -/

section Seals

variable {u : CurdLive} {h h' : W32} {l : List W32}

/-- A sealed curd. -/
abbrev sealed (u : CurdLive) : CurdLive := { u with isSealed := true }

/-- The seal of one recorded curd. -/
def commitOne (c : Nat) (s : State) (h : W32) : State :=
  match currentCurd s h.toNat with
  | some _ => sealCurd s c (chIndex h.toNat)
  | none => s

theorem curdSlot_updCurdSlot_ne {c' i' : Nat} (g : CurdSlot → CurdSlot) (hne : ¬ (c' = c ∧ i' = i)) :
    curdSlot (updCurdSlot s c i g) c' i' = curdSlot s c' i' := by
  by_cases hc : c' = c
  · subst hc
    simp only [curdSlot, updCurdSlot, State.cluster_updCluster, tabUpd]
    exact tabGet_tabPut_ne _ _ _ _ _ fun hi => hne ⟨rfl, hi⟩
  · simp only [curdSlot, updCurdSlot]
    rw [State.cluster_updCluster_ne _ _ _ _ hc]

/-- What a seal leaves of the curd that a handle names. -/
theorem currentCurd_sealCurd {x : Nat} : currentCurd (sealCurd s c i) x =
    if chCluster x = c ∧ chIndex x = i then (currentCurd s x).map sealed else currentCurd s x := by
  split
  case isTrue hx =>
    obtain ⟨rfl, rfl⟩ := hx
    simp only [currentCurd, namedCurd, sealCurd, updCurd, Curds.curdSlot_updCurdSlot]
    cases (curdSlot s (chCluster x) (chIndex x)).live with
    | none => rfl
    | some k =>
      by_cases hn : k.part = chPart x ∧ (curdSlot s (chCluster x) (chIndex x)).gen = chGen x
      · cases hk : k.leaving <;> simp [hn, hk, Option.filter]
      · simp [hn]
  case isFalse hx =>
    simp only [currentCurd, namedCurd, sealCurd, updCurd, curdSlot_updCurdSlot_ne _ hx]

theorem currentCurd_commitOne (hu : currentCurd s h.toNat = some u) :
    currentCurd (commitOne c s h') h.toNat = some u ∨ currentCurd (commitOne c s h') h.toNat = some (sealed u) := by
  unfold commitOne
  split
  · rw [currentCurd_sealCurd, hu]
    split
    · exact .inr rfl
    · exact .inl rfl
  · exact .inl hu

theorem currentCurd_commitOne_self (hc : chCluster h.toNat = c) (hu : currentCurd s h.toNat = some u) :
    currentCurd (commitOne c s h) h.toNat = some (sealed u) := by
  simp only [commitOne, hu]
  rw [currentCurd_sealCurd, if_pos ⟨hc, rfl⟩, hu]
  rfl

/-- A sealed curd stays sealed. -/
theorem currentCurd_foldl_sealed (hu : currentCurd s h.toNat = some (sealed u)) :
    currentCurd (l.foldl (commitOne c) s) h.toNat = some (sealed u) := by
  induction l generalizing s with
  | nil => exact hu
  | cons h' l ih => exact ih ((currentCurd_commitOne hu).elim id id)

theorem currentCurd_foldl (hc : ∀ h ∈ l, chCluster h.toNat = c) (hh : h ∈ l) (hu : currentCurd s h.toNat = some u) :
    currentCurd (l.foldl (commitOne c) s) h.toNat = some (sealed u) := by
  induction l generalizing s with
  | nil => exact absurd hh (List.not_mem_nil)
  | cons h' l ih =>
    rcases List.mem_cons.mp hh with rfl | hl
    · exact currentCurd_foldl_sealed (s := commitOne c s h) (currentCurd_commitOne_self (hc h (List.mem_cons_self ..)) hu)
    · rcases currentCurd_commitOne (c := c) (h' := h') hu with hu | hu
      · exact ih (fun x hx => hc x (List.mem_cons_of_mem _ hx)) hl hu
      · exact currentCurd_foldl_sealed (s := commitOne c s h') hu

theorem commitSeals_eq : commitSeals s n l = l.foldl (commitOne (n.cast / 256)) s := rfl

end Seals

/-! ## The nest descriptor (11/R279) -/

section Nest

variable {d : Nat}

theorem foldl_add_eq_sum {α : Type} (g : α → Int) (l : List α) (b : Int) : l.foldl (fun t x => t + g x) b = b + (l.map g).sum := by
  induction l generalizing b with
  | nil => simp
  | cons x l ih => simp [ih, add_assoc]

theorem foldl_mul_eq_prod {α : Type} (g : α → Nat) (l : List α) : l.foldl (fun t x => t * g x) 1 = (l.map g).prod := by
  rw [List.prod_eq_foldl, List.foldl_map]

theorem minInt_eq_min (x y : Int) : minInt x y = min x y := by
  simp only [minInt]; omega

theorem maxInt_eq_max (x y : Int) : maxInt x y = max x y := by
  simp only [maxInt]; omega

/-- The bound and the step of a dimension, and the dimensions that a descriptor uses. -/
def nestBound (d j : Nat) : Nat := bits d (95 + 32 * j) (64 + 32 * j)
def nestStep (d j : Nat) : Int := sOf 32 (bits d (223 + 32 * j) (192 + 32 * j))
def nestDims (d : Nat) : List (Nat × Int) := (List.range (bits d 321 320 + 1)).map fun j => (nestBound d j, nestStep d j)

def nestBase (f : FWord) (b : Billet) (d : Nat) : Int :=
  sOf 64 (bits d 63 0) + if bit f.imm.toNat 14 then sOf 32 (fieldOf b.data f.fb.toNat) else 0

def nestLow (f : FWord) (b : Billet) (d : Nat) : Int :=
  nestBase f b d + ((nestDims d).map fun y => min 0 (y.2 * ((y.1 : Int) - 1))).sum
def nestHigh (f : FWord) (b : Billet) (d : Nat) : Int :=
  nestBase f b d + ((nestDims d).map fun y => max 0 (y.2 * ((y.1 : Int) - 1))).sum

def nestLimit (f : FWord) (d : Nat) : Int :=
  if bits d 323 322 = 0 then 2 ^ 22 - 1 else if bits d 323 322 = 2 then 65535
  else if bit f.imm.toNat 13 then 2 ^ 63 - 1 else 2 ^ 32 - 1

def nestFull (d : Nat) : Bool := (nestDims d).all fun y => y.1 ≠ 0
def nestTotal (d : Nat) : Nat := if nestFull d then ((nestDims d).map (·.1)).prod else 0

/-- The tests of R279. -/
def NestBad (f : FWord) (b : Billet) (d : Nat) : Prop :=
  bits d 511 334 ≠ 0 ∨ bits d 323 322 = 3 ∨ (bits d 333 324 ≠ 0 ∧ bits d 323 322 ≠ 0) ∨
    (∃ j < 4, bits d 321 320 < j ∧ (nestBound d j ≠ 0 ∨ nestStep d j ≠ 0)) ∨ (bit f.imm.toNat 13 = true ∧ bits d 323 322 ≠ 1) ∨
    (nestFull d = true ∧ (nestLow f b d < 0 ∨ nestLimit f d < nestHigh f b d))

theorem unused_iff : ((List.range 4).any fun j => decide (bits d 321 320 < j) && (decide (nestBound d j ≠ 0) || decide (nestStep d j ≠ 0))) =
    true ↔ ∃ j < 4, bits d 321 320 < j ∧ (nestBound d j ≠ 0 ∨ nestStep d j ≠ 0) := by
  simp [List.any_eq_true]

theorem nestOf_eq (f : FWord) (b : Billet) (d : Nat) : nestOf f b d =
    if bits d 511 334 ≠ 0 ∨ bits d 323 322 = 3 ∨ (bits d 333 324 ≠ 0 ∧ bits d 323 322 ≠ 0) ∨
        (List.range 4).any fun j => decide (bits d 321 320 < j) && (decide (nestBound d j ≠ 0) || decide (nestStep d j ≠ 0)) then
      exn cCast 8
    else if bit f.imm.toNat 13 ∧ bits d 323 322 ≠ 1 then exn cCast 8
    else if nestFull d ∧ (nestLow f b d < 0 ∨ nestLimit f d < nestHigh f b d) then exn cCast 8
    else .ok ⟨b, nestBase f b d, nestDims d, bits d 323 322, bits d 333 324, 0, nestTotal d⟩ := by
  have low : (nestDims d).foldl (fun t x => t + minInt 0 (x.2 * ((x.1 : Int) - 1))) (nestBase f b d) = nestLow f b d := by
    rw [foldl_add_eq_sum]; simp only [minInt_eq_min]; rfl
  have high : (nestDims d).foldl (fun t x => t + maxInt 0 (x.2 * ((x.1 : Int) - 1))) (nestBase f b d) = nestHigh f b d := by
    rw [foldl_add_eq_sum]; simp only [maxInt_eq_max]; rfl
  have total : (if nestFull d then (nestDims d).foldl (fun t x => t * x.1) 1 else 0) = nestTotal d := by
    rw [foldl_mul_eq_prod]; rfl
  rw [← low, ← high, ← total]
  have limit : nestLimit f d = match bits d 323 322 with
      | 0 => 2 ^ 22 - 1
      | 2 => 65535
      | _ => if bit f.imm.toNat 13 then 2 ^ 63 - 1 else 2 ^ 32 - 1 := by
    unfold nestLimit
    rcases bits d 323 322 with _ | _ | _ | tk <;> rfl
  rw [limit]
  rfl

theorem nestOf_bad (h : NestBad f a w) : nestOf f a w = exn cCast 8 := by
  rw [nestOf_eq]
  simp only [unused_iff]
  rcases h with h | h | h | h | h | h
  · exact if_pos (.inl h)
  · exact if_pos (.inr (.inl h))
  · exact if_pos (.inr (.inr (.inl h)))
  · exact if_pos (.inr (.inr (.inr h)))
  · rw [if_pos h, ite_self]
  · rw [if_pos h, ite_self, ite_self]

theorem nestOf_good (h : ¬ NestBad f a w) : nestOf f a w =
    .ok ⟨a, nestBase f a w, nestDims w, bits w 323 322, bits w 333 324, 0, nestTotal w⟩ := by
  rw [nestOf_eq]
  simp only [unused_iff]
  obtain ⟨h1, h2, h3, h4, h5, h6⟩ := by simpa only [NestBad, not_or] using h
  rw [if_neg (by simp only [not_or]; exact ⟨h1, h2, h3, h4⟩), if_neg h5, if_neg h6]

end Nest

/-! ## The address generator (11/R278) -/

section Generator

variable {h : Held} {off : Nat}

theorem agRead_misaligned (ho : fieldOf h.src.data f.fa.toNat % 64 ≠ 0) :
    agRead s f n k h = nodeStop (updNode s n fun x => setHeld x h.taken .stopped) n ⟨cCast, 8, none, 0⟩ := by
  simp only [agRead, ho, ne_eq, not_false_eq_true, if_true]
  exact if_neg (by decide)

section Reads

variable {va : Nat} {b : List Byte} (ho : fieldOf h.src.data f.fa.toNat % 64 = 0)
  (hc : checkHandle (bindingOf k h.inv (bits f.imm.toNat 20 16)) (fieldOf h.src.data f.fa.toNat) 64 rR k.asid = .ok va)
  (hr : readIssue s (nodeAgent k n) va 64 = .ok (b, z))
include ho hc hr

theorem agRead_bad (hb : NestBad f h.src (leNat b)) :
    agRead s f n k h = nodeStop (updNode z n fun x => setHeld x h.taken .stopped) n ⟨cCast, 8, none, 0⟩ := by
  simp only [agRead, ho, ne_eq, not_true_eq_false, if_false]
  rw [hc]
  dsimp only
  rw [hr]
  dsimp only
  rw [nestOf_bad hb]
  exact if_neg (by decide)

theorem agRead_good (hb : ¬ NestBad f h.src (leNat b)) : agRead s f n k h = updNode z n fun x => { x with
    held := []
    nest := if 0 < nestTotal (leNat b) + b2n (bit f.imm.toNat 15) then
      some ⟨h.src, nestBase f h.src (leNat b), nestDims (leNat b), bits (leNat b) 323 322, bits (leNat b) 333 324, 0,
        nestTotal (leNat b)⟩ else none } := by
  simp only [agRead, ho, ne_eq, not_true_eq_false, if_false]
  rw [hc]
  dsimp only
  rw [hr]
  dsimp only
  rw [nestOf_good hb]

end Reads

section Turn

variable (ht : NodeTurn s k)
include ht

theorem execAg_emits {t : Nest} (hn : (nodeAt k s.node).nest = some t) (hr : roomFor k s.node (targetsOf f) = true) :
    exec (.ag f) s = .next (putCast s s.node (emitTo (nodeUpd k s.node fun x => { x with nest := nestNext f t }) s.node
      (targetsOf f) (nestBillet f t))) := by
  show execAg f s = _
  rw [execAg, atNode_turn ht]
  simp only [hn, hr, if_true]

variable (hn : (nodeAt k s.node).nest = none) (hh : (nodeAt k s.node).held = []) (ha : headA k s.node = some a)
include hn hh ha

/-- The request that the generator holds. -/
def agHeld (s : State) (k : CastLive) (a : Billet) : Held :=
  { src := a, out := a, st := .waiting, taken := (nodeAt k s.node).ntake, since := s.cycle, perf := 0, inv := (nodeAt k s.node).inv }
def agHolds (s : State) (k : CastLive) (a : Billet) : CastLive :=
  nodeUpd (takeA k s.node) s.node fun x => { x with held := [agHeld s k a], ntake := x.ntake + 1 }

theorem execAg_takes (da : isData a = true) (hp : pmHolds f a.tag = true) : exec (.ag f) s =
    .next (agRead (putCast s s.node (agHolds s k a)) f s.node (agHolds s k a) (agHeld s k a)) := by
  show execAg f s = _
  rw [execAg, atNode_turn ht]
  simp only [hn, hh, ha, da, hp, and_self, if_true]
  rfl

theorem execAg_passes (hm : isMarker a = false) (hd : isData a = false ∨ pmHolds f a.tag = false)
    (hr : roomFor (takeA k s.node) s.node (targetsOf f) = true) : exec (.ag f) s = passes s f (takeA k s.node) a := by
  have no : ¬ (isData a = true ∧ pmHolds f a.tag = true) := by rcases hd with h | h <;> simp [h]
  show execAg f s = _
  rw [execAg, atNode_turn ht]
  simp only [hn, hh, ha, no, hr, hm, if_false, Bool.not_true, Bool.false_eq_true]
  rfl

end Turn

end Generator

/-! ## The curd nodes (11/R280, R281) -/

section CurdNodes

variable (ht : NodeTurn s k)
include ht

theorem execCAlloc_eq : exec (.cAlloc f) s = .next (allocTurn s f s.node k) := by
  show execCAlloc f s = _
  rw [execCAlloc, atNode_turn ht]

theorem execCAlloc_fired (hf : s.node ∈ s.fired) : exec (.cAlloc f) s = .next s := by
  rw [execCAlloc_eq ht, allocTurn, if_pos (by simpa using hf)]

variable (ha : headA k s.node = some a) (hr : roomFor (takeA k s.node) s.node (targetsOf f) = true)
include ha hr

theorem execCAlloc_passes (hf : s.node ∉ s.fired) (hm : isMarker a = false) (hd : isData a = false ∨ pmHolds f a.tag = false) :
    exec (.cAlloc f) s = passes (s.fire s.node) f (takeA k s.node) a := by
  have no : ¬ (isData a = true ∧ pmHolds f a.tag = true) := by rcases hd with h | h <;> simp [h]
  have free : ¬ (s.fired.contains s.node = true) := by simpa using hf
  rw [execCAlloc_eq ht, allocTurn, if_neg free]
  simp only [ha, hr, hm, no, if_false, Bool.not_true, Bool.false_eq_true]
  rfl

theorem execCAlloc_tries (hf : s.node ∉ s.fired) (da : isData a = true) (hp : pmHolds f a.tag = true) :
    exec (.cAlloc f) s = .next (tryAlloc s f s.node k a) := by
  have free : ¬ (s.fired.contains s.node = true) := by simpa using hf
  rw [execCAlloc_eq ht, allocTurn, if_neg free]
  simp only [ha, hr, not_isMarker_of_isData da, da, hp, and_self, if_true, if_false, Bool.not_true, Bool.false_eq_true]

/-- A turn of `c.seal` for a billet with room. -/
theorem execCSeal_passes (hm : isMarker a = false) (hd : isData a = false ∨ pmHolds f a.tag = false) :
    exec (.cSeal f) s = passes s f (takeA k s.node) a := by
  have no : ¬ (isData a = true ∧ pmHolds f a.tag = true) := by rcases hd with h | h <;> simp [h]
  show execCSeal f s = _
  rw [execCSeal, atNode_turn ht]
  simp only [ha, hr, hm, no, if_false, Bool.not_true, Bool.false_eq_true]
  rfl

theorem execCSeal_records {u : CurdLive} (da : isData a = true) (hp : pmHolds f a.tag = true)
    (hc : curdAt s (s.node.cast / 256) k.asid (fieldOf a.data f.fa.toNat) = .ok u) (hu : u.isSealed = false)
    (hs : (nodeAt k s.node).seals = []) : exec (.cSeal f) s = passes s f (nodeUpd (takeA k s.node) s.node fun x =>
      { x with seals := x.seals ++ [BitVec.ofNat 32 (fieldOf a.data f.fa.toNat)] }) a := by
  have handle : (BitVec.ofNat 32 (fieldOf a.data f.fa.toNat)).toNat = fieldOf a.data f.fa.toNat := by
    rw [BitVec.toNat_ofNat, Nat.mod_eq_of_lt (fieldOf_lt ..)]
  show execCSeal f s = _
  rw [execCSeal, atNode_turn ht]
  simp only [ha, hr, not_isMarker_of_isData da, da, hp, and_self, if_true, Bool.not_true, Bool.false_eq_true, if_false, handle, hc,
    hu, hs, List.contains_nil, List.length_nil]
  rfl

theorem execCSeal_waits (hm : isMarker a = true)
    (hw : ∃ j ∈ storeCurdNodes k, (nodeOf k j).inv ≤ (nodeAt k s.node).inv) : exec (.cSeal f) s = .next s := by
  have waits : ¬ (((storeCurdNodes k).all fun j => decide ((nodeAt k s.node).inv < (nodeOf k j).inv)) = true ∧
      (!sealWaits s f s.node.cast k) = true) := fun ⟨hall, _⟩ => by
    obtain ⟨j, hj, hle⟩ := hw
    have := List.all_eq_true.mp hall j hj
    simp only [decide_eq_true_eq] at this
    omega
  show execCSeal f s = _
  rw [execCSeal, atNode_turn ht]
  simp only [ha, hr, hm, if_true, Bool.not_true, Bool.false_eq_true, if_false]
  rw [if_neg waits]

theorem execCSeal_commits (hm : isMarker a = true) (hall : ∀ j ∈ storeCurdNodes k, (nodeAt k s.node).inv < (nodeOf k j).inv)
    (hw : sealWaits s f s.node.cast k = false)
    (ho : ∀ h ∈ (nodeAt k s.node).seals, ∀ u, currentCurd s h.toNat = some u → u.isSealed = false) : exec (.cSeal f) s =
      .next (passMarker (commitSeals s s.node (nodeAt k s.node).seals) s.node f
        (nodeUpd (takeA k s.node) s.node fun x => { x with seals := [] }) a) := by
  have retired : ((storeCurdNodes k).all fun j => decide ((nodeAt k s.node).inv < (nodeOf k j).inv)) = true ∧
      (!sealWaits s f s.node.cast k) = true := by simpa [hw] using hall
  have opened : (nodeAt k s.node).seals.find? (fun h => (currentCurd s h.toNat).any (·.isSealed)) = none := by
    refine List.find?_eq_none.mpr fun h hh => ?_
    cases hu : currentCurd s h.toNat with
    | none => simp
    | some u => simp [ho h hh u hu]
  show execCSeal f s = _
  rw [execCSeal, atNode_turn ht]
  simp only [ha, hr, hm, if_true, Bool.not_true, Bool.false_eq_true, if_false]
  rw [if_pos retired, opened]

end CurdNodes

theorem tryAlloc_granted (hw : requestWord f a = some w) (hp : partFor s (n.cast / 256) k.part k.asid = true)
    (hg : testGrant s (n.cast / 256) k.part (bits w 16 12 + 1) (decide (k.resHeld + (bits w 16 12 + 1) ≤ k.depth)) = .granted i) :
    let pages := bits w 16 12 + 1
    let own := decide (k.resHeld + pages ≤ k.depth)
    let r := allocCurd s (n.cast / 256) (nodeCore k n) i k.part pages (bits w 11 0) (bit w 17) k.launch k.loader
      (some (castRef s n.cast, (nodeAt k n).inv)) own
    tryAlloc s f n k a = updCast (r.1.fire n) n.cast fun k =>
      emitTo (takeA { k with resHeld := if own then k.resHeld + pages else k.resHeld } n) n (targetsOf f)
        { a with data := setField a.data f.fd.toNat r.2 } := by
  intro pages own r
  simp only [tryAlloc, hw, hp, Bool.not_true, Bool.false_eq_true, if_false]
  rw [hg]

/-! ## The island nodes (11/R282-R284) -/

section Offers

variable {go : State → State}

theorem offerItem_stops (hh : holdsIsland (s.island (n.cast / 256) i) k.launch = false) :
    offerItem s n k i go = nodeStop s n ⟨cIsland, 0, none, 0⟩ := by simp [offerItem, hh]

variable (hh : holdsIsland (s.island (n.cast / 256) i) k.launch = true)
include hh

theorem offerItem_full (hr : islandRoom (s.island (n.cast / 256) i) = false) : offerItem s n k i go = s := by
  simp [offerItem, hh, hr]

theorem offerItem_enters (hr : islandRoom (s.island (n.cast / 256) i) = true) : offerItem s n k i go = go s := by
  simp [offerItem, hh, hr]

end Offers

section IslandNodes

variable (ht : NodeTurn s k) (ha : headA k s.node = some a)
include ht ha

theorem execARow_passes (hr : roomFor (takeA k s.node) s.node (targetsOf f) = true) (hk : tagKind a.tag ≠ 4)
    (hm : isMarker a = false) (hd : isData a = false ∨ pmHolds f a.tag = false) :
    exec (.aRow f) s = passes s f (takeA k s.node) a := by
  have no : ¬ (isData a = true ∧ pmHolds f a.tag = true) := by rcases hd with h | h <;> simp [h]
  show execARow f s = _
  rw [execARow, atNode_turn ht]
  simp only [ha, hr, hm, hk, no, if_false, Bool.not_true, Bool.false_eq_true]
  rfl

theorem execARow_data (hr : roomFor (takeA k s.node) s.node (targetsOf f) = true) (da : isData a = true)
    (hp : pmHolds f a.tag = true) : exec (.aRow f) s = .next (aRowData s f s.node k a) := by
  show execARow f s = _
  rw [execARow, atNode_turn ht]
  simp only [ha, hr, tagKind_of_isData da, not_isMarker_of_isData da, da, hp, and_self, if_true, if_false, Bool.not_true,
    Bool.false_eq_true]

theorem execAccRd_passes (hq : (nodeAt k s.node).req = none) (hr : roomFor (takeA k s.node) s.node (targetsOf f) = true)
    (hm : isMarker a = false) (hd : isData a = false ∨ pmHolds f a.tag = false) :
    exec (.accRd f) s = passes s f (takeA k s.node) a := by
  have no : ¬ (isData a = true ∧ pmHolds f a.tag = true) := by rcases hd with h | h <;> simp [h]
  show execAccRd f s = _
  rw [execAccRd, atNode_turn ht]
  simp only [hq, ha, hr, hm, no, if_false, Bool.not_true, Bool.false_eq_true]
  rfl

/-- The state once `acc.rd` has taken a request. -/
def accRequested (z : State) (n : NodeRef) (k : CastLive) (a : Billet) : State :=
  putCast z n (nodeUpd (takeA k n) n fun x => { x with req := some a, nreq := x.nreq + 1 })

theorem execAccRd_offers (hq : (nodeAt k s.node).req = none) (da : isData a = true) (hp : pmHolds f a.tag = true) :
    exec (.accRd f) s = .next (offerItem s s.node k (bits f.imm.toNat 2 0) fun z =>
      acceptItem (accRequested z s.node k a) (s.node.cast / 256) (bits f.imm.toNat 2 0)
        (nodeSrc (accRequested z s.node k a) s.node k)
        (.readout (BitVec.ofNat 9 (fieldOf a.data f.fa.toNat)) (nodeAt k s.node).nreq)) := by
  show execAccRd f s = _
  rw [execAccRd, atNode_turn ht]
  simp only [hq, ha, da, hp, and_self, if_true]
  rfl

end IslandNodes

theorem aRowData_offers {b : List Byte}
    (hb : aRowBytes s f n k a (acceptedLen (s.island (n.cast / 256) (bits f.imm.toNat 2 0))) = .ok (b, z)) :
    aRowData s f n k a = offerItem z n k (bits f.imm.toNat 2 0) fun s =>
      updCast (acceptItem s (n.cast / 256) (bits f.imm.toNat 2 0) (nodeSrc s n k) (.row b (BitVec.ofNat 9 (fieldOf a.data f.fb.toNat))))
        n.cast fun k => emitTo (takeA k n) n (targetsOf f) a := by
  simp only [aRowData]
  rw [hb]

/-- Settles O45: each clause is one branch of the node's turn. -/
theorem otherNodes : Obligations.OtherNodes := by
  unfold Obligations.OtherNodes
  intro s f k a ht n c k1 x island isl
  refine ⟨fun t hn hr => execAg_emits ht hn hr, fun ha hn hh da hp => ?_, fun ha hm hr => ?_, fun l hc h hh u hu => ?_,
    fun ha hr hm hk hd => ?_, fun hf => execCAlloc_fired ht hf, fun ha hr da hp => ?_⟩
  · intro h k2 off stops
    rw [execAg_takes ht hn hh ha da hp]
    refine ⟨fun ho => congrArg _ (agRead_misaligned ho), fun va b z ho hc hr => ?_⟩
    intro dsc nd tk a64 bound step dims base full lo hi limit total bad
    exact ⟨fun hb => congrArg _ (agRead_bad ho hc hr hb), fun hb => congrArg _ (agRead_good ho hc hr hb)⟩
  · exact ⟨execCSeal_waits ht ha hr hm, execCSeal_commits ht ha hr hm⟩
  · rw [commitSeals_eq]
    exact currentCurd_foldl hc hh hu
  · exact ⟨fun hn hh => execAg_passes ht hn hh ha hm hd hr, fun hf => execCAlloc_passes ht ha hr hf hm hd,
      execCSeal_passes ht ha hr hm hd, execARow_passes ht ha hr hk hm hd, fun hq => execAccRd_passes ht ha hq hr hm hd⟩
  · refine ⟨fun w i hf hw hpart hg => ?_, fun hf hw => ?_, fun u hc hu hs => execCSeal_records ht ha hr da hp hc hu hs,
      fun b z hb => ?_, fun hq hh hroom => ?_, fun hq hh => ?_⟩
    · rw [execCAlloc_tries ht ha hr hf da hp]
      exact congrArg _ (tryAlloc_granted hw hpart hg)
    · rw [execCAlloc_tries ht ha hr hf da hp, tryAlloc, hw]
    · rw [execARow_data ht ha hr da hp, aRowData_offers hb]
      exact ⟨fun hh => congrArg _ (offerItem_stops hh), fun hh hroom => congrArg _ (offerItem_full hh hroom),
        fun hh hroom => congrArg _ (offerItem_enters hh hroom)⟩
    · rw [execAccRd_offers ht ha hq da hp]
      exact congrArg _ (offerItem_enters hh hroom)
    · rw [execAccRd_offers ht ha hq da hp]
      exact congrArg _ (offerItem_stops hh)

end Sys2Proof.Proofs.OtherNodes
end


section
/-! PROOFS. The streamers' beats and completions, and the page engine (05/R110-R126, 06/R146-R150, 07/R163). -/

namespace Sys2Proof.Proofs.CopyEvents

open Sys2Proof Sys2Proof.Machine Sys2Proof.Proofs.Scratch

variable {s s' z : State} {c i q pa : Nat} {e : CopyEntry} {r : List CopyEntry} {d : Sched}

/-! ## Beats (05/R110) -/

section Beats

/-- What a change to a queue makes of it is all that counts. -/
theorem updSqueue_congr {f g : SQueue → SQueue} (h : f (s.squeue c i q) = g (s.squeue c i q)) :
    s.updSqueue c i q f = s.updSqueue c i q g := by
  have table : tabUpd (s.cluster c).queues (8 * i + q) {} f = tabUpd (s.cluster c).queues (8 * i + q) {} g := by
    simp only [tabUpd]
    rw [show f (tabGet (s.cluster c).queues (8 * i + q) {}) = g (tabGet (s.cluster c).queues (8 * i + q) {}) from h]
  have cluster : tabUpd s.clusters c {} (fun x => { x with queues := tabUpd x.queues (8 * i + q) {} f }) =
      tabUpd s.clusters c {} fun x => { x with queues := tabUpd x.queues (8 * i + q) {} g } :=
    congrArg (fun t => tabPut s.clusters c { s.cluster c with queues := t }) table
  simp only [State.updSqueue, State.updCluster]
  rw [cluster]

theorem updHead_congr {f g : CopyEntry → CopyEntry} (he : (s.squeue c i q).entries = e :: r) (h : f e = g e) :
    updHead s c i q f = updHead s c i q g := updSqueue_congr (by rw [he]; simp only [h])

theorem entries_of_readyHead (h : readyHead s c i q = some e) : ∃ r, (s.squeue c i q).entries = e :: r := by
  simp only [readyHead] at h
  split at h
  · cases h
  · split at h
    · cases h
    · cases h
      exact ⟨_, ‹_›⟩

theorem streamerBeat_moved (h : 4 * c + i ∈ s.beats) : exec (.streamerBeat c i q) s = .next s := by
  have moved : s.beats.contains (4 * c + i) = true := by simpa using h
  show execStreamerBeat c i q s = _
  unfold execStreamerBeat
  split
  · unfold pageBeat
    split
    · exact congrArg _ (if_pos (.inl moved))
    · rfl
  · split
    · rfl
    · rfl

variable (hq : q < 8)
include hq

theorem streamerBeat_none (hr : readyHead s c i q = none) : exec (.streamerBeat c i q) s = .next s := by
  show execStreamerBeat c i q s = _
  rw [execStreamerBeat, if_neg (by omega), hr]

variable (hr : readyHead s c i q = some e) (hb : 4 * c + i ∉ s.beats) (hc : chooseQueue s c i = some q)
include hr hb hc

theorem streamerBeat_bad (hx : (s.squeue c i q).bad = true) : exec (.streamerBeat c i q) s = .next (beat s c i q e) := by
  have free : s.beats.contains (4 * c + i) = false := by simpa using hb
  show execStreamerBeat c i q s = _
  rw [execStreamerBeat, if_neg (by omega), hr]
  simp only [free, hx, hc, Bool.false_eq_true, if_false, if_true]

theorem streamerBeat_beat (hx : (s.squeue c i q).bad = false) (hs : ∀ keep, moveElem s c e e.done ≠ .error (.stall keep)) :
    exec (.streamerBeat c i q) s = .next (beat s c i q e) := by
  have free : s.beats.contains (4 * c + i) = false := by simpa using hb
  show execStreamerBeat c i q s = _
  rw [execStreamerBeat, if_neg (by omega), hr]
  simp only [free, hx, hc, Bool.false_eq_true, if_false, if_true]

end Beats

/-- A queue's storage that holds an error ends the copy at its head (17/R403). -/
theorem beat_bad (he : (s.squeue c i q).entries = e :: r) (hx : (s.squeue c i q).bad = true) : beat s c i q e =
    let y := showProgress ((updHead s c i q fun e => { e with begun := true, err := true, since := s.cycle }).updStreamer c i
      fun x => { x with lastq := q }) e e.done
    { y with beats := y.beats ++ [4 * c + i] } := by
  have head : (updHead s c i q fun x => { x with begun := true, done := e.done, err := true, since := s.cycle }) =
      updHead s c i q fun e => { e with begun := true, err := true, since := s.cycle } := updHead_congr he rfl
  rw [← head]
  simp only [beat, hx, if_true, decide_true]

theorem beat_moves {k : Nat} {stop : BeatStop} (hx : (s.squeue c i q).bad = false)
    (hm : moveElems c e (256 / e.shape.esz) s e.done = (z, k, stop)) (hh : ∀ ex, stop ≠ .halts ex) : beat s c i q e =
    let y := showProgress ((updHead z c i q fun e => { e with begun := true, done := k, err := stop = .failed, since := z.cycle }
      ).updStreamer c i fun x => { x with lastq := q }) e k
    { y with beats := y.beats ++ [4 * c + i] } := by
  simp only [beat, hx, Bool.false_eq_true, if_false, hm]

/-- A beat of an append's page copy (13/R318). -/
theorem streamerBeat_page {id src dst rows : Nat} {y : SeqRef} {b : PageBeats} {who : ThreadRef} {reg : RegLoc}
    (hp : pageCopy s c i = some (id, .append y src dst rows b who reg)) (hb : 4 * c + i ∉ s.beats)
    (hc : chooseQueue s c i = some 8) :
    let n := Nat.min 256 (pageBytes s y rows - b.done)
    let z := kvCopyBytes s y.q (rowOff s y.q.poolRef src 0 + b.done) (rowOff s y.q.poolRef dst 0 + b.done) n
    exec (.streamerBeat c i 8) s = .next { z.updStreamer c i fun x => { x with lastq := 8 } with
      beats := z.beats ++ [4 * c + i]
      kvCopies := tabPut z.kvCopies id (.append y src dst rows { b with done := b.done + n } who reg) } := by
  have free : ¬ (s.beats.contains (4 * c + i) = true ∨ chooseQueue s c i ≠ some 8) := by simp [hb, hc]
  intro n z
  show execStreamerBeat c i 8 s = _
  rw [execStreamerBeat, if_pos (by decide), pageBeat, hp]
  exact congrArg _ (if_neg free)

/-! ## Completions (05/R115) -/

/-- A copy that is not halted, and whose elements are done or which failed, does not wait. -/
theorem not_moving (hh : (s.squeue c i q).halt = none) (hd : e.err = true ∨ copyTotal e.shape ≤ e.done) :
    ¬ ((s.squeue c i q).halt.isSome = true ∨ (!(e.err || decide (copyTotal e.shape ≤ e.done))) = true) := by
  rcases hd with h | h <;> simp [hh, h]

section Completion

variable (he : (s.squeue c i q).entries = e :: r) (hh : (s.squeue c i q).halt = none)
  (hd : e.err = true ∨ copyTotal e.shape ≤ e.done) (hr : ringAt s e.asid e.hr e.roff.toInt = .ok pa)
include he hh hd hr

theorem copyCompletion_completes (hw : ringWf (ringGet s pa) = true) : exec (.copyCompletion c i q) s =
    .next (settleLaunches (ringComplete (touchRing (finishEntry s c i q e) e.asid e.hr e.roff.toInt pa) pa e.slot.toNat e.err)) := by
  show execCopyCompletion c i q s = _
  unfold execCopyCompletion
  simp only [he]
  rw [if_neg (not_moving hh hd), hr]
  simp only [hw, Bool.not_true, Bool.false_eq_true, if_false]

theorem copyCompletion_halts (hw : ringWf (ringGet s pa) = false) (hl : (launchOf s e.owner.l).isSome = true) :
    exec (.copyCompletion c i q) s = .next (haltQueue s c i q e.owner ⟨cRing, 0, some e.roff, 0⟩) := by
  show execCopyCompletion c i q s = _
  unfold execCopyCompletion
  simp only [he]
  rw [if_neg (not_moving hh hd), hr]
  simp only [hw, Bool.not_false, if_true, ringFails, hl]

end Completion

/-! ## Schedules (05/R119, R120, R126) -/

section Schedule

theorem scheduleEntryBegin_ended (hs : (s.squeue c i q).sched = some d) (hd : d.sc ≤ d.comp) :
    exec (.scheduleEntryBegin c i q) s = .next s := by
  show execScheduleEntryBegin c i q s = _
  unfold execScheduleEntryBegin
  simp only [hs, hd, or_true, if_true]

/-- The queue keeps the head of its schedule, once it is read. -/
def keepHead (s : State) (c i q : Nat) (y : SchedHead) : State :=
  s.updSqueue c i q fun x => { x with sched := x.sched.map fun d => { d with head := some y } }

theorem scheduleEntryBegin_eq {y : SchedHead} (hs : (s.squeue c i q).sched = some d) (hh : (s.squeue c i q).halt = none)
    (he : (s.squeue c i q).entries = []) (hd : d.comp < d.sc) (hy : headEntry s c d = .ok (y, pa, s')) :
    exec (.scheduleEntryBegin c i q) s =
      if sub32 (rgIp (ringGet s' pa)) (rgRp (ringGet s' pa)) = rgN (ringGet s' pa) then .next (keepHead s' c i q y)
      else .next (acceptEntry (keepHead s' c i q y) c i q y.shape (tabGet d.hs y.shape.sh {}) (tabGet d.hs y.shape.dh {}) d.hk
        y.roff pa d.asid d.cls d.owner d.core (gateOf d d.comp) y.share) := by
  have begins : ¬ ((s.squeue c i q).halt.isSome = true ∨ (!(s.squeue c i q).entries.isEmpty) = true ∨ d.sc ≤ d.comp) := by
    simpa [hh, he] using hd
  show execScheduleEntryBegin c i q s = _
  unfold execScheduleEntryBegin
  simp only [hs]
  rw [if_neg begins, hy]
  rfl

theorem headEntry_reads {sh : Shape} {roff : Word} (hn : d.head = none) (he : schedEntry s c d = .ok (sh, roff, pa, s')) :
    headEntry s c d = .ok (⟨sh, roff, decide (sh.skind = .curd)⟩, pa,
      if sh.skind = .curd then takeShare s' c (chIndex sh.scurd.toNat) else s') := by
  simp only [headEntry, hn, he, Except.map, decide_eq_true_eq]

theorem headEntry_again {y : SchedHead} (hy : d.head = some y) (hr : ringAt s d.asid d.hk y.roff.toInt = .ok pa)
    (hw : ringWf (ringGet s pa) = true) : headEntry s c d = .ok (y, pa, touchRing s d.asid d.hk y.roff.toInt pa) := by
  simp only [headEntry, hy, headRing, hr, hw, if_true, liftE, Except.map]

end Schedule

/-! ## The page engine (06/R146-R150) -/

section Pages

variable {k core f : Nat}

theorem eFrame_mkEntry {asid slot st prot frame : Nat} (hf : frame < 2 ^ 13) :
    eFrame (mkEntry asid slot st prot frame % 2 ^ 64) = frame := by
  simp only [eFrame, mkEntry, bits]
  omega

theorem eProt_lt (e : Nat) : eProt e < 4 := Nat.mod_lt _ (by decide)

/-- What a page that has come in leaves: its frame filled, its entry renewed. -/
def pageLanded (s : State) (c k f : Nat) : State :=
  let e := sttEntry s c k
  let a := slotAddr c (eSlot e)
  let s := { s with
    sram := memWrite s.sram (frameAddr c f 0) (memBytes s.mem a 2048)
    rel := { s.rel with badSram := moveMarks s.rel.badLines (a / 64) s.rel.badSram (frameAddr c f 0 / 64) } }
  let s := setEntry (touch s a 2048) c k (mkEntry (eAsid e) (eSlot e) 1 (eProt e) f)
  touchPage (s.updCluster c fun x => { x with moves := tabDel x.moves k }) c k

theorem endPageIn_eq : endPageIn s c k f = retirePage (pageLanded s c k f) c k := rfl

theorem sttEntry_touchPage (s : State) (c k : Nat) : sttEntry (touchPage s c k) c k = sttEntry s c k := by
  rw [touchPage, sttEntry_updCluster, sttEntry, touchEntry, touch_mem]
  rfl

theorem sttEntry_pageLanded (hm : s.mem.wf = true) : sttEntry (pageLanded s c k f) c k =
    mkEntry (eAsid (sttEntry s c k)) (eSlot (sttEntry s c k)) 1 (eProt (sttEntry s c k)) f % 2 ^ 64 := by
  simp only [pageLanded]
  rw [sttEntry_touchPage, sttEntry_updCluster, sttEntry_setEntry]
  rw [touch_mem]
  exact hm

theorem touchPage_rel (s : State) (c k : Nat) : (touchPage s c k).rel = s.rel := by
  obtain ⟨d, v, h⟩ := touch_lines s (areaAddr c (8 * k)) 8
  simp only [touchPage, touchEntry, h]
  rfl

theorem touchPage_sram (s : State) (c k : Nat) : (touchPage s c k).sram = s.sram := by
  obtain ⟨d, v, h⟩ := touch_lines s (areaAddr c (8 * k)) 8
  simp only [touchPage, touchEntry, h]
  rfl

theorem moves_touchPage (s : State) (c k : Nat) : ((touchPage s c k).cluster c).moves = (s.cluster c).moves := by
  obtain ⟨d, v, h⟩ := touch_lines s (areaAddr c (8 * k)) 8
  simp only [touchPage, touchEntry, h, State.cluster_updCluster]
  rfl

theorem touch_rel (s : State) (a n : Nat) : (touch s a n).rel = s.rel := by
  obtain ⟨d, v, h⟩ := touch_lines s a n
  rw [h]

theorem touch_sram (s : State) (a n : Nat) : (touch s a n).sram = s.sram := by
  obtain ⟨d, v, h⟩ := touch_lines s a n
  rw [h]

theorem touch_clusters (s : State) (a n : Nat) : (touch s a n).clusters = s.clusters := by
  obtain ⟨d, v, h⟩ := touch_lines s a n
  rw [h]

theorem pageLanded_retired : (pageLanded s c k f).rel.retired = s.rel.retired := by
  simp only [pageLanded]
  rw [touchPage_rel]
  show (setEntry _ c k _).rel.retired = _
  rw [setEntry_rel, touch_rel]

theorem pageLanded_sram : (pageLanded s c k f).sram =
    memWrite s.sram (frameAddr c f 0) (memBytes s.mem (slotAddr c (eSlot (sttEntry s c k))) 2048) := by
  simp only [pageLanded]
  rw [touchPage_sram]
  show (setEntry _ c k _).sram = _
  rw [setEntry_sram, touch_sram]

theorem pageLanded_moves : ((pageLanded s c k f).cluster c).moves = tabDel (s.cluster c).moves k := by
  simp only [pageLanded]
  rw [moves_touchPage, State.cluster_updCluster]
  simp only [State.cluster, setEntry_clusters, touch_clusters]

/-- A page comes in from its backing slot. -/
theorem endPageIn_lands (hm : MemoryForm s) (hf : f < 6144) (hr : UnitRef.scratchFrame c f ∉ s.rel.retired) :
    frameBytes (endPageIn s c k f) c f 0 2048 = memBytes s.mem (slotAddr c (eSlot (sttEntry s c k))) 2048 ∧
      eSt (sttEntry (endPageIn s c k f) c k) = 1 ∧ eFrame (sttEntry (endPageIn s c k f) c k) = f ∧
      ((endPageIn s c k f).cluster c).moves = tabDel (s.cluster c).moves k := by
  obtain ⟨hmem, hsram, -, -⟩ := hm
  have small : f < 2 ^ 13 := lt_trans hf (by decide)
  have entry := sttEntry_pageLanded (c := c) (k := k) (f := f) hmem
  have frame : eFrame (sttEntry (pageLanded s c k f) c k) = f := by
    rw [entry]; exact eFrame_mkEntry small
  have stays : endPageIn s c k f = pageLanded s c k f := by
    rw [endPageIn_eq, retirePage]
    refine if_neg fun ⟨_, _, h⟩ => hr ?_
    rw [frame, pageLanded_retired] at h
    simpa using h
  rw [stays]
  refine ⟨?_, ?_, frame, pageLanded_moves⟩
  · have read := memBytes_memWrite s.sram (frameAddr c f 0) (memBytes s.mem (slotAddr c (eSlot (sttEntry s c k))) 2048) hsram
    rw [memBytes_length] at read
    rw [frameBytes, pageLanded_sram, read]
  · rw [entry]; exact eSt_mkEntry (by decide) (eProt_lt _) small

theorem pageIn_ends (h : tabFind (s.cluster c).moves k = some (.pageIn f)) : exec (.pageIn c k) s = .next (endPageIn s c k f) := by
  show execPageIn c k s = _
  rw [execPageIn, h]

theorem pageIn_begins (h : tabFind (s.cluster c).moves k = none) (hw : tabFind (s.cluster c).wants k = some core)
    (he : eSt (sttEntry s c k) = 2) (hf : frameOrEvict s c core = some (z, f)) :
    exec (.pageIn c k) s = .next (beginPageIn z c k f) := by
  show execPageIn c k s = _
  rw [execPageIn, h, hw]
  simp only [he, ne_eq, not_true_eq_false, if_false, hf]

theorem pageOut_ends (h : tabFind (s.cluster c).moves k = some (.pageOut f)) :
    exec (.pageOut c k) s = .next (endPageOut s c k f) := by
  show execPageOut c k s = _
  rw [execPageOut, h]

theorem pageOut_none (h : tabFind (s.cluster c).moves k = none) : exec (.pageOut c k) s = .next s := by
  show execPageOut c k s = _
  rw [execPageOut, h]

theorem relocation_ends {src dst : Nat} (h : tabFind (s.cluster c).moves k = some (.reloc src dst)) :
    exec (.relocation c k core) s = .next (endReloc s c k src dst) := by
  show execRelocation c k core s = _
  rw [execRelocation, h]

theorem relocation_begins (h : tabFind (s.cluster c).moves k = none) (h1 : eSt (sttEntry s c k) = 1)
    (h2 : eProt (sttEntry s c k) ≠ 2) (h3 : eFrame (sttEntry s c k) / 128 ≠ core) (hf : freeOfCore (s.cluster c) core = some f) :
    exec (.relocation c k core) s = .next (beginReloc s c k f) := by
  show execRelocation c k core s = _
  rw [execRelocation, h]
  dsimp only
  rw [if_pos ⟨h1, h2, h3⟩, hf]

end Pages

/-! ## Curd grants (07/R163) -/

section Grants

variable {n : NodeRef} {cl : CastLive} {g : FWord} {a : Billet} (hl : (castSlot s n.cast).live = some cl)
  (hi : nodeInstr s n = some (.cAlloc g))
include hl hi

theorem curdGrant_grants (hn : steppedNow s cl n = true) (hacts : nodeActs cl n = true) (ha : headA cl n = some a)
    (hd : isData a = true) (hp : pmHolds g a.tag = true) : exec (.curdGrant n) s = .next (allocTurn s g n cl) := by
  show execCurdGrant n s = _
  simp only [execCurdGrant, hl, hi, hn, hacts, ha, hd, hp, Option.any_some, Bool.and_self, and_self, if_true]

theorem curdGrant_waits (hn : steppedNow s cl n = false) : exec (.curdGrant n) s = .next s := by
  show execCurdGrant n s = _
  simp only [execCurdGrant, hl, hi, hn, Bool.false_eq_true, false_and, if_false]

end Grants

/-- Settles O46: each clause is one branch of its event. -/
theorem copyAndPageEvents : Obligations.CopyAndPageEvents := by
  unfold Obligations.CopyAndPageEvents
  refine ⟨fun s s' c i q pa e r d sh roff => ?_, fun s c k core f src dst => ?_⟩
  · intro x moved
    refine ⟨streamerBeat_moved, fun hq hr hb hc hx => ?_, fun hq hr hb hc hx z k stop hm hh hs => ?_, fun hq hr => streamerBeat_none hq hr,
      fun id y src dst rows b who reg hp hb hc => ?_, fun he hh hd hr hw => copyCompletion_completes he hh hd hr hw,
      fun he hh hd hr hw hl => copyCompletion_halts he hh hd hr hw hl, fun y hs hh he hd hy => ?_,
      fun hn he => headEntry_reads hn he, fun y hy hr hw => headEntry_again hy hr hw,
      fun hs hd => scheduleEntryBegin_ended hs hd⟩
    · obtain ⟨rest, he⟩ := entries_of_readyHead hr
      rw [streamerBeat_bad hq hr hb hc hx, beat_bad he hx]
    · rw [streamerBeat_beat hq hr hb hc hx hs, beat_moves hx hm hh]
    · exact streamerBeat_page hp hb hc
    · rw [scheduleEntryBegin_eq hs hh he hd hy]
      exact ⟨fun hfull => if_pos hfull, fun hroom => if_neg hroom⟩
  · intro e moves
    refine ⟨fun hm hf hr hmv => ⟨_, pageIn_ends hmv, endPageIn_lands hm hf hr⟩, fun hmv => pageOut_ends hmv, fun hmv => pageOut_none hmv,
      fun hmv => relocation_ends hmv, fun hmv hw he z hf => pageIn_begins hmv hw he hf,
      fun hmv h1 h2 h3 hf => relocation_begins hmv h1 h2 h3 hf, fun n cl g a hl hi =>
        ⟨fun hn hacts ha hd hp => curdGrant_grants hl hi hn hacts ha hd hp, fun hn => curdGrant_waits hl hi hn⟩⟩

end Sys2Proof.Proofs.CopyEvents
end


section
/-! PROOFS. Castings load, move, park, return, are forced off their pages, and demands expire (16/R380, R381, 17/R397-R400). -/

namespace Sys2Proof.Proofs.CastingEvents

open Sys2Proof Sys2Proof.Machine

variable {s : State} {cid key t : Nat} {k : CastLive} {own pages : List Nat}

section Placed

variable (hm : movable s cid = some k) (hp : k.place = .placed own)
include hm hp

theorem exec_loaded : exec (.castingConfigurationLoaded cid) s = .next (updCast s cid fun k => { k with loaded := true }) := by
  show execCastingConfigurationLoaded cid s = _
  simp only [execCastingConfigurationLoaded, hm, hp]

theorem exec_move : exec (.castingMove cid pages) s = .next (if mayMove s cid k own pages then
    updCast s cid fun k => { k with place := .placed pages, moved := some s.cycle } else s) := by
  show execCastingMove cid pages s = _
  simp only [execCastingMove, hm, hp]

theorem exec_slice : exec (.castingSlice cid) s = .next (if atBoundary k ∧ toPark s cid k own then
    updCast s cid fun k => { k with place := .parked s.cycle, loaded := false } else s) := by
  show execCastingSlice cid s = _
  simp only [execCastingSlice, hm, hp]

theorem exec_return_placed : exec (.castingReturn cid) s = .next s := by
  show execCastingReturn cid s = _
  simp only [execCastingReturn, hm, hp]

theorem exec_forced : exec (.forcedPreemption cid) s = .next (if inTheWay s cid k own ∧ !isDraining k.blocks ∧ !atBoundary k ∧
    (class0Wants s (cid / 256)).any (fun since => us6 ≤ s.cycle - since) then forceCasting s cid else s) := by
  show execForcedPreemption cid s = _
  simp only [execForcedPreemption, hm, hp]

end Placed

section Parked

variable (hm : movable s cid = some k) (hp : k.place = .parked t)
include hm hp

theorem exec_return (hf : firstParked s (cid / 256) k.cls t = true)
    (hc : choosePages s (cid / 256) k.core k.cls k.blocks = some pages) : exec (.castingReturn cid) s =
      .next (updCast s cid fun k => giveTokens { k with place := .placed pages, since := s.cycle }) := by
  show execCastingReturn cid s = _
  simp only [execCastingReturn, hm, hp, hf, hc, if_true]

theorem exec_slice_parked : exec (.castingSlice cid) s = .next s := by
  show execCastingSlice cid s = _
  simp only [execCastingSlice, hm, hp]

theorem exec_loaded_parked : exec (.castingConfigurationLoaded cid) s = .next s := by
  show execCastingConfigurationLoaded cid s = _
  simp only [execCastingConfigurationLoaded, hm, hp]

end Parked

/-- A demand that its thread has not renewed in 100 µs is gone (16/R380). -/
theorem demands_expire : ((updDemands s (keyCluster key) fun l => l.filter fun d => !(d.key = key && us100 ≤ s.cycle - d.last)).cluster
    (keyCluster key)).demands =
      (s.cluster (keyCluster key)).demands.filter fun d => decide (d.key ≠ key ∨ s.cycle - d.last < us100) := by
  have stands (d : Demand) : (!(decide (d.key = key) && decide (us100 ≤ s.cycle - d.last))) =
      decide (d.key ≠ key ∨ s.cycle - d.last < us100) := by
    by_cases h : d.key = key
    · simp only [h, decide_true, Bool.true_and, ne_eq, not_true_eq_false, false_or]
      rw [← decide_not]
      exact decide_eq_decide.mpr Nat.not_le
    · simp [h]
  simp only [updDemands, State.cluster_updCluster, stands]

/-- Settles O47: each clause is one branch of its event. -/
theorem castingEvents : Obligations.CastingEvents := by
  unfold Obligations.CastingEvents
  refine fun s cid k hm => ⟨fun own hp => ⟨exec_loaded hm hp, fun pages hmv => ?_, fun pages hmv => ?_, fun hb hpark => ?_, fun hb => ?_,
    exec_return_placed hm hp, fun hw hd hb ht => ?_, fun hd => ?_⟩, fun t hp => ⟨fun hf pages hc => exec_return hm hp hf hc,
    exec_slice_parked hm hp, exec_loaded_parked hm hp⟩, fun key => ⟨_, rfl, rfl, rfl, demands_expire⟩⟩
  · rw [exec_move hm hp, if_pos hmv]
  · rw [exec_move hm hp, if_neg (ne_true_of_eq_false hmv)]
  · rw [exec_slice hm hp, if_pos ⟨hb, hpark⟩]
  · rw [exec_slice hm hp, if_neg fun h => ne_true_of_eq_false hb h.1]
  · have wants : (class0Wants s (cid / 256)).any (fun since => us6 ≤ s.cycle - since) = true := by simpa using ht
    rw [exec_forced hm hp, if_pos ⟨hw, by rw [hd]; rfl, by rw [hb]; rfl, wants⟩]
  · rw [exec_forced hm hp, if_neg fun ⟨_, h, _⟩ => by rw [hd] at h; exact absurd h (by decide)]

end Sys2Proof.Proofs.CastingEvents
end


section
/-! PROOFS. An island performs the item at the head of its order (12/R293-R309, 17/R403). -/

namespace Sys2Proof.Proofs.IslandEvents

open Sys2Proof Sys2Proof.Machine

variable {s : State} {c i : Nat} {y : ItemIn} {r : List ItemIn}

/-! ## The head of the order -/

theorem updIsland_congr {f g : Island → Island} (h : f (s.island c i) = g (s.island c i)) :
    s.updIsland c i f = s.updIsland c i g := by
  have table : tabUpd (s.cluster c).islands i {} f = tabUpd (s.cluster c).islands i {} g := by
    simp only [tabUpd]
    rw [show f (tabGet (s.cluster c).islands i {}) = g (tabGet (s.cluster c).islands i {}) from h]
  have cluster : tabUpd s.clusters c {} (fun x => { x with islands := tabUpd x.islands i {} f }) =
      tabUpd s.clusters c {} fun x => { x with islands := tabUpd x.islands i {} g } :=
    congrArg (fun t => tabPut s.clusters c { s.cluster c with islands := t }) table
  simp only [State.updIsland, State.updCluster]
  rw [cluster]

theorem castSlot_updIsland (f : Island → Island) (cid : Nat) : castSlot (s.updIsland c i f) cid = castSlot s cid := by
  by_cases h : cid / 256 = c
  · simp only [castSlot, State.updIsland, h, State.cluster_updCluster]
  · simp only [castSlot, State.updIsland, State.cluster_updCluster_ne _ _ _ _ h]

/-- The state whose island's order begins with a given item. -/
def atHead (s : State) (c i : Nat) (y : ItemIn) (r : List ItemIn) : State :=
  s.updIsland c i fun x => { x with order := y :: r }

/-- The island there. -/
def headed (s : State) (c i : Nat) (y : ItemIn) (r : List ItemIn) : Island := { s.island c i with order := y :: r }

theorem island_atHead : (atHead s c i y r).island c i = headed s c i y r := State.island_updIsland ..

/-- A halted island, or one whose downstream link is full, performs nothing (12/R294). -/
theorem performHead_halted {body : State → Island → ItemIn → State}
    (h : (s.island c i).halt = true ∨ 8 ≤ (s.island c i).link.length) : performHead s c i body = .next s := by
  simp only [performHead]
  rw [if_pos h]

/-- Every item is performed at the head. -/
theorem exists_performHead_of_mem {e : Instr} (he : e ∈ ([.rowFire c i, .readoutPerform c i, .bindPerform c i, .modeItemPerform c i,
    .scaleItemPerform c i, .accItemPerform c i, .unpinItemPerform c i, .configTokenPerform c i] : List Instr)) :
    ∃ body, exec e s = performHead s c i body := by
  simp only [List.mem_cons, List.not_mem_nil, or_false] at he
  rcases he with rfl | rfl | rfl | rfl | rfl | rfl | rfl | rfl
  · exact ⟨_, show execRowFire c i s = _ by rw [execRowFire]⟩
  · exact ⟨_, show execReadoutPerform c i s = _ by rw [execReadoutPerform]⟩
  · exact ⟨_, show execBindPerform c i s = _ by rw [execBindPerform]⟩
  · exact ⟨_, show execModeItemPerform c i s = _ by rw [execModeItemPerform]⟩
  · exact ⟨_, show execScaleItemPerform c i s = _ by rw [execScaleItemPerform]⟩
  · exact ⟨_, show execAccItemPerform c i s = _ by rw [execAccItemPerform]⟩
  · exact ⟨_, show execUnpinItemPerform c i s = _ by rw [execUnpinItemPerform]⟩
  · exact ⟨_, show execConfigTokenPerform c i s = _ by rw [execConfigTokenPerform]⟩

theorem exec_halted (h : (s.island c i).halt = true ∨ 8 ≤ (s.island c i).link.length) (e : Instr)
    (he : e ∈ ([.rowFire c i, .readoutPerform c i, .bindPerform c i, .modeItemPerform c i, .scaleItemPerform c i,
      .accItemPerform c i, .unpinItemPerform c i, .configTokenPerform c i] : List Instr)) : exec e s = .next s := by
  obtain ⟨body, hbody⟩ := exists_performHead_of_mem (s := s) he
  rw [hbody, performHead_halted h]

theorem rowError_bad {x : Island} {src : ItemSrc} {rows : List Nat} {go : State} (h : ∃ r ∈ rows, r ∈ x.badRows) :
    rowError s c i x src rows go = islandFault s c i src ⟨cData, 0, none, 0⟩ true := by
  refine if_pos ?_
  simpa [List.any_eq_true] using h

theorem rowError_good {x : Island} {src : ItemSrc} {rows : List Nat} {go : State} (h : ∀ r ∈ rows, r ∉ x.badRows) :
    rowError s c i x src rows go = go := by
  refine if_neg ?_
  simpa [List.any_eq_true] using h

section Performs

variable (hh : (s.island c i).halt = false) (hl : (s.island c i).link.length < 8) (ho : dropMarkers (s.island c i).order = y :: r)
include hh hl ho

theorem performHead_performs (body : State → Island → ItemIn → State) :
    performHead s c i body = .next (body (atHead s c i y r) (headed s c i y r) y) := by
  have free : ¬ ((s.island c i).halt = true ∨ 8 ≤ (s.island c i).link.length) := by
    rw [hh]; simp only [Bool.false_eq_true, false_or]; omega
  have head : (s.updIsland c i fun x => { x with order := dropMarkers x.order }) = atHead s c i y r :=
    updIsland_congr (by rw [ho])
  simp only [performHead]
  rw [if_neg free, ho, head]
  dsimp only
  rw [island_atHead]

/-! ## Modes, scales and the accumulator (12/R298, R303, R304) -/

theorem exec_mode {w : Word} (hy : y.it = .mode w) : exec (.modeItemPerform c i) s =
    .next (if mdRel w.toNat then resetIsland (atHead s c i y r) c i .free
      else popHead ((atHead s c i y r).updIsland c i fun x => { x with mode := some w }) c i) := by
  show execModeItemPerform c i s = _
  rw [execModeItemPerform, performHead_performs hh hl ho, hy]

theorem exec_scale {b : List Byte} (hy : y.it = .scale b) : exec (.scaleItemPerform c i) s =
    .next (popHead ((atHead s c i y r).updIsland c i fun x => setScales x 0 b) c i) := by
  show execScaleItemPerform c i s = _
  rw [execScaleItemPerform, performHead_performs hh hl ho, hy]

theorem exec_unpin_some {t : Tile} (hy : y.it = .unpin) (hc : (s.island c i).cur = some t) : exec (.unpinItemPerform c i) s =
    .next (unpinTile (popHead ((atHead s c i y r).updIsland c i fun x => { x with cur := none }) c i) t) := by
  have current : (headed s c i y r).cur = some t := hc
  show execUnpinItemPerform c i s = _
  rw [execUnpinItemPerform, performHead_performs hh hl ho, hy]
  simp only [current]

theorem exec_unpin_none (hy : y.it = .unpin) (hc : (s.island c i).cur = none) : exec (.unpinItemPerform c i) s =
    .next (popHead ((atHead s c i y r).updIsland c i fun x => { x with cur := none }) c i) := by
  have current : (headed s c i y r).cur = none := hc
  show execUnpinItemPerform c i s = _
  rw [execUnpinItemPerform, performHead_performs hh hl ho, hy]
  simp only [current]

/-- The rows of an accumulator item, and what it makes of their words and the flags. -/
def accRows (sel : BitVec 9) (n : Nat) : List Nat := (List.range n).map (sel.toNat + ·)
def accFold (x : Island) (op : Nat) (sel : BitVec 9) (n : Nat) (fill : W32) : Tab W32 × Flags :=
  ((List.range (128 * n)).map (128 * sel.toNat + ·)).foldl (fun (st : Tab W32 × Flags) key =>
    (tabPut st.1 key (accWord op fill (tabGet st.1 key 0)).1, st.2 ||| (accWord op fill (tabGet st.1 key 0)).2)) (x.acc, 0)

theorem exec_acc_bad {op n : Nat} {sel : BitVec 9} {fill : W32} (hy : y.it = .acc op sel n fill) (hop : 2 ≤ op)
    (hb : ∃ r ∈ accRows sel n, r ∈ (s.island c i).badRows) :
    exec (.accItemPerform c i) s = .next (islandFault (atHead s c i y r) c i y.src ⟨cData, 0, none, 0⟩ true) := by
  show execAccItemPerform c i s = _
  rw [execAccItemPerform, performHead_performs hh hl ho, hy]
  simp only [hop, if_true]
  exact congrArg _ (rowError_bad (x := headed s c i y r) hb)

theorem exec_acc {op n : Nat} {sel : BitVec 9} {fill : W32} (hy : y.it = .acc op sel n fill)
    (hb : op < 2 ∨ ∀ r ∈ accRows sel n, r ∉ (s.island c i).badRows) : exec (.accItemPerform c i) s =
      .next (popHead (flagItem ((atHead s c i y r).updIsland c i fun x => { x with
        acc := (accFold (s.island c i) op sel n fill).1, badRows := x.badRows.filter fun b => !(accRows sel n).contains b }) y.src
        (accFold (s.island c i) op sel n fill).2) c i) := by
  have good : ∀ j ∈ (if 2 ≤ op then accRows sel n else []), j ∉ (headed s c i y r).badRows := by
    split
    · exact hb.resolve_left (by omega)
    · exact fun j h => absurd h List.not_mem_nil
  show execAccItemPerform c i s = _
  rw [execAccItemPerform, performHead_performs hh hl ho, hy]
  exact congrArg _ (rowError_good good)

/-! ## Rows (12/R295, 01/R17) -/

section Row

variable {b : List Byte} {sel : BitVec 9} (hy : y.it = .row b sel)
include hy

theorem exec_row_faults {e : Exn} (hf : rowFault (s.island c i) = some e) :
    exec (.rowFire c i) s = .next (islandFault (atHead s c i y r) c i y.src e true) := by
  have fault : rowFault (headed s c i y r) = some e := hf
  have row : isRow y.it = true := by rw [hy]; rfl
  show execRowFire c i s = _
  rw [execRowFire, performHead_performs hh hl ho]
  simp only [row, Bool.not_true, Bool.false_eq_true, if_false, fault]

variable {w : Word} {t : Tile} (hm : (s.island c i).mode = some w) (hc : (s.island c i).cur = some t)
  (hf : rowFault (s.island c i) = none)
include hm hf

theorem exec_row_waits (hs : slotFree w.toNat s.cycle (s.island c i).slot = false) :
    exec (.rowFire c i) s = .next (atHead s c i y r) := by
  have fault : rowFault (headed s c i y r) = none := hf
  have row : isRow y.it = true := by rw [hy]; rfl
  have waits : slotFree ((headed s c i y r).mode.getD 0).toNat (atHead s c i y r).cycle (headed s c i y r).slot = false := by
    rw [show (headed s c i y r).mode = some w from hm]
    exact hs
  show execRowFire c i s = _
  rw [execRowFire, performHead_performs hh hl ho]
  simp only [row, Bool.not_true, Bool.false_eq_true, if_false, fault, waits]

include hc

theorem exec_row (hs : slotFree w.toNat s.cycle (s.island c i).slot = true) :
    let p := fireRow (headed s c i y r) w.toNat t b sel.toNat
    exec (.rowFire c i) s = .next (rowError (atHead s c i y r) c i (headed s c i y r) y.src [sel.toNat]
      (popHead (flagItem ((atHead s c i y r).updIsland c i fun _ =>
        { p.1 with slot := nextSlot w.toNat s.cycle (s.island c i).slot }) y.src p.2) c i)) := by
  have fault : rowFault (headed s c i y r) = none := hf
  have row : isRow y.it = true := by rw [hy]; rfl
  have mode : (headed s c i y r).mode = some w := hm
  have cur : (headed s c i y r).cur = some t := hc
  have free : slotFree ((headed s c i y r).mode.getD 0).toNat (atHead s c i y r).cycle (headed s c i y r).slot = true := by
    rw [mode]
    exact hs
  intro p
  show execRowFire c i s = _
  rw [execRowFire, performHead_performs hh hl ho]
  simp only [row, Bool.not_true, Bool.false_eq_true, if_false, fault, free, if_true, fireHead]
  rw [hy]
  simp only [fireWith, mode, cur]
  rfl

end Row

/-! ## Readouts (12/R297) -/

section Readout

variable {sel : BitVec 9} {num g inv : Nat} {n : NodeRef} {l : ThreadRef} {k : CastLive} (hy : y.it = .readout sel num)
  (hsrc : y.src = .node n g l inv) (hk : (castSlot s n.cast).live = some k)
include hy hsrc hk

/-- What a readout leaves when its row is sound. -/
def readoutLeaves (s : State) (c i : Nat) (y : ItemIn) (r : List ItemIn) (n : NodeRef) (g num : Nat) (k : CastLive) (words : List W32) :
    State :=
  if decide ((nodeAt k n).req.isSome ∧ (nodeAt k n).nreq = num + 1) ∧ (castSlot s n.cast).gen = g then
    (popHead (atHead s c i y r) c i).updIsland c i fun x => { x with link := x.link ++ [⟨n, words⟩] }
  else popHead (atHead s c i y r) c i

theorem exec_readout : exec (.readoutPerform c i) s = .next (rowError (atHead s c i y r) c i (headed s c i y r) y.src [sel.toNat]
    (readoutLeaves s c i y r n g num k
      ((List.range 128).map fun j => tabGet (s.island c i).acc (128 * sel.toNat + j) 0))) := by
  have slot : castSlot (atHead s c i y r) n.cast = castSlot s n.cast := castSlot_updIsland ..
  have popped : castSlot (popHead (atHead s c i y r) c i) n.cast = castSlot s n.cast := (castSlot_updIsland ..).trans slot
  show execReadoutPerform c i s = _
  rw [execReadoutPerform, performHead_performs hh hl ho, hy, hsrc]
  dsimp only
  rw [slot, popped, hk]
  rfl

end Readout

/-! ## B tiles (12/R299) -/

section Bind

variable {d : TileDesc} {t : Tile} (hy : y.it = .bind d) (hp : (s.island c i).pending = some t)
include hy hp

theorem exec_bind : exec (.bindPerform c i) s = .next (
    if t.refused then islandFault (atHead s c i y r) c i y.src ⟨cIsland, 4, none, 0⟩ true
    else if !t.mapped then
      (match fetchTile (atHead s c i y r) c i (islandAgent (atHead s c i y r) c (headed s c i y r)).asid d with
       | (s, none) => s
       | (s, some e) => islandFault s c i y.src e false)
    else if tileUnscaled (atHead s c i y r) t then islandFault (atHead s c i y r) c i y.src ⟨cIsland, 2, none, 0⟩ true
    else if !t.loaded ∧ tileBadLine (atHead s c i y r) (islandAgent (atHead s c i y r) c (headed s c i y r)) t then
      islandFault (atHead s c i y r) c i y.src ⟨cData, 0, none, 0⟩ false
    else if t.granted ∧ t.loaded then makeCurrent (atHead s c i y r) c i (headed s c i y r) t
    else atHead s c i y r) := by
  have pending : (headed s c i y r).pending = some t := hp
  show execBindPerform c i s = _
  rw [execBindPerform, performHead_performs hh hl ho, hy, pending] <;> rfl

end Bind

/-! ## Configuration tokens (12/R306) -/

theorem exec_token {csel : BitVec 11} {b : Billet} (hy : y.it = .token csel b) : exec (.configTokenPerform c i) s = .next (
    if bits csel.toNat 10 9 = 0 then
      popHead ((atHead s c i y r).updIsland c i fun x => setScales x (16 * bits csel.toNat 2 0)
        ((List.range 16).map fun m => BitVec.ofNat 8 (fieldOf b.data (m / 4) / 256 ^ (m % 4)))) c i
    else if modeOk (fieldOf b.data 0) ∧ !mdRel (fieldOf b.data 0) then
      popHead ((atHead s c i y r).updIsland c i fun x => { x with mode := some (BitVec.ofNat 64 (fieldOf b.data 0)) }) c i
    else islandFault (atHead s c i y r) c i y.src ⟨cIsland, 1, none, 0⟩ true) := by
  show execConfigTokenPerform c i s = _
  rw [execConfigTokenPerform, performHead_performs hh hl ho, hy]

end Performs

/-! ## Loads of tiles (12/R300) -/

theorem tileLoadComplete_loads {t : Tile} (hp : (s.island c i).pending = some t) (hg : t.granted = true) (hl : t.loaded = false)
    (hb : tileBadLine s (islandAgent s c (s.island c i)) t = false) (hu : tileUnscaled s t = false) :
    ∃ u, exec (.tileLoadComplete c i) s = .next u ∧ (u.island c i).pending = some { t with
      loaded := true, cols := (List.range 128).map (loadColumn s (islandAgent s c (s.island c i)) t) } := by
  have countInvalid_island (s : State) (die n : Nat) : (countInvalid s die n).island c i = s.island c i := by
    unfold countInvalid
    split <;> rfl
  have loads : ¬ ((!t.granted) = true ∨ t.loaded = true ∨ tileUnscaled s t = true ∨
      tileBadLine s (islandAgent s c (s.island c i)) t = true) := by simp [hg, hl, hb, hu]
  show ∃ u, execTileLoadComplete c i s = .next u ∧ _
  rw [execTileLoadComplete, hp]
  dsimp only
  rw [if_neg loads]
  exact ⟨_, rfl, by rw [countInvalid_island, State.island_updIsland]⟩

/-- Settles O48: each clause is one branch of the performed item. -/
theorem islandEvents : Obligations.IslandEvents := by
  unfold Obligations.IslandEvents
  intro s c i y r x z pop all
  refine ⟨exec_halted, fun hh hl ho => ⟨fun w hy => ?_, fun b hy => exec_scale hh hl ho hy, fun hy => ?_, fun op sel n fill hy => ?_,
    fun b sel hy => ?_, fun sel num n g l inv k hy hsrc hk => ?_, fun d t hy hp => ?_, fun csel b hy => ?_⟩,
    fun t hp hg hl hb hu => tileLoadComplete_loads hp hg hl hb hu⟩
  · rw [exec_mode hh hl ho hy]
    exact ⟨fun hr => congrArg _ (if_neg (ne_true_of_eq_false hr)), fun hr => congrArg _ (if_pos hr)⟩
  · cases hc : (s.island c i).cur with
    | some t =>
      rw [exec_unpin_some hh hl ho hy hc]
      rfl
    | none =>
      rw [exec_unpin_none hh hl ho hy hc]
      rfl
  · exact ⟨fun hop hb => exec_acc_bad hh hl ho hy hop hb, fun hb => ⟨_, _, rfl, exec_acc hh hl ho hy hb⟩⟩
  · refine ⟨fun e hf => exec_row_faults hh hl ho hy hf, fun w t hm hc hf hs => exec_row_waits hh hl ho hy hm hf hs,
      fun w t hm hc hf hs hb => ?_, fun w t hm hc hf hs hb => ?_⟩
    · rw [exec_row hh hl ho hy hm hc hf hs]
      exact congrArg _ (rowError_bad ⟨_, List.mem_singleton_self _, hb⟩)
    · rw [exec_row hh hl ho hy hm hc hf hs]
      exact congrArg _ (rowError_good fun _ hr => List.mem_singleton.mp hr ▸ hb)
  · rw [exec_readout hh hl ho hy hsrc hk]
    refine ⟨fun hb => ?_, fun hb hgen hreq hn => ?_, fun hb hno => ?_⟩
    · exact congrArg _ (rowError_bad ⟨_, List.mem_singleton_self _, hb⟩)
    · rw [rowError_good fun _ hr => List.mem_singleton.mp hr ▸ hb]
      exact congrArg _ (if_pos ⟨by simp [hreq, hn], hgen⟩)
    · rw [rowError_good fun _ hr => List.mem_singleton.mp hr ▸ hb]
      refine congrArg _ (if_neg fun ⟨hw, hgen⟩ => ?_)
      obtain ⟨hreq, hn⟩ := of_decide_eq_true hw
      rcases hno with h | h | h
      · exact h hgen
      · rw [h] at hreq; cases hreq
      · exact h hn
  · rw [exec_bind hh hl ho hy hp]
    refine ⟨fun hr => congrArg _ (if_pos hr), fun hr hm => ?_, fun hr hm hu hg hload => ?_, fun hr hm hu => ?_⟩
    · rw [hr, hm]
      rfl
    · rw [hr, hm, show tileUnscaled (atHead s c i y r) t = false from hu, hg, hload]
      rfl
    · rw [hr, hm, show tileUnscaled (atHead s c i y r) t = true from hu]
      rfl
  · intro w
    rw [exec_token hh hl ho hy]
    refine ⟨fun h0 => congrArg _ (if_pos h0), fun h0 hok hrel => ?_, fun h0 hno => ?_⟩
    · rw [if_neg h0]
      exact congrArg _ (if_pos ⟨hok, by rw [hrel]; rfl⟩)
    · rw [if_neg h0]
      refine congrArg _ (if_neg fun ⟨hok, hrel⟩ => ?_)
      rcases hno with h | h
      · exact ne_true_of_eq_false h hok
      · rw [h] at hrel; exact absurd hrel (by decide)

end Sys2Proof.Proofs.IslandEvents
end


section
/-! PROOFS. Key-value copies end and draft windows commit (13/R317, R319, R320, R325). -/

namespace Sys2Proof.Proofs.KeyValueEvents

open Sys2Proof Sys2Proof.Machine

variable {s : State} {id : Nat} {r : SeqRef} {i src dst rows page slot ring : Nat} {b : Bool} {pb : PageBeats} {who : ThreadRef}
  {reg : RegLoc} {w : Window}

theorem exec_append (h : tabFind s.kvCopies id = some (.append r src dst rows pb who reg)) : exec (.appendPageCopyComplete id) s =
    .next (if pb.done < pageBytes s r rows then s else readyResult (dropCopy s id) who reg) := by
  show execAppendPageCopyComplete id s = _
  rw [execAppendPageCopyComplete, h]

/-! ## Demotions (13/R319) -/

section Demote

variable (h : tabFind s.kvCopies id = some (.demote r i page slot who reg))
include h

/-- The memory once a demotion's page is copied. -/
def demoted (s : State) (r : SeqRef) (i page slot : Nat) : State :=
  noteSpans (kvCopyBytes s r.q (pageOff s r.q.poolRef page) (slotOff s r.q.poolRef slot) (pageLen s r.q.poolRef))
    [recordSpan r.q, entrySpan r.q i, descSpan s r.q.poolRef page]

theorem exec_demote_open (ho : (stillOpen s r && leSt (listEntry s r.q i) == 0 && lePage (listEntry s r.q i) == page) = true) :
    exec (.demoteComplete id) s = .next (readyResult (dropCopy
      (setEntry4 (freePage (demoted s r i page slot) r.q.poolRef page) r.q i (mkList slot 0 2)) id) who reg) := by
  show execDemoteComplete id s = _
  rw [execDemoteComplete, h]
  exact congrArg (fun z => Host.Outcome.next (readyResult (dropCopy z id) who reg)) (if_pos ho)

theorem exec_demote_closed (ho : stillOpen s r = false) :
    exec (.demoteComplete id) s = .next (readyResult (dropCopy (demoted s r i page slot) id) who reg) := by
  have closed : ¬ (stillOpen s r && decide (leSt (listEntry s r.q i) = 0) && decide (lePage (listEntry s r.q i) = page)) = true := by
    simp [ho]
  show execDemoteComplete id s = _
  rw [execDemoteComplete, h]
  exact congrArg (fun z => Host.Outcome.next (readyResult (dropCopy z id) who reg)) (if_neg closed)

end Demote

/-! ## Promotions (13/R320) -/

theorem exec_promotionBegin (h : tabFind s.kvCopies id = some (.promote r i page slot ring b who)) :
    exec (.promotionCopyBegin id) s =
      .next { s with kvCopies := tabPut s.kvCopies id (.promote r i page slot ring true who) } := by
  show execPromotionCopyBegin id s = _
  rw [execPromotionCopyBegin, h]

theorem exec_promotion_waits (h : tabFind s.kvCopies id = some (.promote r i page slot ring false who)) :
    exec (.promotionComplete id) s = .next s := by
  show execPromotionComplete id s = _
  rw [execPromotionComplete, h]

theorem exec_promotion_ends (h : tabFind s.kvCopies id = some (.promote r i page slot ring true who)) :
    let z := kvCopyBytes s r.q (slotOff s r.q.poolRef slot) (pageOff s r.q.poolRef page) (pageLen s r.q.poolRef)
    exec (.promotionComplete id) s = .next (promotionSlot (dropCopy
      (if stillOpen s r then setEntry4 z r.q i (mkList page 0 0) else freePage z r.q.poolRef page) id) r ring false who) := by
  intro z
  show execPromotionComplete id s = _
  rw [execPromotionComplete, h]

/-! ## The commit point (13/R325) -/

theorem exec_commit (h : (tabGet s.wins id {}).live = some w) : exec (.commitPoint id) s = .next (
    if w.st = .closing && !w.waits && (seqWindows s w.seq).all fun x => w.ord ≤ x.2.ord then retireWindow s id w.keep else s) := by
  show execCommitPoint id s = _
  rw [execCommitPoint, h]

/-- Settles O49: each clause is one branch of its event. -/
theorem keyValueEvents : Obligations.KeyValueEvents := by
  unfold Obligations.KeyValueEvents
  intro s id r i src dst rows page slot ring b pb who reg w p
  refine ⟨fun h => ?_, fun h => ⟨fun ho => exec_demote_open h ho, fun ho => exec_demote_closed h ho⟩, exec_promotionBegin,
    exec_promotion_waits, exec_promotion_ends, fun h => ?_⟩
  · rw [exec_append h]
    exact ⟨fun hd => congrArg _ (if_pos hd), fun hd => congrArg _ (if_neg (by omega))⟩
  · rw [exec_commit h]
    refine ⟨fun hs hw ha => congrArg _ (if_pos ?_), fun hn => congrArg _ (if_neg ?_), fun ⟨x, hx, hlt⟩ => congrArg _ (if_neg ?_)⟩
    · simpa [hs, hw] using ha
    · rcases hn with hn | hn <;> simp [hn]
    · simp only [Bool.and_eq_true, List.all_eq_true, decide_eq_true_eq]
      exact fun ⟨_, hall⟩ => absurd (hall x hx) (by omega)

end Sys2Proof.Proofs.KeyValueEvents
end


section
/-! PROOFS. The dispatcher's events (16/R372-R384, 17/R402). -/

namespace Sys2Proof.Proofs.DispatcherEvents

open Sys2Proof Sys2Proof.Machine Sys2Proof.Proofs.Pods

variable {s s' s1 z z1 : State} {q x : Nat} {r : Record} {pl : List (List Nat × Nat)} {b tb vb : List Byte}

/-! ## Queues -/

@[simp] theorem lq_updLq (s : State) (q : Nat) (f : LQueue → LQueue) : (s.updLq q f).lq q = f (s.lq q) := by
  simp [State.lq, State.updLq, tabUpd, tabGet_tabPut_self]

theorem updLq_congr {f g : LQueue → LQueue} (h : f (s.lq q) = g (s.lq q)) : s.updLq q f = s.updLq q g := by
  have table : tabUpd s.lqs q {} f = tabUpd s.lqs q {} g := by
    simp only [tabUpd]
    rw [show f (tabGet s.lqs q {}) = g (tabGet s.lqs q {}) from h]
  simp only [State.updLq, table]

theorem lq_of_sameActors (h : SameActors s z) (q : Nat) : z.lq q = s.lq q := by simp only [State.lq, h.lqs]

/-! ## What the dispatcher's reads leave alone -/

theorem sameActors_readPiece {asid : BitVec 14} {va n : Nat} (h : readPiece s asid va n = .ok (b, z)) : SameActors s z := by
  simp only [readPiece] at h
  cases ht : translate s asid va .load with
  | error e => rw [ht] at h; cases h
  | ok t =>
    rw [ht] at h
    cases t with
    | dev pa =>
      dsimp only at h
      split at h
      · cases h
      · cases h
        exact (SameActors.noteWalk s asid va).trans (.of_lines (touch_lines _ pa n))
    | _ => cases h

theorem sameActors_readFold {asid : BitVec 14} {l : List (Nat × Nat)} {b' : List Byte}
    (h : foldE (fun (r : List Byte × State) p => (readPiece r.2 asid p.1 p.2).map fun x => (r.1 ++ x.1, x.2)) (b', s) l = .ok (b, z)) :
    SameActors s z := by
  induction l generalizing s b' with
  | nil => cases h; exact .refl _
  | cons p l ih =>
    simp only [foldE] at h
    cases hp : readPiece s asid p.1 p.2 with
    | error e => rw [hp] at h; cases h
    | ok y => rw [hp] at h; exact (sameActors_readPiece hp).trans (ih h)

theorem sameActors_readLocal {asid : BitVec 14} {va n : Nat} (h : readLocal s asid va n = .ok (b, z)) : SameActors s z :=
  sameActors_readFold h

theorem sameActors_schedHeader {w : Nat} (h : schedHeader s r = some (w, z)) : SameActors s z := by
  simp only [schedHeader] at h
  split at h
  · cases h
  · split at h
    · cases h
    · split at h
      · cases h
        exact sameActors_readLocal ‹_›
      · cases h

theorem sameActors_afterDep (s : State) (r : Record) : SameActors s (afterDep s r) := by
  simp only [afterDep]
  split
  · exact SameActors.readPieces ‹_›
  · exact .refl s

/-! ## Polls (16/R372) -/

theorem exec_poll_disabled (h : lqEn s q = false) : exec (.dispatcherPoll q) s = .next s := by
  show execDispatcherPoll q s = _
  simp only [execDispatcherPoll, readQueue, h, Bool.not_false, if_true, ite_self]

theorem exec_check_disabled (h : lqEn s q = false) : exec (.recordCheck q) s = .next s := by
  show execRecordCheck q s = _
  simp only [execRecordCheck, h, Bool.not_false, true_or, or_true, if_true]

section Poll

variable (hq : q < 64) (he : lqEn s q = true) (ho : (s.lq q).opened = true) (hr : (s.lq q).record = none)
include hq he ho hr

theorem exec_poll : exec (.dispatcherPoll q) s = .next (pollQueue s q) := by
  show execDispatcherPoll q s = _
  simp only [execDispatcherPoll, hq, if_true, readQueue, he, ho, hr, Bool.not_true, Bool.false_eq_true, if_false, Option.isSome_none]

end Poll

section Read

variable (hb : lqRead s q 0 8 = .ok (tb, s1)) (hlt : leNat tb < 2 ^ 64)
include hb hlt

/-- The queue once its TAIL is read. -/
def tailRead (s1 : State) (q : Nat) (tb : List Byte) : State :=
  s1.updLq q fun l => { l with tail := BitVec.ofNat 64 (leNat tb), posted := false }

theorem pollQueue_empty (hle : leNat tb ≤ (s.lq q).head.toNat) :
    pollQueue s q = (tailRead s1 q tb).updLq q fun l => { l with ready := false } := by
  have tail : (BitVec.ofNat 64 (leNat tb)).toNat = leNat tb := by rw [BitVec.toNat_ofNat, Nat.mod_eq_of_lt hlt]
  have head : s1.lq q = s.lq q := lq_of_sameActors (sameActors_readLocal hb) q
  simp only [pollQueue, hb, tail, head]
  exact if_pos hle

theorem pollQueue_record (hh : (s.lq q).head.toNat < leNat tb)
    (hv : lqRead (tailRead s1 q tb) q (slotAt (tailRead s1 q tb) q (s.lq q).head + 60) 4 = .ok (vb, z1)) :
    pollQueue s q = z1.updLq q fun l => { l with ready := decide (leNat vb = (l.head.toNat + 1) % 2 ^ 32) } := by
  have tail : (BitVec.ofNat 64 (leNat tb)).toNat = leNat tb := by rw [BitVec.toNat_ofNat, Nat.mod_eq_of_lt hlt]
  have head : s1.lq q = s.lq q := lq_of_sameActors (sameActors_readLocal hb) q
  have kept : (z1.lq q).head = (s.lq q).head := by
    rw [lq_of_sameActors (sameActors_readLocal hv) q, tailRead, lq_updLq, head]
  simp only [tailRead] at hv
  simp only [pollQueue, hb, tail, head]
  rw [if_neg (by omega), hv]
  exact updLq_congr (by rw [kept])

end Read

/-! ## Checks (16/R373) -/

/-- The record, its schedule's header, and the queue that holds them. -/
def recordHeld (z : State) (q : Nat) (b : List Byte) : State :=
  let r := recordOfBits (leNat b)
  let x := ((if r.sen then schedHeader z r else none)).getD (0, z)
  let r := { r with shdr := x.1 }
  noteHeld (x.2.updLq q fun l => { l with record := some r, home := homeOf z r, admitted := z.cycle }) q

theorem exec_check (hq : q < 64) (he : lqEn s q = true) (ho : (s.lq q).opened = true) (hy : (s.lq q).ready = true)
    (hr : (s.lq q).record = none) (hb : lqRead s q (slotAt s q (s.lq q).head) 256 = .ok (b, s1)) :
    exec (.recordCheck q) s = .next (
      if recordCause s1 q (leNat b) ≠ 0 then
        consume (s1.updLq q fun l => { l with posted := false }) q (2 + recordCause s1 q (leNat b) * 256)
      else recordHeld (s1.updLq q fun l => { l with posted := false }) q b) := by
  have due : ¬ (64 ≤ q ∨ (!lqEn s q) = true ∨ (!(s.lq q).opened) = true ∨ (!(s.lq q).ready) = true ∨ (s.lq q).record.isSome = true) := by
    simp [he, ho, hy, hr, hq]
  show execRecordCheck q s = _
  simp only [execRecordCheck]
  rw [if_neg due, hb]
  rfl

/-- Noting whether a record is held changes that alone. -/
theorem noteHeld_lq (s : State) (q : Nat) : ∃ h, (noteHeld s q).lq q = { s.lq q with heldAt := h } := by
  simp only [noteHeld]
  split
  · exact ⟨_, rfl⟩
  · exact ⟨_, by rw [lq_updLq, lq_of_sameActors (sameActors_afterDep ..)]⟩

theorem sameActors_header (z : State) (r : Record) : SameActors z ((if r.sen then schedHeader z r else none).getD (0, z)).2 := by
  split
  · cases h : schedHeader z r with
    | none => exact .refl z
    | some x => exact sameActors_schedHeader h
  · exact .refl z

/-- What stands in the queue once its record is held. -/
theorem recordHeld_lq (z : State) (q : Nat) (b : List Byte) :
    ((recordHeld z q b).lq q).record.map (fun r => { r with shdr := 0 }) = some (recordOfBits (leNat b)) ∧
      ((recordHeld z q b).lq q).head = (z.lq q).head ∧ ((recordHeld z q b).lq q).admitted = z.cycle := by
  obtain ⟨h, held⟩ := noteHeld_lq ((((if (recordOfBits (leNat b)).sen then schedHeader z (recordOfBits (leNat b)) else none)).getD
    (0, z)).2.updLq q fun l => { l with
      record := some { recordOfBits (leNat b) with
        shdr := (((if (recordOfBits (leNat b)).sen then schedHeader z (recordOfBits (leNat b)) else none)).getD (0, z)).1 }
      home := homeOf z { recordOfBits (leNat b) with
        shdr := (((if (recordOfBits (leNat b)).sen then schedHeader z (recordOfBits (leNat b)) else none)).getD (0, z)).1 }
      admitted := z.cycle }) q
  simp only [recordHeld]
  rw [held, lq_updLq, lq_of_sameActors (sameActors_header z (recordOfBits (leNat b)))]
  exact ⟨rfl, rfl, rfl⟩

/-! ## Starts and steals (16/R374, R377-R381) -/

section Start

variable (hr : (s.lq q).record = some r) (hp : pickQueue s (startableQueues s) = some (x, s'))
include hr hp

theorem exec_start_other (hx : x ≠ q) : exec (.launchStart q) s = .next s := by
  show execLaunchStart q s = _
  simp only [execLaunchStart, hr, hp, hx, if_false]

theorem exec_start (hx : x = q) (hs : startable s' r (s'.lq q).home = some pl) :
    exec (.launchStart q) s = .next (placeLaunch (afterDep s' r) q r pl) := by
  show execLaunchStart q s = _
  simp only [execLaunchStart, hr, hp, hx, if_true, hs]

end Start

section Steal

variable {t g : Nat} (hr : (s.lq q).record = some r) (ht : (s.lq q).heldAt = some t)
include hr ht

theorem exec_steal_early (hc : s.cycle < t + s.regs.stealt.toNat) : exec (.steal q) s = .next s := by
  have early : decide (t + s.regs.stealt.toNat ≤ s.cycle) = false := decide_eq_false (by omega)
  show execSteal q s = _
  simp only [execSteal, hr, ht, early, Bool.false_and]

theorem exec_steal (hc : t + s.regs.stealt.toNat ≤ s.cycle) (hw : wantsPlace s r (s.lq q).home = true) (he : lqEn s q = true)
    (hg : ((List.range 31).map fun i => ((s.lq q).home + 1 + i) % 32).find? (fun g => (placeThreads s r g).isSome) = some g)
    (hs : startable s r g = some pl) (hp : pickQueue s (startableQueues s ++ [q]) = some (q, s')) :
    exec (.steal q) s = .next (placeLaunch (afterDep s' r) q r pl) := by
  show execSteal q s = _
  simp only [execSteal, hr, ht, hc, decide_true, hw, he, Bool.and_self, hg, Option.bind_some, hs, hp, if_true]

end Steal

theorem exec_watchdog {n : LaunchRef} {v : Launch} (h : launchOf s n = some v) : exec (.watchdogExpiry n) s =
    .next (if v.limit ≠ 0 ∧ v.limit * 800 < v.counted then postFree (killLaunch s n) .kill else s) := by
  show execWatchdogExpiry n s = _
  rw [execWatchdogExpiry, h]

/-- Settles O50: each clause is one branch of its event. -/
theorem dispatcherEvents : Obligations.DispatcherEvents := by
  unfold Obligations.DispatcherEvents
  intro s s' s1 z1 q x r pl b tb vb l
  refine ⟨fun he => ⟨exec_poll_disabled he, exec_check_disabled he⟩, fun hq he ho hr hb => ⟨fun hle hlt => ?_, fun hh hlt hv => ?_⟩,
    fun hq he ho hy hr hb => ?_, fun hr hp => ⟨exec_start_other hr hp, fun hx hs => ?_⟩, fun t hr ht =>
      ⟨exec_steal_early hr ht, fun g hc hw he hg hs hp => exec_steal hr ht hc hw he hg hs hp⟩, fun n v h => ?_⟩
  · rw [exec_poll hq he ho hr, pollQueue_empty hb hlt hle]
    rfl
  · rw [exec_poll hq he ho hr, pollQueue_record hb hlt hh hv]
  · rw [exec_check hq he ho hy hr hb]
    refine ⟨fun hc => congrArg _ (if_pos hc), fun hc => ⟨_, congrArg _ (if_neg fun h => h hc), ?_⟩⟩
    obtain ⟨hrec, hhead, hadm⟩ := recordHeld_lq (s1.updLq q fun l => { l with posted := false }) q b
    have read := sameActors_readLocal hb
    refine ⟨hrec, hhead.trans ?_, hadm.trans read.cycle⟩
    rw [lq_updLq, lq_of_sameActors read]
  · rw [exec_start hr hp hx hs]
    exact ⟨fun hok => congrArg _ (if_pos hok), fun hok => congrArg _ (if_neg (ne_true_of_eq_false hok))⟩
  · rw [exec_watchdog h]
    split <;> rfl

end Sys2Proof.Proofs.DispatcherEvents
end


section
/-! PROOFS. Opening a launch queue whose header has a reserved byte set (16/R370, R371). -/

namespace Sys2Proof.Proofs.HostEvents

open Sys2Proof Sys2Proof.Machine Sys2Proof.Proofs.DispatcherEvents

/-! ## A header whose reserved bytes are not zero

`LQCTL` 0 to 1 reads the queue's header of 256 bytes, and opens the queue only where bytes 16 and up are zero. The statement
opens the queue on the first 16 bytes alone. -/

/-- Queue 0 lies at 0x40000, and byte 16 of its header is 1. -/
def closedState : State :=
  { State.reset with
    regs := { State.reset.regs with asidt := 1, lqbase := [(0, 0x40000)] }
    tlb := [⟨0, 0, 30, 0, 0, 0, true, true⟩]
    mem := memWrite State.reset.mem 0x40010 [1] }

/-- What the host writes to `LQCTL` of queue 0: EN, and ASID 0. -/
def enableWord : Word := 0x8000000000000000

/-- The machine as the header is read. -/
def enabledState : State :=
  { closedState with regs := { closedState.regs with
    lqctl := tabPut closedState.regs.lqctl 0 (enableWord &&& 0xFFFFF80000000000) } }.updLq 0 fun _ => {}

/-- Whether queue 0 is open in what an event leaves. -/
def openedIn : Answer → Option Bool
  | .next s => some (s.lq 0).opened
  | _ => none

/-- The first 16 bytes of the header can be read. -/
theorem header_read : ∃ z, readLocal enabledState (lqAsid enabledState 0) (lqBase enabledState 0) 16 = .ok (List.replicate 16 0, z) := by
  have bytes : (readLocal enabledState (lqAsid enabledState 0) (lqBase enabledState 0) 16).toOption.map (·.1) =
      some (List.replicate 16 0) := by decide +kernel
  cases h : readLocal enabledState (lqAsid enabledState 0) (lqBase enabledState 0) 16 with
  | error e => rw [h] at bytes; cases bytes
  | ok x =>
    rw [h] at bytes
    obtain ⟨b, z⟩ := x
    obtain rfl : b = List.replicate 16 0 := Option.some.inj bytes
    exact ⟨z, rfl⟩

theorem closedState_up : closedState.phase = .up ∧ closedState.pci.d3hot = false ∧ lqEn closedState 0 = false ∧
    bit enableWord.toNat 63 = true := by decide +kernel

/-- The model leaves the queue closed. -/
theorem openedIn_lqctlWrite : openedIn (exec (.lqctlWrite 0 enableWord) closedState) = some false := by decide +kernel

/-- Refutes O51: in `closedState` the header's byte 16 is 1, and the queue stays closed. -/
theorem not_hostEvents : ¬ Obligations.HostEvents := by
  unfold Obligations.HostEvents
  intro h
  obtain ⟨up, d3hot, disabled, enables⟩ := closedState_up
  obtain ⟨z, read⟩ := header_read
  obtain ⟨-, -, -, -, -, -, -, -, -, -, -, opens, -⟩ :=
    (h closedState enabledState 0 0 0 0 0 0 0 0 enableWord [] (List.replicate 16 0) (.fetchAdd 0) (placedThread false) 
      { dests := [], vals := [], wait := none, err := none, addr := 0, field := 0, pc := 0, inFault := false, counted := false }).2 up d3hot
  have opened := congrArg openedIn ((opens (by decide) disabled enables rfl).2 z read)
  rw [openedIn_lqctlWrite] at opened
  -- The statement's queue is open.
  have := Option.some.inj opened
  rw [lq_updLq] at this
  cases this

end Sys2Proof.Proofs.HostEvents
end


section
/-! PROOFS. The management mailbox, reset and heat (18/R411, R412, R427-R429, 17/R396, R401, R402, 19/R432-R437). -/

namespace Sys2Proof.Proofs.ManagementEvents

open Sys2Proof Sys2Proof.Machine Sys2Proof.Proofs.Channels

variable {s : State} {req : List Word} {code : Word} {f : List Word → State → Reply}

/-! ## The doorbell (18/R411) -/

/-- The state once `REQ` is written. -/
def asked (s : State) (req : List Word) : State := { s with mbox := { s.mbox with req := reqAfter s req } }

/-- A command that runs. -/
def runs (code : Word) (r : Reply) : Answer :=
  .next { r.st with mbox := { r.st.mbox with busy := true, code := code, next := (r.rstat, r.resp) } }

theorem reqAfter_getElem? {i : Nat} (h32 : i < 32) (hi : i < req.length) : (reqAfter s req)[i]? = req[i]? := by
  rw [reqAfter, List.getElem?_take_of_lt h32, List.getElem?_append_left hi]

theorem doorbell_unreachable (h : reachable s = false) : doorbell s code req f = .next s := by
  simp only [doorbell, h, Bool.not_false, if_true]

theorem doorbell_busy (h : reachable s = true) (hb : s.mbox.busy = true) : doorbell s code req f = .next (asked s req) := by
  simp only [doorbell, h, Bool.not_true, Bool.false_eq_true, if_false]
  exact congrArg _ (if_pos hb)

theorem doorbell_runs (h : reachable s = true) (hb : s.mbox.busy = false) :
    doorbell s code req f = runs code (f (reqAfter s req) (asked s req)) := by
  simp only [doorbell, h, Bool.not_true, Bool.false_eq_true, if_false]
  exact congrArg _ (if_neg (ne_true_of_eq_false hb))

theorem command_recovery (h : reachable s = true) (hp : s.phase = .recovery) (hb : s.mbox.busy = false) :
    command s code req f = runs code ⟨asked s req, 1, []⟩ := by
  rw [command, doorbell_runs h hb, if_pos (show (asked s req).phase = .recovery from hp)]

theorem command_runs (h : reachable s = true) (hp : s.phase = .up) (hb : s.mbox.busy = false) :
    command s code req f = runs code (f (reqAfter s req) (asked s req)) := by
  have up : ¬ (asked s req).phase = .recovery := by
    show ¬ s.phase = .recovery
    rw [hp]
    decide
  rw [command, doorbell_runs h hb, if_neg up]

/-- The commands that the recovery state refuses. -/
theorem exists_command_of_gated {i : Word × Instr} (hi : i ∈ ([(1, .killLaunch req), (2, .haltCasting req), (3, .releaseCasting req),
    (4, .haltThread req), (5, .releaseThread req), (6, .watchdogLimit req), (7, .readContextStore req),
    (9, .attestationReport req)] : List (Word × Instr))) (s : State) :
    ∃ f, exec i.2 s = command s i.1 req f := by
  simp only [List.mem_cons, List.not_mem_nil, or_false] at hi
  rcases hi with rfl | rfl | rfl | rfl | rfl | rfl | rfl | rfl
  · exact ⟨_, show execKillLaunch req s = _ by rw [execKillLaunch]⟩
  · exact ⟨_, show execHaltCasting req s = _ by rw [execHaltCasting]⟩
  · exact ⟨_, show execReleaseCasting req s = _ by rw [execReleaseCasting]⟩
  · exact ⟨_, show execHaltThread req s = _ by rw [execHaltThread]⟩
  · exact ⟨_, show execReleaseThread req s = _ by rw [execReleaseThread]⟩
  · exact ⟨_, show execWatchdogLimit req s = _ by rw [execWatchdogLimit]⟩
  · exact ⟨_, show execReadContextStore req s = _ by rw [execReadContextStore]⟩
  · exact ⟨_, show execAttestationReport req s = _ by rw [execAttestationReport]⟩

theorem exists_doorbell_of_command {i : Word × Instr}
    (hi : i ∈ ([(1, .killLaunch req), (2, .haltCasting req), (3, .releaseCasting req),
    (4, .haltThread req), (5, .releaseThread req), (6, .watchdogLimit req), (7, .readContextStore req),
    (9, .attestationReport req)] : List (Word × Instr)) ++ [(8, .identityPublicKey req), (10, .loadFirmware req)]) (s : State) :
    ∃ code f, exec i.2 s = doorbell s code req f := by
  rcases List.mem_append.mp hi with hi | hi
  · obtain ⟨f, h⟩ := exists_command_of_gated hi s
    exact ⟨_, _, h.trans (by rw [command])⟩
  · simp only [List.mem_cons, List.not_mem_nil, or_false] at hi
    rcases hi with rfl | rfl
    · exact ⟨_, _, show execIdentityPublicKey req s = _ by rw [execIdentityPublicKey]⟩
    · exact ⟨_, _, show execLoadFirmware req s = _ by rw [execLoadFirmware]⟩

theorem exec_unknown (h : reachable s = true) (hb : s.mbox.busy = false)
    (hk : ¬ (1 ≤ code.toNat ∧ code.toNat ≤ 10 ∧ (s.phase ≠ .recovery ∨ code.toNat = 8 ∨ code.toNat = 10))) :
    exec (.unknownMailboxCommand code req) s = runs code ⟨asked s req, 1, []⟩ := by
  show execUnknownMailboxCommand code req s = _
  simp only [execUnknownMailboxCommand]
  rw [if_neg (by simpa [and_assoc, or_assoc] using hk), doorbell_runs h hb]

/-! ## Commands while the module is up -/

section Up

variable (h : reachable s = true) (hp : s.phase = .up) (hb : s.mbox.busy = false) {l : LaunchRef} {r : Record}
include h hp hb

theorem exec_kill : exec (.killLaunch req) s = runs 0x01 (killCommand (reqAfter s req) (asked s req)) := by
  show execKillLaunch req s = _
  rw [execKillLaunch, command_runs h hp hb]

/-- What the watchdog command leaves. -/
def limitCommand (req : List Word) (s : State) : Reply :=
  let l : LaunchRef := ⟨reqAt req 0, reqAt req 1⟩
  if 64 ≤ reqAt req 0 then badOperand s
  else if (launchOf s l).isSome then
    success { s with launches := s.launches.map fun x => if x.ref = l then { x with limit := reqAt req 2 } else x }
  else if (s.lq l.q).record.isSome ∧ (s.lq l.q).head.toNat = l.n then
    success (s.updLq l.q fun x => { x with limit := reqAt req 2 })
  else noTarget s

theorem exec_limit : exec (.watchdogLimit req) s = runs 0x06 (limitCommand (reqAfter s req) (asked s req)) := by
  show execWatchdogLimit req s = _
  rw [execWatchdogLimit, command_runs h hp hb]
  rfl

theorem exec_haltCasting : exec (.haltCasting req) s = runs 0x02 (haltCast true (reqAfter s req) (asked s req)) := by
  show execHaltCasting req s = _
  rw [execHaltCasting, command_runs h hp hb]

theorem exec_releaseCasting : exec (.releaseCasting req) s = runs 0x03 (haltCast false (reqAfter s req) (asked s req)) := by
  show execReleaseCasting req s = _
  rw [execReleaseCasting, command_runs h hp hb]

end Up

section Replies

variable {z : State} {l : LaunchRef} {r : Record} {all : List Word}

section Range

variable (hq : reqAt all 0 < 64) (hl : l = ⟨reqAt all 0, reqAt all 1⟩)
include hq hl

theorem killCommand_launch (h : (launchOf z l).isSome = true) : killCommand all z = success (killLaunch z l) := by
  subst hl
  simp only [killCommand]
  rw [if_neg (by omega), if_pos h]

theorem killCommand_held (h : launchOf z l = none) (hr : (z.lq l.q).record = some r) (hn : (z.lq l.q).head.toNat = l.n) :
    killCommand all z = success (killHeld z l.q r) := by
  subst hl
  simp only [killCommand]
  rw [if_neg (by omega), if_neg (by rw [h]; decide), hr]
  exact if_pos hn

theorem killCommand_none (h : launchOf z l = none) (hr : (z.lq l.q).record = none) : killCommand all z = noTarget z := by
  subst hl
  simp only [killCommand]
  rw [if_neg (by omega), if_neg (by rw [h]; decide), hr]

theorem limitCommand_launch (h : (launchOf z l).isSome = true) : limitCommand all z =
    success { z with launches := z.launches.map fun x => if x.ref = l then { x with limit := reqAt all 2 } else x } := by
  subst hl
  simp only [limitCommand]
  rw [if_neg (by omega), if_pos h]

theorem limitCommand_held (h : launchOf z l = none) (hr : (z.lq l.q).record = some r) (hn : (z.lq l.q).head.toNat = l.n) :
    limitCommand all z = success (z.updLq l.q fun x => { x with limit := reqAt all 2 }) := by
  subst hl
  simp only [limitCommand]
  rw [if_neg (by omega), if_neg (by rw [h]; decide), if_pos ⟨by rw [hr]; rfl, hn⟩]

theorem limitCommand_none (h : launchOf z l = none) (hr : (z.lq l.q).record = none) : limitCommand all z = noTarget z := by
  subst hl
  simp only [limitCommand]
  rw [if_neg (by omega), if_neg (by rw [h]; decide), if_neg fun ⟨hs, _⟩ => by rw [hr] at hs; cases hs]

end Range

theorem haltCast_halts {halt : Bool} {cid : Nat} {k : CastLive} (h0 : bits (reqAt all 0) 63 32 = 0)
    (h1 : bits (reqAt all 0) 26 19 < 192) (hc : cid = 256 * bits (reqAt all 0) 31 27 + bits (reqAt all 0) 26 19)
    (hk : (castSlot z cid).live = some k) (hg : (castSlot z cid).gen = bits (reqAt all 0) 18 0) :
    haltCast halt all z = success (updCast z cid fun k => { k with halted := halt }) := by
  subst hc
  simp only [haltCast]
  rw [if_neg (by omega), if_pos ⟨by rw [hk]; rfl, hg⟩]

end Replies

/-! ## Threads and context stores (17/R396, R401) -/

section Threads

variable (h : reachable s = true) (hp : s.phase = .up) (hb : s.mbox.busy = false) {key : Nat} {t : Thread}
  (h0 : reqAt (reqAfter s req) 0 < 32) (h1 : reqAt (reqAfter s req) 1 < 48)
  (hk : key = 64 * reqAt (reqAfter s req) 0 + reqAt (reqAfter s req) 1)

include h0 h1 hk in
theorem reqKey_eq : reqKey (reqAfter s req) = some key := by
  rw [reqKey, if_pos ⟨h0, h1⟩, hk]

include h hp hb h0 h1 hk

theorem exec_haltThread (ht : s.threadAt key = some t) :
    exec (.haltThread req) s = runs 0x04 (success ((asked s req).setThread key { t with halted := true })) := by
  have here : (asked s req).threadAt key = some t := ht
  show execHaltThread req s = _
  rw [execHaltThread, command_runs h hp hb, reqKey_eq h0 h1 hk]
  dsimp only
  rw [here, updThread_eq here]
  rfl

theorem exec_haltThread_none (ht : s.threadAt key = none) : exec (.haltThread req) s = runs 0x04 (noTarget (asked s req)) := by
  have none : (asked s req).threadAt key = none := ht
  show execHaltThread req s = _
  rw [execHaltThread, command_runs h hp hb, reqKey_eq h0 h1 hk]
  dsimp only
  rw [none]
  rfl

theorem exec_releaseThread (ht : s.threadAt key = some t) (hs : tabFind s.saved key = none) :
    exec (.releaseThread req) s = runs 0x05 (success ((asked s req).setThread key { t with halted := false })) := by
  have here : (asked s req).threadAt key = some t := ht
  have unsaved : tabFind (asked s req).saved key = none := hs
  show execReleaseThread req s = _
  rw [execReleaseThread, command_runs h hp hb, reqKey_eq h0 h1 hk]
  dsimp only
  rw [here, unsaved]

theorem exec_readContextStore (ho : reqAt (reqAfter s req) 2 % 256 = 0) (hl : reqAt (reqAfter s req) 2 < 0x1C00) {u : Thread}
    {tab : List Word} (hu : storedThread (asked s req) key = some (u, tab)) : exec (.readContextStore req) s = runs 0x07
      ⟨{ asked s req with free := s.free + 16 }, 0,
        ((((contextWords u tab s.free).drop (reqAt (reqAfter s req) 2 / 8)).take 32).map (natLe 8)).flatten⟩ := by
  show execReadContextStore req s = _
  rw [execReadContextStore, command_runs h hp hb, reqKey_eq h0 h1 hk]
  dsimp only
  rw [if_neg (by omega), hu]
  rfl

end Threads

/-! ## Identity and firmware (18/R427-R429) -/

theorem exec_identity (h : reachable s = true) (hb : s.mbox.busy = false) :
    exec (.identityPublicKey req) s = runs 0x08 ⟨asked s req, 0, natLe 64 Config.publicKey.toNat⟩ := by
  show execIdentityPublicKey req s = _
  rw [execIdentityPublicKey, doorbell_runs h hb]

theorem exec_attestation (h : reachable s = true) (hp : s.phase = .up) (hb : s.mbox.busy = false) :
    let b := reportBody (asked s req) (((List.range 4).map fun i => natLe 8 (reqAt (reqAfter s req) i)).flatten)
    exec (.attestationReport req) s = runs 0x09 ⟨asked s req, 0, b ++ natLe 64 (Config.sm2Sign b).toNat⟩ := by
  intro b
  show execAttestationReport req s = _
  rw [execAttestationReport, command_runs h hp hb]

/-- What a firmware load leaves: the image staged when its signature verifies. -/
def firmwareStaged (z : State) (b : List Byte) : State :=
  if Config.sm2Verify b then
    { z with free := z.free + 1, mbox := { z.mbox with
      staged := some b, fwLoads := z.mbox.fwLoads + 1, fwLog := z.mbox.fwLog ++ b } }
  else { z with free := z.free + 1 }

theorem exec_loadFirmware (h : reachable s = true) (hb : s.mbox.busy = false) {b : List Byte}
    (hi : imageBytes (asked s req) (reqAt (reqAfter s req) 0) (reqAt (reqAfter s req) 1) = some b) :
    exec (.loadFirmware req) s =
      runs 0x0A ⟨firmwareStaged (asked s req) b, 0, loadResp (asked s req) (Config.sm2Verify b)⟩ := by
  show execLoadFirmware req s = _
  rw [execLoadFirmware, doorbell_runs h hb, hi]
  simp only [firmwareStaged]
  split <;> rfl

theorem firmwareStaged_fwLoads (z : State) (b : List Byte) :
    (firmwareStaged z b).mbox.fwLoads = z.mbox.fwLoads + (if Config.sm2Verify b then 1 else 0) := by
  unfold firmwareStaged
  split <;> rfl

theorem firmwareStaged_staged (z : State) (b : List Byte) :
    (firmwareStaged z b).mbox.staged = if Config.sm2Verify b then some b else z.mbox.staged := by
  unfold firmwareStaged
  split <;> rfl

/-! ## The command's end, reset and heat (18/R412, 19/R432-R434) -/

theorem exec_commandEnd (hb : s.mbox.busy = true) (h : reachable s = true) : exec .mailboxCommandEnd s =
    .next { s with mbox := { s.mbox with
      busy := false, rstat := s.mbox.next.1, resp := s.mbox.next.2, msix0 := s.mbox.msix0 + 1 } } := by
  show execMailboxCommandEnd s = _
  rw [execMailboxCommandEnd, if_pos ⟨hb, h⟩]

theorem exec_commandEnd_idle (hb : s.mbox.busy = false) : exec .mailboxCommandEnd s = .next s := by
  show execMailboxCommandEnd s = _
  rw [execMailboxCommandEnd, if_neg fun ⟨h, _⟩ => ne_true_of_eq_false hb h]

theorem exec_reset_start : exec (.moduleReset .start) s =
    .next (resetState s .bringUp (s.mbox.staged.orElse fun _ => s.mbox.boot)) := by
  show execModuleReset .start s = _
  rw [execModuleReset]

theorem exec_reset_finish : exec (.moduleReset .finish) s = .next (if s.phase = .bringUp then endBringUp s else s) := by
  show execModuleReset .finish s = _
  rw [execModuleReset]

theorem exec_trip : exec .thermalTrip s = .next (powerOff s) := by
  show execThermalTrip s = _
  rw [execThermalTrip]

section Heat

variable {h : BitVec 8}

theorem exec_warning (h95 : 95 ≤ h.toNat) : exec (.thermalWarning h) s = .next (senseHeat h s) := by
  show execThermalWarning h s = _
  rw [execThermalWarning, if_pos h95]

theorem exec_warning_cool (h95 : h.toNat < 95) : exec (.thermalWarning h) s = .next s := by
  show execThermalWarning h s = _
  rw [execThermalWarning, if_neg (by omega)]

variable (hp : s.phase ≠ .off)
include hp

theorem senseHeat_trips (h110 : 110 ≤ h.toNat) : senseHeat h s = powerOff s := by
  rw [senseHeat, if_neg hp, if_pos h110]

theorem senseHeat_warns (h95 : 95 ≤ h.toNat) (h110 : h.toNat < 110) : senseHeat h s =
    { s with regs := { s.regs with therm := BitVec.ofNat 64 (2 ^ 16 + h.toNat) } } := by
  rw [senseHeat, if_neg hp, if_neg (by omega)]
  simp only [h95, decide_true, Bool.or_true, b2n, if_true, Nat.one_mul]

theorem senseHeat_reads (h95 : h.toNat < 95) : senseHeat h s = { s with regs := { s.regs with
    therm := BitVec.ofNat 64 (b2n (bit s.regs.therm.toNat 16) * 2 ^ 16 + h.toNat) } } := by
  have cool : decide (95 ≤ h.toNat) = false := decide_eq_false (by omega)
  rw [senseHeat, if_neg hp, if_neg (by omega)]
  simp only [cool, Bool.or_false]

end Heat

/-- Settles O52: each clause is one branch of its command or event. -/
theorem managementEvents : Obligations.ManagementEvents := by
  unfold Obligations.ManagementEvents
  intro s req code l k cid key t h r all m runs' gated commands
  refine ⟨fun i h32 hi => reqAfter_getElem? h32 hi, fun hr i hi => ?_, fun hr hb i hi => ?_, fun hr hp hb => ⟨fun i hi => ?_, fun h8 h10 => ?_⟩,
    exec_identity, fun hr hp hb => ?_, exec_commandEnd, exec_commandEnd_idle, ⟨_, exec_reset_start, rfl, rfl, rfl, rfl, rfl, rfl, rfl, rfl⟩,
    fun hp => ⟨fun hv => ?_, fun hv => ?_⟩, fun hp => ?_, ⟨_, exec_trip, rfl, rfl, rfl, fun hp h110 => ?_⟩, fun hp h95 h110 => ?_,
    fun hp h95 => congrArg _ (senseHeat_reads hp h95), exec_warning_cool⟩
  · obtain ⟨c, f, hd⟩ := exists_doorbell_of_command hi s
    rw [hd, doorbell_unreachable hr]
  · obtain ⟨c, f, hd⟩ := exists_doorbell_of_command hi s
    rw [hd, doorbell_busy hr hb]
    rfl
  · obtain ⟨f, hc⟩ := exists_command_of_gated hi s
    rw [hc, command_recovery hr hp hb]
    rfl
  · refine exec_unknown hr hb fun ⟨_, _, hk⟩ => ?_
    rcases hk with hk | hk | hk
    · exact hk hp
    · exact h8 (BitVec.eq_of_toNat_eq hk)
    · exact h10 (BitVec.eq_of_toNat_eq hk)
  · have kill := exec_kill (req := req) hr hp hb
    have limit := exec_limit (req := req) hr hp hb
    refine ⟨fun hq hl => ⟨fun hL => ?_, fun hL hrec hn => ?_, fun hL hrec => ?_⟩, fun hq => ?_, fun h0 h1 hc hk hg => ?_,
      fun h0 h1 hkey => ⟨fun ht => exec_haltThread hr hp hb h0 h1 hkey ht, fun ht hs => exec_releaseThread hr hp hb h0 h1 hkey ht hs,
        fun ht => exec_haltThread_none hr hp hb h0 h1 hkey ht,
        fun ho hlt u tab hu => exec_readContextStore hr hp hb h0 h1 hkey ho hlt hu⟩,
      exec_attestation hr hp hb, fun b hi => ⟨_, exec_loadFirmware hr hb hi, firmwareStaged_fwLoads _ b, firmwareStaged_staged _ b⟩,
      fun hc => exec_unknown hr hb fun ⟨h1, h10, _⟩ => by omega⟩
    · exact ⟨kill.trans (congrArg _ (killCommand_launch hq hl hL)), limit.trans (congrArg _ (limitCommand_launch hq hl hL))⟩
    · exact ⟨kill.trans (congrArg _ (killCommand_held hq hl hL hrec hn)), limit.trans (congrArg _ (limitCommand_held hq hl hL hrec hn))⟩
    · exact ⟨kill.trans (congrArg _ (killCommand_none hq hl hL hrec)), limit.trans (congrArg _ (limitCommand_none hq hl hL hrec))⟩
    · exact ⟨kill.trans (congrArg _ (if_pos hq)), limit.trans (congrArg _ (if_pos hq))⟩
    · exact ⟨(exec_haltCasting hr hp hb).trans (congrArg _ (haltCast_halts h0 h1 hc hk hg)),
        (exec_releaseCasting hr hp hb).trans (congrArg _ (haltCast_halts h0 h1 hc hk hg))⟩
  · rw [exec_reset_finish, if_pos hp, endBringUp, if_pos hv]
  · rw [exec_reset_finish, if_pos hp, endBringUp, if_neg (ne_true_of_eq_false hv)]
  · rw [exec_reset_finish, if_neg hp]
  · rw [exec_warning (by omega), senseHeat_trips hp h110]
  · rw [exec_warning h95, senseHeat_warns hp h95 h110]

end Sys2Proof.Proofs.ManagementEvents
end


section
/-! PROOFS. Requests of other members, lost members and the ends of pod operations (18/R413-R425). -/

namespace Sys2Proof.Proofs.PodEvents

open Sys2Proof Sys2Proof.Machine

variable {s : State} {m id p : Nat} {r : PodReq} {x : PodOp} {o : BitVec 3} {parts : List Contrib}

/-! ## Requests (18/R413, R418, R424, R425) -/

/-- What a request of another member leaves. -/
def performed (s : State) : PodReq → State
  | .read pa n => podRead s pa n
  | .write pa b => podStore s pa b
  | .atomic op pa v cmp => podAtomic s op.toNat pa v.toNat cmp.toNat
  | .multicast asid dst flag b => podPart s asid dst flag b
  | .barrier idx asid count =>
    let b := podBarrier (tabGet s.podBars idx.toNat {}) count.toNat asid
    answerWith { s with podBars := tabPut s.podBars idx.toNat b.1 } (natLe 8 b.2.toNat)
  | .treeValue set level part fl => if podSwitch s then s else takeTreeValue s set level part fl
  | .result set nth words fl => if podSwitch s then s else takeResult s set nth words fl

theorem podRequest_discarded (h : s.phase ≠ .up ∨ podState s m = 2 ∨ m = s.member) : exec (.podRequest m r) s = .next s := by
  show execPodRequest m r s = _
  unfold execPodRequest
  exact congrArg _ (if_pos (by tauto))

theorem podRequest_performed (hp : s.phase = .up) (hm : podState s m ≠ 2) (hs : m ≠ s.member) :
    exec (.podRequest m r) s = .next (performed s r) := by
  have admits : ¬ (s.phase ≠ .up ∨ m = s.member ∨ podState s m = 2) := by tauto
  show execPodRequest m r s = _
  unfold execPodRequest
  rw [if_neg admits]
  cases r <;> rfl

/-! ## Lost members (18/R414) -/

theorem memberUp_iff : memberUp s m = true ↔ podState s m = 1 := decide_eq_true_iff

section Lost

variable (hs : m ≠ s.member) (hu : memberUp s m = true)
include hs hu

theorem linkDown_fences : exec (.linkDown m) s = .next (noticeFence (fenceMember s m) m) := by
  show execLinkDown m s = _
  rw [execLinkDown, if_pos ⟨hs, hu⟩]

theorem timeout_fences (hr : ∃ n ∈ requestsTo s m, n + 1200000 ≤ s.cycle) :
    exec (.responseTimeout m) s = .next (noticeFence (fenceMember s m) m) := by
  have late : (requestsTo s m).any (fun n => n + 1200000 ≤ s.cycle) = true := by simpa using hr
  show execResponseTimeout m s = _
  rw [execResponseTimeout, if_pos ⟨hs, hu, late⟩]

end Lost

theorem timeout_waits (hr : ∀ n ∈ requestsTo s m, s.cycle < n + 1200000) : exec (.responseTimeout m) s = .next s := by
  have early : ¬ (requestsTo s m).any (fun n => n + 1200000 ≤ s.cycle) = true := by simpa using hr
  show execResponseTimeout m s = _
  rw [execResponseTimeout, if_neg fun h => early h.2.2]

theorem linkDown_fenced (h : podState s m = 2) : exec (.linkDown m) s = .next s := by
  show execLinkDown m s = _
  rw [execLinkDown, if_neg fun ⟨_, hu⟩ => by rw [memberUp_iff, h] at hu; cases hu]

theorem fenceNotice_fences (hp : s.phase = .up) (hu : memberUp s m = true) : exec (.fenceNotice m) s = .next (fenceMember s m) := by
  have up := memberUp_iff.mp hu
  show execFenceNotice m s = _
  rw [execFenceNotice, if_neg (by rw [up]; exact fun h => h.elim (· hp) (by decide))]

theorem fenceNotice_discarded (h : s.phase ≠ .up ∨ podState s m = 2) : exec (.fenceNotice m) s = .next s := by
  show execFenceNotice m s = _
  rw [execFenceNotice, if_pos h]

/-! ## Multicasts (18/R417-R419) -/

section Multicast

theorem free_sendEach (s : State) (ms : List Nat) (y : Nat) (b : PodBody) : (sendEach s ms y b).free = s.free := by
  have one (s : State) (z : HeldMsg) : (sendTo s z).free = s.free := by
    unfold sendTo
    split <;> rfl
  unfold sendEach
  generalize ms.filter (fun m => decide (m ≠ s.member) && memberUp s m) = l
  induction l generalizing s with
  | nil => rfl
  | cons a l ih => exact (ih _).trans (one ..)

/-- Its parts at the other members are sent. -/
def partsSent (x : PodOp) (s : State) : State :=
  sendEach s (podMembers x.set) x.dst.toNat (.multicast x.asid x.dst x.flag x.data)

/-- Some other member of its set is up; one of those waits for a port. -/
def othersUp (s : State) (x : PodOp) : Bool := (podMembers x.set).any fun m => m ≠ s.member && memberUp s m
def portDrains (s : State) (x : PodOp) : Bool :=
  (podMembers x.set).any fun m => m ≠ s.member && memberUp s m && portWaits s m x.dst.toNat

variable (hx : podOp s id = some x) (ho : x.op = none)
include hx ho

theorem complete_empty (hd : x.data = []) : exec (.podOpComplete id) s = .next (podFinish s x true) := by
  show execPodOpComplete id s = _
  simp only [execPodOpComplete, hx, ho, hd, Option.isSome_none, Bool.false_eq_true, if_false, List.isEmpty_nil, if_true]

variable (hd : x.data ≠ [])
include hd

theorem complete_waits (hw : portDrains s x = true) : exec (.podOpComplete id) s = .next s := by
  have full : x.data.isEmpty = false := by simpa using hd
  show execPodOpComplete id s = _
  simp only [execPodOpComplete, hx, ho, full, Option.isSome_none, Bool.false_eq_true, if_false]
  exact congrArg _ (if_pos hw)

/-- What ends a multicast whose own part is delivered. -/
def delivered (s : State) (x : PodOp) (d : State × Bool) : State :=
  podFinish { partsSent x d.1 with free := (partsSent x d.1).free + b2n (othersUp s x) } x
    (x.err || d.2 || (othersUp s x && (Config.freeWord (partsSent x d.1).free).getLsbD 0))

theorem complete_sends {d : State × Bool} (hw : portDrains s x = false) (hp : ownPart s x = .ok d) :
    exec (.podOpComplete id) s = .next (delivered s x d) := by
  have full : x.data.isEmpty = false := by simpa using hd
  show execPodOpComplete id s = _
  simp only [execPodOpComplete, hx, ho, full, Option.isSome_none, Bool.false_eq_true, if_false]
  rw [hp]
  exact congrArg _ (if_neg (ne_true_of_eq_false hw))

end Multicast

theorem delivered_alone {d : State × Bool} (h : othersUp s x = false) :
    delivered s x d = podFinish (partsSent x d.1) x (x.err || d.2) := by
  simp only [delivered, h, b2n, Bool.false_eq_true, if_false, Nat.add_zero, Bool.false_and, Bool.or_false]

theorem delivered_others {d : State × Bool} (h : othersUp s x = true) : delivered s x d =
    podFinish { partsSent x d.1 with free := d.1.free + 1 } x (x.err || d.2 || (Config.freeWord d.1.free).getLsbD 0) := by
  have free : (partsSent x d.1).free = d.1.free := free_sendEach ..
  simp only [delivered, h, b2n, if_true, Bool.true_and, free]

/-! ## Combines (18/R420-R424) -/

section Combine

variable (hx : podOp s id = some x) (ho : x.op = some o)
include hx ho

theorem failureNotice : exec (.combineFailureNotice id) s = .next (if x.err then podFail s x else podFinish s x true) := by
  show execCombineFailureNotice id s = _
  simp only [execCombineFailureNotice, hx, ho, Option.isNone_some, Bool.false_eq_true, if_false]

theorem combineResult_eq : exec (.combineResult id parts) s = .next (
    if podSwitch s then
      if !sameCombine x parts (contributions s x parts) then s
      else if x.err ∨ !(contributions s x parts).all (agrees x) then podFail s x
      else landResult s x (combineTree o.toNat 10 ((contributions s x parts).map (·.words)) 0).1
        (combineTree o.toNat 10 ((contributions s x parts).map (·.words)) 0).2
    else if x.err then podFail s x
    else (x.res.map fun r => landResult s x r.1 r.2).getD s) := by
  have op : x.part.op = o := by simp only [PodOp.part, ho, Option.getD_some]
  show execCombineResult id parts s = _
  simp only [execCombineResult, hx, ho, Option.isNone_some, Bool.false_eq_true, if_false, op]
  cases x.res <;> rfl

omit hx ho in
theorem landResult_lands {words : List W32} {fl : Flags} {w : State × Bool}
    (h : podWrite s x.agent true x.dst.toNat ((words.map fun v => natLe 4 v.toNat).flatten) = .ok w) :
    landResult s x words fl = podFinish (updByRef w.1 x.owner fun t => { t with flags := t.flags ||| fl }) x w.2 := by
  rw [landResult, h]

omit hx ho in
theorem sameCombine_iff {all : List Contrib} : sameCombine x parts all = true ↔
    (podMembers x.set).length = parts.length ∧ ∀ c ∈ all, c.nth = x.nth := by
  simp [sameCombine]

omit hx in
theorem agrees_iff {c : Contrib} : agrees x c = true ↔
    c.op = o ∧ c.tag = x.tag ∧ c.words.length = x.part.words.length := by
  have op : x.part.op = o := by simp only [PodOp.part, ho, Option.getD_some]
  simp [agrees, op, and_assoc]

section Switch

variable (hsw : podSwitch s = true)
include hsw

theorem combineResult_waits
    (h : (podMembers x.set).length ≠ parts.length ∨ ∃ c ∈ contributions s x parts, c.nth ≠ x.nth) :
    exec (.combineResult id parts) s = .next s := by
  have other : ¬ sameCombine x parts (contributions s x parts) = true := by
    rw [sameCombine_iff]
    rintro ⟨hl, hn⟩
    rcases h with h | ⟨c, hc, h⟩
    · exact h hl
    · exact h (hn c hc)
  rw [combineResult_eq hx ho, if_pos hsw, if_pos (by simpa using other)]

variable (hl : (podMembers x.set).length = parts.length) (hn : ∀ c ∈ contributions s x parts, c.nth = x.nth)
include hl hn

omit hx ho hsw in
theorem sameCombine_passes : ¬ (!sameCombine x parts (contributions s x parts)) = true := by
  simp only [sameCombine_iff.mpr ⟨hl, hn⟩, Bool.not_true, Bool.false_eq_true, not_false_eq_true]

theorem combineResult_fails (h : x.err = true ∨ ∃ c ∈ contributions s x parts,
    c.op ≠ o ∨ c.tag ≠ x.tag ∨ c.words.length ≠ x.part.words.length) : exec (.combineResult id parts) s = .next (podFail s x) := by
  have fails : x.err = true ∨ (!(contributions s x parts).all (agrees x)) = true := by
    refine h.imp_right fun ⟨c, hc, hne⟩ => ?_
    simp only [Bool.not_eq_true', List.all_eq_false]
    refine ⟨c, hc, fun hag => ?_⟩
    obtain ⟨h1, h2, h3⟩ := (agrees_iff ho).mp hag
    tauto
  rw [combineResult_eq hx ho, if_pos hsw, if_neg (sameCombine_passes hl hn), if_pos fails]

theorem combineResult_combines (he : x.err = false)
    (h : ∀ c ∈ contributions s x parts, c.op = o ∧ c.tag = x.tag ∧ c.words.length = x.part.words.length) :
    exec (.combineResult id parts) s = .next (landResult s x
      (combineTree o.toNat 10 ((contributions s x parts).map (·.words)) 0).1
      (combineTree o.toNat 10 ((contributions s x parts).map (·.words)) 0).2) := by
  have agree : (contributions s x parts).all (agrees x) = true := List.all_eq_true.mpr fun c hc => (agrees_iff ho).mpr (h c hc)
  rw [combineResult_eq hx ho, if_pos hsw, if_neg (sameCombine_passes hl hn), if_neg (by simp [he, agree])]

end Switch

theorem combineResult_tree (hsw : podSwitch s = false) : exec (.combineResult id parts) s =
    .next (if x.err then podFail s x else (x.res.map fun r => landResult s x r.1 r.2).getD s) := by
  rw [combineResult_eq hx ho, if_neg (ne_true_of_eq_false hsw)]

end Combine

/-! ## Ports (18/R413, R423) -/

theorem portGoesDown_again (h : s.ports.contains p = true) : exec (.portGoesDown p) s = .next s := by
  show execPortGoesDown p s = _
  rw [execPortGoesDown, if_pos h]

theorem portGoesDown_eq (h : s.ports.contains p = false) : exec (.portGoesDown p) s = .next (
    if podSwitch s then (s.podOps.filter fun x => x.op.isSome && x.port = p).foldl (fun s x => podFinish s x true)
      { s with ports := s.ports ++ [p] }
    else { s with ports := s.ports ++ [p] }) := by
  show execPortGoesDown p s = _
  rw [execPortGoesDown, if_neg (ne_true_of_eq_false h)]

/-- Settles O53: each clause is one branch of its event. -/
theorem podEvents : Obligations.PodEvents := by
  unfold Obligations.PodEvents
  intro s m id p r x parts
  refine ⟨podRequest_discarded, fun hp hm hs => ?_, fun hs hu => ⟨linkDown_fences hs hu, fun hp => fenceNotice_fences hp hu,
      timeout_fences hs hu, timeout_waits⟩, fenceNotice_discarded, linkDown_fenced, fun hx ho => ?_, fun o hx ho => ?_,
    portGoesDown_again, fun hport => ?_⟩
  · have performs := podRequest_performed (r := r) hp hm hs
    refine ⟨fun a n hr => ?_, fun a b hr => ?_, fun o a v c hr => ?_, fun a d f b hr => ?_, fun i a n hr => ⟨_, _, rfl, ?_⟩,
      fun a l c f hr => ?_, fun a k w f hr => ?_⟩ <;> subst hr <;> exact performs
  · intro others sends
    refine ⟨complete_empty hx ho, ?_⟩
    intro waits
    refine ⟨fun hd hw => complete_waits hx ho hd hw, fun d hd hw hp => ?_, fun hc => if_pos hc,
      fun hc => if_neg (ne_true_of_eq_false hc)⟩
    rw [complete_sends hx ho hd hw hp]
    exact ⟨fun h => congrArg _ (delivered_alone h), fun h => congrArg _ (delivered_others h)⟩
  · refine ⟨failureNotice hx ho, ?_⟩
    intro all lands
    refine ⟨fun hsw h => combineResult_waits hx ho hsw h, fun hsw hl hn => ⟨fun h => combineResult_fails hx ho hsw hl hn h,
      fun he h => ?_⟩, fun hsw => ⟨fun he => ?_, fun he hres => ?_, fun c he hres => ?_⟩⟩
    · intro c w hw
      rw [combineResult_combines hx ho hsw hl hn he h]
      exact congrArg _ (landResult_lands hw)
    · rw [combineResult_tree hx ho hsw, if_pos he]
    · rw [combineResult_tree hx ho hsw, he, hres]
      rfl
    · intro w hw
      rw [combineResult_tree hx ho hsw, he, hres]
      exact congrArg _ (landResult_lands hw)
  · rw [portGoesDown_eq hport]
    exact ⟨fun hsw => congrArg _ (if_neg (ne_true_of_eq_false hsw)), fun hsw => congrArg _ (if_pos hsw)⟩

end Sys2Proof.Proofs.PodEvents
end


section
/-! PROOFS. A step runs what the bytes decode to (15/R343, 02/R31, 08/R207, 11/R276). -/

namespace Sys2Proof.Proofs.Steps

open Sys2Proof Sys2Proof.Machine

variable {s u z : State} {key : Nat} {t : Thread} {i : Instr} {who : Waiter}

/-! ## The beginning of a cycle -/

theorem showAdded_cycle (s : State) : (showAdded s).cycle = s.cycle := rfl

theorem beginCycle_cycle (s : State) : (beginCycle s).cycle = s.cycle + 1 := by
  unfold beginCycle
  dsimp only
  rw [planned_cycle, showAdded_cycle]
  dsimp only
  rw [(sendHeld_within _).1, (performReleases_within _).1, (settleCredits_within _).1]
  rfl

theorem mem_sortBy {α : Type} (f : α → Nat) {x : α} {l : List α} : x ∈ sortBy f l ↔ x ∈ l := by
  have insert (y : α) (r : List α) : x ∈ insertBy f y r ↔ x = y ∨ x ∈ r := by
    induction r with
    | nil => simp [insertBy]
    | cons w r ih =>
      simp only [insertBy]
      split
      · simp
      · simp only [List.mem_cons, ih]
        tauto
  induction l with
  | nil => simp [sortBy]
  | cons y r ih => exact (insert y _).trans ((or_congr_right ih).trans List.mem_cons.symm)

/-- A thread that is due has its turn. -/
theorem thread_mem_turnsOf {due : List Move} {ns : List NodeRef} (h : .thread key ∈ due) : .thread key ∈ turnsOf s due ns := by
  have keys : key ∈ (due.filterMap threadOf).eraseDups := by
    rw [List.mem_eraseDups, List.mem_filterMap]
    exact ⟨_, h, rfl⟩
  simp only [turnsOf, List.mem_append, List.mem_map, mem_sortBy]
  by_cases hq : (threadInstr s key).any isQget = true
  · exact .inl (.inl (.inl ⟨key, List.mem_filter.mpr ⟨keys, hq⟩, rfl⟩))
  · refine .inl (.inl (.inr (.inl ⟨key, List.mem_filter.mpr ⟨keys, ?_⟩, rfl⟩)))
    simp [List.mem_filter, hq]

/-- An event that is due has its turn. -/
theorem event_mem_turnsOf {due : List Move} {ns : List NodeRef} (h : .event i ∈ due) : .event i ∈ turnsOf s due ns := by
  simp only [turnsOf, List.mem_append, List.mem_filter]
  by_cases ha : isAccess (.event i) = true
  · exact .inr ⟨h, ha⟩
  · exact .inl (.inr ⟨h, by simpa [threadOf] using ha⟩)

/-- The turns of a cycle are those of what is due. -/
theorem exists_turns_beginCycle (s : State) : ∃ u ns, (beginCycle s).turns =
    turnsOf u ((dueMoves s.core s.agenda).1.filter isAgendas) ns := ⟨_, _, rfl⟩

theorem beginCycle_thread (h : s.agenda = []) : .thread s.core ∈ (beginCycle s).turns := by
  obtain ⟨u, ns, turns⟩ := exists_turns_beginCycle s
  rw [turns, h]
  exact thread_mem_turnsOf (by simp [dueMoves, isAgendas])

theorem beginCycle_event {r : List (Nat × Move)} (h : s.agenda = (1, .event i) :: r) : .event i ∈ (beginCycle s).turns := by
  obtain ⟨u, ns, turns⟩ := exists_turns_beginCycle s
  rw [turns, h]
  exact event_mem_turnsOf (by simp [dueMoves, isAgendas])

theorem step_begins (h : s.turns = []) : step s = .next (beginCycle s) := by
  simp only [step, oneStep, h]

theorem step_takes {m : Move} {rest : List Move} (h : s.turns = m :: rest) : step s = stepMove { s with turns := rest } m := by
  simp only [step, oneStep, h]

/-! ## Sub-banks (11/R276) -/

/-- Since when an agent waits. -/
def waitsSince (s : State) (who : Waiter) : Nat := ((s.banked.find? fun w => w.who = who).map (·.since)).getD s.cycle

/-- The access of a turn, as it arrives at its sub-banks. -/
def bankWait (s : State) (who : Waiter) (u : State) : BankWait := ⟨who, waitsSince s who, u.busy.drop s.busy.length⟩

theorem atBanks_stands (h : bankFree (unwait who s) who.cluster (waitRank s (bankWait s who u)) (u.busy.drop s.busy.length) = true) :
    atBanks s who (.next u) = .next (unwait who u) := if_pos h

theorem atBanks_waits (h : bankFree (unwait who s) who.cluster (waitRank s (bankWait s who u)) (u.busy.drop s.busy.length) = false) :
    atBanks s who (.next u) = .next { s with banked := (s.banked.filter fun w => w.who ≠ who) ++ [bankWait s who u] } :=
  if_neg (ne_true_of_eq_false h)

/-! ## Threads (15/R343, 02/R31) -/

section Fetch

variable {b b2 : List Byte} {u1 u2 : State} (hb : fetchWord u key t t.pc = .ok (b, u1))
  (hs : isLong (wordOfBytes b) = false → b2 = [] ∧ u2 = u1)
  (hl : isLong (wordOfBytes b) = true → fetchWord u1 key t (t.pc + 4) = .ok (b2, u2))
include hb hs hl

theorem fetchMore : (if isLong (wordOfBytes b) then fetchWord u1 key t (t.pc + 4) else .ok ([], u1)) = .ok (b2, u2) := by
  split
  · exact hl ‹_›
  · obtain ⟨rfl, rfl⟩ := hs (eq_false_of_ne_true ‹_›)
    rfl

theorem fetchInstr_decodes {r : List Byte} (hd : decodeBytes (b ++ b2) = .ok (i, r)) :
    fetchInstr u key t = .ok (selectRow t i, u2) := by
  simp only [fetchInstr, hb]
  rw [fetchMore hb hs hl]
  simp only [hd]

theorem fetchInstr_illegal {e : Reject} (hd : decodeBytes (b ++ b2) = .error e) :
    fetchInstr u key t = .ok (.illegalInstruction (wordOfBytes b), u2) := by
  simp only [fetchInstr, hb]
  rw [fetchMore hb hs hl]
  simp only [hd]

end Fetch

section Thread

variable (ht : u.threadAt key = some t) (hp : u.phase = .up) (hh : t.halted = false) (hr : t.running = true) (hl : lateDue t = false)
  (ha : asyncDue t = false)
include ht hp hh hr hl ha

/-- A running thread to which nothing is to be delivered runs the instruction that it fetches. -/
theorem runThread_runs {u2 : State} (hf : fetchInstr u key t = .ok (i, u2)) : runThread u key = runInstr u2 key t i := by
  have next : nextInstr u key t = .ok (i, u2) := by
    simp only [nextInstr, hl, hr, Bool.not_true, Bool.false_eq_true, if_false, hf]
  have acts : ¬ (u.phase ≠ .up ∨ t.halted = true) := by simp [hp, hh]
  simp only [runThread, ht]
  rw [if_neg acts, next]
  simp only [ha, Bool.false_and, Bool.false_eq_true, if_false]

end Thread

/-- The waits that are not over, and the state that knows it. -/
def barredLeft (s : State) (key : Nat) (t : Thread) : List Barred := t.barred.filter fun w => !waitOver s (keyCluster key) t.ref w
def unbarred (s : State) (key : Nat) (t : Thread) : State :=
  if t.barred = [] then s else s.setThread key { t with barred := barredLeft s key t }

/-- A fence before it, or a release that waits, holds the instruction back. -/
def heldBack (s : State) (key : Nat) (t : Thread) (i : Instr) : Bool :=
  heldBy (unbarred s key t) (keyCluster key) t.ref (accessKinds (unbarred s key t) key t i) (barredLeft s key t) || acquireWaits t i

theorem runInstr_held (h : heldBack s key t i = true) : runInstr s key t i = .next (unbarred s key t) := by
  have state : (if t.barred.isEmpty then s else s.setThread key { t with barred := barredLeft s key t }) = unbarred s key t := by
    simp only [unbarred, List.isEmpty_iff]
  simp only [barredLeft] at state
  simp only [runInstr]
  rw [state]
  exact if_pos h

theorem runInstr_runs (h : heldBack s key t i = false) (he : exec i { unbarred s key t with core := key } = .next z) :
    runInstr s key t i = .next (noteAsked key t.asks z) := by
  have state : (if t.barred.isEmpty then s else s.setThread key { t with barred := barredLeft s key t }) = unbarred s key t := by
    simp only [unbarred, List.isEmpty_iff]
  simp only [barredLeft] at state
  simp only [runInstr]
  rw [state, he]
  exact if_neg (ne_true_of_eq_false h)

/-! ## Fabric instructions (09/R214) -/

section Node

variable {n : NodeRef} {k : CastLive} {w : Word}

theorem nodeInstr_of_nodeWord (hw : nodeWord s n = some w) (hd : decodeFabric w = .ok i) : nodeInstr s n = some i := by
  simp only [nodeInstr, hw, hd]

theorem turnNode_runs (hp : s.phase = .up) (hl : (castSlot s n.cast).live = some k) (hi : nodeInstr s n = some i)
    (hb : headBad k n = false) (he : exec i { s with node := n } = .next z) : turnNode s n = .next (tryRetire z n.cast) := by
  rw [turnNode, if_neg (not_not.mpr hp), hl, hi]
  dsimp only
  rw [if_neg (ne_true_of_eq_false hb), runNode, he]

theorem waitRank_node (hl : (castSlot s n.cast).live = some k) {since : Nat} {banks : List Nat} :
    waitRank s ⟨.node n, since, banks⟩ = nodeBankRank k n banks since := by
  simp only [waitRank, hl]

end Node

/-- Settles O54: the step takes the next turn, and each turn runs what it decodes. -/
theorem stepRunsDecoded : Obligations.StepRunsDecoded := by
  unfold Obligations.StepRunsDecoded
  intro s rest u since
  refine ⟨fun h => ⟨step_begins h, beginCycle_cycle s, beginCycle_thread, fun i r => beginCycle_event⟩, fun key h t b b2 u1 u2 hp ht hh hr hl ha
    hb hs hlong => ?_, fun n h k w i z hp hk hw hd hbad he => ?_, fun i h hfree => ?_⟩
  · intro c who left v answers runs
    have turn : step s = atBanks u who (runThread u key) := step_takes h
    have stands (z : State) (hz : runThread u key = .next z) : answers z := by
      have ends : step s = atBanks u who (.next z) := by rw [turn, hz]
      exact ⟨fun hf => ends.trans (atBanks_stands hf), fun hf => ends.trans (atBanks_waits hf)⟩
    have instr (i : Instr) (hf : fetchInstr u key t = .ok (i, u2)) : runs i := by
      have run := runThread_runs (u := u) ht hp hh hr hl ha hf
      exact ⟨fun hheld => stands _ (run.trans (runInstr_held hheld)), fun hheld z he => stands _ (run.trans (runInstr_runs hheld he))⟩
    exact ⟨fun i r hd => instr _ (fetchInstr_decodes hb hs hlong hd), fun e hd => instr _ (fetchInstr_illegal hb hs hlong hd)⟩
  · intro who v used hfree
    have turn : step s = atBanks u who (turnNode u n) := step_takes h
    rw [turn, turnNode_runs (s := u) hp hk (nodeInstr_of_nodeWord hw hd) hbad he]
    have rank : waitRank u (bankWait u who v) = nodeBankRank k n used (since who) := waitRank_node (s := u) hk
    refine atBanks_stands ?_
    show bankFree _ _ (waitRank u (bankWait u who v)) _ = true
    rw [rank]
    exact hfree
  · have turn : step s = stepEvent u i := step_takes h
    rw [turn]
    split
    · intro z he who hbank
      simp only [stepEvent, hfree, Bool.not_true, Bool.false_eq_true, if_false]
      rw [he]
      exact atBanks_stands hbank
    · intro z he who hbank
      simp only [stepEvent, hfree, Bool.not_true, Bool.false_eq_true, if_false]
      rw [he]
      exact atBanks_stands hbank
    · intro z he
      simp only [stepEvent, hfree, Bool.not_true, Bool.false_eq_true, if_false]
      rw [he]
    · simp only [stepEvent, hfree, Bool.not_true, Bool.false_eq_true, if_false]

end Sys2Proof.Proofs.Steps
end
